-- ==== Sys2Proof/Word.lean ====
section
/-! DEFINITION. The bit-vector types of the LX-2464's words, addresses and page numbers (00, section 8). -/

namespace Sys2Proof

/-- A memory word: 32 data bits (00, section 8). -/
abbrev Word := BitVec 32

/-- A byte lane of a word. -/
abbrev Byte := BitVec 8

/-- A byte address on the Memory Port and the Processor Bus Port: 24 bits (R1). -/
abbrev Addr := BitVec 24

/-- A page number, 0x000 to 0xFFF (00, section 8). -/
abbrev Page := BitVec 12

/-- The four byte enables of a host beat (R1); bit i enables bits 8i+7 to 8i of the word. -/
abbrev ByteEn := BitVec 4

end Sys2Proof
end

