-- ==== Sys2Proof/Types.lean ====
section
/-! DEFINITION. The names the spec gives to the junction's parts (03, R32, R33) and the small records that commands and state share. -/

namespace Sys2Proof

/-- A channel record's number (R19). -/
abbrev RecNo := Fin 256

/-- A position on the wavelength grid (00, section 7). -/
abbrev Slot := Fin 64

/-- A ramp engine, E0 to E7 (R98). -/
abbrev EngineNo := Fin 8

/-- The four line degrees. -/
inductive Degree
  | d1 | d2 | d3 | d4
  deriving DecidableEq, Repr

/-- The two add/drop groups. -/
inductive Group
  | g1 | g2
  deriving DecidableEq, Repr

/-- The six output points (R32). Each is driven by one module, D1 to D4 by M1 to M4 and G1, G2 by M5, M6,
so a module is named by its output point. -/
inductive OutPoint
  | deg (d : Degree)
  | grp (g : Group)
  deriving DecidableEq, Repr

/-- A port Gx.Py; `num` 0 stands for P1. -/
structure Port where
  group : Group
  num : Fin 12
  deriving DecidableEq, Repr

/-- What a module can select for a slot (R32). -/
inductive Input
  | deg (d : Degree)
  | grp (g : Group)
  | idler
  | block
  deriving DecidableEq, Repr

/-- An attenuation in units of 0.1 dB, or BLOCK (00, section 8). -/
inductive Att
  | db (n : Nat)
  | block
  deriving DecidableEq, Repr

/-- One slot's setting at a module: the input selected and the attenuation (R129, R130). -/
structure SlotSetting where
  input : Input
  att : Att
  deriving DecidableEq, Repr

/-- An endpoint of a channel record (R22, Table 2-3). -/
inductive Endpoint
  | deg (d : Degree)
  | port (p : Port)
  deriving DecidableEq, Repr

/-- Which of a record's two paths: the one it has, or the one it is getting (03, section 3.3). -/
inductive Half
  | old | new
  deriving DecidableEq, Repr

/-- The degrees in order. -/
def Degree.all : List Degree := [.d1, .d2, .d3, .d4]

/-- 0 for D1 to 3 for D4. -/
def Degree.idx : Degree → Nat
  | .d1 => 0 | .d2 => 1 | .d3 => 2 | .d4 => 3

/-- 0 for G1, 1 for G2. -/
def Group.idx : Group → Nat
  | .g1 => 0 | .g2 => 1

/-- The output points, and so the modules, in the order M1 to M6. -/
def OutPoint.all : List OutPoint :=
  [.deg .d1, .deg .d2, .deg .d3, .deg .d4, .grp .g1, .grp .g2]

/-- 0 for M1 to 5 for M6. -/
def OutPoint.idx : OutPoint → Nat
  | .deg d => d.idx
  | .grp g => 4 + g.idx

/-- One value for each line degree. -/
structure PerDegree (α : Type) where
  d1 : α
  d2 : α
  d3 : α
  d4 : α
  deriving DecidableEq, Repr

/-- The value of one degree. -/
def PerDegree.get {α : Type} (t : PerDegree α) : Degree → α
  | .d1 => t.d1 | .d2 => t.d2 | .d3 => t.d3 | .d4 => t.d4

/-- The table with one degree's value replaced. -/
def PerDegree.set {α : Type} (t : PerDegree α) (d : Degree) (v : α) : PerDegree α :=
  match d with
  | .d1 => { t with d1 := v }
  | .d2 => { t with d2 := v }
  | .d3 => { t with d3 := v }
  | .d4 => { t with d4 := v }

/-- The same value for every degree. -/
def PerDegree.const {α : Type} (v : α) : PerDegree α := ⟨v, v, v, v⟩

/-- One value for each output point, and so for each module. -/
structure PerPoint (α : Type) where
  deg : PerDegree α
  g1 : α
  g2 : α
  deriving DecidableEq, Repr

/-- The value of one output point. -/
def PerPoint.get {α : Type} (t : PerPoint α) : OutPoint → α
  | .deg d => t.deg.get d
  | .grp .g1 => t.g1
  | .grp .g2 => t.g2

/-- The table with one output point's value replaced. -/
def PerPoint.set {α : Type} (t : PerPoint α) (o : OutPoint) (v : α) : PerPoint α :=
  match o with
  | .deg d => { t with deg := t.deg.set d v }
  | .grp .g1 => { t with g1 := v }
  | .grp .g2 => { t with g2 := v }

/-- The same value for every output point. -/
def PerPoint.const {α : Type} (v : α) : PerPoint α := ⟨.const v, v, v⟩

/-- One write beat of the host: its data, its byte enables and whether it is the last beat of its cycle (R1). -/
structure BeatData where
  data : Word
  be : ByteEn
  last : Bool
  deriving DecidableEq, Repr

/-- The parts of a batch-word write beat other than its command code (R25, Table 2-6): the sequence field, the ignored
bits 15:8, the byte enables and whether it is the last beat of its cycle. -/
structure CommandBeat where
  seq : BitVec 16
  spare : BitVec 8
  be : ByteEn
  last : Bool
  deriving DecidableEq, Repr

/-- A SAMPLE frame as it comes off the monitor link (R114): whether it arrived whole, its checksum matched and its kind is
SAMPLE, then its fields. `point` is none where the field names no output point. -/
structure SampleFrame where
  whole : Bool
  checksumOk : Bool
  kindOk : Bool
  seq : BitVec 8
  point : Option OutPoint
  slot : Nat
  power : Int
  below : Bool
  deriving DecidableEq, Repr

/-- The head of a module's reply (R130): the module number it carries and whether its checksum matches. -/
structure ReplyHead where
  module : OutPoint
  checksumOk : Bool
  deriving DecidableEq, Repr

/-- The kinds of frame (R129). -/
inductive FrameKind
  | route | atten | read | ping
  deriving DecidableEq, Repr

end Sys2Proof
end

