-- ==== Sys2Proof/Syntax.lean ====
section
/-! DEFINITION. The commands of the LX-2464: one constructor for each row of spec/opcode_table.json, with its operands. -/

namespace Sys2Proof

/-- A command of the block. The docstring of each constructor names its row and the rule that gives its operands. -/
inductive Instr
  /-- HOST_READ_BEAT (R1, R4): address, byte enables (which a read ignores), last beat of the cycle. -/
  | hostReadBeat (addr : Addr) (be : ByteEn) (last : Bool)
  /-- HOST_WRITE_BEAT (R1, R4): address and beat. -/
  | hostWriteBeat (addr : Addr) (b : BeatData)
  /-- STAGING_WRITE (R6): record, word 0 to 2, beat. -/
  | stagingWrite (r : RecNo) (w : Fin 3) (b : BeatData)
  /-- REFUSED_WRITE_BEAT (R5): address and beat. -/
  | refusedWriteBeat (addr : Addr) (b : BeatData)
  /-- ANCHOR_WRITE (R9): word of the anchor page, beat. -/
  | anchorWrite (w : BitVec 10) (b : BeatData)
  /-- RESUME_WORD_WRITE (R10): save slot (0 stands for slot 1), beat. -/
  | resumeWordWrite (k : Fin 4) (b : BeatData)
  /-- ACKNOWLEDGE (R8, R176): a write beat to the attention word. -/
  | acknowledge (b : BeatData)
  /-- COMMIT (R25, R60): a batch-word write beat with code 1. -/
  | commit (c : CommandBeat)
  /-- CANCEL (R25, R61, R93): code 2. -/
  | cancel (c : CommandBeat)
  /-- HOLD (R25, R91): code 3. -/
  | hold (c : CommandBeat)
  /-- RELEASE (R25, R92): code 4. -/
  | release (c : CommandBeat)
  /-- RESUME (R25, R59): code 5. -/
  | resume (c : CommandBeat)
  /-- UNKNOWN_COMMAND (R25): any other code. -/
  | unknownCommand (code : BitVec 8) (c : CommandBeat)
  /-- RESET (R18): `cut` words of the burst in progress were written before it was abandoned. -/
  | reset (cut : Nat)
  /-- RESET_END (R2, R178): the value of ANCHOR_SEL. -/
  | resetEnd (strap : BitVec 2)
  /-- FIRST_QUALIFICATION (R141): degree, and whether the level is loss. -/
  | firstQualification (d : Degree) (loss : Bool)
  /-- QUALIFIED_LOSS (R141, R144). -/
  | qualifiedLoss (d : Degree)
  /-- QUALIFIED_CLEAR (R141, R142). -/
  | qualifiedClear (d : Degree)
  /-- HOLD_OFF_EXPIRY (R143). -/
  | holdOffExpiry (d : Degree)
  /-- PFW_ASSERTION (R185). -/
  | pfwAssertion
  /-- PFW_DEASSERTION (R185, R186). -/
  | pfwDeassertion
  /-- CAPTURE_TIME_ADVANCE (R30). -/
  | captureTimeAdvance
  /-- SAMPLE (R114, R118): the frame as received. -/
  | sample (f : SampleFrame)
  /-- INTAKE_QUEUE_TAKE (R119). -/
  | intakeQueueTake
  /-- SILENCE_TIMER_EXPIRY (R122). -/
  | silenceTimerExpiry
  /-- MEASURE (R115). -/
  | measure
  /-- TRANSACTION_BEGIN (R132). -/
  | transactionBegin
  /-- ROUTE_ACK (R130, R131): an ACK to a ROUTE. -/
  | routeAck (h : ReplyHead)
  /-- ATTEN_ACK (R130, R131): an ACK to an ATTEN. -/
  | attenAck (h : ReplyHead)
  /-- PING_ACK (R130, R137): an ACK to a PING. -/
  | pingAck (h : ReplyHead)
  /-- DATA (R130, R138): a DATA reply with the settings it carries. -/
  | data (h : ReplyHead) (settings : List SlotSetting)
  /-- NAK (R130): a NAK reply. -/
  | nak (h : ReplyHead)
  /-- REPLY_TIMER_EXPIRY (R130). -/
  | replyTimerExpiry
  /-- INTERVAL_EXPIRY (R103, R104): the engine. -/
  | intervalExpiry (e : EngineNo)
  /-- CAPTURE (R156). -/
  | capture
  /-- CAPTURE_WRITE_COMPLETE (R156, R160). -/
  | captureWriteComplete
  /-- RESUME_TAKEN (R161). -/
  | resumeTaken
  /-- RESUME_WORD_READ (R161). -/
  | resumeWordRead
  /-- POP (R161, R162). -/
  | pop
  /-- FETCH_READ (R62, R63). -/
  | fetchRead
  /-- MASK_READ (R64). -/
  | maskRead
  /-- PROFILE_READ (R64). -/
  | profileRead
  /-- ACTIVE_WRITE_BACK (R15). -/
  | activeWriteBack
  /-- END_STATE_WRITE (R95). -/
  | endStateWrite
  /-- CORRECTION_REWRITE (R170). -/
  | correctionRewrite
  /-- PACING_TIMER_EXPIRY (R173). -/
  | pacingTimerExpiry
  /-- SCRUB_READ (R173). -/
  | scrubRead
  /-- REBUILD_ANCHOR_READ (R179). -/
  | rebuildAnchorRead
  /-- REBUILD_PROFILE_READ (R179). -/
  | rebuildProfileRead
  /-- REBUILD_ACTIVE_READ (R179). -/
  | rebuildActiveRead
  /-- REBUILD_SAVE_READ (R179). -/
  | rebuildSaveRead
  /-- NEW_HALF_STAGING_READ (R180). -/
  | newHalfStagingRead
  /-- COMPARISON_READ (R57). -/
  | comparisonRead
  /-- ANCHOR_READ (R182). -/
  | anchorRead
  /-- ANCHOR_RE_READ (R184). -/
  | anchorReRead
  /-- ANCHOR_RE_READ_DONE (R184). -/
  | anchorReReadDone
  /-- OUTCOME_WORD_WRITE (R55). -/
  | outcomeWordWrite
  deriving DecidableEq, Repr

end Sys2Proof
end

