-- ==== Sys2Proof/WellFormed.lean ====
section
/-! DEFINITION. Which terms of Instr are commands of the block: the operand ranges their types do not already hold. -/

namespace Sys2Proof

/-- The five command codes of the batch word (R25). -/
def commandCodes : List (BitVec 8) := [1, 2, 3, 4, 5]

/-- The bursts of the part are of 1 to 4 words (R17), so a reset cuts one after 0 to 4 words. A batch-word write is an unknown
command only where its code is none of the five (R25). A power field is a whole number of a frame and is judged on arrival
(R114), so it is not bounded here. -/
def WellFormed : Instr → Bool
  | .reset cut => cut ≤ 4
  | .unknownCommand code _ => !commandCodes.contains code
  | .hostReadBeat _ _ _ | .hostWriteBeat _ _ | .stagingWrite _ _ _ | .refusedWriteBeat _ _ | .anchorWrite _ _
  | .resumeWordWrite _ _ | .acknowledge _ | .commit _ | .cancel _ | .hold _ | .release _ | .resume _ | .resetEnd _
  | .firstQualification _ _ | .qualifiedLoss _ | .qualifiedClear _ | .holdOffExpiry _ | .pfwAssertion | .pfwDeassertion
  | .captureTimeAdvance | .sample _ | .intakeQueueTake | .silenceTimerExpiry | .measure | .transactionBegin
  | .routeAck _ | .attenAck _ | .pingAck _ | .data _ _ | .nak _ | .replyTimerExpiry | .intervalExpiry _ | .capture
  | .captureWriteComplete | .resumeTaken | .resumeWordRead | .pop | .fetchRead | .maskRead | .profileRead
  | .activeWriteBack | .endStateWrite | .correctionRewrite | .pacingTimerExpiry | .scrubRead | .rebuildAnchorRead
  | .rebuildProfileRead | .rebuildActiveRead | .rebuildSaveRead | .newHalfStagingRead | .comparisonRead | .anchorRead
  | .anchorReRead | .anchorReReadDone | .outcomeWordWrite => true

end Sys2Proof
end

