-- ==== Sys2Proof/Decode.lean ====
section
/-! DEFINITION. The command a word spells by the bits spec/opcode_table.json gives its rows. No row of that table has bits
("fixed" and "fields" are empty in all 57), so no word spells a command. -/

namespace Sys2Proof

/-- The command spelled by a word of `nbits` bits: none, since the table gives no row any bits. -/
def decodeTableWord (_nbits _w : Nat) : Option Instr := none

end Sys2Proof
end

