-- ==== Sys2Proof/Config.lean ====
section
/-! DEFINITION. What the spec leaves to an implementation: free values with no body (assumption log 2 and 9). -/

namespace Sys2Proof.Config

/-- Which of the 39 stored bits of a word a non-zero syndrome names: 0 to 31 a data bit, 32 to 38 a check bit, none for a
syndrome that names no bit (R169). The spec gives no code table: a free value (log 2). -/
opaque syndromeBit : BitVec 7 → Option (Fin 39)

/-- How many base ticks a MEASURE frame is in transmission (R115). The spec gives no frame length: a free value (log 9). -/
opaque measureFrameTicks : Nat

/-- How many base ticks an actuator frame of a given kind and number of slots is on the line before its last bit, where the reply
timer starts (R129, R130). The spec gives no frame length: a free value (log 9). -/
opaque actFrameTicks : FrameKind → Nat → Nat

end Sys2Proof.Config
end

