-- ==== Sys2Proof/Machine/State.lean ====
section
/-! DEFINITION. The state of the LX-2464: every register, queue, table and mark the spec gives the part, the plan memory it works on,
and the queue of commands. Plain data. -/

namespace Sys2Proof.Machine

/-! ### How a step can stop -/

/-- No condition of the spec stops the part: errors are ERROR on the bus, codes in outcome words and states of modules. No step raises a
fault (safe: nothing is left out by one). -/
inductive Fault
  deriving DecidableEq, Repr

/-- Why a step can be refused. -/
inductive Refusal
  /-- Raised by `exec`'s arm of a command that has no meaning yet (safe). No arm does. -/
  | notModelled (mnemonic : String)
  deriving DecidableEq, Repr

/-! ### Memory and the bus -/

/-- The plan memory. `bytes` holds the data bytes, `syn` the syndrome that the stored check bits of a word give with its data, keyed by
the word's byte address (R168, R169; log 2). Both lists are in canonical form: rising keys, no zero entry. -/
structure Memory where
  bytes : List Host.Cell
  syn : List Host.Cell
  deriving DecidableEq, Repr

/-- A host beat on its way through the Bus Interposer (R1). -/
structure Beat where
  write : Bool
  addr : Addr
  data : Word
  be : ByteEn
  last : Bool
  deriving DecidableEq, Repr

/-- A beat given READY: its address, the word a read returned, and whether it was refused or failed (R1). -/
structure BeatEnd where
  addr : Addr
  word : Option Word
  failed : Bool
  deriving DecidableEq, Repr

/-- The Processor Bus Port (R1, R13). `granted` says that the host cycle has the Memory Port (R16, R17), and `reading` lists the active
records that its read beats have read under that grant (R15, R17; log 57). -/
structure BusPort where
  isOpen : Bool
  granted : Bool
  reading : List RecNo
  cycErr : Bool
  held : List Beat
  ready : Bool
  error : Bool
  finished : List BeatEnd
  deriving DecidableEq, Repr

/-- The four pages the anchor names (R3). -/
structure WindowMap where
  staging : Page
  active : Page
  status : Page
  save : Page
  deriving DecidableEq, Repr

/-- The fields of a valid anchor (R20, Table 2-1). -/
structure AnchorCfg where
  map : WindowMap
  budget : Nat
  fill : PerDegree Bool
  idler : PerDegree Nat
  autoRestore : Bool
  holdOff : Nat
  enables : BitVec 8
  scrub : Bool
  deriving DecidableEq, Repr

/-- The window map, the command watch (R3) and the anchor fields last read (R20). -/
structure Windows where
  anchorPage : Page
  map : Option WindowMap
  watch : Option Nat
  cfg : Option AnchorCfg
  deriving DecidableEq, Repr

/-- The hold set (R13). -/
structure Holds where
  fetch : Option RecNo
  wb : List RecNo
  deriving DecidableEq, Repr

/-- The protection record (R11, Table 2-6). -/
structure ProtRecord where
  filled : Bool
  further : Bool
  addr : Addr
  deriving DecidableEq, Repr

/-! ### Records, codes and the batch -/

/-- The nine rejection kinds (Table 2-4). -/
inductive RejCode
  | range | loopback | profile | slotBusy | sourceSlotBusy | groupSlotBusy | portBusy | sourceDark | unreadable
  deriving DecidableEq, Repr

/-- The five run-time failure kinds (Table 2-4). -/
inductive FailCode
  | underpower | noLight | monitorTimeout | module | sourceDark
  deriving DecidableEq, Repr

/-- What an outcome word can hold but NONE, which the part never writes (R23, Table 2-4). -/
inductive OutcomeCode
  | done | doneOffTarget | noChange
  | rej (c : RejCode)
  | notRun
  | fail (c : FailCode)
  | cancelled | abandoned
  deriving DecidableEq, Repr

/-- The eight kinds of a classified record (R69). -/
inductive Kind
  | noChange | remove | adopt | add | move | retune | restore | complete
  deriving DecidableEq, Repr

/-- A record's verdict (R55). -/
inductive Verdict
  | unjudged
  | kind (k : Kind)
  | rej (c : RejCode)
  deriving DecidableEq, Repr

/-- The fields of a CONNECTION record (R22). -/
structure HostFields where
  slot : Slot
  src : Endpoint
  dst : Endpoint
  target : Int
  profile : Fin 8
  permit : Bool
  tag : BitVec 16
  deriving DecidableEq, Repr

/-- Words 0 to 2 of a record as they were read (R55). -/
structure HostWords where
  w0 : Word
  w1 : Word
  w2 : Word
  deriving DecidableEq, Repr

/-- A staged record as its format gives it (R22). -/
inductive Staged
  | empty
  | conn (f : HostFields)
  deriving DecidableEq, Repr

/-- The states of the sequencer (R54). -/
inductive SeqState
  | unconfigured | rebuilding | idle | fetching | checking | running | holding | held | cancelling | suspended | powerdown
  deriving DecidableEq, Repr

/-- The states of the batch state word (R27, Table 2-6). -/
inductive BatchWordState
  | none | fetching | checking | running | holding | held | cancelling | suspended
  | done | doneWithFailures | refused | cancelled | abandoned
  deriving DecidableEq, Repr

/-- The batch state word's two fields (R27). -/
structure BatchWord where
  st : BatchWordState
  seq : BitVec 16
  deriving DecidableEq, Repr

/-- The counters word's five counts (R27). -/
structure Counters where
  total : Nat
  done : Nat
  rejected : Nat
  failed : Nat
  other : Nat
  deriving DecidableEq, Repr

/-- An entry of the batch record list (R55). `copy` is none for the mark *unreadable*; `held` says the batch holds the record. -/
structure BatchRec where
  no : RecNo
  copy : Option HostWords
  verdict : Verdict
  held : Bool
  deriving DecidableEq, Repr

/-- What the Plan Sequencer is doing with the present batch, apart from the sequencer state (R62, R66, R76, R77). -/
inductive BatchWork
  | none | fetch | check | run
  deriving DecidableEq, Repr

/-- How a recovery batch was started (R183): by ABANDON or not, and with return-to-held or not. -/
structure Recovery where
  abandon : Bool
  toHeld : Bool
  deriving DecidableEq, Repr

/-- The batch context (R55), with the marks that say how far the batch is. `lossStop` says that a degree has gone from LIT to DARK while
the batch ran and no capture has been taken since, so that no step of it is issued (R83; log 58). -/
structure Batch where
  present : Bool
  ending : Bool
  seq : BitVec 16
  refuse : BitVec 9
  stop : BitVec 5
  counters : Counters
  phase : Nat
  list : List BatchRec
  abandon : Bool
  stopPending : Bool
  work : BatchWork
  lastFetched : Option RecNo
  recovery : Option Recovery
  lossStop : Bool
  deriving DecidableEq, Repr

/-- The parts of an anchor re-read (R184). -/
inductive Reread
  | none | anchor | compare
  deriving DecidableEq, Repr

/-- The Plan Sequencer apart from its batch (R54, R55, R182, R184). -/
structure Sequencer where
  st : SeqState
  shown : BatchWord
  kept : Option BatchWord
  rereadDue : Bool
  reread : Reread
  anchorRead : Bool
  anchorAgain : Bool
  lastResp : Word
  deriving DecidableEq, Repr

/-- The steps of a chain (00, section 7) and RETURNING, a rollback's engine step (Table 2-8). -/
inductive ChainStep
  | connect | disconnect | rampDown | rampUp | rampRetune | verify | returning
  deriving DecidableEq, Repr

/-- The states of a Transition Queue entry (R78). -/
inductive EntryState
  | waiting | begun | done | failed | rollingBack | cancelled | abandoned
  deriving DecidableEq, Repr

/-- A Transition Queue entry (R78). The head of `chain` is the step under the cursor; a rollback or a reversal stands in `chain` in place
of the entry's own. `void` is the void mark with the code reported with it; `reversing` says ABANDON reverses the entry (R165). -/
structure Entry where
  no : RecNo
  kind : Kind
  oldP : Option Nat
  newP : Option Nat
  chain : List ChainStep
  half : Half
  st : EntryState
  fail : Option FailCode
  void : Option FailCode
  reversing : Bool
  deriving DecidableEq, Repr

/-- A cached profile (R28): `valid` as judged when the cache was filled; the fields as stored. -/
structure Profile where
  valid : Bool
  start : Nat
  up : Nat
  down : Nat
  load : Nat
  x16 : Bool
  maxAdj : Nat
  lag : Nat
  lead : Nat
  tol : Nat
  deriving DecidableEq, Repr

/-! ### Connection Table -/

/-- An end of a path: a degree, a port, or for a foreign path at a group the group alone (R34). -/
inductive PathEnd
  | deg (d : Degree)
  | port (p : Port)
  | grp (g : Group)
  deriving DecidableEq, Repr

/-- The states of a path (R38). -/
inductive PathState
  | reserved | connecting | ramping | live | offTarget | squelched | releasing | inFlight | discrepant | foreign
  deriving DecidableEq, Repr

/-- A path's route (R37). -/
inductive PathRoute
  | source | fill
  deriving DecidableEq, Repr

/-- Target power, profile, auto-restore permit and tag of a path (R37); a foreign path has none. -/
structure PathInfo where
  target : Int
  profile : Fin 8
  permit : Bool
  tag : BitVec 16
  deriving DecidableEq, Repr

/-- A pending target and profile, and for a COMPLETE the pending permit and tag (R44). -/
structure PendingInfo where
  target : Int
  profile : Fin 8
  permitTag : Option (Bool × BitVec 16)
  deriving DecidableEq, Repr

/-- A path (R37). `pid` is the model's name for it (log 31). `rerouting` says its CONNECT was issued afresh by a RETRY since its last
squelch, so that its acknowledgement clears the squelched mark (R49, R164). `claimed` is the record whose adoption claims it (R48).
`readInput` is the input that rebuild's readback showed at its output point and slot, none without a readback (R69, R180; log 43). -/
structure Path where
  pid : Nat
  owner : Option (RecNo × Half)
  slot : Slot
  src : PathEnd
  dst : PathEnd
  info : Option PathInfo
  pend : Option PendingInfo
  st : PathState
  route : PathRoute
  att : Att
  squelched : Bool
  rerouting : Bool
  engine : Option EngineNo
  measured : Option Int
  leaving : Bool
  claimed : Option RecNo
  readInput : Option Input
  deriving DecidableEq, Repr

/-- An entry of one of the six occupancy maps (R35). -/
inductive Res
  | out (o : OutPoint) (n : Slot)
  | inp (d : Degree) (n : Slot)
  | addSlot (g : Group) (n : Slot)
  | dropSlot (g : Group) (n : Slot)
  | addPort (p : Port)
  | dropPort (p : Port)
  deriving DecidableEq, Repr

/-- A map entry that is owned: its owner and its pledge (R35). An entry not listed is free. -/
structure Occ where
  res : Res
  owner : Nat
  pledge : Option Nat
  deriving DecidableEq, Repr

/-- The path states a completed state can hold (R41). -/
inductive DoneState
  | live | offTarget | squelched | discrepant
  deriving DecidableEq, Repr

/-- A copy of a path taken at a fix (R41). -/
structure DonePath where
  st : DoneState
  host : HostFields
  att : Att
  measured : Option Int
  deriving DecidableEq, Repr

/-- A record's completed state (R41). -/
inductive Completed
  | empty
  | lost
  | path (p : DonePath)
  deriving DecidableEq, Repr

/-- The Connection Table (03). `done` lists the records whose completed state is not EMPTY, in rising order. -/
structure ConnTable where
  paths : List Path
  occ : List Occ
  done : List (RecNo × Completed)
  nextPid : Nat
  deriving DecidableEq, Repr

/-! ### Ramp Bank -/

/-- The states of an engine (R98). -/
inductive EngState
  | free | armed | stepping | verifying | returning
  deriving DecidableEq, Repr

/-- The step kinds of an engine request (R99). -/
inductive RampKind
  | rampUp | rampRetune | rampDown | verify | returning
  deriving DecidableEq, Repr

/-- An engine's direction (R99). -/
inductive Direction
  | none | falling | rising
  deriving DecidableEq, Repr

/-- An engine's command state (R99). -/
inductive CmdState
  | none | waiting | unanswered
  deriving DecidableEq, Repr

/-- An engine's sample state (R99). -/
inductive SampState
  | none | outstanding | arrived | lost
  deriving DecidableEq, Repr

/-- Whom an engine serves (R99): the path, its record, and whether the requester is a restore. -/
structure EngOwner where
  pid : Nat
  no : RecNo
  restore : Bool
  deriving DecidableEq, Repr

/-- A ramp engine (R98, R99). `grant` is the model's number of the grant it is held under (log 31); `fromHeld` says a RAMP_UP starts
from the attenuation held (R100); `counting` says that the first tick after the grant has come, at which the count begins (R103). -/
structure Engine where
  st : EngState
  grant : Nat
  owner : Option EngOwner
  kind : RampKind
  fromHeld : Bool
  prof : Profile
  target : Int
  dir : Direction
  adj : Int
  load : Nat
  count : Nat
  counting : Bool
  cmd : CmdState
  samp : SampState
  sample : Option Int
  prev : Option Int
  expected : Option Int
  miss : Nat
  wanted : Nat
  first : Option Int
  deriving DecidableEq, Repr

/-- A request on the Engine Wait List (R100). -/
structure EngRequest where
  owner : EngOwner
  kind : RampKind
  fromHeld : Bool
  out : OutPoint
  prof : Profile
  deriving DecidableEq, Repr

/-- The Ramp Bank (R98 to R103). -/
structure RampBank where
  engines : Vector Engine 8
  wait : List EngRequest
  presc : Nat
  nextGrant : Nat
  deriving DecidableEq, Repr

/-! ### Monitor Port -/

/-- An engine with the grant it asked under (R116). -/
structure Asker where
  engine : EngineNo
  grant : Nat
  deriving DecidableEq, Repr

/-- A request on the send list (R115). -/
structure SendReq where
  asker : Asker
  point : OutPoint
  slot : Slot
  deriving DecidableEq, Repr

/-- An entry of the Outstanding Request List (R116); no asker means orphaned (R117). -/
structure OutReq where
  seq : BitVec 8
  point : OutPoint
  slot : Slot
  asker : Option Asker
  deriving DecidableEq, Repr

/-- A sample in the Intake Queue (R118). -/
structure IntakeEntry where
  seq : BitVec 8
  point : OutPoint
  slot : Slot
  power : Int
  below : Bool
  overwritten : Bool
  deriving DecidableEq, Repr

/-- The Monitor Port (07) but for the Power Table. -/
structure Monitor where
  send : List SendReq
  out : List OutReq
  nextSeq : BitVec 8
  stale : List (BitVec 8)
  intake : List IntakeEntry
  linkUp : Bool
  silence : Nat
  txLeft : Nat
  deriving DecidableEq, Repr

/-- A Power Table cell that holds a value (R124), oldest value first. A cell not listed holds none. -/
structure PowerCell where
  point : OutPoint
  slot : Slot
  vals : List Int
  deriving DecidableEq, Repr

/-! ### Actuator Port -/

/-- A module's state (R135). -/
inductive ModState
  | online | faulted | refreshing
  deriving DecidableEq, Repr

/-- What a batch entry's or a restore's ROUTE is for: CONNECT, or DISCONNECT that removes the path or (for a RESTORE) keeps it (R46). -/
inductive RouteUse
  | connect | disconnect | disconnectKeep
  deriving DecidableEq, Repr

/-- Who asked for an actuator command (R131, R132). `gone` stands for a restore that was stopped while its command was in transmission: it is
told nothing, and the completion still reaches the path that the command was sent for. -/
inductive Requester
  | entry (r : RecNo) (pid : Nat) (use : RouteUse)
  | restore (r : RecNo) (pid : Nat) (use : RouteUse)
  | engine (e : EngineNo) (grant : Nat) (owner : EngOwner)
  | squelch
  | refresh
  | fillChange
  | readback
  | gone (pid : Nat)
  deriving DecidableEq, Repr

/-- A frame not yet begun (R132). `built` false means that its values are taken from the image when its transaction begins. -/
structure ActCmd where
  module : OutPoint
  kind : FrameKind
  start : Nat
  count : Nat
  vals : List SlotSetting
  built : Bool
  req : Requester
  deriving DecidableEq, Repr

/-- The transaction in progress (R128, R130): its frame, the attempt (1 or 2), the base ticks until its last bit, and the reply timer. -/
structure Txn where
  cmd : ActCmd
  attempt : Nat
  sendLeft : Nat
  timer : Nat
  deriving DecidableEq, Repr

/-- The refresh pass (R137): the modules left, the first being in work. -/
structure RefreshPass where
  mods : List OutPoint
  deriving DecidableEq, Repr

/-- The Actuator Port (08). -/
structure Actuator where
  ordinary : List ActCmd
  urgent : List ActCmd
  wait : List ActCmd
  txn : Option Txn
  mods : PerPoint ModState
  refresh : Option RefreshPass
  deriving DecidableEq, Repr

/-! ### Light Supervisor -/

/-- A degree's light state (R142). -/
inductive LightState
  | lit | dark | holdoff
  deriving DecidableEq, Repr

/-- A qualifier (R141, R185): the level on the pin, the qualified level or none, the run count. For a LOS input `true` is loss, for
PFW_N `true` is asserted. -/
structure Qualifier where
  pin : Bool
  level : Option Bool
  run : Nat
  deriving DecidableEq, Repr

/-- A restore under way (R149): its record, its path and the step it stands on. -/
structure Restore where
  no : RecNo
  pid : Nat
  step : ChainStep
  deriving DecidableEq, Repr

/-- The Light Supervisor (09). `restoresHeld` says that a degree was squelched and its capture asked for, and that the depth has not returned to 0
since: until it does no entry of the Restore List begins (R152; log 101). -/
structure Light where
  qual : PerDegree Qualifier
  state : PerDegree LightState
  holdOff : PerDegree (Option Nat)
  changeSet : PerDegree Bool
  lossSeen : PerDegree Bool
  restoreList : List (RecNo × Degree)
  begun : List Restore
  restoresHeld : Bool
  deriving DecidableEq, Repr

/-! ### Interruption Unit -/

/-- Where a capture request comes from (R155). -/
inductive CaptureSource
  | los (d : Degree)
  | powerFail
  | module (m : OutPoint)
  deriving DecidableEq, Repr

/-- An item of the work list (R155). -/
inductive WorkItem
  | capture (c : CaptureSource)
  | resume
  deriving DecidableEq, Repr

/-- A resume action (R31). -/
inductive ResumeAction
  | cont | retry | abandon
  deriving DecidableEq, Repr

/-- How far a RESUME in progress is (R161). -/
inductive ResumeStage
  | reading | refreshing | popping
  deriving DecidableEq, Repr

/-- The item in progress. A capture keeps the sequencer state noted, the engine each entry held when it began (R157), and whether it
still waits for the transaction in progress (R156, step 4). A RESUME keeps the action and return-to-held read (R161). -/
inductive ItemInProgress
  | capture (src : CaptureSource) (noted : SeqState) (engines : List (RecNo × EngineNo)) (waiting : Bool)
  | resume (stage : ResumeStage) (action : ResumeAction) (toHeld : Bool)
  deriving DecidableEq, Repr

/-- The Interruption Unit (10). `images` holds the 16 words of each outstanding record's slot, slot 1 first. -/
structure Interruption where
  depth : Nat
  work : List WorkItem
  item : Option ItemInProgress
  header : Nat
  images : List (List Word)
  deriving DecidableEq, Repr

/-! ### Integrity Unit and Attention Unit -/

/-- The kind of a memory fault (R171). -/
inductive MemFaultKind
  | none | corrected | uncorrectable
  deriving DecidableEq, Repr

/-- The requester of a memory fault (R171). -/
inductive MemFaultReq
  | hostRead | hostPartialWrite | fetch | rebuild | scrub
  deriving DecidableEq, Repr

/-- The Memory Fault Record (R171). -/
structure MemFault where
  kind : MemFaultKind
  req : MemFaultReq
  addr : Nat
  syndrome : BitVec 7
  further : Bool
  deriving DecidableEq, Repr

/-- A waiting correction rewrite (R170); `written` says its word was written after the read that corrected it. -/
structure Rewrite where
  addr : Nat
  data : Word
  written : Bool
  deriving DecidableEq, Repr

/-- The scrubber (R173): whether its pacing timer has been started, the page (0 anchor, 1 staging, 2 active, 3 status, 4 save) and word of
its pointer, and the timer. -/
structure Scrubber where
  started : Bool
  page : Fin 5
  word : BitVec 10
  timer : Nat
  deriving DecidableEq, Repr

/-- The Integrity Unit (11). -/
structure Integrity where
  mfr : MemFault
  rewrites : List Rewrite
  scrub : Scrubber
  deriving DecidableEq, Repr

/-- The Attention Unit (R175): bit (rank - 1) of each set for each cause. -/
structure Attention where
  pending : BitVec 8
  enable : BitVec 8
  deriving DecidableEq, Repr

/-! ### Start-up Controller and clock -/

/-- The rebuild stages (12). -/
inductive Stage
  | none | anchor | profiles | active | save | readback | adopt | rewrite | compare
  deriving DecidableEq, Repr

/-- An in-flight item as a save slot holds it (R157, Table 2-8). -/
structure InFlight where
  no : RecNo
  half : Half
  step : Nat
  att : Att
  engine : Option EngineNo
  deriving DecidableEq, Repr

/-- An active record that yields a path at rebuild (R179): its number, its state, its fields, the attenuation it shows. -/
structure Yield where
  no : RecNo
  st : DoneState
  host : HostFields
  att : Att
  deriving DecidableEq, Repr

/-- What rebuild has read of the save page so far (R179): the header's depth where it was readable and at most 4, the limit of the count,
the slots counted so far, and whether the count has ended. -/
structure SaveScan where
  header : Option Nat
  limit : Nat
  slots : List (List Word)
  ended : Bool
  deriving DecidableEq, Repr

/-- What a module's READ at rebuild gave (R138): nothing yet, no readback, or 64 settings. -/
inductive Readback
  | unread
  | missing
  | given (l : List SlotSetting)
  deriving DecidableEq, Repr

/-- A finish that waits for the end of POWERDOWN (R97): an entry's with its end state and whether its pending fields apply, or a restore's. -/
inductive Deferred
  | entry (r : RecNo) (st : EntryState) (applied : Bool)
  | restore (r : RecNo)
  deriving DecidableEq, Repr

/-- The Start-up Controller (12) and the reset pin. `readPart` holds the words that the earlier bursts of a record's read gave, each with
whether it is uncorrectable (R17), `endWord` the batch state word as read for the end of rebuild (R27), and `anchorSeen` memory as it stood when the
anchor re-read in progress began, which is what the re-read reads the anchor from (R9); none where no re-read reads. -/
structure Startup where
  inReset : Bool
  stage : Stage
  powerdown : Bool
  pfw : Qualifier
  yields : List Yield
  save : SaveScan
  readPart : List (Word × Bool)
  endWord : Word
  anchorSeen : Option Memory
  readback : PerPoint Readback
  newHalves : List InFlight
  discrepancies : Nat
  deferred : List Deferred
  deriving DecidableEq, Repr

/-- The counts of the reference clock (00, section 6; R30, R143): base ticks within a millisecond, base ticks within a slow tick, and the
capture-time millisecond count. -/
structure Clock where
  sub100 : Nat
  slow : Nat
  ms : BitVec 32
  deriving DecidableEq, Repr

/-! ### Requests at the Memory Port arbiter -/

/-- Which of the three anchor reads it is (R179, R182, R184). -/
inductive AnchorWhy
  | rebuild | unconfigured | reread
  deriving DecidableEq, Repr

/-- A waiting request of the part at the Memory Port arbiter (R16). Correction rewrites stand in `Integrity.rewrites`. Save slots are
numbered 1 to 4. -/
inductive PortReq
  /-- Command response word (R25). -/
  | response (w : Word)
  /-- Batch state word (R27). -/
  | batchState (b : BatchWord)
  /-- Batch state word with an end state, whose completion ends the batch (R95). -/
  | endState (b : BatchWord)
  /-- Counters (R27). -/
  | counters (c : Counters)
  /-- Attention word (R177). -/
  | attention
  /-- Protection record (R11). -/
  | protection
  /-- Memory Fault Record (R171). -/
  | memFault
  /-- Light word (R145). -/
  | light
  /-- Monitor word (R122, R123). -/
  | monitor (up : Bool)
  /-- Module word (R135). -/
  | modules
  /-- Active record (R15). -/
  | active (r : RecNo)
  /-- Outcome word (R23). -/
  | outcome (r : RecNo) (c : OutcomeCode) (seq : BitVec 16)
  /-- One of the four bursts of a save slot (R30). -/
  | slotBurst (k b : Nat) (ws : List Word)
  /-- The last burst of a merged slot 4 (R160). -/
  | mergeEnd (ws : List Word)
  /-- Save header of a capture (R156). -/
  | captureHeader (depth : Nat)
  /-- Word 0 of a save slot (R161, R179). -/
  | slotWord0 (k : Nat) (w : Word)
  /-- Save header of a pop (R161). -/
  | popHeader (depth : Nat)
  /-- Save header written by rebuild or by a re-read that moves the save page (R179, R30). -/
  | saveHeader (depth : Nat)
  /-- Fetch read of a staging record (R62). -/
  | fetchRec (r : RecNo)
  /-- Mask read (R64). -/
  | fetchMasks
  /-- Profile read of a fetch (R64). -/
  | fetchProf (k : Fin 8)
  /-- Resume-word read (R161). -/
  | resumeWord (k : Nat)
  /-- The first burst of an anchor read: words 0 to 3 (R17). -/
  | anchorHead
  /-- The last burst of an anchor read: words 4 to 6. -/
  | anchor (why : AnchorWhy)
  /-- Profile read of rebuild (R179). -/
  | rbProf (k : Fin 8)
  /-- Active-record read of rebuild (R179). -/
  | rbActive (r : RecNo)
  /-- Save-header read of rebuild (R179). -/
  | rbHeader
  /-- One of the first three bursts of rebuild's read of a save slot (R17, R179). -/
  | rbSlotPart (k b : Nat)
  /-- The last burst of rebuild's read of a save slot: words 12 to 15 (R179). -/
  | rbSlot (k : Nat)
  /-- Read of word 0 of a slot above the depth found (R179). -/
  | rbTail (k : Nat)
  /-- Staging read of an in-flight new half (R180). -/
  | newHalf (i : InFlight)
  /-- Read of the batch state word for the end of rebuild (R27). -/
  | rbBatchState
  /-- Staging read of the comparison (R57). -/
  | compare (r : RecNo)
  /-- Scrub read of the word at a byte address (R173). -/
  | scrub (addr : Nat)
  deriving DecidableEq, Repr

/-! ### The state -/

/-- The whole part, its plan memory and its queue of commands. -/
structure State where
  mem : Memory
  bus : BusPort
  win : Windows
  holds : Holds
  prot : ProtRecord
  port : List PortReq
  seqr : Sequencer
  batch : Batch
  touched : List RecNo
  queue : List Entry
  profiles : Vector Profile 8
  table : ConnTable
  ramp : RampBank
  mon : Monitor
  power : List PowerCell
  act : Actuator
  light : Light
  intr : Interruption
  integ : Integrity
  attn : Attention
  start : Startup
  clock : Clock
  pending : List Instr
  deriving DecidableEq, Repr

/-! ### Values after reset -/

/-- A profile that is not valid, with its fields zero (R55). -/
def Profile.none : Profile :=
  { valid := false, start := 0, up := 0, down := 0, load := 0, x16 := false, maxAdj := 0, lag := 0, lead := 0, tol := 0 }

/-- A FREE engine, every field cleared (R99). -/
def Engine.free : Engine :=
  { st := .free, grant := 0, owner := .none, kind := .rampUp, fromHeld := false, prof := .none, target := 0, dir := .none,
    adj := 0, load := 0, count := 0, counting := false, cmd := .none, samp := .none, sample := .none, prev := .none, expected := .none,
    miss := 0, wanted := 0, first := .none }

/-- A Memory Fault Record holding NONE, its fields zero (R172). -/
def MemFault.none : MemFault :=
  { kind := .none, req := .hostRead, addr := 0, syndrome := 0, further := false }

/-- The empty protection record (R12, R18). -/
def ProtRecord.empty : ProtRecord := { filled := false, further := false, addr := 0 }

/-- Counters all zero. -/
def Counters.zero : Counters := { total := 0, done := 0, rejected := 0, failed := 0, other := 0 }

/-- The batch context after reset (R55). -/
def Batch.reset : Batch :=
  { present := false, ending := false, seq := 0, refuse := 0, stop := 0, counters := .zero, phase := 0, list := [],
    abandon := false, stopPending := false, work := .none, lastFetched := .none, recovery := .none, lossStop := false }

/-- The Connection Table after reset (R53). -/
def ConnTable.reset : ConnTable := { paths := [], occ := [], done := [], nextPid := 0 }

/-- The Ramp Bank after reset (R99, R100). -/
def RampBank.reset : RampBank := { engines := Vector.replicate 8 Engine.free, wait := [], presc := 0, nextGrant := 0 }

/-- The Monitor Port after reset (R127). -/
def Monitor.reset : Monitor :=
  { send := [], out := [], nextSeq := 1, stale := [], intake := [], linkUp := false, silence := 0, txLeft := 0 }

/-- The Actuator Port after reset (R140). -/
def Actuator.reset : Actuator :=
  { ordinary := [], urgent := [], wait := [], txn := .none, mods := .const .online, refresh := .none }

/-- The Light Supervisor after reset (R154), with the LOS inputs at the given levels (`true` for loss). A degree counts as DARK until its
first qualification. -/
def Light.reset (pins : PerDegree Bool) : Light :=
  let q (b : Bool) : Qualifier := { pin := b, level := .none, run := 0 }
  { qual := ⟨q pins.d1, q pins.d2, q pins.d3, q pins.d4⟩, state := .const .dark, holdOff := .const .none,
    changeSet := .const false, lossSeen := .const false, restoreList := [], begun := [], restoresHeld := false }

/-- The Interruption Unit after reset (R167). -/
def Interruption.reset : Interruption := { depth := 0, work := [], item := .none, header := 0, images := [] }

/-- The Integrity Unit after reset (R170, R172, R173). -/
def Integrity.reset : Integrity :=
  { mfr := .none, rewrites := [], scrub := { started := false, page := 0, word := 0, timer := 0 } }

/-- The Attention Unit after reset (R177). -/
def Attention.reset : Attention := { pending := 0, enable := 0 }

/-- The Start-up Controller after reset (R178), with PFW_N at the given level (`true` for asserted). -/
def Startup.reset (pfwPin : Bool) : Startup :=
  { inReset := false, stage := .anchor, powerdown := false, pfw := { pin := pfwPin, level := .none, run := 0 }, yields := [],
    save := { header := .none, limit := 0, slots := [], ended := false }, readPart := [], endWord := 0, anchorSeen := none,
    readback := .const .unread, newHalves := [],
    discrepancies := 0, deferred := [] }

/-- The sequencer after reset (R54, R55, R178). -/
def Sequencer.reset : Sequencer :=
  { st := .rebuilding, shown := { st := .none, seq := 0 }, kept := .none, rereadDue := false, reread := .none,
    anchorRead := false, anchorAgain := false, lastResp := 0 }

/-- The anchor page that the strap selects (R2). -/
def anchorPageOf (strap : BitVec 2) : Page := strap ++ (0 : BitVec 10)

/-- The part right after reset has ended (R178), over a memory, strap value, pin levels and queue: every block at its stated values, the
sequencer in REBUILDING, the rebuild stage ANCHOR and the anchor read requested (R18, R179). Memory is left as it stood. -/
def afterReset (mem : Memory) (strap : BitVec 2) (los : PerDegree Bool) (pfw : Bool) (pending : List Instr) : State :=
  { mem := mem
    bus := { isOpen := false, granted := false, reading := [], cycErr := false, held := [], ready := false, error := false, finished := [] }
    win := { anchorPage := anchorPageOf strap, map := .none, watch := .none, cfg := .none }
    holds := { fetch := .none, wb := [] }
    prot := .empty
    port := [.anchorHead, .anchor .rebuild]
    seqr := .reset
    batch := .reset
    touched := []
    queue := []
    profiles := Vector.replicate 8 Profile.none
    table := .reset
    ramp := .reset
    mon := .reset
    power := []
    act := .reset
    light := .reset los
    intr := .reset
    integ := .reset
    attn := .reset
    start := .reset pfw
    clock := { sub100 := 0, slow := 0, ms := 0 }
    pending := pending }

/-- The machine right after reset: the values of R178 over a memory in which nothing is listed, the strap at 0, the inputs at their
inactive levels (log 1 and 10) and an empty queue. -/
def State.reset : State := afterReset { bytes := [], syn := [] } 0 (.const false) false []

end Sys2Proof.Machine
end

