-- ==== Sys2Proof/Machine/Operands.lean ====
section
/-! DEFINITION. The layouts of 02, section 2.6: how each format of the plan pages is read from words and written as words. -/

namespace Sys2Proof.Machine

/-- The `n` bits of a word from bit `lo` up, as a number. -/
def field (w : Word) (lo n : Nat) : Nat := w.toNat / 2 ^ lo % 2 ^ n

/-- A 16-bit field read as a signed number. -/
def signed16 (n : Nat) : Int := if n < 32768 then (n : Int) else (n : Int) - 65536

/-- A signed number as a 16-bit field. -/
def unsigned16 (i : Int) : Nat := (i % 65536).toNat

/-- 1 for true, 0 for false. -/
def bit (b : Bool) : Nat := if b then 1 else 0

/-! ### Channel records (Tables 2-2, 2-3) -/

/-- The port of a group by its code offset (Table 2-3). -/
def portOf (g : Group) (n : Nat) : Option Endpoint :=
  if h : n < 12 then some (.port ⟨g, ⟨n, h⟩⟩) else none

/-- An endpoint code read (Table 2-3); none for a code that names neither a degree nor a port. -/
def endpointOfCode (c : Nat) : Option Endpoint :=
  if c = 1 then some (.deg .d1) else if c = 2 then some (.deg .d2) else if c = 3 then some (.deg .d3)
  else if c = 4 then some (.deg .d4) else if c < 17 then none else if c < 29 then portOf .g1 (c - 17)
  else if c < 33 then none else portOf .g2 (c - 33)

/-- An endpoint's code (Table 2-3). -/
def endpointCode : Endpoint → Nat
  | .deg d => d.idx + 1
  | .port ⟨.g1, n⟩ => 17 + n
  | .port ⟨.g2, n⟩ => 33 + n

/-- The format judgement of R22: none is REJ_RANGE. -/
def Staged.ofWords (h : HostWords) : Option Staged :=
  if field h.w0 24 8 = 0 then some .empty
  else if field h.w0 24 8 = 1 then
    match endpointOfCode (field h.w0 8 8), endpointOfCode (field h.w0 0 8) with
    | some src, some dst =>
      let target := signed16 (field h.w1 16 16)
      if hs : field h.w0 16 8 < 64 then
        if hp : field h.w1 8 8 < 8 then
          if -250 ≤ target ∧ target ≤ 50 ∧ field h.w1 0 8 ≤ 1 ∧ field h.w2 16 16 = 0 then
            some (.conn { slot := ⟨_, hs⟩, src := src, dst := dst, target := target, profile := ⟨_, hp⟩,
                          permit := field h.w1 0 8 == 1, tag := BitVec.ofNat 16 (field h.w2 0 16) })
          else none
        else none
      else none
    | _, _ => none
  else none

/-- Words 0 to 2 of a CONNECTION record (Table 2-2). -/
def HostFields.words (f : HostFields) : HostWords :=
  { w0 := BitVec.ofNat 32 (2 ^ 24 + f.slot.val * 2 ^ 16 + endpointCode f.src * 2 ^ 8 + endpointCode f.dst)
    w1 := BitVec.ofNat 32 (unsigned16 f.target * 2 ^ 16 + f.profile.val * 2 ^ 8 + bit f.permit)
    w2 := BitVec.ofNat 32 f.tag.toNat }

/-- Words 0 to 2 all zero: the host fields of an EMPTY record (R24). -/
def HostWords.zero : HostWords := ⟨0, 0, 0⟩

/-- An attenuation's code (Table 2-2): 255 is BLOCK. -/
def attCode : Att → Nat
  | .db n => n % 256
  | .block => 255

/-- An attenuation code read: 0 to 250, or 255 for BLOCK; none for any other. -/
def attOfCode (n : Nat) : Option Att :=
  if n ≤ 250 then some (.db n) else if n = 255 then some .block else none

/-- The code of a completed path state (Table 2-2). -/
def DoneState.code : DoneState → Nat
  | .live => 1 | .offTarget => 2 | .squelched => 3 | .discrepant => 4

/-- Word 3 of an active record (Table 2-2). -/
def activeWord3 (st : Nat) (att : Att) (measured : Option Int) : Word :=
  BitVec.ofNat 32 (st * 2 ^ 24 + attCode att * 2 ^ 16 + unsigned16 (measured.getD (-32768)))

/-- The four words of an active record (R24). -/
def Completed.words : Completed → List Word
  | .empty => [0, 0, 0, activeWord3 0 .block none]
  | .lost => [0, 0, 0, activeWord3 5 .block none]
  | .path p => [p.host.words.w0, p.host.words.w1, p.host.words.w2, activeWord3 p.st.code p.att p.measured]

/-- The host fields an active record of this completed state holds (R24). -/
def Completed.hostWords : Completed → HostWords
  | .path p => p.host.words
  | _ => .zero

/-! ### Outcome words and masks (Table 2-4) -/

/-- A rejection kind's place among the nine, which is its mask bit. -/
def RejCode.idx : RejCode → Nat
  | .range => 0 | .loopback => 1 | .profile => 2 | .slotBusy => 3 | .sourceSlotBusy => 4
  | .groupSlotBusy => 5 | .portBusy => 6 | .sourceDark => 7 | .unreadable => 8

/-- A failure kind's place among the five, which is its mask bit. -/
def FailCode.idx : FailCode → Nat
  | .underpower => 0 | .noLight => 1 | .monitorTimeout => 2 | .module => 3 | .sourceDark => 4

/-- An outcome's code (Table 2-4). -/
def OutcomeCode.code : OutcomeCode → Nat
  | .done => 1 | .doneOffTarget => 2 | .noChange => 3
  | .rej c => 16 + c.idx
  | .notRun => 32
  | .fail c => 48 + c.idx
  | .cancelled => 64 | .abandoned => 65

/-- Word 3 of a staging record (Table 2-2). -/
def outcomeWord (c : OutcomeCode) (seq : BitVec 16) : Word :=
  BitVec.ofNat 32 (seq.toNat * 2 ^ 16 + c.code)

/-! ### Profiles (Table 2-7, R28) -/

/-- A profile read from its four words, its validity judged by R28. -/
def Profile.ofWords (w0 w1 w2 w3 : Word) : Profile :=
  let p : Profile :=
    { valid := false, start := field w0 16 8, up := field w0 8 8, down := field w0 0 8,
      load := if field w1 16 8 = 0 then 256 else field w1 16 8, x16 := field w1 8 1 == 1, maxAdj := field w1 0 4,
      lag := field w2 8 8, lead := field w2 0 8, tol := field w3 0 8 }
  { p with valid := field w0 31 1 == 1 && decide (p.start ≤ 250) && decide (1 ≤ p.up) && decide (p.up ≤ 50) &&
      decide (1 ≤ p.down) && decide (p.down ≤ 50) && decide (1 ≤ p.tol) && decide (p.tol ≤ 20) }

/-! ### The anchor record (Table 2-1, R21) -/

/-- The anchor record read from its seven words: none where it is not valid (R21). The stored budget 0 is taken as 2 (R20). -/
def AnchorCfg.ofWords (anchorPage : Page) (w : List Word) : Option AnchorCfg :=
  match w with
  | [w0, w1, w2, w3, w4, w5, w6] =>
    let page (x : Word) (lo : Nat) : Page := BitVec.ofNat 12 (field x lo 12)
    let m : WindowMap := { staging := page w2 16, active := page w2 0, status := page w3 16, save := page w3 0 }
    let idler : PerDegree Nat := ⟨field w5 0 8, field w5 8 8, field w5 16 8, field w5 24 8⟩
    let fill : PerDegree Bool :=
      ⟨field w4 8 1 == 1, field w4 9 1 == 1, field w4 10 1 == 1, field w4 11 1 == 1⟩
    if w0 = 0x4C583234 ∧ field w1 0 8 = 1 ∧ [anchorPage, m.staging, m.active, m.status, m.save].Nodup ∧
        field w4 0 3 ≤ 4 ∧ idler.d1 ≤ 250 ∧ idler.d2 ≤ 250 ∧ idler.d3 ≤ 250 ∧ idler.d4 ≤ 250 ∧ 1 ≤ field w4 24 8 then
      some { map := m, budget := if field w4 0 3 = 0 then 2 else field w4 0 3, fill := fill, idler := idler,
             autoRestore := field w4 16 1 == 1, holdOff := field w4 24 8, enables := BitVec.ofNat 8 (field w6 0 8),
             scrub := field w4 17 1 == 1 }
    else none
  | _ => none

/-! ### Status words (Table 2-6) -/

/-- The response codes (Table 2-6). -/
inductive Response
  | accepted | busy | suspended | unconfigured | state | badCommand
  deriving DecidableEq, Repr

/-- A response's code. -/
def Response.code : Response → Nat
  | .accepted => 1 | .busy => 2 | .suspended => 3 | .unconfigured => 4 | .state => 5 | .badCommand => 6

/-- The command response word (R25). -/
def responseWord (seq : BitVec 16) (code : BitVec 8) (r : Response) : Word :=
  BitVec.ofNat 32 (seq.toNat * 2 ^ 16 + code.toNat * 2 ^ 8 + r.code)

/-- A batch state's code (Table 2-6). -/
def BatchWordState.code : BatchWordState → Nat
  | .none => 0 | .fetching => 1 | .checking => 2 | .running => 3 | .holding => 4 | .held => 5 | .cancelling => 6
  | .suspended => 7 | .done => 8 | .doneWithFailures => 9 | .refused => 10 | .cancelled => 11 | .abandoned => 12

/-- A batch state code read; none for a code the table does not list. -/
def BatchWordState.ofCode (n : Nat) : Option BatchWordState :=
  [BatchWordState.none, .fetching, .checking, .running, .holding, .held, .cancelling, .suspended, .done, .doneWithFailures,
   .refused, .cancelled, .abandoned][n]?

/-- The batch state word (R27). -/
def BatchWord.word (b : BatchWord) : Word := BitVec.ofNat 32 (b.seq.toNat * 2 ^ 16 + b.st.code)

/-- The two words of the counters (R27). -/
def Counters.words (c : Counters) : List Word :=
  [BitVec.ofNat 32 (c.total * 2 ^ 16 + c.done), BitVec.ofNat 32 (c.rejected * 2 ^ 20 + c.failed * 2 ^ 10 + c.other)]

/-- The counters with one outcome counted (R27). -/
def Counters.count (c : Counters) : OutcomeCode → Counters
  | .done | .doneOffTarget | .noChange => { c with done := c.done + 1 }
  | .rej _ => { c with rejected := c.rejected + 1 }
  | .fail _ => { c with failed := c.failed + 1 }
  | .notRun | .cancelled | .abandoned => { c with other := c.other + 1 }

/-- The Memory Fault Record's two words (Table 2-6). -/
def MemFault.words (f : MemFault) : List Word :=
  let kind := match f.kind with | .none => 0 | .corrected => 1 | .uncorrectable => 2
  let req := match f.req with | .hostRead => 0 | .hostPartialWrite => 1 | .fetch => 2 | .rebuild => 3 | .scrub => 4
  [BitVec.ofNat 32 (f.addr % 2 ^ 24),
   BitVec.ofNat 32 (kind + req * 2 ^ 4 + f.syndrome.toNat * 2 ^ 8 + bit f.further * 2 ^ 16)]

/-- The protection record's word (Table 2-6): all zero when empty. -/
def ProtRecord.word (p : ProtRecord) : Word :=
  if p.filled then BitVec.ofNat 32 (2 ^ 31 + bit p.further * 2 ^ 24 + p.addr.toNat) else 0

/-- A light state's code (Table 2-6). -/
def LightState.code : LightState → Nat
  | .lit => 0 | .dark => 1 | .holdoff => 2

/-- The light word (Table 2-6). -/
def lightWord (l : PerDegree LightState) (c : PerDegree Bool) : Word :=
  BitVec.ofNat 32 (l.d1.code + l.d2.code * 4 + l.d3.code * 16 + l.d4.code * 64 +
    (bit c.d1 + bit c.d2 * 2 + bit c.d3 * 4 + bit c.d4 * 8) * 256)

/-- A module state's code (Table 2-6). -/
def ModState.code : ModState → Nat
  | .online => 0 | .faulted => 1 | .refreshing => 2

/-- The module word (Table 2-6), M1 lowest. -/
def moduleWord (m : PerPoint ModState) : Word :=
  BitVec.ofNat 32 (m.deg.d1.code + m.deg.d2.code * 4 + m.deg.d3.code * 16 + m.deg.d4.code * 64 +
    m.g1.code * 256 + m.g2.code * 1024)

/-! ### Interruption records (Table 2-8) -/

/-- A sequencer state's code (Table 2-8). -/
def SeqState.code : SeqState → Nat
  | .unconfigured => 0 | .rebuilding => 1 | .idle => 2 | .fetching => 3 | .checking => 4 | .running => 5
  | .holding => 6 | .held => 7 | .cancelling => 8 | .suspended => 9 | .powerdown => 10

/-- A chain step's code in the in-flight list (Table 2-8). -/
def ChainStep.code : ChainStep → Nat
  | .connect => 1 | .disconnect => 2 | .rampDown => 3 | .rampUp => 4 | .rampRetune => 5 | .verify => 6 | .returning => 7

/-- An in-flight item's word (Table 2-8). -/
def InFlight.word (i : InFlight) : Word :=
  BitVec.ofNat 32 (i.no.val + (match i.half with | .old => 0 | .new => 1) * 2 ^ 8 + i.step * 2 ^ 12 + attCode i.att * 2 ^ 16 +
    (match i.engine with | some e => e.val * 2 ^ 24 + 2 ^ 27 | none => 0))

/-- An in-flight item read from its word. An attenuation code that is neither 0 to 250 nor 255 is read as BLOCK, which the part never
writes (log 28). -/
def InFlight.ofWord (w : Word) : InFlight :=
  { no := ⟨field w 0 8, Nat.mod_lt _ (by decide)⟩, half := if field w 8 1 = 0 then .old else .new, step := field w 12 3,
    att := (attOfCode (field w 16 8)).getD .block,
    engine := if field w 27 1 = 1 then some ⟨field w 24 3, Nat.mod_lt _ (by decide)⟩ else none }

/-- A set of degrees as four bits, D1 lowest. -/
def degreeSet (f : Degree → Bool) : Nat := bit (f .d1) + bit (f .d2) * 2 + bit (f .d3) * 4 + bit (f .d4) * 8

/-- A set of modules as six bits, M1 lowest. -/
def moduleSet (f : OutPoint → Bool) : Nat :=
  degreeSet (fun d => f (.deg d)) + bit (f (.grp .g1)) * 16 + bit (f (.grp .g2)) * 32

/-- The fields of an interruption record that a capture fills (R157, Table 2-8). -/
structure SlotFields where
  los : Bool
  powerFail : Bool
  fault : Bool
  merged : Bool
  dark : Nat
  faulted : Nat
  seq : BitVec 16
  st : SeqState
  phase : Nat
  batchPending : Bool
  valid : Bool
  items : List InFlight
  toHeld : Bool
  ms : BitVec 32

/-- Word 0 of a slot: record state, cause set, merged and rebuilt flags, format version 1. -/
def slotWord0Of (state : Nat) (los powerFail fault merged rebuilt : Bool) : Word :=
  BitVec.ofNat 32 (state + bit los * 2 ^ 4 + bit powerFail * 2 ^ 5 + bit fault * 2 ^ 6 + bit merged * 2 ^ 8 +
    bit rebuilt * 2 ^ 9 + 2 ^ 16)

/-- The sixteen words of an OUTSTANDING slot (Table 2-8), its resume word CONTINUE (R31). -/
def SlotFields.words (f : SlotFields) : List Word :=
  [slotWord0Of 1 f.los f.powerFail f.fault f.merged false,
   BitVec.ofNat 32 (f.dark + f.faulted * 2 ^ 8 + f.seq.toNat * 2 ^ 16),
   BitVec.ofNat 32 (f.st.code + f.phase * 2 ^ 8 + bit f.batchPending * 2 ^ 12 + bit f.valid * 2 ^ 13 +
     f.items.length * 2 ^ 16)] ++
  ((f.items.map InFlight.word) ++ List.replicate (8 - f.items.length) 0).take 8 ++
  [BitVec.ofNat 32 (bit f.toHeld * 2 ^ 8), f.ms, 0, 0, 0]

/-- A resume word read (R31): the unassigned action is taken as CONTINUE. -/
def resumeOfWord (w : Word) : ResumeAction × Bool :=
  (if field w 0 2 = 1 then .retry else if field w 0 2 = 2 then .abandon else .cont, field w 8 1 == 1)

/-- A word with some bits set. -/
def setBits (w : Word) (mask : Nat) : Word := w ||| BitVec.ofNat 32 mask

/-- Word 0 of a slot with its record state replaced. -/
def withRecordState (w : Word) (state : Nat) : Word := (w &&& ~~~(3 : Word)) ||| BitVec.ofNat 32 state

end Sys2Proof.Machine
end

