-- ==== Sys2Proof/Machine/Flags.lean ====
section
/-! DEFINITION. What follows from the state without being held in it: the attention causes' bits, the top cause, the attention word, the
pins ATTN_N and CFG_OK, and where the words of the plan pages lie. -/

namespace Sys2Proof.Machine

/-- The eight attention causes in order of rank (R175). -/
inductive Cause
  | suspend | batchEnd | memoryFault | discrepancy | protection | restore | lightChange | monitorLink
  deriving DecidableEq, Repr

/-- A cause's bit in the pending and enable sets: its rank less one (Table 2-6). -/
def Cause.bit : Cause → Nat
  | .suspend => 0 | .batchEnd => 1 | .memoryFault => 2 | .discrepancy => 3
  | .protection => 4 | .restore => 5 | .lightChange => 6 | .monitorLink => 7

/-- Whether a set of causes has a cause. -/
def hasCause (set : BitVec 8) (c : Cause) : Bool := set.getLsbD c.bit

/-- A set of causes with a cause joined. -/
def joinCause (set : BitVec 8) (c : Cause) : BitVec 8 := set ||| ((1 : BitVec 8) <<< c.bit)

/-- The rank of the top cause: the highest-ranked cause in both sets, 0 for none (R175). -/
def topRank (both : BitVec 8) : Nat :=
  match (List.range 8).find? both.getLsbD with
  | some i => i + 1
  | none => 0

/-- The attention word (R177, Table 2-6). -/
def Attention.word (a : Attention) : Word :=
  BitVec.ofNat 32 (a.pending.toNat + a.enable.toNat * 2 ^ 8 + topRank (a.pending &&& a.enable) * 2 ^ 16)

/-- ATTN_N: asserted exactly when the pending set and the enable set share a cause (R175). -/
def State.attnAsserted (s : State) : Bool := (s.attn.pending &&& s.attn.enable) != 0

/-- CFG_OK: HIGH while the four roles are installed (R3). -/
def State.cfgOk (s : State) : Bool := s.win.map.isSome

/-- ACT_DIR (R128, R140): true for send. The line is turned to listen from a frame's last bit to the end of its attempt, and is set to send
otherwise (log 9). -/
def State.actDirSend (s : State) : Bool :=
  s.start.inReset || (match s.act.txn with | some t => t.sendLeft ≠ 0 | none => true)

/-! ### Places in the plan pages -/

/-- The byte address of an offset in a page. -/
def pageAddr (p : Page) (off : Nat) : Nat := p.toNat * 4096 + off

/-- Byte offsets of the status page (Table 2-5). -/
def offResponse : Nat := 12
/-- The batch state word's offset. -/
def offBatchState : Nat := 16
/-- The counters word's offset. -/
def offCounters : Nat := 20
/-- The attention word's offset. -/
def offAttention : Nat := 28
/-- The Memory Fault Record's offset. -/
def offMemFault : Nat := 32
/-- The protection record's offset. -/
def offProtection : Nat := 40
/-- The light word's offset. -/
def offLight : Nat := 44
/-- The monitor word's offset. -/
def offMonitor : Nat := 48
/-- The module word's offset. -/
def offModules : Nat := 52
/-- The offset of profile `k`. -/
def offProfile (k : Nat) : Nat := 64 + 16 * k

/-- The offset of channel record `r` in the staging and active pages (R19). -/
def offRecord (r : RecNo) : Nat := 16 * r.val

/-- The offset of save slot `k`, 1 to 4 (R30). -/
def offSlot (k : Nat) : Nat := 4032 - 64 * k

/-- The offset of the save header (R30). -/
def offHeader : Nat := 4092

/-- The role a page has (R4). -/
inductive Role
  | plain | anchor | staging | active | status | save
  deriving DecidableEq, Repr

/-- The page an address falls in. -/
def pageOf (a : Nat) : Page := BitVec.ofNat 12 (a / 4096)

/-- A page's role under a window map (R3). -/
def Windows.role (w : Windows) (p : Page) : Role :=
  if p = w.anchorPage then .anchor
  else match w.map with
    | none => .plain
    | some m =>
      if p = m.staging then .staging else if p = m.active then .active else if p = m.status then .status
      else if p = m.save then .save else .plain

/-! ### Small facts used everywhere -/

/-- The record whose words an offset of the staging or active page falls in. -/
def recordAt (off : Nat) : RecNo := ⟨off / 16 % 256, Nat.mod_lt _ (by decide)⟩

/-- The output point of a destination (R33). -/
def Res.ofDst : Endpoint → OutPoint
  | .deg d => .deg d
  | .port p => .grp p.group

/-- An endpoint as a path's end. -/
def PathEnd.of : Endpoint → PathEnd
  | .deg d => .deg d
  | .port p => .port p

/-- A path's output point (R33, R34). -/
def PathEnd.out : PathEnd → OutPoint
  | .deg d => .deg d
  | .port p => .grp p.group
  | .grp g => .grp g

/-- The module input a source is selected by (R33). -/
def PathEnd.input : PathEnd → Input
  | .deg d => .deg d
  | .port p => .grp p.group
  | .grp g => .grp g

/-- The batch states of the sequencer that a running batch has (R54, R77). -/
def SeqState.isRun : SeqState → Bool
  | .running | .holding | .held | .cancelling => true
  | _ => false

/-- The batch states of the sequencer: FETCHING, CHECKING and the run states (R54). -/
def SeqState.isBatch : SeqState → Bool
  | .fetching | .checking => true
  | s => s.isRun

end Sys2Proof.Machine
end

