-- ==== Sys2Proof/Machine/Ops.lean ====
section
/-! DEFINITION. The named operations over memory, the Integrity Unit, the Attention Unit and the Memory Port arbiter. -/

namespace Sys2Proof.Machine

/-! ### Memory -/

/-- The value kept under a key; an unlisted key reads 0 (log 1). -/
def cellGet (k : Nat) : List Host.Cell → BitVec 8
  | [] => 0
  | (a, b) :: t => if a = k then b else cellGet k t

/-- A list of cells with one key's value replaced; the rising order is kept and a zero value takes the entry out. -/
def cellSet (k : Nat) (v : BitVec 8) : List Host.Cell → List Host.Cell
  | [] => if v = 0 then [] else [(k, v)]
  | (a, b) :: t =>
    if k < a then (if v = 0 then (a, b) :: t else (k, v) :: (a, b) :: t)
    else if k = a then (if v = 0 then t else (k, v) :: t)
    else (a, b) :: cellSet k v t

/-- Whether cells stand in rising order, above a bound, with no zero value. -/
def cellsWf : Option Nat → List Host.Cell → Bool
  | _, [] => true
  | lo, (a, b) :: t => (match lo with | some n => decide (n < a) | none => true) && (b != 0) && cellsWf (some a) t

/-- The canonical form of memory: both lists in rising order with no zero entry. -/
def Memory.wf (m : Memory) : Bool := cellsWf none m.bytes && cellsWf none m.syn

/-- The byte at an address. -/
def Memory.byte (m : Memory) (a : Nat) : Byte := cellGet a m.bytes

/-- The stored data bits of the word at a byte address: the lowest address holds the least significant byte (log 3). -/
def Memory.word (m : Memory) (a : Nat) : Word :=
  m.byte (a + 3) ++ m.byte (a + 2) ++ m.byte (a + 1) ++ m.byte a

/-- The syndrome that a read of the word at a byte address gives (R169). -/
def Memory.syndrome (m : Memory) (a : Nat) : BitVec 7 := (cellGet a m.syn).setWidth 7

/-- The word at a byte address written whole, with check bits that match it (R168). -/
def Memory.storeWord (m : Memory) (a : Nat) (w : Word) : Memory :=
  { bytes := cellSet a (w.extractLsb' 0 8) (cellSet (a + 1) (w.extractLsb' 8 8)
      (cellSet (a + 2) (w.extractLsb' 16 8) (cellSet (a + 3) (w.extractLsb' 24 8) m.bytes)))
    syn := cellSet a 0 m.syn }

/-- How the check of a read ends (R169). -/
inductive ReadCheck
  | correct | corrected | uncorrectable
  deriving DecidableEq, Repr

/-- The check of a word and the data delivered (R169). -/
def Memory.check (m : Memory) (a : Nat) : ReadCheck × Word :=
  let w := m.word a
  if m.syndrome a = 0 then (.correct, w)
  else match Config.syndromeBit (m.syndrome a) with
    | some i => (.corrected, if i.val < 32 then w ^^^ ((1 : Word) <<< i.val) else w)
    | none => (.uncorrectable, w)

/-! ### Running and the arbiter's list -/

/-- The state with the READY and ERROR of the step before released and the list of ended beats emptied (log 30). -/
def fresh (s : State) : State := { s with bus := { s.bus with finished := [], ready := false, error := false } }

/-- What an event does: nothing while RESET_N is asserted (R18); otherwise its effect. -/
def running (s : State) (f : State → State) : Host.Outcome State Fault Refusal :=
  if s.start.inReset then .next s else .next (f (fresh s))

/-- A request of the part joins the arbiter's list (R16). -/
def request (r : PortReq) (s : State) : State := { s with port := s.port ++ [r] }

/-- A write to the status page is asked for, where a status page is installed (R29, R171, R177). -/
def requestStatus (r : PortReq) (s : State) : State := if s.win.map.isSome then request r s else s

/-- The attention word's write is asked for; one waiting write carries every change (R177). It stands at the tail, so that it follows the
write of the record whose cause it shows (R171; log 45). -/
def requestAttention (s : State) : State :=
  if s.win.map.isSome then request .attention { s with port := s.port.erase .attention } else s

/-- Removes from the arbiter's list the requests a test picks. -/
def withdrawReqs (p : PortReq → Bool) (s : State) : State := { s with port := s.port.filter (fun r => !p r) }

/-! ### Attention -/

/-- Raises a cause (R175): the word's write is asked for when the pending set changes (R177). -/
def raiseCause (c : Cause) (s : State) : State :=
  if hasCause s.attn.pending c then s
  else requestAttention { s with attn := { s.attn with pending := joinCause s.attn.pending c } }

/-- Replaces the enable set (R175, R177). -/
def setEnables (e : BitVec 8) (s : State) : State :=
  if s.attn.enable = e then s else requestAttention { s with attn := { s.attn with enable := e } }

/-! ### The Integrity Unit -/

/-- A fault reported to the Memory Fault Record (R171). -/
def reportFault (k : MemFaultKind) (q : MemFaultReq) (a : Nat) (syn : BitVec 7) (s : State) : State :=
  let put (f : MemFault) (s : State) : State :=
    requestStatus .memFault { s with integ := { s.integ with mfr := f } }
  match s.integ.mfr.kind with
  | .none => raiseCause .memoryFault (put { kind := k, req := q, addr := a, syndrome := syn, further := false } s)
  | _ => if s.integ.mfr.further then s else put { s.integ.mfr with further := true } s

/-- The Memory Fault Record cleared by an acknowledge (R172). -/
def clearFault (s : State) : State := requestStatus .memFault { s with integ := { s.integ with mfr := .none } }

/-- A correction rewrite asked for (R170): at most one per address and at most 8 on the list. -/
def addRewrite (a : Nat) (w : Word) (s : State) : State :=
  let l := s.integ.rewrites
  if l.any (fun r => r.addr = a) || decide (8 ≤ l.length) then s
  else { s with integ := { s.integ with rewrites := l ++ [{ addr := a, data := w, written := false }] } }

/-- Whether the word at a byte address stands, check bits and all, as another memory holds it. -/
def Memory.sameAt (m m' : Memory) (a : Nat) : Bool := m.word a = m'.word a && m.syndrome a = m'.syndrome a

/-- One word of a given memory read and checked (R169): the state after the reports, the word delivered, and whether it is uncorrectable. A corrected
word that has been written since is not written back (R170; log 59). -/
def readWordOf (m : Memory) (q : MemFaultReq) (a : Nat) (s : State) : State × Word × Bool :=
  match m.check a with
  | (.correct, w) => (s, w, false)
  | (.corrected, w) =>
    let t := reportFault .corrected q a (m.syndrome a) s
    (if s.mem.sameAt m a then addRewrite a w t else t, w, false)
  | (.uncorrectable, w) => (reportFault .uncorrectable q a (m.syndrome a) s, w, true)

/-- A burst of `n` words of a given memory read from a byte address, in address order (R17, R171); each word with whether it is uncorrectable. -/
def readBurstOf (m : Memory) (q : MemFaultReq) (a : Nat) : Nat → State → State × List (Word × Bool)
  | 0, s => (s, [])
  | n + 1, s =>
    let (s1, w, bad) := readWordOf m q a s
    let (s2, l) := readBurstOf m q (a + 4) n s1
    (s2, (w, bad) :: l)

/-- One word read and checked as memory holds it (R169). -/
def readWord (q : MemFaultReq) (a : Nat) (s : State) : State × Word × Bool := readWordOf s.mem q a s

/-- A burst of `n` words read as memory holds them (R17, R171). -/
def readBurst (q : MemFaultReq) (a n : Nat) (s : State) : State × List (Word × Bool) := readBurstOf s.mem q a n s

/-- The memory that an anchor read is made of: for a re-read, memory as it stood when the re-read began (R9); for the anchor read of rebuild and that
of UNCONFIGURED, memory as it stands at the grant (log 59). -/
def anchorMem (s : State) : Memory := s.start.anchorSeen.getD s.mem

/-- One word written whole with fresh check bits (R168). A rewrite waiting for that word is overtaken (R170). -/
def storeWord (a : Nat) (w : Word) (s : State) : State :=
  let l := s.integ.rewrites.map (fun r => if r.addr = a then { r with written := true } else r)
  { s with mem := s.mem.storeWord a w, integ := { s.integ with rewrites := l } }

/-- A burst of words written at ascending addresses (R17). -/
def storeBurst (a : Nat) : List Word → State → State
  | [], s => s
  | w :: ws, s => storeBurst (a + 4) ws (storeWord a w s)

/-! ### The protection record -/

/-- A refused write beat reported (R11). -/
def reportRefusal (a : Addr) (s : State) : State :=
  if s.prot.filled then
    if s.prot.further then s
    else requestStatus .protection { s with prot := { s.prot with further := true } }
  else
    raiseCause .protection
      (requestStatus .protection { s with prot := { filled := true, further := false, addr := a } })

/-- The protection record emptied by an acknowledge (R12). -/
def clearProtection (s : State) : State := requestStatus .protection { s with prot := .empty }

/-! ### The Power Table's average and completed states -/

/-- The average of a cell's values: the quotient rounded toward zero, none for a cell with no value (R124). -/
def averageOf (l : List Int) : Option Int :=
  match l with
  | [] => none
  | _ => some (l.sum.tdiv l.length)

/-- The values a cell of the Power Table holds (R124). -/
def cellValues (t : List PowerCell) (o : OutPoint) (n : Slot) : List Int :=
  match t.find? (fun c => c.point = o ∧ c.slot = n) with
  | some c => c.vals
  | none => []

/-- The average of a cell of the Power Table (R124). -/
def powerAverage (s : State) (o : OutPoint) (n : Slot) : Option Int := averageOf (cellValues s.power o n)

/-- A record's completed state in a list that leaves out EMPTY. -/
def doneGet (r : RecNo) : List (RecNo × Completed) → Completed
  | [] => .empty
  | (a, c) :: t => if a = r then c else doneGet r t

/-- The list with one record's completed state replaced, in rising order and with no EMPTY entry. -/
def doneSet (r : RecNo) (c : Completed) : List (RecNo × Completed) → List (RecNo × Completed)
  | [] => if c = .empty then [] else [(r, c)]
  | (a, b) :: t =>
    if r < a then (if c = .empty then (a, b) :: t else (r, c) :: (a, b) :: t)
    else if r = a then (if c = .empty then t else (r, c) :: t)
    else (a, b) :: doneSet r c t

/-- A record's completed state (R41). -/
def State.completed (s : State) (r : RecNo) : Completed := doneGet r s.table.done

/-- A record's completed state set. -/
def setCompleted (r : RecNo) (c : Completed) (s : State) : State :=
  { s with table := { s.table with done := doneSet r c s.table.done } }

/-- A completed state with its measured power taken from the Power Table (R24, R47). -/
def Completed.measure (s : State) : Completed → Completed
  | .path p => .path { p with measured := powerAverage s (Res.ofDst p.host.dst) p.host.slot }
  | c => c

/-- The write of an active record becomes due (R15, R24): its measured power is taken, its hold comes into force except in POWERDOWN, and
it joins the arbiter's list unless a write of it waits already. -/
def activeDue (r : RecNo) (s : State) : State :=
  let s := setCompleted r ((s.completed r).measure s) s
  let s := if s.start.powerdown || s.holds.wb.contains r then s
    else { s with holds := { s.holds with wb := s.holds.wb ++ [r] } }
  if s.port.contains (.active r) then s else request (.active r) s

/-- A record's completed state fixed and its write-back handed on (R41). -/
def fixCompleted (r : RecNo) (c : Completed) (s : State) : State := activeDue r (setCompleted r c s)

/-! ### Grants -/

/-- A request's rank at the arbiter (R16). Rank 1, correction rewrites, and rank 3, host cycles, are not in the list. -/
def PortReq.rank : PortReq → Nat
  | .slotBurst _ _ _ | .mergeEnd _ | .captureHeader _ | .slotWord0 _ _ | .popHeader _ | .saveHeader _ => 2
  | .response _ | .batchState _ | .endState _ | .counters _ | .attention | .protection | .memFault | .light | .monitor _
  | .modules | .active _ | .outcome _ _ _ => 4
  | .fetchRec _ | .fetchMasks | .fetchProf _ | .resumeWord _ | .anchorHead | .anchor _ | .rbProf _ | .rbActive _ | .rbHeader
  | .rbSlotPart _ _ | .rbSlot _ | .rbTail _ | .newHalf _ | .rbBatchState | .compare _ => 5
  | .scrub _ => 6

/-- The request granted next: the highest rank, and among equals the first to arrive (R16). -/
def nextReq (l : List PortReq) : Option PortReq :=
  match (l.map PortReq.rank).min? with
  | none => none
  | some m => l.find? (fun r => r.rank = m)

/-- Whether the part's requests are held back: in reset (R18), in POWERDOWN (R15), and while a host cycle has the port (R17). -/
def portBlocked (s : State) : Bool := s.start.inReset || s.start.powerdown || s.bus.granted

/-- The accesses that have no row of their own in the command table (log 5): writes whose completion tells no block anything, and the bursts
of a record's read before its last. -/
def PortReq.quiet : PortReq → Bool
  | .response _ | .batchState _ | .counters _ | .attention | .protection | .memFault | .light | .monitor _ | .modules
  | .slotBurst _ _ _ | .slotWord0 _ _ | .saveHeader _ | .anchorHead | .rbSlotPart _ _ | .rbBatchState => true
  | .endState _ | .active _ | .outcome _ _ _ | .mergeEnd _ | .captureHeader _ | .popHeader _ | .fetchRec _ | .fetchMasks | .fetchProf _
  | .resumeWord _ | .anchor _ | .rbProf _ | .rbActive _ | .rbHeader | .rbSlot _ | .rbTail _ | .newHalf _ | .compare _ | .scrub _ => false

/-- Where a write of the part goes and what it writes, by the window map at its grant (R3); none for a read, and for a write whose page is
absent (log 14). The attention and the light word carry the state at the grant (R177, R145), and so do the protection record, the Memory Fault Record
and the module word, for which the spec gives no such rule (R11, R171, R135; log 61). -/
def writeOf (s : State) (r : PortReq) : Option (Nat × List Word) :=
  let status (off : Nat) (ws : List Word) : Option (Nat × List Word) :=
    s.win.map.map (fun m => (pageAddr m.status off, ws))
  let save (off : Nat) (ws : List Word) : Option (Nat × List Word) :=
    s.win.map.map (fun m => (pageAddr m.save off, ws))
  match r with
  | .response w =>
    match s.win.map with
    | some m => some (pageAddr m.status offResponse, [w])
    | none => s.win.watch.map (fun a => (a + offResponse, [w]))
  | .batchState b | .endState b => status offBatchState [b.word]
  | .counters c => status offCounters c.words
  | .attention => status offAttention [s.attn.word]
  | .protection => status offProtection [s.prot.word]
  | .memFault => status offMemFault s.integ.mfr.words
  | .light => status offLight [lightWord s.light.state s.light.changeSet]
  | .monitor up => status offMonitor [BitVec.ofNat 32 (bit up)]
  | .modules => status offModules [moduleWord s.act.mods]
  | .active r => s.win.map.map (fun m => (pageAddr m.active (offRecord r), (s.completed r).words))
  | .outcome r c q => s.win.map.map (fun m => (pageAddr m.staging (offRecord r + 12), [outcomeWord c q]))
  | .slotBurst k b ws => save (offSlot k + 16 * b) ws
  | .mergeEnd ws => save (offSlot 4 + 48) ws
  | .captureHeader d | .popHeader d | .saveHeader d => save offHeader [BitVec.ofNat 32 d]
  | .slotWord0 k w => save (offSlot k) [w]
  | .fetchRec _ | .fetchMasks | .fetchProf _ | .resumeWord _ | .anchorHead | .anchor _ | .rbProf _ | .rbActive _ | .rbHeader
  | .rbSlotPart _ _ | .rbSlot _ | .rbTail _ | .newHalf _ | .rbBatchState | .compare _ | .scrub _ => none

/-- A burst of 4 words of a record's read carried out before its last burst (R17): the first one starts the words kept anew. -/
def readPart (m : Memory) (first : Bool) (a : Nat) (s : State) : State :=
  let (s, l) := readBurstOf m .rebuild a 4 s
  { s with start := { s.start with readPart := if first then l else s.start.readPart ++ l } }

/-- A read without a row carried out (R17, R27); a page that is absent is not accessed (log 14). -/
def readQuiet (r : PortReq) (s : State) : State :=
  match r, s.win.map with
  | .anchorHead, _ => readPart (anchorMem s) true (pageAddr s.win.anchorPage 0) s
  | .rbSlotPart k b, some m => readPart s.mem (b = 0) (pageAddr m.save (offSlot k + 16 * b)) s
  | .rbBatchState, some m =>
    let (s, w, _) := readWord .rebuild (pageAddr m.status offBatchState) s
    { s with start := { s.start with endWord := w } }
  | _, _ => s

/-- An access of the part carried out (R17): a write, or a read without a row; a page that is absent is not accessed (log 14). -/
def carryOut (r : PortReq) (s : State) : State :=
  match writeOf s r with
  | some (a, ws) => storeBurst a ws s
  | none => readQuiet r s

/-- The accesses without a row that stand ahead are carried out in arbiter order (log 5); a correction rewrite ahead stops it. -/
def drainQuiet : Nat → State → State
  | 0, s => s
  | n + 1, s =>
    if s.integ.rewrites.isEmpty then
      match nextReq s.port with
      | some r => if r.quiet then drainQuiet n (carryOut r { s with port := s.port.erase r }) else s
      | none => s
    else s

/-- The grant of a request with a row: the accesses without a row that stand ahead are carried out, and then the next request is taken
where the row's test picks it. None where the port is not free or another request is ahead. -/
def takeRow (want : PortReq → Bool) (s : State) : Option (PortReq × State) :=
  if portBlocked s then none
  else
    let s1 := drainQuiet s.port.length s
    if s1.integ.rewrites.isEmpty then
      match nextReq s1.port with
      | some r => if want r then some (r, { s1 with port := s1.port.erase r }) else none
      | none => none
    else none

/-- Whether a host cycle would be granted now (R16): it has the port already, or POWERDOWN lasts, in which host cycles alone are granted (R15),
or neither a correction rewrite nor a save write with a row waits (log 4). -/
def hostMayGo (s : State) : Bool :=
  s.bus.granted || s.start.powerdown || (s.integ.rewrites.isEmpty && s.port.all (fun r => r.rank ≠ 2 || r.quiet))

/-- A host cycle takes the port for a beat (R17): the save writes without a row, which outrank it, are carried out first, but not in
POWERDOWN. -/
def grantHost (s : State) : State :=
  let s := if s.bus.granted || s.start.powerdown then s
    else (s.port.filter (fun r => r.rank = 2)).foldl (fun s r => carryOut r { s with port := s.port.erase r }) s
  { s with bus := { s.bus with granted := true } }

end Sys2Proof.Machine
end

