-- ==== Sys2Proof/Machine/Table.lean ====
section
/-! DEFINITION. The Connection Table (03): paths, occupancy maps, reservations, adoptions, rebuild claims, the module image and the fix of a
record's completed state. -/

namespace Sys2Proof.Machine

/-! ### Paths and resources -/

/-- A path by its name. -/
def ConnTable.path? (t : ConnTable) (pid : Nat) : Option Path := t.paths.find? (fun p => p.pid = pid)

/-- The table with one path changed. -/
def ConnTable.update (t : ConnTable) (pid : Nat) (f : Path → Path) : ConnTable :=
  { t with paths := t.paths.map (fun p => if p.pid = pid then f p else p) }

/-- A path by its name. -/
def State.path? (s : State) (pid : Nat) : Option Path := s.table.path? pid

/-- One path changed. -/
def updatePath (pid : Nat) (f : Path → Path) (s : State) : State := { s with table := s.table.update pid f }

/-- A record's path of one half. -/
def ConnTable.halfPath (t : ConnTable) (r : RecNo) (h : Half) : Option Path :=
  t.paths.find? (fun p => p.owner = some (r, h))

/-- A record's paths. -/
def ConnTable.recordPaths (t : ConnTable) (r : RecNo) : List Path :=
  t.paths.filter (fun p => match p.owner with | some (q, _) => q = r | none => false)

/-- The resources a path needs, map by map in the order of R36 (R34). -/
def resources (n : Slot) (src dst : PathEnd) : List Res :=
  [Res.out dst.out n] ++
  (match src with
   | .deg d => [Res.inp d n]
   | _ => []) ++
  (match src with
   | .port p => [Res.addSlot p.group n]
   | .grp g => [Res.addSlot g n]
   | .deg _ => []) ++
  (match dst with
   | .port p => [Res.dropSlot p.group n]
   | .grp g => [Res.dropSlot g n]
   | .deg _ => []) ++
  (match src with
   | .port p => [Res.addPort p]
   | _ => []) ++
  (match dst with
   | .port p => [Res.dropPort p]
   | _ => [])

/-- A path's own resources. -/
def Path.needs (p : Path) : List Res := resources p.slot p.src p.dst

/-- An entry of the occupancy maps; none is free (R35). -/
def ConnTable.entry (t : ConnTable) (r : Res) : Option Occ := t.occ.find? (fun o => o.res = r)

/-- The code of the map an entry belongs to (R36). -/
def Res.code : Res → RejCode
  | .out _ _ => .slotBusy
  | .inp _ _ => .sourceSlotBusy
  | .addSlot _ _ | .dropSlot _ _ => .groupSlotBusy
  | .addPort _ | .dropPort _ => .portBusy

/-- Whether a path is marked leaving (R42). -/
def ConnTable.isLeaving (t : ConnTable) (pid : Nat) : Bool :=
  match t.path? pid with
  | some p => p.leaving
  | none => false

/-- Whether an entry conflicts with a reservation (R36). -/
def ConnTable.conflicts (t : ConnTable) (r : Res) : Bool :=
  match t.entry r with
  | none => false
  | some o => !t.isLeaving o.owner || o.pledge.isSome

/-- Takes every entry of a list for a path: a free one is owned, an owned one takes a pledge (R36). -/
def ConnTable.takeAll (t : ConnTable) (pid : Nat) : List Res → ConnTable
  | [] => t
  | r :: rs =>
    let t1 : ConnTable :=
      match t.entry r with
      | none => { t with occ := t.occ ++ [{ res := r, owner := pid, pledge := none }] }
      | some _ => { t with occ := t.occ.map (fun o => if o.res = r then { o with pledge := some pid } else o) }
    t1.takeAll pid rs

/-- A new path of a record in RESERVED, as a reservation creates it (R36, R37). -/
def Path.reserved (pid : Nat) (r : RecNo) (h : Half) (f : HostFields) : Path :=
  { pid := pid, owner := some (r, h), slot := f.slot, src := .of f.src, dst := .of f.dst,
    info := some { target := f.target, profile := f.profile, permit := f.permit, tag := f.tag }, pend := none,
    st := .reserved, route := .fill, att := .block, squelched := false, rerouting := false, engine := none,
    measured := none, leaving := false, claimed := none, readInput := none }

/-- A reservation (R36): the refusal's code, or the table with the new path. -/
def ConnTable.reserve (t : ConnTable) (r : RecNo) (h : Half) (f : HostFields) : Except RejCode ConnTable :=
  let p := Path.reserved t.nextPid r h f
  match p.needs.find? t.conflicts with
  | some res => .error res.code
  | none => .ok (({ t with paths := t.paths ++ [p], nextPid := t.nextPid + 1 } : ConnTable).takeAll p.pid p.needs)

/-- Whether a path owns every entry it needs (R43). -/
def ConnTable.ownsAll (t : ConnTable) (p : Path) : Bool :=
  p.needs.all (fun r => match t.entry r with | some o => o.owner = p.pid | none => false)

/-- A path removed (R37, R45): each entry it owned passes to the pledged path or becomes free, and every pledge to it is voided. -/
def ConnTable.remove (t : ConnTable) (pid : Nat) : ConnTable :=
  let pass (o : Occ) : Option Occ :=
    if o.owner = pid then o.pledge.map (fun q => { o with owner := q, pledge := none })
    else if o.pledge = some pid then some { o with pledge := none } else some o
  { t with paths := t.paths.filter (fun p => p.pid ≠ pid), occ := t.occ.filterMap pass }

/-- Voids every pledge a path holds (R42). -/
def ConnTable.voidHeld (t : ConnTable) (pid : Nat) : ConnTable :=
  { t with occ := t.occ.map (fun o => if o.pledge = some pid then { o with pledge := none } else o) }

/-- The paths that hold a pledge on an entry a path owns. Where a failed release voids several, they stand in the order in which the entries
joined the occupancy list: the spec gives none (R89; log 46). -/
def ConnTable.pledgedOn (t : ConnTable) (pid : Nat) : List Nat :=
  (t.occ.filterMap (fun o => if o.owner = pid then o.pledge else none)).dedup

/-- Voids every pledge on a path's entries (R42, R45). -/
def ConnTable.voidOn (t : ConnTable) (pid : Nat) : ConnTable :=
  { t with occ := t.occ.map (fun o => if o.owner = pid then { o with pledge := none } else o) }

/-! ### Fill and module image -/

/-- The fill of an output point (R40). -/
def fillOf (cfg : Option AnchorCfg) : OutPoint → SlotSetting
  | .grp _ => { input := .block, att := .block }
  | .deg d =>
    match cfg with
    | some c => if c.fill.get d then { input := .idler, att := .db (c.idler.get d) } else { input := .block, att := .block }
    | none => { input := .block, att := .block }

/-- The owner of an output point's slot. -/
def ConnTable.ownerOf (t : ConnTable) (o : OutPoint) (n : Slot) : Option Path :=
  match t.entry (.out o n) with
  | some e => t.path? e.owner
  | none => none

/-- What the Connection Table gives for an output point and slot (R39). -/
def State.setting (s : State) (o : OutPoint) (n : Slot) : SlotSetting :=
  match s.table.ownerOf o n with
  | some p => if p.route = .source then { input := p.src.input, att := p.att } else fillOf s.win.cfg o
  | none => fillOf s.win.cfg o

/-- Whether the module image exists (R40, R140): not before the first valid anchor, and not until a rebuild has built it from the Connection
Table. In a rebuild begun from UNCONFIGURED after a re-read there is none from PROFILES on: R139 keeps the image while the part is UNCONFIGURED, and no
rule gives the moment at which it goes (R182; log 68). -/
def State.hasImage (s : State) : Bool :=
  s.win.cfg.isSome && !([.anchor, .profiles, .active, .save, .readback, .adopt] : List Stage).contains s.start.stage

/-- The module image at an output point and slot (R39), none where there is none (R140). -/
def State.image (s : State) (o : OutPoint) (n : Slot) : Option SlotSetting :=
  if s.hasImage then some (s.setting o n) else none

/-! ### Completed states -/

/-- A path's end as an endpoint code names it; none for a foreign path's group. -/
def PathEnd.endpoint : PathEnd → Option Endpoint
  | .deg d => some (.deg d)
  | .port p => some (.port p)
  | .grp _ => none

/-- The host fields of a record's path (R37). -/
def Path.host (p : Path) : Option HostFields :=
  match p.src.endpoint, p.dst.endpoint, p.info with
  | some src, some dst, some i =>
    some { slot := p.slot, src := src, dst := dst, target := i.target, profile := i.profile, permit := i.permit, tag := i.tag }
  | _, _, _ => none

/-- The completed state a path in a completed state gives, its attenuation as R24 shows it. -/
def Path.completed (cfg : Option AnchorCfg) (p : Path) (st : DoneState) : Completed :=
  match p.host with
  | some h =>
    .path { st := st, host := h, att := if st = .squelched then (fillOf cfg p.dst.out).att else p.att, measured := none }
  | none => .empty

/-- The completed state that a path's state is, if it is one (R38). -/
def PathState.done : PathState → Option DoneState
  | .live => some .live
  | .offTarget => some .offTarget
  | .squelched => some .squelched
  | .discrepant => some .discrepant
  | _ => none

/-- A path's pending fields applied or dropped (R44). -/
def Path.settlePending (p : Path) (apply : Bool) : Path :=
  match p.pend, p.info with
  | some q, some i =>
    let i' : PathInfo := if apply then
        { target := q.target, profile := q.profile, permit := (q.permitTag.map (·.1)).getD i.permit,
          tag := (q.permitTag.map (·.2)).getD i.tag }
      else i
    { p with info := some i', pend := none }
  | _, _ => { p with pend := none }

/-- The state a remaining path takes at a fix (R47, step 2): the path, and its completed state unless that is left as it stood. -/
def Path.atFix (p : Path) (failure : Bool) : Path × Option DoneState :=
  if p.squelched || p.st = .squelched then
    ({ p with st := .squelched, route := .fill, squelched := false, rerouting := false }, some .squelched)
  else match p.st with
    | .live => (p, some .live)
    | .offTarget => (p, some .offTarget)
    | .discrepant => (p, some .discrepant)
    | .ramping | .inFlight =>
      if failure && p.route = .source then ({ p with st := .offTarget }, some .offTarget) else (p, none)
    | _ => (p, none)

/-- A record's completed state fixed from the paths that remain (R47). `verified` says that the entry ended with VERIFY's decision,
`failure` that it ended with a failure. The path's half becomes old (log 37). -/
def fixRecord (r : RecNo) (verified failure : Bool) (s : State) : State :=
  let gone := (s.table.recordPaths r).filter (fun p => p.st = .reserved)
  let t := gone.foldl (fun t p => t.remove p.pid) s.table
  let s := { s with table := t }
  match t.recordPaths r with
  | [] => fixCompleted r .empty s
  | p :: _ =>
    let (q, st) := p.atFix failure
    let q := q.settlePending (verified && !p.squelched)
    let s := match st with
      | some d => setCompleted r (q.completed s.win.cfg d) s
      | none => s
    let m := powerAverage s p.dst.out p.slot
    let s := updatePath p.pid (fun _ => { q with owner := if st.isSome then some (r, .old) else q.owner, measured := m }) s
    activeDue r s

/-! ### Undo of the check's claims -/

/-- Every claim of the check undone at once (R42, R44, R48). -/
def ConnTable.undo (t : ConnTable) : ConnTable :=
  let reserved := (t.paths.filter (fun p => p.st = .reserved)).map (·.pid)
  let t := reserved.foldl (fun t pid => t.remove pid) t
  let freed := t.paths.filterMap (fun p => if p.claimed.isSome then some p.pid else none)
  let t : ConnTable := { t with occ := t.occ.filter (fun o =>
    !(freed.contains o.owner && (match o.res with | .addPort _ | .dropPort _ => true | _ => false))) }
  { t with paths := t.paths.map (fun p => { p with leaving := false, pend := none, claimed := none }) }

/-- Gives up the adoption claim of a record (R48): the mark is cleared and the port freed. -/
def ConnTable.unclaim (t : ConnTable) (r : RecNo) : ConnTable :=
  let freed := t.paths.filterMap (fun p => if p.claimed = some r then some p.pid else none)
  let t : ConnTable := { t with occ := t.occ.filter (fun o =>
    !(freed.contains o.owner && (match o.res with | .addPort _ | .dropPort _ => true | _ => false))) }
  { t with paths := t.paths.map (fun p => if p.claimed = some r then { p with claimed := none } else p) }

/-! ### Adoption -/

/-- The foreign path a connection could adopt: the same slot, the output point and the input of the connection (R33, R34, R48). -/
def ConnTable.foreignFor (t : ConnTable) (f : HostFields) : Option Path :=
  t.paths.find? (fun p => p.owner.isNone && decide (p.slot = f.slot) && decide (p.dst.out = Res.ofDst f.dst) &&
    decide (p.src.input = (PathEnd.of f.src).input))

/-- The port a connection names: its source's add side or its destination's drop side (R33). -/
def HostFields.port (f : HostFields) : Option Res :=
  match f.src, f.dst with
  | .port p, _ => some (.addPort p)
  | _, .port p => some (.dropPort p)
  | _, _ => none

/-- An adoption's test and claim (R48): a port owned or pledged refuses it; otherwise the foreign path takes the port and the claim. -/
def ConnTable.adopt (t : ConnTable) (r : RecNo) (pid : Nat) (f : HostFields) : Except RejCode ConnTable :=
  match f.port with
  | some port =>
    match t.entry port with
    | some _ => .error .portBusy
    | none =>
      .ok (({ t with occ := t.occ ++ [{ res := port, owner := pid, pledge := none }] } : ConnTable).update pid
        (fun p => { p with claimed := some r }))
  | none => .ok (t.update pid (fun p => { p with claimed := some r }))

/-- The foreign path becomes the record's path (R48). -/
def Path.adopted (p : Path) (r : RecNo) (f : HostFields) : Path :=
  { p with
    owner := some (r, .old), src := .of f.src, dst := .of f.dst, claimed := none
    info := some { target := f.target, profile := f.profile, permit := f.permit, tag := f.tag }
    st := if p.squelched then .squelched else .live }

/-! ### Rebuild claims -/

/-- A rebuild claim (R52): none where an entry is owned, otherwise the table with the path, which owns its entries. -/
def ConnTable.claim (t : ConnTable) (p : Path) : Option ConnTable :=
  if p.needs.any (fun r => (t.entry r).isSome) then none
  else
    let p := { p with pid := t.nextPid }
    some (({ t with paths := t.paths ++ [p], nextPid := t.nextPid + 1 } : ConnTable).takeAll p.pid p.needs)

end Sys2Proof.Machine
end

