-- ==== Sys2Proof/Machine/Monitor.lean ====
section
/-! DEFINITION. The Monitor Port and the Power Table (07), and the accessors of the Ramp Bank's engines that it needs. -/

namespace Sys2Proof.Machine

/-! ### Engines -/

/-- An engine. -/
def State.engine (s : State) (e : EngineNo) : Engine := s.ramp.engines[e]

/-- One engine changed. -/
def setEngine (e : EngineNo) (g : Engine) (s : State) : State :=
  { s with ramp := { s.ramp with engines := s.ramp.engines.set e g } }

/-- One engine changed by a function. -/
def updateEngine (e : EngineNo) (f : Engine → Engine) (s : State) : State := setEngine e (f (s.engine e)) s

/-! ### Power Table -/

/-- A cell's values with a new one: the oldest of four is dropped (R124). -/
def pushValue (l : List Int) (v : Int) : List Int := (if l.length < 4 then l else l.drop 1) ++ [v]

/-- The Power Table with a cell taking a value (R124). -/
def takeValue (o : OutPoint) (n : Slot) (v : Int) (t : List PowerCell) : List PowerCell :=
  if t.any (fun c => c.point = o ∧ c.slot = n) then
    t.map (fun c => if c.point = o ∧ c.slot = n then { c with vals := pushValue c.vals v } else c)
  else t ++ [{ point := o, slot := n, vals := [v] }]

/-- The value every user of a sample takes: −600 for one below range (R114). -/
def IntakeEntry.value (i : IntakeEntry) : Int := if i.below then -600 else i.power

/-- The Power Table updated by a sample (R124). -/
def powerTake (i : IntakeEntry) (s : State) : State :=
  { s with power := takeValue i.point i.slot i.value s.power }

/-- The cells of a range of an output point's slots cleared (R125). -/
def clearCells (o : OutPoint) (start count : Nat) (s : State) : State :=
  { s with power := s.power.filter (fun c => !(c.point = o && decide (start ≤ c.slot.val) && decide (c.slot.val < start + count))) }

/-! ### Requests -/

/-- An engine asks for a sample of its path's output point and slot (R105, R115). -/
def askSample (e : EngineNo) (o : OutPoint) (n : Slot) (s : State) : State :=
  let s1 := { s with mon := { s.mon with send := s.mon.send ++ [{ asker := { engine := e, grant := (s.engine e).grant }, point := o, slot := n }] } }
  updateEngine e (fun g => { g with samp := .outstanding, sample := none }) s1

/-- An engine gives up its request (R117): a waiting one is withdrawn, one sent is orphaned. -/
def giveUpSample (e : EngineNo) (s : State) : State :=
  { s with mon :=
    { s.mon with
      send := s.mon.send.filter (fun r => r.asker.engine ≠ e)
      out := s.mon.out.map (fun r => match r.asker with
        | some a => if a.engine = e then { r with asker := none } else r
        | none => r) } }

/-- The next value of the next-sequence counter: 1 to 255 and then 1 again (R116). -/
def nextSequence (q : BitVec 8) : BitVec 8 := if q = 255 then 1 else q + 1

/-- The first value from the counter's on that no entry of the list holds (R116). -/
def freeSequence (out : List OutReq) : Nat → BitVec 8 → BitVec 8
  | 0, q => q
  | n + 1, q => if out.any (fun r => r.seq = q) then freeSequence out n (nextSequence q) else q

/-- A number joins the stale set (R121). -/
def joinStale (q : BitVec 8) (l : List (BitVec 8)) : List (BitVec 8) := if l.contains q then l else l ++ [q]

/-- The oldest orphaned entry evicted where the list is full (R116). -/
def evict (m : Monitor) : Monitor :=
  if m.out.length < 12 then m
  else match m.out.find? (fun r => r.asker.isNone) with
    | some r => { m with out := m.out.erase r, stale := joinStale r.seq m.stale }
    | none => m

/-- Whether a MEASURE can begin: none in transmission, one waiting, not in POWERDOWN (R115). -/
def measureDue (s : State) : Bool := s.mon.txLeft = 0 && !s.mon.send.isEmpty && !s.start.powerdown

/-- The head request is sent (R115, R116): its sequence is assigned and it joins the Outstanding Request List. -/
def beginMeasure (s : State) : State :=
  match s.mon.send with
  | [] => s
  | r :: rest =>
    let m := evict s.mon
    let q := freeSequence m.out 256 m.nextSeq
    { s with mon :=
      { m with
        send := rest
        out := m.out ++ [{ seq := q, point := r.point, slot := r.slot, asker := some r.asker }]
        nextSeq := nextSequence q
        stale := m.stale.filter (fun x => x ≠ q)
        txLeft := Config.measureFrameTicks } }

/-! ### Arrivals -/

/-- Whether a received frame is valid (R114), and the entry it makes. -/
def sampleEntry (f : SampleFrame) : Option IntakeEntry :=
  match f.point with
  | some o =>
    if h : f.slot < 64 then
      if f.whole && f.checksumOk && f.kindOk && (decide (-600 ≤ f.power) && decide (f.power ≤ 100)) then
        some { seq := f.seq, point := o, slot := ⟨f.slot, h⟩, power := f.power, below := f.below, overwritten := false }
      else none
    else none
  | none => none

/-- A sample enters the Intake Queue (R118): a full queue's newest entry is replaced. -/
def intakeJoin (i : IntakeEntry) (l : List IntakeEntry) : List IntakeEntry :=
  if l.length < 4 then l ++ [i] else l.take 3 ++ [{ i with overwritten := true }]

/-- The link state changes (R122, R123): MONITOR_LINK is raised and the monitor word written. -/
def setLink (up : Bool) (s : State) : State :=
  raiseCause .monitorLink (requestStatus (.monitor up) { s with mon := { s.mon with linkUp := up } })

/-- The silence timer's full count: 50 ms (R122). -/
def silenceFull : Nat := 5000

/-- A SAMPLE frame arrives (R114, R118, R122, R123). -/
def sampleArrives (f : SampleFrame) (s : State) : State :=
  match sampleEntry f with
  | none => s
  | some i =>
    let s := if s.mon.linkUp then s else setLink true s
    { s with mon := { s.mon with silence := silenceFull, intake := intakeJoin i s.mon.intake } }

/-- An engine is told that its request is lost (R105). -/
def tellLost (a : Asker) (s : State) : State :=
  let g := s.engine a.engine
  if g.st ≠ .free && g.grant = a.grant && g.samp = .outstanding then setEngine a.engine { g with samp := .lost } s else s

/-- Every outstanding request cleared into the stale set and each engine told (R121, R122). -/
def loseRequests (s : State) : State :=
  let out := s.mon.out
  let s1 := { s with mon := { s.mon with out := [], stale := out.foldl (fun l r => joinStale r.seq l) s.mon.stale } }
  out.foldl (fun s r => match r.asker with | some a => tellLost a s | none => s) s1

/-- A slip (R121). -/
def slip (s : State) : State := loseRequests { s with mon := { s.mon with intake := [] } }

/-- A sample handed to its engine (R105, R120). -/
def handSample (a : Asker) (v : Int) (s : State) : State :=
  let g := s.engine a.engine
  if g.st ≠ .free && g.grant = a.grant && g.samp = .outstanding then
    setEngine a.engine { g with samp := .arrived, sample := some v } s
  else s

/-- The head of the Intake Queue is taken and judged (R119, R120). -/
def takeIntake (s : State) : State :=
  match s.mon.intake with
  | [] => s
  | i :: rest =>
    let s := { s with mon := { s.mon with intake := rest } }
    let unstale (s : State) : State := { s with mon := { s.mon with stale := s.mon.stale.filter (fun x => x ≠ i.seq) } }
    if i.overwritten && !s.mon.out.isEmpty then
      if s.mon.stale.contains i.seq then slip (unstale s) else slip (powerTake i s)
    else if i.seq = 0 then powerTake i s
    else if s.mon.stale.contains i.seq then unstale s
    else match s.mon.out with
      | r :: out =>
        if r.seq = i.seq && r.point = i.point && r.slot = i.slot then
          let s := powerTake i { s with mon := { s.mon with out := out } }
          match r.asker with
          | some a => handSample a i.value s
          | none => s
        else slip s
      | [] => slip s

/-- The silence timer expires (R122): it has reached zero (log 8). -/
def silenceExpires (s : State) : State :=
  if s.mon.linkUp && s.mon.silence = 0 then setLink false (loseRequests s) else s

end Sys2Proof.Machine
end

