-- ==== Sys2Proof/Machine/Actuator.lean ====
section
/-! DEFINITION. The Actuator Port (08): the command queue, the place wait list, the choice and building of frames, module states. -/

namespace Sys2Proof.Machine

/-- A module's state set, the module word written at each change (R135). -/
def setModule (o : OutPoint) (m : ModState) (s : State) : State :=
  if s.act.mods.get o = m then s
  else requestStatus .modules { s with act := { s.act with mods := s.act.mods.set o m } }

/-- Whether a module is FAULTED. -/
def isFaulted (s : State) (o : OutPoint) : Bool := s.act.mods.get o = .faulted

/-- What a command does to its requester when it takes a place in the queue: a CONNECT's path becomes CONNECTING (R43), a DISCONNECT's
path RELEASING (R45), an engine's command unanswered (R105). -/
def onQueued (c : ActCmd) (s : State) : State :=
  let route (pid : Nat) (u : RouteUse) (s : State) : State :=
    updatePath pid (fun p => { p with st := match u with | .connect => .connecting | _ => .releasing }) s
  match c.req with
  | .entry _ pid u => route pid u s
  | .restore _ pid u => route pid u s
  | .engine e g _ =>
    if (s.engine e).st ≠ .free && (s.engine e).grant = g then updateEngine e (fun x => { x with cmd := .unanswered }) s else s
  | _ => s

/-- A command takes a place at the tail of the ordinary class. -/
def queueOrdinary (c : ActCmd) (s : State) : State :=
  onQueued c { s with act := { s.act with ordinary := s.act.ordinary ++ [c] } }

/-- An ordinary requester hands the port one command (R133): none where it is refused with FAIL_MODULE. -/
def handOrdinary (c : ActCmd) (s : State) : Option State :=
  if isFaulted s c.module && c.kind ≠ .read then none
  else if s.act.ordinary.length < 24 && s.act.wait.isEmpty then some (queueOrdinary c s)
  else
    let s := { s with act := { s.act with wait := s.act.wait ++ [c] } }
    some (match c.req with
      | .engine e _ _ => updateEngine e (fun x => { x with cmd := .waiting }) s
      | _ => s)

/-- The head of the place wait list takes a free place (R133). -/
def placeWaiting (s : State) : Option State :=
  match s.act.wait with
  | [] => none
  | c :: rest =>
    if s.act.ordinary.length < 24 then some (queueOrdinary c { s with act := { s.act with wait := rest } }) else none

/-- Unsent ordinary commands withdrawn where a test picks their requester (R133). -/
def withdrawCmds (p : Requester → Bool) (s : State) : State :=
  { s with act :=
    { s.act with
      ordinary := s.act.ordinary.filter (fun c => !p c.req)
      wait := s.act.wait.filter (fun c => !p c.req) } }

/-- An urgent frame queued (R132). -/
def queueUrgent (c : ActCmd) (s : State) : State :=
  { s with act := { s.act with urgent := s.act.urgent ++ [c] } }

/-- One slot of a module handed for a squelch burst (R134): a new urgent ROUTE, or the waiting one widened; none for a FAULTED module. -/
def squelchSlot (o : OutPoint) (n : Slot) (s : State) : State :=
  if isFaulted s o then s
  else
    let mine (c : ActCmd) : Bool := c.module = o && c.req = .squelch
    if s.act.urgent.any mine then
      let widen (c : ActCmd) : ActCmd :=
        if mine c then
          let lo := min c.start n.val
          let hi := max (c.start + c.count) (n.val + 1)
          { c with start := lo, count := hi - lo }
        else c
      { s with act := { s.act with urgent := s.act.urgent.map widen } }
    else
      queueUrgent { module := o, kind := .route, start := n.val, count := 1, vals := [], built := false, req := .squelch } s

/-- Whether an urgent entry may be sent (R132, R139): in POWERDOWN squelch bursts alone, during rebuild none (R178). A squelch burst made in UNCONFIGURED
and unsent when a rebuild begins keeps its place and is sent after the rebuild: no rule drops it or keeps it (log 103). -/
def urgentMaySend (s : State) (c : ActCmd) : Bool := (!s.start.powerdown || c.req = .squelch) && s.seqr.st ≠ .rebuilding

/-- Whether an ordinary entry may be sent (R132, R138, R139). -/
def ordinaryMaySend (s : State) (c : ActCmd) : Bool :=
  !s.start.powerdown && s.act.refresh.isNone && (c.kind = .read || s.act.mods.get c.module = .online) &&
    (s.seqr.st ≠ .rebuilding || c.kind = .read)

/-- The frame that the port would choose next (R132), with the queues without it. -/
def chooseFrame (s : State) : Option (ActCmd × Actuator) :=
  if s.act.txn.isSome then none
  else match s.act.urgent.find? (urgentMaySend s) with
    | some c => some (c, { s.act with urgent := s.act.urgent.erase c })
    | none =>
      match s.act.ordinary.find? (ordinaryMaySend s) with
      | some c => some (c, { s.act with ordinary := s.act.ordinary.erase c })
      | none => none

/-- The image's values for a range of slots of an output point (R39), as the Connection Table gives them. -/
def imageRange (s : State) (o : OutPoint) (start count : Nat) : List SlotSetting :=
  (List.range count).map (fun i => s.setting o ⟨(start + i) % 64, Nat.mod_lt _ (by decide)⟩)

/-- A frame's fields as they are fixed when its transaction begins (R129). -/
def buildFrame (s : State) (c : ActCmd) : ActCmd :=
  if c.built then c else { c with vals := imageRange s c.module c.start c.count, built := true }

/-- A frame begins an attempt (R130). How long it is on the line is a free value of its kind and its number of slots (log 9). -/
def beginAttempt (c : ActCmd) (attempt : Nat) : Txn :=
  { cmd := c, attempt := attempt, sendLeft := Config.actFrameTicks c.kind c.count, timer := 200 }

/-- The next frame's transaction begins (R128, R132). -/
def beginTransaction (s : State) : State :=
  match chooseFrame s with
  | some (c, a) => { s with act := { a with txn := some (beginAttempt (buildFrame s c) 1) } }
  | none => s

/-- The refresh pass queues the PING of its first module (R137). -/
def refreshPing (o : OutPoint) (s : State) : State :=
  queueUrgent { module := o, kind := .ping, start := 0, count := 0, vals := [], built := true, req := .refresh } s

/-- A refresh burst over slots 0 to 63, built when it begins (R137). -/
def refreshBurst (o : OutPoint) (k : FrameKind) (s : State) : State :=
  queueUrgent { module := o, kind := k, start := 0, count := 64, vals := [], built := false, req := .refresh } s

/-- A refresh pass over the FAULTED modules begins (R137). -/
def startRefresh (s : State) : State :=
  match OutPoint.all.filter (isFaulted s) with
  | [] => s
  | o :: rest => refreshPing o { s with act := { s.act with refresh := some { mods := o :: rest } } }

/-- The pass goes on to the next module; none left ends it (R137). -/
def nextRefresh (s : State) : State :=
  match s.act.refresh with
  | some { mods := _ :: o :: rest } => refreshPing o { s with act := { s.act with refresh := some { mods := o :: rest } } }
  | _ => { s with act := { s.act with refresh := none } }

/-- An engine's ATTEN for its path's slot (R105). -/
def engineAtten (e : EngineNo) (g : Engine) (o : EngOwner) (p : Path) (a : Nat) : ActCmd :=
  { module := p.dst.out, kind := .atten, start := p.slot.val, count := 1, vals := [{ input := p.src.input, att := .db a }],
    built := true, req := .engine e g.grant o }

/-- The ROUTE of a CONNECT: the path's input at BLOCK (R43, R129). -/
def connectCmd (p : Path) (req : Requester) : ActCmd :=
  { module := p.dst.out, kind := .route, start := p.slot.val, count := 1, vals := [{ input := p.src.input, att := .block }],
    built := true, req := req }

/-- The ROUTE of a DISCONNECT: the fill of the output point (R45, R40). -/
def disconnectCmd (s : State) (p : Path) (req : Requester) : ActCmd :=
  { module := p.dst.out, kind := .route, start := p.slot.val, count := 1, vals := [fillOf s.win.cfg p.dst.out],
    built := true, req := req }

end Sys2Proof.Machine
end

