-- ==== Sys2Proof/Machine/Ramp.lean ====
section
/-! DEFINITION. The Ramp Bank's own operations (06): freeing and stopping engines, requests, eligibility, the load of a grant, timing. -/

namespace Sys2Proof.Machine

/-- The attenuation as a number: a path at BLOCK is taken as at 250 (R107, R108). -/
def attNum : Att → Nat
  | .db n => n
  | .block => 250

/-- Whether a path is at 250 or BLOCK (R110, R111). -/
def atTop (a : Att) : Bool := a = .block || a = .db 250

/-- An engine returns to FREE (R98, R99): its path's engine field becomes none and its sample request is given up. -/
def freeEngine (e : EngineNo) (s : State) : State :=
  let s1 := match (s.engine e).owner with
    | some o => updatePath o.pid (fun p => if p.engine = some e then { p with engine := none } else p) s
    | none => s
  setEngine e .free (giveUpSample e s1)

/-- A held engine stopped (R112): it returns to FREE and its unsent ATTEN is withdrawn (R133). -/
def stopEngine (e : EngineNo) (s : State) : State :=
  let g := (s.engine e).grant
  freeEngine e (withdrawCmds (fun r => match r with | .engine e' g' _ => e' = e && g' = g | _ => false) s)

/-- The engines in order, E0 first. -/
def allEngines : List EngineNo := [0, 1, 2, 3, 4, 5, 6, 7]

/-- A path's engine freed, if it has one. -/
def freePathEngine (pid : Nat) (s : State) : State :=
  match (s.path? pid).bind (·.engine) with
  | some e => freeEngine e s
  | none => s

/-- A path's engine stopped, if it has one. -/
def stopPathEngine (pid : Nat) (s : State) : State :=
  match (s.path? pid).bind (·.engine) with
  | some e => stopEngine e s
  | none => s

/-- A path's waiting engine request withdrawn (R100). -/
def withdrawEngReq (pid : Nat) (s : State) : State :=
  { s with ramp := { s.ramp with wait := s.ramp.wait.filter (fun r => r.owner.pid ≠ pid) } }

/-- The profile a request carries (R100): a RAMP_DOWN that of the path released, the others with pending values included. -/
def requestProfile (s : State) (p : Path) (k : RampKind) : Profile :=
  let own := (p.info.map (·.profile)).getD 0
  let n : Fin 8 := if k = .rampDown then own else (p.pend.map (·.profile)).getD own
  s.profiles[n]

/-- A request for an engine presented (R100); a path whose request waits already presents none. -/
def presentRequest (no : RecNo) (restore : Bool) (p : Path) (k : RampKind) (s : State) : State :=
  if s.ramp.wait.any (fun r => r.owner.pid = p.pid) then s
  else
    let r : EngRequest :=
      { owner := { pid := p.pid, no := no, restore := restore }, kind := k, fromHeld := p.att ≠ .block, out := p.dst.out,
        prof := requestProfile s p k }
    { s with ramp := { s.ramp with wait := s.ramp.wait ++ [r] } }

/-- How many engines are held by paths whose output point is a degree (R101). -/
def heldCount (s : State) (d : Degree) : Nat :=
  s.ramp.engines.toList.countP (fun g => g.st ≠ .free &&
    (match g.owner.bind (fun o => s.path? o.pid) with | some p => decide (p.dst.out = .deg d) | none => false))

/-- The ramp budget in force (R20). -/
def budget (s : State) : Nat := (s.win.cfg.map (·.budget)).getD 2

/-- Whether a request is eligible (R101). -/
def eligible (s : State) (r : EngRequest) : Bool :=
  match r.out with
  | .grp _ => true
  | .deg d => decide (heldCount s d < budget s)

/-- The grant that the grant test would make now (R101): the lowest FREE engine to the oldest eligible request; none in POWERDOWN (R113). -/
def nextGrant? (s : State) : Option (EngineNo × EngRequest) :=
  if s.start.powerdown then none
  else match allEngines.find? (fun e => (s.engine e).st = .free), s.ramp.wait.find? (eligible s) with
    | some e, some r => some (e, r)
    | _, _ => none

/-- The effective load: the interval load plus the adjustment, within 1 to 256 (R103). -/
def effectiveLoad (p : Profile) (adj : Int) : Nat := (max 1 (min 256 ((p.load : Int) + adj))).toNat

/-- The engine as a grant loads it (R99, R102). -/
def Engine.granted (n : Nat) (r : EngRequest) (target : Int) : Engine :=
  { Engine.free with
    st := match r.kind with | .verify => .verifying | .returning => .returning | _ => .armed
    grant := n, owner := some r.owner, kind := r.kind, fromHeld := r.fromHeld, prof := r.prof, target := target
    dir := if r.kind = .rampUp then .falling else .none
    load := effectiveLoad r.prof 0, count := effectiveLoad r.prof 0
    wanted := if r.kind = .verify then 2 else 0 }

/-- A grant made (R101, R102): the request leaves the list, the engine is loaded and the path records it. A VERIFY asks for its sample at
once (R109). -/
def makeGrant (e : EngineNo) (r : EngRequest) (s : State) : State :=
  let target := match s.path? r.owner.pid with
    | some p => (p.pend.map (·.target)).getD ((p.info.map (·.target)).getD 0)
    | none => 0
  let s := { s with ramp :=
    { s.ramp with wait := s.ramp.wait.erase r, nextGrant := s.ramp.nextGrant + 1 } }
  let s := setEngine e (Engine.granted s.ramp.nextGrant r target) s
  let st : PathState := match r.kind with | .rampDown | .returning => .releasing | _ => .ramping
  let s := updatePath r.owner.pid (fun p => { p with st := st, engine := some e }) s
  match r.kind, s.path? r.owner.pid with
  | .verify, some p => askSample e p.dst.out p.slot s
  | _, _ => s

/-- A held engine enters RETURNING (R111): no sample is wanted and its request is given up. -/
def startReturning (e : EngineNo) (s : State) : State :=
  updateEngine e (fun g => { g with st := .returning, kind := .returning, dir := .none, expected := none, samp := .none,
                                    sample := none, wanted := 0, first := none }) (giveUpSample e s)

/-- The adjustment after a comparison (R108). -/
def adjust (g : Engine) (m : Int) : Int :=
  match g.expected with
  | none => g.adj
  | some x =>
    if m < x - g.prof.lag then min (g.adj + 1) g.prof.maxAdj
    else if m > x + g.prof.lead then max (g.adj - 1) (-(g.prof.maxAdj : Int))
    else g.adj

/-- The count reloaded after an expiry (R103). -/
def Engine.reload (g : Engine) : Engine :=
  let l := effectiveLoad g.prof g.adj
  { g with load := l, count := l }

/-- The count reloaded after the expiry at which a step failed: the effective load then held is kept (R111; log 44). -/
def Engine.reloadHeld (g : Engine) : Engine := { g with count := g.load }

end Sys2Proof.Machine
end

