-- ==== Sys2Proof/Machine/Run.lean ====
section
/-! DEFINITION. Running a batch (05): the Transition Queue, steps, failures, finishes, cancellation and the end of a batch; and the steps of
a restore (09), which run the same chain. -/

namespace Sys2Proof.Machine

/-! ### Words and states -/

/-- The batch state word set and its write asked for (R27). -/
def writeBatchState (b : BatchWord) (s : State) : State :=
  requestStatus (.batchState b) { s with seqr := { s.seqr with shown := b } }

/-- The sequencer enters a state and the batch state word is written with the batch's sequence (R27). -/
def enterState (st : SeqState) (w : BatchWordState) (s : State) : State :=
  writeBatchState { st := w, seq := s.batch.seq } { s with seqr := { s.seqr with st := st } }

/-- The sequencer enters RUNNING (R27, R80): the phase is 1 from the first time on. -/
def enterRunning (s : State) : State :=
  enterState .running .running { s with batch := { s.batch with phase := max 1 s.batch.phase } }

/-- The counters set and their write asked for (R27). -/
def writeCounters (c : Counters) (s : State) : State :=
  requestStatus (.counters c) { s with batch := { s.batch with counters := c } }

/-- A record's outcome word asked for, the counters after it (R23, R27, R85). A recovery batch started by ABANDON writes ABANDONED for every
record (R183). -/
def writeOutcome (r : RecNo) (c : OutcomeCode) (s : State) : State :=
  let c := match s.batch.recovery with
    | some { abandon := true, toHeld := _ } => OutcomeCode.abandoned
    | _ => c
  writeCounters (s.batch.counters.count c) (requestStatus (.outcome r c s.batch.seq) s)

/-! ### Entries -/

/-- An entry in progress: BEGUN or ROLLING_BACK (R78). -/
def EntryState.inProgress : EntryState → Bool
  | .begun | .rollingBack => true
  | _ => false

/-- An end state of an entry (R78). -/
def EntryState.finished : EntryState → Bool
  | .done | .failed | .cancelled | .abandoned => true
  | _ => false

/-- A record's entry in the Transition Queue. -/
def State.entry? (s : State) (r : RecNo) : Option Entry := s.queue.find? (fun e => e.no = r)

/-- A record's entry changed. -/
def updateEntry (r : RecNo) (f : Entry → Entry) (s : State) : State :=
  { s with queue := s.queue.map (fun e => if e.no = r then f e else e) }

/-- The phase of the half an entry stands on (R79). -/
def Entry.phase (e : Entry) : Nat :=
  match e.kind with
  | .remove => 1
  | .move => match e.half with | .old => 1 | .new => 3
  | .retune | .complete => 2
  | _ => 3

/-- The path of the half an entry stands on (R78): a RESTORE's, a RETUNE's and a COMPLETE's half is the old one. -/
def Entry.path (e : Entry) : Option Nat := match e.half with | .old => e.oldP | .new => e.newP

/-- Whether an entry stands on a release (R79). -/
def Entry.isRelease (e : Entry) : Bool :=
  !e.reversing && e.half = .old && (e.kind = .remove || e.kind = .move)

/-- Whether an entry stands on a retune's chain, its own or a reversal's (R87, R165). -/
def Entry.isRetune (e : Entry) : Bool :=
  if e.reversing then e.chain.head? = some .rampRetune || e.chain.head? = some .verify
  else e.kind = .retune || e.kind = .complete

/-- Whether steps may be issued: not while the batch is suspended (R166) or paused in POWERDOWN. -/
def canIssue (s : State) : Bool := s.seqr.st.isRun

/-- How many entries are in progress (R81). -/
def inProgress (s : State) : Nat := s.queue.countP (fun e => e.st.inProgress)

/-- The chain of the half an entry begins (R79). -/
def chainFor (e : Entry) (route : PathRoute) : List ChainStep :=
  match e.kind, e.half with
  | .remove, _ | .move, .old => if route = .source then [.rampDown, .disconnect] else [.disconnect]
  | .retune, _ | .complete, _ => [.rampRetune, .verify]
  | .adopt, _ => []
  | _, _ => [.connect, .rampUp, .verify]

/-! ### Claims given up, void pledges -/

/-- A never-begun entry's claims given up (R42, R94). -/
def giveUpClaims (e : Entry) (s : State) : State :=
  let t := s.table
  let t := match e.newP with
    | some p => if e.kind = Kind.adopt then t else t.remove p
    | none => t
  let t := match e.oldP with
    | some p => (t.voidOn p).update p (fun q => { q with leaving := false, pend := none })
    | none => t
  { s with table := t.unclaim e.no }

/-- An entry's outcome (R84, R85): DONE_OFF_TARGET where the path it ends with is OFF_TARGET. -/
def outcomeOf (e : Entry) (st : EntryState) (s : State) : OutcomeCode :=
  match st with
  | .failed => .fail (e.fail.getD .module)
  | .cancelled => .cancelled
  | .abandoned => .abandoned
  | _ => if (s.table.recordPaths e.no).any (fun p => p.st = .offTarget) && e.kind ≠ Kind.adopt then .doneOffTarget else .done

/-- A cancelled, abandoned or voided WAITING entry written back (R94, R89): a MOVE between its halves is fixed EMPTY, any other gives up its
claims and its outcome stands alone. -/
def endWaiting (e : Entry) (st : EntryState) (code : Option FailCode) (s : State) : State :=
  let e := { e with st := st, fail := e.fail <|> code, chain := [] }
  let s := updateEntry e.no (fun _ => e) s
  let s := if e.kind = .move && e.half = .new then fixRecord e.no false false s else giveUpClaims e s
  writeOutcome e.no (outcomeOf e st s) s

/-- Every WAITING entry ended in ascending record number (R93, R94, R165). -/
def endAllWaiting (st : EntryState) (s : State) : State :=
  s.queue.foldl (fun s e => if e.st = .waiting then endWaiting e st none s else s) s

/-- The sequencer enters CANCELLING (R93). -/
def enterCancelling (s : State) : State := endAllWaiting .cancelled (enterState .cancelling .cancelling s)

/-- The test against the stop mask when a failure code is taken (R90, R166). One taken in POWERDOWN sets the stop-pending mark as one taken in
SUSPENDED does: the rules name SUSPENDED alone (log 86). -/
def stopTest (code : FailCode) (s : State) : State :=
  if s.batch.stop.getLsbD code.idx then
    match s.seqr.st with
    | .running | .holding | .held => enterCancelling s
    | .suspended | .powerdown => { s with batch := { s.batch with stopPending := true } }
    | _ => s
  else s

/-- An entry takes a failure code (R78, R90): the first stands, and a code is tested when it is taken. -/
def takeCode (r : RecNo) (code : FailCode) (s : State) : State :=
  match s.entry? r with
  | some e => if e.fail.isSome then s else stopTest code (updateEntry r (fun e => { e with fail := some code }) s)
  | none => s

/-- Void pledges reported to their entries (R89), which may void further pledges, reported behind those of the first (log 46); each entry reports at
most the four entries of its old path, which bounds the list. -/
def markVoid (code : FailCode) : Nat → List Nat → State → State
  | 0, _, s => s
  | _, [], s => s
  | n + 1, pid :: rest, s =>
    match s.queue.find? (fun e => e.newP = some pid) with
    | none => markVoid code n rest s
    | some e =>
      match e.st with
      | .waiting =>
        let more := match e.oldP with
          | some p => if e.half = .old then s.table.pledgedOn p else []
          | none => []
        let s := endWaiting e .failed (some code) s
        markVoid code n (rest ++ more) (stopTest code s)
      | .begun =>
        let s := if e.half = .old then updateEntry e.no (fun e => { e with void := e.void <|> some code }) s else s
        markVoid code n rest s
      | _ => markVoid code n rest s

/-! ### Finishes -/

/-- An entry finishes (R85): its path left by a failed release keeps its entries and voids the pledges on them (R45), the completed state is
fixed (R47), and the three writes follow. -/
def finishNow (r : RecNo) (st : EntryState) (verified : Bool) (s : State) : State :=
  match s.entry? r with
  | none => s
  | some e =>
    let out := outcomeOf e st s
    let s := updateEntry r (fun e => { e with st := st, chain := [] }) s
    let left := match e.oldP with
      | some p => if e.half = .old && s.table.isLeaving p then s.table.pledgedOn p else []
      | none => []
    let s := match e.oldP with
      | some p => { s with table := (if s.table.isLeaving p then s.table.voidOn p else s.table).update p
                                      (fun q => { q with leaving := false }) }
      | none => s
    let s := fixRecord r verified (st = .failed || st = .abandoned) s
    let s := writeOutcome r out s
    markVoid (e.fail.getD .module) (left.length + 4 * s.queue.length + 1) left s

/-- An entry finishes; in POWERDOWN its fix and write-back wait for its end (R97). -/
def finishEntry (r : RecNo) (st : EntryState) (verified : Bool) (s : State) : State :=
  if s.start.powerdown then { s with start := { s.start with deferred := s.start.deferred ++ [.entry r st verified] } }
  else finishNow r st verified s

/-- A path left in place by a failed command (R88): OFF_TARGET where it is routed at its source, SQUELCHED otherwise. -/
def leaveInPlace (pid : Nat) (s : State) : State :=
  updatePath pid (fun p =>
    if p.route = .source && !p.squelched then { p with st := .offTarget }
    else { p with st := .squelched, route := .fill, squelched := false, rerouting := false }) s

/-- The path of a failed RETUNE or COMPLETE (R87, R47). A RAMPING path whose route is FILL is taken as SQUELCHED (log 27). -/
def leaveRetuned (pid : Nat) (s : State) : State :=
  updatePath pid (fun p =>
    if p.squelched then p
    else if p.route = .source then { p with st := .offTarget }
    else if p.st = .ramping || p.st = .releasing then { p with st := .squelched } else p) s

/-- A path that fails with its route at the fill (R46): a new path is removed, a RESTORE's becomes SQUELCHED. -/
def dropUnrouted (pid : Nat) (keep : Bool) (s : State) : State :=
  if keep then updatePath pid (fun p => { p with st := .squelched, route := .fill, squelched := false, rerouting := false }) s
  else { s with table := s.table.remove pid }

/-! ### Failures and steps -/

/-- The end state of an entry whose rollback or reversal is over. -/
def Entry.failedState (e : Entry) : EntryState := if e.reversing then .abandoned else .failed

/-- A failure of a release or of a rollback's command (R88). -/
def failInPlace (e : Entry) (pid : Nat) (code : FailCode) (s : State) : State :=
  let s := if e.isRelease then takeCode e.no code s else s
  let s := leaveInPlace pid (withdrawEngReq pid (freePathEngine pid s))
  finishEntry e.no e.failedState false s

/-- DISCONNECT issued for an entry (R82): refused, it ends its release or rollback. -/
def issueDisconnect (e : Entry) (p : Path) (s : State) : State :=
  let use : RouteUse := if e.kind = .restore then .disconnectKeep else .disconnect
  match handOrdinary (disconnectCmd s p (.entry e.no p.pid use)) s with
  | some s => s
  | none => failInPlace e p.pid .module s

/-- A step of an entry fails (R86, R87, R88, R166). One that fails while SUSPENDED with its path routed at its source stands on RETURNING, with
DISCONNECT behind it, whether it held an engine or not (log 65), and its path is RELEASING from the failure on, where R38 names the beginning of the
rollback and R166 begins that at the resume (log 78). -/
def stepFailed (r : RecNo) (code : FailCode) (s : State) : State :=
  match s.entry? r with
  | none => s
  | some e =>
    match e.path.bind s.path? with
    | none => finishEntry r e.failedState false (takeCode r code s)
    | some p =>
      if e.isRelease || e.st = .rollingBack ||
          (e.reversing && (e.chain.head? = some .returning || e.chain.head? = some .disconnect)) then
        failInPlace e p.pid code s
      else if e.isRetune then
        let s := if e.reversing then s else takeCode r code s
        finishEntry r e.failedState false (leaveRetuned p.pid (withdrawEngReq p.pid (freePathEngine p.pid s)))
      else
        let s := withdrawEngReq p.pid (takeCode r code s)
        if p.route = .fill then
          finishEntry r .failed false (dropUnrouted p.pid (e.kind = .restore) (freePathEngine p.pid s))
        else
          let s := updatePath p.pid (fun p => { p with st := .releasing }) s
          let roll (chain : List ChainStep) (s : State) : State :=
            updateEntry r (fun e => { e with st := .rollingBack, chain := chain }) s
          if !canIssue s then roll [.returning, .disconnect] (freePathEngine p.pid s)
          else match p.engine with
            | some g =>
              if atTop p.att then
                let s := roll [.disconnect] (freeEngine g s)
                match s.entry? r with
                | some e => issueDisconnect e p s
                | none => s
              else roll [.returning, .disconnect] (startReturning g s)
            | none =>
              let s := roll [.disconnect] s
              match s.entry? r with
              | some e => issueDisconnect e p s
              | none => s

/-- The source test (R83). At a CONNECT restarted by RETRY the degree's light state alone is tested (R164). -/
def sourceLit (s : State) (p : Path) (lightOnly : Bool) (step : ChainStep) : Bool :=
  (match p.src with | .deg d => s.light.state.get d = .lit | _ => true) &&
    (lightOnly || (!p.squelched && !(step = .rampRetune && p.st = .squelched)))

/-- The step under an entry's cursor issued (R82, R83, R163, R164). `restart` says that RETRY restarts the chain. -/
def issueStep (r : RecNo) (restart : Bool) (s : State) : State :=
  match s.entry? r with
  | none => s
  | some e =>
    match e.path.bind s.path?, e.chain.head? with
    | some p, some step =>
      match step with
      | .connect =>
        if !sourceLit s p restart .connect then stepFailed r .sourceDark s
        else if !s.table.ownsAll p then stepFailed r .module s
        else
          let s := if restart then updatePath p.pid (fun p => { p with rerouting := true }) s else s
          match handOrdinary (connectCmd p (.entry r p.pid .connect)) s with
          | some s => s
          | none => stepFailed r .module s
      | .rampUp => if sourceLit s p false .rampUp then presentRequest r false p .rampUp s else stepFailed r .sourceDark s
      | .rampRetune =>
        if sourceLit s p false .rampRetune then presentRequest r false p .rampRetune s else stepFailed r .sourceDark s
      | .verify => if sourceLit s p false .verify then presentRequest r false p .verify s else stepFailed r .sourceDark s
      | .rampDown =>
        if p.route = .source then presentRequest r false p .rampDown s
        else
          let s := updateEntry r (fun e => { e with chain := [.disconnect] }) s
          issueDisconnect { e with chain := [.disconnect] } p s
      | .disconnect => issueDisconnect e p s
      | .returning =>
        if p.route = .source then presentRequest r false p .returning s
        else finishEntry r e.failedState false (dropUnrouted p.pid (e.kind = .restore) s)
    | _, _ => s

/-- The step under an entry's cursor has completed and another follows: the cursor moves on, and the next step is issued unless the batch is
suspended (R82, R166) or light was lost in it and a capture is still to suspend it (R83; log 58). -/
def stepDone (r : RecNo) (s : State) : State :=
  let s := updateEntry r (fun e => { e with chain := e.chain.drop 1 }) s
  if canIssue s && !s.batch.lossStop then issueStep r false s else s

/-- The DISCONNECT of an entry is acknowledged and applied: its release or rollback is over (R84, R86, R89, R93, R165).
A MOVE with its void mark set that finishes its old half in CANCELLING fails with the code reported, as R89 says, and is not CANCELLED, as R93
alone would have it (log 47). -/
def disconnected (r : RecNo) (s : State) : State :=
  match s.entry? r with
  | none => s
  | some e =>
    if e.st = .rollingBack || e.reversing then finishEntry r e.failedState false s
    else if e.kind ≠ .move then finishEntry r .done false s
    else match e.void with
      | some code => finishEntry r .failed false (takeCode r code s)
      | none =>
        if s.seqr.st = .cancelling then finishEntry r .cancelled false s
        else updateEntry r (fun e => { e with st := .waiting, half := .new, chain := [] }) s

/-- VERIFY has decided for an entry (R84, R165). -/
def verified (r : RecNo) (s : State) : State :=
  match s.entry? r with
  | some e => finishEntry r (if e.reversing then .abandoned else .done) true s
  | none => s

/-- An entry is begun (R81, R79). -/
def beginEntry (e : Entry) (s : State) : State :=
  let route := ((e.path.bind s.path?).map (·.route)).getD .fill
  let s := updateEntry e.no (fun e => { e with st := .begun, chain := chainFor e route }) s
  if e.kind = Kind.adopt then
    match e.newP, (s.batch.list.find? (fun b => b.no = e.no)).bind (·.copy) with
    | some pid, some ws =>
      match Staged.ofWords ws with
      | some (.conn f) => finishEntry e.no .done false (updatePath pid (fun p => p.adopted e.no f) s)
      | _ => finishEntry e.no .done false s
    | _, _ => finishEntry e.no .done false s
  else issueStep e.no false s

/-! ### The end of a batch -/

/-- A batch's end state asked for (R61, R74, R95); the batch ends when its write completes. -/
def endBatch (w : BatchWordState) (s : State) : State :=
  let b : BatchWord := { st := w, seq := s.batch.seq }
  request (.endState b)
    { s with seqr := { s.seqr with shown := b }, batch := { s.batch with ending := true, work := .none } }

/-- The end state of a batch whose phases are over (R95, R183). -/
def runEndState (s : State) : BatchWordState :=
  if s.batch.abandon || (match s.batch.recovery with | some x => x.abandon | none => false) then .abandoned
  else if s.seqr.st = .cancelling then .cancelled
  else if s.batch.counters.rejected = 0 && s.batch.counters.failed = 0 then .done
  else .doneWithFailures

/-- Whether the current phase has ended (R80). -/
def phaseEnded (s : State) : Bool := s.queue.all (fun e => e.st.finished || e.phase ≠ s.batch.phase)

/-- One act of the Plan Sequencer that needs no event: a batch or phase ends, an entry is begun, HELD is reached (R80, R81, R91, R93, R95). In
phase 0, which a batch returned to HOLDING before it ran is in, phases do not advance (log 48). The last entry's end in HOLDING ends the batch
without HELD (R80; log 49). No entry is begun between a loss of light and the capture that it brings (R83; log 58). -/
def pumpBatch (s : State) : Option State :=
  if !(s.batch.present && !s.batch.ending && s.batch.work = .run && s.seqr.st.isRun) || s.start.powerdown then none
  else if s.seqr.st = .cancelling then
    if inProgress s = 0 then some (endBatch (runEndState s) s) else none
  else if s.batch.phase = 0 && s.queue.all (fun e => e.st.finished) then some (endBatch (runEndState s) s)
  else if phaseEnded s && s.batch.phase ≠ 0 then
    if s.batch.phase < 3 then some { s with batch := { s.batch with phase := s.batch.phase + 1 } }
    else some (endBatch (runEndState s) s)
  else if s.seqr.st = .running && decide (inProgress s < 8) then
    if s.batch.lossStop then none
    else (s.queue.find? (fun e => e.st = .waiting && e.phase = s.batch.phase)).map (fun e => beginEntry e s)
  else if s.seqr.st = .holding && inProgress s = 0 then some (enterState .held .held s)
  else none

/-! ### Restores (09, section 9.6) -/

/-- A record's begun restore. -/
def State.restore? (s : State) (r : RecNo) : Option Restore := s.light.begun.find? (fun x => x.no = r)

/-- A begun restore's step set. -/
def setRestoreStep (r : RecNo) (step : ChainStep) (s : State) : State :=
  { s with light := { s.light with begun := s.light.begun.map (fun x => if x.no = r then { x with step := step } else x) } }

/-- A restore ends (R149, R150): its record is fixed, it leaves the begun set and RESTORE is raised. -/
def endRestoreNow (r : RecNo) (s : State) : State :=
  let s := fixRecord r true true s
  raiseCause .restore { s with light := { s.light with begun := s.light.begun.filter (fun x => x.no ≠ r) } }

/-- A restore ends; in POWERDOWN its fix waits for its end (log 32). -/
def endRestore (r : RecNo) (s : State) : State :=
  if s.start.powerdown then { s with start := { s.start with deferred := s.start.deferred ++ [.restore r] } }
  else endRestoreNow r s

/-- DISCONNECT issued for a restore's rollback (R150); refused, the path is left in place (R88). In POWERDOWN too the command is handed over at
once, and it is sent when POWERDOWN has ended (R111, R113, R153; log 63). -/
def restoreDisconnect (x : Restore) (p : Path) (s : State) : State :=
  let s := setRestoreStep x.no .disconnect s
  match handOrdinary (disconnectCmd s p (.restore x.no p.pid .disconnectKeep)) s with
  | some s => s
  | none => endRestore x.no (leaveInPlace p.pid s)

/-- A step of a restore fails (R150). -/
def restoreFailed (r : RecNo) (s : State) : State :=
  match s.restore? r with
  | none => s
  | some x =>
    match s.path? x.pid with
    | none => endRestore r s
    | some p =>
      if x.step = .returning || x.step = .disconnect then endRestore r (leaveInPlace p.pid (freePathEngine p.pid s))
      else if p.route = .fill then endRestore r (dropUnrouted p.pid true (withdrawEngReq p.pid (freePathEngine p.pid s)))
      else
        let s := updatePath p.pid (fun p => { p with st := .releasing }) (withdrawEngReq p.pid s)
        match p.engine with
        | some g =>
          if atTop p.att then restoreDisconnect x p (freeEngine g s)
          else setRestoreStep r .returning (startReturning g s)
        | none => restoreDisconnect x p s

/-- A restore's CONNECT handed over (R149). -/
def restoreConnect (x : Restore) (p : Path) (s : State) : State :=
  match handOrdinary (connectCmd p (.restore x.no p.pid .connect)) s with
  | some s => s
  | none => restoreFailed x.no s

/-! ### What engines and commands tell their requesters -/

/-- A step on an engine fails (R111): its requester is told. -/
def engineFails (o : EngOwner) (code : FailCode) (s : State) : State :=
  if o.restore then restoreFailed o.no s else stepFailed o.no code s

/-- RAMP_DOWN or RETURNING has reached 250 and its engine is freed: DISCONNECT follows (R45, R46, R110, R111). -/
def dimmed (o : EngOwner) (s : State) : State :=
  if o.restore then
    match s.restore? o.no, s.path? o.pid with
    | some x, some p => restoreDisconnect x p s
    | _, _ => s
  else stepDone o.no s

end Sys2Proof.Machine
end

