-- ==== Sys2Proof/Machine/Light.lean ====
section
/-! DEFINITION. The Light Supervisor (09): squelches, light events, hold-off, the Restore List and the beginning of restores; and the requests
for captures (10, R155). -/

namespace Sys2Proof.Machine

/-! ### Capture requests -/

/-- A capture request joins the work list (R155); a source already waiting is taken as present. -/
def requestCapture (c : CaptureSource) (s : State) : State :=
  if s.intr.work.contains (.capture c) then s
  else { s with intr := { s.intr with work := s.intr.work ++ [.capture c] } }

/-! ### Squelch -/

/-- A path as the squelch of its source leaves it (R49). -/
def Path.squelch (p : Path) : Path :=
  match p.st with
  | .live | .offTarget => { p with st := .squelched, route := .fill }
  | .squelched => p
  | .reserved => { p with squelched := true, rerouting := false }
  | _ => { p with squelched := true, rerouting := false, route := .fill }

/-- Whether the squelch of a path hands its slot to the Actuator Port (R49; log 23). -/
def Path.handsSlot (p : Path) : Bool := p.st ≠ .squelched && p.st ≠ .reserved

/-- The squelch of one path (R49): its engine is stopped, its waiting requests and unsent commands withdrawn, and a completed path's record
fixed SQUELCHED. -/
def squelchPath (p : Path) (s : State) : State :=
  let s := withdrawEngReq p.pid (stopPathEngine p.pid s)
  let s := withdrawCmds (fun r => match r with
    | .entry _ pid _ | .restore _ pid _ => pid = p.pid
    | .engine _ _ o => o.pid = p.pid
    | _ => false) s
  let s := updatePath p.pid Path.squelch s
  match p.st, p.owner with
  | .live, some (r, _) | .offTarget, some (r, _) =>
    match s.path? p.pid with
    | some q => fixCompleted r (q.completed s.win.cfg .squelched) s
    | none => s
  | _, _ => s

/-- A command in transmission whose restore has been stopped: its requester has gone (R131). -/
def Requester.dropRestore (no : RecNo) : Requester → Requester
  | .restore r pid u => if r = no then .gone pid else .restore r pid u
  | q => q

/-- A transaction in progress whose restore has been stopped finishes, its retry included, for the path alone (R50, R131, R152). -/
def dropRequester (no : RecNo) (s : State) : State :=
  { s with act := { s.act with txn := s.act.txn.map (fun t => { t with cmd := { t.cmd with req := t.cmd.req.dropRestore no } }) } }

/-- A begun restore stopped by the squelch of its source (R152). -/
def stopRestore (x : Restore) (s : State) : State :=
  let s := dropRequester x.no s
  let s := updatePath x.pid (fun p => { p with st := .squelched, route := .fill, squelched := false, rerouting := false }) s
  let s := fixRecord x.no false true s
  { s with light := { s.light with begun := s.light.begun.filter (fun y => y.no ≠ x.no) } }

/-- The squelch of a degree (R49, R144): every path it feeds, the urgent bursts, the Restore List and the begun restores. The
paths are taken in the order of the Connection Table's list, in which their records are fixed and the bursts of their modules join the urgent
class, and the begun restores that it stops in the order in which they were begun: the spec gives neither order (R49, R134, R144, R152; log 50). -/
def squelchDegree (d : Degree) (s : State) : State :=
  let fed := s.table.paths.filter (fun p => p.src = .deg d)
  let s := fed.foldl (fun s p => squelchPath p s) s
  let s := (fed.filter Path.handsSlot).foldl (fun s p => squelchSlot p.dst.out p.slot s) s
  let s := { s with light := { s.light with restoreList := s.light.restoreList.filter (fun x => x.2 ≠ d) } }
  let stopped := s.light.begun.filter (fun x => fed.any (fun p => p.pid = x.pid))
  stopped.foldl (fun s x => stopRestore x s) s

/-! ### Light states -/

/-- A degree's light state changes as an event (R142, R145): it joins the change set, the light word is written, LIGHT_CHANGE is raised. -/
def lightChange (d : Degree) (l : LightState) (s : State) : State :=
  let s := { s with light :=
    { s.light with state := s.light.state.set d l, changeSet := s.light.changeSet.set d true } }
  raiseCause .lightChange (requestStatus .light s)

/-- Whether the Light Supervisor acts on paths and captures: in IDLE, a batch state or SUSPENDED (R142). -/
def lightActs (s : State) : Bool := s.seqr.st = .idle || s.seqr.st = .suspended || s.seqr.st.isBatch

/-- The LIT-to-DARK event of a degree (R144, R153): squelch, restores, capture, change set and attention, as the sequencer's state lets. The one
write of the light word that R145 gives the state change and the change set is asked for with the change set, behind what the squelch asks for: the
rule names no step (log 87). With the capture asked for, no entry of the Restore List begins until the depth next returns to 0 (R152; log 101). In a
run state no step of the batch is issued until a capture is taken (R83; log 58). -/
def lossFromLit (d : Degree) (s : State) : State :=
  let s := { s with light := { s.light with state := s.light.state.set d .dark } }
  let s := if lightActs s || s.seqr.st = .unconfigured then squelchDegree d s else s
  let s := if lightActs s then requestCapture (.los d) { s with light := { s.light with restoresHeld := true } } else s
  let s := if s.seqr.st.isRun then { s with batch := { s.batch with lossStop := true } } else s
  lightChange d .dark s

/-- The hold-off count loaded at DARK to HOLDOFF (R143). -/
def holdOffLoad (s : State) : Nat := (s.win.cfg.map (·.holdOff)).getD 255

/-- A hold-off counter set or discarded. -/
def setHoldOff (d : Degree) (n : Option Nat) (s : State) : State :=
  { s with light := { s.light with holdOff := s.light.holdOff.set d n } }

/-- DARK to HOLDOFF (R142, R143). -/
def clearFromDark (d : Degree) (s : State) : State :=
  lightChange d .holdoff (setHoldOff d (some (holdOffLoad s)) s)

/-- A qualified loss acted on (R142). -/
def lossEvent (d : Degree) (s : State) : State :=
  match s.light.state.get d with
  | .lit => lossFromLit d s
  | .holdoff => lightChange d .dark (setHoldOff d none s)
  | .dark => s

/-- A qualified clear acted on (R142). -/
def clearEvent (d : Degree) (s : State) : State :=
  match s.light.state.get d with
  | .dark => clearFromDark d s
  | _ => s

/-- Whether a record is appended to the Restore List when a degree becomes LIT (R147). -/
def restorable (d : Degree) (s : State) (r : RecNo) : Bool :=
  (match s.completed r with | .path p => p.st = .squelched | _ => false) &&
    (s.table.recordPaths r).any (fun p =>
      p.st = .squelched && p.src = .deg d && (match p.info with | some i => i.permit | none => false)) &&
    !s.batch.list.any (fun b => b.no = r && b.held) &&
    !s.light.restoreList.any (fun x => x.1 = r) && !s.light.begun.any (fun x => x.no = r)

/-- The 256 record numbers in ascending order. -/
def allRecords : List RecNo := List.finRange 256

/-- HOLDOFF to LIT (R142, R147). -/
def litEvent (d : Degree) (s : State) : State :=
  let s := lightChange d .lit (setHoldOff d none s)
  if lightActs s && (match s.win.cfg with | some c => c.autoRestore | none => false) then
    let more := (allRecords.filter (restorable d s)).map (fun r => (r, d))
    { s with light := { s.light with restoreList := s.light.restoreList ++ more } }
  else s

/-- A qualifier with its qualified level set (R141): the input has held that level. -/
def setLevel (d : Degree) (loss : Bool) (s : State) : State :=
  let q := s.light.qual.get d
  { s with light := { s.light with qual := s.light.qual.set d { q with pin := loss, level := some loss, run := 0 } } }

/-- The latched losses and levels of POWERDOWN acted on at its end, one degree (R153). -/
def actOnLatched (d : Degree) (s : State) : State :=
  let seen := s.light.lossSeen.get d
  let clear := (s.light.qual.get d).level = some false
  let s := { s with light := { s.light with lossSeen := s.light.lossSeen.set d false } }
  match s.light.state.get d with
  | .lit => if seen then (if clear then clearEvent d (lossEvent d s) else lossEvent d s) else s
  | .dark => if clear then clearEvent d s else s
  | .holdoff => if seen then (if clear then clearEvent d (lossEvent d s) else lossEvent d s) else s

/-! ### Beginning restores -/

/-- Whether the head of the Restore List may begin (R148); a re-read in progress holds restores back too (log 21), and so does a squelch whose capture
was asked for, until the depth next returns to 0 (R152; log 101). -/
def restoreDue (s : State) : Bool :=
  s.intr.depth = 0 && decide (s.light.begun.length < 4) && lightActs s && !s.seqr.rereadDue && s.seqr.reread = .none &&
    !s.start.powerdown && !s.light.restoresHeld && !s.light.restoreList.isEmpty

/-- The head entry of the Restore List leaves it, and its restore begins unless the entry is stale (R148). -/
def beginRestore (s : State) : Option State :=
  if !restoreDue s then none
  else match s.light.restoreList with
    | [] => none
    | (r, d) :: rest =>
      let s := { s with light := { s.light with restoreList := rest } }
      let squelched := match s.completed r with | .path p => p.st = .squelched | _ => false
      match s.table.halfPath r .old with
      | some p =>
        if squelched && p.st = .squelched && p.src = .deg d && s.light.state.get d = .lit then
          let x : Restore := { no := r, pid := p.pid, step := .connect }
          let s := { s with light := { s.light with begun := s.light.begun ++ [x] } }
          if (s.profiles[(p.info.map (·.profile)).getD 0]).valid then some (restoreConnect x p s)
          else some (restoreFailed r s)
        else some s
      | none => some s

end Sys2Proof.Machine
end

