-- ==== Sys2Proof/Machine/Engine.lean ====
section
/-! DEFINITION. What ramp engines decide at their expiries (06, sections 6.4 to 6.6), and what grants and answered commands bring about. -/

namespace Sys2Proof.Machine

/-- Whether a step kind wants samples (R104). -/
def RampKind.wantsSample : RampKind → Bool
  | .rampUp | .rampRetune | .verify => true
  | .rampDown | .returning => false

/-- What a path's output point and slot are asked for, if an engine wants a sample (R105). -/
def askForPath (e : EngineNo) (s : State) : State :=
  match (s.engine e).owner.bind (fun o => s.path? o.pid) with
  | some p => askSample e p.dst.out p.slot s
  | none => s

/-- An engine's command is answered (R105): its next sample is asked for, or at 250 a RAMP_DOWN or a RETURNING is over (R110, R111). In
POWERDOWN too the request joins the send list at the acknowledge; it is not sent until POWERDOWN ends (R113, R115; log 51). So does a restore's
DISCONNECT join the ordinary queue there at the acknowledge of its RETURNING's last ATTEN (R111, R113, R153; log 63). -/
def engineAnswered (e : EngineNo) (s : State) : State :=
  let s := updateEngine e (fun g => { g with cmd := .none }) s
  let g := s.engine e
  if g.kind.wantsSample then askForPath e s
  else match g.owner with
    | some o =>
      match s.path? o.pid with
      | some p => if atTop p.att then dimmed o (freeEngine e s) else s
      | none => s
    | none => s

/-- An engine sets an attenuation (R105): a value the path already holds sends no command. -/
def setAtten (e : EngineNo) (a : Nat) (s : State) : State :=
  let g := s.engine e
  match g.owner with
  | none => s
  | some o =>
    match s.path? o.pid with
    | none => s
    | some p =>
      if p.att = .db a then engineAnswered e s
      else match handOrdinary (engineAtten e g o p a) s with
        | some s => s
        | none => engineFails o .module s

/-- A step from the attenuation `a` to `a'`: where it changes it, the previous sample and the expected power (R106, R108), then the
command. -/
def rampStep (e : EngineNo) (m : Int) (a a' : Nat) (s : State) : State :=
  setAtten e a' (if a = a' then s
    else updateEngine e (fun g => { g with prev := some m, expected := some (m + ((a : Int) - (a' : Int))) }) s)

/-- Whether the requester's source test before VERIFY passes (R83, R106): always for a restore. -/
def verifyAllowed (o : EngOwner) (s : State) : Bool :=
  o.restore || (match s.path? o.pid with | some p => sourceLit s p false .verify | none => true)

/-- The requester's cursor moves on to VERIFY. -/
def toVerify (o : EngOwner) (s : State) : State :=
  if o.restore then setRestoreStep o.no .verify s else updateEntry o.no (fun x => { x with chain := x.chain.drop 1 }) s

/-- RAMP_UP or RAMP_RETUNE ends (R106, R107, R109): with a last step back or with no command. VERIFY begins on the same engine where the
requester lets it. Where light was lost in the running batch and its capture is still to suspend it, an entry's cursor moves on to VERIFY, and neither
the source test nor VERIFY follows (R83; log 58). -/
def endRamp (e : EngineNo) (back : Option (Int × Nat × Nat)) (s : State) : State :=
  let g := s.engine e
  match g.owner with
  | none => s
  | some o =>
    let s := updateEngine e (fun g => { g with st := .verifying, kind := .verify, wanted := 2, first := none, samp := .none, sample := none }) s
    let s := match back with
      | some (m, a, a') => rampStep e m a a' s
      | none => s
    if (s.engine e).grant = g.grant && (s.engine e).st = .verifying then
      if !o.restore && s.batch.lossStop then toVerify o s
      else if verifyAllowed o s then
        let s := toVerify o s
        if back.isNone then askForPath e s else s
      else engineFails o .sourceDark s
    else s

/-- A decision of RAMP_UP or RAMP_RETUNE on the sample `m` (R106, R107). -/
def decideRamp (e : EngineNo) (g : Engine) (o : EngOwner) (a : Nat) (m : Int) (s : State) : State :=
  let tol : Int := g.prof.tol
  let short : Bool := m < g.target - tol
  let above : Bool := m > g.target + tol
  let up := min 250 (a + g.prof.up)
  let down := a - g.prof.up
  if !short && !above then endRamp e none s
  else
    let dir := if g.dir = .none then (if short then .falling else .rising) else g.dir
    let s := updateEngine e (fun g => { g with dir := dir }) s
    match dir with
    | .rising =>
      if above then (if a < 250 then rampStep e m a up s else endRamp e none s)
      else endRamp e (some (m, a, down)) s
    | _ =>
      if short then (if 0 < a then rampStep e m a down s else engineFails o .underpower s)
      else endRamp e (some (m, a, up)) s

/-- VERIFY's decision on its two samples (R109). -/
def decideVerify (e : EngineNo) (g : Engine) (o : EngOwner) (s1 s2 : Int) (s : State) : State :=
  let tol : Int := g.prof.tol
  if s1 < g.target - 100 || s2 < g.target - 100 then engineFails o .noLight s
  else
    let within (m : Int) : Bool := g.target - tol ≤ m && m ≤ g.target + tol
    let st : PathState := if within s1 && within s2 then .live else .offTarget
    let s := updatePath o.pid (fun p => { p with st := st }) (freeEngine e s)
    if o.restore then endRestore o.no s else verified o.no s

/-- The decision of a ready expiry (R104, R106 to R111). -/
def decide' (e : EngineNo) (g : Engine) (o : EngOwner) (p : Path) (s : State) : State :=
  let a := attNum p.att
  match g.kind, g.sample with
  | .rampUp, some m | .rampRetune, some m => decideRamp e g o a m s
  | .verify, some m =>
    match g.first with
    | none => askForPath e (updateEngine e (fun g => { g with first := some m, wanted := 1 }) s)
    | some s1 => decideVerify e g o s1 m s
  | .rampDown, _ | .returning, _ =>
    if atTop p.att then dimmed o (freeEngine e s) else setAtten e (min 250 (a + g.prof.down)) s
  | _, none => s

/-- The first expiry of an ARMED engine (R102, R106, R107, R110). A start attenuation above 250, which only a profile that is not valid can
have, is taken as 250 (R105; log 52). -/
def firstExpiry (e : EngineNo) (g : Engine) (o : EngOwner) (p : Path) (s : State) : State :=
  let s := updateEngine e (fun g => { g with st := .stepping }) s
  match g.kind with
  | .rampUp => if g.fromHeld then askForPath e s else setAtten e (min 250 g.prof.start) s
  | .rampRetune => askForPath e s
  | _ => decide' e g o p s

/-- An expiry that finds its command unanswered or its sample missing (R104). -/
def missedExpiry (e : EngineNo) (g : Engine) (o : EngOwner) (s : State) : State :=
  if g.kind.wantsSample then
    let s := updateEngine e (fun g => { g with miss := g.miss + 1 }) s
    if 3 ≤ g.miss + 1 then engineFails o .monitorTimeout s
    else if g.samp = .lost then askForPath e s else s
  else s

/-- What an expiry of a held engine does but for the reload (R104). -/
def expiryDecision (e : EngineNo) (s : State) : State :=
  let g := s.engine e
  match g.owner, g.owner.bind (fun o => s.path? o.pid) with
  | some o, some p =>
    if g.st = .armed then firstExpiry e g o p s
    else match g.cmd with
      | .waiting => s
      | .unanswered => missedExpiry e g o s
      | .none =>
        if g.kind.wantsSample then
          match g.samp, g.sample with
          | .arrived, some m =>
            let s := updateEngine e (fun g =>
              { g with miss := 0, adj := adjust g m, expected := none, samp := .none, sample := none }) s
            decide' e { g with adj := adjust g m } o p s
          | _, _ => missedExpiry e g o s
        else decide' e g o p (updateEngine e (fun g => { g with miss := 0 }) s)
  | _, _ => s

/-- An engine's interval expires (R103, R104), its count at zero (log 8): its decision, then the reload where it is still held under the same
grant. An expiry that meets the POWERDOWN flag does nothing, and comes again at the engine's first tick after POWERDOWN (R113; log 79). -/
def intervalExpires (e : EngineNo) (s : State) : State :=
  let g := s.engine e
  if g.st = .free || g.count ≠ 0 || s.start.powerdown then s
  else
    let s := expiryDecision e s
    let g' := s.engine e
    if g'.st = .free || g'.grant ≠ g.grant then s
    else setEngine e (if g'.st = .returning && g.st ≠ .returning then g'.reloadHeld else g'.reload) s

/-- One grant of the grant test (R101, R110, R111): a RAMP_DOWN or RETURNING of a path at 250 or BLOCK completes at once. -/
def grantStep (s : State) : Option State :=
  match nextGrant? s with
  | none => none
  | some (e, r) =>
    let s := makeGrant e r s
    match r.kind, s.path? r.owner.pid with
    | .rampDown, some p | .returning, some p =>
      some (if atTop p.att then dimmed r.owner (freeEngine e s) else s)
    | _, _ => some s

/-! ### Acknowledged commands -/

/-- A CONNECT's ROUTE is acknowledged (R43, R49, R50): a squelched path, or one SQUELCHED since (R51), takes the attenuation alone, unless
its chain was restarted. -/
def connectApplied (p : Path) : Path :=
  if (p.squelched || decide (p.st = .squelched)) && !p.rerouting then { p with att := .block }
  else { p with route := .source, att := .block, squelched := false, rerouting := false }

/-- A DISCONNECT's ROUTE is acknowledged (R45, R46): the path is removed, or for a restore kept as SQUELCHED. -/
def disconnectApplied (pid : Nat) (keep : Bool) (att : Att) (s : State) : State :=
  if keep then
    updatePath pid (fun p => { p with st := .squelched, route := .fill, squelched := false, rerouting := false, att := att }) s
  else { s with table := s.table.remove pid }

/-- Whether an entry still stands on a step of a path. -/
def standsOn (s : State) (r : RecNo) (pid : Nat) (step : ChainStep) : Bool :=
  match s.entry? r with
  | some e => e.path = some pid && e.st.inProgress && e.chain.head? = some step
  | none => false

/-- A batch's or a restore's ROUTE acknowledged (R131): the path, then the requester. A path that has been removed takes nothing; that of a
restore stopped meanwhile takes the attenuation alone (R50), whatever restore has begun on it since. A restore's CONNECT acknowledged in POWERDOWN puts
its RAMP_UP request on the Engine Wait List at once, where no grant is made before POWERDOWN ends: the spec does not say when a restore that holds
still presents it (R113, R153; log 80). -/
def routeApplied (c : ActCmd) (s : State) : State :=
  let att := match c.vals with | v :: _ => v.att | [] => .block
  match c.req with
  | .entry r pid .connect =>
    if (s.path? pid).isNone then s
    else
      let s := updatePath pid connectApplied s
      if standsOn s r pid .connect then stepDone r s else s
  | .entry r pid u =>
    if (s.path? pid).isNone then s
    else
      let due := standsOn s r pid .disconnect
      let s := disconnectApplied pid (u = .disconnectKeep) att s
      if due then disconnected r s else s
  | .restore r pid .connect =>
    if (s.path? pid).isNone then s
    else
      let s := updatePath pid connectApplied s
      match s.restore? r, s.path? pid with
      | some x, some p =>
        if x.pid = pid && x.step = .connect then presentRequest r true p .rampUp (setRestoreStep r .rampUp s) else s
      | _, _ => s
  | .restore r pid _ =>
    if (s.restore? r).any (fun x => x.pid = pid && x.step = .disconnect) then endRestore r (disconnectApplied pid true att s)
    else updatePath pid (fun p => if p.route = .fill then { p with att := att } else p) s
  | .gone pid => updatePath pid (fun p => { p with att := att }) s
  | _ => s

/-- An engine's ATTEN acknowledged (R105, R131, R50): the path's attenuation, then the engine if it still holds the grant. -/
def attenApplied (c : ActCmd) (s : State) : State :=
  match c.req, c.vals with
  | .engine e g o, v :: _ =>
    let s := updatePath o.pid (fun p => { p with att := v.att }) s
    if (s.engine e).st ≠ .free && (s.engine e).grant = g && (s.engine e).cmd = .unanswered then engineAnswered e s else s
  | _, _ => s

/-- An ordinary requester is told FAIL_MODULE (R136). An engine's command is then answered, so that its rollback's expiries act (R111). An engine that a
capture has stopped since is gone, and its entry is told nothing and keeps its cursor: R112 and R131 are read so beside R166 (log 104, DEDUCED). -/
def commandFailed (c : ActCmd) (s : State) : State :=
  match c.req with
  | .entry r pid u =>
    if standsOn s r pid (match u with | .connect => .connect | _ => .disconnect) then stepFailed r .module s else s
  | .restore r pid _ =>
    match s.restore? r with
    | some x => if x.pid = pid then restoreFailed r s else s
    | none => s
  | .engine e g o =>
    if (s.engine e).st ≠ .free && (s.engine e).grant = g then
      engineFails o .module (updateEngine e (fun x => { x with cmd := .none }) s)
    else s
  | _ => s

end Sys2Proof.Machine
end

