-- ==== Sys2Proof/Machine/Check.lean ====
section
/-! DEFINITION. Commands, fetch, check and the end of a batch (04). -/

namespace Sys2Proof.Machine

/-! ### The Touched Set (R56, R57) -/

/-- A record joins a set kept in ascending order. -/
def joinSet (r : RecNo) : List RecNo → List RecNo
  | [] => [r]
  | a :: t => if r < a then r :: a :: t else if r = a then a :: t else a :: joinSet r t

/-- A record joins the Touched Set (R56). -/
def touch (r : RecNo) (s : State) : State := { s with touched := joinSet r s.touched }

/-- A record leaves the Touched Set (R57). -/
def untouch (r : RecNo) (s : State) : State := { s with touched := s.touched.filter (fun x => x ≠ r) }

/-- The batch's records return to the Touched Set (R57); a recovery batch started by ABANDON does not change it (R183). -/
def returnTouched (s : State) : State :=
  match s.batch.recovery with
  | some { abandon := true, toHeld := _ } => s
  | _ => s.batch.list.foldl (fun s b => touch b.no s) s

/-! ### Beginning and fetching -/

/-- The next fetch read is asked for (R62, R64): the lowest touched record above the one last fetched, or else the masks. The fetch hold comes
into force with the request, except in POWERDOWN (R14, R15). A record written while a read is asked for that lies between the last fetched and
the one asked for is passed by (log 53). -/
def nextFetch (s : State) : State :=
  if !(s.batch.present && !s.batch.ending && s.batch.work = .fetch) then s
  else
    let above (r : RecNo) : Bool := match s.batch.lastFetched with | some l => l < r | none => true
    match s.touched.find? above with
    | some r =>
      request (.fetchRec r) (if s.start.powerdown then s else { s with holds := { s.holds with fetch := some r } })
    | none => request .fetchMasks s

/-- A batch begins (R60, R183). -/
def beginBatch (seq : BitVec 16) (rec : Option Recovery) (s : State) : State :=
  let s := { s with batch := { Batch.reset with present := true, seq := seq, work := .fetch, recovery := rec } }
  let s := writeCounters .zero (enterState .fetching .fetching s)
  match rec with
  | some { abandon := true, toHeld := _ } =>
    let flying (r : RecNo) : Bool := (s.table.recordPaths r).any (fun p => p.st = .inFlight)
    let copyOf (r : RecNo) : BatchRec :=
      { no := r, copy := some (s.completed r).hostWords, verdict := .unjudged, held := false }
    request .fetchMasks { s with batch := { s.batch with list := (allRecords.filter flying).map copyOf } }
  | _ => nextFetch s

/-- An entry joins the batch record list, which has one entry for a record (R55, R63). -/
def joinRecord (b : BatchRec) (l : List BatchRec) : List BatchRec := l.filter (fun x => x.no ≠ b.no) ++ [b]

/-- A fetch read completes but for the choice of the next (R62, R63, R14): the record joins the list and leaves the Touched Set, and the hold
is lifted. -/
def recordFetched (r : RecNo) (s : State) : State :=
  match s.win.map with
  | none => s
  | some m =>
    let (s, ws) := readBurst .fetch (pageAddr m.staging (offRecord r)) 3 s
    let item : BatchRec :=
      match ws with
      | [(a, x), (b, y), (c, z)] =>
        if x || y || z then { no := r, copy := none, verdict := .rej .unreadable, held := false }
        else { no := r, copy := some ⟨a, b, c⟩, verdict := .unjudged, held := false }
      | _ => { no := r, copy := none, verdict := .rej .unreadable, held := false }
    untouch r { s with
      batch := { s.batch with list := joinRecord item s.batch.list, lastFetched := some r }
      holds := { s.holds with fetch := none } }

/-- The mask read completes (R64, R26, R183): profile 0 is read next. -/
def masksFetched (s : State) : State :=
  match s.win.map with
  | none => s
  | some m =>
    let (s, ws) := readBurst .fetch (pageAddr m.status 4) 2 s
    let mask (n : Nat) (w : Word × Bool) : Nat := if w.2 then 2 ^ n - 1 else field w.1 0 n
    let abandon := match s.batch.recovery with | some x => x.abandon | none => false
    match ws with
    | [a, b] =>
      let refuse : BitVec 9 := if abandon then 0 else BitVec.ofNat 9 (mask 9 a)
      request (.fetchProf 0) { s with batch := { s.batch with refuse := refuse, stop := BitVec.ofNat 5 (mask 5 b) } }
    | _ => s

/-- A profile read from its four words: not valid with an uncorrectable one (R64, R179). -/
def profileOf (ws : List (Word × Bool)) : Profile :=
  match ws with
  | [(a, w), (b, x), (c, y), (d, z)] =>
    let p := Profile.ofWords a b c d
    if w || x || y || z then { p with valid := false } else p
  | _ => .none

/-- A profile read into the cache (R28). -/
def cacheProfile (q : MemFaultReq) (k : Fin 8) (s : State) : State :=
  match s.win.map with
  | none => s
  | some m =>
    let (s, ws) := readBurst q (pageAddr m.status (offProfile k.val)) 4 s
    { s with profiles := s.profiles.set k (profileOf ws) }

/-- The fetch completes and the check begins (R65, R67, R76): while SUSPENDED the state stands. -/
def fetchComplete (s : State) : State :=
  let s := writeCounters { s.batch.counters with total := s.batch.list.length } s
  let s := if s.seqr.st = .fetching then enterState .checking .checking s else s
  let listed (r : RecNo) : Bool := s.batch.list.any (fun b => b.no = r)
  { s with
    batch := { s.batch with work := .check, list := s.batch.list.map (fun b => { b with held := true }) }
    light := { s.light with restoreList := s.light.restoreList.filter (fun x => !listed x.1) } }

/-- A profile read of the fetch completes (R64, R65). -/
def profileFetched (k : Fin 8) (s : State) : State :=
  let s := cacheProfile .fetch k s
  if k.val < 7 then request (.fetchProf (k + 1)) s else fetchComplete s

/-! ### The judging pass (R66 to R72) -/

/-- A record's present path (R69). -/
def presentPath (r : RecNo) (s : State) : Option Path :=
  (s.table.recordPaths r).find? (fun p =>
    p.st = .live || p.st = .offTarget || p.st = .squelched || p.st = .discrepant || p.st = .inFlight)

/-- Whether a staged connection has a path's route (R69): slot, source and destination. For a DISCREPANT or IN_FLIGHT path it is compared in
the terms of the readback: output point, slot, the input read back, and the port that the path owns where the staged record names one (log 43). -/
def sameRoute (f : HostFields) (p : Path) : Bool :=
  if p.st = .discrepant || p.st = .inFlight then
    p.dst.out = Res.ofDst f.dst && p.slot = f.slot && p.readInput.getD p.src.input = (PathEnd.of f.src).input &&
      (match f.port with | some port => p.needs.contains port | none => true)
  else p.slot = f.slot && p.src = .of f.src && p.dst = .of f.dst

/-- Whether a source may carry light: a port, or a LIT degree (R69, R71). -/
def litSource (s : State) (e : PathEnd) : Bool := match e with | .deg d => s.light.state.get d = .lit | _ => true

/-- Whether a staged connection's target and profile are a path's (R69). -/
def sameTarget (f : HostFields) (p : Path) : Bool :=
  match p.info with | some i => i.target = f.target && i.profile = f.profile | none => false

/-- The classification of a staged record against its present path (R69). -/
def classify (s : State) (st : Staged) (p : Option Path) : Kind :=
  match st, p with
  | .empty, none => .noChange
  | .empty, some _ => .remove
  | .conn f, none => if (s.table.foreignFor f).isSome then .adopt else .add
  | .conn f, some p =>
    if !sameRoute f p then .move
    else match p.st with
      | .squelched =>
        if litSource s p.src then .restore else if sameTarget f p then .noChange else .retune
      | .discrepant => .retune
      | .inFlight => .complete
      | _ => if sameTarget f p then .noChange else .retune

/-- The loopback test (R68). -/
def loopback (f : HostFields) : Bool :=
  match f.src, f.dst with
  | .deg a, .deg b => a = b
  | .port _, .port _ => true
  | _, _ => false

/-- Whether a cached profile is valid. -/
def profileValid (s : State) (k : Fin 8) : Bool := (s.profiles[k]).valid

/-- The profile test (R68): the profile named, and that of a present path released with a ramp-down. -/
def profileFails (s : State) (st : Staged) (k : Kind) (p : Option Path) : Bool :=
  (match st with | .conn f => !profileValid s f.profile | .empty => false) ||
    ((k = .remove || k = .move) &&
      (match p with
       | some q => q.route = .source && (match q.info with | some i => !profileValid s i.profile | none => false)
       | none => false))

/-- The source light test (R71). -/
def darkSource (s : State) (st : Staged) (k : Kind) (p : Option Path) : Bool :=
  match k, st, p with
  | .add, .conn f, _ | .move, .conn f, _ => !litSource s (.of f.src)
  | .retune, _, some q | .complete, _, some q | .restore, _, some q => !litSource s q.src
  | _, _, _ => false

/-- The verdict of the judging pass on a staged record (R66, R68 to R71). -/
def verdictOf (s : State) (r : RecNo) (ws : HostWords) : Verdict :=
  match Staged.ofWords ws with
  | none => .rej .range
  | some st =>
    if (match st with | .conn f => loopback f | .empty => false) then .rej .loopback
    else
      let p := presentPath r s
      let k := classify s st p
      if profileFails s st k p then .rej .profile
      else if darkSource s st k p then .rej .sourceDark
      else .kind k

/-- What a judged record leaves on its present path (R70, R72): a leaving mark, or pending fields. -/
def Path.judged (p : Path) (k : Kind) (st : Staged) : Path :=
  match k, st with
  | .remove, _ | .move, _ => { p with leaving := true }
  | .retune, .conn f | .restore, .conn f => { p with pend := some { target := f.target, profile := f.profile, permitTag := none } }
  | .complete, .conn f =>
    { p with pend := some { target := f.target, profile := f.profile, permitTag := some (f.permit, f.tag) } }
  | _, _ => p

/-- A record's verdict set in the batch's list. -/
def setVerdict (r : RecNo) (v : Verdict) (s : State) : State :=
  { s with batch := { s.batch with list := s.batch.list.map (fun b => if b.no = r then { b with verdict := v } else b) } }

/-- One record judged (R66, R72). -/
def judge (b : BatchRec) (s : State) : State :=
  match b.copy with
  | none => setVerdict b.no (.rej .unreadable) s
  | some ws =>
    let v := verdictOf s b.no ws
    let s := match v, Staged.ofWords ws, presentPath b.no s with
      | .kind k, some st, some p => updatePath p.pid (fun q => q.judged k st) s
      | _, _, _ => s
    setVerdict b.no v s

/-! ### The claiming pass (R73) -/

/-- The connection a list entry stages. -/
def BatchRec.conn (b : BatchRec) : Option HostFields :=
  match b.copy.bind Staged.ofWords with
  | some (.conn f) => some f
  | _ => none

/-- How a round of the claiming pass ends: the table and the refusals of the round, or the MOVE whose refusal ends it. -/
inductive Round
  | final (t : ConnTable) (rejs : List (RecNo × RejCode))
  | moveRefused (r : RecNo) (c : RejCode)

/-- One round of the claiming pass (R73). -/
def claimRound : List BatchRec → ConnTable → List (RecNo × RejCode) → Round
  | [], t, l => .final t l
  | b :: rest, t, l =>
    match b.verdict, b.conn with
    | .kind .add, some f =>
      match t.reserve b.no .new f with
      | .ok t => claimRound rest t l
      | .error c => claimRound rest t (l ++ [(b.no, c)])
    | .kind .move, some f =>
      match t.reserve b.no .new f with
      | .ok t => claimRound rest t l
      | .error c => .moveRefused b.no c
    | .kind .adopt, some f =>
      match t.foreignFor f with
      | some p =>
        if p.claimed.isSome then claimRound rest t (l ++ [(b.no, .slotBusy)])
        else match t.adopt b.no p.pid f with
          | .ok t => claimRound rest t l
          | .error c => claimRound rest t (l ++ [(b.no, c)])
      | none => claimRound rest t (l ++ [(b.no, .slotBusy)])
    | _, _ => claimRound rest t l

/-- The leaving mark of a record's present path cleared (R73). -/
def unmarkLeaving (r : RecNo) (s : State) : State :=
  match presentPath r s with
  | some p => updatePath p.pid (fun q => { q with leaving := false }) s
  | none => s

/-- The rounds of the claiming pass (R73): each refused MOVE fixes one verdict and begins the pass again, so at most 257 are run. -/
def claimRounds : Nat → State → State
  | 0, s => s
  | n + 1, s =>
    match claimRound s.batch.list s.table [] with
    | .final t l => l.foldl (fun s x => setVerdict x.1 (.rej x.2) s) { s with table := t }
    | .moveRefused r c => claimRounds n (setVerdict r (.rej c) (unmarkLeaving r s))

/-! ### The end of the check -/

/-- The batch is refused (R74). -/
def refuseBatch (s : State) : State :=
  let s := returnTouched { s with table := s.table.undo }
  let out (b : BatchRec) : OutcomeCode :=
    match b.verdict with
    | .rej c => if s.batch.refuse.getLsbD c.idx then .rej c else .notRun
    | _ => .notRun
  endBatch .refused (s.batch.list.foldl (fun s b => writeOutcome b.no (out b) s) s)

/-- The staged tag and permit taken into a path (R70). -/
def takeTag (pid : Nat) (f : HostFields) (s : State) : State :=
  updatePath pid (fun p => { p with info := p.info.map (fun i => { i with permit := f.permit, tag := f.tag }) }) s

/-- The tag, the permit and the fix of one accepted record (R70, R75). -/
def acceptRecord (b : BatchRec) (s : State) : State :=
  match b.verdict with
  | .kind .retune | .kind .restore =>
    match b.conn, presentPath b.no s with
    | some f, some p => takeTag p.pid f s
    | _, _ => s
  | .kind .noChange =>
    match presentPath b.no s with
    | some p =>
      let s := match b.conn with | some f => takeTag p.pid f s | none => s
      match s.path? p.pid, p.st.done with
      | some q, some d => fixCompleted b.no (q.completed s.win.cfg d) s
      | _, _ => s
    | none => if s.completed b.no = .lost then fixCompleted b.no .empty s else s
  | _ => s

/-- The Transition Queue entry of an accepted record (R75, R78). -/
def entryOf (s : State) (b : BatchRec) : Option Entry :=
  let old := (presentPath b.no s).map (·.pid)
  let new := (s.table.halfPath b.no .new).map (·.pid)
  let mk (k : Kind) (o n : Option Nat) (h : Half) : Option Entry :=
    some { no := b.no, kind := k, oldP := o, newP := n, chain := [], half := h, st := .waiting, fail := none, void := none,
           reversing := false }
  match b.verdict with
  | .kind .add => mk .add none new .new
  | .kind .move => mk .move old new .old
  | .kind .adopt => mk .adopt none ((s.table.paths.find? (fun p => p.claimed = some b.no)).map (·.pid)) .new
  | .kind .remove => mk .remove old none .old
  | .kind .retune => mk .retune old none .old
  | .kind .restore => mk .restore old none .old
  | .kind .complete => mk .complete old none .old
  | _ => none

/-- The outcome of a record whose part in the batch ends at the check (R75): rejected, or NO_CHANGE. -/
def reportAtCheck (s : State) (b : BatchRec) : State :=
  match b.verdict with
  | .rej c => writeOutcome b.no (.rej c) s
  | .kind .noChange => writeOutcome b.no .noChange s
  | _ => s

/-- The check ends with the batch accepted (R75, R76, R183). Step 1 takes the records in ascending number, so that the active writes of the NO_CHANGE
records are asked for in that order, all ahead of step 3's first outcome word: R75 gives steps 2 and 3 alone an order (log 91). -/
def acceptBatch (s : State) : State :=
  let s := s.batch.list.foldl (fun s b => acceptRecord b s) s
  let s : State := { s with queue := s.batch.list.filterMap (entryOf s) }
  let s : State := s.batch.list.foldl reportAtCheck s
  let s : State := { s with batch := { s.batch with work := .run } }
  if s.intr.depth = 0 then
    match s.batch.recovery with
    | some { abandon := _, toHeld := true } => enterState .holding .holding s
    | _ => enterRunning s
  else enterState .suspended .suspended s

/-- The check goes on by one record, or to its end (R66, R67, R74, R75): it waits at a record whose restore is begun, and in POWERDOWN. -/
def continueCheck (s : State) : Option State :=
  if !(s.batch.present && !s.batch.ending && s.batch.work = .check) || s.start.powerdown then none
  else match s.batch.list.find? (fun b => b.verdict = .unjudged) with
    | some b => if s.light.begun.any (fun x => x.no = b.no) then none else some (judge b s)
    | none =>
      let s := claimRounds 257 s
      let refused := s.batch.list.any (fun b => match b.verdict with | .rej c => s.batch.refuse.getLsbD c.idx | _ => false)
      some (if refused then refuseBatch s else acceptBatch s)

/-! ### Commands (R58 to R61, R91 to R93) -/

/-- The command response word written (R25). -/
def respond (seq : BitVec 16) (code : BitVec 8) (r : Response) (s : State) : State :=
  let w := responseWord seq code r
  request (.response w) { s with seqr := { s.seqr with lastResp := w } }

/-- A CANCEL in FETCHING or CHECKING takes the batch's claims and reads back (R61): the reads not granted are withdrawn, the claims undone
and the records returned to the Touched Set. -/
def undoBatch (s : State) : State :=
  let s := withdrawReqs (fun r => match r with | .fetchRec _ | .fetchMasks | .fetchProf _ => true | _ => false) s
  returnTouched { s with holds := { s.holds with fetch := none }, table := s.table.undo }

/-- The outcome words and counters of a batch cancelled in FETCHING or CHECKING (R61). -/
def reportCancelled (s : State) : State :=
  let zero : Counters := { Counters.zero with total := s.batch.list.length }
  if s.batch.list.isEmpty then writeCounters zero s
  else s.batch.list.foldl (fun s b => writeOutcome b.no .cancelled s) { s with batch := { s.batch with counters := zero } }

/-- CANCEL in FETCHING or CHECKING (R61): undo, outcome words, end state. A recovery batch started by ABANDON ends ABANDONED with the Touched
Set unchanged, as R183 gives, where R61 alone gives CANCELLED and returns the records (log 54). -/
def cancelEarly (s : State) : State :=
  let s := reportCancelled (undoBatch s)
  endBatch (match s.batch.recovery with | some { abandon := true, toHeld := _ } => .abandoned | _ => .cancelled) s

/-- Whether a batch's end state is not yet asked for, so that a command may still bear on it (log 16). -/
def batchOpen (s : State) : Bool := s.batch.present && !s.batch.ending

/-- COMMIT (R59, R60). -/
def takeCommit (seq : BitVec 16) (s : State) : State :=
  if s.seqr.st = .idle && s.intr.depth = 0 && s.seqr.reread = .none then
    beginBatch seq none (respond seq 1 .accepted s)
  else if 0 < s.intr.depth then respond seq 1 .suspended s
  else respond seq 1 .busy s

/-- CANCEL (R59, R61, R93): once the check has ended with a refusal, it finds no check to cancel (R61; log 16). The response is asked for ahead of all
that the cancelling writes: the rules order it for COMMIT alone (R60; log 97). -/
def takeCancel (seq : BitVec 16) (s : State) : State :=
  match s.seqr.st with
  | .fetching | .checking =>
    if batchOpen s then cancelEarly (respond seq 2 .accepted s) else respond seq 2 .state s
  | .running | .holding | .held =>
    let s := respond seq 2 .accepted s
    if batchOpen s then enterCancelling s else s
  | _ => respond seq 2 .state s

/-- HOLD (R59, R91). The response is asked for ahead of the batch state word, an order that no rule gives (log 97). -/
def takeHold (seq : BitVec 16) (s : State) : State :=
  if s.seqr.st = .running then
    let s := respond seq 3 .accepted s
    if batchOpen s then enterState .holding .holding s else s
  else respond seq 3 .state s

/-- RELEASE (R59, R92). The response is asked for ahead of the batch state word, an order that no rule gives (log 97). -/
def takeRelease (seq : BitVec 16) (s : State) : State :=
  if s.seqr.st = .holding || s.seqr.st = .held then
    let s := respond seq 4 .accepted s
    if batchOpen s then enterRunning s else s
  else respond seq 4 .state s

/-- RESUME (R59, R155, R161): the work list holds at most four; a further one lapses. -/
def takeResume (seq : BitVec 16) (s : State) : State :=
  if 0 < s.intr.depth && s.seqr.st ≠ .rebuilding && s.seqr.st ≠ .powerdown then
    let s := respond seq 5 .accepted s
    if s.intr.work.countP (fun w => w = .resume) < 4 then
      { s with intr := { s.intr with work := s.intr.work ++ [.resume] } }
    else s
  else respond seq 5 .state s

/-- A command handed to the Plan Sequencer as the word now in memory (R7, R58). -/
def handCommand (w : Word) (s : State) : State :=
  let seq : BitVec 16 := w.extractLsb' 16 16
  let code : BitVec 8 := w.extractLsb' 0 8
  if s.seqr.st = .unconfigured then respond seq code .unconfigured s
  else if code = 1 then (if seq = 0 then respond seq 1 .badCommand s else takeCommit seq s)
  else if code = 2 then takeCancel seq s
  else if code = 3 then takeHold seq s
  else if code = 4 then takeRelease seq s
  else if code = 5 then takeResume seq s
  else respond seq code .badCommand s

/-! ### The end state's write (R95, R54, R55) -/

/-- The end state's write has completed (R95): the batch is no longer present, BATCH_END is raised, and the sequencer leaves the batch. -/
def batchEnded (b : BatchWord) (s : State) : State :=
  let was := s.seqr.st
  let s := { s with
    batch := { s.batch with present := false, ending := false, list := [], abandon := false, stopPending := false,
                            work := .none, lastFetched := none, recovery := none, lossStop := false }
    queue := [] }
  let s := raiseCause .batchEnd s
  if s.intr.depth = 0 then
    let s := { s with seqr := { s.seqr with st := .idle } }
    if was = .suspended then writeBatchState b s else s
  else
    writeBatchState { st := .suspended, seq := b.seq }
      { s with seqr := { s.seqr with st := .suspended, kept := some b } }

end Sys2Proof.Machine
end

