-- ==== Sys2Proof/Machine/Interrupt.lean ====
section
/-! DEFINITION. The Interruption Unit (10): captures, interruption records, RESUMEs, pops and the resume actions; POWERDOWN (12, R185, R186). -/

namespace Sys2Proof.Machine

/-! ### Captures -/

/-- Whether the Interruption Unit can take an item of its work list (R155, R185): no item in progress, no re-read, POWERDOWN flag clear, and
for a capture a state in which captures are taken. Captures that wait when a re-read ends in UNCONFIGURED, a POWER_FAIL one included, go on waiting
until a rebuild has ended: R184 has them taken when the re-read ends, and R182 has none taken in UNCONFIGURED (log 73). -/
def workFree (w : WorkItem) (s : State) : Bool :=
  s.intr.item.isNone && s.seqr.reread = .none && !s.start.powerdown &&
    (w = .resume || (s.seqr.st ≠ .unconfigured && s.seqr.st ≠ .rebuilding))

/-- The engine that a path holds, for each entry in progress (R157). -/
def entryEngines (s : State) : List (RecNo × EngineNo) :=
  s.queue.filterMap (fun e =>
    if e.st.inProgress then ((e.path.bind s.path?).bind (·.engine)).map (fun g => (e.no, g)) else none)

/-- An engine held for a batch entry stopped (R112); one held for a restore runs on. -/
def stopBatchEngine (s : State) (e : EngineNo) : State :=
  match (s.engine e).owner with
  | some o => if o.restore then s else stopEngine e s
  | none => s

/-- Steps 1 to 3 of a capture in a run state (R156): SUSPENDED, the batch's commands and engine requests withdrawn, its engines stopped. -/
def suspendBatch (s : State) : State :=
  let s := enterState .suspended .suspended s
  let s := withdrawCmds (fun r => match r with
    | .entry _ _ _ => true
    | .engine _ _ o => !o.restore
    | _ => false) s
  let s := allEngines.foldl stopBatchEngine s
  { s with ramp := { s.ramp with wait := s.ramp.wait.filter (fun r => r.owner.restore) } }

/-- A capture taken in IDLE (R159): the batch state word's state is kept and SUSPENDED is written. -/
def suspendIdle (s : State) : State :=
  let b := s.seqr.shown
  writeBatchState { st := .suspended, seq := b.seq }
    { s with seqr := { s.seqr with st := .suspended, kept := some b } }

/-- The degrees DARK now, as a set (R158). -/
def darkSet (s : State) : Nat := degreeSet (fun d => s.light.state.get d = .dark)

/-- The modules FAULTED now, as a set (R158). -/
def faultedSet (s : State) : Nat := moduleSet (isFaulted s)

/-- The cause bit of a capture in word 0 of a slot (Table 2-8). -/
def causeBit : CaptureSource → Nat
  | .los _ => 2 ^ 4
  | .powerFail => 2 ^ 5
  | .module _ => 2 ^ 6

/-- A list with one place changed. -/
def setWord (l : List Word) (i : Nat) (f : Word → Word) : List Word := l.modify i f

/-- A save slot's writes asked for: four bursts, the last of them as given (R17, R30). -/
def requestSlot (k : Nat) (ws : List Word) (last : List Word → PortReq) (s : State) : State :=
  let burst (b : Nat) : List Word := (ws.drop (4 * b)).take 4
  request (last (burst 3)) (request (.slotBurst k 2 (burst 2)) (request (.slotBurst k 1 (burst 1))
    (request (.slotBurst k 0 (burst 0)) s)))

/-- The 16 words of a slot whose record is a given image: its 13 words, and three words that the part writes as zero (R30). -/
def slotWords (image : List Word) : List Word := image.take 13 ++ [0, 0, 0]

/-- A capture merged into slot 4 (R160): the image of a slot that rebuild read goes back with its last three words zero (R30). -/
def mergeCapture (c : CaptureSource) (s : State) : State :=
  let ws := slotWords (s.intr.images.getD 3 [])
  let ws := setWord ws 0 (fun w => setBits w (causeBit c + 2 ^ 8))
  let ws := setWord ws 1 (fun w => setBits w (darkSet s + faultedSet s * 2 ^ 8))
  requestSlot 4 ws (fun b => .mergeEnd b)
    { s with intr :=
      { s.intr with images := s.intr.images.take 3 ++ [ws], item := some (.capture c s.seqr.st [] false) } }

/-- A capture taken from the work list (R156, R159, R160): steps 1 to 3. The record waits for the transaction in progress. The batch's mark of
a loss of light goes (R83; log 58). -/
def takeCapture (c : CaptureSource) (s : State) : State :=
  let s := { s with batch := { s.batch with lossStop := false } }
  if 4 ≤ s.intr.depth then mergeCapture c s
  else
    let noted := s.seqr.st
    let engines := entryEngines s
    let s := match noted with
      | .running | .holding | .held | .cancelling => suspendBatch s
      | .idle => suspendIdle s
      | _ => s
    { s with intr := { s.intr with depth := s.intr.depth + 1, item := some (.capture c noted engines true) } }

/-- The in-flight item of an entry in progress (R157). -/
def inFlightOf (s : State) (engines : List (RecNo × EngineNo)) (e : Entry) : InFlight :=
  { no := e.no, half := e.half, step := (e.chain.head?.map ChainStep.code).getD 0,
    att := ((e.path.bind s.path?).map (·.att)).getD .block
    engine := (engines.find? (fun x => x.1 = e.no)).map (·.2) }

/-- The fields of a capture's record (R157, R158). -/
def captureFields (c : CaptureSource) (noted : SeqState) (engines : List (RecNo × EngineNo)) (s : State) : SlotFields :=
  let items := if s.intr.depth = 1 then (s.queue.filter (fun e => e.st.inProgress)).map (inFlightOf s engines) else []
  { los := match c with | .los _ => true | _ => false
    powerFail := c = .powerFail
    fault := match c with | .module _ => true | _ => false
    merged := false, dark := darkSet s, faulted := faultedSet s
    seq := if s.batch.present then s.batch.seq else 0
    st := noted, phase := if s.batch.present then s.batch.phase else 0
    batchPending := s.batch.present && s.batch.phase = 0
    valid := !items.isEmpty, items := items
    toHeld := noted = .holding || noted = .held
    ms := s.clock.ms }

/-- Steps 5 and 6 of a capture, once no transaction is in progress (R156). The five writes are asked for at once, so that by their rank no host
write lands between two of them, which R10 would allow: no rule says when each is asked for (log 66). -/
def buildCapture (s : State) : Option State :=
  match s.intr.item with
  | some (.capture c noted engines true) =>
    if s.act.txn.isSome then none
    else
      let k := s.intr.depth
      let ws := (captureFields c noted engines s).words
      let s := { s with intr :=
        { s.intr with images := s.intr.images.take (k - 1) ++ [ws], item := some (.capture c noted engines false) } }
      some (request (.captureHeader k) (requestSlot k ws (fun b => .slotBurst k 3 b) s))
  | _ => none

/-! ### POWERDOWN (R185, R186) -/

/-- The POWERDOWN flag is set: the hold set is emptied and the loss-seen flags start clear (R15, R153). So it is where the flag alone is set, in
REBUILDING or UNCONFIGURED (R185), of which R15 and R186 do not say it (log 75). -/
def setPowerdown (s : State) : State :=
  { s with
    start := { s.start with powerdown := true }
    holds := { fetch := none, wb := [] }
    light := { s.light with lossSeen := .const false } }

/-- A capture's last write has completed (R156, R160, R185): SUSPEND is raised, and POWERDOWN follows a POWER_FAIL capture while PFW_N is
asserted, also where it was deasserted and asserted anew since the capture was requested: the spec does not name that case (R185; log 85). -/
def captureWritten (s : State) : State :=
  match s.intr.item with
  | some (.capture c _ _ _) =>
    let s := raiseCause .suspend { s with intr := { s.intr with item := none } }
    if c = .powerFail && s.start.pfw.level = some true then
      setPowerdown { s with seqr := { s.seqr with st := .powerdown } }
    else s
  | _ => s

/-- A qualified assertion of PFW_N (R185). -/
def pfwAsserted (s : State) : State :=
  let s := { s with start := { s.start with pfw := { s.start.pfw with pin := true, level := some true, run := 0 } } }
  match s.seqr.st with
  | .rebuilding | .unconfigured => if s.start.powerdown then s else setPowerdown s
  | .powerdown => s
  | _ => requestCapture .powerFail s

/-- A finish that waited for the end of POWERDOWN (R97). -/
def runDeferred (s : State) : Deferred → State
  | .entry r st v => finishNow r st v s
  | .restore r => endRestoreNow r s

/-- A qualified deassertion of PFW_N (R185, R186). -/
def pfwDeasserted (s : State) : State :=
  let s := { s with start := { s.start with pfw := { s.start.pfw with pin := false, level := some false, run := 0 } } }
  if !s.start.powerdown then s
  else
    let deferred := s.start.deferred
    let due := s.port.filterMap (fun r => match r with | .active r => some r | _ => none)
    let port := s.port.map (fun r => match r with | .monitor _ => .monitor s.mon.linkUp | r => r)
    let s : State := { s with
      start := { s.start with powerdown := false, deferred := [] }
      holds := { s.holds with wb := due }
      port := port }
    let s := if s.seqr.st = .powerdown then
        writeBatchState { st := .suspended, seq := if s.batch.present then s.batch.seq else s.seqr.shown.seq }
          { s with seqr := { s.seqr with st := .suspended } }
      else s
    let s := deferred.foldl runDeferred s
    Degree.all.foldl (fun s d => actOnLatched d s) s

/-! ### Resume (R161 to R165) -/

/-- A RESUME taken from the work list (R161): at depth 0 it does nothing. -/
def takeResumeItem (s : State) : State :=
  if s.intr.depth = 0 then s
  else request (.resumeWord s.intr.depth) { s with intr := { s.intr with item := some (.resume .reading .cont false) } }

/-- The pop's two writes asked for (R161, step 4), both at once, so that no host cycle lands between them. For a RESUME with no module FAULTED the
summary of RESUME_WORD_READ says so; at the end of a refresh pass it is taken alike (log 94, DEDUCED). -/
def requestPop (action : ResumeAction) (toHeld : Bool) (s : State) : State :=
  let k := s.intr.depth
  let ws := setWord (s.intr.images.getD (k - 1) []) 0 (fun w => withRecordState w 2)
  let s := { s with intr :=
    { s.intr with images := s.intr.images.take (k - 1) ++ [ws], item := some (.resume .popping action toHeld) } }
  request (.popHeader (k - 1)) (request (.slotWord0 k (ws.headD 0)) s)

/-- The resume word read completes (R161, steps 2 and 3; R31). The refresh pass is over the modules FAULTED at this moment, where R137 names those
FAULTED when the RESUME is taken (R161; log 69). -/
def resumeWordRead (k : Nat) (s : State) : State :=
  match s.win.map with
  | none => s
  | some m =>
    let (s, w, bad) := readWord .fetch (pageAddr m.save (offSlot k + 44)) s
    let (action, toHeld) := if bad then (ResumeAction.cont, false) else resumeOfWord w
    if OutPoint.all.any (isFaulted s) then
      startRefresh { s with intr := { s.intr with item := some (.resume .refreshing action toHeld) } }
    else requestPop action toHeld s

/-- The refresh pass of a RESUME has ended, so its pop follows (R161, step 3). -/
def refreshEnded (s : State) : Option State :=
  match s.intr.item with
  | some (.resume .refreshing action toHeld) => if s.act.refresh.isNone then some (requestPop action toHeld s) else none
  | _ => none

/-- An entry's reversal begun: its chain in place of its own (R165). -/
def reverse (r : RecNo) (chain : List ChainStep) (s : State) : State :=
  issueStep r false (updateEntry r (fun e => { e with chain := chain, reversing := true }) s)

/-- An entry abandoned with nothing to command (R165). -/
def abandonAtOnce (r : RecNo) (s : State) : State :=
  finishEntry r .abandoned false (updateEntry r (fun e => { e with reversing := true }) s)

/-- A path fixed SQUELCHED as it stands (R165). -/
def squelchedAsIs (p : Path) : Path := { p with st := .squelched, route := .fill, squelched := false, rerouting := false }

/-- ABANDON for one entry in progress (R165). The path of a reversal that returns to 250 is RELEASING from the reversal's beginning, though its engine
may be granted later: no rule names the moment (R102; log 98). -/
def abandonEntry (e : Entry) (s : State) : State :=
  if e.st = .rollingBack then issueStep e.no false s
  else match e.path.bind s.path? with
    | none => abandonAtOnce e.no s
    | some p =>
      if e.isRelease then
        let s := { s with table := (s.table.voidOn p.pid).update p.pid (fun q => { q with leaving := false }) }
        if p.route = .source then reverse e.no [.rampRetune, .verify] s
        else abandonAtOnce e.no (updatePath p.pid squelchedAsIs s)
      else if e.isRetune then
        let s := updatePath p.pid (fun q => { q with pend := none }) s
        if p.route = .source then reverse e.no [.rampRetune, .verify] s
        else abandonAtOnce e.no (updatePath p.pid squelchedAsIs s)
      else if p.route = .source then
        reverse e.no [.returning, .disconnect] (updatePath p.pid (fun q => { q with st := .releasing }) s)
      else abandonAtOnce e.no (dropUnrouted p.pid (e.kind = .restore) s)

/-- RETRY for one entry in progress (R164): a BEGUN entry restarts its half, a rollback goes on. -/
def retryEntry (e : Entry) (s : State) : State :=
  if e.st = .rollingBack then issueStep e.no false s
  else
    let route := ((e.path.bind s.path?).map (·.route)).getD .fill
    issueStep e.no true (updateEntry e.no (fun e => { e with chain := chainFor e route }) s)

/-- Applies a function to each entry still in progress, in queue order. R163 gives that order for CONTINUE; for RETRY, and for the reversals of ABANDON
and their going on at a later pop, no rule gives one (logs 92 and 93). -/
def eachInProgress (f : Entry → State → State) (s : State) : State :=
  (s.queue.map (·.no)).foldl (fun s r =>
    match s.entry? r with
    | some e => if e.st.inProgress then f e s else s
    | none => s) s

/-- The state a batch returns to after CONTINUE or RETRY (R162). One that returns to HOLDING before it ran stays in phase 0 (R80; log 48). -/
def returnState (slot1 : List Word) (toHeld : Bool) (s : State) : State :=
  if field (slot1.getD 2 0) 0 4 = 8 || s.batch.stopPending then enterCancelling s
  else if toHeld then enterState .holding .holding s
  else enterRunning s

/-- The action of the slot-1 record applied to a batch that has run (R162 to R165). Under CONTINUE and RETRY the sequencer enters the state it returns
to, with the state's word and in CANCELLING the write-backs of the WAITING entries, before the entries in progress are taken: the rules give no order
between the two (log 88). RETRY takes the entries in queue order, as R163 has CONTINUE do (log 92). ABANDON takes them in queue order too, behind the
write-backs of the WAITING entries, which alone R165 orders (log 93). -/
def applyAction (slot1 : List Word) (action : ResumeAction) (toHeld : Bool) (s : State) : State :=
  if s.batch.abandon then
    eachInProgress (fun e s => issueStep e.no false s) (endAllWaiting .abandoned (enterState .cancelling .cancelling s))
  else match action with
    | .abandon =>
      let s := { s with batch := { s.batch with abandon := true } }
      eachInProgress abandonEntry (endAllWaiting .abandoned (enterState .cancelling .cancelling s))
    | .retry => eachInProgress retryEntry (returnState slot1 toHeld s)
    | .cont => eachInProgress (fun e s => issueStep e.no false s) (returnState slot1 toHeld s)

/-- The sequencer enters IDLE from SUSPENDED with no batch (R162): the kept batch state is written back. -/
def returnIdle (s : State) : State :=
  let kept := s.seqr.kept
  let s := { s with seqr := { s.seqr with st := .idle, kept := none } }
  match kept with
  | some b => writeBatchState b s
  | none => s

/-- A rebuilt slot-1 record popped (R162, R183). -/
def popRebuilt (slot1 : List Word) (action : ResumeAction) (toHeld : Bool) (s : State) : State :=
  let seq : BitVec 16 := BitVec.ofNat 16 (field (slot1.getD 1 0) 16 16)
  let s := { s with seqr := { s.seqr with kept := none } }
  if seq = 0 then
    writeBatchState { st := .none, seq := s.seqr.shown.seq } { s with seqr := { s.seqr with st := .idle } }
  else beginBatch seq (some { abandon := action = .abandon, toHeld := toHeld && action ≠ .abandon }) s

/-- The pop that brings the depth to 0 (R162). A batch whose end state is being written is left to that write's completion (log 16). -/
def leaveSuspension (slot1 : List Word) (action : ResumeAction) (toHeld : Bool) (s : State) : State :=
  if field (slot1.headD 0) 9 1 = 1 then popRebuilt slot1 action toHeld s
  else if !s.batch.present then returnIdle s
  else if s.batch.ending then s
  else match s.batch.work with
    | .fetch => if s.seqr.st = .suspended then enterState .fetching .fetching s else s
    | .check => if s.seqr.st = .suspended then enterState .checking .checking s else s
    | _ => applyAction slot1 action toHeld s

/-- The pop's header write has completed (R161, steps 4 and 5). The depth's return to 0 frees the Restore List (R152, R162; log 101). -/
def popped (d : Nat) (s : State) : State :=
  match s.intr.item with
  | some (.resume .popping action toHeld) =>
    let slot1 := s.intr.images.getD 0 []
    let s := { s with intr := { s.intr with depth := d, header := d, images := s.intr.images.take d, item := none } }
    if d = 0 then leaveSuspension slot1 action toHeld { s with light := { s.light with restoresHeld := false } } else s
  | _ => s

end Sys2Proof.Machine
end

