-- ==== Sys2Proof/Machine/Start.lean ====
section
/-! DEFINITION. The Start-up Controller (12): rebuild, adoption, UNCONFIGURED, the anchor re-read; and the ends of actuator transactions (08),
which hand readback to it. -/

namespace Sys2Proof.Machine

/-! ### The anchor -/

/-- The two bursts of an anchor read asked for (R17). -/
def requestAnchor (why : AnchorWhy) (s : State) : State := request (.anchor why) (request .anchorHead s)

/-- The anchor record read (R21): words 4 to 6 after the words of its first burst; none where a word is uncorrectable or a test fails. A re-read gives
both bursts the words that memory held when it began, whatever the host has written since (R9), and each burst of the other two reads gives those that
stand at its own grant (R17; log 59). The requester of a fault is REBUILD for the anchor read of UNCONFIGURED too (R169; log 60). -/
def readAnchor (s : State) : State × Option AnchorCfg :=
  let (s, tail) := readBurstOf (anchorMem s) .rebuild (pageAddr s.win.anchorPage 16) 3 s
  let ws := s.start.readPart ++ tail
  let s := { s with start := { s.start with readPart := [], anchorSeen := none } }
  (s, if ws.any (·.2) then none else AnchorCfg.ofWords s.win.anchorPage (ws.map (·.1)))

/-- The five mirrored status words and the attention word are written (R29), in the order protection record, Memory Fault Record, light, monitor
and module word, attention word: the spec gives none (log 62). -/
def writeStatusWords (s : State) : State :=
  requestAttention (requestStatus .modules (requestStatus (.monitor s.mon.linkUp) (requestStatus .light
    (requestStatus .memFault (requestStatus .protection s)))))

/-- The scrub pointer set to word 0 of the anchor page (R173). -/
def resetScrub (s : State) : State :=
  { s with integ := { s.integ with scrub := { s.integ.scrub with page := 0, word := 0 } } }

/-- An anchor's fields take effect (R20, R3): the window map, the fields, the scrub pointer, the enable set. A scrub read that waits when an anchor
with scrub enabled sets the pointer stays at its old address, and its completion moves the new pointer on by one word: the spec does not say what
becomes of it (R20, R173; log 67). -/
def adoptCfg (c : AnchorCfg) (s : State) : State :=
  let s := { s with win := { s.win with map := some c.map, watch := none, cfg := some c } }
  let s := if c.scrub then resetScrub s else withdrawReqs (fun r => match r with | .scrub _ => true | _ => false) s
  setEnables c.enables s

/-- The window map is installed at rebuild (R3, R29, R179), and the profiles are read next. -/
def install (c : AnchorCfg) (s : State) : State :=
  let s := writeStatusWords (adoptCfg c s)
  request (.rbProf 0) { s with start := { s.start with stage := .profiles } }

/-- An anchor read begins in UNCONFIGURED (R182); one in progress marks a second. -/
def startAnchorRead (s : State) : State :=
  if s.seqr.anchorRead then { s with seqr := { s.seqr with anchorAgain := true } }
  else requestAnchor .unconfigured { s with seqr := { s.seqr with anchorRead := true, rereadDue := false } }

/-- An anchor write signalled (R9). -/
def anchorWritten (s : State) : State :=
  if s.seqr.st = .unconfigured then startAnchorRead s else { s with seqr := { s.seqr with rereadDue := true } }

/-- The sequencer enters UNCONFIGURED (R3, R182, R153): a re-read due starts an anchor read (R178). -/
def enterUnconfigured (s : State) : State :=
  let s := withdrawReqs (fun r => match r with | .scrub _ => true | _ => false) s
  let watch := match s.win.map with | some m => some (pageAddr m.status 0) | none => s.win.watch
  let s := setEnables 0 { s with
    win := { s.win with map := none, watch := watch }
    seqr := { s.seqr with st := .unconfigured, reread := .none }
    start := { s.start with stage := .none }
    light := { s.light with restoreList := [] } }
  if s.seqr.rereadDue then startAnchorRead s else s

/-- Rebuild's anchor read completes (R179). -/
def rebuildAnchor (s : State) : State :=
  match readAnchor s with
  | (s, some c) => install c s
  | (s, none) => enterUnconfigured s

/-- The anchor read of UNCONFIGURED completes (R182). A second read still marked leaves a re-read due (log 25). -/
def unconfiguredAnchor (s : State) : State :=
  let (s, r) := readAnchor s
  let again := s.seqr.anchorAgain
  let s := { s with seqr := { s.seqr with anchorRead := false, anchorAgain := false } }
  match r with
  | some c => install c { s with seqr := { s.seqr with st := .rebuilding, rereadDue := s.seqr.rereadDue || again } }
  | none => if again then startAnchorRead s else s

/-! ### Rebuild's memory stages (R179) -/

/-- A profile read of rebuild completes; after the last the active records are read. -/
def rebuildProfile (k : Fin 8) (s : State) : State :=
  let s := cacheProfile .rebuild k s
  if k.val < 7 then request (.rbProf (k + 1)) s
  else request (.rbActive 0)
    { s with start := { s.start with stage := .active, yields := [], discrepancies := 0, newHalves := [] }
             table := { s.table with done := [] } }

/-- The path state an active record's state field names (Table 2-2). -/
def doneStateOf (n : Nat) : Option DoneState :=
  if n = 1 then some .live else if n = 2 then some .offTarget else if n = 3 then some .squelched
  else if n = 4 then some .discrepant else none

/-- How an active record is judged (R179): it yields a path, or its record's completed state. -/
def judgeActive (r : RecNo) (ws : List (Word × Bool)) : Yield ⊕ Completed :=
  match ws with
  | [(a, w), (b, x), (c, y), (d, z)] =>
    if w || x || y || z then .inr .lost
    else
      let st := field d 24 8
      if st = 0 then .inr .empty
      else match doneStateOf st, Staged.ofWords ⟨a, b, c⟩ with
        | some st, some (.conn f) =>
          if loopback f then .inr .lost
          else .inl { no := r, st := st, host := f, att := (attOfCode (field d 16 8)).getD .block }
        | _, _ => .inr .lost
  | _ => .inr .lost

/-- An active record read of rebuild completes (R179); after the last the save header is read. -/
def rebuildActive (r : RecNo) (s : State) : State :=
  match s.win.map with
  | none => s
  | some m =>
    let (s, ws) := readBurst .rebuild (pageAddr m.active (offRecord r)) 4 s
    let s := match judgeActive r ws with
      | .inl y => { s with start := { s.start with yields := s.start.yields ++ [y] } }
      | .inr c => setCompleted r c s
    if r.val < 255 then request (.rbActive (r + 1)) s
    else request .rbHeader
      { s with start := { s.start with stage := .save, save := { header := none, limit := 0, slots := [], ended := false } } }

/-- Readback begins (R138, R180): one READ of each module, M1 to M6, handed over in order. An in-flight count of 9 to 15, outside the range of
Table 2-8, is taken as 8 (log 83). -/
def startReadback (s : State) : State :=
  let slot1 := s.intr.images.getD 0 []
  let n := if field (slot1.getD 2 0) 13 1 = 1 then min 8 (field (slot1.getD 2 0) 16 4) else 0
  let items := ((slot1.drop 3).take n).map InFlight.ofWord
  let s := { s with start := { s.start with stage := .readback, readback := .const .unread, newHalves := items } }
  OutPoint.all.foldl (fun s o =>
    (handOrdinary { module := o, kind := .read, start := 0, count := 64, vals := [], built := true, req := .readback } s).getD s) s

/-- The tails above the depth are read, or readback begins (R179). -/
def nextTail (k : Nat) (s : State) : State := if k ≤ 4 then request (.rbTail k) s else startReadback s

/-- Rebuild's read of a save slot asked for: four bursts (R17, R179). -/
def requestSlotRead (k : Nat) (s : State) : State :=
  request (.rbSlot k) (request (.rbSlotPart k 2) (request (.rbSlotPart k 1) (request (.rbSlotPart k 0) s)))

/-- Every slot of the count's range has been read (R179): the depth, the header, the rebuilt flags. The depth, by which a COMMIT in REBUILDING is
refused (R59), is 0 until here and is taken here, ahead of the reads of word 0 above it: the rules do not settle the moment (log 96). The rewrites of
word 0 are asked for first, from slot 1 up, and the header's after them: the spec gives no order among them (R179; log 74). A header that was taken
as 4 for want of a readable depth is rewritten where 4 slots are counted too, which the rule does not settle (log 84). -/
def saveCounted (s : State) : State :=
  let v := s.start.save
  let d := v.slots.length
  let images := v.slots.map (fun ws => setWord ws 0 (fun w => setBits w (2 ^ 9)))
  let s := { s with intr := { s.intr with depth := d, header := d, images := images } }
  let s := (List.range d).foldl (fun s i => request (.slotWord0 (i + 1) ((images.getD i []).headD 0)) s) s
  let s := if v.header = some d then s else request (.saveHeader d) s
  nextTail (d + 1) s

/-- The header read of rebuild completes (R179): one that is uncorrectable or above 4 is taken as 4. -/
def rebuildHeader (s : State) : State :=
  match s.win.map with
  | none => s
  | some m =>
    let (s, w, bad) := readWord .rebuild (pageAddr m.save offHeader) s
    let h := field w 0 3
    let ok := !bad && decide (h ≤ 4)
    let s := { s with start := { s.start with
      save := { header := if ok then some h else none, limit := if ok then h else 4, slots := [], ended := false } } }
    if ok && h = 0 then saveCounted s else requestSlotRead 1 s

/-- A slot read of rebuild completes (R179, R31): the first slot that is not OUTSTANDING or is uncorrectable ends the count, and the slots above
it in the range are read all the same. The save page has four slots (R30). An uncorrectable resume word is taken as CONTINUE with return-to-held no (log 20). -/
def rebuildSlot (k : Nat) (s : State) : State :=
  match s.win.map with
  | none => s
  | some m =>
    let (s, tail) := readBurst .rebuild (pageAddr m.save (offSlot k + 48)) 4 s
    let ws := s.start.readPart ++ tail
    let bad := ((ws.take 11) ++ ws.drop 12).any (·.2)
    let words := (ws.map (·.1)).modify 11 (fun w => if (ws.getD 11 (0, false)).2 then 0 else w)
    let v := s.start.save
    let v := if v.ended || bad || field (words.headD 0) 0 2 ≠ 1 then { v with ended := true } else { v with slots := (v.slots ++ [words]).take 4 }
    let s := { s with start := { s.start with save := v, readPart := [] } }
    if k < v.limit then requestSlotRead (k + 1) s else saveCounted s

/-- The read of word 0 of a slot above the depth completes (R179). -/
def rebuildTail (k : Nat) (s : State) : State :=
  match s.win.map with
  | none => s
  | some m =>
    let (s, w, bad) := readWord .rebuild (pageAddr m.save (offSlot k)) s
    let s := if bad || field w 0 2 = 1 then request (.slotWord0 k (withRecordState w 2)) s else s
    nextTail (k + 1) s

/-! ### Adoption (R180) -/

/-- What the modules showed at an output point and slot: none where the module has no readback. -/
def readbackAt (s : State) (o : OutPoint) (n : Slot) : Option SlotSetting :=
  match s.start.readback.get o with
  | .given l => l[n.val]?
  | _ => none

/-- The route a readback gives (R180). -/
def routeOf (x : SlotSetting) : PathRoute := if x.input = .idler || x.input = .block then .fill else .source

/-- A path as a rebuild claim presents it (R52), with the input that the readback at its output point and slot shows (R69). -/
def claimPath (s : State) (r : RecNo) (f : HostFields) (st : PathState) (route : PathRoute) (att : Att) : Path :=
  { Path.reserved 0 r .old f with
    st := st, route := route, att := att, readInput := (readbackAt s (Res.ofDst f.dst) f.slot).map (·.input) }

/-- A completed state as a path state. -/
def DoneState.pathState : DoneState → PathState
  | .live => .live | .offTarget => .offTarget | .squelched => .squelched | .discrepant => .discrepant

/-- The claim of group (a) for an active record (R180). -/
def activeClaim (s : State) (y : Yield) : Path :=
  let o := Res.ofDst y.host.dst
  match readbackAt s o y.host.slot with
  | none => claimPath s y.no y.host y.st.pathState (if y.st = .squelched then .fill else .source) y.att
  | some x =>
    let asRead := claimPath s y.no y.host .discrepant (routeOf x) x.att
    match y.st with
    | .live | .offTarget =>
      if x.input = (PathEnd.of y.host.src).input then claimPath s y.no y.host y.st.pathState .source x.att else asRead
    | .squelched =>
      if x.input = (fillOf s.win.cfg o).input then claimPath s y.no y.host .squelched .fill x.att else asRead
    | .discrepant => asRead

/-- A discrepancy counted (R180). -/
def countDiscrepancy (s : State) : State := { s with start := { s.start with discrepancies := s.start.discrepancies + 1 } }

/-- A claim of a record presented (R52): accepted, its completed state is as given; refused, the record is LOST. -/
def presentClaim (r : RecNo) (p : Path) (c : Completed) (s : State) : State :=
  match s.table.claim p with
  | some t =>
    let s := setCompleted r c { s with table := t }
    if p.st = .discrepant then countDiscrepancy s else s
  | none => countDiscrepancy (setCompleted r .lost s)

/-- Group (a), one record (R180). The completed state of a record listed with half old is the one its active record showed (log 22). -/
def adoptActive (s : State) (y : Yield) : State :=
  match s.start.newHalves.find? (fun i => i.no = y.no) with
  | some i =>
    match i.half with
    | .new => setCompleted y.no .empty s
    | .old =>
      let p := activeClaim s y
      let q := match readbackAt s p.dst.out p.slot with
        | some x => { p with st := .inFlight, route := routeOf x, att := x.att }
        | none => { p with st := .inFlight }
      presentClaim y.no q (.path { st := y.st, host := y.host, att := y.att, measured := none }) s
  | none =>
    let p := activeClaim s y
    presentClaim y.no p (match p.st.done with | some d => p.completed s.win.cfg d | none => .empty) s

/-- Group (c): the foreign claim of one output point and slot (R180, R34). -/
def adoptForeign (o : OutPoint) (s : State) (n : Slot) : State :=
  if (s.table.entry (.out o n)).isSome then s
  else match readbackAt s o n with
    | none => s
    | some x =>
      let src : Option PathEnd := match x.input with | .deg d => some (.deg d) | .grp g => some (.grp g) | _ => none
      match src with
      | none => s
      | some src =>
        let p : Path :=
          { pid := 0, owner := none, slot := n, src := src, dst := match o with | .deg d => .deg d | .grp g => .grp g,
            info := none, pend := none, st := .foreign, route := .source, att := x.att, squelched := false, rerouting := false,
            engine := none, measured := none, leaving := false, claimed := none, readInput := none }
        match s.table.claim p with
        | some t => countDiscrepancy { s with table := t }
        | none => countDiscrepancy s

/-- The 64 slots in order. -/
def allSlots : List Slot := List.finRange 64

/-- Group (c), then REWRITE and the first reads of COMPARE: the batch state word, for the end of rebuild (R27), and record 0 (R180, R181,
R57). The 256 active records become due in ascending number: the spec gives no order (R24, R181; log 77). -/
def finishAdoption (s : State) : State :=
  let s := OutPoint.all.foldl (fun s o => allSlots.foldl (adoptForeign o) s) s
  let s := allRecords.foldl (fun s r => activeDue r s) { s with start := { s.start with stage := .rewrite } }
  let s := if 0 < s.start.discrepancies then raiseCause .discrepancy s else s
  request (.compare 0) (request .rbBatchState { s with start := { s.start with stage := .compare } })

/-- Group (b): the next new half's staging words are read, or adoption is finished (R180). -/
def nextNewHalf (s : State) : State :=
  match s.start.newHalves with
  | i :: rest =>
    match i.half with
    | .new => request (.newHalf i) { s with start := { s.start with newHalves := rest } }
    | .old => s
  | [] => finishAdoption s

/-- ADOPT begins (R180, R182): the table is emptied, group (a) is presented, and the new halves follow. -/
def startAdoption (s : State) : State :=
  let s := { s with
    table := { s.table with paths := [], occ := [] }
    start := { s.start with stage := .adopt } }
  let s := s.start.yields.foldl adoptActive s
  let news := s.start.newHalves.filter (fun i => i.half = .new)
  let s := news.foldl (fun s i => setCompleted i.no .empty s) s
  nextNewHalf { s with start := { s.start with newHalves := news, yields := [] } }

/-- A staging read of a new half completes (R180, group (b)). The attenuation of a path whose route is set to the fill is the one read back: the rule
gives one for the route at the source alone (log 82). A loopback is no connection (R33); a record that fails the format test of R22 is taken as none
too, of which R180 says nothing (log 100). -/
def newHalfRead (i : InFlight) (s : State) : State :=
  match s.win.map with
  | none => s
  | some m =>
    let (s, ws) := readBurst .rebuild (pageAddr m.staging (offRecord i.no)) 3 s
    let conn := match ws with
      | [(a, x), (b, y), (c, z)] => if x || y || z then none else Staged.ofWords ⟨a, b, c⟩
      | _ => none
    match conn with
    | some (.conn f) =>
      if loopback f then nextNewHalf s
      else
        let p := match readbackAt s (Res.ofDst f.dst) f.slot with
          | some x =>
            claimPath s i.no f .inFlight (if x.input = (PathEnd.of f.src).input then .source else .fill) x.att
          | none => claimPath s i.no f .inFlight (if i.step = 1 && i.att = .block then .fill else .source) i.att
        nextNewHalf (presentClaim i.no p (s.completed i.no) s)
    | _ => nextNewHalf s

/-! ### The end of rebuild (R181) -/

/-- The batch state word at the end of a rebuild (R27), by the word read at the beginning of COMPARE. One that read uncorrectable is judged on
its stored bits: the spec names no failure path for it (log 19). -/
def endBatchWord (s : State) : State :=
  let w := s.start.endWord
  let seq : BitVec 16 := BitVec.ofNat 16 (field w 16 16)
  let st := BatchWordState.ofCode (field w 0 8)
  let s := { s with seqr := { s.seqr with shown := { st := st.getD .none, seq := seq } } }
  if 0 < s.intr.depth then writeBatchState { st := .suspended, seq := seq } s
  else match st with
    | some .fetching | some .checking | some .running | some .holding | some .held | some .cancelling =>
      writeBatchState { st := .abandoned, seq := seq } s
    | some .suspended => writeBatchState { st := .none, seq := seq } s
    | _ => s

/-- Rebuild ends (R181): the batch state word, the sequencer state, the light, the faulted modules, in this order. The degrees are presented in one
pass from D1 to D4, and the modules from M1 to M6: the spec gives no order (R153, R155; log 64). -/
def rebuildEnds (s : State) : State :=
  let s := endBatchWord { s with start := { s.start with stage := .none, newHalves := [] } }
  let s := { s with seqr := { s.seqr with st := if 0 < s.intr.depth then .suspended else .idle } }
  let s := Degree.all.foldl (fun s d =>
    match s.light.state.get d with
    | .dark => lossFromLit d s
    | .holdoff => squelchDegree d s
    | .lit => s) s
  (OutPoint.all.filter (isFaulted s)).foldl (fun s o => requestCapture (.module o) s) s

/-- A staging read of the comparison completes (R57); the last ends the rebuild or the re-read. The 256 reads are made in ascending record number, each
asked for when the one before it has completed, an order that R57, R181 and R184 do not give (log 102). -/
def comparisonRead (r : RecNo) (s : State) : State :=
  match s.win.map with
  | none => s
  | some m =>
    let (s, ws) := readBurst .rebuild (pageAddr m.staging (offRecord r)) 3 s
    let h := (s.completed r).hostWords
    let differs := ws.any (·.2) || ws.map (·.1) ≠ [h.w0, h.w1, h.w2]
    let s := if differs then touch r s else s
    if r.val < 255 then request (.compare (r + 1)) s
    else if s.seqr.reread = .compare then { s with seqr := { s.seqr with reread := .none } }
    else rebuildEnds s

/-! ### The anchor re-read (R184) -/

/-- Whether a re-read can be taken (R184). -/
def rereadReady (s : State) : Bool :=
  s.seqr.rereadDue && s.seqr.st = .idle && s.intr.depth = 0 && s.light.begun.isEmpty && s.seqr.reread = .none &&
    s.start.stage = .none

/-- The re-read is taken: it begins, so that it reads the anchor as memory holds it now (R9), and the anchor's two bursts are asked for (R184, R55). -/
def takeReread (s : State) : State :=
  requestAnchor .reread { s with
    seqr := { s.seqr with rereadDue := false, reread := .anchor }
    start := { s.start with anchorSeen := some s.mem } }

/-- The slots of a degree's output that hold the fill (R40, R184). -/
def fillSlots (s : State) (d : Degree) : List Nat :=
  (allSlots.filter (fun n => match s.table.ownerOf (.deg d) n with
    | some p => p.route ≠ .source
    | none => true)).map (·.val)

/-- The command that carries a degree's change of fill to its module (R184; log 34); a FAULTED module refuses it (R139). -/
def fillChange (old new : AnchorCfg) (s : State) (d : Degree) : State :=
  let kind : Option FrameKind :=
    if old.fill.get d ≠ new.fill.get d then some .route
    else if old.idler.get d ≠ new.idler.get d then some .atten else none
  match kind, (fillSlots s d).min?, (fillSlots s d).max? with
  | some k, some lo, some hi =>
    (handOrdinary { module := .deg d, kind := k, start := lo, count := hi - lo + 1, vals := [], built := false,
                    req := .fillChange } s).getD s
  | _, _, _ => s

/-- A record's completed state fixed anew from its paths (R53, R184; log 29). -/
def refix (s : State) (r : RecNo) : State :=
  match s.table.recordPaths r with
  | [] => fixCompleted r .empty s
  | ps =>
    match ps.find? (fun p => p.st.done.isSome) with
    | some p => match p.st.done with
      | some d => fixCompleted r (p.completed s.win.cfg d) s
      | none => activeDue r s
    | none => activeDue r s

/-- A valid anchor found by a re-read (R184). Where the status page moved, the response, the batch state and the counters are asked for behind the
other status words (log 62). The active records become due in ascending number (log 77), and the four slots of a save page that moved are written zero
from slot 1 up, the header behind them (R30; log 76). The commands of several degrees whose fill changed are handed over in one pass from D1 to D4, a
ROUTE or an ATTEN as each needs (log 89). The Touched Set is emptied at this moment, so that what the host staged since the re-read was taken stands
in it again only where the comparison finds it (R57; log 90). The fill commands of an earlier re-read that are not sent yet stay in the queue: the
spec gives no moment at which a re-read withdraws one (R133; log 56). -/
def applyReread (c : AnchorCfg) (s : State) : State :=
  let old := s.win.cfg
  let moved : Bool := match s.win.map with | some m => m.status ≠ c.map.status | none => true
  let saveMoved : Bool := match s.win.map with | some m => m.save ≠ c.map.save | none => true
  let s := adoptCfg c s
  let s := match old with | some o => Degree.all.foldl (fillChange o c) s | none => s
  let s := allRecords.foldl refix s
  let s := writeStatusWords s
  let s := if moved then
      requestStatus (.counters s.batch.counters) (requestStatus (.batchState s.seqr.shown) (request (.response s.seqr.lastResp) s))
    else s
  let s := if saveMoved then
      let zeros : List Word := List.replicate 16 0
      let s := [1, 2, 3, 4].foldl (fun s k => requestSlot k zeros (fun b => .slotBurst k 3 b) s) s
      request (.saveHeader 0) { s with intr := { s.intr with header := 0, images := [] } }
    else s
  request (.compare 0) { s with touched := [], seqr := { s.seqr with reread := .compare } }

/-- The re-read's anchor read completes (R184). Here, and not when the re-read is taken, the Touched Set is emptied, whether the anchor is valid or not:
R57 says "at each anchor re-read" and names no moment of it (log 90). -/
def rereadAnchor (s : State) : State :=
  match readAnchor s with
  | (s, some c) => applyReread c s
  | (s, none) => enterUnconfigured { s with touched := [] }

/-! ### The ends of transactions (R130, R131, R135 to R138) -/

/-- A module's readback handed over; after the sixth, adoption begins (R131, R138). -/
def takeReadback (o : OutPoint) (x : Readback) (s : State) : State :=
  let s := { s with start := { s.start with readback := s.start.readback.set o x } }
  if s.start.stage = .readback && OutPoint.all.all (fun o => s.start.readback.get o ≠ .unread) then startAdoption s else s

/-- Whether captures are requested for module faults: not in UNCONFIGURED and REBUILDING (R136). -/
def faultCaptures (s : State) : Bool := s.seqr.st ≠ .unconfigured && s.seqr.st ≠ .rebuilding

/-- A transaction fails and its module becomes FAULTED (R136, R137, R138), in the order of R136. A READ of rebuild that fails, or that is
removed unsent, tells the Start-up Controller that the module has no readback. -/
def transactionFails (t : Txn) (s : State) : State :=
  let c := t.cmd
  let o := c.module
  let changed : Bool := !isFaulted s o
  let gone := s.act.ordinary.filter (fun c => c.module = o) ++ s.act.wait.filter (fun c => c.module = o)
  let s := { s with act :=
    { s.act with
      txn := none
      mods := s.act.mods.set o .faulted
      ordinary := s.act.ordinary.filter (fun c => c.module ≠ o)
      wait := s.act.wait.filter (fun c => c.module ≠ o)
      urgent := s.act.urgent.filter (fun c => c.module ≠ o) } }
  let s := commandFailed c s
  let s := gone.foldl (fun s c => commandFailed c s) s
  let s := if changed then requestStatus .modules s else s
  let s := if faultCaptures s then requestCapture (.module o) s else s
  let inPass : Bool := match s.act.refresh with | some { mods := m :: _ } => m = o | _ => false
  let s := if inPass then nextRefresh s else s
  if c.req = .readback || gone.any (fun x => x.req = .readback) then takeReadback o .missing s else s

/-- An attempt missed or drew a NAK (R130): the first is followed at once by its retry, the second fails the transaction. The retry is sent in
REBUILDING too, where it can be that of a ROUTE or an ATTEN begun in UNCONFIGURED: a transaction runs to its end (R128), though R178 and R138 let no
such frame reach a module during a rebuild (log 95, DEDUCED). -/
def attemptMissed (s : State) : State :=
  match s.act.txn with
  | none => s
  | some t =>
    if t.attempt < 2 then { s with act := { s.act with txn := some (beginAttempt t.cmd 2) } } else transactionFails t s

/-- The reply timer expires (R130): it has reached zero in an attempt that is sent (log 8). -/
def replyExpires (s : State) : State :=
  match s.act.txn with
  | some t => if t.sendLeft = 0 && t.timer = 0 then attemptMissed s else s
  | none => s

/-- Whether a reply is judged at all (R130): one with a bad checksum or another module's number is discarded, and so is one that comes before
the attempt's last bit, while the line sends: it belongs to no attempt (R128). -/
def replyTxn (h : ReplyHead) (s : State) : Option Txn :=
  match s.act.txn with
  | some t => if h.checksumOk && h.module = t.cmd.module && t.sendLeft = 0 then some t else none
  | none => none

/-- An accepted ACK handed on (R131, R137). -/
def ackAccepted (t : Txn) (s : State) : State :=
  let c := t.cmd
  let s := { s with act := { s.act with txn := none } }
  match c.kind with
  | .route =>
    let s := clearCells c.module c.start c.count s
    if c.req = .refresh then refreshBurst c.module .atten s else routeApplied c s
  | .atten => if c.req = .refresh then nextRefresh (setModule c.module .online s) else attenApplied c s
  | .ping => refreshBurst c.module .route (setModule c.module .refreshing s)
  | .read => s

/-- An ACK of a row arrives (R130): accepted for the row's kind of frame, a NAK for a READ. The row of another kind is not due (log 7). -/
def ackArrives (k : FrameKind) (h : ReplyHead) (s : State) : State :=
  match replyTxn h s with
  | none => s
  | some t => if t.cmd.kind = k then ackAccepted t s else if t.cmd.kind = .read then attemptMissed s else s

/-- Whether a module can select an input (R32). -/
def selectable : OutPoint → Input → Bool
  | .deg d, .deg e => d ≠ e
  | .deg _, _ => true
  | .grp _, .deg _ | .grp _, .block => true
  | .grp _, _ => false

/-- Whether a setting in a DATA reply can stand (R130). -/
def settingOk (o : OutPoint) (x : SlotSetting) : Bool :=
  selectable o x.input && (match x.att with | .db n => decide (n ≤ 250) | .block => true)

/-- A DATA reply arrives (R130, R138). -/
def dataArrives (h : ReplyHead) (l : List SlotSetting) (s : State) : State :=
  match replyTxn h s with
  | none => s
  | some t =>
    if t.cmd.kind = .read && l.length = t.cmd.count && l.all (settingOk t.cmd.module) then
      let s := setModule t.cmd.module .online { s with act := { s.act with txn := none } }
      takeReadback t.cmd.module (.given l) s
    else attemptMissed s

/-- A NAK arrives (R130). -/
def nakArrives (h : ReplyHead) (s : State) : State :=
  match replyTxn h s with
  | none => s
  | some _ => attemptMissed s

/-! ### The scrubber (R173, R174) -/

/-- Whether the scrubber runs (R173). -/
def scrubRuns (s : State) : Bool :=
  (match s.win.cfg with | some c => c.scrub | none => false) && s.win.map.isSome && !s.start.powerdown &&
    (s.seqr.st = .idle || s.seqr.st = .suspended || s.seqr.st.isBatch)

/-- The byte address under the scrub pointer. -/
def scrubAddr (s : State) (m : WindowMap) : Nat :=
  let c := s.integ.scrub
  let page := if c.page = 0 then s.win.anchorPage else if c.page = 1 then m.staging else if c.page = 2 then m.active
    else if c.page = 3 then m.status else m.save
  pageAddr page (4 * c.word.toNat)

/-- The pacing timer expires (R173), its count at zero (log 8): one read of the word under the pointer is asked for, unless one waits. -/
def pacingExpires (s : State) : State :=
  match s.win.map with
  | some m =>
    if scrubRuns s && s.integ.scrub.started && s.integ.scrub.timer = 0 then
      let s := { s with integ := { s.integ with scrub := { s.integ.scrub with timer := 10 } } }
      if s.port.any (fun r => match r with | .scrub _ => true | _ => false) then s else request (.scrub (scrubAddr s m)) s
    else s
  | none => s

/-- A scrub read completes (R173, R174): the pointer advances, and an uncorrectable word of the active page makes its record's write due. Which
page is the active page is judged by the window map at this moment: R173 gives the map at the request for the address alone (log 72). -/
def scrubDone (a : Nat) (s : State) : State :=
  let (s, _, bad) := readWord .scrub a s
  let c := s.integ.scrub
  let c' : Scrubber := if c.word = 1023 then { c with word := 0, page := c.page + 1 } else { c with word := c.word + 1 }
  let s := { s with integ := { s.integ with scrub := c' } }
  if bad && s.win.role (pageOf a) = .active then activeDue (recordAt (a % 4096)) s else s

end Sys2Proof.Machine
end

