-- ==== Sys2Proof/Machine/HostPort.lean ====
section
/-! DEFINITION. The Processor Bus Port and the Bus Interposer (01): decoding, holding, refusing and carrying out host beats. -/

namespace Sys2Proof.Machine

/-- What a write beat's word lets it do (R4). -/
inductive WriteAction
  | pass | refuse | rewrite
  deriving DecidableEq, Repr

/-- The byte offsets of the four resume words in the save page (R10, R30). -/
def resumeOffsets : List Nat := [1, 2, 3, 4].map (fun k => offSlot k + 44)

/-- The table of R4 for a write beat, by the page's role and the word's offset. -/
def writeAction (role : Role) (off : Nat) : WriteAction :=
  match role with
  | .plain | .anchor => .pass
  | .staging => if off / 4 % 4 = 3 then .refuse else .pass
  | .active => .refuse
  | .status =>
    if off = offAttention then .rewrite
    else if off = 0 || off = 4 || off = 8 || (decide (64 ≤ off) && decide (off < 192)) then .pass else .refuse
  | .save => if resumeOffsets.contains off then .pass else .refuse

/-- The byte address of a beat's word: the two lowest address bits are taken as zero (R1). -/
def Beat.word (b : Beat) : Nat := b.addr.toNat / 4 * 4

/-- The role of the page a beat falls in (R4). -/
def Beat.role (s : State) (b : Beat) : Role := s.win.role (pageOf b.word)

/-- Whether a beat meets a hold condition in force (R13, R14, R15). A fetch hold meets a beat of a write burst whenever it came into force. A
write-back hold that comes into force after a beat of a granted cycle has read the record lets the later beats of that grant pass: the burst
waits for the grant's end (R17), so that the read returns the record as it was, whole (R15; log 57). -/
def beatHeld (s : State) (b : Beat) : Bool :=
  let off := b.word % 4096
  match b.role s with
  | .staging => b.write && b.be != 0 && off / 4 % 4 ≠ 3 && s.holds.fetch = some (recordAt off)
  | .active => !b.write && s.holds.wb.contains (recordAt off) && !s.bus.reading.contains (recordAt off)
  | _ => false

/-- The bytes of a word replaced where a byte enable is on (R168). -/
def mergeWord (old new : Word) (be : ByteEn) : Word :=
  let lane (i : Nat) : BitVec 8 := if be.getLsbD i then new.extractLsb' (8 * i) 8 else old.extractLsb' (8 * i) 8
  lane 3 ++ lane 2 ++ lane 1 ++ lane 0

/-- A write beat that passes reaches memory (R168): none where its merge read is uncorrectable. -/
def writeMemory (b : Beat) (s : State) : State × Bool :=
  let a := b.word
  if b.be = 15 then (storeWord a b.data s, true)
  else match s.mem.check a with
    | (.correct, w) => (storeWord a (mergeWord w b.data b.be) s, true)
    | (.corrected, w) =>
      (storeWord a (mergeWord w b.data b.be) (reportFault .corrected .hostPartialWrite a (s.mem.syndrome a) s), true)
    | (.uncorrectable, _) => (reportFault .uncorrectable .hostPartialWrite a (s.mem.syndrome a) s, false)

/-- What a write beat that has landed brings about elsewhere (R6, R7, R9). -/
def sideEffect (b : Beat) (s : State) : State :=
  let a := b.word
  match b.role s with
  | .anchor => anchorWritten s
  | .staging => touch (recordAt (a % 4096)) s
  | .status => if a % 4096 = 0 then handCommand (s.mem.word a) s else s
  | .plain => if s.seqr.st = .unconfigured && s.win.watch = some a then handCommand (s.mem.word a) s else s
  | _ => s

/-- An acknowledge taken by the Attention Unit (R176): the acknowledged causes leave the pending set, and the owning blocks of those that were
pending are told, in the order MEMORY_FAULT, PROTECTION, LIGHT_CHANGE, in which the writes of their words are asked for: the rule takes them together
and gives none (log 81). -/
def acknowledgeCauses (acks : BitVec 8) (s : State) : State :=
  let was := s.attn.pending &&& acks
  let s := { s with attn := { s.attn with pending := s.attn.pending &&& ~~~acks } }
  let s := if hasCause was .memoryFault then clearFault s else s
  let s := if hasCause was .protection then clearProtection s else s
  if hasCause was .lightChange then
    requestStatus .light { s with light := { s.light with changeSet := .const false } }
  else s

/-- A write beat to the attention word (R8): the acknowledges, then the new attention word written in place of the host's data. -/
def rewriteAttention (b : Beat) (s : State) : State :=
  let acks : BitVec 8 := if b.be.getLsbD 0 then b.data.extractLsb' 0 8 else 0
  let s := acknowledgeCauses acks s
  storeWord b.word s.attn.word s

/-- The active records read under the present grant, once a word at a host address has been read (R15; log 57). -/
def readingWith (s : State) (addr : Addr) : List RecNo :=
  let a := addr.toNat / 4 * 4
  if s.win.role (pageOf a) = .active then joinSet (recordAt (a % 4096)) s.bus.reading else s.bus.reading

/-- A beat is given READY (R1): with the last beat of its cycle, ERROR if any beat of the cycle was refused or failed. -/
def endBeat (b : Beat) (word : Option Word) (failed : Bool) (s : State) : State :=
  let err := s.bus.cycErr || failed
  { s with bus :=
    { s.bus with
      isOpen := !b.last, granted := s.bus.granted && !b.last
      reading := if b.last then [] else if word.isSome then readingWith s b.addr else s.bus.reading
      cycErr := if b.last then false else err, ready := true, error := b.last && err
      finished := s.bus.finished ++ [{ addr := b.addr, word := word, failed := failed }] } }

/-- A write beat that meets no hold carried out by the table of R4. -/
def carryWrite (b : Beat) (s : State) : State :=
  if b.be = 0 then endBeat b none false s
  else match writeAction (b.role s) (b.word % 4096) with
    | .refuse => endBeat b none true (reportRefusal (BitVec.ofNat 24 b.word) s)
    | .rewrite => endBeat b none false (rewriteAttention b s)
    | .pass =>
      let (s, ok) := writeMemory b s
      if ok then endBeat b none false (sideEffect b s) else endBeat b none true s

/-- A read beat that meets no hold carried out: read and checked (R169). -/
def carryRead (b : Beat) (s : State) : State :=
  let (s, w, bad) := readWord .hostRead b.word s
  endBeat b (some w) bad s

/-- A beat that meets no hold carried out (R4). -/
def carryBeat (b : Beat) (s : State) : State := if b.write then carryWrite b s else carryRead b s

/-- Whether a beat needs the Memory Port: not one that is refused, and not a write with all enables off (R1, R17). -/
def Beat.needsPort (s : State) (b : Beat) : Bool :=
  !b.write || (b.be != 0 && writeAction (b.role s) (b.word % 4096) ≠ .refuse)

/-- Whether a beat has to wait: a hold meets it (R13), or it needs the port and the arbiter would not grant its cycle now (R16).
A write-back hold that comes into force between two beats of a granted read of its record does not meet the later ones (log 57). -/
def beatWaits (s : State) (b : Beat) : Bool := beatHeld s b || (b.needsPort s && !hostMayGo s)

/-- A beat that need not wait goes on, under its cycle's grant where it needs the port (R17). -/
def letBeat (b : Beat) (s : State) : State := carryBeat b (if b.needsPort s then grantHost s else s)

/-- A host beat reaches the part (R1, R13, R16): behind a waiting beat, or where it has to wait itself, it waits, and its cycle gives the port
up. -/
def hostBeat (b : Beat) (s : State) : State :=
  if !s.bus.held.isEmpty || beatWaits s b then
    { s with bus := { s.bus with isOpen := true, granted := false, reading := [], held := s.bus.held ++ [b] } }
  else letBeat b s

/-- The first waiting beat goes on once it need not wait (R13, R17); a beat met by a hold inside its cycle's access ends that access. -/
def releaseBeat (s : State) : Option State :=
  match s.bus.held with
  | [] => none
  | b :: rest =>
    if !beatWaits s b then some (letBeat b { s with bus := { s.bus with held := rest } })
    else if s.bus.granted then some { s with bus := { s.bus with granted := false, reading := [] } }
    else none

/-- Waiting beats go on while they can. -/
def releaseBeats : Nat → State → State
  | 0, s => s
  | n + 1, s => match releaseBeat s with | some s => releaseBeats n s | none => s

/-- A beat that ends at once with ERROR while RESET_N is asserted (R18). -/
def resetBeat (b : Beat) (s : State) : State :=
  endBeat b none true { s with bus := { s.bus with finished := [] } }

/-! ### What follows by itself -/

/-- One act of the part that needs no further event, in the order of log 33. -/
def settleStep (s : State) : Option State :=
  buildCapture s <|> releaseBeat s <|> placeWaiting s <|> grantStep s <|> continueCheck s <|> pumpBatch s <|>
    refreshEnded s <|> beginRestore s

/-- The acts that follow an event by themselves, one by one; the bound is far above what one event can bring about (log 33). -/
def settle : Nat → State → State
  | 0, s => s
  | n + 1, s => match settleStep s with | some s => settle n s | none => s

/-- The bound on the acts that follow one event. -/
def settleBound : Nat := 4096

/-- An event's effect and what follows by itself; nothing while RESET_N is asserted (R18). -/
def event (s : State) (f : State → State) : Host.Outcome State Fault Refusal := running s (fun s => settle settleBound (f s))

/-- A host beat as an event: ended at once with ERROR while RESET_N is asserted (R18). -/
def beatEvent (s : State) (b : Beat) : Host.Outcome State Fault Refusal :=
  if s.start.inReset then .next (resetBeat b s) else event s (hostBeat b)

/-- The completion of an access with a row: its request is taken where it is granted next, and otherwise nothing happens (log 7). -/
def rowEvent (s : State) (want : PortReq → Bool) (f : PortReq → State → State) : Host.Outcome State Fault Refusal :=
  event s (fun s => match takeRow want s with
    | some (r, s) => f r s
    | none => s)

/-- A write beat of a command. -/
def Beat.ofWrite (a : Addr) (b : BeatData) : Beat := { write := true, addr := a, data := b.data, be := b.be, last := b.last }

end Sys2Proof.Machine
end

