-- ==== Sys2Proof/Machine/HostCommands.lean ====
section
/-! DEFINITION. Family: the host's beats (01, 02, 04, 11), one meaning for each row. -/

namespace Sys2Proof.Machine

/-- A write beat to a place that the window map gives; with that window absent there is no such beat (log 35). -/
def placedWrite (s : State) (a : Option Nat) (b : BeatData) : Host.Outcome State Fault Refusal :=
  match a with
  | some a => beatEvent s (.ofWrite (BitVec.ofNat 24 a) b)
  | none => event s id

/-- The batch word's address: in the status page, or in UNCONFIGURED the command watch (R7). -/
def batchWordAddr (s : State) : Option Nat :=
  match s.win.map with
  | some m => some (pageAddr m.status 0)
  | none => s.win.watch

/-- A batch-word write beat with its command code (R25, Table 2-6). -/
def CommandBeat.write (code : BitVec 8) (c : CommandBeat) : BeatData :=
  { data := c.seq ++ c.spare ++ code, be := c.be, last := c.last }

/-- HOST_READ_BEAT (R1, R4, R169). -/
def execHostReadBeat (addr : Addr) (be : ByteEn) (last : Bool) (s : State) : Host.Outcome State Fault Refusal :=
  beatEvent s { write := false, addr := addr, data := 0, be := be, last := last }

/-- HOST_WRITE_BEAT (R1, R4, R168). -/
def execHostWriteBeat (addr : Addr) (b : BeatData) (s : State) : Host.Outcome State Fault Refusal :=
  beatEvent s (.ofWrite addr b)

/-- STAGING_WRITE (R6, R56). -/
def execStagingWrite (r : RecNo) (w : Fin 3) (b : BeatData) (s : State) : Host.Outcome State Fault Refusal :=
  placedWrite s (s.win.map.map (fun m => pageAddr m.staging (offRecord r + 4 * w.val))) b

/-- REFUSED_WRITE_BEAT (R5, R11). The window map decides whether the beat is refused (R4). -/
def execRefusedWriteBeat (addr : Addr) (b : BeatData) (s : State) : Host.Outcome State Fault Refusal :=
  beatEvent s (.ofWrite addr b)

/-- ANCHOR_WRITE (R9). -/
def execAnchorWrite (w : BitVec 10) (b : BeatData) (s : State) : Host.Outcome State Fault Refusal :=
  placedWrite s (some (pageAddr s.win.anchorPage (4 * w.toNat))) b

/-- RESUME_WORD_WRITE (R10). -/
def execResumeWordWrite (k : Fin 4) (b : BeatData) (s : State) : Host.Outcome State Fault Refusal :=
  placedWrite s (s.win.map.map (fun m => pageAddr m.save (offSlot (k.val + 1) + 44))) b

/-- ACKNOWLEDGE (R8, R176). -/
def execAcknowledge (b : BeatData) (s : State) : Host.Outcome State Fault Refusal :=
  placedWrite s (s.win.map.map (fun m => pageAddr m.status offAttention)) b

/-- COMMIT (R7, R58, R59, R60). -/
def execCommit (c : CommandBeat) (s : State) : Host.Outcome State Fault Refusal :=
  placedWrite s (batchWordAddr s) (CommandBeat.write 1 c)

/-- CANCEL (R61, R93). -/
def execCancel (c : CommandBeat) (s : State) : Host.Outcome State Fault Refusal :=
  placedWrite s (batchWordAddr s) (CommandBeat.write 2 c)

/-- HOLD (R91). -/
def execHold (c : CommandBeat) (s : State) : Host.Outcome State Fault Refusal :=
  placedWrite s (batchWordAddr s) (CommandBeat.write 3 c)

/-- RELEASE (R92). -/
def execRelease (c : CommandBeat) (s : State) : Host.Outcome State Fault Refusal :=
  placedWrite s (batchWordAddr s) (CommandBeat.write 4 c)

/-- RESUME (R59, R161). -/
def execResume (c : CommandBeat) (s : State) : Host.Outcome State Fault Refusal :=
  placedWrite s (batchWordAddr s) (CommandBeat.write 5 c)

/-- UNKNOWN_COMMAND (R25, R58). -/
def execUnknownCommand (code : BitVec 8) (c : CommandBeat) (s : State) : Host.Outcome State Fault Refusal :=
  placedWrite s (batchWordAddr s) (CommandBeat.write code c)

end Sys2Proof.Machine
end

