-- ==== Sys2Proof/Machine/LinkEvents.lean ====
section
/-! DEFINITION. Family: the monitor link, the actuator link and the ramp engines (06, 07, 08), one meaning for each row. -/

namespace Sys2Proof.Machine

/-- SAMPLE (R114, R118, R122, R123). -/
def execSample (f : SampleFrame) (s : State) : Host.Outcome State Fault Refusal := event s (sampleArrives f)

/-- INTAKE_QUEUE_TAKE (R119, R120, R121). -/
def execIntakeQueueTake (s : State) : Host.Outcome State Fault Refusal := event s takeIntake

/-- SILENCE_TIMER_EXPIRY (R122). -/
def execSilenceTimerExpiry (s : State) : Host.Outcome State Fault Refusal := event s silenceExpires

/-- MEASURE (R115, R116). -/
def execMeasure (s : State) : Host.Outcome State Fault Refusal :=
  event s (fun s => if measureDue s then beginMeasure s else s)

/-- TRANSACTION_BEGIN (R128, R132). -/
def execTransactionBegin (s : State) : Host.Outcome State Fault Refusal := event s beginTransaction

/-- ROUTE_ACK (R130, R131). -/
def execRouteAck (h : ReplyHead) (s : State) : Host.Outcome State Fault Refusal := event s (ackArrives .route h)

/-- ATTEN_ACK (R130, R131). -/
def execAttenAck (h : ReplyHead) (s : State) : Host.Outcome State Fault Refusal := event s (ackArrives .atten h)

/-- PING_ACK (R130, R137). -/
def execPingAck (h : ReplyHead) (s : State) : Host.Outcome State Fault Refusal := event s (ackArrives .ping h)

/-- DATA (R130, R138). -/
def execData (h : ReplyHead) (l : List SlotSetting) (s : State) : Host.Outcome State Fault Refusal := event s (dataArrives h l)

/-- NAK (R130). -/
def execNak (h : ReplyHead) (s : State) : Host.Outcome State Fault Refusal := event s (nakArrives h)

/-- REPLY_TIMER_EXPIRY (R130). -/
def execReplyTimerExpiry (s : State) : Host.Outcome State Fault Refusal := event s replyExpires

/-- INTERVAL_EXPIRY (R103, R104). -/
def execIntervalExpiry (e : EngineNo) (s : State) : Host.Outcome State Fault Refusal := event s (intervalExpires e)

end Sys2Proof.Machine
end

