-- ==== Sys2Proof/Machine/PinEvents.lean ====
section
/-! DEFINITION. Family: the reset, LOS and PFW_N pins and the capture-time count (01, 02, 09, 12), one meaning for each row. -/

namespace Sys2Proof.Machine

/-- The words of the part's access in progress that were written when reset came (R18; log 12): those of the request granted next. -/
def cutBurst (cut : Nat) (s : State) : State :=
  if portBlocked s then s
  else match s.integ.rewrites with
    | r :: _ => if 0 < cut && !r.written then storeWord r.addr r.data s else s
    | [] =>
      match (nextReq s.port).bind (writeOf s) with
      | some (a, ws) => storeBurst a (ws.take cut) s
      | none => s

/-- RESET_N is asserted (R18, R127, R140): unfinished beats end with ERROR, an access in progress is cut off, the part's requests are
discarded, and the frames on the monitor link and the actuator link are cut off. The other blocks take their values after reset when reset
ends. -/
def assertReset (cut : Nat) (s : State) : State :=
  let s := cutBurst cut (fresh s)
  let held := s.bus.held
  let s := held.foldl (fun s b => endBeat b none true s) { s with bus := { s.bus with held := [] } }
  { s with
    start := { s.start with inReset := true }
    port := []
    mon := { s.mon with txLeft := 0 }
    act := { s.act with txn := none }
    integ := { s.integ with rewrites := [] } }

/-- The LOS levels on the pins (true for loss). -/
def losPins (s : State) : PerDegree Bool :=
  ⟨s.light.qual.d1.pin, s.light.qual.d2.pin, s.light.qual.d3.pin, s.light.qual.d4.pin⟩

/-- RESET (R18, R178). -/
def execReset (cut : Nat) (s : State) : Host.Outcome State Fault Refusal := .next (assertReset cut s)

/-- RESET_END (R2, R18, R178): the strap is sampled, every block holds its values after reset, and rebuild begins. Without a reset before
it, nothing happens (log 7). -/
def execResetEnd (strap : BitVec 2) (s : State) : Host.Outcome State Fault Refusal :=
  .next (if s.start.inReset then afterReset s.mem strap (losPins s) s.start.pfw.pin s.pending else s)

/-- FIRST_QUALIFICATION (R141, R154): the level sets the light state directly during rebuild, and the light word is written where that
changes the state shown (R145); after it a clear is a qualified clear and a loss
leaves the degree DARK; while the POWERDOWN flag is set, it then sets the level alone (log 24). -/
def execFirstQualification (d : Degree) (loss : Bool) (s : State) : Host.Outcome State Fault Refusal :=
  event s (fun s =>
    if (s.light.qual.get d).level.isSome then s
    else
      let s := setLevel d loss s
      if s.seqr.st = .rebuilding then
        let s := { s with light := { s.light with state := s.light.state.set d (if loss then .dark else .lit) } }
        if loss then s else requestStatus .light s
      else if loss || s.start.powerdown then s else clearEvent d s)

/-- QUALIFIED_LOSS (R141, R142, R144, R153): latched while the POWERDOWN flag is set. -/
def execQualifiedLoss (d : Degree) (s : State) : Host.Outcome State Fault Refusal :=
  event s (fun s =>
    let s := setLevel d true s
    if s.start.powerdown then { s with light := { s.light with lossSeen := s.light.lossSeen.set d true } }
    else lossEvent d s)

/-- QUALIFIED_CLEAR (R141, R142, R153). -/
def execQualifiedClear (d : Degree) (s : State) : Host.Outcome State Fault Refusal :=
  event s (fun s =>
    let s := setLevel d false s
    if s.start.powerdown then s else clearEvent d s)

/-- HOLD_OFF_EXPIRY (R142, R143, R147): of a counter that has reached zero (log 8). One that meets the POWERDOWN flag does nothing, and comes again
at the first slow tick after POWERDOWN (R143, R153; log 70). -/
def execHoldOffExpiry (d : Degree) (s : State) : Host.Outcome State Fault Refusal :=
  event s (fun s =>
    if s.light.state.get d = .holdoff && s.light.holdOff.get d = some 0 && !s.start.powerdown then litEvent d s else s)

/-- PFW_ASSERTION (R185). -/
def execPfwAssertion (s : State) : Host.Outcome State Fault Refusal := event s pfwAsserted

/-- PFW_DEASSERTION (R185, R186). -/
def execPfwDeassertion (s : State) : Host.Outcome State Fault Refusal := event s pfwDeasserted

/-- CAPTURE_TIME_ADVANCE (R30). -/
def execCaptureTimeAdvance (s : State) : Host.Outcome State Fault Refusal :=
  event s (fun s => { s with clock := { s.clock with ms := s.clock.ms + 1 } })

end Sys2Proof.Machine
end

