-- ==== Sys2Proof/Machine/PortEvents.lean ====
section
/-! DEFINITION. Family: the part's own accesses at the Memory Port and its takings from its own lists (04, 05, 10, 11, 12), one meaning for each
row. -/

namespace Sys2Proof.Machine

/-! ### Interruption Unit -/

/-- CAPTURE (R156, R159, R160): the capture at the head of the work list is taken. -/
def execCapture (s : State) : Host.Outcome State Fault Refusal :=
  event s (fun s =>
    match s.intr.work with
    | .capture c :: rest =>
      if workFree (.capture c) s then takeCapture c { s with intr := { s.intr with work := rest } } else s
    | _ => s)

/-- CAPTURE_WRITE_COMPLETE (R156, R160, R185): the header's write, or a merge's last burst. -/
def execCaptureWriteComplete (s : State) : Host.Outcome State Fault Refusal :=
  rowEvent s (fun r => match r with | .captureHeader _ | .mergeEnd _ => true | _ => false) (fun r s =>
    let s := carryOut r s
    captureWritten (match r with | .captureHeader d => { s with intr := { s.intr with header := d } } | _ => s))

/-- RESUME_TAKEN (R161): the RESUME at the head of the work list is taken. -/
def execResumeTaken (s : State) : Host.Outcome State Fault Refusal :=
  event s (fun s =>
    match s.intr.work with
    | .resume :: rest =>
      if workFree .resume s then takeResumeItem { s with intr := { s.intr with work := rest } } else s
    | _ => s)

/-- RESUME_WORD_READ (R161, R31). -/
def execResumeWordRead (s : State) : Host.Outcome State Fault Refusal :=
  rowEvent s (fun r => match r with | .resumeWord _ => true | _ => false) (fun r s =>
    match r with | .resumeWord k => resumeWordRead k s | _ => s)

/-- POP (R161, R162). -/
def execPop (s : State) : Host.Outcome State Fault Refusal :=
  rowEvent s (fun r => match r with | .popHeader _ => true | _ => false) (fun r s =>
    match r with | .popHeader d => popped d (carryOut r s) | _ => s)

/-! ### Fetch and write-back -/

/-- FETCH_READ (R62, R63, R14): held beats land between the read and the choice of the next, each cycle under a new grant (R17), so behind a
rewrite of a word just read. -/
def execFetchRead (s : State) : Host.Outcome State Fault Refusal :=
  rowEvent s (fun r => match r with | .fetchRec _ => true | _ => false) (fun r s =>
    match r with
    | .fetchRec r => let s := recordFetched r s; nextFetch (releaseBeats (2 * s.bus.held.length) s)
    | _ => s)

/-- MASK_READ (R64, R26). -/
def execMaskRead (s : State) : Host.Outcome State Fault Refusal :=
  rowEvent s (fun r => r = .fetchMasks) (fun _ s => masksFetched s)

/-- PROFILE_READ (R64, R65); after the last the check runs (R66 to R75). -/
def execProfileRead (s : State) : Host.Outcome State Fault Refusal :=
  rowEvent s (fun r => match r with | .fetchProf _ => true | _ => false) (fun r s =>
    match r with | .fetchProf k => profileFetched k s | _ => s)

/-- ACTIVE_WRITE_BACK (R15, R24): the burst lands and its hold is lifted. -/
def execActiveWriteBack (s : State) : Host.Outcome State Fault Refusal :=
  rowEvent s (fun r => match r with | .active _ => true | _ => false) (fun r s =>
    match r with
    | .active n =>
      let s := carryOut r s
      { s with holds := { s.holds with wb := s.holds.wb.filter (fun x => x ≠ n) } }
    | _ => s)

/-- OUTCOME_WORD_WRITE (R23, R55): the record is no longer held by the batch. -/
def execOutcomeWordWrite (s : State) : Host.Outcome State Fault Refusal :=
  rowEvent s (fun r => match r with | .outcome _ _ _ => true | _ => false) (fun r s =>
    match r with
    | .outcome n _ _ =>
      let s := carryOut r s
      { s with batch := { s.batch with list := s.batch.list.map (fun b => if b.no = n then { b with held := false } else b) } }
    | _ => s)

/-- END_STATE_WRITE (R95, R61, R74). -/
def execEndStateWrite (s : State) : Host.Outcome State Fault Refusal :=
  rowEvent s (fun r => match r with | .endState _ => true | _ => false) (fun r s =>
    match r with | .endState b => batchEnded b (carryOut r s) | _ => s)

/-! ### Integrity Unit -/

/-- CORRECTION_REWRITE (R170): the corrected word is written back, or discarded where its word was written meanwhile. -/
def execCorrectionRewrite (s : State) : Host.Outcome State Fault Refusal :=
  event s (fun s =>
    if portBlocked s then s
    else match s.integ.rewrites with
      | r :: rest =>
        let s := { s with integ := { s.integ with rewrites := rest } }
        if r.written then s else storeWord r.addr r.data s
      | [] => s)

/-- PACING_TIMER_EXPIRY (R173). -/
def execPacingTimerExpiry (s : State) : Host.Outcome State Fault Refusal := event s pacingExpires

/-- SCRUB_READ (R173, R174). -/
def execScrubRead (s : State) : Host.Outcome State Fault Refusal :=
  rowEvent s (fun r => match r with | .scrub _ => true | _ => false) (fun r s =>
    match r with | .scrub a => scrubDone a s | _ => s)

/-! ### Rebuild, anchor reads and re-read -/

/-- REBUILD_ANCHOR_READ (R179, R21): the read's last burst completes. -/
def execRebuildAnchorRead (s : State) : Host.Outcome State Fault Refusal :=
  rowEvent s (fun r => r = .anchor .rebuild) (fun _ s => rebuildAnchor s)

/-- REBUILD_PROFILE_READ (R179, R28). -/
def execRebuildProfileRead (s : State) : Host.Outcome State Fault Refusal :=
  rowEvent s (fun r => match r with | .rbProf _ => true | _ => false) (fun r s =>
    match r with | .rbProf k => rebuildProfile k s | _ => s)

/-- REBUILD_ACTIVE_READ (R179). -/
def execRebuildActiveRead (s : State) : Host.Outcome State Fault Refusal :=
  rowEvent s (fun r => match r with | .rbActive _ => true | _ => false) (fun r s =>
    match r with | .rbActive n => rebuildActive n s | _ => s)

/-- REBUILD_SAVE_READ (R179): the header, a slot, or word 0 of a slot above the depth. -/
def execRebuildSaveRead (s : State) : Host.Outcome State Fault Refusal :=
  rowEvent s (fun r => match r with | .rbHeader | .rbSlot _ | .rbTail _ => true | _ => false) (fun r s =>
    match r with
    | .rbHeader => rebuildHeader s
    | .rbSlot k => rebuildSlot k s
    | .rbTail k => rebuildTail k s
    | _ => s)

/-- NEW_HALF_STAGING_READ (R180). -/
def execNewHalfStagingRead (s : State) : Host.Outcome State Fault Refusal :=
  rowEvent s (fun r => match r with | .newHalf _ => true | _ => false) (fun r s =>
    match r with | .newHalf i => newHalfRead i s | _ => s)

/-- COMPARISON_READ (R57, R181, R184). -/
def execComparisonRead (s : State) : Host.Outcome State Fault Refusal :=
  rowEvent s (fun r => match r with | .compare _ => true | _ => false) (fun r s =>
    match r with | .compare n => comparisonRead n s | _ => s)

/-- ANCHOR_READ (R182): the anchor read of UNCONFIGURED. -/
def execAnchorRead (s : State) : Host.Outcome State Fault Refusal :=
  rowEvent s (fun r => r = .anchor .unconfigured) (fun _ s => unconfiguredAnchor s)

/-- ANCHOR_RE_READ (R184): the re-read marked due is taken. -/
def execAnchorReRead (s : State) : Host.Outcome State Fault Refusal :=
  event s (fun s => if rereadReady s then takeReread s else s)

/-- ANCHOR_RE_READ_DONE (R184): the re-read's anchor read completes. -/
def execAnchorReReadDone (s : State) : Host.Outcome State Fault Refusal :=
  rowEvent s (fun r => r = .anchor .reread) (fun _ s => rereadAnchor s)

end Sys2Proof.Machine
end

