-- ==== Sys2Proof/Machine/Dispatch.lean ====
section
/-! DEFINITION. The meaning of every command: one arm for each constructor of Instr. -/

namespace Sys2Proof.Machine

/-- A command's effect on everything but the queue. -/
def exec (i : Instr) (s : State) : Host.Outcome State Fault Refusal :=
  match i with
  | .hostReadBeat addr be last => Sys2Proof.Machine.execHostReadBeat addr be last s
  | .hostWriteBeat addr b => Sys2Proof.Machine.execHostWriteBeat addr b s
  | .stagingWrite r w b => Sys2Proof.Machine.execStagingWrite r w b s
  | .refusedWriteBeat addr b => Sys2Proof.Machine.execRefusedWriteBeat addr b s
  | .anchorWrite w b => Sys2Proof.Machine.execAnchorWrite w b s
  | .resumeWordWrite k b => Sys2Proof.Machine.execResumeWordWrite k b s
  | .acknowledge b => Sys2Proof.Machine.execAcknowledge b s
  | .commit c => Sys2Proof.Machine.execCommit c s
  | .cancel c => Sys2Proof.Machine.execCancel c s
  | .hold c => Sys2Proof.Machine.execHold c s
  | .release c => Sys2Proof.Machine.execRelease c s
  | .resume c => Sys2Proof.Machine.execResume c s
  | .unknownCommand code c => Sys2Proof.Machine.execUnknownCommand code c s
  | .reset cut => Sys2Proof.Machine.execReset cut s
  | .resetEnd strap => Sys2Proof.Machine.execResetEnd strap s
  | .firstQualification d loss => Sys2Proof.Machine.execFirstQualification d loss s
  | .qualifiedLoss d => Sys2Proof.Machine.execQualifiedLoss d s
  | .qualifiedClear d => Sys2Proof.Machine.execQualifiedClear d s
  | .holdOffExpiry d => Sys2Proof.Machine.execHoldOffExpiry d s
  | .pfwAssertion => Sys2Proof.Machine.execPfwAssertion s
  | .pfwDeassertion => Sys2Proof.Machine.execPfwDeassertion s
  | .captureTimeAdvance => Sys2Proof.Machine.execCaptureTimeAdvance s
  | .sample f => Sys2Proof.Machine.execSample f s
  | .intakeQueueTake => Sys2Proof.Machine.execIntakeQueueTake s
  | .silenceTimerExpiry => Sys2Proof.Machine.execSilenceTimerExpiry s
  | .measure => Sys2Proof.Machine.execMeasure s
  | .transactionBegin => Sys2Proof.Machine.execTransactionBegin s
  | .routeAck h => Sys2Proof.Machine.execRouteAck h s
  | .attenAck h => Sys2Proof.Machine.execAttenAck h s
  | .pingAck h => Sys2Proof.Machine.execPingAck h s
  | .data h l => Sys2Proof.Machine.execData h l s
  | .nak h => Sys2Proof.Machine.execNak h s
  | .replyTimerExpiry => Sys2Proof.Machine.execReplyTimerExpiry s
  | .intervalExpiry e => Sys2Proof.Machine.execIntervalExpiry e s
  | .capture => Sys2Proof.Machine.execCapture s
  | .captureWriteComplete => Sys2Proof.Machine.execCaptureWriteComplete s
  | .resumeTaken => Sys2Proof.Machine.execResumeTaken s
  | .resumeWordRead => Sys2Proof.Machine.execResumeWordRead s
  | .pop => Sys2Proof.Machine.execPop s
  | .fetchRead => Sys2Proof.Machine.execFetchRead s
  | .maskRead => Sys2Proof.Machine.execMaskRead s
  | .profileRead => Sys2Proof.Machine.execProfileRead s
  | .activeWriteBack => Sys2Proof.Machine.execActiveWriteBack s
  | .endStateWrite => Sys2Proof.Machine.execEndStateWrite s
  | .correctionRewrite => Sys2Proof.Machine.execCorrectionRewrite s
  | .pacingTimerExpiry => Sys2Proof.Machine.execPacingTimerExpiry s
  | .scrubRead => Sys2Proof.Machine.execScrubRead s
  | .rebuildAnchorRead => Sys2Proof.Machine.execRebuildAnchorRead s
  | .rebuildProfileRead => Sys2Proof.Machine.execRebuildProfileRead s
  | .rebuildActiveRead => Sys2Proof.Machine.execRebuildActiveRead s
  | .rebuildSaveRead => Sys2Proof.Machine.execRebuildSaveRead s
  | .newHalfStagingRead => Sys2Proof.Machine.execNewHalfStagingRead s
  | .comparisonRead => Sys2Proof.Machine.execComparisonRead s
  | .anchorRead => Sys2Proof.Machine.execAnchorRead s
  | .anchorReRead => Sys2Proof.Machine.execAnchorReRead s
  | .anchorReReadDone => Sys2Proof.Machine.execAnchorReReadDone s
  | .outcomeWordWrite => Sys2Proof.Machine.execOutcomeWordWrite s

end Sys2Proof.Machine
end

