-- ==== Sys2Proof/Machine/Idle.lean ====
section
/-! DEFINITION. What the part does of itself while no command waits (log 6): its own next event, an access without a row, or one base tick of
10 microseconds (00, section 6). And the placing of a command at the front of the queue. -/

namespace Sys2Proof.Machine

/-! ### The part's own next event -/

/-- The row of a request's completion; none for an access without a row (log 5). -/
def PortReq.row : PortReq → Option Instr
  | .captureHeader _ | .mergeEnd _ => some .captureWriteComplete
  | .popHeader _ => some .pop
  | .active _ => some .activeWriteBack
  | .outcome _ _ _ => some .outcomeWordWrite
  | .endState _ => some .endStateWrite
  | .fetchRec _ => some .fetchRead
  | .fetchMasks => some .maskRead
  | .fetchProf _ => some .profileRead
  | .resumeWord _ => some .resumeWordRead
  | .anchor .rebuild => some .rebuildAnchorRead
  | .anchor .unconfigured => some .anchorRead
  | .anchor .reread => some .anchorReReadDone
  | .rbProf _ => some .rebuildProfileRead
  | .rbActive _ => some .rebuildActiveRead
  | .rbHeader | .rbSlot _ | .rbTail _ => some .rebuildSaveRead
  | .newHalf _ => some .newHalfStagingRead
  | .compare _ => some .comparisonRead
  | .scrub _ => some .scrubRead
  | .response _ | .batchState _ | .counters _ | .attention | .protection | .memFault | .light | .monitor _ | .modules
  | .slotBurst _ _ _ | .slotWord0 _ _ | .saveHeader _ | .anchorHead | .rbSlotPart _ _ | .rbBatchState => none

/-- The part's own event that is due apart from memory, if any. -/
def ownEvent (s : State) : Option Instr :=
  let taken : Option Instr := match s.intr.work with
    | w :: _ => if workFree w s then some (match w with | .capture _ => .capture | .resume => .resumeTaken) else none
    | [] => none
  match taken with
  | some c => some c
  | none =>
    if !s.mon.intake.isEmpty then some .intakeQueueTake
    else if (chooseFrame s).isSome then some .transactionBegin
    else if measureDue s then some .measure
    else if rereadReady s then some .anchorReRead
    else none

/-- Whether rebuild's first read still waits for the first qualifications (R154; log 26). No other request waits for them (R16). -/
def awaitsLight (s : State) : Bool :=
  s.start.stage = .anchor && Degree.all.any (fun d => (s.light.qual.get d).level.isNone)

/-- Whether a request is a burst of an anchor read (R17). -/
def PortReq.readsAnchor : PortReq → Bool
  | .anchorHead | .anchor _ => true
  | _ => false

/-- The part's requests that may be granted (R16): all, but for the anchor read of a rebuild that waits for the light (R154; log 26). -/
def grantable (s : State) : List PortReq := if awaitsLight s then s.port.filter (fun r => !r.readsAnchor) else s.port

/-- What the Memory Port does next, if its next grant is the part's: the row's command, or the state after an access without a row. -/
def portNext (s : State) : Option (Instr ⊕ State) :=
  if portBlocked s then none
  else if !s.integ.rewrites.isEmpty then some (.inl .correctionRewrite)
  else match nextReq (grantable s) with
    | some r =>
      match r.row with
      | some c => some (.inl c)
      | none => some (.inr (carryOut r { s with port := s.port.erase r }))
    | none => none

/-! ### One base tick -/

/-- A command of the part joins the queue. -/
def post (c : Instr) (s : State) : State := { s with pending := s.pending ++ [c] }

/-- A qualifier after one sample (R141, R185): the new qualifier, and whether its level is to be set. -/
def Qualifier.tick (n : Nat) (q : Qualifier) : Qualifier × Bool :=
  if q.level = some q.pin then ({ q with run := 0 }, false)
  else if n ≤ q.run + 1 then ({ q with run := 0 }, true)
  else ({ q with run := q.run + 1 }, false)

/-- A degree's LOS input sampled (R141). -/
def tickLos (s : State) (d : Degree) : State :=
  let (q, due) := (s.light.qual.get d).tick 10
  let s := { s with light := { s.light with qual := s.light.qual.set d q } }
  if !due then s
  else if q.level.isNone then post (.firstQualification d q.pin) s
  else post (if q.pin then .qualifiedLoss d else .qualifiedClear d) s

/-- PFW_N sampled (R185): a first qualification that finds it deasserted sets the level alone. -/
def tickPfw (s : State) : State :=
  let (q, due) := s.start.pfw.tick 3
  let s := { s with start := { s.start with pfw := q } }
  if !due then s
  else if q.pin then post .pfwAssertion s
  else if q.level.isNone then { s with start := { s.start with pfw := { q with level := some false } } }
  else post .pfwDeassertion s

/-- A tick of a held engine's prescaler setting (R103): the first one after the grant begins the count, and each one after it lowers the count. A
count that stands at zero, its expiry met by the POWERDOWN flag, posts that expiry again (R113; log 79). -/
def tickEngine (sixteenth : Bool) (s : State) (e : EngineNo) : State :=
  let g := s.engine e
  if g.st = .free || (g.prof.x16 && !sixteenth) then s
  else if !g.counting then setEngine e { g with counting := true } s
  else
    let s := setEngine e { g with count := g.count - 1 } s
    if g.count ≤ 1 then post (.intervalExpiry e) s else s

/-- The Ramp Bank's prescaler and engines (R103, R113). -/
def tickRamp (s : State) : State :=
  let p := (s.ramp.presc + 1) % 16
  let s := { s with ramp := { s.ramp with presc := p } }
  if s.start.powerdown then s else allEngines.foldl (tickEngine (p = 0)) s

/-- The monitor link's transmission and silence timer (R115, R122). -/
def tickMonitor (s : State) : State :=
  let due := s.mon.linkUp && s.mon.silence ≤ 1
  let s := { s with mon :=
    { s.mon with txLeft := s.mon.txLeft - 1, silence := if s.mon.linkUp then s.mon.silence - 1 else s.mon.silence } }
  if due then post .silenceTimerExpiry s else s

/-- The actuator link's frame and reply timer (R130). -/
def tickActuator (s : State) : State :=
  match s.act.txn with
  | none => s
  | some t =>
    if 0 < t.sendLeft then { s with act := { s.act with txn := some { t with sendLeft := t.sendLeft - 1 } } }
    else
      let s := { s with act := { s.act with txn := some { t with timer := t.timer - 1 } } }
      if t.timer ≤ 1 then post .replyTimerExpiry s else s

/-- The scrubber's pacing timer, which starts when the scrubber first runs (R173): the first tick that finds it running loads the 10 and counts none of
them, which the rule does not settle (log 99). While the scrubber is stopped after that, the count stands (log 55). -/
def tickScrub (s : State) : State :=
  if !scrubRuns s then s
  else if !s.integ.scrub.started then
    { s with integ := { s.integ with scrub := { s.integ.scrub with started := true, timer := 10 } } }
  else
    let s := { s with integ := { s.integ with scrub := { s.integ.scrub with timer := s.integ.scrub.timer - 1 } } }
    if s.integ.scrub.timer = 0 then post .pacingTimerExpiry s else s

/-- A degree's hold-off counter at a slow tick (R143). -/
def tickHoldOff (s : State) (d : Degree) : State :=
  match s.light.holdOff.get d with
  | none => s
  | some n =>
    let s := setHoldOff d (some (n - 1)) s
    if n ≤ 1 then post (.holdOffExpiry d) s else s

/-- The millisecond count and the slow tick (R30, R143, 00 section 6). While the POWERDOWN flag is set the hold-off counters stand still, in
REBUILDING and UNCONFIGURED too, of which R153 and R185 do not say it (log 71). -/
def tickClock (s : State) : State :=
  let ms := s.clock.sub100 + 1
  let slow := s.clock.slow + 1
  let s := { s with clock :=
    { s.clock with sub100 := if 100 ≤ ms then 0 else ms, slow := if 1000 ≤ slow then 0 else slow } }
  let s := if 100 ≤ ms then post .captureTimeAdvance s else s
  if 1000 ≤ slow && !s.start.powerdown then Degree.all.foldl tickHoldOff s else s

/-- One base tick. -/
def baseTick (s : State) : State :=
  tickClock (tickScrub (tickActuator (tickMonitor (tickRamp (tickPfw (Degree.all.foldl tickLos s))))))

/-- What the part does on an empty queue (log 6). -/
def idle (s : State) : State :=
  if s.start.inReset then s
  else match ownEvent s with
    | some c => post c s
    | none =>
      match portNext s with
      | some (.inl c) => post c s
      | some (.inr s') => s'
      | none => baseTick s

/-! ### The front of the queue -/

/-- A command put at the front of the queue. -/
def pushFront (c : Instr) (s : State) : State := { s with pending := c :: s.pending }

/-- The command at the front of the queue, and the state with the queue's rest. -/
def popFront (s : State) : Option (Instr × State) :=
  match s.pending with
  | [] => none
  | c :: rest => some (c, { s with pending := rest })

end Sys2Proof.Machine
end

