-- ==== Sys2Proof/Safety.lean ====
section
/-! DEFINITION. What counts as a safe step, what a well-kept state is, and the words the statements use for the circumstances of a command. -/

namespace Sys2Proof.Machine

/-- A safe step answers a next state: the spec gives the part no condition on which it stops. -/
def Safe (o : Host.Outcome State Fault Refusal) : Prop := ∃ t, o = .next t

/-- The answer of an event that leaves the part as `t`: the acts that follow by themselves have been taken (log 33). -/
def settled (t : State) : Host.Outcome State Fault Refusal := .next (settle settleBound t)

/-- RESET_N is not asserted (R18). -/
abbrev Awake (s : State) : Prop := s.start.inReset = false

/-- No act of the part follows by itself. -/
abbrev Still (s : State) : Prop := settleStep s = none

/-- The Memory Port's next grant is a given request of the part (R16): the port is free for the part, no correction rewrite waits, and no
request of higher rank or earlier arrival at its rank. -/
abbrev NextIs (s : State) (r : PortReq) : Prop :=
  portBlocked s = false ∧ s.integ.rewrites = [] ∧ nextReq s.port = some r

/-- The state in which a granted request has left the arbiter's list. -/
def granted (s : State) (r : PortReq) : State := { fresh s with port := s.port.erase r }

/-- The bus after a beat is given READY (R1): the beat's end, and with the cycle's last beat ERROR where any beat of the cycle failed. A beat
that goes to memory leaves its cycle with the port until the last beat (R17); one that needs no port leaves that as it stood. A word read from
an active record puts the record among those read under the grant (R15; log 57). -/
def beatEnded (s : State) (port : Bool) (addr : Addr) (word : Option Word) (failed last : Bool) : BusPort :=
  { isOpen := !last, granted := !last && (port || s.bus.granted)
    reading := if last then [] else if word.isSome then readingWith s addr else s.bus.reading
    cycErr := !last && (s.bus.cycErr || failed), held := s.bus.held, ready := true,
    error := last && (s.bus.cycErr || failed), finished := [{ addr := addr, word := word, failed := failed }] }

/-- The rewrite list after the word at a byte address is written (R170): a rewrite of that word is overtaken. -/
def overtaken (a : Nat) (l : List Rewrite) : List Rewrite :=
  l.map (fun r => if r.addr = a then { r with written := true } else r)

/-- The byte address of the word that a host address falls in (R1). -/
def wordAddr (a : Addr) : Nat := a.toNat / 4 * 4

/-- No host beat waits, so a beat is looked at as it arrives (R13). -/
abbrev BusFree (s : State) : Prop := s.bus.held = []

/-- The arbiter would grant a host cycle's beat at once (R15, R16, R17): the cycle has the port, or POWERDOWN lasts, or no request of a rank
above the host's waits. -/
abbrev PortFree (s : State) : Prop :=
  s.bus.granted = true ∨ s.start.powerdown = true ∨ (s.integ.rewrites = [] ∧ ∀ r ∈ s.port, r.rank ≠ 2)

/-- The arbiter would not grant a host cycle's beat (R16): the cycle has not the port, outside POWERDOWN, and a correction rewrite waits, or a
save write whose completion another block waits for. -/
abbrev PortTaken (s : State) : Prop :=
  s.bus.granted = false ∧ s.start.powerdown = false ∧
    (s.integ.rewrites ≠ [] ∨ ∃ r ∈ s.port, (∃ d, r = .captureHeader d) ∨ (∃ d, r = .popHeader d) ∨ ∃ ws, r = .mergeEnd ws)

/-- A write beat that finds its way free and reaches memory (R1, R13, R16, R168): RESET_N is not asserted, no beat waits, the port is free for
it, an enable is on, and the word it falls on is written whole or reads without a syndrome. -/
structure BeatReady (s : State) (addr : Addr) (b : BeatData) : Prop where
  awake : Awake s
  free : BusFree s
  port : PortFree s
  lanes : b.be ≠ 0
  merge : b.be = 15 ∨ s.mem.syndrome (wordAddr addr) = 0

/-- The word a write beat leaves in memory (R168): the enabled bytes replaced. -/
def landedWord (s : State) (addr : Addr) (b : BeatData) : Word := mergeWord (s.mem.word (wordAddr addr)) b.data b.be

/-- The state in which such a beat has landed and is given READY, before what it brings about elsewhere. -/
def landed (s : State) (addr : Addr) (b : BeatData) : State :=
  { s with
    mem := s.mem.storeWord (wordAddr addr) (landedWord s addr b)
    integ := { s.integ with rewrites := overtaken (wordAddr addr) s.integ.rewrites }
    bus := beatEnded s true addr none false b.last }

/-- A write beat with some enables on, but not all, that finds its way free to its merge read (R1, R13, R16, R168). -/
structure MergeReady (s : State) (addr : Addr) (b : BeatData) : Prop where
  awake : Awake s
  free : BusFree s
  port : PortFree s
  lanes : b.be ≠ 0
  part : b.be ≠ 15

/-- What the merge read of a write beat gives (R168, R169). -/
def mergeRead (s : State) (addr : Addr) : ReadCheck × Word := s.mem.check (wordAddr addr)

/-- The state in which a partial beat has landed on the word that its merge read corrected, the fault reported (R168). -/
def landedCorrected (s : State) (addr : Addr) (b : BeatData) : State :=
  { storeWord (wordAddr addr) (mergeWord (mergeRead s addr).2 b.data b.be)
      (reportFault .corrected .hostPartialWrite (wordAddr addr) (s.mem.syndrome (wordAddr addr)) s) with
    bus := beatEnded s true addr none false b.last }

/-- The state in which a partial beat has failed at an uncorrectable merge read (R168): the fault reported, nothing written. -/
def mergeFailed (s : State) (addr : Addr) (b : BeatData) : State :=
  { reportFault .uncorrectable .hostPartialWrite (wordAddr addr) (s.mem.syndrome (wordAddr addr)) s with
    bus := beatEnded s true addr none true b.last }

/-- A write beat to the batch word at byte address `a` that is taken as a command (R7): in the installed status page, or in UNCONFIGURED at
the command watch. The word it leaves in memory carries the command code `k` and the sequence field `q`. -/
structure CommandReady (s : State) (a : Nat) (code : BitVec 8) (c : CommandBeat) (k : BitVec 8) (q : BitVec 16) : Prop where
  beat : BeatReady s (BitVec.ofNat 24 a) (CommandBeat.write code c)
  memory : s.mem.wf = true
  place : batchWordAddr s = some a
  range : a < 2 ^ 24
  page : a % 4096 = 0
  role : s.win.role (pageOf a) = .status ∨
    (s.win.role (pageOf a) = .plain ∧ s.seqr.st = .unconfigured ∧ s.win.watch = some a)
  kind : (landedWord s (BitVec.ofNat 24 a) (CommandBeat.write code c)).extractLsb' 0 8 = k
  sequence : (landedWord s (BitVec.ofNat 24 a) (CommandBeat.write code c)).extractLsb' 16 16 = q

/-- The six rows of the table that write the batch word, each with its command code (R25). -/
def batchWrites (code : BitVec 8) (c : CommandBeat) : List (Instr × BitVec 8) :=
  [(.commit c, 1), (.cancel c, 2), (.hold c, 3), (.release c, 4), (.resume c, 5), (.unknownCommand code c, code)]

/-- The response that R58 and R59 give to a command; a CANCEL that finds the check ended is refused (R61). -/
def responseTo (s : State) (k : BitVec 8) (q : BitVec 16) : Response :=
  let accept (b : Bool) : Response := if b then .accepted else .state
  if s.seqr.st = .unconfigured then .unconfigured
  else if !commandCodes.contains k then .badCommand
  else if k = 1 then
    if q = 0 then .badCommand
    else if s.seqr.st = .idle && s.intr.depth = 0 && s.seqr.reread = .none then .accepted
    else if 0 < s.intr.depth then .suspended else .busy
  else if k = 2 then
    accept ([SeqState.running, .holding, .held].contains s.seqr.st || ([SeqState.fetching, .checking].contains s.seqr.st && batchOpen s))
  else if k = 3 then accept (s.seqr.st = .running)
  else if k = 4 then accept ([SeqState.holding, .held].contains s.seqr.st)
  else accept (0 < s.intr.depth && !([SeqState.rebuilding, .powerdown].contains s.seqr.st))

/-- The state in which a command's response is asked for, and nothing else follows from it (R25, R58). -/
def answered (s : State) (a : Nat) (code : BitVec 8) (c : CommandBeat) (w : Word) : State :=
  { landed s (BitVec.ofNat 24 a) (CommandBeat.write code c) with
    port := s.port ++ [.response w], seqr := { s.seqr with lastResp := w } }

/-- The state in which a write of the part has been carried out at its grant: its words stand in memory (R17). -/
def written (s : State) (r : PortReq) (a : Nat) (ws : List Word) : State := storeBurst a ws (granted s r)

/-- A burst of `n` words from a byte address reads without a syndrome. -/
def CleanBurst (m : Memory) (a n : Nat) : Prop := ∀ i, i < n → m.syndrome (a + 4 * i) = 0

/-- The words of a burst. -/
def burstWords (m : Memory) (a n : Nat) : List Word := (List.range n).map (fun i => m.word (a + 4 * i))

/-- The anchor record at the last burst of its read (R17, R21): the words that the first burst gave, followed by words 4 to 6 of a given memory; none
where one is uncorrectable or a test fails. -/
def anchorOf (m : Memory) (s : State) : Option AnchorCfg :=
  if s.start.readPart.any (·.2) then none
  else AnchorCfg.ofWords s.win.anchorPage (s.start.readPart.map (·.1) ++ burstWords m (pageAddr s.win.anchorPage 16) 3)

/-- A held engine's owner and path (R99), its count at zero outside POWERDOWN (R103; log 8). -/
def EngineServes (s : State) (e : EngineNo) (o : EngOwner) (p : Path) : Prop :=
  (s.engine e).st ≠ .free ∧ (s.engine e).count = 0 ∧ (s.engine e).owner = some o ∧ s.path? o.pid = some p ∧ s.start.powerdown = false

/-- The part of the state that the acts following an event leave alone while no host beat waits: memory, the bus, the window map, the
protection record, the profile cache, the Integrity Unit, the Power Table, the monitor link's lists but for the requests of engines, the light
states, the start-up state but for waiting finishes, the clock and the queue. -/
structure Plan where
  mem : Memory
  bus : BusPort
  win : Windows
  prot : ProtRecord
  profiles : Vector Profile 8
  power : List PowerCell
  integ : Integrity
  monRest : BitVec 8 × List (BitVec 8) × List IntakeEntry × Bool × Nat × Nat
  lightRest : PerDegree Qualifier × PerDegree LightState × PerDegree (Option Nat) × PerDegree Bool × PerDegree Bool
  startRest : Bool × Stage × Bool × Qualifier
  clock : Clock
  pending : List Instr

/-- That part of a state. -/
def State.plan (s : State) : Plan :=
  { mem := s.mem, bus := s.bus, win := s.win, prot := s.prot, profiles := s.profiles, power := s.power, integ := s.integ
    monRest := (s.mon.nextSeq, s.mon.stale, s.mon.intake, s.mon.linkUp, s.mon.silence, s.mon.txLeft)
    lightRest := (s.light.qual, s.light.state, s.light.holdOff, s.light.changeSet, s.light.lossSeen)
    startRest := (s.start.inReset, s.start.stage, s.start.powerdown, s.start.pfw)
    clock := s.clock, pending := s.pending }

/-- What every step keeps: memory in its canonical form, at most 8 correction rewrites (R170), at most 4 samples in the Intake Queue (R118),
1 to 4 values in every listed cell of the Power Table (R124), and a next-sequence counter that is never 0 (R116). -/
structure WellKept (s : State) : Prop where
  memory : s.mem.wf = true
  rewrites : s.integ.rewrites.length ≤ 8
  intake : s.mon.intake.length ≤ 4
  cells : ∀ c ∈ s.power, 1 ≤ c.vals.length ∧ c.vals.length ≤ 4
  sequence : s.mon.nextSeq ≠ 0

/-- What every step keeps of the tables and queues: no two paths of one name, and names below the next (log 31); no map entry listed twice (R35); the
completed states in rising order of their records (R41); a FREE engine without an owner, and a path's engine held for that path (R99); no two entries
of one record in the batch record list and the Transition Queue (R55, R78); the Touched Set ascending (R56); no record twice on the Restore List and
among the begun restores, which are at most 4 (R147, R148); at most 24 places of the ordinary class (R132); a phase of at most 3 (R80); a depth of at
most 4, with the pops and the slots counted that it can come from (R155, R160, R179). -/
structure Orderly (s : State) : Prop where
  names : (s.table.paths.map (·.pid)).Nodup
  namesBelow : ∀ p ∈ s.table.paths, p.pid < s.table.nextPid
  occupancy : (s.table.occ.map (·.res)).Nodup
  completed : (s.table.done.map (·.1)).Pairwise (· < ·)
  freeEngines : ∀ e : EngineNo, (s.engine e).st = .free → (s.engine e).owner = none
  engines : ∀ p ∈ s.table.paths, ∀ e, p.engine = some e → ∃ o, (s.engine e).owner = some o ∧ o.pid = p.pid
  records : (s.batch.list.map (·.no)).Nodup
  queue : (s.queue.map (·.no)).Nodup
  touched : s.touched.Pairwise (· < ·)
  restores : (s.light.restoreList.map (·.1) ++ s.light.begun.map (·.no)).Nodup
  begun : s.light.begun.length ≤ 4
  places : s.act.ordinary.length ≤ 24
  phase : s.batch.phase ≤ 3
  depth : s.intr.depth ≤ 4
  pops : ∀ d, PortReq.popHeader d ∈ s.port → d ≤ 3
  slots : s.start.save.slots.length ≤ 4

end Sys2Proof.Machine
end

