-- ==== Sys2Proof/Certificates/Slice0/Obligations.lean ====
section
/-! DEFINITION. The statements for the provers. A statement of a command's effect answers `settled t`: the state `t` the rules give, from which
the acts that follow by themselves are taken (log 33). -/

open Sys2Proof Sys2Proof.Machine

/-! ### The machine as a whole -/

/-- A step takes the command at the front of the queue and runs it with the queue's rest; on an empty queue it is the part's own next act
(log 6). -/
def Obligations.StepTakesFrontCommand : Prop :=
  (∀ (c : Instr) (rest : List Instr) (s : State), s.pending = c :: rest → step s = exec c { s with pending := rest }) ∧
  (∀ s : State, s.pending = [] → step s = .next (idle s))

/-- Every command answers a next state in every state, with the queue of commands as it finds it. That the part has no condition on which it
stops is read from the spec (logs 38 and 39, DEDUCED), and that a row whose event is not due answers too is the model's choice (log 7). -/
def Obligations.EveryCommandCompletes : Prop :=
  ∀ (c : Instr) (s : State), ∃ t, exec c s = .next t ∧ t.pending = s.pending

/-- R2: the strap's value when reset ends, after RESET_N and after power-on alike, selects the anchor page; no other command, nor anything the part
does on an empty queue, and so no change of the strap while the part runs, changes it, and that page has the anchor role in every state, whatever four
pages the anchor record names. State.reset is the state after power-on with the strap at 0, which is the model's choice (log 10). -/
def Obligations.AnchorPageFollowsTheStrap : Prop :=
  (∀ (c : Instr) (s t : State), (∀ k, c ≠ .resetEnd k) → exec c s = .next t → t.win.anchorPage = s.win.anchorPage) ∧
  (∀ s : State, (idle s).win.anchorPage = s.win.anchorPage) ∧
  (∀ (m : Memory) (k : BitVec 2) (los : PerDegree Bool) (pfw : Bool) (q : List Instr), (afterReset m k los pfw q).win.anchorPage =
    (if k = 0 then 0x000 else if k = 1 then 0x400 else if k = 2 then 0x800 else 0xC00)) ∧
  (∀ (k : BitVec 2) (s : State), s.start.inReset = true → ∃ t, exec (.resetEnd k) s = .next t ∧
    t.win.anchorPage = (if k = 0 then 0x000 else if k = 1 then 0x400 else if k = 2 then 0x800 else 0xC00) ∧
    pageAddr t.win.anchorPage 0 = (if k = 0 then 0x000000 else if k = 1 then 0x400000 else if k = 2 then 0x800000 else 0xC00000)) ∧
  (∀ s : State, s.win.role s.win.anchorPage = .anchor)

/-- The state after reset is well kept and orderly. -/
def Obligations.ResetStateIsWellKept : Prop := WellKept State.reset ∧ Orderly State.reset

/-- Every step keeps memory in its canonical form, at most 8 rewrites, at most 4 samples in the Intake Queue, 1 to 4 values in every listed cell and a
next-sequence counter other than 0. Every step keeps the tables and queues orderly as well: no two paths of one name, no map entry owned twice,
completed states in order, a path's engine held for that path, one entry a record in the batch record list, the Transition Queue and the lists of
restores, an ascending Touched Set, at most 24 ordinary places held, at most 4 restores begun, a phase of at most 3 and a depth of at most 4. -/
def Obligations.StepsKeepWellKept : Prop :=
  (∀ s t : State, WellKept s → step s = .next t → WellKept t) ∧
  (∀ s t : State, Orderly s → step s = .next t → Orderly t)

/-- Reads of the host that find the port free, refused beats, pin events, link events, the expiries and the takings from the part's own lists change
no byte of memory and no check bit while no host beat waits. -/
def Obligations.NonStoringCommandsKeepMemory : Prop :=
  ∀ (c : Instr) (s t : State), BusFree s →
    (match c with
      | .hostReadBeat _ _ _ => PortFree s
      | .firstQualification _ _ | .qualifiedLoss _ | .qualifiedClear _ | .holdOffExpiry _ | .pfwAssertion
      | .pfwDeassertion | .captureTimeAdvance | .sample _ | .intakeQueueTake | .silenceTimerExpiry | .measure
      | .transactionBegin | .routeAck _ | .attenAck _ | .pingAck _ | .data _ _ | .nak _ | .replyTimerExpiry
      | .intervalExpiry _ | .capture | .resumeTaken | .pacingTimerExpiry | .anchorReRead => True
      | .refusedWriteBeat addr _ => writeAction (s.win.role (pageOf (wordAddr addr))) (wordAddr addr % 4096) = .refuse
      | _ => False) →
    exec c s = .next t → t.mem = s.mem

/-- An expiry of a ramp engine, the choice of a frame and the taking of a work-list item leave memory, the window map, the protection record,
the profile cache, the Power Table, the Integrity Unit, the light states, the clock and the queue as they are, while no host beat waits. -/
def Obligations.OwnActsKeepThePlan : Prop :=
  ∀ (c : Instr) (s t : State), BusFree s → Awake s →
    (match c with
      | .intervalExpiry _ | .transactionBegin | .capture | .resumeTaken => True
      | _ => False) →
    exec c s = .next t → t.plan = (fresh s).plan

/-! ### Host beats -/

/-- A host read beat that no hold meets and that finds the port free returns the word with READY (R1, R169): as stored where its check bits match,
corrected where they name one bit, as stored with the beat failed where they name none. A corrected word is also written back by a rewrite of its own
(R170). -/
def Obligations.HostReadDeliversCheckedWord : Prop :=
  ∀ (s : State) (addr : Addr) (be : ByteEn) (last : Bool), Awake s → BusFree s → PortFree s →
    beatHeld s { write := false, addr := addr, data := 0, be := be, last := last } = false →
    let a := wordAddr addr
    let w := s.mem.word a
    (s.mem.syndrome a = 0 →
      exec (.hostReadBeat addr be last) s = settled { s with bus := beatEnded s true addr (some w) false last }) ∧
    (∀ i, s.mem.syndrome a ≠ 0 → Config.syndromeBit (s.mem.syndrome a) = some i →
      let v := if i.val < 32 then w ^^^ ((1 : Word) <<< i.val) else w
      exec (.hostReadBeat addr be last) s = settled
        { addRewrite a v (reportFault .corrected .hostRead a (s.mem.syndrome a) s) with
          bus := beatEnded s true addr (some v) false last }) ∧
    (s.mem.syndrome a ≠ 0 → Config.syndromeBit (s.mem.syndrome a) = none →
      exec (.hostReadBeat addr be last) s = settled
        { reportFault .uncorrectable .hostRead a (s.mem.syndrome a) s with bus := beatEnded s true addr (some w) true last })

/-- A beat that meets a hold in force waits with READY withheld, and nothing else changes but that its cycle gives the port up (R13, R14, R15).
A read of an active record that the cycle's present grant has begun to read goes on though the record's hold came into force since, and returns the
word of the record as it was (R15, R17; that R13 gives way here is log 57, DEDUCED).
So does a beat that needs the port while the arbiter would grant a request of a higher rank: a correction rewrite, or a save write whose completion
another block waits for (R16; that a save write without a row is carried out ahead of the beat instead is the model's choice, logs 4 and 5). -/
def Obligations.BeatsWaitOnHolds : Prop :=
  ∀ s : State, Awake s → BusFree s →
    (∀ (addr : Addr) (be : ByteEn) (last : Bool),
      s.win.role (pageOf (wordAddr addr)) = .active → recordAt (wordAddr addr % 4096) ∈ s.holds.wb →
      recordAt (wordAddr addr % 4096) ∉ s.bus.reading →
      exec (.hostReadBeat addr be last) s = settled { s with bus :=
        { isOpen := true, granted := false, reading := [], cycErr := s.bus.cycErr, ready := false, error := false, finished := []
          held := [{ write := false, addr := addr, data := 0, be := be, last := last }] } }) ∧
    (∀ (addr : Addr) (be : ByteEn) (last : Bool),
      s.win.role (pageOf (wordAddr addr)) = .active → recordAt (wordAddr addr % 4096) ∈ s.bus.reading → s.bus.granted = true →
      s.mem.syndrome (wordAddr addr) = 0 →
      exec (.hostReadBeat addr be last) s = settled { s with bus := beatEnded s true addr (some (s.mem.word (wordAddr addr))) false last }) ∧
    (∀ (m : WindowMap) (r : RecNo) (k : Fin 3) (b : BeatData), s.win.map = some m → s.win.role m.staging = .staging →
      s.holds.fetch = some r → b.be ≠ 0 →
      exec (.stagingWrite r k b) s = settled { s with bus :=
        { isOpen := true, granted := false, reading := [], cycErr := s.bus.cycErr, ready := false, error := false, finished := []
          held := [{ write := true, addr := BitVec.ofNat 24 (pageAddr m.staging (offRecord r + 4 * k.val)), data := b.data,
                     be := b.be, last := b.last }] } }) ∧
    (PortTaken s →
      (∀ (addr : Addr) (be : ByteEn) (last : Bool), exec (.hostReadBeat addr be last) s = settled { s with bus :=
        { isOpen := true, granted := false, reading := [], cycErr := s.bus.cycErr, ready := false, error := false, finished := []
          held := [{ write := false, addr := addr, data := 0, be := be, last := last }] } }) ∧
      (∀ (addr : Addr) (b : BeatData), b.be ≠ 0 →
        writeAction (s.win.role (pageOf (wordAddr addr))) (wordAddr addr % 4096) ≠ .refuse →
        exec (.hostWriteBeat addr b) s = settled { s with bus :=
          { isOpen := true, granted := false, reading := [], cycErr := s.bus.cycErr, ready := false, error := false, finished := []
            held := [{ write := true, addr := addr, data := b.data, be := b.be, last := b.last }] } }))

/-- A write beat to ordinary memory, and to a word of the status page that the host owns besides the batch word (the refuse and stop masks and the
eight profiles, R4), replaces the enabled bytes of its word with fresh check bits (R168); with all enables off it does nothing (R1); where its merge
read is uncorrectable nothing is written and the beat fails. -/
def Obligations.HostWriteReplacesEnabledBytes : Prop :=
  ∀ (s : State) (addr : Addr) (b : BeatData), Awake s → BusFree s →
    (s.win.role (pageOf (wordAddr addr)) = .plain ∧ ¬ (s.seqr.st = .unconfigured ∧ s.win.watch = some (wordAddr addr))) ∨
      (s.win.role (pageOf (wordAddr addr)) = .status ∧ (wordAddr addr % 4096 = 4 ∨ wordAddr addr % 4096 = 8 ∨
        (64 ≤ wordAddr addr % 4096 ∧ wordAddr addr % 4096 < 192))) →
    let a := wordAddr addr
    let y := s.mem.syndrome a
    (b.be = 0 → exec (.hostWriteBeat addr b) s = settled { s with bus := beatEnded s false addr none false b.last }) ∧
    (BeatReady s addr b → exec (.hostWriteBeat addr b) s = settled (landed s addr b)) ∧
    (∀ i, PortFree s → b.be ≠ 0 → b.be ≠ 15 → y ≠ 0 → Config.syndromeBit y = some i →
      let v := if i.val < 32 then s.mem.word a ^^^ ((1 : Word) <<< i.val) else s.mem.word a
      exec (.hostWriteBeat addr b) s = settled
        { storeWord a (mergeWord v b.data b.be) (reportFault .corrected .hostPartialWrite a y s) with
          bus := beatEnded s true addr none false b.last }) ∧
    (PortFree s → b.be ≠ 0 → b.be ≠ 15 → y ≠ 0 → Config.syndromeBit y = none →
      exec (.hostWriteBeat addr b) s = settled
        { reportFault .uncorrectable .hostPartialWrite a y s with bus := beatEnded s true addr none true b.last })

/-- A write beat to words 0 to 2 of a staging record that is not being fetched lands, and the record is in the Touched Set with whatever was there
(R6, R56). A partial beat whose merge read is corrected lands on the corrected word, the fault reported, and touches its record too; one whose merge
read is uncorrectable writes nothing, fails and touches nothing (R168). -/
def Obligations.StagingWriteTouchesItsRecord : Prop :=
  (∀ (s : State) (m : WindowMap) (r : RecNo) (k : Fin 3) (b : BeatData),
    s.win.map = some m → s.win.role m.staging = .staging → s.holds.fetch ≠ some r →
    BeatReady s (BitVec.ofNat 24 (pageAddr m.staging (offRecord r + 4 * k.val))) b →
    exec (.stagingWrite r k b) s = settled
      { landed s (BitVec.ofNat 24 (pageAddr m.staging (offRecord r + 4 * k.val))) b with touched := joinSet r s.touched }) ∧
  (∀ (s : State) (m : WindowMap) (r : RecNo) (k : Fin 3) (b : BeatData),
    s.win.map = some m → s.win.role m.staging = .staging → s.holds.fetch ≠ some r →
    let addr : Addr := BitVec.ofNat 24 (pageAddr m.staging (offRecord r + 4 * k.val))
    MergeReady s addr b →
    ((mergeRead s addr).1 = .corrected →
      exec (.stagingWrite r k b) s = settled { landedCorrected s addr b with touched := joinSet r s.touched }) ∧
    ((mergeRead s addr).1 = .uncorrectable → exec (.stagingWrite r k b) s = settled (mergeFailed s addr b))) ∧
  (∀ (r x : RecNo) (l : List RecNo), x ∈ joinSet r l ↔ x = r ∨ x ∈ l)

/-- Which write beats pass, are refused or are rewritten is the table of R4, by the role of the page and the word in it. A refused write beat ends at
once with the cycle's ERROR and reaches no memory (R5). The protection record takes the first one's address and raises PROTECTION; a later one sets
the further-violations flag, and none after that changes it (R11). -/
def Obligations.RefusedBeatsReachTheRecord : Prop :=
  (∀ (role : Role) (off : Nat),
    (role = .plain ∨ role = .anchor → writeAction role off = .pass) ∧
    (role = .staging → (off / 4 % 4 = 3 → writeAction role off = .refuse) ∧ (off / 4 % 4 ≠ 3 → writeAction role off = .pass)) ∧
    (role = .active → writeAction role off = .refuse) ∧
    (role = .status → writeAction role off =
      if off = 28 then .rewrite else if off = 0 ∨ off = 4 ∨ off = 8 ∨ (64 ≤ off ∧ off < 192) then .pass else .refuse) ∧
    (role = .save → writeAction role off = if off = 4012 ∨ off = 3948 ∨ off = 3884 ∨ off = 3820 then .pass else .refuse)) ∧
  ∀ (s : State) (addr : Addr) (b : BeatData), Awake s → BusFree s → b.be ≠ 0 →
    writeAction (s.win.role (pageOf (wordAddr addr))) (wordAddr addr % 4096) = .refuse →
    let bus := beatEnded s false addr none true b.last
    (s.prot.filled = false → exec (.refusedWriteBeat addr b) s = settled
      (raiseCause .protection (requestStatus .protection
        { s with bus := bus, prot := { filled := true, further := false, addr := BitVec.ofNat 24 (wordAddr addr) } }))) ∧
    (s.prot.filled = true → s.prot.further = false → exec (.refusedWriteBeat addr b) s = settled
      (requestStatus .protection { s with bus := bus, prot := { s.prot with further := true } })) ∧
    (s.prot.filled = true → s.prot.further = true → exec (.refusedWriteBeat addr b) s = settled { s with bus := bus })

/-- Raising a cause makes it pending and asks for the attention word's write, one waiting write carrying every change (R175, R177); raising a
pending cause changes nothing. A write that waits already moves to the tail, behind the write of the record that raised the cause (R171; log 45,
DEDUCED). ATTN_N is asserted exactly when a cause is both pending and enabled, and the top cause is the highest-ranked such cause, shown by its
rank, or 0 for none (R175, R177). -/
def Obligations.RaisedCausesArePending : Prop :=
  (∀ s : State, s.attnAsserted = true ↔ ∃ c, hasCause s.attn.pending c = true ∧ hasCause s.attn.enable c = true) ∧
  (∀ x y : BitVec 8,
    ((∀ c, ¬ (hasCause x c = true ∧ hasCause y c = true)) → topRank (x &&& y) = 0) ∧
    (∀ (c : Cause) (n : Nat),
      (c, n) ∈ [(Cause.suspend, 1), (.batchEnd, 2), (.memoryFault, 3), (.discrepancy, 4), (.protection, 5), (.restore, 6), (.lightChange, 7), (.monitorLink, 8)] →
      hasCause x c = true → hasCause y c = true → (∀ d : Cause, d.bit < c.bit → ¬ (hasCause x d = true ∧ hasCause y d = true)) →
      topRank (x &&& y) = n)) ∧
  ∀ (c : Cause) (s : State),
    (hasCause s.attn.pending c = true → raiseCause c s = s) ∧
    (hasCause s.attn.pending c = false → raiseCause c s =
      { s with
        attn := { s.attn with pending := joinCause s.attn.pending c }
        port := if s.win.map.isSome then s.port.erase .attention ++ [.attention] else s.port }) ∧
    hasCause (joinCause s.attn.pending c) c = true ∧
    (∀ d, d ≠ c → hasCause (joinCause s.attn.pending c) d = hasCause s.attn.pending d)

/-- A write beat to the anchor page lands and marks the re-read due, or in UNCONFIGURED starts an anchor read, one in progress marking a second (R9,
R182). A write beat to a resume word lands and nothing else follows (R10). A partial beat to either whose merge read is corrected lands on the
corrected word, the fault reported, with the same effects; one whose merge read is uncorrectable writes nothing, fails and has none of them (R168). -/
def Obligations.AnchorAndResumeWordWritesLand : Prop :=
  (∀ (s : State) (w : BitVec 10) (b : BeatData),
    let addr : Addr := BitVec.ofNat 24 (pageAddr s.win.anchorPage (4 * w.toNat))
    BeatReady s addr b →
    (s.seqr.st ≠ .unconfigured → exec (.anchorWrite w b) s = settled
      { landed s addr b with seqr := { s.seqr with rereadDue := true } }) ∧
    (s.seqr.st = .unconfigured → s.seqr.anchorRead = false → exec (.anchorWrite w b) s = settled
      { landed s addr b with port := s.port ++ [.anchorHead, .anchor .unconfigured]
                             seqr := { s.seqr with anchorRead := true, rereadDue := false } }) ∧
    (s.seqr.st = .unconfigured → s.seqr.anchorRead = true → exec (.anchorWrite w b) s = settled
      { landed s addr b with seqr := { s.seqr with anchorAgain := true } })) ∧
  (∀ (s : State) (w : BitVec 10) (b : BeatData),
    let addr : Addr := BitVec.ofNat 24 (pageAddr s.win.anchorPage (4 * w.toNat))
    let u := landedCorrected s addr b
    MergeReady s addr b →
    ((mergeRead s addr).1 = .uncorrectable → exec (.anchorWrite w b) s = settled (mergeFailed s addr b)) ∧
    ((mergeRead s addr).1 = .corrected →
      (s.seqr.st ≠ .unconfigured → exec (.anchorWrite w b) s = settled { u with seqr := { s.seqr with rereadDue := true } }) ∧
      (s.seqr.st = .unconfigured → s.seqr.anchorRead = false → exec (.anchorWrite w b) s = settled
        { u with port := u.port ++ [.anchorHead, .anchor .unconfigured], seqr := { s.seqr with anchorRead := true, rereadDue := false } }) ∧
      (s.seqr.st = .unconfigured → s.seqr.anchorRead = true → exec (.anchorWrite w b) s = settled
        { u with seqr := { s.seqr with anchorAgain := true } }))) ∧
  (∀ (s : State) (m : WindowMap) (k : Fin 4) (b : BeatData), s.win.map = some m → s.win.role m.save = .save →
    let addr : Addr := BitVec.ofNat 24 (pageAddr m.save (offSlot (k.val + 1) + 44))
    (BeatReady s addr b → exec (.resumeWordWrite k b) s = settled (landed s addr b)) ∧
    (MergeReady s addr b →
      ((mergeRead s addr).1 = .corrected → exec (.resumeWordWrite k b) s = settled (landedCorrected s addr b)) ∧
      ((mergeRead s addr).1 = .uncorrectable → exec (.resumeWordWrite k b) s = settled (mergeFailed s addr b))))

/-- A write beat to the attention word takes the causes written as 1 in an enabled lane out of the pending set, clears the record, the
protection record or the change set of those that were pending, and leaves the new attention word in memory (R8, R176). That the writes of these
three are asked for in this order is the model's choice (log 81). -/
def Obligations.AcknowledgeClearsCauses : Prop :=
  ∀ (s : State) (m : WindowMap) (b : BeatData), Awake s → BusFree s → PortFree s → b.be ≠ 0 → s.win.map = some m → s.win.role m.status = .status →
    let a := pageAddr m.status offAttention
    let acks : BitVec 8 := if b.be.getLsbD 0 then b.data.extractLsb' 0 8 else 0
    let was := s.attn.pending &&& acks
    let attn : Attention := { s.attn with pending := s.attn.pending &&& ~~~acks }
    exec (.acknowledge b) s = settled
      { s with
        bus := beatEnded s true (BitVec.ofNat 24 a) none false b.last
        mem := s.mem.storeWord a attn.word
        attn := attn
        integ := { s.integ with mfr := if hasCause was .memoryFault then .none else s.integ.mfr
                                rewrites := overtaken a s.integ.rewrites }
        prot := if hasCause was .protection then .empty else s.prot
        light := { s.light with changeSet := if hasCause was .lightChange then .const false else s.light.changeSet }
        port := s.port ++ (if hasCause was .memoryFault then [.memFault] else []) ++
          (if hasCause was .protection then [.protection] else []) ++ (if hasCause was .lightChange then [.light] else []) }

/-! ### Commands -/

/-- Each command is answered by the tables of R58 and R59, and one that is not accepted has no other effect. A CANCEL that finds the check of its
batch ended is answered REFUSED_STATE (R61), and so is one in FETCHING or CHECKING whose batch has its end state asked for already, as after an
earlier CANCEL (log 16, DEDUCED). The depth by which a COMMIT in REBUILDING is judged is 0 until rebuild has counted the slots (R59; the moment is the
model's choice, log 96). A partial beat whose merge read is corrected gives the command that the merged word holds, the fault reported; one whose
merge read is uncorrectable writes nothing, fails and gives no command (R7, R168). -/
def Obligations.CommandsAreAnsweredByTheTable : Prop :=
  (∀ (s : State) (a : Nat) (code : BitVec 8) (c : CommandBeat) (k : BitVec 8) (q : BitVec 16) (i : Instr) (x : BitVec 8),
    (i, x) ∈ batchWrites code c → CommandReady s a x c k q →
    let w := responseWord q k (responseTo s k q)
    (∃ t, exec i s = settled t ∧ t.seqr.lastResp = w ∧ PortReq.response w ∈ t.port) ∧
    (responseTo s k q ≠ .accepted → exec i s = settled (answered s a x c w))) ∧
  (∀ (s : State) (a : Nat) (code : BitVec 8) (c : CommandBeat) (i : Instr) (x : BitVec 8), (i, x) ∈ batchWrites code c →
    let addr : Addr := BitVec.ofNat 24 a
    let b := CommandBeat.write x c
    MergeReady s addr b → s.mem.wf = true → batchWordAddr s = some a → a < 2 ^ 24 → a % 4096 = 0 →
    s.win.role (pageOf a) = .status ∨ (s.win.role (pageOf a) = .plain ∧ s.seqr.st = .unconfigured ∧ s.win.watch = some a) →
    ((mergeRead s addr).1 = .corrected →
      let v := mergeWord (mergeRead s addr).2 b.data b.be
      let u := landedCorrected s addr b
      let k : BitVec 8 := v.extractLsb' 0 8
      let q : BitVec 16 := v.extractLsb' 16 16
      let w := responseWord q k (responseTo s k q)
      (∃ t, exec i s = settled t ∧ t.seqr.lastResp = w ∧ PortReq.response w ∈ t.port) ∧
      (responseTo s k q ≠ .accepted → exec i s = settled { u with port := u.port ++ [.response w], seqr := { s.seqr with lastResp := w } })) ∧
    ((mergeRead s addr).1 = .uncorrectable → exec i s = settled (mergeFailed s addr b)))

/-- A COMMIT accepted begins a batch: its context afresh, FETCHING, the three writes in order, and the first fetch read or the masks
(R60, R62). -/
def Obligations.CommitBeginsABatch : Prop :=
  ∀ (s : State) (a : Nat) (c : CommandBeat) (q : BitVec 16), CommandReady s a 1 c 1 q → q ≠ 0 → s.seqr.st = .idle →
    s.intr.depth = 0 → s.seqr.reread = .none → s.start.powerdown = false → s.win.map.isSome = true →
    let w := responseWord q 1 .accepted
    exec (.commit c) s = settled
      { landed s (BitVec.ofNat 24 a) (CommandBeat.write 1 c) with
        batch := { Batch.reset with present := true, seq := q, work := .fetch }
        seqr := { s.seqr with st := .fetching, shown := { st := .fetching, seq := q }, lastResp := w }
        port := s.port ++ [.response w, .batchState { st := .fetching, seq := q }, .counters .zero] ++
          (match s.touched with | r :: _ => [.fetchRec r] | [] => [.fetchMasks])
        holds := match s.touched with | r :: _ => { s.holds with fetch := some r } | [] => s.holds }

/-- A CANCEL accepted in a run state puts the sequencer in CANCELLING and cancels every WAITING entry at that moment; entries in progress are left to
run their half to the end (R93). The entries cancelled are written back in the queue's order (R94), and so are those that ABANDON ends (R165): a MOVE
between its halves has its record fixed, its RESERVED path removed with it; any other gives up its claims, so that its RESERVED path is removed, the
pledges on its old path's entries are voided with that path's leaving mark and pending fields, an adoption's claim goes and its port is freed (R42,
R48), and its outcome stands alone. -/
def Obligations.CancelStopsARunningBatch : Prop :=
  (∀ (s : State) (a : Nat) (c : CommandBeat) (q : BitVec 16), CommandReady s a 2 c 2 q →
    s.seqr.st = .running ∨ s.seqr.st = .holding ∨ s.seqr.st = .held → s.batch.present = true → s.batch.ending = false →
    (s.queue.map (·.no)).Nodup →
    ∃ t, exec (.cancel c) s = settled t ∧ t.plan = (landed s (BitVec.ofNat 24 a) (CommandBeat.write 2 c)).plan ∧
      t.seqr.st = .cancelling ∧ t.seqr.shown = { st := .cancelling, seq := s.batch.seq } ∧
      t.queue = s.queue.map (fun e => if e.st = .waiting then { e with st := .cancelled, chain := [] } else e) ∧
      t.seqr.lastResp = responseWord q 2 .accepted) ∧
  (∀ s : State, enterCancelling s = endAllWaiting .cancelled (enterState .cancelling .cancelling s)) ∧
  (∀ (st : EntryState) (s : State), endAllWaiting st s =
    s.queue.foldl (fun s e => if e.st = .waiting then endWaiting e st none s else s) s) ∧
  (∀ (s : State) (e : Entry) (st : EntryState) (o : OutcomeCode), (st, o) ∈ [(EntryState.cancelled, OutcomeCode.cancelled), (.abandoned, .abandoned)] →
    let t := updateEntry e.no (fun _ => { e with st := st, chain := [] }) s
    (e.kind = .move → e.half = .new → endWaiting e st none s = writeOutcome e.no o (fixRecord e.no false false t)) ∧
    (e.kind ≠ .move ∨ e.half = .old →
      endWaiting e st none s = writeOutcome e.no o (giveUpClaims { e with st := st, chain := [] } t))) ∧
  (∀ (s : State) (e : Entry) (p q : Nat),
    let drop (t : ConnTable) : ConnTable := (t.voidOn q).update q (fun x => { x with leaving := false, pend := none })
    (e.kind ≠ .adopt → e.newP = some p → e.oldP = none → giveUpClaims e s = { s with table := (s.table.remove p).unclaim e.no }) ∧
    (e.kind ≠ .adopt → e.newP = some p → e.oldP = some q →
      giveUpClaims e s = { s with table := (drop (s.table.remove p)).unclaim e.no }) ∧
    (e.newP = none → e.oldP = some q → giveUpClaims e s = { s with table := (drop s.table).unclaim e.no }) ∧
    (e.kind = .adopt → e.oldP = none → giveUpClaims e s = { s with table := s.table.unclaim e.no })) ∧
  (∀ (t : ConnTable) (r : RecNo) (q : Nat),
    (t.unclaim r).paths = t.paths.map (fun p => if p.claimed = some r then { p with claimed := none } else p) ∧
    (∀ o, o ∈ (t.unclaim r).occ ↔ o ∈ t.occ ∧
      ¬ ((∃ p ∈ t.paths, p.claimed = some r ∧ p.pid = o.owner) ∧ ∃ x, o.res = .addPort x ∨ o.res = .dropPort x)) ∧
    (t.voidOn q).paths = t.paths ∧ (t.voidOn q).occ = t.occ.map (fun o => if o.owner = q then { o with pledge := none } else o))

/-- A CANCEL accepted in FETCHING or CHECKING ends the batch: the claims are undone, every listed record is touched again and its outcome CANCELLED
asked for, the fetch hold is lifted, and the end state CANCELLED is asked for last (R61). That a recovery batch started by ABANDON ends ABANDONED
instead, with ABANDONED for every record and the Touched Set as it was, as R183 gives, is log 54 (DEDUCED). Undoing the claims removes every RESERVED
path, passes or frees the entries it owned and voids the pledges it held, clears leaving marks, pending fields and adoption claims, and frees the port
of each adoption claimed (R42, R44, R48). -/
def Obligations.CancelEndsAnUncheckedBatch : Prop :=
  (∀ (s : State) (a : Nat) (c : CommandBeat) (q : BitVec 16), CommandReady s a 2 c 2 q →
    s.seqr.st = .fetching ∨ s.seqr.st = .checking → s.batch.present = true → s.batch.ending = false →
    let gave (t : State) (o : OutcomeCode) : Prop :=
      s.win.map.isSome = true → ∀ b ∈ s.batch.list, PortReq.outcome b.no o s.batch.seq ∈ t.port
    ∃ t, exec (.cancel c) s = settled t ∧ t.plan = (landed s (BitVec.ofNat 24 a) (CommandBeat.write 2 c)).plan ∧
      t.table = s.table.undo ∧ t.holds = { s.holds with fetch := none } ∧ t.batch.ending = true ∧
      t.batch.counters.total = s.batch.list.length ∧ t.seqr.lastResp = responseWord q 2 .accepted ∧
      ((∀ x, s.batch.recovery = some x → x.abandon = false) → gave t .cancelled ∧
        (∀ r, r ∈ t.touched ↔ r ∈ s.touched ∨ ∃ b ∈ s.batch.list, b.no = r) ∧
        t.port.getLast? = some (.endState { st := .cancelled, seq := s.batch.seq })) ∧
      (∀ x, s.batch.recovery = some x → x.abandon = true → gave t .abandoned ∧ t.touched = s.touched ∧
        t.port.getLast? = some (.endState { st := .abandoned, seq := s.batch.seq }))) ∧
  (∀ t : ConnTable, (t.paths.map (·.pid)).Nodup → (t.occ.map (·.res)).Nodup →
    let gone (q : Nat) : Prop := ∃ p ∈ t.paths, p.pid = q ∧ p.st = .reserved
    let freed (q : Nat) (x : Res) : Prop :=
      (∃ p ∈ t.paths, p.pid = q ∧ p.st ≠ .reserved ∧ p.claimed ≠ none) ∧ ∃ y, x = .addPort y ∨ x = .dropPort y
    t.undo.paths = (t.paths.filter (fun p => p.st ≠ .reserved)).map (fun p => { p with leaving := false, pend := none, claimed := none }) ∧
    t.undo.done = t.done ∧ (∀ x, t.entry x = none → t.undo.entry x = none) ∧
    ∀ x o, t.entry x = some o →
      (¬ gone o.owner →
        (freed o.owner x → t.undo.entry x = none) ∧
        (¬ freed o.owner x → (∀ q, o.pledge = some q → gone q) → t.undo.entry x = some { o with pledge := none }) ∧
        (¬ freed o.owner x → (∀ q, o.pledge = some q → ¬ gone q) → t.undo.entry x = some o)) ∧
      (gone o.owner →
        ((∀ q, o.pledge = some q → gone q ∧ q ≠ o.owner) → t.undo.entry x = none) ∧
        (∀ q, o.pledge = some q → ¬ gone q → ¬ freed q x → t.undo.entry x = some { o with owner := q, pledge := none })))

/-- A HOLD accepted in RUNNING enters HOLDING, and a RELEASE accepted in HOLDING or HELD enters RUNNING; the response is asked for and the batch state
word behind it, with the batch's sequence (R91, R92; this order of the two is the model's choice, log 97), and the first entry to RUNNING sets the
phase to 1 (R80). -/
def Obligations.HoldAndReleaseSwitchTheRun : Prop :=
  ∀ (s : State) (a : Nat) (c : CommandBeat) (q : BitVec 16), s.batch.present = true → s.batch.ending = false → s.win.map.isSome = true →
    (CommandReady s a 3 c 3 q → s.seqr.st = .running →
      exec (.hold c) s = settled
        { landed s (BitVec.ofNat 24 a) (CommandBeat.write 3 c) with
          port := s.port ++ [.response (responseWord q 3 .accepted), .batchState { st := .holding, seq := s.batch.seq }]
          seqr := { s.seqr with st := .holding, shown := { st := .holding, seq := s.batch.seq }
                                lastResp := responseWord q 3 .accepted } }) ∧
    (CommandReady s a 4 c 4 q → s.seqr.st = .holding ∨ s.seqr.st = .held →
      exec (.release c) s = settled
        { landed s (BitVec.ofNat 24 a) (CommandBeat.write 4 c) with
          port := s.port ++ [.response (responseWord q 4 .accepted), .batchState { st := .running, seq := s.batch.seq }]
          seqr := { s.seqr with st := .running, shown := { st := .running, seq := s.batch.seq }
                                lastResp := responseWord q 4 .accepted }
          batch := { s.batch with phase := max 1 s.batch.phase } })

/-- A RESUME accepted joins the work list, which holds at most four of them: a fifth lapses (R59, R155). -/
def Obligations.ResumeJoinsTheWorkList : Prop :=
  ∀ (s : State) (a : Nat) (c : CommandBeat) (q : BitVec 16), CommandReady s a 5 c 5 q → 0 < s.intr.depth →
    s.seqr.st ≠ .unconfigured → s.seqr.st ≠ .rebuilding → s.seqr.st ≠ .powerdown →
    exec (.resume c) s = settled
      { answered s a 5 c (responseWord q 5 .accepted) with
        intr := { s.intr with work :=
          if s.intr.work.count .resume < 4 then s.intr.work ++ [.resume] else s.intr.work } }

/-! ### Reset, pins and light -/

/-- RESET ends every unfinished beat with ERROR, discards the part's requests, and leaves of the write in progress the words already written
(R18; that this write is the one granted next, with the number of its words in the command, is the model's choice, log 12): of a correction rewrite
its one word, where that is written and was not overtaken (R170), of another write its first words, and of a read nothing; host beats that come while
it lasts end at once with ERROR and reach no memory. -/
def Obligations.ResetCutsOffTheBus : Prop :=
  (∀ (cut : Nat) (s : State), ∃ t, exec (.reset cut) s = .next t ∧ t.start.inReset = true ∧ t.port = [] ∧ t.integ.rewrites = [] ∧
    t.bus.held = [] ∧ t.bus.finished = s.bus.held.map (fun b => { addr := b.addr, word := none, failed := true }) ∧
    (portBlocked s = true → t.mem = s.mem) ∧
    (∀ r rest, portBlocked s = false → s.integ.rewrites = r :: rest →
      t.mem = if 0 < cut ∧ r.written = false then s.mem.storeWord r.addr r.data else s.mem) ∧
    (∀ r a ws, portBlocked s = false → s.integ.rewrites = [] → nextReq s.port = some r → writeOf s r = some (a, ws) →
      t.mem = (storeBurst a (ws.take cut) s).mem) ∧
    (portBlocked s = false → s.integ.rewrites = [] → (∀ r, nextReq s.port = some r → writeOf s r = none) → t.mem = s.mem)) ∧
  (∀ (s : State) (addr : Addr) (be : ByteEn) (last : Bool) (b : BeatData), s.start.inReset = true →
    exec (.hostReadBeat addr be last) s = .next { s with bus := beatEnded s false addr none true last } ∧
    exec (.hostWriteBeat addr b) s = .next { s with bus := beatEnded s false addr none true b.last })

/-- When reset ends every block holds its values after reset, the sequencer is in REBUILDING at stage ANCHOR with the anchor read asked for,
the POWERDOWN flag is clear, no module image exists, ACT_DIR is set to send, and memory is left as it stood (R178, R18, R53, R55, R77, R99, R140,
R154, R167, R170, R173). RESET_END with RESET_N not asserted changes nothing (the model's choice, log 7). -/
def Obligations.ResetEndGivesTheStatedValues : Prop :=
  (∀ (k : BitVec 2) (s : State), s.start.inReset = false → exec (.resetEnd k) s = .next s) ∧
  ∀ (k : BitVec 2) (s : State), s.start.inReset = true → ∃ t, exec (.resetEnd k) s = .next t ∧
    t.mem = s.mem ∧ t.start.inReset = false ∧ t.start.stage = .anchor ∧ t.start.powerdown = false ∧ t.start.pfw.level = none ∧
    t.seqr.st = .rebuilding ∧ t.port = [.anchorHead, .anchor .rebuild] ∧ t.win.map = none ∧ t.win.watch = none ∧
    t.win.cfg = none ∧ t.bus.held = [] ∧ t.bus.isOpen = false ∧ t.bus.granted = false ∧ t.holds = { fetch := none, wb := [] } ∧ t.prot.filled = false ∧
    t.batch = Batch.reset ∧ t.touched = [] ∧ t.queue = [] ∧ (∀ i : Fin 8, (t.profiles[i]).valid = false) ∧
    t.table.paths = [] ∧ t.table.occ = [] ∧ (∀ r, t.completed r = .empty) ∧
    (∀ e : EngineNo, t.engine e = Engine.free) ∧ t.ramp.wait = [] ∧ t.ramp.presc = 0 ∧
    t.seqr.rereadDue = false ∧ t.seqr.kept = none ∧ t.seqr.reread = .none ∧ t.seqr.anchorRead = false ∧ t.seqr.anchorAgain = false ∧
    t.act.ordinary = [] ∧ t.act.urgent = [] ∧ t.act.wait = [] ∧ t.act.txn = none ∧ t.act.refresh = none ∧
    (∀ o, t.act.mods.get o = .online) ∧
    (∀ d, t.light.state.get d = .dark ∧ (t.light.qual.get d).level = none ∧ (t.light.qual.get d).run = 0 ∧
      t.light.holdOff.get d = none ∧ t.light.changeSet.get d = false ∧ t.light.lossSeen.get d = false) ∧
    t.light.restoreList = [] ∧ t.light.begun = [] ∧
    t.intr.depth = 0 ∧ t.intr.work = [] ∧ t.intr.item = none ∧
    t.integ.mfr = .none ∧ t.integ.rewrites = [] ∧ t.integ.scrub = { started := false, page := 0, word := 0, timer := 0 } ∧
    t.attn = { pending := 0, enable := 0 } ∧ t.clock.ms = 0 ∧ t.start.deferred = [] ∧ t.start.newHalves = [] ∧ t.start.discrepancies = 0 ∧
    (∀ o, t.start.readback.get o = .unread) ∧ (∀ o n, t.image o n = none) ∧ t.actDirSend = true

/-- R127: RESET cuts off a MEASURE in transmission; while RESET_N is asserted no MEASURE is sent and no frame is taken; and when reset ends, after
RESET_N and after power-on alike, the Monitor Port and the Power Table hold the values of the rule's table. -/
def Obligations.MonitorPortAfterReset : Prop :=
  (∀ (cut : Nat) (s : State), ∃ t, exec (.reset cut) s = .next t ∧ t.start.inReset = true ∧ t.mon.txLeft = 0) ∧
  (∀ (s : State) (f : SampleFrame), s.start.inReset = true → exec (.sample f) s = .next s ∧ exec .measure s = .next s) ∧
  (∀ t : State, (t = State.reset ∨ ∃ (k : BitVec 2) (s : State), s.start.inReset = true ∧ exec (.resetEnd k) s = .next t) →
    t.mon.send = [] ∧ t.mon.out = [] ∧ t.mon.nextSeq = 1 ∧ t.mon.stale = [] ∧ t.mon.intake = [] ∧ t.mon.linkUp = false ∧
    t.mon.silence = 0 ∧ t.mon.txLeft = 0 ∧ t.power = [] ∧ (∀ o n, powerAverage t o n = none))

/-- A degree's first qualification sets its light state with no event while rebuild runs, the POWERDOWN flag set or not (R141, R154); after it a
loss leaves the degree DARK and a clear is a qualified clear, which the POWERDOWN flag delays to its end (log 24, DEDUCED); a degree that has its
level takes none (the model's choice, log 7). -/
def Obligations.FirstQualificationSetsTheLightState : Prop :=
  ∀ (s : State) (d : Degree) (loss : Bool), Awake s →
    let q := s.light.qual.set d { (s.light.qual.get d) with pin := loss, level := some loss, run := 0 }
    ((s.light.qual.get d).level ≠ none → exec (.firstQualification d loss) s = settled (fresh s)) ∧
    ((s.light.qual.get d).level = none → s.seqr.st = .rebuilding → loss = true →
      exec (.firstQualification d loss) s = settled { fresh s with light :=
        { s.light with qual := q, state := s.light.state.set d .dark } }) ∧
    ((s.light.qual.get d).level = none → s.seqr.st = .rebuilding → loss = false →
      exec (.firstQualification d loss) s = settled (requestStatus .light { fresh s with light :=
        { s.light with qual := q, state := s.light.state.set d .lit } })) ∧
    ((s.light.qual.get d).level = none → s.seqr.st ≠ .rebuilding → loss = true ∨ s.start.powerdown = true →
      exec (.firstQualification d loss) s = settled { fresh s with light := { s.light with qual := q } }) ∧
    ((s.light.qual.get d).level = none → s.seqr.st ≠ .rebuilding → loss = false → s.start.powerdown = false →
      exec (.firstQualification d loss) s = settled (clearEvent d { fresh s with light := { s.light with qual := q } }))

/-- A qualified loss by the degree's light state (R142, R144, R153): from LIT the degree is DARK, its change is shown and raised, its Restore List
entries are gone and, in IDLE, a batch state or SUSPENDED, a LOS capture waits, a running batch being marked so that it issues no step before the
capture (R83; log 58, DEDUCED); from HOLDOFF it falls back with the counter discarded; DARK stays; while the POWERDOWN flag is set the loss is
latched. A path of the degree is squelched by its state (R49): a completed one becomes SQUELCHED at the fill, the others take the mark, all but
RESERVED at the fill, and none changes its attenuation, resources or owner. From LIT, with no restore begun, where the part acts on paths, every path
the degree feeds is left so in the Connection Table and the others keep state, route and attenuation; the fed paths' engines are FREE, none of their
engine requests and none of their unsent ordinary commands is left, and an urgent squelch burst covers the slot of each but a SQUELCHED or RESERVED
one (log 23, DEDUCED), unless its module is FAULTED (R49, R112, R134, R144). The active write is asked for of each record whose fed path was LIVE or
OFF_TARGET, whose completed state, where it is the record's only such path, is fixed SQUELCHED at the fill's attenuation; every record without one
keeps its completed state (R41, R49, R144). With the capture, the Restore List is held until the depth next returns to 0, its entries for other
degrees kept (R152; log 101, DEDUCED). The light word is asked for exactly once, the attention word's write behind it where LIGHT_CHANGE was not
pending (R145, R177); that this is with the change set, behind the squelch's writes, is the model's choice (log 87). With no status page it is not
asked for. -/
def Obligations.QualifiedLossByLightState : Prop :=
  (∀ (s : State) (d : Degree), Awake s →
      let q := s.light.qual.set d { (s.light.qual.get d) with pin := true, level := some true, run := 0 }
      (s.start.powerdown = true → exec (.qualifiedLoss d) s = settled { fresh s with light :=
        { s.light with qual := q, lossSeen := s.light.lossSeen.set d true } }) ∧
      (s.start.powerdown = false → s.light.state.get d = .dark →
        exec (.qualifiedLoss d) s = settled { fresh s with light := { s.light with qual := q } }) ∧
      (s.start.powerdown = false → s.light.state.get d = .holdoff →
        exec (.qualifiedLoss d) s = settled (raiseCause .lightChange (requestStatus .light { fresh s with light :=
          { s.light with qual := q, holdOff := s.light.holdOff.set d none, state := s.light.state.set d .dark
                         changeSet := s.light.changeSet.set d true } }))) ∧
      (s.start.powerdown = false → s.light.state.get d = .lit → ∃ t, exec (.qualifiedLoss d) s = settled t ∧
        t.light.state = s.light.state.set d .dark ∧ t.light.changeSet = s.light.changeSet.set d true ∧ t.light.qual = q ∧
        hasCause t.attn.pending .lightChange = true ∧
        (s.win.map.isSome = true → ∃ l, l.count .light = s.port.count .light ∧
          (hasCause s.attn.pending .lightChange = true → t.port = l ++ [.light]) ∧
          (hasCause s.attn.pending .lightChange = false → t.port = l ++ [.light, .attention])) ∧
        (s.win.map = none → t.port.count .light = s.port.count .light) ∧
        t.batch = (if s.seqr.st.isRun then { s.batch with lossStop := true } else s.batch) ∧
        (lightActs s = true → WorkItem.capture (.los d) ∈ t.intr.work ∧ ∀ x ∈ t.light.restoreList, x.2 ≠ d) ∧
        (lightActs s = true → t.light.restoresHeld = true ∧ (∀ x ∈ s.light.restoreList, x.2 ≠ d → x ∈ t.light.restoreList)) ∧
        (lightActs s = false → t.light.restoresHeld = s.light.restoresHeld) ∧
        (lightActs s = true ∨ s.seqr.st = .unconfigured → s.light.begun = [] → (s.table.paths.map (·.pid)).Nodup →
          (∀ p ∈ s.table.paths, ∃ q, t.path? p.pid = some q ∧ q.owner = p.owner ∧ q.needs = p.needs ∧ q.att = p.att ∧
            (p.src = .deg d → q.st = p.squelch.st ∧ q.route = p.squelch.route ∧ q.squelched = p.squelch.squelched) ∧
            (p.src ≠ .deg d → q.st = p.st ∧ q.route = p.route ∧ q.squelched = p.squelched)) ∧
          (∀ p ∈ s.table.paths, p.src = .deg d →
            (∀ e, p.engine = some e → (t.engine e).st = .free) ∧ (∀ r ∈ t.ramp.wait, r.owner.pid ≠ p.pid) ∧
            (∀ c ∈ t.act.ordinary ++ t.act.wait, match c.req with
              | .entry _ pid _ | .restore _ pid _ => pid ≠ p.pid
              | .engine _ _ o => o.pid ≠ p.pid
              | _ => True) ∧
            (p.handsSlot = true → isFaulted s p.dst.out = false → ∃ c ∈ t.act.urgent, c.module = p.dst.out ∧ c.req = .squelch ∧
              c.start ≤ p.slot.val ∧ p.slot.val < c.start + c.count)) ∧
          (∀ p ∈ s.table.paths, ∀ r h f, p.src = .deg d → p.st = .live ∨ p.st = .offTarget → p.owner = some (r, h) → p.host = some f →
            PortReq.active r ∈ t.port ∧
            ((∀ q ∈ s.table.paths, q.src = .deg d → q.st = .live ∨ q.st = .offTarget → (∃ k, q.owner = some (r, k)) → q = p) →
              t.completed r = .path { st := .squelched, host := f, att := (fillOf s.win.cfg p.dst.out).att
                                      measured := powerAverage s (Res.ofDst f.dst) f.slot })) ∧
          (∀ r, (∀ p ∈ s.table.paths, ∀ k, p.owner = some (r, k) → p.src ≠ .deg d ∨ (p.st ≠ .live ∧ p.st ≠ .offTarget)) →
            t.completed r = s.completed r)))) ∧
  (∀ p : Path,
      (p.st = .live ∨ p.st = .offTarget → p.squelch = { p with st := .squelched, route := .fill }) ∧
      (p.st = .squelched → p.squelch = p) ∧
      (p.st = .reserved → p.squelch = { p with squelched := true, rerouting := false }) ∧
      (p.st = .connecting ∨ p.st = .ramping ∨ p.st = .releasing ∨ p.st = .inFlight ∨ p.st = .discrepant ∨ p.st = .foreign →
        p.squelch = { p with squelched := true, rerouting := false, route := .fill }))

/-- A qualified clear takes a DARK degree to HOLDOFF, the counter loaded from the anchor last read, or 255 (R142, R143); on another degree, or under
the POWERDOWN flag, it sets the level alone. The expiry of a counter that is at zero makes the degree LIT and, with auto-restore in IDLE, a batch
state or SUSPENDED, appends its restorable records in ascending number: those fixed SQUELCHED whose SQUELCHED path has that degree as its source and
the permit set, and which no batch holds and which have neither an entry nor a begun restore (R147); with no counter at zero, and in POWERDOWN, it
does nothing (the model's choice, logs 7, 8 and 70). At depth 0 with fewer than four restores begun and no re-read due, the Restore List's head
begins: its CONNECT is handed over where the record is still SQUELCHED on that LIT degree, and a stale entry only leaves the list (R148, R149);
otherwise none begins, a re-read in progress or a loss whose capture raises the depth holding restores back too (logs 21 and 101, DEDUCED). One whose
path's profile is not valid ends at once as a failure before routing, with no command (R148, R150). A restore that ends has its record fixed and
raises RESTORE (R149); one that fails at the fill leaves its path SQUELCHED and ends; one that fails at its source is rolled back, by RETURNING on its
engine or, at 250 or with no engine, by its DISCONNECT at once, and one whose rollback fails, or whose DISCONNECT is refused, ends with its path in
place (R150). One stopped by the squelch of its source leaves its path SQUELCHED at the fill with the mark clear and no engine, its record fixed
SQUELCHED and written, its unsent ordinary commands and engine request withdrawn, leaves the begun set and raises nothing; the others stay begun (R51,
R152). A command of a stopped restore in transmission goes on without its requester (R131). -/
def Obligations.ClearAndExpiryRunTheHoldOff : Prop :=
  (∀ (s : State) (d : Degree) (r : RecNo), restorable d s r = true ↔
      (∃ x, s.completed r = .path x ∧ x.st = .squelched) ∧
      (∃ p ∈ s.table.recordPaths r, p.st = .squelched ∧ p.src = .deg d ∧ ∃ i, p.info = some i ∧ i.permit = true) ∧
      (∀ b ∈ s.batch.list, b.no = r → b.held = false) ∧ (∀ x ∈ s.light.restoreList, x.1 ≠ r) ∧ (∀ x ∈ s.light.begun, x.no ≠ r)) ∧
  (∀ (s : State) (d : Degree), Awake s →
      let q := s.light.qual.set d { (s.light.qual.get d) with pin := false, level := some false, run := 0 }
      let n := match s.win.cfg with | some c => c.holdOff | none => 255
      (s.start.powerdown = false → s.light.state.get d = .dark →
        exec (.qualifiedClear d) s = settled (raiseCause .lightChange (requestStatus .light { fresh s with light :=
          { s.light with qual := q, holdOff := s.light.holdOff.set d (some n), state := s.light.state.set d .holdoff
                         changeSet := s.light.changeSet.set d true } }))) ∧
      (s.start.powerdown = true ∨ s.light.state.get d ≠ .dark →
        exec (.qualifiedClear d) s = settled { fresh s with light := { s.light with qual := q } })) ∧
  (∀ (s : State) (d : Degree), Awake s →
      (s.light.state.get d = .holdoff → s.light.holdOff.get d = some 0 → s.start.powerdown = false →
        ∃ t, exec (.holdOffExpiry d) s = settled t ∧ t.light.state = s.light.state.set d .lit ∧
          t.light.holdOff = s.light.holdOff.set d none ∧ t.light.changeSet = s.light.changeSet.set d true ∧
          hasCause t.attn.pending .lightChange = true ∧
          t.light.restoreList = s.light.restoreList ++
            (if lightActs s && (match s.win.cfg with | some c => c.autoRestore | none => false) then
              (allRecords.filter (restorable d s)).map (fun r => (r, d)) else [])) ∧
      (s.light.state.get d ≠ .holdoff ∨ s.light.holdOff.get d ≠ some 0 ∨ s.start.powerdown = true →
        exec (.holdOffExpiry d) s = settled (fresh s))) ∧
  (∀ (s : State) (r : RecNo) (d : Degree) (rest : List (RecNo × Degree)), s.light.restoreList = (r, d) :: rest →
      (0 < s.intr.depth ∨ 4 ≤ s.light.begun.length ∨ lightActs s = false ∨ s.seqr.rereadDue = true ∨ s.seqr.reread ≠ .none ∨
        s.start.powerdown = true ∨ s.light.restoresHeld = true → beginRestore s = none) ∧
      (s.intr.depth = 0 → s.light.begun.length < 4 → lightActs s = true → s.seqr.rereadDue = false → s.seqr.reread = .none →
        s.start.powerdown = false → s.light.restoresHeld = false →
        (∀ (p : Path) (x : DonePath), s.table.halfPath r .old = some p → s.completed r = .path x → x.st = .squelched → p.st = .squelched →
          p.src = .deg d → s.light.state.get d = .lit → (s.profiles[(p.info.map (·.profile)).getD 0]).valid = true →
          isFaulted s p.dst.out = false → s.act.ordinary.length < 24 → s.act.wait = [] →
          beginRestore s = some (queueOrdinary (connectCmd p (.restore r p.pid .connect))
            { s with light := { s.light with restoreList := rest, begun := s.light.begun ++ [{ no := r, pid := p.pid, step := .connect }] } })) ∧
        (∀ (p : Path) (x : DonePath), s.table.halfPath r .old = some p → s.path? p.pid = some p → s.completed r = .path x → x.st = .squelched →
          p.st = .squelched → p.route = .fill → p.src = .deg d → s.light.state.get d = .lit → (∀ y ∈ s.light.begun, y.no ≠ r) →
          (s.profiles[(p.info.map (·.profile)).getD 0]).valid = false →
          beginRestore s = some (endRestore r (updatePath p.pid
            (fun q => { q with st := .squelched, route := .fill, squelched := false, rerouting := false })
            (withdrawEngReq p.pid (freePathEngine p.pid
              { s with light := { s.light with restoreList := rest
                                               begun := s.light.begun ++ [{ no := r, pid := p.pid, step := .connect }] } }))))) ∧
        ((∀ x, s.completed r = .path x → x.st ≠ .squelched) ∨ s.table.halfPath r .old = none ∨ s.light.state.get d ≠ .lit ∨
            (∃ p, s.table.halfPath r .old = some p ∧ (p.st ≠ .squelched ∨ p.src ≠ .deg d)) →
          beginRestore s = some { s with light := { s.light with restoreList := rest } }))) ∧
  (∀ (s : State) (x : Restore) (p : Path) (r : RecNo),
      (s.start.powerdown = false → endRestore r s = raiseCause .restore { fixRecord r true true s with
        light := { s.light with begun := s.light.begun.filter (fun y => y.no ≠ r) } }) ∧
      (∀ k, setRestoreStep r k s = { s with
        light := { s.light with begun := s.light.begun.map (fun y => if y.no = r then { y with step := k } else y) } }) ∧
      (let v := setRestoreStep x.no .disconnect s
       let c := disconnectCmd v p (.restore x.no p.pid .disconnectKeep)
       (∀ t, handOrdinary c v = some t → restoreDisconnect x p s = t) ∧
       (handOrdinary c v = none → restoreDisconnect x p s = endRestore x.no (leaveInPlace p.pid v))) ∧
      (s.restore? r = some x → s.path? x.pid = some p → x.step = .connect ∨ x.step = .rampUp ∨ x.step = .verify →
        (p.route = .fill → restoreFailed r s = endRestore r (updatePath p.pid
          (fun q => { q with st := .squelched, route := .fill, squelched := false, rerouting := false })
          (withdrawEngReq p.pid (freePathEngine p.pid s)))) ∧
        (p.route = .source →
          let u := updatePath p.pid (fun q => { q with st := .releasing }) (withdrawEngReq p.pid s)
          (∀ g, p.engine = some g → atTop p.att = false → restoreFailed r s = setRestoreStep r .returning (startReturning g u)) ∧
          (∀ g, p.engine = some g → atTop p.att = true → restoreFailed r s = restoreDisconnect x p (freeEngine g u)) ∧
          (p.engine = none → restoreFailed r s = restoreDisconnect x p u))) ∧
      (s.restore? r = some x → s.path? x.pid = some p → x.step = .returning ∨ x.step = .disconnect →
        restoreFailed r s = endRestore r (leaveInPlace p.pid (freePathEngine p.pid s))) ∧
      (stopRestore x s).attn = s.attn ∧ (stopRestore x s).light.begun = s.light.begun.filter (fun y => y.no ≠ x.no)) ∧
  (∀ (s : State) (d : Degree), (s.table.paths.map (·.pid)).Nodup → (s.light.begun.map (·.no)).Nodup →
      (∀ y ∈ s.light.begun, ∃ p, s.table.recordPaths y.no = [p] ∧ p.pid = y.pid ∧ p.host ≠ none) →
      (∀ p ∈ s.table.paths, ∀ e, p.engine = some e → ∃ o, (s.engine e).owner = some o ∧ o.pid = p.pid) →
      let t := squelchDegree d s
      t.attn = s.attn ∧
      (∀ x ∈ s.light.begun, ∀ p, s.path? x.pid = some p → p.src ≠ .deg d → x ∈ t.light.begun) ∧
      (∀ x ∈ s.light.begun, ∀ p, s.path? x.pid = some p → p.src = .deg d →
        (∃ q, t.path? x.pid = some q ∧ q.st = .squelched ∧ q.route = .fill ∧ q.squelched = false ∧ q.engine = none) ∧
        (∃ y, t.completed x.no = .path y ∧ y.st = .squelched) ∧ PortReq.active x.no ∈ t.port ∧ (∀ y ∈ t.light.begun, y.no ≠ x.no) ∧
        (∀ e, p.engine = some e → (t.engine e).st = .free) ∧ (∀ r ∈ t.ramp.wait, r.owner.pid ≠ x.pid) ∧
        (∀ c ∈ t.act.ordinary ++ t.act.wait, match c.req with
          | .entry _ pid _ | .restore _ pid _ => pid ≠ x.pid
          | .engine _ _ o => o.pid ≠ x.pid
          | _ => True) ∧
        (∀ y pid use, s.act.txn = some y → y.cmd.req = .restore x.no pid use →
          t.act.txn = some { y with cmd := { y.cmd with req := .gone pid } })) ∧
      (∀ y, s.act.txn = some y → (∀ x ∈ s.light.begun, ∀ pid use, y.cmd.req ≠ .restore x.no pid use) → t.act.txn = some y))

/-- A qualified assertion of PFW_N asks for a POWER_FAIL capture in IDLE, a batch state or SUSPENDED, one waiting request standing for all, and in
REBUILDING or UNCONFIGURED sets the POWERDOWN flag (R185), where it empties the hold set too (the model's choice, log 75); a deassertion ends
POWERDOWN into SUSPENDED, and with the flag set in any other state lets the sequencer go on where it is (R186). Either way the flag goes, a write-back
hold returns for each active record whose write still waits (R15) and none for a fetch read that waits (log 13, DEDUCED), a waiting write of the
monitor word takes the link's state (log 15, DEDUCED), the finishes put off, restores among them (a finish in POWERDOWN does nothing but join them),
are carried out (R97; that they come before the degrees, in the order they finished, is log 32, DEDUCED), and then the degrees are taken from D1 to
D4: a LIT or HOLDOFF one with a loss seen acts as at a qualified loss and, where its level is clear by now, as at a qualified clear after it, a DARK
one whose level is clear as at a qualified clear, and any other keeps its state (R153; that this is done where the flag alone goes, in REBUILDING or
UNCONFIGURED, is log 24, DEDUCED). -/
def Obligations.PowerFailPinPausesAndResumes : Prop :=
  ∀ s : State, Awake s →
    let lvl (x : Bool) : Qualifier := { s.start.pfw with pin := x, level := some x, run := 0 }
    (lightActs s = true → exec .pfwAssertion s = settled { fresh s with
      start := { s.start with pfw := lvl true }
      intr := { s.intr with work := if WorkItem.capture .powerFail ∈ s.intr.work then s.intr.work
                                    else s.intr.work ++ [.capture .powerFail] } }) ∧
    (s.seqr.st = .rebuilding ∨ s.seqr.st = .unconfigured → s.start.powerdown = false →
      exec .pfwAssertion s = settled { fresh s with
        start := { s.start with pfw := lvl true, powerdown := true }
        holds := { fetch := none, wb := [] }
        light := { s.light with lossSeen := .const false } }) ∧
    (s.start.powerdown = false → exec .pfwDeassertion s = settled { fresh s with start := { s.start with pfw := lvl false } }) ∧
    (s.start.powerdown = true → s.seqr.st = .powerdown → ∃ t, exec .pfwDeassertion s = settled t ∧
      t.start.powerdown = false ∧ t.start.deferred = [] ∧ t.seqr.st = .suspended ∧ t.seqr.shown.st = .suspended) ∧
    (s.start.powerdown = true →
      let u : State := { fresh s with
        start := { s.start with pfw := lvl false, powerdown := false, deferred := [] }
        holds := { s.holds with wb := s.port.filterMap (fun r => match r with | .active r => some r | _ => none) }
        port := s.port.map (fun r => match r with | .monitor _ => .monitor s.mon.linkUp | r => r) }
      let seq := if s.batch.present then s.batch.seq else s.seqr.shown.seq
      let ended (t : State) : State := [Degree.d1, .d2, .d3, .d4].foldl (fun s d => actOnLatched d s) (s.start.deferred.foldl runDeferred t)
      (s.seqr.st = .powerdown → exec .pfwDeassertion s = settled (ended (writeBatchState { st := .suspended, seq := seq }
        { u with seqr := { s.seqr with st := .suspended } }))) ∧
      (s.seqr.st ≠ .powerdown → exec .pfwDeassertion s = settled (ended u))) ∧
    (∀ d : Degree, s.start.powerdown = false →
      exec (.qualifiedLoss d) s = settled (lossEvent d (setLevel d true (fresh s))) ∧
      exec (.qualifiedClear d) s = settled (clearEvent d (setLevel d false (fresh s)))) ∧
    (∀ d : Degree,
      let t : State := { s with light := { s.light with lossSeen := s.light.lossSeen.set d false } }
      let seen := s.light.lossSeen.get d
      let level := (s.light.qual.get d).level
      (s.light.state.get d = .lit ∨ s.light.state.get d = .holdoff → seen = true →
        (level = some false → actOnLatched d s = clearEvent d (lossEvent d t)) ∧ (level ≠ some false → actOnLatched d s = lossEvent d t)) ∧
      (s.light.state.get d = .lit ∨ s.light.state.get d = .holdoff → seen = false → actOnLatched d s = t) ∧
      (s.light.state.get d = .dark → (level = some false → actOnLatched d s = clearEvent d t) ∧ (level ≠ some false → actOnLatched d s = t))) ∧
    (∀ (r : RecNo) (st : EntryState) (v : Bool),
      (s.start.powerdown = false → runDeferred s (.entry r st v) = finishEntry r st v s ∧ runDeferred s (.restore r) = endRestore r s) ∧
      (s.start.powerdown = true →
        finishEntry r st v s = { s with start := { s.start with deferred := s.start.deferred ++ [.entry r st v] } } ∧
        endRestore r s = { s with start := { s.start with deferred := s.start.deferred ++ [.restore r] } }))

/-- The capture-time count advances by one millisecond and wraps (R30). The base tick that brings this about, with every other count of the part (00,
section 6): an input takes its level after 10 equal samples for LOS and 3 for PFW_N (R141, R185); a held engine's count begins at the first tick of
its prescaler setting after the grant and falls by one at each tick after it, the ticks being each base tick or each sixteenth, and none falls in
POWERDOWN (R103, R113); the silence timer of an UP link and the reply timer of a frame that is sent fall by one (R122, R130), as does the pacing timer
while the scrubber runs, set to 10 when it first does (R173; that the tick which finds it so counts none of them is the model's choice, log 99); a
hundred base ticks are a millisecond and a thousand a slow tick, at which each hold-off counter falls by one outside POWERDOWN (R30, R143, R153; that
the counters stand still in REBUILDING and UNCONFIGURED too while the POWERDOWN flag is set is the model's choice, log 71). A count that reaches its
end puts its command into the queue, and one that stands at its end puts it there anew (the model's choice, logs 70 and 79). That the tick is what an
empty queue does where nothing else is due, and the order of its parts, are the model's choice (log 6), as is that the pacing count stands while the
scrubber is stopped (log 55); frame lengths are free (log 9). -/
def Obligations.CaptureTimeAdvances : Prop :=
  (∀ s : State, Awake s →
    exec .captureTimeAdvance s = settled { fresh s with clock := { s.clock with ms := s.clock.ms + 1 } } ∧
    (s.clock.ms = 0xFFFFFFFF → s.clock.ms + 1 = 0)) ∧
  (∀ (n : Nat) (q : Qualifier),
    (q.level = some q.pin → q.tick n = ({ q with run := 0 }, false)) ∧
    (q.level ≠ some q.pin → (q.run + 1 < n → q.tick n = ({ q with run := q.run + 1 }, false)) ∧
      (n ≤ q.run + 1 → q.tick n = ({ q with run := 0 }, true)))) ∧
  (∀ (s : State) (d : Degree),
    let q := s.light.qual.get d
    let t : State := { s with light := { s.light with qual := s.light.qual.set d (q.tick 10).1 } }
    ((q.tick 10).2 = false → tickLos s d = t) ∧
    ((q.tick 10).2 = true → tickLos s d = { t with pending := s.pending ++
      [if q.level = none then .firstQualification d q.pin else if q.pin = true then .qualifiedLoss d else .qualifiedClear d] })) ∧
  (∀ s : State,
    let q := s.start.pfw
    let t : State := { s with start := { s.start with pfw := (q.tick 3).1 } }
    ((q.tick 3).2 = false → tickPfw s = t) ∧
    ((q.tick 3).2 = true →
      (q.pin = true → tickPfw s = { t with pending := s.pending ++ [.pfwAssertion] }) ∧
      (q.pin = false → q.level ≠ none → tickPfw s = { t with pending := s.pending ++ [.pfwDeassertion] }) ∧
      (q.pin = false → q.level = none → tickPfw s = { s with start := { s.start with pfw := { q with level := some false, run := 0 } } }))) ∧
  (∀ (x : Bool) (s : State) (e : EngineNo),
    let g := s.engine e
    let t : State := { s with ramp := { s.ramp with engines := s.ramp.engines.set e { g with count := g.count - 1 } } }
    (g.st = .free ∨ (g.prof.x16 = true ∧ x = false) → tickEngine x s e = s) ∧
    (g.st ≠ .free → g.prof.x16 = false ∨ x = true →
      (g.counting = false → tickEngine x s e = { s with ramp := { s.ramp with engines := s.ramp.engines.set e { g with counting := true } } }) ∧
      (g.counting = true → 1 < g.count → tickEngine x s e = t) ∧
      (g.counting = true → g.count ≤ 1 → tickEngine x s e = { t with pending := s.pending ++ [.intervalExpiry e] }))) ∧
  (∀ s : State,
    let t : State := { s with ramp := { s.ramp with presc := (s.ramp.presc + 1) % 16 } }
    (s.start.powerdown = true → tickRamp s = t) ∧
    (s.start.powerdown = false → tickRamp s = allEngines.foldl (tickEngine (decide ((s.ramp.presc + 1) % 16 = 0))) t)) ∧
  (∀ s : State,
    let t (n : Nat) : State := { s with mon := { s.mon with txLeft := s.mon.txLeft - 1, silence := n } }
    (s.mon.linkUp = false → tickMonitor s = t s.mon.silence) ∧
    (s.mon.linkUp = true → (1 < s.mon.silence → tickMonitor s = t (s.mon.silence - 1)) ∧
      (s.mon.silence ≤ 1 → tickMonitor s = { t 0 with pending := s.pending ++ [.silenceTimerExpiry] }))) ∧
  (∀ s : State, (s.act.txn = none → tickActuator s = s) ∧
    (∀ x, s.act.txn = some x →
      (0 < x.sendLeft → tickActuator s = { s with act := { s.act with txn := some { x with sendLeft := x.sendLeft - 1 } } }) ∧
      (x.sendLeft = 0 → 1 < x.timer → tickActuator s = { s with act := { s.act with txn := some { x with timer := x.timer - 1 } } }) ∧
      (x.sendLeft = 0 → x.timer ≤ 1 → tickActuator s = { s with
        act := { s.act with txn := some { x with timer := 0 } }, pending := s.pending ++ [.replyTimerExpiry] }))) ∧
  (∀ s : State,
    let t (n : Nat) : State := { s with integ := { s.integ with scrub := { s.integ.scrub with started := true, timer := n } } }
    (scrubRuns s = false → tickScrub s = s) ∧
    (scrubRuns s = true → (s.integ.scrub.started = false → tickScrub s = t 10) ∧
      (s.integ.scrub.started = true → (1 < s.integ.scrub.timer → tickScrub s = t (s.integ.scrub.timer - 1)) ∧
        (s.integ.scrub.timer ≤ 1 → tickScrub s = { t 0 with pending := s.pending ++ [.pacingTimerExpiry] })))) ∧
  (∀ (s : State) (d : Degree), (s.light.holdOff.get d = none → tickHoldOff s d = s) ∧
    (∀ n, s.light.holdOff.get d = some n →
      let t : State := { s with light := { s.light with holdOff := s.light.holdOff.set d (some (n - 1)) } }
      (1 < n → tickHoldOff s d = t) ∧ (n ≤ 1 → tickHoldOff s d = { t with pending := s.pending ++ [.holdOffExpiry d] }))) ∧
  (∀ s : State,
    let c (a b : Nat) : State := { s with clock := { s.clock with sub100 := a, slow := b } }
    let slow (t : State) : State := if s.start.powerdown then t else Degree.all.foldl tickHoldOff t
    (s.clock.sub100 < 99 → s.clock.slow < 999 → tickClock s = c (s.clock.sub100 + 1) (s.clock.slow + 1)) ∧
    (99 ≤ s.clock.sub100 → s.clock.slow < 999 →
      tickClock s = { c 0 (s.clock.slow + 1) with pending := s.pending ++ [.captureTimeAdvance] }) ∧
    (s.clock.sub100 < 99 → 999 ≤ s.clock.slow → tickClock s = slow (c (s.clock.sub100 + 1) 0)) ∧
    (99 ≤ s.clock.sub100 → 999 ≤ s.clock.slow →
      tickClock s = slow { c 0 0 with pending := s.pending ++ [.captureTimeAdvance] })) ∧
  (∀ s : State,
    baseTick s = tickClock (tickScrub (tickActuator (tickMonitor (tickRamp (tickPfw ([Degree.d1, .d2, .d3, .d4].foldl tickLos s)))))) ∧
    (s.start.inReset = true → idle s = s) ∧
    (s.start.inReset = false → ownEvent s = none → portNext s = none → idle s = baseTick s))

/-! ### The monitor link -/

/-- A SAMPLE frame that is not valid is discarded: one that is not whole, whose checksum or kind is wrong, or whose output point, slot or power is
out of range (R114). A valid one joins the Intake Queue, or in a full one replaces the newest entry with
OVERWRITTEN set (R118), and restarts the silence timer (R122); one that finds the link DOWN brings it UP, with MONITOR_LINK and the monitor
word (R123). -/
def Obligations.SamplesJoinTheIntake : Prop :=
  ∀ (s : State) (f : SampleFrame), Awake s →
    (sampleEntry f = none → exec (.sample f) s = settled (fresh s)) ∧
    (∀ i, sampleEntry f = some i →
      let l := if s.mon.intake.length < 4 then s.mon.intake ++ [i] else s.mon.intake.take 3 ++ [{ i with overwritten := true }]
      (s.mon.linkUp = true → exec (.sample f) s = settled
        { fresh s with mon := { s.mon with silence := 5000, intake := l } }) ∧
      (s.mon.linkUp = false → exec (.sample f) s = settled
        (raiseCause .monitorLink (requestStatus (.monitor true)
          { fresh s with mon := { s.mon with linkUp := true, silence := 5000, intake := l } })))) ∧
    (∀ (o : OutPoint) (n : Fin 64), f.point = some o → f.slot = n.val → f.whole = true → f.checksumOk = true → f.kindOk = true →
      -600 ≤ f.power → f.power ≤ 100 →
      sampleEntry f = some { seq := f.seq, point := o, slot := n, power := f.power, below := f.below, overwritten := false }) ∧
    (f.whole = false ∨ f.checksumOk = false ∨ f.kindOk = false ∨ f.point = none ∨ 64 ≤ f.slot ∨ f.power < -600 ∨ 100 < f.power →
      sampleEntry f = none)

/-- R120: a matched sample leaves its request, updates the cell, and is handed to the engine that asked, in this order. -/
def Obligations.MatchedSampleReachesItsEngine : Prop :=
  ∀ (s : State) (i : IntakeEntry) (rest : List IntakeEntry) (r : OutReq) (out : List OutReq), Awake s →
    s.mon.intake = i :: rest → i.overwritten = false → i.seq ≠ 0 → s.mon.stale.contains i.seq = false →
    s.mon.out = r :: out → r.seq = i.seq → r.point = i.point → r.slot = i.slot →
    let t := { fresh s with mon := { s.mon with intake := rest, out := out }
                            power := takeValue i.point i.slot (if i.below then -600 else i.power) s.power }
    (r.asker = none → exec .intakeQueueTake s = settled t) ∧
    (∀ a, r.asker = some a → (s.engine a.engine).st ≠ .free → (s.engine a.engine).grant = a.grant →
      (s.engine a.engine).samp = .outstanding →
      let g : Engine := { s.engine a.engine with samp := .arrived, sample := some (if i.below then -600 else i.power) }
      exec .intakeQueueTake s = settled { t with ramp := { s.ramp with engines := s.ramp.engines.set a.engine g } })

/-- The other judgements of the Intake Queue's head (R119, R121): a background sample updates its cell alone; a stale one is discarded and its
number freed; one that does not match the oldest request is a slip, and so is an overwritten entry met with requests outstanding, whose own
sample the cell takes unless it is stale. A slip gives up every request into the stale set, tells each engine that asked that its request is lost,
and empties the intake. -/
def Obligations.OtherSamplesAreJudged : Prop :=
  ∀ (s : State) (i : IntakeEntry) (rest : List IntakeEntry), Awake s → s.mon.intake = i :: rest →
    let slipped (t : State) : Prop := exec .intakeQueueTake s = settled t ∧ t.mon.out = [] ∧ t.mon.intake = [] ∧
      t.mon.send = s.mon.send ∧
      (∀ x ∈ s.mon.out, ∀ a, x.asker = some a → (s.engine a.engine).st ≠ .free → (s.engine a.engine).grant = a.grant →
        (s.engine a.engine).samp = .outstanding → (t.engine a.engine).samp = .lost)
    (i.overwritten = false ∨ s.mon.out = [] →
      (i.seq = 0 → exec .intakeQueueTake s = settled
        { fresh s with mon := { s.mon with intake := rest }, power := takeValue i.point i.slot i.value s.power }) ∧
      (i.seq ≠ 0 → s.mon.stale.contains i.seq = true → exec .intakeQueueTake s = settled
        { fresh s with mon := { s.mon with intake := rest, stale := s.mon.stale.filter (fun x => x ≠ i.seq) } }) ∧
      (i.seq ≠ 0 → s.mon.stale.contains i.seq = false →
        (s.mon.out = [] ∨ ∃ r out, s.mon.out = r :: out ∧ (r.seq ≠ i.seq ∨ r.point ≠ i.point ∨ r.slot ≠ i.slot)) →
        ∃ t, slipped t ∧ t.power = s.power ∧ (∀ x, x ∈ t.mon.stale ↔ x ∈ s.mon.stale ∨ ∃ y ∈ s.mon.out, y.seq = x))) ∧
    (i.overwritten = true → s.mon.out ≠ [] → ∃ t, slipped t ∧
      t.power = (if s.mon.stale.contains i.seq then s.power else takeValue i.point i.slot i.value s.power) ∧
      (∀ x, x ∈ t.mon.stale ↔ (x ∈ s.mon.stale ∧ x ≠ i.seq) ∨ ∃ y ∈ s.mon.out, y.seq = x))

/-- The expiry of the silence timer at zero brings an UP link DOWN: every outstanding request is given up into the stale set, each engine that
asked is told that its request is lost, the send list and the intake are kept, and MONITOR_LINK is raised (R122); a DOWN link, and a timer that is not
at zero, is left alone (the model's choice, logs 7 and 8). -/
def Obligations.SilenceBringsTheLinkDown : Prop :=
  ∀ s : State, Awake s →
    (s.mon.linkUp = false ∨ s.mon.silence ≠ 0 → exec .silenceTimerExpiry s = settled (fresh s)) ∧
    (s.mon.linkUp = true → s.mon.silence = 0 → ∃ t, exec .silenceTimerExpiry s = settled t ∧ t.mon.linkUp = false ∧ t.mon.out = [] ∧
      t.mon.send = s.mon.send ∧ t.mon.intake = s.mon.intake ∧ hasCause t.attn.pending .monitorLink = true ∧
      (∀ x, x ∈ t.mon.stale ↔ x ∈ s.mon.stale ∨ ∃ y ∈ s.mon.out, y.seq = x) ∧
      (∀ x ∈ s.mon.out, ∀ a, x.asker = some a → (s.engine a.engine).st ≠ .free → (s.engine a.engine).grant = a.grant →
        (s.engine a.engine).samp = .outstanding → (t.engine a.engine).samp = .lost) ∧
      (s.win.map.isSome = true → PortReq.monitor false ∈ t.port))

/-- A MEASURE is sent while none is in transmission, the send list is not empty and the POWERDOWN flag is clear, and one that is not due does nothing
(log 7). It takes the head of the send list and a sequence number: the first, from the next-sequence counter on, that no outstanding request holds, 0
being skipped; the number leaves the stale set, and the counter stands behind it. A full list first gives up its oldest orphan (R115, R116). -/
def Obligations.MeasureSendsTheHeadRequest : Prop :=
  (∀ s : State, (measureDue s = true ↔ s.mon.txLeft = 0 ∧ s.mon.send ≠ [] ∧ s.start.powerdown = false) ∧
    (Awake s → measureDue s = false → exec .measure s = settled (fresh s))) ∧
  (∀ q : BitVec 8, nextSequence q = (if q = 255 then 1 else q + 1) ∧ nextSequence q ≠ 0) ∧
  (∀ (s : State) (r : SendReq) (rest : List SendReq), Awake s → measureDue s = true → s.mon.send = r :: rest →
    let first (out : List OutReq) (q : BitVec 8) : Prop := ∃ k, k < 256 ∧ q = nextSequence^[k] s.mon.nextSeq ∧
      (∀ j, j < k → ∃ x ∈ out, x.seq = nextSequence^[j] s.mon.nextSeq) ∧ (∀ x ∈ out, x.seq ≠ q)
    (∀ q, s.mon.out.length < 12 → first s.mon.out q →
      exec .measure s = settled { fresh s with mon := { s.mon with
        send := rest
        out := s.mon.out ++ [{ seq := q, point := r.point, slot := r.slot, asker := some r.asker }]
        nextSeq := nextSequence q
        stale := s.mon.stale.filter (fun x => x ≠ q)
        txLeft := Config.measureFrameTicks } }) ∧
    (∀ o q, 12 ≤ s.mon.out.length → s.mon.out.find? (fun x => x.asker.isNone) = some o → first (s.mon.out.erase o) q →
      ∃ t, exec .measure s = settled t ∧ t.mon.send = rest ∧ t.mon.nextSeq = nextSequence q ∧
        t.mon.out = s.mon.out.erase o ++ [{ seq := q, point := r.point, slot := r.slot, asker := some r.asker }] ∧
        (o.seq ≠ q → o.seq ∈ t.mon.stale)))

/-- The average of a cell is the sum of its values divided by their number, the quotient rounded toward zero, and none for a cell with no value; a
cell takes a new value behind at most three older ones (R124). A value taken goes into the cell of its output point and slot and into no other; a
range cleared leaves its cells without a value and every other cell as it was (R125). -/
def Obligations.PowerAverageRoundsTowardZero : Prop :=
  averageOf [] = none ∧
  (∀ (v : Int) (l : List Int), ∃ q, averageOf (v :: l) = some q ∧
    |q * ((v :: l).length : Int)| ≤ |(v :: l).sum| ∧ |(v :: l).sum - q * ((v :: l).length : Int)| < ((v :: l).length : Int)) ∧
  (∀ (l : List Int) (v : Int), l.length ≤ 4 → pushValue l v = (l ++ [v]).drop (l.length + 1 - 4)) ∧
  (∀ (s : State) (o : OutPoint) (n : Slot), powerAverage s o n = averageOf (cellValues s.power o n)) ∧
  (∀ (t : List PowerCell) (o x : OutPoint) (n m : Slot) (v : Int), cellValues (takeValue o n v t) x m =
    if x = o ∧ m = n then pushValue (cellValues t o n) v else cellValues t x m) ∧
  (∀ (s : State) (o x : OutPoint) (a k : Nat) (n : Slot),
    clearCells o a k s = { s with power := (clearCells o a k s).power } ∧
    cellValues (clearCells o a k s).power x n = (if x = o ∧ a ≤ n.val ∧ n.val < a + k then [] else cellValues s.power x n))

/-! ### The actuator link and the ramp engines -/

/-- A transaction begins with the oldest urgent frame that may be sent, or else the oldest ordinary one that may, its values from the image where they
are not yet fixed, at its first attempt (R128, R130, R132). An urgent frame may be sent outside REBUILDING, in POWERDOWN a squelch burst alone; an
ordinary one outside POWERDOWN and with no refresh pass in progress, to a module that is ONLINE and outside REBUILDING, but for a READ of rebuild,
which needs neither (R132, R137, R138, R139, R178). An ordinary command handed over is refused by a FAULTED module, a READ of rebuild excepted; it
takes a place at the tail where fewer than 24 are held and none waits, and otherwise joins the place wait list, an engine's command state being
waiting then; a freed place goes to the head of that list (R133, R138). With its place a CONNECT's path is CONNECTING, a DISCONNECT's RELEASING, and
an engine's command is unanswered (R43, R45, R105). The values taken from the image are, slot by slot, the input and the attenuation of the path that
owns the output point's entry, where its route is at its source, and in every other case the fill (R39): BLOCK at a group, and at a degree IDLER at
its idler attenuation or BLOCK, by the anchor read last (R40). No image stands before the first valid anchor, nor while a rebuild is before REWRITE
(R140; log 68, DESIGN CHOICE). -/
def Obligations.TransactionBeginsInOrder : Prop :=
  (∀ (s : State) (c : ActCmd),
    (urgentMaySend s c = true ↔ s.seqr.st ≠ .rebuilding ∧ (s.start.powerdown = false ∨ c.req = .squelch)) ∧
    (ordinaryMaySend s c = true ↔ s.start.powerdown = false ∧ s.act.refresh = none ∧
      (c.kind = .read ∨ (s.act.mods.get c.module = .online ∧ s.seqr.st ≠ .rebuilding)))) ∧
  (∀ (s : State) (c : ActCmd),
    (s.act.mods.get c.module = .faulted → c.kind ≠ .read → handOrdinary c s = none) ∧
    (s.act.mods.get c.module ≠ .faulted ∨ c.kind = .read →
      (s.act.ordinary.length < 24 → s.act.wait = [] → handOrdinary c s = some (queueOrdinary c s)) ∧
      (24 ≤ s.act.ordinary.length ∨ s.act.wait ≠ [] →
        let t : State := { s with act := { s.act with wait := s.act.wait ++ [c] } }
        (∀ e g o, c.req = .engine e g o → handOrdinary c s = some { t with
          ramp := { s.ramp with engines := s.ramp.engines.set e { s.engine e with cmd := .waiting } } }) ∧
        ((∀ e g o, c.req ≠ .engine e g o) → handOrdinary c s = some t)))) ∧
  (∀ s : State, (s.act.wait = [] → placeWaiting s = none) ∧
    (∀ c rest, s.act.wait = c :: rest →
      (24 ≤ s.act.ordinary.length → placeWaiting s = none) ∧
      (s.act.ordinary.length < 24 → placeWaiting s = some (queueOrdinary c { s with act := { s.act with wait := rest } })))) ∧
  (∀ (s : State) (c : ActCmd),
    let t : State := { s with act := { s.act with ordinary := s.act.ordinary ++ [c] } }
    (∀ r pid, c.req = .entry r pid .connect ∨ c.req = .restore r pid .connect →
      queueOrdinary c s = updatePath pid (fun p => { p with st := .connecting }) t) ∧
    (∀ r pid u, c.req = .entry r pid u ∨ c.req = .restore r pid u → u ≠ .connect →
      queueOrdinary c s = updatePath pid (fun p => { p with st := .releasing }) t) ∧
    (∀ e g o, c.req = .engine e g o →
      ((s.engine e).st ≠ .free → (s.engine e).grant = g → queueOrdinary c s = { t with
        ramp := { s.ramp with engines := s.ramp.engines.set e { s.engine e with cmd := .unanswered } } }) ∧
      ((s.engine e).st = .free ∨ (s.engine e).grant ≠ g → queueOrdinary c s = t)) ∧
    (c.req = .squelch ∨ c.req = .refresh ∨ c.req = .fillChange ∨ c.req = .readback ∨ (∃ pid, c.req = .gone pid) → queueOrdinary c s = t)) ∧
  (∀ (s : State) (c : ActCmd), (c.built = true → buildFrame s c = c) ∧
    (c.built = false → buildFrame s c = { c with built := true, vals := (buildFrame s c).vals } ∧ (buildFrame s c).vals.length = c.count ∧
      ∀ (i : Nat) (n : Slot), i < c.count → c.start + i = n.val → (buildFrame s c).vals[i]? = some (s.setting c.module n))) ∧
  (∀ (s : State) (o : OutPoint) (n : Slot),
    (∀ x p, s.table.entry (.out o n) = some x → s.path? x.owner = some p → p.route = .source →
      s.setting o n = { input := p.src.input, att := p.att }) ∧
    (∀ x p, s.table.entry (.out o n) = some x → s.path? x.owner = some p → p.route = .fill → s.setting o n = fillOf s.win.cfg o) ∧
    (s.table.entry (.out o n) = none → s.setting o n = fillOf s.win.cfg o) ∧
    (s.hasImage = true ↔ s.win.cfg ≠ none ∧ (s.start.stage = .none ∨ s.start.stage = .rewrite ∨ s.start.stage = .compare)) ∧
    (s.hasImage = true → s.image o n = some (s.setting o n)) ∧ (s.hasImage = false → s.image o n = none)) ∧
  (∀ (c : AnchorCfg) (d : Degree) (g : Group),
    fillOf (some c) (.grp g) = { input := .block, att := .block } ∧
    (c.fill.get d = true → fillOf (some c) (.deg d) = { input := .idler, att := .db (c.idler.get d) }) ∧
    (c.fill.get d = false → fillOf (some c) (.deg d) = { input := .block, att := .block })) ∧
  ∀ s : State, Awake s → s.act.txn = none →
    (∀ c, s.act.urgent.find? (urgentMaySend s) = some c → exec .transactionBegin s = settled { fresh s with act :=
      { s.act with urgent := s.act.urgent.erase c, txn := some { cmd := buildFrame s c, attempt := 1
                                                                 sendLeft := Config.actFrameTicks c.kind c.count, timer := 200 } } }) ∧
    (∀ c, s.act.urgent.find? (urgentMaySend s) = none → s.act.ordinary.find? (ordinaryMaySend s) = some c →
      exec .transactionBegin s = settled { fresh s with act :=
        { s.act with ordinary := s.act.ordinary.erase c, txn := some { cmd := buildFrame s c, attempt := 1
                                                                       sendLeft := Config.actFrameTicks c.kind c.count, timer := 200 } } }) ∧
    (s.act.urgent.find? (urgentMaySend s) = none → s.act.ordinary.find? (ordinaryMaySend s) = none →
      exec .transactionBegin s = settled (fresh s))

/-- An accepted ACK to a ROUTE clears the cells of its range (R125, R131). For a squelch, and for a re-read's change of fill (R184), nothing else
follows; for a refresh the module's ATTEN burst is queued (R137); the ROUTE of a CONNECT routes its path at BLOCK unless the path is squelched
meanwhile (R43, R50), and an entry or a restore that stands on that step goes on (that a restore's RAMP_UP request joins the list in POWERDOWN too is
the model's choice, log 80). A ROUTE whose restore was stopped meanwhile sets its path's attenuation alone, whatever restore is begun on it by then
(R50, R131). The ROUTE of a DISCONNECT removes the path (R45, R46), a RESTORE's and a restore's keeping it SQUELCHED. A path removed passes each entry
it owned to the path pledged there, or frees it, and gives up the pledges it held. An entry whose DISCONNECT is over finishes: a rollback FAILED, a
reversal ABANDONED, a REMOVE DONE; a MOVE's old half goes on to WAITING with its cursor on the new half, but with its void mark set it is FAILED with
the code reported, in CANCELLING too (R84, R86, R89, R165; log 47, DEDUCED), and without it in CANCELLING it is CANCELLED (R93). -/
def Obligations.RouteAckRoutesThePath : Prop :=
  (∀ (s : State) (x : Txn) (h : ReplyHead), Awake s → s.act.txn = some x → h.checksumOk = true → h.module = x.cmd.module → x.sendLeft = 0 →
    x.cmd.kind = .route →
    let t := clearCells x.cmd.module x.cmd.start x.cmd.count { fresh s with act := { s.act with txn := none } }
    let u := fun pid => { t with table := s.table.update pid (fun p =>
      if (p.squelched || decide (p.st = .squelched)) && !p.rerouting then { p with att := .block }
      else { p with route := .source, att := .block, squelched := false, rerouting := false }) }
    let kept := fun pid => { t with table := s.table.update pid (fun p =>
      { p with st := .squelched, route := .fill, squelched := false, rerouting := false, att := ((x.cmd.vals.head?).map (·.att)).getD .block }) }
    (x.cmd.req = .squelch ∨ x.cmd.req = .fillChange → exec (.routeAck h) s = settled t) ∧
    (x.cmd.req = .refresh → exec (.routeAck h) s = settled (refreshBurst x.cmd.module .atten t)) ∧
    (∀ pid, x.cmd.req = .gone pid → exec (.routeAck h) s = settled { t with
      table := s.table.update pid (fun p => { p with att := ((x.cmd.vals.head?).map (·.att)).getD .block }) }) ∧
    (∀ r pid p, x.cmd.req = .entry r pid .connect → s.path? pid = some p →
      exec (.routeAck h) s = settled (if standsOn (u pid) r pid .connect then stepDone r (u pid) else u pid)) ∧
    (∀ r pid k, x.cmd.req = .entry r pid k → s.path? pid = none → exec (.routeAck h) s = settled t) ∧
    (∀ r pid p, x.cmd.req = .entry r pid .disconnect → s.path? pid = some p → standsOn s r pid .disconnect = true →
      exec (.routeAck h) s = settled (disconnected r { t with table := s.table.remove pid })) ∧
    (∀ r pid p, x.cmd.req = .entry r pid .disconnectKeep → s.path? pid = some p → standsOn s r pid .disconnect = true →
      exec (.routeAck h) s = settled (disconnected r (kept pid))) ∧
    (∀ r pid p y, x.cmd.req = .restore r pid .connect → (u pid).path? pid = some p → s.restore? r = some y → y.pid = pid → y.step = .connect →
      exec (.routeAck h) s = settled (presentRequest r true p .rampUp (setRestoreStep r .rampUp (u pid)))) ∧
    (∀ r pid y, x.cmd.req = .restore r pid .disconnectKeep → s.restore? r = some y → y.pid = pid → y.step = .disconnect →
      exec (.routeAck h) s = settled (endRestore r (kept pid)))) ∧
  (∀ (t : ConnTable) (pid : Nat), (∀ p, p ∈ (t.remove pid).paths ↔ p ∈ t.paths ∧ p.pid ≠ pid) ∧
    ((t.occ.map (·.res)).Nodup → ∀ x o, t.entry x = some o → (t.remove pid).entry x =
      (if o.owner = pid then o.pledge.map (fun q => { o with owner := q, pledge := none })
       else if o.pledge = some pid then some { o with pledge := none } else some o))) ∧
  (∀ (s : State) (r : RecNo) (e : Entry), s.entry? r = some e →
    (e.reversing = true → disconnected r s = finishEntry r .abandoned false s) ∧
    (e.reversing = false → e.st = .rollingBack → disconnected r s = finishEntry r .failed false s) ∧
    (e.reversing = false → e.st ≠ .rollingBack →
      (e.kind ≠ .move → disconnected r s = finishEntry r .done false s) ∧
      (∀ c, e.kind = .move → e.void = some c → disconnected r s = finishEntry r .failed false (takeCode r c s)) ∧
      (e.kind = .move → e.void = none → s.seqr.st = .cancelling → disconnected r s = finishEntry r .cancelled false s) ∧
      (e.kind = .move → e.void = none → s.seqr.st ≠ .cancelling →
        disconnected r s = updateEntry r (fun e => { e with st := .waiting, half := .new, chain := [] }) s)))

/-- An accepted ACK to an engine's ATTEN sets the path's attenuation whatever its route, and the engine, if it still holds the grant and wants
samples, asks for one (R105, R131; that in POWERDOWN too the request joins the send list at the acknowledge, and a restore's DISCONNECT the ordinary
queue, is read from R113, logs 51 and 63, DEDUCED); a RAMP_DOWN or a rollback that has reached 250 frees its engine and its requester's DISCONNECT
follows, and below 250 waits for the next expiry (R110, R111); a requester that has gone is told nothing. An accepted ACK to the ATTEN of a re-read's
change of fill ends its transaction and does nothing else (R131, R184). An accepted ACK to a refresh ATTEN makes the module ONLINE and the pass goes
on (R137). One to a refresh PING makes the module REFRESHING, the module word is written, and an urgent ROUTE over slots 0 to 63 is queued (R135,
R137). -/
def Obligations.AttenAndPingAcksAreHandedOn : Prop :=
  (∀ (s : State) (x : Txn) (h : ReplyHead) (e : EngineNo) (g : Nat) (o : EngOwner) (v : SlotSetting) (l : List SlotSetting), Awake s →
      s.act.txn = some x → h.checksumOk = true → h.module = x.cmd.module → x.sendLeft = 0 → x.cmd.kind = .atten → x.cmd.req = .engine e g o →
      x.cmd.vals = v :: l →
      let t := { fresh s with act := { s.act with txn := none }, table := s.table.update o.pid (fun p => { p with att := v.att }) }
      let u := { t with ramp := { s.ramp with engines := s.ramp.engines.set e ({ s.engine e with cmd := .none } : Engine) } }
      ((s.engine e).st = .free ∨ (s.engine e).grant ≠ g → exec (.attenAck h) s = settled t) ∧
      (∀ p, (s.engine e).st ≠ .free → (s.engine e).grant = g → (s.engine e).cmd = .unanswered → (s.engine e).owner = some o →
        s.path? o.pid = some p →
        ((s.engine e).kind.wantsSample = true → exec (.attenAck h) s = settled
          { t with
            ramp := { s.ramp with engines := s.ramp.engines.set e ({ s.engine e with cmd := .none, samp := .outstanding, sample := none } : Engine) }
            mon := { s.mon with send := s.mon.send ++ [{ asker := { engine := e, grant := g }, point := p.dst.out, slot := p.slot }] } }) ∧
        ((s.engine e).kind = .rampDown ∨ (s.engine e).kind = .returning →
          (v.att = .db 250 ∨ v.att = .block → exec (.attenAck h) s = settled (dimmed o (freeEngine e u))) ∧
          (v.att ≠ .db 250 → v.att ≠ .block → exec (.attenAck h) s = settled u)))) ∧
  (∀ (o : EngOwner) (s : State), (o.restore = false → dimmed o s = stepDone o.no s) ∧
    (∀ x p, o.restore = true → s.restore? o.no = some x → s.path? o.pid = some p → dimmed o s = restoreDisconnect x p s)) ∧
  (∀ (s : State) (x : Txn) (h : ReplyHead), Awake s → s.act.txn = some x → h.checksumOk = true → h.module = x.cmd.module → x.sendLeft = 0 →
      (x.cmd.kind = .atten → x.cmd.req = .refresh → exec (.attenAck h) s = settled
        (nextRefresh (setModule x.cmd.module .online { fresh s with act := { s.act with txn := none } }))) ∧
      (x.cmd.kind = .atten → x.cmd.req = .fillChange → exec (.attenAck h) s = settled { fresh s with act := { s.act with txn := none } }) ∧
      (x.cmd.kind = .ping → s.act.mods.get x.cmd.module = .faulted → s.win.map.isSome = true →
      exec (.pingAck h) s = settled { fresh s with
        port := s.port ++ [.modules]
        act := { s.act with
          txn := none, mods := s.act.mods.set x.cmd.module .refreshing
          urgent := s.act.urgent ++ [{ module := x.cmd.module, kind := .route, start := 0, count := 64, vals := [], built := false
                                       req := .refresh }] } }))

/-- A DATA reply with the settings of a READ hands the readback over (R131, R138): the module is ONLINE, and after the sixth module adoption begins. A
DATA that cannot stand, or that answers another frame than a READ, counts as a NAK, whose retry at a first attempt is sent in every sequencer state
(in REBUILDING by log 95, DEDUCED). -/
def Obligations.DataHandsTheReadbackOver : Prop :=
  ∀ (s : State) (x : Txn) (h : ReplyHead) (l : List SlotSetting), Awake s → s.act.txn = some x → h.checksumOk = true →
    h.module = x.cmd.module → x.sendLeft = 0 →
    (x.cmd.kind = .read → l.length = x.cmd.count → l.all (settingOk x.cmd.module) = true →
      let t := { setModule x.cmd.module .online { fresh s with act := { s.act with txn := none } } with
                 start := { s.start with readback := s.start.readback.set x.cmd.module (.given l) } }
      exec (.data h l) s = settled
        (if s.start.stage = .readback ∧ ∀ o ∈ OutPoint.all, t.start.readback.get o ≠ .unread then startAdoption t else t)) ∧
    (x.cmd.kind ≠ .read ∨ l.length ≠ x.cmd.count ∨ l.all (settingOk x.cmd.module) = false → x.attempt < 2 →
      exec (.data h l) s = settled { fresh s with act :=
        { s.act with txn := some { cmd := x.cmd, attempt := 2, sendLeft := Config.actFrameTicks x.cmd.kind x.cmd.count, timer := 200 } } })

/-- A NAK, an ACK to a READ, a DATA that cannot stand or that answers another frame than a READ, or the reply timer's expiry at zero in an attempt
that is sent, ends the attempt (R130): the first is followed at once by the retry, a ROUTE's or ATTEN's in REBUILDING too (log 95, DEDUCED), and the
second fails the transaction, which makes the module FAULTED and asks for its capture outside UNCONFIGURED and REBUILDING (R135, R136). With the
transaction go the module's ordinary commands, those on the place wait list included, and its squelch burst; the failing frame's requester is told
FAIL_MODULE, then those of the commands removed in their order: a batch entry that stands on the step, a restore of that path, an engine that still
holds the grant, its command answered (one stopped since is told nothing, nor is its entry: R112, R131; log 104, DEDUCED); then the module word is
written (R136). A reply with a bad checksum, another module's number, or that comes before the attempt's last bit is discarded (R128, R130), and an
expiry whose timer is not at zero does nothing (the model's choice, log 8), nor does an ACK's row while a frame of another kind but a READ is in
transmission (log 7). -/
def Obligations.MissedAttemptsRetryThenFault : Prop :=
  ∀ (s : State) (x : Txn) (h : ReplyHead), Awake s → s.act.txn = some x →
    let judged : Prop := h.checksumOk = true ∧ h.module = x.cmd.module ∧ x.sendLeft = 0
    let refused (c : Instr) : Prop := c = .nak h ∨ ((c = .routeAck h ∨ c = .attenAck h ∨ c = .pingAck h) ∧ x.cmd.kind = .read) ∨
      ∃ l, c = .data h l ∧ (x.cmd.kind ≠ .read ∨ l.length ≠ x.cmd.count ∨ l.all (settingOk x.cmd.module) = false)
    (∀ c : Instr, (judged ∧ refused c) ∨ (c = .replyTimerExpiry ∧ x.sendLeft = 0 ∧ x.timer = 0) →
      (x.attempt < 2 → exec c s = settled { fresh s with act :=
        { s.act with txn := some { cmd := x.cmd, attempt := 2, sendLeft := Config.actFrameTicks x.cmd.kind x.cmd.count, timer := 200 } } }) ∧
      (2 ≤ x.attempt → ∃ t, exec c s = settled t ∧ t.act.mods.get x.cmd.module = .faulted ∧ t.act.txn = none ∧
        (s.seqr.st ≠ .unconfigured → s.seqr.st ≠ .rebuilding → WorkItem.capture (.module x.cmd.module) ∈ t.intr.work)) ∧
      (2 ≤ x.attempt → s.act.mods.get x.cmd.module ≠ .faulted → s.act.refresh = none →
        (∀ y ∈ x.cmd :: s.act.ordinary ++ s.act.wait, y.req ≠ .readback) →
        let o := x.cmd.module
        let gone := s.act.ordinary.filter (fun y => y.module = o) ++ s.act.wait.filter (fun y => y.module = o)
        let u : State := { fresh s with act := { s.act with
          txn := none, mods := s.act.mods.set o .faulted
          ordinary := s.act.ordinary.filter (fun y => y.module ≠ o)
          wait := s.act.wait.filter (fun y => y.module ≠ o)
          urgent := s.act.urgent.filter (fun y => y.module ≠ o) } }
        let v := requestStatus .modules (gone.foldl (fun s y => commandFailed y s) (commandFailed x.cmd u))
        (faultCaptures v = true → v.act.refresh = none → exec c s = settled (requestCapture (.module o) v)) ∧
        (faultCaptures v = false → v.act.refresh = none → exec c s = settled v))) ∧
    (∀ y : ActCmd,
      (∀ r pid use, y.req = .entry r pid use → standsOn s r pid (if use = .connect then .connect else .disconnect) = true →
        commandFailed y s = stepFailed r .module s) ∧
      (∀ r pid use, y.req = .entry r pid use → standsOn s r pid (if use = .connect then .connect else .disconnect) = false → commandFailed y s = s) ∧
      (∀ r pid use z, y.req = .restore r pid use → s.restore? r = some z → z.pid = pid → commandFailed y s = restoreFailed r s) ∧
      (∀ e g o, y.req = .engine e g o →
        ((s.engine e).st ≠ .free → (s.engine e).grant = g → commandFailed y s = engineFails o .module { s with
          ramp := { s.ramp with engines := s.ramp.engines.set e { s.engine e with cmd := .none } } }) ∧
        ((s.engine e).st = .free ∨ (s.engine e).grant ≠ g → commandFailed y s = s)) ∧
      (y.req = .squelch ∨ y.req = .refresh ∨ y.req = .fillChange ∨ y.req = .readback ∨ (∃ pid, y.req = .gone pid) → commandFailed y s = s)) ∧
    (∀ (k : FrameKind) (c : Instr), (k, c) ∈ [(FrameKind.route, Instr.routeAck h), (.atten, .attenAck h), (.ping, .pingAck h)] →
      judged → x.cmd.kind ≠ k → x.cmd.kind ≠ .read → exec c s = settled (fresh s)) ∧
    (∀ (c : Instr) (l : List SlotSetting), c = .routeAck h ∨ c = .attenAck h ∨ c = .pingAck h ∨ c = .nak h ∨ c = .data h l →
      h.checksumOk = false ∨ h.module ≠ x.cmd.module ∨ x.sendLeft ≠ 0 → exec c s = settled (fresh s)) ∧
    (x.sendLeft ≠ 0 ∨ x.timer ≠ 0 → exec .replyTimerExpiry s = settled (fresh s))

/-- An expiry that finds the engine's ATTEN waiting for a place takes no step and counts no miss; one that finds it unanswered, or its sample
outstanding, counts a miss for a step that wants samples and none for one that does not; the count is reloaded (R103, R104). A lost sample is asked
for again, and the third miss fails the step FAIL_MONITOR_TIMEOUT. An expiry of a FREE engine, of a count that is not at zero, or in POWERDOWN does
nothing (the model's choice, logs 7, 8 and 79). -/
def Obligations.UnreadyExpiriesCountMisses : Prop :=
  (∀ (s : State) (e : EngineNo) (o : EngOwner) (p : Path), Awake s → EngineServes s e o p → (s.engine e).st ≠ .armed →
    let g := s.engine e
    let set (x : Engine) : Host.Outcome State Fault Refusal :=
      settled { fresh s with ramp := { s.ramp with engines := s.ramp.engines.set e x.reload } }
    (g.cmd = .waiting → exec (.intervalExpiry e) s = set g) ∧
    (g.kind.wantsSample = true → g.cmd = .unanswered ∨ (g.cmd = .none ∧ g.samp = .outstanding) → g.samp ≠ .lost → g.miss < 2 →
      exec (.intervalExpiry e) s = set { g with miss := g.miss + 1 }) ∧
    (g.kind.wantsSample = true → g.cmd = .none → g.samp = .lost → g.miss < 2 →
      exec (.intervalExpiry e) s = settled { fresh s with
        ramp := { s.ramp with
            engines :=
          s.ramp.engines.set e ({ g with miss := g.miss + 1, samp := .outstanding, sample := none } : Engine).reload }
        mon := { s.mon with send := s.mon.send ++ [{ asker := { engine := e, grant := g.grant }, point := p.dst.out, slot := p.slot }] } }) ∧
    (g.kind.wantsSample = true → g.cmd = .unanswered ∨ (g.cmd = .none ∧ (g.samp = .outstanding ∨ g.samp = .lost)) → 2 ≤ g.miss →
      expiryDecision e s = engineFails o .monitorTimeout
        { s with ramp := { s.ramp with engines := s.ramp.engines.set e ({ g with miss := g.miss + 1 } : Engine) } }) ∧
    (g.kind.wantsSample = false → g.cmd = .unanswered → exec (.intervalExpiry e) s = set g)) ∧
  (∀ (s : State) (e : EngineNo), Awake s → (s.engine e).st = .free ∨ (s.engine e).count ≠ 0 ∨ s.start.powerdown = true →
    exec (.intervalExpiry e) s = settled (fresh s))

/-- A request presented joins the tail of the Engine Wait List unless one of its path waits already, with the path, the step kind, whether it starts
at an attenuation held, the output point and the values of the path's profile as the cache holds them: of its pending profile where it has one, but of
its own for a RAMP_DOWN (R100). A grant gives the lowest-numbered FREE engine to the oldest request that is eligible: one whose output point is a
group, or a degree that holds fewer engines than the ramp budget (R101); none is made in POWERDOWN (R113). The engine takes the request's values with
its count at the interval load and the path becomes RAMPING (R99, R102); a RAMP_DOWN or RETURNING of a path at 250 or BLOCK is over at once (R110,
R111). The first expiry of a RAMP_UP from the start attenuation sets it with one ATTEN, that of a RAMP_UP from the held attenuation and of a
RAMP_RETUNE asks for a sample and sends no command (R106, R107), and the first expiry of a RAMP_DOWN and every ready one of a RAMP_DOWN or a RETURNING
raises the attenuation by one down step to at most 250, and at 250 or BLOCK frees the engine, the requester being told (R110, R111); the command takes
a free place of an ONLINE module's queue. That a start attenuation above 250 is taken as 250 is the model's choice (log 52). A freed engine is FREE
with every field cleared, its path's engine field is none (R98, R99), and its sample request is given up: one not sent is withdrawn, one sent stays
outstanding without an asker (R117); an engine that enters RETURNING gives its request up in the same way, its kind is RETURNING, its direction and
expected power are cleared, and no sample is wanted (R111). -/
def Obligations.RampExpiriesSendOneCommand : Prop :=
  (∀ (s : State) (r : RecNo) (x : Bool) (p : Path) (k : RampKind),
    let own : Fin 8 := match p.info with | some i => i.profile | none => 0
    let joined (n : Fin 8) : State := { s with ramp := { s.ramp with wait := s.ramp.wait ++
      [{ owner := { pid := p.pid, no := r, restore := x }, kind := k, fromHeld := decide (p.att ≠ .block), out := p.dst.out, prof := s.profiles[n] }] } }
    ((∃ y ∈ s.ramp.wait, y.owner.pid = p.pid) → presentRequest r x p k s = s) ∧
    ((∀ y ∈ s.ramp.wait, y.owner.pid ≠ p.pid) →
      (k = .rampDown ∨ p.pend = none → presentRequest r x p k s = joined own) ∧
      (∀ q, k ≠ .rampDown → p.pend = some q → presentRequest r x p k s = joined q.profile))) ∧
  (∀ (s : State) (e : EngineNo) (o : EngOwner) (p : Path), Awake s → EngineServes s e o p →
    s.act.ordinary.length < 24 → s.act.wait = [] → s.act.mods.get p.dst.out = .online →
    let g := s.engine e
    let send (a : Nat) (x : Engine) : Host.Outcome State Fault Refusal :=
      settled { fresh s with
        act := { s.act with ordinary := s.act.ordinary ++ [engineAtten e g o p a] }
        ramp := { s.ramp with engines := s.ramp.engines.set e ({ x with cmd := .unanswered } : Engine).reload } }
    (g.st = .armed → g.kind = .rampUp → g.fromHeld = false → p.att ≠ .db (min 250 g.prof.start) →
      exec (.intervalExpiry e) s = send (min 250 g.prof.start) { g with st := .stepping }) ∧
    (∀ a, g.st = .stepping → g.kind = .rampDown → g.cmd = .none → p.att = .db a → a < 250 → 0 < g.prof.down →
      exec (.intervalExpiry e) s = send (min 250 (a + g.prof.down)) { g with miss := 0 }) ∧
    (∀ a, g.st = .armed → g.kind = .rampDown → p.att = .db a → a < 250 → 0 < g.prof.down →
      exec (.intervalExpiry e) s = send (min 250 (a + g.prof.down)) { g with st := .stepping }) ∧
    (∀ a, g.st = .returning → g.kind = .returning → g.cmd = .none → p.att = .db a → a < 250 → 0 < g.prof.down →
      exec (.intervalExpiry e) s = send (min 250 (a + g.prof.down)) { g with miss := 0 })) ∧
  (∀ (s : State) (e : EngineNo) (o : EngOwner) (p : Path), Awake s → EngineServes s e o p →
    let g := s.engine e
    let put (x : Engine) : State := { s with ramp := { s.ramp with engines := s.ramp.engines.set e x } }
    ((g.kind = .rampUp ∧ g.fromHeld = true) ∨ g.kind = .rampRetune → g.st = .armed → exec (.intervalExpiry e) s = settled { fresh s with
      ramp := { s.ramp with
        engines := s.ramp.engines.set e ({ g with st := .stepping, samp := .outstanding, sample := none } : Engine).reload }
      mon := { s.mon with send := s.mon.send ++ [{ asker := { engine := e, grant := g.grant }, point := p.dst.out, slot := p.slot }] } }) ∧
    (p.att = .db 250 ∨ p.att = .block →
      (g.st = .armed → g.kind = .rampDown → expiryDecision e s = dimmed o (freeEngine e (put { g with st := .stepping }))) ∧
      (g.st ≠ .armed → g.kind = .rampDown ∨ g.kind = .returning → g.cmd = .none →
        expiryDecision e s = dimmed o (freeEngine e (put { g with miss := 0 }))))) ∧
  (∀ (s : State) (e : EngineNo) (r : EngRequest) (l1 l2 : List EngRequest), s.start.powerdown = false →
    (s.engine e).st = .free → (∀ f : EngineNo, f < e → (s.engine f).st ≠ .free) →
    s.ramp.wait = l1 ++ r :: l2 → (∀ x ∈ l1, eligible s x = false) → eligible s r = true →
    nextGrant? s = some (e, r) ∧
    (∀ p, s.path? r.owner.pid = some p →
      let target := (p.pend.map (·.target)).getD ((p.info.map (·.target)).getD 0)
      let m : State := { s with
        ramp := { s.ramp with
          engines := s.ramp.engines.set e (Engine.granted (s.ramp.nextGrant + 1) r target)
          wait := s.ramp.wait.erase r, nextGrant := s.ramp.nextGrant + 1 }
        table := s.table.update r.owner.pid (fun q =>
          { q with st := if r.kind = .rampDown ∨ r.kind = .returning then .releasing else .ramping, engine := some e }) }
      (r.kind = .rampUp ∨ r.kind = .rampRetune → grantStep s = some m) ∧
      (r.kind = .verify → grantStep s = some (askSample e p.dst.out p.slot m)) ∧
      (r.kind = .rampDown ∨ r.kind = .returning →
        grantStep s = some (if atTop p.att then dimmed r.owner (freeEngine e m) else m)))) ∧
  (∀ s : State, s.start.powerdown = true ∨ (∀ e : EngineNo, (s.engine e).st ≠ .free) ∨ (∀ x ∈ s.ramp.wait, eligible s x = false) →
    grantStep s = none) ∧
  (∀ (s : State) (r : EngRequest), eligible s r = (match r.out with
    | .grp _ => true
    | .deg d => decide (heldCount s d < (match s.win.cfg with | some c => c.budget | none => 2)))) ∧
  (∀ (n : Nat) (r : EngRequest) (target : Int), 1 ≤ r.prof.load → r.prof.load ≤ 256 →
    let g := Engine.granted n r target
    g.grant = n ∧ g.owner = some r.owner ∧ g.kind = r.kind ∧ g.prof = r.prof ∧ g.target = target ∧ g.load = r.prof.load ∧
      g.count = r.prof.load ∧ g.counting = false ∧ g.adj = 0 ∧ g.miss = 0 ∧ g.cmd = .none ∧ g.samp = .none ∧
      (r.kind = .rampUp ∨ r.kind = .rampRetune ∨ r.kind = .rampDown → g.st = .armed)) ∧
  (∀ (s : State) (e : EngineNo),
    let mon : Monitor := { s.mon with
      send := s.mon.send.filter (fun r => r.asker.engine ≠ e)
      out := s.mon.out.map (fun r => { r with asker := r.asker.filter (fun a => a.engine ≠ e) }) }
    giveUpSample e s = { s with mon := mon } ∧
    (∀ o, (s.engine e).owner = some o → freeEngine e s = { s with
      mon := mon, ramp := { s.ramp with engines := s.ramp.engines.set e Engine.free }
      table := s.table.update o.pid (fun p => if p.engine = some e then { p with engine := none } else p) }) ∧
    ((s.engine e).owner = none → freeEngine e s = { s with mon := mon, ramp := { s.ramp with engines := s.ramp.engines.set e Engine.free } }) ∧
    startReturning e s = { s with mon := mon, ramp := { s.ramp with engines := s.ramp.engines.set e { s.engine e with
      st := .returning, kind := .returning, dir := .none, expected := none, samp := .none, sample := none, wanted := 0, first := none } } })

/-- An expiry of a held engine at its zero count makes its decision, and the count is reloaded where the engine is still held under the same grant
(R103; an engine that enters RETURNING keeps its effective load, R111, log 44). With its command answered and its sample arrived, RAMP_UP, RAMP_RETUNE
and VERIFY decide on the sample; VERIFY keeps its first sample and asks for the second (R109). What RAMP_UP decides (R106): within tolerance it ends
with no command, over it steps back once and ends, short it steps on until attenuation 0, where it fails FAIL_UNDERPOWER. RAMP_RETUNE takes its
direction from its first sample (R107): falling it decides alike, rising it steps up while above tolerance, ends at 250, and steps back once when
short. What VERIFY decides on its two samples (R109). A step that changes the attenuation notes its sample and the power it expects (R108) and sends
one ATTEN, or none where the path holds the value (R105); a refused command fails the step FAIL_MODULE. A ramp that ends goes to VERIFY on the same
engine where the source test lets it, always for a restore, and asks for a sample at once, or with a step back at the acknowledgement of that step
(R106, R109); where light was lost in the running batch an entry's cursor moves on and nothing else follows until the capture (R83; log 58, DEDUCED).
An entry whose VERIFY has decided finishes DONE, or ABANDONED where it runs a reversal, its pending fields applied (R84, R109, R165). A failing step
is its requester's: an entry's or a restore's (R111). -/
def Obligations.RampAndVerifyDecisions : Prop :=
  (∀ (s : State) (e : EngineNo) (o : EngOwner) (a : Nat) (m s1 s2 : Int),
    let g := s.engine e
    let t := g.target
    let tol : Int := g.prof.tol
    let turned (d : Direction) : State := { s with ramp := { s.ramp with engines := s.ramp.engines.set e ({ g with dir := d } : Engine) } }
    (t - tol ≤ m → m ≤ t + tol → decideRamp e g o a m s = endRamp e none s) ∧
    (g.dir = .falling → t + tol < m → decideRamp e g o a m s = endRamp e (some (m, a, min 250 (a + g.prof.up))) s) ∧
    (g.dir = .falling → m < t - tol → 0 < a → decideRamp e g o a m s = rampStep e m a (a - g.prof.up) s) ∧
    (g.dir = .falling → m < t - tol → a = 0 → decideRamp e g o a m s = engineFails o .underpower s) ∧
    (g.dir = .rising → t + tol < m → a < 250 → decideRamp e g o a m s = rampStep e m a (min 250 (a + g.prof.up)) s) ∧
    (g.dir = .rising → t + tol < m → 250 ≤ a → decideRamp e g o a m s = endRamp e none s) ∧
    (g.dir = .rising → m < t - tol → decideRamp e g o a m s = endRamp e (some (m, a, a - g.prof.up)) s) ∧
    (g.dir = .none → m < t - tol → 0 < a → decideRamp e g o a m s = rampStep e m a (a - g.prof.up) (turned .falling)) ∧
    (g.dir = .none → m < t - tol → a = 0 → decideRamp e g o a m s = engineFails o .underpower (turned .falling)) ∧
    (g.dir = .none → t + tol < m → a < 250 → decideRamp e g o a m s = rampStep e m a (min 250 (a + g.prof.up)) (turned .rising)) ∧
    (g.dir = .none → t + tol < m → 250 ≤ a → decideRamp e g o a m s = endRamp e none (turned .rising)) ∧
    (s1 < t - 100 ∨ s2 < t - 100 → decideVerify e g o s1 s2 s = engineFails o .noLight s) ∧
    (t - 100 ≤ s1 → t - 100 ≤ s2 →
      let st : PathState := if t - tol ≤ s1 ∧ s1 ≤ t + tol ∧ t - tol ≤ s2 ∧ s2 ≤ t + tol then .live else .offTarget
      decideVerify e g o s1 s2 s =
        (if o.restore then endRestore o.no (updatePath o.pid (fun p => { p with st := st }) (freeEngine e s))
         else verified o.no (updatePath o.pid (fun p => { p with st := st }) (freeEngine e s))))) ∧
  (∀ (s : State) (r : RecNo) (x : Entry), s.entry? r = some x →
    verified r s = finishEntry r (if x.reversing then .abandoned else .done) true s) ∧
  (∀ (s : State) (e : EngineNo) (o : EngOwner) (p : Path), Awake s → EngineServes s e o p →
    let g := s.engine e
    let u := expiryDecision e (fresh s)
    let h := u.engine e
    (h.st = .free ∨ h.grant ≠ g.grant → exec (.intervalExpiry e) s = settled u) ∧
    (h.st ≠ .free → h.grant = g.grant → exec (.intervalExpiry e) s = settled { u with
      ramp := { u.ramp with engines := u.ramp.engines.set e (if h.st = .returning ∧ g.st ≠ .returning then h.reloadHeld else h.reload) } }) ∧
    (∀ m, g.st ≠ .armed → g.cmd = .none → g.samp = .arrived → g.sample = some m →
      let x : Engine := { g with miss := 0, adj := adjust g m, expected := none, samp := .none, sample := none }
      let t : State := { s with ramp := { s.ramp with engines := s.ramp.engines.set e x } }
      (g.kind = .rampUp ∨ g.kind = .rampRetune →
        expiryDecision e s = decideRamp e { g with adj := adjust g m } o (match p.att with | .db n => n | .block => 250) m t) ∧
      (∀ s1, g.kind = .verify → g.first = some s1 →
        expiryDecision e s = decideVerify e { g with adj := adjust g m } o s1 m t) ∧
      (g.kind = .verify → g.first = none → exec (.intervalExpiry e) s = settled { fresh s with
        ramp := { s.ramp with
          engines := s.ramp.engines.set e ({ x with first := some m, wanted := 1, samp := .outstanding } : Engine).reload }
        mon := { s.mon with send := s.mon.send ++ [{ asker := { engine := e, grant := g.grant }, point := p.dst.out, slot := p.slot }] } }))) ∧
  (∀ (s : State) (e : EngineNo) (o : EngOwner) (p : Path) (m : Int) (a a' : Nat), (s.engine e).owner = some o → s.path? o.pid = some p →
    (a ≠ a' →
      let x : Engine := { s.engine e with prev := some m, expected := some (m + ((a : Int) - (a' : Int))) }
      rampStep e m a a' s = setAtten e a' { s with ramp := { s.ramp with engines := s.ramp.engines.set e x } }) ∧
    (p.att = .db a → setAtten e a s = engineAnswered e s) ∧
    (p.att ≠ .db a → (∀ t, handOrdinary (engineAtten e (s.engine e) o p a) s = some t → setAtten e a s = t) ∧
      (handOrdinary (engineAtten e (s.engine e) o p a) s = none → setAtten e a s = engineFails o .module s)) ∧
    (let x : Engine := { s.engine e with st := .verifying, kind := .verify, wanted := 2, first := none, samp := .none, sample := none }
     let v : State := { s with ramp := { s.ramp with engines := s.ramp.engines.set e x } }
     let w := rampStep e m a a' v
     let here : Prop := (s.engine e).grant = (w.engine e).grant ∧ (w.engine e).st = .verifying
     (o.restore = true ∨ s.batch.lossStop = false → verifyAllowed o v = true → endRamp e none s = askForPath e (toVerify o v)) ∧
     (o.restore = true ∨ s.batch.lossStop = false → verifyAllowed o v = false → endRamp e none s = engineFails o .sourceDark v) ∧
     (o.restore = false → s.batch.lossStop = true → endRamp e none s = toVerify o v) ∧
     (¬ here → endRamp e (some (m, a, a')) s = w) ∧
     (here → o.restore = true ∨ w.batch.lossStop = false →
       (verifyAllowed o w = true → endRamp e (some (m, a, a')) s = toVerify o w) ∧
       (verifyAllowed o w = false → endRamp e (some (m, a, a')) s = engineFails o .sourceDark w)) ∧
     (here → o.restore = false → w.batch.lossStop = true → endRamp e (some (m, a, a')) s = toVerify o w)) ∧
    (o.restore = true → verifyAllowed o s = true ∧ toVerify o s = setRestoreStep o.no .verify s) ∧
    (o.restore = false → toVerify o s = updateEntry o.no (fun x => { x with chain := x.chain.drop 1 }) s ∧
      (verifyAllowed o s = true ↔ (∀ d, p.src = .deg d → s.light.state.get d = .lit) ∧ p.squelched = false))) ∧
  (∀ (o : EngOwner) (c : FailCode) (s : State), (o.restore = true → engineFails o c s = restoreFailed o.no s) ∧
    (o.restore = false → engineFails o c s = stepFailed o.no c s))

/-- A sample below the expected power by more than the lag threshold raises the adjustment by one up to the profile's maximum, one above it by more
than the lead threshold lowers it by one down to minus that, and any other leaves it, as does a sample with no expected power (R108). The effective
load is the interval load plus the adjustment, held at 1 below that range and at 256 above it (R103). -/
def Obligations.IntervalsAdaptWithinBounds : Prop :=
  (∀ (g : Engine) (m : Int), |g.adj| ≤ g.prof.maxAdj → |adjust g m| ≤ g.prof.maxAdj ∧ |adjust g m - g.adj| ≤ 1) ∧
  (∀ (g : Engine) (m : Int),
    (g.expected = none → adjust g m = g.adj) ∧
    (∀ x : Int, g.expected = some x →
      (m < x - g.prof.lag → adjust g m = min (g.adj + 1) g.prof.maxAdj) ∧
      (x + g.prof.lead < m → adjust g m = max (g.adj - 1) (-(g.prof.maxAdj : Int))) ∧
      (x - g.prof.lag ≤ m → m ≤ x + g.prof.lead → adjust g m = g.adj))) ∧
  (∀ (p : Profile) (adj : Int), 1 ≤ effectiveLoad p adj ∧ effectiveLoad p adj ≤ 256 ∧
    (1 ≤ (p.load : Int) + adj → (p.load : Int) + adj ≤ 256 → (effectiveLoad p adj : Int) = p.load + adj) ∧
    ((p.load : Int) + adj < 1 → effectiveLoad p adj = 1) ∧ (256 < (p.load : Int) + adj → effectiveLoad p adj = 256)) ∧
  (∀ g : Engine, g.reload = { g with load := effectiveLoad g.prof g.adj, count := effectiveLoad g.prof g.adj })

/-! ### Captures, resumes, pops -/

/-- A CAPTURE takes the request at the head of the work list (R155). An item is taken while none is in progress, no anchor re-read runs and the
POWERDOWN flag is clear, a capture also only outside UNCONFIGURED and REBUILDING (R155, R184, R185; that one waiting when a re-read ends in
UNCONFIGURED goes on waiting is the model's choice, log 73); an item that cannot be taken stays (log 7). In IDLE the sequencer is SUSPENDED with its
batch state word kept, and the depth rises (R159); in FETCHING or CHECKING the depth alone rises; in a run state the batch is SUSPENDED with its
entries as they stand, its unsent commands, those on the place wait list included, and engine requests withdrawn and its engines freed, restores left
alone (R156). A mark that light was lost in the running batch goes (R83; log 58, DEDUCED). At depth 4 the capture is merged: the depth stays, slot 4's
image takes the cause, the sets and the merged flag, and its four bursts are asked for (R160), the three words behind the record zero (R30). The
record itself is built once no transaction is in progress (R156): its in-flight list is, in slot 1 alone, the entries in progress in queue order with
their half, step, attenuation and the engine held when the capture began (R157), its other fields are those of R158, its resume word is CONTINUE with
return-to-held after HOLDING and HELD (R31), and the words are kept as the slot's image and asked for as four bursts with the header behind them
(R156); that all five are asked for at once is the model's choice (log 66). -/
def Obligations.CaptureSuspendsOrMerges : Prop :=
  (∀ (w : WorkItem) (s : State),
    (workFree w s = true ↔ s.intr.item = none ∧ s.seqr.reread = .none ∧ s.start.powerdown = false ∧
      (w = .resume ∨ (s.seqr.st ≠ .unconfigured ∧ s.seqr.st ≠ .rebuilding))) ∧
    (Awake s → s.intr.work.head? = some w → workFree w s = false →
      exec .capture s = settled (fresh s) ∧ exec .resumeTaken s = settled (fresh s))) ∧
  (∀ (s : State) (c : CaptureSource) (rest : List WorkItem), Awake s → workFree (.capture c) s = true → s.intr.work = .capture c :: rest →
      s.intr.depth < 4 → s.win.map.isSome = true →
      let intr (noted : SeqState) : Interruption := { s.intr with
        work := rest, depth := s.intr.depth + 1, item := some (.capture c noted (entryEngines s) true) }
      (s.seqr.st = .idle → exec .capture s = settled { fresh s with
        intr := intr .idle
        batch := { s.batch with lossStop := false }
        seqr := { s.seqr with st := .suspended, kept := some s.seqr.shown, shown := { st := .suspended, seq := s.seqr.shown.seq } }
        port := s.port ++ [.batchState { st := .suspended, seq := s.seqr.shown.seq }] }) ∧
      (s.seqr.st = .fetching ∨ s.seqr.st = .checking ∨ s.seqr.st = .suspended →
        exec .capture s = settled { fresh s with intr := intr s.seqr.st, batch := { s.batch with lossStop := false } }) ∧
      (s.seqr.st.isRun = true → ∃ t, exec .capture s = settled t ∧ t.seqr.st = .suspended ∧
        t.seqr.shown = { st := .suspended, seq := s.batch.seq } ∧ t.intr = intr s.seqr.st ∧ t.queue = s.queue ∧ t.batch = { s.batch with lossStop := false } ∧
        t.light = s.light ∧ t.act.urgent = s.act.urgent ∧
        t.ramp.wait = s.ramp.wait.filter (fun r => r.owner.restore) ∧
        (∀ e : EngineNo, (∀ o, (s.engine e).owner = some o → o.restore = false) → (s.engine e).owner ≠ none → (t.engine e).st = .free) ∧
        (∀ e : EngineNo, ∀ o, (s.engine e).owner = some o → o.restore = true → t.engine e = s.engine e) ∧
        (∀ x ∈ t.act.ordinary ++ t.act.wait, match x.req with | .entry _ _ _ => False | .engine _ _ o => o.restore = true | _ => True))) ∧
  (∀ (s : State) (c : CaptureSource) (rest : List WorkItem), Awake s → workFree (.capture c) s = true → s.intr.work = .capture c :: rest →
      s.intr.depth = 4 → s.intr.images.length = 4 →
      ∃ t ws, exec .capture s = settled t ∧ t.intr.depth = 4 ∧ t.intr.work = rest ∧ t.seqr = s.seqr ∧
        t.intr.images = s.intr.images.take 3 ++ [ws] ∧
        t.port = s.port ++ [.slotBurst 4 0 (ws.take 4), .slotBurst 4 1 ((ws.drop 4).take 4), .slotBurst 4 2 ((ws.drop 8).take 4),
          .mergeEnd ((ws.drop 12).take 4)] ∧
        ws = (((s.intr.images.getD 3 []).take 13 ++ [0, 0, 0]).modify 0 (fun w => setBits w (causeBit c + 2 ^ 8))).modify 1
          (fun w => setBits w (darkSet s + faultedSet s * 2 ^ 8))) ∧
  (∀ (s : State) (c : CaptureSource) (noted : SeqState) (g : List (RecNo × EngineNo)), s.intr.item = some (.capture c noted g true) →
      (s.act.txn ≠ none → buildCapture s = none) ∧
      (s.act.txn = none →
        let k := s.intr.depth
        let items : List InFlight := if k = 1 then (s.queue.filter (fun e => e.st.inProgress)).map (fun e =>
          { no := e.no, half := e.half, step := (e.chain.head?.map ChainStep.code).getD 0,
            att := ((e.path.bind s.path?).map (·.att)).getD .block, engine := (g.find? (fun x => x.1 = e.no)).map (·.2) }) else []
        let ws : List Word :=
          [BitVec.ofNat 32 (1 + causeBit c + 2 ^ 16),
           BitVec.ofNat 32 (darkSet s + faultedSet s * 2 ^ 8 + (if s.batch.present then s.batch.seq.toNat else 0) * 2 ^ 16),
           BitVec.ofNat 32 (noted.code + (if s.batch.present then s.batch.phase else 0) * 2 ^ 8 +
             bit (s.batch.present && s.batch.phase = 0) * 2 ^ 12 + bit (!items.isEmpty) * 2 ^ 13 + items.length * 2 ^ 16)] ++
          (items.map InFlight.word ++ List.replicate (8 - items.length) 0).take 8 ++
          [BitVec.ofNat 32 (bit (noted = .holding || noted = .held) * 2 ^ 8), s.clock.ms, 0, 0, 0]
        buildCapture s = some { s with
          intr := { s.intr with images := s.intr.images.take (k - 1) ++ [ws], item := some (.capture c noted g false) }
          port := s.port ++ [.slotBurst k 0 (ws.take 4), .slotBurst k 1 ((ws.drop 4).take 4), .slotBurst k 2 ((ws.drop 8).take 4),
            .slotBurst k 3 ((ws.drop 12).take 4), .captureHeader k] })) ∧
  (∀ c : CaptureSource, causeBit c = (match c with | .los _ => 2 ^ 4 | .powerFail => 2 ^ 5 | .module _ => 2 ^ 6))

/-- The completion of a capture's last write, the header's or a merge's last burst, raises SUSPEND and ends the item; after a POWER_FAIL capture with
PFW_N asserted the POWERDOWN flag is set, the hold set is emptied and the sequencer is in POWERDOWN (R156, R160, R185; that the level at that moment
decides, where the pin was deasserted and asserted anew before it, is the model's choice, log 85). -/
def Obligations.CaptureEndsAtItsLastWrite : Prop :=
  ∀ (s : State) (m : WindowMap) (d : Nat) (c : CaptureSource) (noted : SeqState) (g : List (RecNo × EngineNo)) (x : Bool),
    Awake s → s.win.map = some m → s.intr.item = some (.capture c noted g x) →
    (∀ ws, NextIs s (.mergeEnd ws) → c ≠ .powerFail ∨ s.start.pfw.level ≠ some true →
      exec .captureWriteComplete s = settled (raiseCause .suspend
        { written s (.mergeEnd ws) (pageAddr m.save (offSlot 4 + 48)) ws with intr := { s.intr with item := none } })) ∧
    (∀ ws, NextIs s (.mergeEnd ws) → c = .powerFail → s.start.pfw.level = some true →
      exec .captureWriteComplete s = settled { raiseCause .suspend
        { written s (.mergeEnd ws) (pageAddr m.save (offSlot 4 + 48)) ws with intr := { s.intr with item := none } } with
        seqr := { s.seqr with st := .powerdown }
        start := { s.start with powerdown := true }
        holds := { fetch := none, wb := [] }
        light := { s.light with lossSeen := .const false } }) ∧
    (NextIs s (.captureHeader d) →
    let t := written s (.captureHeader d) (pageAddr m.save offHeader) [BitVec.ofNat 32 d]
    let u := raiseCause .suspend { t with intr := { s.intr with header := d, item := none } }
    (c ≠ .powerFail ∨ s.start.pfw.level ≠ some true → exec .captureWriteComplete s = settled u) ∧
    (c = .powerFail → s.start.pfw.level = some true → exec .captureWriteComplete s = settled { u with
      seqr := { s.seqr with st := .powerdown }
      start := { s.start with powerdown := true }
      holds := { fetch := none, wb := [] }
      light := { s.light with lossSeen := .const false } }))

/-- A RESUME taken from the work list reads the resume word of the top slot, and at depth 0 does nothing (R161). A resume word that reads corrected is
reported, written back by a rewrite and taken as corrected; one that reads uncorrectable is reported and taken as CONTINUE with return-to-held no, the
requester being FETCH; the unassigned action is taken as CONTINUE (R31, R169, R170). The word read, with no module FAULTED, is followed by the pop's
two writes: the slot RESUMED, then the header one lower, both asked for at once (log 94, DEDUCED); with one FAULTED, by a refresh pass first (R137),
over the modules FAULTED when the word is read (R161; that it is not those FAULTED when the RESUME was taken is the model's choice, log 69). -/
def Obligations.ResumeReadsItsWordThenPops : Prop :=
  (∀ (s : State) (rest : List WorkItem), Awake s → workFree .resume s = true → s.intr.work = .resume :: rest →
    (s.intr.depth = 0 → exec .resumeTaken s = settled { fresh s with intr := { s.intr with work := rest } }) ∧
    (0 < s.intr.depth → exec .resumeTaken s = settled { fresh s with
      port := s.port ++ [.resumeWord s.intr.depth]
      intr := { s.intr with work := rest, item := some (.resume .reading .cont false) } })) ∧
  (∀ (s : State) (m : WindowMap) (k : Nat), Awake s → s.win.map = some m → NextIs s (.resumeWord k) → k = s.intr.depth →
    let a := pageAddr m.save (offSlot k + 44)
    let y := s.mem.syndrome a
    let x := s.mem.check a
    let u := granted s (.resumeWord k)
    let ws := (s.intr.images.getD (k - 1) []).modify 0 (fun w => withRecordState w 2)
    let goesOn (act : ResumeAction) (held : Bool) (g : State) : Prop :=
      ((∀ o ∈ OutPoint.all, isFaulted s o = false) → exec .resumeWordRead s = settled { g with
        port := g.port ++ [.slotWord0 k (ws.headD 0), .popHeader (k - 1)]
        intr := { s.intr with images := s.intr.images.take (k - 1) ++ [ws], item := some (.resume .popping act held) } }) ∧
      (∀ o l, OutPoint.all.filter (isFaulted s) = o :: l → exec .resumeWordRead s = settled { g with
        act := { s.act with
          refresh := some { mods := o :: l }
          urgent := s.act.urgent ++ [{ module := o, kind := .ping, start := 0, count := 0, vals := [], built := true, req := .refresh }] }
        intr := { s.intr with item := some (.resume .refreshing act held) } })
    (x.1 = .correct → goesOn (resumeOfWord x.2).1 (resumeOfWord x.2).2 u) ∧
    (x.1 = .corrected → goesOn (resumeOfWord x.2).1 (resumeOfWord x.2).2 (addRewrite a x.2 (reportFault .corrected .fetch a y u))) ∧
    (x.1 = .uncorrectable → goesOn .cont false (reportFault .uncorrectable .fetch a y u))) ∧
  (∀ w : Word, (resumeOfWord w).2 = w.getLsbD 8 ∧ (field w 0 2 = 0 ∨ field w 0 2 = 3 → (resumeOfWord w).1 = .cont) ∧
    (field w 0 2 = 1 → (resumeOfWord w).1 = .retry) ∧ (field w 0 2 = 2 → (resumeOfWord w).1 = .abandon))

/-- A POP's header write frees its level (R161, R162): above depth 0 the part stays as it is; at depth 0 the Restore List is free to begin (R152; log
101, DEDUCED). With no batch present, and no rebuilt record, the sequencer is IDLE with the kept batch state word written back. A rebuilt record
begins a recovery batch with its sequence, or with sequence 0 leaves the part in IDLE with NONE (R183). A batch whose fetch or check ran on goes on in
that state. A batch that has run takes the slot-1 record's action: CONTINUE and RETRY return it to CANCELLING where it was cancelled or a stop waits,
else to HOLDING or RUNNING, and issue each entry's step, RETRY from the beginning of its half (R162, R163, R164; that the state is entered, with its
word and in CANCELLING the WAITING entries' write-backs, before the entries in progress are taken is the model's choice, log 88, and so is RETRY's
order among them, log 92); ABANDON ends the waiting entries and then, in queue order (the model's choice, log 93), reverses each entry in progress by
the table of R165: a rollback runs on; a new path or a RESTORE routed at its source is put on RETURNING and DISCONNECT, RELEASING from then on (the
model's choice, log 98), and at the fill it is removed, a RESTORE's becoming SQUELCHED; a RETUNE or COMPLETE drops its pending fields and a release
its leaving mark and the pledges on its path, and either runs RAMP_RETUNE and VERIFY where the path is routed at its source and is fixed SQUELCHED
where it is not. -/
def Obligations.PopFreesItsLevel : Prop :=
  (∀ (s : State) (w : List Word) (a : ResumeAction) (h : Bool),
    let seq : BitVec 16 := BitVec.ofNat 16 (field (w.getD 1 0) 16 16)
    (field (w.headD 0) 9 1 = 1 →
      (seq = 0 → leaveSuspension w a h s = writeBatchState { st := .none, seq := s.seqr.shown.seq }
        { s with seqr := { s.seqr with st := .idle, kept := none } }) ∧
      (seq ≠ 0 → leaveSuspension w a h s = beginBatch seq (some { abandon := a = .abandon, toHeld := h && a ≠ .abandon })
        { s with seqr := { s.seqr with kept := none } })) ∧
    (field (w.headD 0) 9 1 ≠ 1 → s.batch.present = true → s.batch.ending = false →
      (s.batch.work = .fetch → s.seqr.st = .suspended → leaveSuspension w a h s = enterState .fetching .fetching s) ∧
      (s.batch.work = .check → s.seqr.st = .suspended → leaveSuspension w a h s = enterState .checking .checking s) ∧
      (s.batch.work = .run → s.batch.abandon = false →
        (a = .cont → leaveSuspension w a h s = eachInProgress (fun e s => issueStep e.no false s) (returnState w h s)) ∧
        (a = .retry → leaveSuspension w a h s = eachInProgress retryEntry (returnState w h s)) ∧
        (a = .abandon → leaveSuspension w a h s = eachInProgress abandonEntry
          (endAllWaiting .abandoned (enterState .cancelling .cancelling { s with batch := { s.batch with abandon := true } }))))) ∧
    (field (w.getD 2 0) 0 4 = 8 ∨ s.batch.stopPending = true → returnState w h s = enterCancelling s) ∧
    (field (w.getD 2 0) 0 4 ≠ 8 → s.batch.stopPending = false →
      (h = true → returnState w h s = enterState .holding .holding s) ∧
      (h = false → returnState w h s = enterState .running .running { s with batch := { s.batch with phase := max 1 s.batch.phase } }))) ∧
  (∀ (s : State) (e : Entry) (p : Path),
    (e.st = .rollingBack → retryEntry e s = issueStep e.no false s ∧ abandonEntry e s = issueStep e.no false s) ∧
    (e.st = .begun → e.path.bind s.path? = some p →
      retryEntry e s = issueStep e.no true (updateEntry e.no (fun e => { e with chain := chainFor e p.route }) s) ∧
      (e.kind = .add → e.reversing = false →
        (p.route = .source → abandonEntry e s = issueStep e.no false
          (updateEntry e.no (fun e => { e with chain := [.returning, .disconnect], reversing := true })
            (updatePath p.pid (fun q => { q with st := .releasing }) s))) ∧
        (p.route = .fill → abandonEntry e s = finishEntry e.no .abandoned false
          (updateEntry e.no (fun e => { e with reversing := true }) { s with table := s.table.remove p.pid }))))) ∧
  (∀ (s : State) (e : Entry) (p : Path), e.st = .begun → e.reversing = false → e.path.bind s.path? = some p →
    let turn (chain : List ChainStep) (t : State) : State :=
      issueStep e.no false (updateEntry e.no (fun e => { e with chain := chain, reversing := true }) t)
    let ended (t : State) : State := finishEntry e.no .abandoned false (updateEntry e.no (fun e => { e with reversing := true }) t)
    let dark (t : State) : State :=
      updatePath p.pid (fun q => { q with st := .squelched, route := .fill, squelched := false, rerouting := false }) t
    ((e.kind = .move ∧ e.half = .new) ∨ e.kind = .restore →
      (p.route = .source → abandonEntry e s = turn [.returning, .disconnect] (updatePath p.pid (fun q => { q with st := .releasing }) s)) ∧
      (p.route = .fill → abandonEntry e s = ended (if e.kind = .restore then dark s else { s with table := s.table.remove p.pid }))) ∧
    (e.kind = .retune ∨ e.kind = .complete →
      let t := updatePath p.pid (fun q => { q with pend := none }) s
      (p.route = .source → abandonEntry e s = turn [.rampRetune, .verify] t) ∧ (p.route = .fill → abandonEntry e s = ended (dark t))) ∧
    (e.kind = .remove ∨ e.kind = .move → e.half = .old →
      let t : State := { s with table := (s.table.voidOn p.pid).update p.pid (fun q => { q with leaving := false }) }
      (p.route = .source → abandonEntry e s = turn [.rampRetune, .verify] t) ∧ (p.route = .fill → abandonEntry e s = ended (dark t)))) ∧
  ∀ (s : State) (m : WindowMap) (d : Nat) (a : ResumeAction) (h : Bool), Awake s → s.win.map = some m → NextIs s (.popHeader d) →
    s.intr.item = some (.resume .popping a h) →
    let t := { written s (.popHeader d) (pageAddr m.save offHeader) [BitVec.ofNat 32 d] with
               intr := { s.intr with depth := d, header := d, images := s.intr.images.take d, item := none } }
    (0 < d → exec .pop s = settled t) ∧
    (d = 0 → exec .pop s = settled (leaveSuspension (s.intr.images.getD 0 []) a h { t with light := { s.light with restoresHeld := false } })) ∧
    (∀ b, d = 0 → field ((s.intr.images.getD 0 []).headD 0) 9 1 ≠ 1 → s.batch.present = false → s.seqr.kept = some b →
      exec .pop s = settled { t with
        light := { s.light with restoresHeld := false }
        seqr := { s.seqr with st := .idle, kept := none, shown := b }
        port := t.port ++ [.batchState b] })

/-! ### Fetch, write-backs and the end of a batch -/

/-- A completed fetch read adds an entry to the record list: the three words as delivered, or the mark unreadable with REJ_UNREADABLE where one of
them is uncorrectable, whose fault the Memory Fault Record takes with requester FETCH; an unreadable record is judged no further (R63). The list has
one entry for a record (R55). The record leaves the Touched Set, and its hold is lifted (R14, R57). The next read is that of the lowest record of the
Touched Set above the one last fetched, of the lowest at the first choice, and its fetch hold comes into force with the request, but not in POWERDOWN
(R14, R15); where none lies above, the masks are read (R62, R64). That a record written below the one asked for, while that read waits, is passed by
is the model's choice (log 53). -/
def Obligations.FetchReadAddsItsEntry : Prop :=
  (∀ (s : State) (m : WindowMap) (r : RecNo), Awake s → s.win.map = some m → NextIs s (.fetchRec r) →
    exec .fetchRead s = settled (nextFetch (releaseBeats (2 * s.bus.held.length) (recordFetched r (granted s (.fetchRec r)))))) ∧
  (∀ (s : State) (m : WindowMap) (r : RecNo), s.win.map = some m →
    let a := pageAddr m.staging (offRecord r)
    let t := recordFetched r s
    let x (i : Nat) : ReadCheck × Word := s.mem.check (a + 4 * i)
    ((∀ i, i < 3 → (x i).1 ≠ .uncorrectable) → t.batch.list = s.batch.list.filter (fun b => b.no ≠ r) ++
      [{ no := r, copy := some ⟨(x 0).2, (x 1).2, (x 2).2⟩, verdict := .unjudged, held := false }]) ∧
    ((∃ i, i < 3 ∧ (x i).1 = .uncorrectable) → t.batch.list = s.batch.list.filter (fun b => b.no ≠ r) ++
      [{ no := r, copy := none, verdict := .rej .unreadable, held := false }] ∧
      (s.integ.mfr.kind = .none → t.integ.mfr.req = .fetch ∧ t.integ.mfr.kind ≠ .none)) ∧
    t.touched = s.touched.filter (fun y => y ≠ r) ∧ t.holds = { s.holds with fetch := none } ∧ t.batch.lastFetched = some r) ∧
  (∀ (s : State) (b : BatchRec), b.copy = none → judge b s = setVerdict b.no (.rej .unreadable) s) ∧
  (∀ s : State,
    (s.batch.present = false ∨ s.batch.ending = true ∨ s.batch.work ≠ .fetch → nextFetch s = s) ∧
    (s.batch.present = true → s.batch.ending = false → s.batch.work = .fetch → s.touched.Pairwise (· < ·) →
      let above (r : RecNo) : Prop := ∀ l, s.batch.lastFetched = some l → l < r
      (∀ r ∈ s.touched, above r → (∀ x ∈ s.touched, above x → r ≤ x) →
        (s.start.powerdown = false → nextFetch s = { s with
          port := s.port ++ [.fetchRec r], holds := { s.holds with fetch := some r } }) ∧
        (s.start.powerdown = true → nextFetch s = { s with port := s.port ++ [.fetchRec r] })) ∧
      ((∀ r ∈ s.touched, ¬ above r) → nextFetch s = { s with port := s.port ++ [.fetchMasks] })))

/-- The mask read takes the two masks, a corrected one as corrected and an uncorrectable one with all its kinds set, the refuse mask of a recovery by
ABANDON being empty (R183), and profile 0 is read next; each profile read replaces its cached profile, not valid where one of its words is
uncorrectable, and the last ends the fetch. The Memory Fault Record takes such a fault with requester FETCH. A profile has the fields of Table 2-7, a
stored load of 0 taken as 256, and is valid where its flag is set and each field lies in its range (R28). At the end of the fetch the counters carry
the number of records, the records are held, and CHECKING begins unless the fetch ran on while SUSPENDED (R64, R65, R67). -/
def Obligations.MasksAndProfilesEndTheFetch : Prop :=
  (∀ (s : State) (m : WindowMap), Awake s → s.win.map = some m → NextIs s .fetchMasks →
    let x (off : Nat) : ReadCheck × Word := s.mem.check (pageAddr m.status off)
    let mask (off n : Nat) : Nat := if (x off).1 = .uncorrectable then 2 ^ n - 1 else field (x off).2 0 n
    ∃ t, exec .maskRead s = settled t ∧ t.batch = { s.batch with refuse := t.batch.refuse, stop := BitVec.ofNat 5 (mask 8 5) } ∧
      ((∀ y, s.batch.recovery = some y → y.abandon = false) → t.batch.refuse = BitVec.ofNat 9 (mask 4 9)) ∧
      (∀ y, s.batch.recovery = some y → y.abandon = true → t.batch.refuse = 0) ∧
      t.port.getLast? = some (.fetchProf 0) ∧ t.seqr = s.seqr ∧ t.profiles = s.profiles ∧ t.table = s.table ∧ t.mem = s.mem ∧
      ((x 4).1 = .uncorrectable ∨ (x 8).1 = .uncorrectable → s.integ.mfr.kind = .none →
        t.integ.mfr.req = .fetch ∧ t.integ.mfr.kind ≠ .none)) ∧
  (∀ (s : State) (m : WindowMap) (k : Fin 8), Awake s → s.win.map = some m → NextIs s (.fetchProf k) →
    let x (i : Nat) : ReadCheck × Word := s.mem.check (pageAddr m.status (offProfile k.val) + 4 * i)
    ∃ t, exec .profileRead s = settled t ∧ (∀ j : Fin 8, j ≠ k → t.profiles[j] = s.profiles[j]) ∧ t.mem = s.mem ∧
      ((∀ i, i < 4 → (x i).1 ≠ .uncorrectable) → t.profiles[k] = Profile.ofWords (x 0).2 (x 1).2 (x 2).2 (x 3).2) ∧
      ((∃ i, i < 4 ∧ (x i).1 = .uncorrectable) → (t.profiles[k]).valid = false ∧
        (s.integ.mfr.kind = .none → t.integ.mfr.req = .fetch ∧ t.integ.mfr.kind ≠ .none))) ∧
  (∀ w0 w1 w2 w3 : Word,
    let p := Profile.ofWords w0 w1 w2 w3
    p.start = field w0 16 8 ∧ p.up = field w0 8 8 ∧ p.down = field w0 0 8 ∧ p.load = (if field w1 16 8 = 0 then 256 else field w1 16 8) ∧
    p.x16 = w1.getLsbD 8 ∧ p.maxAdj = field w1 0 4 ∧ p.lag = field w2 8 8 ∧ p.lead = field w2 0 8 ∧ p.tol = field w3 0 8 ∧
    (p.valid = true ↔ w0.getLsbD 31 = true ∧ p.start ≤ 250 ∧ 1 ≤ p.up ∧ p.up ≤ 50 ∧ 1 ≤ p.down ∧ p.down ≤ 50 ∧ 1 ≤ p.tol ∧ p.tol ≤ 20)) ∧
  (∀ (s : State) (m : WindowMap), Awake s → s.win.map = some m → NextIs s .fetchMasks → CleanBurst s.mem (pageAddr m.status 4) 2 →
    (∀ x, s.batch.recovery = some x → x.abandon = false) →
    exec .maskRead s = settled { granted s .fetchMasks with
      port := s.port.erase .fetchMasks ++ [.fetchProf 0]
      batch := { s.batch with refuse := BitVec.ofNat 9 (field (s.mem.word (pageAddr m.status 4)) 0 9)
                              stop := BitVec.ofNat 5 (field (s.mem.word (pageAddr m.status 8)) 0 5) } }) ∧
  (∀ (s : State) (m : WindowMap) (k : Fin 8), Awake s → s.win.map = some m → NextIs s (.fetchProf k) →
    let a := pageAddr m.status (offProfile k.val)
    CleanBurst s.mem a 4 →
    let profiles := s.profiles.set k (Profile.ofWords (s.mem.word a) (s.mem.word (a + 4)) (s.mem.word (a + 8)) (s.mem.word (a + 12)))
    (k.val < 7 → exec .profileRead s = settled { granted s (.fetchProf k) with
      port := s.port.erase (.fetchProf k) ++ [.fetchProf (k + 1)], profiles := profiles }) ∧
    (k.val = 7 →
      let c := { s.batch.counters with total := s.batch.list.length }
      let w : BatchWord := { st := .checking, seq := s.batch.seq }
      exec .profileRead s = settled { granted s (.fetchProf k) with
        port := s.port.erase (.fetchProf k) ++ [.counters c] ++ (if s.seqr.st = .fetching then [.batchState w] else [])
        profiles := profiles
        seqr := if s.seqr.st = .fetching then { s.seqr with st := .checking, shown := w } else s.seqr
        batch := { s.batch with counters := c, work := .check, list := s.batch.list.map (fun b => { b with held := true }) }
        light := { s.light with restoreList :=
          s.light.restoreList.filter (fun x => !s.batch.list.any (fun b => b.no = x.1)) } }))

/-- R71: the source light test fails an ADD or MOVE whose new source, and a RETUNE, COMPLETE or RESTORE whose present source, is a degree that is
DARK or HOLDOFF; a source that is a port passes, and the other kinds are not tested. A record that passed the format, loopback and profile tests
is REJ_SOURCE_DARK exactly where it fails, by the light states when it is judged. A FOREIGN path whose squelched mark is set is adopted as
SQUELCHED. -/
def Obligations.SourceLightTest : Prop :=
  ∀ (s : State) (f : HostFields) (st : Staged) (q : Path) (p : Option Path),
    (∀ k, k = Kind.add ∨ k = .move → darkSource s (.conn f) k p = (match f.src with
      | .deg d => decide (s.light.state.get d = .dark ∨ s.light.state.get d = .holdoff)
      | .port _ => false)) ∧
    (∀ k, k = Kind.retune ∨ k = .complete ∨ k = .restore → darkSource s st k (some q) = (match q.src with
      | .deg d => decide (s.light.state.get d = .dark ∨ s.light.state.get d = .holdoff)
      | _ => false)) ∧
    (∀ k, k = Kind.remove ∨ k = .adopt ∨ k = .noChange → darkSource s st k p = false) ∧
    (∀ (r : RecNo) (ws : HostWords), Staged.ofWords ws = some st → (∀ g, st = .conn g → loopback g = false) →
      let p := presentPath r s
      let k := classify s st p
      profileFails s st k p = false → verdictOf s r ws = (if darkSource s st k p then .rej .sourceDark else .kind k)) ∧
    (∀ r : RecNo, q.st = .foreign → q.squelched = true → (q.adopted r f).st = .squelched)

/-- A reservation is refused with the code of the first map, in the order of R36, that has a conflicting entry, and then changes nothing; without a
conflict it makes the new path in RESERVED, which owns each entry that was free, and is pledged each that a leaving path owns (R36). Records are
classified against their present path by the table of R69; that the route of a DISCREPANT or IN_FLIGHT path is compared on the input read back, with
the port where the staged record names one, is log 43 (DEDUCED). The claiming pass reserves for each ADD and MOVE and claims for each ADOPT in the
list's order: a refused ADD or ADOPT takes its code, a refused MOVE also gives its leaving mark up and begins the pass again (R73); an adoption is
refused where its port is owned and takes it otherwise (R48). The check judges record by record, waiting at one whose restore is begun, and ends with
the batch refused, its claims undone and its records touched again, where a record's code is in the refuse mask (R74), and accepted otherwise.
Acceptance first gives the path of each accepted RETUNE, RESTORE or NO_CHANGE the record's tag and permit, and fixes a NO_CHANGE from its path, or
EMPTY where it was LOST, its active write asked for ahead of all else (R70, R75; that several are taken in ascending number is the model's choice, log
91). Then each accepted record but a NO_CHANGE has a WAITING entry, with its kind, the half new for an ADD or ADOPT and old for any other, its present
path, and the path reserved or claimed for it (R77, R78), and the batch enters RUNNING, HOLDING for a recovery with return-to-held, or SUSPENDED above
depth 0 (R75, R76, R183; that HOLDING keeps phase 0 is the model's choice, log 48). The entries a path needs are those of its row in the table of R34,
and one of them conflicts where its owner is not marked leaving, or is and the entry is pledged already (R36). The three words of a record are EMPTY,
a CONNECTION with the fields of Table 2-2, or neither, by the format test of R22 and the endpoint codes of Table 2-3. A record judged takes the first
of REJ_RANGE, REJ_LOOPBACK and REJ_PROFILE whose test it fails (R66, R68), and one that passes leaves its kind's mark on its present path: a REMOVE or
MOVE the leaving mark, a RETUNE, RESTORE or COMPLETE its pending fields (R70, R72). In a refused batch a record rejected with a kind outside the mask
receives NOT_RUN like one not rejected (R74), and in an accepted one a rejected record and a NO_CHANGE have their outcomes asked for at the check
(R75). -/
def Obligations.ReservationOwnsOrPledges : Prop :=
  (∀ (c : Nat) (e : Endpoint), endpointOfCode c = some e ↔
    (c, e) ∈ [(1, Endpoint.deg .d1), (2, .deg .d2), (3, .deg .d3), (4, .deg .d4)] ∨
      ∃ n : Fin 12, (c = 17 + n.val ∧ e = .port ⟨.g1, n⟩) ∨ (c = 33 + n.val ∧ e = .port ⟨.g2, n⟩)) ∧
  (∀ ws : HostWords,
    let target : Int := (ws.w1.extractLsb' 16 16).toInt
    let good : Prop := field ws.w0 16 8 < 64 ∧ field ws.w1 8 8 < 8 ∧ -250 ≤ target ∧ target ≤ 50 ∧ field ws.w1 0 8 ≤ 1 ∧ field ws.w2 16 16 = 0
    (field ws.w0 24 8 = 0 → Staged.ofWords ws = some .empty) ∧
    (1 < field ws.w0 24 8 → Staged.ofWords ws = none) ∧
    (field ws.w0 24 8 = 1 →
      (endpointOfCode (field ws.w0 8 8) = none ∨ endpointOfCode (field ws.w0 0 8) = none ∨ ¬ good → Staged.ofWords ws = none) ∧
      (∀ a b, endpointOfCode (field ws.w0 8 8) = some a → endpointOfCode (field ws.w0 0 8) = some b → good → ∃ f : HostFields,
        Staged.ofWords ws = some (.conn f) ∧ f.slot.val = field ws.w0 16 8 ∧ f.src = a ∧ f.dst = b ∧ f.target = target ∧
        f.profile.val = field ws.w1 8 8 ∧ f.permit = ws.w1.getLsbD 0 ∧ f.tag = ws.w2.extractLsb' 0 16))) ∧
  (∀ (s : State) (f : HostFields) (p : Path),
    (classify s .empty none = .noChange ∧ classify s .empty (some p) = .remove) ∧
    (s.table.foreignFor f = none → classify s (.conn f) none = .add) ∧
    (∀ q, s.table.foreignFor f = some q → classify s (.conn f) none = .adopt) ∧
    (sameRoute f p = false → classify s (.conn f) (some p) = .move) ∧
    (sameRoute f p = true →
      (p.st = .live ∨ p.st = .offTarget → classify s (.conn f) (some p) = if sameTarget f p then .noChange else .retune) ∧
      (p.st = .squelched → classify s (.conn f) (some p) =
        if litSource s p.src then .restore else if sameTarget f p then .noChange else .retune) ∧
      (p.st = .discrepant → classify s (.conn f) (some p) = .retune) ∧
      (p.st = .inFlight → classify s (.conn f) (some p) = .complete)) ∧
    (p.st ≠ .discrepant → p.st ≠ .inFlight → (sameRoute f p = true ↔ p.slot = f.slot ∧ p.src = .of f.src ∧ p.dst = .of f.dst)) ∧
    (∀ x, p.st = .discrepant ∨ p.st = .inFlight → p.readInput = some x →
      (sameRoute f p = true ↔ p.dst.out = Res.ofDst f.dst ∧ p.slot = f.slot ∧ x = (PathEnd.of f.src).input ∧
        ∀ port, f.port = some port → port ∈ p.needs))) ∧
  (∀ (b : BatchRec) (rest : List BatchRec) (t : ConnTable) (l : List (RecNo × RejCode)) (f : HostFields), b.conn = some f →
    (∀ u, t.reserve b.no .new f = .ok u → b.verdict = .kind .add ∨ b.verdict = .kind .move → claimRound (b :: rest) t l = claimRound rest u l) ∧
    (∀ c, t.reserve b.no .new f = .error c →
      (b.verdict = .kind .add → claimRound (b :: rest) t l = claimRound rest t (l ++ [(b.no, c)])) ∧
      (b.verdict = .kind .move → claimRound (b :: rest) t l = .moveRefused b.no c)) ∧
    (∀ p, b.verdict = .kind .adopt → t.foreignFor f = some p →
      (p.claimed ≠ none → claimRound (b :: rest) t l = claimRound rest t (l ++ [(b.no, .slotBusy)])) ∧
      (p.claimed = none → (∀ u, t.adopt b.no p.pid f = .ok u → claimRound (b :: rest) t l = claimRound rest u l) ∧
        (∀ c, t.adopt b.no p.pid f = .error c → claimRound (b :: rest) t l = claimRound rest t (l ++ [(b.no, c)])))) ∧
    (∀ x, f.port = some x → (t.entry x ≠ none → ∀ r pid, t.adopt r pid f = .error .portBusy) ∧
      (t.entry x = none → ∀ r pid, ∃ u, t.adopt r pid f = .ok u ∧ u.entry x = some { res := x, owner := pid, pledge := none } ∧
        ∀ q ∈ u.paths, q.pid = pid → q.claimed = some r))) ∧
  (∀ (s : State) (n : Nat),
    (∀ t l, claimRound s.batch.list s.table [] = .final t l →
      claimRounds (n + 1) s = l.foldl (fun s x => setVerdict x.1 (.rej x.2) s) { s with table := t }) ∧
    (∀ r c, claimRound s.batch.list s.table [] = .moveRefused r c →
      claimRounds (n + 1) s = claimRounds n (setVerdict r (.rej c) (unmarkLeaving r s)))) ∧
  (∀ s : State, s.batch.present = true → s.batch.ending = false → s.batch.work = .check → s.start.powerdown = false →
    (∀ b, s.batch.list.find? (fun b => b.verdict = .unjudged) = some b →
      continueCheck s = if s.light.begun.any (fun x => x.no = b.no) then none else some (judge b s)) ∧
    ((∀ b ∈ s.batch.list, b.verdict ≠ .unjudged) →
      let t := claimRounds 257 s
      ((∃ b ∈ t.batch.list, ∃ c, b.verdict = .rej c ∧ t.batch.refuse.getLsbD c.idx = true) → continueCheck s = some (refuseBatch t)) ∧
      (¬ (∃ b ∈ t.batch.list, ∃ c, b.verdict = .rej c ∧ t.batch.refuse.getLsbD c.idx = true) → continueCheck s = some (acceptBatch t)))) ∧
  (∀ s : State, s.batch.recovery = none →
    (refuseBatch s).table = s.table.undo ∧ (refuseBatch s).batch.ending = true ∧
    (∀ r, r ∈ (refuseBatch s).touched ↔ r ∈ s.touched ∨ ∃ b ∈ s.batch.list, b.no = r) ∧
    (refuseBatch s).port.getLast? = some (.endState { st := .refused, seq := s.batch.seq }) ∧
    (s.win.map.isSome = true → ∀ b ∈ s.batch.list,
      (∀ c, b.verdict = .rej c → s.batch.refuse.getLsbD c.idx = true → PortReq.outcome b.no (.rej c) s.batch.seq ∈ (refuseBatch s).port) ∧
      ((∀ c, b.verdict = .rej c → s.batch.refuse.getLsbD c.idx = false) → PortReq.outcome b.no .notRun s.batch.seq ∈ (refuseBatch s).port))) ∧
  (∀ s : State, s.win.map.isSome = true → (∀ x, s.batch.recovery = some x → x.abandon = false) → ∀ b ∈ s.batch.list,
    (∀ c, b.verdict = .rej c → PortReq.outcome b.no (.rej c) s.batch.seq ∈ (acceptBatch s).port) ∧
    (b.verdict = .kind .noChange → PortReq.outcome b.no .noChange s.batch.seq ∈ (acceptBatch s).port)) ∧
  (∀ (s : State) (b : BatchRec) (ws : HostWords), b.copy = some ws →
    let v := verdictOf s b.no ws
    let p? := presentPath b.no s
    (Staged.ofWords ws = none → v = .rej .range) ∧
    (∀ f, Staged.ofWords ws = some (.conn f) → loopback f = true → v = .rej .loopback) ∧
    (∀ st, Staged.ofWords ws = some st → (∀ f, st = .conn f → loopback f = false) →
      profileFails s st (classify s st p?) p? = true → v = .rej .profile) ∧
    (∀ c, v = .rej c → judge b s = setVerdict b.no v s) ∧
    (∀ k, v = .kind k → p? = none → judge b s = setVerdict b.no v s) ∧
    (∀ k p st, v = .kind k → p? = some p → Staged.ofWords ws = some st →
      (k = .remove ∨ k = .move → judge b s = setVerdict b.no v (updatePath p.pid (fun q => { q with leaving := true }) s)) ∧
      (∀ f, st = .conn f → k = .retune ∨ k = .restore → judge b s = setVerdict b.no v
        (updatePath p.pid (fun q => { q with pend := some { target := f.target, profile := f.profile, permitTag := none } }) s)) ∧
      (∀ f, st = .conn f → k = .complete → judge b s = setVerdict b.no v
        (updatePath p.pid (fun q => { q with pend := some { target := f.target, profile := f.profile, permitTag := some (f.permit, f.tag) } }) s)) ∧
      (k = .noChange ∨ k = .add ∨ k = .adopt → judge b s = setVerdict b.no v s))) ∧
  (∀ (s : State) (f : HostFields) (st : Staged) (k : Kind) (q : Path),
    (profileFails s (.conn f) k none = true ↔ (s.profiles[f.profile]).valid = false) ∧
    (profileFails s st k (some q) = true ↔ (∃ g, st = .conn g ∧ (s.profiles[g.profile]).valid = false) ∨
      ((k = .remove ∨ k = .move) ∧ q.route = .source ∧ ∃ i, q.info = some i ∧ (s.profiles[i.profile]).valid = false))) ∧
  (∀ (t : ConnTable) (x : Res),
    (t.conflicts x = true ↔ ∃ o, t.entry x = some o ∧ (o.pledge ≠ none ∨ ¬ ∃ p, t.path? o.owner = some p ∧ p.leaving = true))) ∧
  (∀ p : Path,
    (∀ a b, p.src = .deg a → p.dst = .deg b → p.needs = [.out (.deg b) p.slot, .inp a p.slot]) ∧
    (∀ a b, p.src = .port a → p.dst = .deg b → p.needs = [.out (.deg b) p.slot, .addSlot a.group p.slot, .addPort a]) ∧
    (∀ a b, p.src = .deg a → p.dst = .port b →
      p.needs = [.out (.grp b.group) p.slot, .inp a p.slot, .dropSlot b.group p.slot, .dropPort b]) ∧
    (∀ a b, p.src = .grp a → p.dst = .deg b → p.needs = [.out (.deg b) p.slot, .addSlot a p.slot]) ∧
    (∀ a b, p.src = .deg a → p.dst = .grp b → p.needs = [.out (.grp b) p.slot, .inp a p.slot, .dropSlot b p.slot])) ∧
  (∀ (o : OutPoint) (d : Degree) (g : Group) (n : Slot) (x : Port), (Res.out o n).code = .slotBusy ∧ (Res.inp d n).code = .sourceSlotBusy ∧
    (Res.addSlot g n).code = .groupSlotBusy ∧ (Res.dropSlot g n).code = .groupSlotBusy ∧ (Res.addPort x).code = .portBusy ∧
    (Res.dropPort x).code = .portBusy) ∧
  (∀ (s : State) (b : BatchRec),
    let p? := presentPath b.no s
    let taken (f : HostFields) (p : Path) : State :=
      updatePath p.pid (fun q => { q with info := q.info.map (fun i => { i with permit := f.permit, tag := f.tag }) }) s
    (∀ f p, b.verdict = .kind .retune ∨ b.verdict = .kind .restore → b.conn = some f → p? = some p → acceptRecord b s = taken f p) ∧
    (b.verdict = .kind .noChange →
      (∀ f p q d, b.conn = some f → p? = some p → p.st.done = some d → (taken f p).path? p.pid = some q →
        acceptRecord b s = fixCompleted b.no (q.completed s.win.cfg d) (taken f p)) ∧
      (p? = none → (s.completed b.no = .lost → acceptRecord b s = fixCompleted b.no .empty s) ∧
        (s.completed b.no ≠ .lost → acceptRecord b s = s))) ∧
    ((∀ k ∈ [Kind.retune, .restore, .noChange], b.verdict ≠ .kind k) → acceptRecord b s = s)) ∧
  (∀ (s : State) (b : BatchRec),
    let old := (presentPath b.no s).map (·.pid)
    let new := (s.table.halfPath b.no .new).map (·.pid)
    let claimed := (s.table.paths.find? (fun p => p.claimed = some b.no)).map (·.pid)
    let fresh (k : Kind) (o n : Option Nat) (h : Half) : Entry :=
      { no := b.no, kind := k, oldP := o, newP := n, chain := [], half := h, st := .waiting, fail := none, void := none, reversing := false }
    (∀ k e, (k, e) ∈ [(Kind.add, fresh .add none new .new), (.move, fresh .move old new .old), (.adopt, fresh .adopt none claimed .new),
        (.remove, fresh .remove old none .old), (.retune, fresh .retune old none .old), (.restore, fresh .restore old none .old),
        (.complete, fresh .complete old none .old)] →
      b.verdict = .kind k → entryOf s b = some e) ∧
    ((∀ k, k ≠ .noChange → b.verdict ≠ .kind k) → entryOf s b = none)) ∧
  (∀ s : State,
    let u := s.batch.list.foldl (fun t b => acceptRecord b t) s
    (acceptBatch s).queue = s.batch.list.filterMap (entryOf u) ∧ (acceptBatch s).table = u.table ∧ (acceptBatch s).holds = u.holds ∧
    u.port <+: (acceptBatch s).port) ∧
  (∀ s : State,
    (acceptBatch s).batch.work = .run ∧ (∀ e ∈ (acceptBatch s).queue, e.st = .waiting ∧ e.fail = none) ∧
    (acceptBatch s).queue.map (·.no) = s.batch.list.filterMap (fun b => match b.verdict with
      | .kind .noChange => none
      | .kind _ => some b.no
      | _ => none) ∧
    (0 < s.intr.depth → (acceptBatch s).seqr.st = .suspended) ∧
    (s.intr.depth = 0 → (∀ x, s.batch.recovery = some x → x.toHeld = false) →
      (acceptBatch s).seqr.st = .running ∧ (acceptBatch s).batch.phase = max 1 s.batch.phase) ∧
    (∀ x, s.intr.depth = 0 → s.batch.recovery = some x → x.toHeld = true →
      (acceptBatch s).seqr.st = .holding ∧ (acceptBatch s).batch.phase = s.batch.phase)) ∧
  ∀ (t : ConnTable) (r : RecNo) (h : Half) (f : HostFields),
    let p := Path.reserved t.nextPid r h f
    (∀ x, p.needs.find? t.conflicts = some x → t.reserve r h f = .error x.code) ∧
    ((∀ x ∈ p.needs, t.conflicts x = false) → ∃ u, t.reserve r h f = .ok u ∧ u.paths = t.paths ++ [p] ∧
      (∀ x ∈ p.needs, t.entry x = none → u.entry x = some { res := x, owner := p.pid, pledge := none }) ∧
      (∀ x ∈ p.needs, ∀ o, t.entry x = some o → u.entry x = some { o with pledge := some p.pid }) ∧
      (∀ x, x ∉ p.needs → u.entry x = t.entry x))

/-- An active record's write-back carries its four words into the active page and lifts its hold (R15, R24); an outcome word's write lands in word 3
of the staging record, which the batch then no longer holds (R23, R55). A write of an active record that becomes due takes the record's measured
power, brings its hold into force, but not in POWERDOWN, and is asked for; two that become due before the write is carried out are one write of the
latest contents under one hold (R15, R24). The end state's write ends the batch (R95): the record list and the Transition Queue are emptied, BATCH_END
is raised, and the sequencer is IDLE at depth 0 and SUSPENDED above it. That the end state is shown and written again at depth 0 from SUSPENDED, and
that above depth 0 SUSPENDED is shown after the end state, which is kept, is read from the spec (logs 16 and 17, DEDUCED). -/
def Obligations.WriteBacksLandAndEndTheBatch : Prop :=
  (∀ (s : State) (r : RecNo),
      let t := activeDue r s
      t = { s with table := t.table, holds := t.holds, port := t.port } ∧ t.table = { s.table with done := t.table.done } ∧
      (∀ x, s.completed r = .path x → t.completed r = .path { x with measured := powerAverage s (Res.ofDst x.host.dst) x.host.slot }) ∧
      (s.completed r = .lost → t.completed r = .lost) ∧
      ((s.table.done.map (·.1)).Pairwise (· < ·) → s.completed r = .empty → t.completed r = .empty) ∧
      t.holds = { s.holds with wb := if s.start.powerdown = true ∨ r ∈ s.holds.wb then s.holds.wb else s.holds.wb ++ [r] } ∧
      t.port = (if PortReq.active r ∈ s.port then s.port else s.port ++ [.active r]) ∧
      (∀ c, (fixCompleted r c t).port = t.port ∧ (fixCompleted r c t).holds = t.holds)) ∧
  (∀ (s : State) (m : WindowMap) (r : RecNo), Awake s → s.win.map = some m →
      (NextIs s (.active r) → exec .activeWriteBack s = settled
        { written s (.active r) (pageAddr m.active (offRecord r)) (s.completed r).words with
          holds := { s.holds with wb := s.holds.wb.filter (fun x => x ≠ r) } }) ∧
      (∀ c q, NextIs s (.outcome r c q) → exec .outcomeWordWrite s = settled
        { written s (.outcome r c q) (pageAddr m.staging (offRecord r + 12)) [outcomeWord c q] with
          batch := { s.batch with list := s.batch.list.map (fun b => if b.no = r then { b with held := false } else b) } })) ∧
  (∀ (s : State) (m : WindowMap) (b : BatchWord), Awake s → s.win.map = some m → NextIs s (.endState b) →
      let t := raiseCause .batchEnd { written s (.endState b) (pageAddr m.status offBatchState) [b.word] with
        batch := { s.batch with present := false, ending := false, list := [], abandon := false, stopPending := false, work := .none
                                lastFetched := none, recovery := none, lossStop := false }
        queue := [] }
      (s.intr.depth = 0 → s.seqr.st ≠ .suspended →
        exec .endStateWrite s = settled { t with seqr := { s.seqr with st := .idle } }) ∧
    (s.intr.depth = 0 → s.seqr.st = .suspended →
      exec .endStateWrite s = settled { t with seqr := { s.seqr with st := .idle, shown := b }, port := t.port ++ [.batchState b] }) ∧
      (0 < s.intr.depth → exec .endStateWrite s = settled { t with
        seqr := { s.seqr with st := .suspended, kept := some b, shown := { st := .suspended, seq := b.seq } }
        port := t.port ++ [.batchState { st := .suspended, seq := b.seq }] }))

/-! ### Integrity Unit and arbiter -/

/-- The arbiter's next grant is a waiting request of the highest rank, the first to arrive among those of its rank, and there is one while any
request waits. Save writes have rank 2, write-backs rank 4, reads of a fetch, a resume word, a rebuild, an anchor read and a comparison rank 5, scrub
reads rank 6; correction rewrites, rank 1, and host cycles, rank 3, stand outside the list (R16). A write of the part stores its words at its grant.
The status words go where Table 2-5 has them, by the window map at the grant (R3), and hold the fields of Table 2-6: the command response (R25), the
batch state and the counters (R27), the attention word (R177), the Memory Fault Record (R171), the protection record (R11), the light word (R145), the
monitor word (R122, R123) and the module word (R135); in UNCONFIGURED the response goes behind the command watch (R7), and any other is discarded (the
model's choice, log 14). That the protection record, the Memory Fault Record and the module word carry the state at the grant is log 61 (DESIGN
CHOICE), the value of the monitor word log 15 (DEDUCED). The accesses without a row are carried out in the arbiter's order ahead of the next row, and
by the part itself on an empty queue, a waiting correction rewrite stopping them (the model's choice, log 5). -/
def Obligations.ArbiterGrantsByRankThenAge : Prop :=
  (∀ (s : State) (r : PortReq) (a : Nat) (ws : List Word), writeOf s r = some (a, ws) → carryOut r s = storeBurst a ws s) ∧
  (∀ (s : State) (m : WindowMap), s.win.map = some m →
    let here (off : Nat) (ws : List Word) : Option (Nat × List Word) := some (pageAddr m.status off, ws)
    (∀ w, writeOf s (.response w) = here 12 [w]) ∧
    (∀ b, writeOf s (.batchState b) = here 16 [b.word] ∧ writeOf s (.endState b) = here 16 [b.word]) ∧
    (∀ c, writeOf s (.counters c) = here 20 c.words) ∧
    writeOf s .attention = here 28 [s.attn.word] ∧ writeOf s .memFault = here 32 s.integ.mfr.words ∧
    writeOf s .protection = here 40 [s.prot.word] ∧ writeOf s .light = here 44 [lightWord s.light.state s.light.changeSet] ∧
    writeOf s (.monitor true) = here 48 [1] ∧ writeOf s (.monitor false) = here 48 [0] ∧
    writeOf s .modules = here 52 [moduleWord s.act.mods]) ∧
  (∀ s : State, s.win.map = none →
    (∀ w, writeOf s (.response w) = s.win.watch.map (fun a => (a + 12, [w]))) ∧
    (∀ b c up, ∀ r ∈ [PortReq.batchState b, .endState b, .counters c, .attention, .memFault, .protection, .light, .monitor up, .modules],
      writeOf s r = none ∧ carryOut r s = s)) ∧
  (∀ (q : BitVec 16) (k : BitVec 8) (r : Response) (n : Nat),
    (r, n) ∈ [(Response.accepted, 1), (.busy, 2), (.suspended, 3), (.unconfigured, 4), (.state, 5), (.badCommand, 6)] →
    let w := responseWord q k r
    w.extractLsb' 16 16 = q ∧ w.extractLsb' 8 8 = k ∧ field w 0 8 = n) ∧
  (∀ (b : BatchWord) (n : Nat),
    (b.st, n) ∈ [(BatchWordState.none, 0), (.fetching, 1), (.checking, 2), (.running, 3), (.holding, 4), (.held, 5), (.cancelling, 6), (.suspended, 7),
      (.done, 8), (.doneWithFailures, 9), (.refused, 10), (.cancelled, 11), (.abandoned, 12)] →
    b.word.extractLsb' 16 16 = b.seq ∧ field b.word 8 8 = 0 ∧ field b.word 0 8 = n) ∧
  (∀ c : Counters, c.total ≤ 256 → c.done ≤ 256 → c.rejected ≤ 256 → c.failed ≤ 256 → c.other ≤ 256 → ∃ x y, c.words = [x, y] ∧
    field x 16 10 = c.total ∧ field x 0 10 = c.done ∧ field y 20 10 = c.rejected ∧ field y 10 10 = c.failed ∧ field y 0 10 = c.other) ∧
  (∀ a : Attention, a.word.extractLsb' 0 8 = a.pending ∧ a.word.extractLsb' 8 8 = a.enable ∧ field a.word 16 4 = topRank (a.pending &&& a.enable) ∧
    field a.word 20 12 = 0) ∧
  (∀ (f : MemFault) (k q : Nat), f.addr < 2 ^ 24 →
    (f.kind, k) ∈ [(MemFaultKind.none, 0), (.corrected, 1), (.uncorrectable, 2)] →
    (f.req, q) ∈ [(MemFaultReq.hostRead, 0), (.hostPartialWrite, 1), (.fetch, 2), (.rebuild, 3), (.scrub, 4)] → ∃ x y, f.words = [x, y] ∧
    field x 0 24 = f.addr ∧ field x 24 8 = 0 ∧ field y 0 2 = k ∧ field y 4 3 = q ∧ y.extractLsb' 8 7 = f.syndrome ∧ y.getLsbD 16 = f.further) ∧
  (∀ p : ProtRecord, (p.filled = false → p.word = 0) ∧
    (p.filled = true → p.word.getLsbD 31 = true ∧ p.word.getLsbD 24 = p.further ∧ p.word.extractLsb' 0 24 = p.addr)) ∧
  (∀ (l : PerDegree LightState) (c : PerDegree Bool) (d : Degree) (n : Nat), (l.get d, n) ∈ [(LightState.lit, 0), (.dark, 1), (.holdoff, 2)] →
    field (lightWord l c) (2 * d.idx) 2 = n ∧ (lightWord l c).getLsbD (8 + d.idx) = c.get d) ∧
  (∀ (m : PerPoint ModState) (o : OutPoint) (n : Nat), (m.get o, n) ∈ [(ModState.online, 0), (.faulted, 1), (.refreshing, 2)] →
    field (moduleWord m) (2 * o.idx) 2 = n) ∧
  (∀ r : PortReq, r.quiet = (match r with
    | .response _ | .batchState _ | .counters _ | .attention | .protection | .memFault | .light | .monitor _ | .modules
    | .slotBurst _ _ _ | .slotWord0 _ _ | .saveHeader _ | .anchorHead | .rbSlotPart _ _ | .rbBatchState => true
    | _ => false) ∧ (r.quiet = true ↔ r.row = none)) ∧
  (∀ (n : Nat) (s : State), drainQuiet 0 s = s ∧ (s.integ.rewrites ≠ [] → drainQuiet n s = s) ∧
    (nextReq s.port = none → drainQuiet n s = s) ∧
    (∀ r, s.integ.rewrites = [] → nextReq s.port = some r →
      (r.quiet = true → drainQuiet (n + 1) s = drainQuiet n (carryOut r { s with port := s.port.erase r })) ∧
      (r.quiet = false → drainQuiet n s = s))) ∧
  (∀ (want : PortReq → Bool) (s : State),
    (portBlocked s = true → takeRow want s = none) ∧
    (portBlocked s = false →
      let u := drainQuiet s.port.length s
      (u.integ.rewrites ≠ [] ∨ nextReq u.port = none → takeRow want s = none) ∧
      (∀ r, u.integ.rewrites = [] → nextReq u.port = some r →
        takeRow want s = if want r = true then some (r, { u with port := u.port.erase r }) else none))) ∧
  (∀ (s : State) (r : PortReq), s.start.inReset = false → ownEvent s = none → portBlocked s = false → s.integ.rewrites = [] →
    nextReq (grantable s) = some r →
    (r.row = none → idle s = carryOut r { s with port := s.port.erase r }) ∧
    (∀ c, r.row = some c → idle s = { s with pending := s.pending ++ [c] })) ∧
  (∀ r : PortReq, r.rank = match r with
    | .slotBurst _ _ _ | .mergeEnd _ | .captureHeader _ | .slotWord0 _ _ | .popHeader _ | .saveHeader _ => 2
    | .response _ | .batchState _ | .endState _ | .counters _ | .attention | .protection | .memFault | .light | .monitor _ | .modules
    | .active _ | .outcome _ _ _ => 4
    | .fetchRec _ | .fetchMasks | .fetchProf _ | .resumeWord _ | .anchorHead | .anchor _ | .rbProf _ | .rbActive _ | .rbHeader
    | .rbSlotPart _ _ | .rbSlot _ | .rbTail _ | .newHalf _ | .rbBatchState | .compare _ => 5
    | .scrub _ => 6) ∧
  ∀ l : List PortReq,
    (l ≠ [] → nextReq l ≠ none) ∧
    (∀ r, nextReq l = some r → ∃ before after, l = before ++ r :: after ∧ (∀ q ∈ before, r.rank < q.rank) ∧
      (∀ q ∈ after, r.rank ≤ q.rank))

/-- A correction rewrite, where the port is free, writes its corrected word back, unless that word was written meanwhile, and leaves the list (R170).
The pacing timer's expiry at zero asks for one read of the word under the scrub pointer, unless one waits; an expiry that is not at zero does nothing
(the model's choice, log 8). The scrub read of a word that shows no syndrome changes nothing but the pointer, which walks the words and then the five
pages (R173); one that is corrected is reported and written back; one that is uncorrectable is reported, and in the active page, judged by the window
map when the read completes (the model's choice, log 72), its record's write becomes due (R174). Which bit a syndrome names is free (log 2). A fault
reported fills an empty Memory Fault Record, whose write is asked for before MEMORY_FAULT is raised; the next sets its further-faults flag with a
write and no cause, and later ones change nothing (R171). A correction asks for one rewrite of its word, unless one of that word is on the list or the
list holds 8 (R170). -/
def Obligations.RewritesAndScrubReads : Prop :=
  (∀ (s : State) (k : MemFaultKind) (q : MemFaultReq) (a : Nat) (y : BitVec 7),
    let put (f : MemFault) : State := requestStatus .memFault { s with integ := { s.integ with mfr := f } }
    (s.integ.mfr.kind = .none → reportFault k q a y s =
      raiseCause .memoryFault (put { kind := k, req := q, addr := a, syndrome := y, further := false })) ∧
    (s.integ.mfr.kind ≠ .none → s.integ.mfr.further = false → reportFault k q a y s = put { s.integ.mfr with further := true }) ∧
    (s.integ.mfr.kind ≠ .none → s.integ.mfr.further = true → reportFault k q a y s = s)) ∧
  (∀ (s : State) (a : Nat) (w : Word),
    ((∃ r ∈ s.integ.rewrites, r.addr = a) ∨ 8 ≤ s.integ.rewrites.length → addRewrite a w s = s) ∧
    ((∀ r ∈ s.integ.rewrites, r.addr ≠ a) → s.integ.rewrites.length < 8 → addRewrite a w s = { s with
      integ := { s.integ with rewrites := s.integ.rewrites ++ [{ addr := a, data := w, written := false }] } })) ∧
  (∀ (s : State) (r : Rewrite) (rest : List Rewrite), Awake s → portBlocked s = false → s.integ.rewrites = r :: rest →
    (r.written = true → exec .correctionRewrite s = settled { fresh s with integ := { s.integ with rewrites := rest } }) ∧
    (r.written = false → exec .correctionRewrite s = settled { fresh s with
      mem := s.mem.storeWord r.addr r.data, integ := { s.integ with rewrites := overtaken r.addr rest } })) ∧
  (∀ (s : State) (m : WindowMap), Awake s → s.win.map = some m → scrubRuns s = true →
    (s.integ.scrub.started = true → s.integ.scrub.timer = 0 → exec .pacingTimerExpiry s = settled { fresh s with
      integ := { s.integ with scrub := { s.integ.scrub with timer := 10 } }
      port := if s.port.any (fun r => match r with | .scrub _ => true | _ => false) then s.port
              else s.port ++ [.scrub (scrubAddr s m)] }) ∧
    (s.integ.scrub.started = false ∨ s.integ.scrub.timer ≠ 0 → exec .pacingTimerExpiry s = settled (fresh s))) ∧
  (∀ (s : State) (a : Nat), Awake s → NextIs s (.scrub a) →
    let walk (u : State) : State := { u with integ := { u.integ with scrub :=
      if s.integ.scrub.word = 1023 then { s.integ.scrub with word := 0, page := s.integ.scrub.page + 1 }
      else { s.integ.scrub with word := s.integ.scrub.word + 1 } } }
    let g := granted s (.scrub a)
    let y := s.mem.syndrome a
    (y = 0 → exec .scrubRead s = settled (walk g)) ∧
    (∀ i, y ≠ 0 → Config.syndromeBit y = some i →
      let v := if i.val < 32 then s.mem.word a ^^^ ((1 : Word) <<< i.val) else s.mem.word a
      exec .scrubRead s = settled (walk (addRewrite a v (reportFault .corrected .scrub a y g)))) ∧
    (y ≠ 0 → Config.syndromeBit y = none →
      exec .scrubRead s = settled (if s.win.role (pageOf a) = .active then activeDue (recordAt (a % 4096)) (walk (reportFault .uncorrectable .scrub a y g))
        else walk (reportFault .uncorrectable .scrub a y g))))

/-! ### Rebuild, anchor reads and the re-read -/

/-- An anchor read is two bursts, a re-read's of memory as it stood when the re-read began (R9), any other's of memory as the burst's own grant finds
it (log 59, DEDUCED): the first keeps words 0 to 3, and the second reads words 4 to 6 (R17, R21). A single bit in error is reported and delivered
corrected, and the word is put on the rewrite list (R169, R170) unless memory no longer holds it as it was read (log 59, DEDUCED). Rebuild's anchor
read installs a valid anchor's map and asks for profile 0 (R3, R179); an invalid one, or one with an uncorrectable word, leaves the part UNCONFIGURED
with the four roles absent and the enable set empty (R182); so does one with an uncorrectable word in its second burst. An anchor record is valid by
the seven tests of R21, and gives the fields of R20, a stored budget of 0 taken as 2. With the map the five mirrored status words and the attention
word are asked for (R29). CFG_OK is HIGH exactly while a window map is installed (R3). Its profile reads fill the cache, a profile with an
uncorrectable word as one not valid, the fault reported with requester REBUILD (R179), and the last asks for active record 0. -/
def Obligations.RebuildReadsTheAnchorAndProfiles : Prop :=
  (∀ s : State, s.cfgOk = true ↔ ∃ m, s.win.map = some m) ∧
  (∀ s : State,
    let m := s.start.anchorSeen.getD s.mem
    CleanBurst m (pageAddr s.win.anchorPage 0) 4 → carryOut .anchorHead s = { s with
      start := { s.start with readPart := (burstWords m (pageAddr s.win.anchorPage 0) 4).map (fun w => (w, false)) } }) ∧
  (∀ (m : Memory) (s : State) (a : Nat) (i : Fin 39), m.syndrome a ≠ 0 → Config.syndromeBit (m.syndrome a) = some i →
    let v := if i.val < 32 then m.word a ^^^ ((1 : Word) <<< i.val) else m.word a
    let t := reportFault .corrected .rebuild a (m.syndrome a) s
    (s.mem.word a = m.word a → s.mem.syndrome a = m.syndrome a → readWordOf m .rebuild a s = (addRewrite a v t, v, false)) ∧
    (s.mem.word a ≠ m.word a ∨ s.mem.syndrome a ≠ m.syndrome a → readWordOf m .rebuild a s = (t, v, false))) ∧
  (∀ s : State, Awake s → NextIs s (.anchor .rebuild) →
    let m := s.start.anchorSeen.getD s.mem
    CleanBurst m (pageAddr s.win.anchorPage 16) 3 →
    let r := anchorOf m s
    (∀ c, r = some c → ∃ t, exec .rebuildAnchorRead s = settled t ∧
      t.win = { s.win with map := some c.map, watch := none, cfg := some c } ∧ t.start.stage = .profiles ∧
      t.attn.enable = c.enables ∧ PortReq.rbProf 0 ∈ t.port ∧ t.seqr = s.seqr ∧ t.mem = s.mem ∧
      ∀ x ∈ [PortReq.protection, .memFault, .light, .monitor s.mon.linkUp, .modules, .attention], x ∈ t.port) ∧
    (r = none → ∃ t, exec .rebuildAnchorRead s = settled t ∧ (s.seqr.rereadDue = true → t.seqr.anchorRead = true) ∧ t.seqr.st = .unconfigured ∧
      t.win.map = none ∧ t.attn.enable = 0 ∧ t.attn.pending = s.attn.pending ∧ t.start.stage = .none ∧ t.light.restoreList = [])) ∧
  (∀ s : State, Awake s → NextIs s (.anchor .rebuild) →
    (∃ i, i < 3 ∧ ((s.start.anchorSeen.getD s.mem).check (pageAddr s.win.anchorPage 16 + 4 * i)).1 = .uncorrectable) →
    ∃ t, exec .rebuildAnchorRead s = settled t ∧ t.seqr.st = .unconfigured ∧ t.win.map = none ∧ t.attn.enable = 0 ∧ t.start.stage = .none) ∧
  (∀ (a : Page) (w0 w1 w2 w3 w4 w5 w6 : Word),
    let page (w : Word) (lo : Nat) : Page := BitVec.ofNat 12 (field w lo 12)
    let valid : Prop := w0 = 0x4C583234 ∧ field w1 0 8 = 1 ∧ [a, page w2 16, page w2 0, page w3 16, page w3 0].Nodup ∧
      field w4 0 3 ≤ 4 ∧ (∀ d : Degree, field w5 (8 * d.idx) 8 ≤ 250) ∧ 1 ≤ field w4 24 8
    (¬ valid → AnchorCfg.ofWords a [w0, w1, w2, w3, w4, w5, w6] = none) ∧
    (valid → ∃ c, AnchorCfg.ofWords a [w0, w1, w2, w3, w4, w5, w6] = some c ∧
      c.map = { staging := page w2 16, active := page w2 0, status := page w3 16, save := page w3 0 } ∧
      c.budget = (if field w4 0 3 = 0 then 2 else field w4 0 3) ∧
      (∀ d : Degree, c.fill.get d = w4.getLsbD (8 + d.idx) ∧ c.idler.get d = field w5 (8 * d.idx) 8) ∧
      c.autoRestore = w4.getLsbD 16 ∧ c.scrub = w4.getLsbD 17 ∧ c.holdOff = field w4 24 8 ∧ c.enables = w6.extractLsb' 0 8)) ∧
  (∀ (s : State) (m : WindowMap) (k : Fin 8), Awake s → s.win.map = some m → NextIs s (.rbProf k) →
    let x (i : Nat) : ReadCheck × Word := s.mem.check (pageAddr m.status (offProfile k.val) + 4 * i)
    ∃ t, exec .rebuildProfileRead s = settled t ∧ (∀ j : Fin 8, j ≠ k → t.profiles[j] = s.profiles[j]) ∧ t.mem = s.mem ∧
      ((∀ i, i < 4 → (x i).1 ≠ .uncorrectable) → t.profiles[k] = Profile.ofWords (x 0).2 (x 1).2 (x 2).2 (x 3).2) ∧
      ((∃ i, i < 4 ∧ (x i).1 = .uncorrectable) → (t.profiles[k]).valid = false ∧
        (s.integ.mfr.kind = .none → t.integ.mfr.req = .rebuild ∧ t.integ.mfr.kind ≠ .none))) ∧
  (∀ (s : State) (m : WindowMap) (k : Fin 8), Awake s → s.win.map = some m → NextIs s (.rbProf k) →
    let a := pageAddr m.status (offProfile k.val)
    CleanBurst s.mem a 4 →
    let profiles := s.profiles.set k (Profile.ofWords (s.mem.word a) (s.mem.word (a + 4)) (s.mem.word (a + 8)) (s.mem.word (a + 12)))
    (k.val < 7 → exec .rebuildProfileRead s = settled { granted s (.rbProf k) with
      port := s.port.erase (.rbProf k) ++ [.rbProf (k + 1)], profiles := profiles }) ∧
    (k.val = 7 → exec .rebuildProfileRead s = settled { granted s (.rbProf k) with
      port := s.port.erase (.rbProf k) ++ [.rbActive 0], profiles := profiles
      start := { s.start with stage := .active, yields := [], discrepancies := 0, newHalves := [] }
      table := { s.table with done := [] } }))

/-- Rebuild's read of an active record notes the path it yields, or the completed state EMPTY or LOST, and asks for the next (R179): a record with an
uncorrectable word is LOST, one in state EMPTY is EMPTY, one in LIVE, OFF_TARGET, SQUELCHED or DISCREPANT whose fields are a CONNECTION without
loopback yields its path, and every other is LOST; that attenuation codes 251 to 254 are taken as BLOCK is log 28 (DEDUCED). After record 255 the save
header is read, at stage SAVE. The header gives the count's limit, one that is uncorrectable or above 4 being taken as 4; each slot up to the limit is
read in four bursts (R17), an OUTSTANDING one is counted while the count runs, four at most (R30), any other and an uncorrectable one ends the count,
and the slots above it are read all the same. After the last, and at once with a header of 0, the depth is the number counted (R179; that the part
holds it from there on, ahead of the reads of word 0 above it, is the model's choice, log 96), the images are the records read with the rebuilt flag
set, word 0 of each is rewritten, and so is a header that differs. That the words 0 are asked for before the header is the model's choice (log 74),
and so is that a header taken as 4 is rewritten where 4 slots are counted too (log 84). The read of word 0 of a slot above the depth marks an
OUTSTANDING or uncorrectable one RESUMED, and after slot 4 the readback begins with one READ of 64 slots for each module in order (R138, R179, R180).
-/
def Obligations.RebuildReadsRecordsAndSlots : Prop :=
  (∀ (s : State) (m : WindowMap) (r : RecNo), Awake s → s.win.map = some m → NextIs s (.rbActive r) → r.val < 255 →
    let a := pageAddr m.active (offRecord r)
    CleanBurst s.mem a 4 →
    let t := { granted s (.rbActive r) with port := s.port.erase (.rbActive r) ++ [.rbActive (r + 1)] }
    let j := judgeActive r ((burstWords s.mem a 4).map (fun w => (w, false)))
    (∀ y, j = .inl y → exec .rebuildActiveRead s = settled
      { t with start := { s.start with yields := s.start.yields ++ [y] } }) ∧
    (∀ c, j = .inr c → exec .rebuildActiveRead s = settled (setCompleted r c t))) ∧
  (∀ (s : State) (m : WindowMap) (r : RecNo), Awake s → s.win.map = some m → NextIs s (.rbActive r) → r.val = 255 →
    let a := pageAddr m.active (offRecord r)
    CleanBurst s.mem a 4 →
    let v : SaveScan := { header := none, limit := 0, slots := [], ended := false }
    let t := { granted s (.rbActive r) with port := s.port.erase (.rbActive r) ++ [.rbHeader], start := { s.start with stage := .save, save := v } }
    let j := judgeActive r ((burstWords s.mem a 4).map (fun w => (w, false)))
    (∀ y, j = .inl y → exec .rebuildActiveRead s = settled
      { t with start := { s.start with yields := s.start.yields ++ [y], stage := .save, save := v } }) ∧
    (∀ c, j = .inr c → exec .rebuildActiveRead s = settled (setCompleted r c t))) ∧
  (∀ (r : RecNo) (a b c d : Word) (w x y z : Bool),
    let j := judgeActive r [(a, w), (b, x), (c, y), (d, z)]
    (w = true ∨ x = true ∨ y = true ∨ z = true → j = .inr .lost) ∧
    (w = false → x = false → y = false → z = false →
      (field d 24 8 = 0 → j = .inr .empty) ∧
      (∀ st f, (field d 24 8, st) ∈ [(1, DoneState.live), (2, .offTarget), (3, .squelched), (4, .discrepant)] →
        Staged.ofWords ⟨a, b, c⟩ = some (.conn f) →
        (loopback f = true → j = .inr .lost) ∧
        (loopback f = false → j = .inl { no := r, st := st, host := f, att := (attOfCode (field d 16 8)).getD .block })) ∧
      (4 < field d 24 8 → j = .inr .lost) ∧
      (field d 24 8 ≠ 0 → (∀ f, Staged.ofWords ⟨a, b, c⟩ ≠ some (.conn f)) → j = .inr .lost))) ∧
  (∀ (s : State) (m : WindowMap) (k b : Nat), s.win.map = some m →
    let a := pageAddr m.save (offSlot k + 16 * b)
    let l := (if b = 0 then [] else s.start.readPart) ++ (burstWords s.mem a 4).map (fun w => (w, false))
    CleanBurst s.mem a 4 → carryOut (.rbSlotPart k b) s = { s with start := { s.start with readPart := l } }) ∧
  (∀ (s : State) (m : WindowMap) (k : Nat), Awake s → s.win.map = some m → NextIs s (.rbSlot k) →
    let a := pageAddr m.save (offSlot k + 48)
    CleanBurst s.mem a 4 →
    let ws := s.start.readPart.map (·.1) ++ burstWords s.mem a 4
    let u (v : SaveScan) : State := { granted s (.rbSlot k) with start := { s.start with save := v, readPart := [] } }
    let next (v : SaveScan) : State := if k < s.start.save.limit then { u v with port := s.port.erase (.rbSlot k) ++
        [.rbSlotPart (k + 1) 0, .rbSlotPart (k + 1) 1, .rbSlotPart (k + 1) 2, .rbSlot (k + 1)] }
      else saveCounted (u v)
    ((∀ x ∈ s.start.readPart, x.2 = false) →
      (s.start.save.ended = false → field (ws.headD 0) 0 2 = 1 →
        exec .rebuildSaveRead s = settled (next { s.start.save with slots := (s.start.save.slots ++ [ws]).take 4 })) ∧
      (s.start.save.ended = true ∨ field (ws.headD 0) 0 2 ≠ 1 →
        exec .rebuildSaveRead s = settled (next { s.start.save with ended := true }))) ∧
    ((∃ x ∈ s.start.readPart.take 11, x.2 = true) →
      exec .rebuildSaveRead s = settled (next { s.start.save with ended := true }))) ∧
  (∀ (s : State) (m : WindowMap), Awake s → s.win.map = some m → NextIs s .rbHeader →
    let a := pageAddr m.save offHeader
    let h := field (s.mem.word a) 0 3
    let y := s.mem.syndrome a
    let slot1 : List PortReq := [.rbSlotPart 1 0, .rbSlotPart 1 1, .rbSlotPart 1 2, .rbSlot 1]
    let scan (x : Option Nat) (n : Nat) : SaveScan := { header := x, limit := n, slots := [], ended := false }
    (y = 0 → 0 < h → h ≤ 4 → exec .rebuildSaveRead s = settled { granted s .rbHeader with
      port := s.port.erase .rbHeader ++ slot1, start := { s.start with save := scan (some h) h } }) ∧
    (y = 0 → 4 < h → exec .rebuildSaveRead s = settled { granted s .rbHeader with
      port := s.port.erase .rbHeader ++ slot1, start := { s.start with save := scan none 4 } }) ∧
    (y = 0 → h = 0 → exec .rebuildSaveRead s = settled (saveCounted { granted s .rbHeader with
      start := { s.start with save := scan (some 0) 0 } })) ∧
    (y ≠ 0 → Config.syndromeBit y = none →
      let g := reportFault .uncorrectable .rebuild a y (granted s .rbHeader)
      exec .rebuildSaveRead s = settled { g with port := g.port ++ slot1, start := { s.start with save := scan none 4 } })) ∧
  (∀ s : State,
    let v := s.start.save
    let d := v.slots.length
    let images := v.slots.map (fun ws => ws.modify 0 (fun w => setBits w (2 ^ 9)))
    let t : State := { s with
      intr := { s.intr with depth := d, header := d, images := images }
      port := s.port ++ (List.range d).map (fun i => PortReq.slotWord0 (i + 1) ((images.getD i []).headD 0)) ++
        (if v.header = some d then [] else [.saveHeader d]) }
    (d < 4 → saveCounted s = { t with port := t.port ++ [.rbTail (d + 1)] }) ∧ (4 ≤ d → saveCounted s = startReadback t)) ∧
  (∀ (s : State) (m : WindowMap) (k : Nat), Awake s → s.win.map = some m → NextIs s (.rbTail k) →
    let a := pageAddr m.save (offSlot k)
    let w := s.mem.word a
    let y := s.mem.syndrome a
    let next (t : State) : State := if k < 4 then { t with port := t.port ++ [.rbTail (k + 1)] } else startReadback t
    (y = 0 → exec .rebuildSaveRead s = settled (next { granted s (.rbTail k) with
      port := s.port.erase (.rbTail k) ++ (if field w 0 2 = 1 then [.slotWord0 k (withRecordState w 2)] else []) })) ∧
    (y ≠ 0 → Config.syndromeBit y = none →
      let g := reportFault .uncorrectable .rebuild a y (granted s (.rbTail k))
      exec .rebuildSaveRead s = settled (next { g with port := g.port ++ [.slotWord0 k (withRecordState w 2)] }))) ∧
  (∀ s : State, s.act.ordinary.length ≤ 18 → s.act.wait = [] →
    let t := startReadback s
    let read (o : OutPoint) : ActCmd := { module := o, kind := .read, start := 0, count := 64, vals := [], built := true, req := .readback }
    t.start.stage = .readback ∧ (∀ o, t.start.readback.get o = .unread) ∧ t.act = { s.act with
      ordinary := s.act.ordinary ++ [read (.deg .d1), read (.deg .d2), read (.deg .d3), read (.deg .d4), read (.grp .g1), read (.grp .g2)] })

/-- An active record's claim, by the table of R180: no readback leaves its state, one that agrees gives that state at the attenuation read back, any
other DISCREPANT as read back. A record listed with its old half is IN_FLIGHT and keeps the completed state its active record showed (log 22,
DEDUCED), one listed with its new half presents no claim and is EMPTY. Every claimed path of a record is owned as its old half (log 37, DEDUCED). A
claim with an entry owned is refused: its record is LOST, a discrepancy, as is every DISCREPANT path (R52, R180). A slot that shows an input and has
no owner is counted FOREIGN, its path made where the entries it needs are free (R34, R52). The staging read of a new half makes no claim where a word
is uncorrectable or the record is EMPTY, a loopback, or fails R22's format test (the last: model's choice, log 100); any other presents it, by the
readback (R180; at the fill with its attenuation: model's choice, log 82) or, with none, by the item; the next follows. The order (R180): the table
emptied, records as read, new halves in list order, slots of D1 to G2. At REWRITE every active record becomes due (R181; in ascending number: model's
choice, log 77), DISCREPANCY is raised where one was counted, and at COMPARE the batch state word is read (R27; log 19, DEDUCED) and the comparison
begins (R57): a record whose words 0 to 2 differ from its completed state, or read uncorrectable, is touched, and the next is read (in ascending
number: model's choice, log 102). The last ends a re-read (R184), or the rebuild (R181): at stage NONE the batch state word is rewritten by the word
read (R27; log 19), the sequencer is SUSPENDED at a depth above 0, else IDLE, each DARK degree acts as at its loss from LIT, each in HOLDOFF is
squelched, and each FAULTED module asks for its capture (R153; D1 to D4, M1 to M6: model's choice, log 64). -/
def Obligations.StagingReadsOfRebuild : Prop :=
  (∀ s : State,
    let adopting := s.start.yields.foldl adoptActive { s with table := { s.table with paths := [], occ := [] }, start := { s.start with stage := .adopt } }
    let news := s.start.newHalves.filter (fun i => i.half = .new)
    let emptied := news.foldl (fun t i => setCompleted i.no .empty t) adopting
    startAdoption s = nextNewHalf { emptied with start := { emptied.start with newHalves := news, yields := [] } }) ∧
  (∀ s : State, (s.start.newHalves = [] → nextNewHalf s = finishAdoption s) ∧
    (∀ i rest, s.start.newHalves = i :: rest → i.half = .new → nextNewHalf s = { s with
      port := s.port ++ [.newHalf i], start := { s.start with newHalves := rest } })) ∧
  (∀ s : State,
    let slots : List Slot := List.finRange 64
    let points : List OutPoint := [.deg .d1, .deg .d2, .deg .d3, .deg .d4, .grp .g1, .grp .g2]
    let u := points.foldl (fun s o => slots.foldl (adoptForeign o) s) s
    let v := (List.finRange 256).foldl (fun t r => activeDue r t) { u with start := { u.start with stage := .rewrite } }
    let w := if 0 < u.start.discrepancies then raiseCause .discrepancy v else v
    let t := finishAdoption s
    t = { w with start := { w.start with stage := .compare }, port := w.port ++ [.rbBatchState, .compare 0] } ∧
    (∀ r : RecNo, PortReq.active r ∈ t.port ∧ (s.start.powerdown = false → r ∈ t.holds.wb)) ∧
    (0 < u.start.discrepancies → hasCause t.attn.pending .discrepancy = true)) ∧
  (∀ (s : State) (m : WindowMap), s.win.map = some m → s.mem.syndrome (pageAddr m.status 16) = 0 →
    carryOut .rbBatchState s = { s with start := { s.start with endWord := s.mem.word (pageAddr m.status 16) } }) ∧
  (∀ s : State,
    let n := field s.start.endWord 0 8
    let word (st : BatchWordState) : BatchWord := { st := st, seq := s.start.endWord.extractLsb' 16 16 }
    (0 < s.intr.depth → endBatchWord s = writeBatchState (word .suspended) s) ∧
    (s.intr.depth = 0 →
      (1 ≤ n → n ≤ 6 → endBatchWord s = writeBatchState (word .abandoned) s) ∧
      (n = 7 → endBatchWord s = writeBatchState (word .none) s) ∧
      (∀ st, (n, st) ∈ [(0, BatchWordState.none), (8, .done), (9, .doneWithFailures), (10, .refused), (11, .cancelled), (12, .abandoned)] →
        endBatchWord s = { s with seqr := { s.seqr with shown := word st } }) ∧
      (12 < n → endBatchWord s = { s with seqr := { s.seqr with shown := word .none } }))) ∧
  (∀ s : State,
    let t := endBatchWord { s with start := { s.start with stage := .none, newHalves := [] } }
    let present (s : State) (d : Degree) : State := match s.light.state.get d with
      | .dark => lossEvent d { s with light := { s.light with state := s.light.state.set d .lit } }
      | .holdoff => squelchDegree d s
      | .lit => s
    let u := [Degree.d1, .d2, .d3, .d4].foldl present { t with seqr := { t.seqr with st := if 0 < s.intr.depth then .suspended else .idle } }
    let faulted := [OutPoint.deg .d1, .deg .d2, .deg .d3, .deg .d4, .grp .g1, .grp .g2].filter (fun o => u.act.mods.get o = .faulted)
    rebuildEnds s = faulted.foldl (fun t o => requestCapture (.module o) t) u) ∧
  (∀ (s : State) (m : WindowMap), Awake s → s.win.map = some m → NextIs s (.compare 255) →
    let a := pageAddr m.staging (offRecord 255)
    CleanBurst s.mem a 3 →
    let h := (s.completed 255).hostWords
    let t := { granted s (.compare 255) with touched := if burstWords s.mem a 3 = [h.w0, h.w1, h.w2] then s.touched else joinSet 255 s.touched }
    (s.seqr.reread = .compare → exec .comparisonRead s = settled { t with seqr := { s.seqr with reread := .none } }) ∧
    (s.seqr.reread ≠ .compare → exec .comparisonRead s = settled (rebuildEnds t))) ∧
  (∀ (s : State) (y : Yield),
    let o := Res.ofDst y.host.dst
    let own := PathEnd.of y.host.src
    let p := activeClaim s y
    let read := match s.start.readback.get o with | .given l => l[y.host.slot.val]? | _ => none
    p.slot = y.host.slot ∧ p.src = own ∧ p.dst = .of y.host.dst ∧ p.owner = some (y.no, .old) ∧ p.host = some y.host ∧
    p.readInput = read.map (·.input) ∧
    (read = none → p.st = y.st.pathState ∧ p.route = (if y.st = .squelched then .fill else .source) ∧ p.att = y.att) ∧
    (∀ x, read = some x → p.att = x.att ∧
      (y.st = .live ∨ y.st = .offTarget → x.input = own.input → p.st = y.st.pathState ∧ p.route = .source) ∧
      (y.st = .squelched → x.input = (fillOf s.win.cfg o).input → p.st = .squelched ∧ p.route = .fill) ∧
      (y.st = .discrepant ∨ ((y.st = .live ∨ y.st = .offTarget) ∧ x.input ≠ own.input) ∨
          (y.st = .squelched ∧ x.input ≠ (fillOf s.win.cfg o).input) →
        p.st = .discrepant ∧ p.route = (if x.input = .idler ∨ x.input = .block then .fill else .source))) ∧
    (∀ i, s.start.newHalves.find? (fun i => i.no = y.no) = some i →
      (i.half = .new → adoptActive s y = setCompleted y.no .empty s) ∧
      (i.half = .old → ∃ q : Path, q.st = .inFlight ∧ q.needs = p.needs ∧ (∀ x, read = some x → q.att = x.att ∧
          q.route = (if x.input = .idler ∨ x.input = .block then .fill else .source)) ∧
        adoptActive s y = presentClaim y.no q (.path { st := y.st, host := y.host, att := y.att, measured := none }) s)) ∧
    (s.start.newHalves.find? (fun i => i.no = y.no) = none → ∀ d, p.st.done = some d →
      adoptActive s y = presentClaim y.no p (p.completed s.win.cfg d) s)) ∧
  (∀ (s : State) (r : RecNo) (p : Path) (c : Completed),
    (s.table.claim p = none ↔ ∃ x ∈ p.needs, s.table.entry x ≠ none) ∧
    (∀ t, s.table.claim p = some t → t.paths = s.table.paths ++ [{ p with pid := s.table.nextPid }]) ∧
    (s.table.claim p = none → presentClaim r p c s =
      { setCompleted r .lost s with start := { s.start with discrepancies := s.start.discrepancies + 1 } }) ∧
    (∀ t, s.table.claim p = some t → presentClaim r p c s = { s with
      table := { t with done := doneSet r c s.table.done }
      start := { s.start with discrepancies := s.start.discrepancies + (if p.st = .discrepant then 1 else 0) } })) ∧
  (∀ (s : State) (o : OutPoint) (n : Slot),
    (s.table.entry (.out o n) ≠ none → adoptForeign o s n = s) ∧
    (∀ l x, s.start.readback.get o = .given l → l[n.val]? = some x → s.table.entry (.out o n) = none →
      (x.input = .idler ∨ x.input = .block → adoptForeign o s n = s) ∧
      ((∃ d, x.input = .deg d) ∨ (∃ g, x.input = .grp g) →
        (adoptForeign o s n).start.discrepancies = s.start.discrepancies + 1 ∧
        ∃ q : Path, q.pid = s.table.nextPid ∧ q.st = .foreign ∧ q.owner = none ∧ q.slot = n ∧
          q.dst = (match o with | .deg d => PathEnd.deg d | .grp g => .grp g) ∧
          (∀ d, x.input = .deg d → q.src = .deg d) ∧ (∀ g, x.input = .grp g → q.src = .grp g) ∧
          q.route = .source ∧ q.att = x.att ∧ q.squelched = false ∧ q.engine = none ∧
          ((∀ y ∈ q.needs, s.table.entry y = none) →
            (adoptForeign o s n).table.paths = s.table.paths ++ [q] ∧
            ∀ y ∈ q.needs, (adoptForeign o s n).table.entry y = some { res := y, owner := q.pid, pledge := none }) ∧
          ((∃ y ∈ q.needs, s.table.entry y ≠ none) → (adoptForeign o s n).table = s.table)))) ∧
  (∀ (s : State) (m : WindowMap) (i : InFlight), Awake s → s.win.map = some m → NextIs s (.newHalf i) →
    let a := pageAddr m.staging (offRecord i.no)
    CleanBurst s.mem a 3 →
    let w := Staged.ofWords ⟨s.mem.word a, s.mem.word (a + 4), s.mem.word (a + 8)⟩
    (w = none ∨ w = some .empty ∨ (∃ f, w = some (.conn f) ∧ loopback f = true) →
      exec .newHalfStagingRead s = settled (nextNewHalf (granted s (.newHalf i)))) ∧
    (∀ f, w = some (.conn f) → loopback f = false →
      (∀ l, s.start.readback.get (Res.ofDst f.dst) = .given l → l[f.slot.val]? = none) →
      ∃ p : Path, p.st = .inFlight ∧ p.att = i.att ∧ p.route = (if i.step = 1 ∧ i.att = .block then .fill else .source) ∧
        p.host = some f ∧ p.owner = some (i.no, .old) ∧
        exec .newHalfStagingRead s = settled (nextNewHalf (presentClaim i.no p (s.completed i.no) (granted s (.newHalf i))))) ∧
    (∀ f l x, w = some (.conn f) → loopback f = false → s.start.readback.get (Res.ofDst f.dst) = .given l → l[f.slot.val]? = some x →
      ∃ p : Path, p.st = .inFlight ∧ p.att = x.att ∧ p.route = (if x.input = (PathEnd.of f.src).input then .source else .fill) ∧
        p.host = some f ∧ p.owner = some (i.no, .old) ∧
        exec .newHalfStagingRead s = settled (nextNewHalf (presentClaim i.no p (s.completed i.no) (granted s (.newHalf i)))))) ∧
  (∀ (s : State) (m : WindowMap) (i : InFlight), Awake s → s.win.map = some m → NextIs s (.newHalf i) →
    let a := pageAddr m.staging (offRecord i.no)
    (∃ n, n < 3 ∧ (s.mem.check (a + 4 * n)).1 = .uncorrectable) →
    exec .newHalfStagingRead s = settled (nextNewHalf (readBurst .rebuild a 3 (granted s (.newHalf i))).1)) ∧
  (∀ (s : State) (m : WindowMap) (r : RecNo), Awake s → s.win.map = some m → NextIs s (.compare r) →
    let a := pageAddr m.staging (offRecord r)
    (∃ n, n < 3 ∧ (s.mem.check (a + 4 * n)).1 = .uncorrectable) →
    let u : State := { (readBurst .rebuild a 3 (granted s (.compare r))).1 with touched := joinSet r s.touched }
    (r.val < 255 → exec .comparisonRead s = settled { u with port := u.port ++ [.compare (r + 1)] }) ∧
    (r.val = 255 → s.seqr.reread = .compare → exec .comparisonRead s = settled { u with seqr := { s.seqr with reread := .none } }) ∧
    (r.val = 255 → s.seqr.reread ≠ .compare → exec .comparisonRead s = settled (rebuildEnds u))) ∧
  (∀ (s : State) (m : WindowMap) (r : RecNo), Awake s → s.win.map = some m → NextIs s (.compare r) → r.val < 255 →
    let a := pageAddr m.staging (offRecord r)
    CleanBurst s.mem a 3 →
    let h := (s.completed r).hostWords
    exec .comparisonRead s = settled { granted s (.compare r) with
      port := s.port.erase (.compare r) ++ [.compare (r + 1)]
      touched := if burstWords s.mem a 3 = [h.w0, h.w1, h.w2] then s.touched else joinSet r s.touched })

/-- The anchor read of UNCONFIGURED (R182): an invalid anchor leaves the part UNCONFIGURED, with a marked second read begun; a valid one is installed
and rebuild runs from PROFILES. It takes each of its two bursts from memory at that burst's own grant (log 59, DEDUCED). A re-read is taken when it is
due in IDLE at depth 0 with no restore begun, no re-read and no rebuild in progress (R184), and reads the anchor as memory holds it at that moment
(R9): a valid anchor takes effect, and then, for each degree of an ONLINE module whose fill flag changed, a ROUTE over the lowest to the highest slot
that holds the fill is handed over, or where its idler attenuation alone changed an ATTEN (the slots that hold the fill: log 34, DEDUCED; that several
degrees are taken in one pass, their commands queued from D1 to D4, is the model's choice, log 89), every record's completed state is fixed anew from
its path (log 29, DEDUCED) and every active record's write asked for, the status words are asked for, a save page that moved has its slots and its
header written zero (R30), the Touched Set is emptied at that moment (the model's choice, log 90) and the comparison begins; an invalid one leaves the
part UNCONFIGURED with its Connection Table kept and the word address of the batch word kept as the command watch (R3). -/
def Obligations.AnchorReadsAndRereads : Prop :=
  (∀ s : State, Awake s → NextIs s (.anchor .unconfigured) →
      let m := s.start.anchorSeen.getD s.mem
      CleanBurst m (pageAddr s.win.anchorPage 16) 3 →
      let r := anchorOf m s
      let g := { granted s (.anchor .unconfigured) with start := { s.start with readPart := [], anchorSeen := none } }
      (r = none → s.seqr.anchorAgain = false → exec .anchorRead s = settled
        { g with seqr := { s.seqr with anchorRead := false, anchorAgain := false } }) ∧
      (r = none → s.seqr.anchorAgain = true → exec .anchorRead s = settled
        { g with seqr := { s.seqr with anchorRead := true, anchorAgain := false, rereadDue := false }
                 port := s.port.erase (.anchor .unconfigured) ++ [.anchorHead, .anchor .unconfigured] }) ∧
      (∀ c, r = some c → ∃ t, exec .anchorRead s = settled t ∧ t.seqr.st = .rebuilding ∧ t.start.stage = .profiles ∧
        t.win = { s.win with map := some c.map, watch := none, cfg := some c } ∧ PortReq.rbProf 0 ∈ t.port)) ∧
  ((∀ s : State, Awake s → s.seqr.rereadDue = true → s.seqr.st = .idle → s.intr.depth = 0 → s.light.begun = [] → s.seqr.reread = .none →
      s.start.stage = .none → exec .anchorReRead s = settled { fresh s with
        port := s.port ++ [.anchorHead, .anchor .reread], seqr := { s.seqr with rereadDue := false, reread := .anchor }
        start := { s.start with anchorSeen := some s.mem } }) ∧
    (∀ s : State, Awake s → NextIs s (.anchor .reread) →
      let m := s.start.anchorSeen.getD s.mem
      CleanBurst m (pageAddr s.win.anchorPage 16) 3 →
      let r := anchorOf m s
      (∀ c, r = some c → ∃ t, exec .anchorReReadDone s = settled t ∧
        t.win = { s.win with map := some c.map, watch := none, cfg := some c } ∧ t.touched = [] ∧ t.seqr.reread = .compare ∧
        t.attn.enable = c.enables ∧ PortReq.compare 0 ∈ t.port ∧ (∀ n : RecNo, PortReq.active n ∈ t.port) ∧
        (∀ x ∈ [PortReq.protection, .memFault, .light, .monitor s.mon.linkUp, .modules, .attention], x ∈ t.port) ∧
        (∀ m, s.win.map = some m → m.save ≠ c.map.save → PortReq.saveHeader 0 ∈ t.port ∧ t.intr.images = [] ∧
          ∀ k ∈ [1, 2, 3, 4], ∀ b, b < 4 → PortReq.slotBurst k b [0, 0, 0, 0] ∈ t.port) ∧
        ((s.table.done.map (·.1)).Pairwise (· < ·) → ∀ n : RecNo, s.table.recordPaths n = [] → t.completed n = .empty) ∧
        (∀ (n : RecNo) p d h, s.table.recordPaths n = [p] → p.st.done = some d → p.host = some h → ∃ x, t.completed n = .path x ∧
          x.st = d ∧ x.host = h ∧ x.att = (if d = .squelched then (fillOf (some c) p.dst.out).att else p.att) ∧
          x.measured = powerAverage s (Res.ofDst h.dst) h.slot) ∧
        (∀ o d, s.win.cfg = some o → s.act.mods.get (.deg d) = .online →
          let holdsFill (n : Slot) : Prop := ∀ p, s.table.ownerOf (.deg d) n = some p → p.route = .fill
          let handed (k : FrameKind) : Prop := ∀ lo hi : Slot, holdsFill lo → holdsFill hi → (∀ n, holdsFill n → lo ≤ n ∧ n ≤ hi) →
            ∃ x ∈ t.act.ordinary ++ t.act.wait, x.module = .deg d ∧ x.kind = k ∧ x.start = lo.val ∧ x.start + x.count = hi.val + 1 ∧
              x.built = false ∧ x.req = .fillChange
          (o.fill.get d ≠ c.fill.get d → handed .route) ∧
          (o.fill.get d = c.fill.get d → o.idler.get d ≠ c.idler.get d → handed .atten)) ∧
        (∃ l, t.act.ordinary ++ t.act.wait = s.act.ordinary ++ s.act.wait ++ l ∧
          (l.map (·.module)).Sublist [.deg .d1, .deg .d2, .deg .d3, .deg .d4])) ∧
      (r = none → ∃ t, exec .anchorReReadDone s = settled t ∧ t.seqr.st = .unconfigured ∧ t.win.map = none ∧
        t.win.watch = (match s.win.map with | some m => some (pageAddr m.status 0) | none => s.win.watch) ∧
        t.attn.enable = 0 ∧ t.table = s.table ∧ t.light.restoreList = [] ∧ t.seqr.reread = .none)))

/-! ### The acts that follow by themselves -/

/-- What follows a command by itself is taken act by act until none is left, the first of eight that can be (their order and bound are the model's
choice, log 33). A running batch's act: in CANCELLING it ends when no entry is in progress (R93); a phase whose entries have all finished their half
advances, and the third ends the batch (R80; in phase 0, which no advance leaves, the batch ends when every entry has finished, log 48); in RUNNING
the first WAITING entry of the phase is begun while fewer than 8 are in progress (R81), unless light was lost in the running batch and its capture is
still to be taken (R83; log 58, DEDUCED); in HOLDING with none in progress HELD is entered (R91; that the last entry's end there ends the batch
without HELD is the model's choice, log 49). The end state is ABANDONED, CANCELLED, DONE or DONE_WITH_FAILURES (R95, R183). An entry begun takes its
half's chain (R79) and issues its first step (R82), but for an ADOPT, whose FOREIGN path becomes its record's old half with the staged fields,
SQUELCHED where it bears the mark and LIVE otherwise, and which finishes DONE at once (R48, R84): CONNECT, RAMP_UP and VERIFY are tested for a lit
source first and fail FAIL_SOURCE_DARK (R83), and a refused command fails FAIL_MODULE (R88). A RAMP_DOWN of a path at the fill is a DISCONNECT at
once, a RETURNING asks for its engine or at the fill ends its rollback (R163), and a CONNECT that RETRY restarts is tested on the light alone and sent
though its path bears the mark (R164). A step completed moves the cursor on, and the next is issued in a run state that bears no such mark of lost
light (R82, R83, R166). A finish fixes the record's completed state from the path that remains (R47), and asks for the active record, the outcome word
and the counters in this order (R84, R85); the outcome is that of its end, DONE_OFF_TARGET where the path it ends with is OFF_TARGET, and its pending
fields are applied where VERIFY decided and dropped otherwise (R44, R84). An old path that is still leaving at a finish has its leaving mark cleared
and the pledges on its entries voided (R45): a WAITING entry that was pledged one fails with the code, its own claims given up with it, and so on for
the pledges on a path it would have left; a MOVE begun in its old half takes the void mark; any other goes on (R89). A failing step takes its code
(R90): a new path not routed yet is removed and the entry fails, a RESTORE's path being left SQUELCHED; one routed is rolled back (R86), by RETURNING
on its engine, by its DISCONNECT at once at 250 or with no engine, and, while no step can be issued, with its engine freed and its chain left for the
resume (R166; logs 65 and 78); a failed retune leaves its path OFF_TARGET where it is routed at its source, as it is where it bears the mark, and
SQUELCHED where it ramps at the fill (R87; log 27, DEDUCED), a failed release leaves its path in place, OFF_TARGET where it is routed at its source
and SQUELCHED otherwise (R88), and so does a rollback that fails; a reversal that fails ends ABANDONED alike (R165). A code in the stop mask cancels
the batch, or waits for the end of a suspension (R90); that one taken in POWERDOWN waits too is the model's choice (log 86), the rules naming
SUSPENDED alone. -/
def Obligations.BatchRunsByPhases : Prop :=
  (∀ (t : State), settled t = .next (settle settleBound t)) ∧
  (∀ (n : Nat) (s : State), settle (n + 1) s = (match settleStep s with | some t => settle n t | none => s)) ∧
  (∀ s : State, settleStep s = [buildCapture, releaseBeat, placeWaiting, grantStep, continueCheck, pumpBatch, refreshEnded, beginRestore].findSome?
    (fun f => f s)) ∧
  (∀ s : State, s.batch.present = true → s.batch.ending = false → s.batch.work = .run → s.start.powerdown = false →
    (s.seqr.st = .cancelling →
      (inProgress s = 0 → pumpBatch s = some (endBatch (runEndState s) s)) ∧ (inProgress s ≠ 0 → pumpBatch s = none)) ∧
    (s.seqr.st = .running ∨ s.seqr.st = .holding ∨ s.seqr.st = .held →
      (1 ≤ s.batch.phase → (∀ e ∈ s.queue, e.st.finished = true ∨ e.phase ≠ s.batch.phase) →
        (s.batch.phase < 3 → pumpBatch s = some { s with batch := { s.batch with phase := s.batch.phase + 1 } }) ∧
        (3 ≤ s.batch.phase → pumpBatch s = some (endBatch (runEndState s) s))) ∧
      (s.batch.phase = 0 → (∀ e ∈ s.queue, e.st.finished = true) → pumpBatch s = some (endBatch (runEndState s) s)) ∧
      (∀ e, 1 ≤ s.batch.phase → s.queue.find? (fun e => e.st = .waiting && e.phase = s.batch.phase) = some e → s.seqr.st = .running →
        (inProgress s < 8 → s.batch.lossStop = false → pumpBatch s = some (beginEntry e s)) ∧
        (8 ≤ inProgress s ∨ s.batch.lossStop = true → pumpBatch s = none)) ∧
      (∀ e ∈ s.queue, e.st.finished = false → e.phase = s.batch.phase ∨ s.batch.phase = 0 → inProgress s = 0 → s.seqr.st = .holding →
        pumpBatch s = some (enterState .held .held s)))) ∧
  (∀ s : State,
    (s.batch.abandon = true ∨ (∃ x, s.batch.recovery = some x ∧ x.abandon = true) → runEndState s = .abandoned) ∧
    (s.batch.abandon = false → (∀ x, s.batch.recovery = some x → x.abandon = false) →
      (s.seqr.st = .cancelling → runEndState s = .cancelled) ∧
      (s.seqr.st ≠ .cancelling → runEndState s =
        if s.batch.counters.rejected = 0 ∧ s.batch.counters.failed = 0 then .done else .doneWithFailures))) ∧
  (∀ (e : Entry) (route : PathRoute),
    (e.kind = .add ∨ e.kind = .restore → chainFor e route = [.connect, .rampUp, .verify] ∧ e.phase = 3) ∧
    (e.kind = .retune ∨ e.kind = .complete → chainFor e route = [.rampRetune, .verify] ∧ e.phase = 2) ∧
    (e.kind = .remove ∨ (e.kind = .move ∧ e.half = .old) → e.phase = 1 ∧
      chainFor e route = if route = .source then [.rampDown, .disconnect] else [.disconnect]) ∧
    (e.kind = .move → e.half = .new → chainFor e route = [.connect, .rampUp, .verify] ∧ e.phase = 3)) ∧
  (∀ (s : State) (e : Entry) (p : Path), e.kind ≠ .adopt → e.path.bind s.path? = some p →
    beginEntry e s = issueStep e.no false (updateEntry e.no (fun x => { x with st := .begun, chain := chainFor x p.route }) s)) ∧
  (∀ (s : State) (e : Entry) (n : Nat) (b : BatchRec) (f : HostFields), s.entry? e.no = some e → (s.queue.map (·.no)).Nodup →
    e.kind = .adopt → e.newP = some n → s.batch.list.find? (fun b => b.no = e.no) = some b → b.conn = some f →
    let own (p : Path) : Path := { p with
      owner := some (e.no, .old), src := .of f.src, dst := .of f.dst, claimed := none
      info := some { target := f.target, profile := f.profile, permit := f.permit, tag := f.tag }
      st := if p.squelched then .squelched else .live }
    beginEntry e s = finishEntry e.no .done false (updatePath n own (updateEntry e.no (fun x => { x with st := .begun, chain := [] }) s))) ∧
  (∀ (s : State) (r : RecNo) (e : Entry) (p : Path), s.entry? r = some e → e.path.bind s.path? = some p →
    let lit := (∀ d, p.src = .deg d → s.light.state.get d = .lit) ∧ p.squelched = false
    (e.chain.head? = some .connect → (¬ lit → issueStep r false s = stepFailed r .sourceDark s) ∧
      (lit → s.table.ownsAll p = true →
        (∀ t, handOrdinary (connectCmd p (.entry r p.pid .connect)) s = some t → issueStep r false s = t) ∧
        (handOrdinary (connectCmd p (.entry r p.pid .connect)) s = none → issueStep r false s = stepFailed r .module s))) ∧
    (e.chain.head? = some .rampUp → (lit → issueStep r false s = presentRequest r false p .rampUp s) ∧
      (¬ lit → issueStep r false s = stepFailed r .sourceDark s)) ∧
    (e.chain.head? = some .verify → (lit → issueStep r false s = presentRequest r false p .verify s) ∧
      (¬ lit → issueStep r false s = stepFailed r .sourceDark s)) ∧
    (e.chain.head? = some .rampRetune →
      (lit → p.st ≠ .squelched → issueStep r false s = presentRequest r false p .rampRetune s) ∧
      (¬ lit ∨ p.st = .squelched → issueStep r false s = stepFailed r .sourceDark s)) ∧
    (e.chain.head? = some .rampDown → p.route = .source → issueStep r false s = presentRequest r false p .rampDown s) ∧
    (∀ t, e.chain.head? = some .disconnect → e.kind ≠ .restore →
      handOrdinary (disconnectCmd s p (.entry r p.pid .disconnect)) s = some t → e.no = r → issueStep r false s = t)) ∧
  (∀ (s : State) (r : RecNo) (e : Entry) (p : Path), s.entry? r = some e → e.path.bind s.path? = some p →
    let light : Prop := ∀ d, p.src = .deg d → s.light.state.get d = .lit
    let again := updatePath p.pid (fun q => { q with rerouting := true }) s
    let use : RouteUse := if e.kind = .restore then .disconnectKeep else .disconnect
    let ended : EntryState := if e.reversing = true then .abandoned else .failed
    let disconnects (t : State) : Prop :=
      (∀ u, handOrdinary (disconnectCmd t p (.entry r p.pid use)) t = some u → issueStep r false s = u) ∧
      (handOrdinary (disconnectCmd t p (.entry r p.pid use)) t = none → issueStep r false s = finishEntry r ended false
        (leaveInPlace p.pid (withdrawEngReq p.pid (freePathEngine p.pid
          (if e.reversing = false ∧ e.half = .old ∧ (e.kind = .remove ∨ e.kind = .move) then takeCode r .module t else t)))))
    (e.chain.head? = some .connect →
      (¬ light → issueStep r true s = stepFailed r .sourceDark s) ∧
      (light → s.table.ownsAll p = true →
        (∀ t, handOrdinary (connectCmd p (.entry r p.pid .connect)) again = some t → issueStep r true s = t) ∧
        (handOrdinary (connectCmd p (.entry r p.pid .connect)) again = none → issueStep r true s = stepFailed r .module again))) ∧
    (e.chain.head? ≠ some .connect → issueStep r true s = issueStep r false s) ∧
    (e.chain.head? = some .disconnect → disconnects s) ∧
    (e.chain.head? = some .rampDown → p.route = .fill → disconnects (updateEntry r (fun e => { e with chain := [.disconnect] }) s)) ∧
    (e.chain.head? = some .returning →
      (p.route = .source → issueStep r false s = presentRequest r false p .returning s) ∧
      (p.route = .fill → issueStep r false s = finishEntry r ended false (dropUnrouted p.pid (e.kind = .restore) s)))) ∧
  (∀ (s : State) (e : Entry),
    (∀ c, e.fail = some c → outcomeOf e .failed s = .fail c) ∧ outcomeOf e .cancelled s = .cancelled ∧ outcomeOf e .abandoned s = .abandoned ∧
    (e.kind ≠ .adopt → (∃ p ∈ s.table.recordPaths e.no, p.st = .offTarget) → outcomeOf e .done s = .doneOffTarget) ∧
    (e.kind = .adopt ∨ (∀ p ∈ s.table.recordPaths e.no, p.st ≠ .offTarget) → outcomeOf e .done s = .done)) ∧
  (∀ p : Path,
    (p.pend = none → ∀ v, p.settlePending v = p) ∧
    (∀ q, p.pend = some q → p.settlePending false = { p with pend := none }) ∧
    (∀ q i, p.pend = some q → p.info = some i → ∃ j, p.settlePending true = { p with pend := none, info := some j } ∧
      j.target = q.target ∧ j.profile = q.profile ∧ (q.permitTag = none → j.permit = i.permit ∧ j.tag = i.tag) ∧
      (∀ a b, q.permitTag = some (a, b) → j.permit = a ∧ j.tag = b))) ∧
  (∀ (s : State) (pid : Nat) (p : Path), s.path? pid = some p →
    let left (t : State) (q : Path) : Prop :=
      t.path? pid = some q ∧ (∀ n, n ≠ pid → t.path? n = s.path? n) ∧ t = { s with table := { s.table with paths := t.table.paths } }
    let off : Path := { p with st := .offTarget }
    let dark : Path := { p with st := .squelched, route := .fill, squelched := false, rerouting := false }
    (p.route = .source → p.squelched = false → left (leaveInPlace pid s) off ∧ left (leaveRetuned pid s) off) ∧
    (p.route = .fill ∨ p.squelched = true → left (leaveInPlace pid s) dark) ∧
    (p.squelched = true → left (leaveRetuned pid s) p) ∧
    (p.squelched = false → p.route = .fill →
      (p.st = .ramping ∨ p.st = .releasing → left (leaveRetuned pid s) { p with st := .squelched }) ∧
      (p.st ≠ .ramping → p.st ≠ .releasing → left (leaveRetuned pid s) p)) ∧
    left (dropUnrouted pid true s) dark ∧ dropUnrouted pid false s = { s with table := s.table.remove pid }) ∧
  (∀ (s : State) (r : RecNo),
    let t := updateEntry r (fun e => { e with chain := e.chain.drop 1 }) s
    (s.seqr.st.isRun = true → s.batch.lossStop = false → stepDone r s = issueStep r false t) ∧
    (s.seqr.st.isRun = false ∨ s.batch.lossStop = true → stepDone r s = t)) ∧
  (∀ (s : State) (e : Entry) (st : EntryState) (v : Bool), s.start.powerdown = false → s.entry? e.no = some e → e.oldP = none →
    finishEntry e.no st v s = writeOutcome e.no (outcomeOf e st s) (fixRecord e.no v (st = .failed ∨ st = .abandoned)
      (updateEntry e.no (fun x => { x with st := st, chain := [] }) s))) ∧
  (∀ (s : State) (e : Entry) (st : EntryState) (v : Bool) (p : Nat), s.start.powerdown = false → s.entry? e.no = some e → e.oldP = some p →
    let fixed (t : ConnTable) : State := writeOutcome e.no (outcomeOf e st s) (fixRecord e.no v (st = .failed ∨ st = .abandoned)
      { updateEntry e.no (fun x => { x with st := st, chain := [] }) s with table := t.update p (fun q => { q with leaving := false }) })
    let voided := if e.half = .old then s.table.pledgedOn p else []
    ((∀ q, s.path? p = some q → q.leaving = false) → finishEntry e.no st v s = fixed s.table) ∧
    (∀ q, s.path? p = some q → q.leaving = true → finishEntry e.no st v s =
      markVoid (e.fail.getD .module) (voided.length + 4 * s.queue.length + 1) voided (fixed (s.table.voidOn p)))) ∧
  (∀ (t : ConnTable) (p n : Nat), n ∈ t.pledgedOn p ↔ ∃ o ∈ t.occ, o.owner = p ∧ o.pledge = some n) ∧
  (∀ (s : State) (code : FailCode) (k n : Nat) (rest : List Nat), markVoid code k [] s = s ∧
    ((∀ e ∈ s.queue, e.newP ≠ some n) → markVoid code (k + 1) (n :: rest) s = markVoid code k rest s) ∧
    (∀ e, s.queue.find? (fun e => e.newP = some n) = some e →
      (e.st = .waiting → markVoid code (k + 1) (n :: rest) s = markVoid code k
        (rest ++ (match e.half, e.oldP with | .old, some p => s.table.pledgedOn p | _, _ => []))
        (stopTest code (endWaiting e .failed (some code) s))) ∧
      (e.st = .begun → e.half = .old → markVoid code (k + 1) (n :: rest) s =
        markVoid code k rest (updateEntry e.no (fun x => { x with void := x.void.or (some code) }) s)) ∧
      (e.st ≠ .waiting → e.st ≠ .begun ∨ e.half = .new → markVoid code (k + 1) (n :: rest) s = markVoid code k rest s))) ∧
  (∀ (s : State) (e : Entry) (code : FailCode), e.fail = none →
    let x : Entry := { e with st := .failed, fail := some code, chain := [] }
    let t := updateEntry e.no (fun _ => x) s
    (e.kind = .move → e.half = .new → endWaiting e .failed (some code) s = writeOutcome e.no (.fail code) (fixRecord e.no false false t)) ∧
    (e.kind ≠ .move ∨ e.half = .old → endWaiting e .failed (some code) s = writeOutcome e.no (.fail code) (giveUpClaims x t))) ∧
  (∀ (s : State) (r : RecNo) (c : OutcomeCode) (v x : Bool),
    (PortReq.active r ∉ s.port → (fixRecord r v x s).port = s.port ++ [.active r]) ∧
    (s.table.recordPaths r = [] → fixRecord r v x s = fixCompleted r .empty s) ∧
    (∀ (p : Path) (h : HostFields) (d : DoneState), s.table.recordPaths r = [p] → p.st ≠ .reserved → p.host = some h → (p.atFix x).2 = some d →
      (fixRecord r v x s).completed r = Completed.measure s (((p.atFix x).1.settlePending (v && !p.squelched)).completed s.win.cfg d)) ∧
    (s.win.map.isSome = true → (∀ y, s.batch.recovery = some y → y.abandon = false) →
      (writeOutcome r c s).port = s.port ++ [.outcome r c s.batch.seq, .counters (s.batch.counters.count c)])) ∧
  (∀ (p : Path) (x : Bool),
    (p.squelched = true ∨ p.st = .squelched → p.atFix x =
      ({ p with st := .squelched, route := .fill, squelched := false, rerouting := false }, some .squelched)) ∧
    (p.squelched = false →
      (p.st = .live → p.atFix x = (p, some .live)) ∧ (p.st = .offTarget → p.atFix x = (p, some .offTarget)) ∧
      (p.st = .discrepant → p.atFix x = (p, some .discrepant)) ∧
      (p.st = .ramping ∨ p.st = .inFlight → p.atFix x =
        if x = true ∧ p.route = .source then ({ p with st := .offTarget }, some .offTarget) else (p, none)))) ∧
  (∀ (s : State) (r : RecNo) (code : FailCode) (e : Entry) (p : Path), s.entry? r = some e → e.path.bind s.path? = some p → e.reversing = false →
    e.st = .begun →
    ((e.half = .new ∧ (e.kind = .add ∨ e.kind = .move)) ∨ e.kind = .restore →
      let t := withdrawEngReq p.pid (takeCode r code s)
      let u := updatePath p.pid (fun q => { q with st := .releasing }) t
      let roll (chain : List ChainStep) (w : State) : State := updateEntry r (fun e => { e with st := .rollingBack, chain := chain }) w
      let use : RouteUse := if e.kind = .restore then .disconnectKeep else .disconnect
      let disconnects (w : State) : Prop :=
        (∀ x, handOrdinary (disconnectCmd w p (.entry r p.pid use)) w = some x → stepFailed r code s = x) ∧
        (handOrdinary (disconnectCmd w p (.entry r p.pid use)) w = none → stepFailed r code s = finishEntry r .failed false
          (leaveInPlace p.pid (withdrawEngReq p.pid (freePathEngine p.pid w))))
      (p.route = .fill → stepFailed r code s = finishEntry r .failed false
        (dropUnrouted p.pid (e.kind = .restore) (freePathEngine p.pid t))) ∧
      (p.route = .source →
        (canIssue t = false → stepFailed r code s = roll [.returning, .disconnect] (freePathEngine p.pid u)) ∧
        (∀ g, canIssue t = true → p.engine = some g → atTop p.att = false →
          stepFailed r code s = roll [.returning, .disconnect] (startReturning g u)) ∧
        (∀ g, canIssue t = true → p.engine = some g → atTop p.att = true → (s.queue.map (·.no)).Nodup →
          disconnects (roll [.disconnect] (freeEngine g u))) ∧
        (canIssue t = true → p.engine = none → (s.queue.map (·.no)).Nodup → disconnects (roll [.disconnect] u)))) ∧
    (e.kind = .retune ∨ e.kind = .complete → stepFailed r code s = finishEntry r .failed false
      (leaveRetuned p.pid (withdrawEngReq p.pid (freePathEngine p.pid (takeCode r code s))))) ∧
    (e.half = .old → e.kind = .remove ∨ e.kind = .move → e.no = r → stepFailed r code s = finishEntry r .failed false
      (leaveInPlace p.pid (withdrawEngReq p.pid (freePathEngine p.pid (takeCode r code s)))))) ∧
  (∀ (s : State) (r : RecNo) (code : FailCode) (e : Entry) (p : Path), s.entry? r = some e → e.path.bind s.path? = some p →
    let ended : EntryState := if e.reversing = true then .abandoned else .failed
    let freed := withdrawEngReq p.pid (freePathEngine p.pid s)
    ((e.st = .rollingBack ∧ (e.half = .new ∨ e.kind = .restore)) ∨
        (e.reversing = true ∧ (e.chain.head? = some .returning ∨ e.chain.head? = some .disconnect)) →
      stepFailed r code s = finishEntry r ended false (leaveInPlace p.pid freed)) ∧
    (e.st = .begun → e.reversing = true → e.chain.head? = some .rampRetune ∨ e.chain.head? = some .verify →
      stepFailed r code s = finishEntry r .abandoned false (leaveRetuned p.pid freed))) ∧
  (∀ s : State, canIssue s = s.seqr.st.isRun) ∧
  (∀ (s : State) (r : RecNo) (code : FailCode) (e : Entry), s.entry? r = some e →
    (e.fail ≠ none → takeCode r code s = s) ∧
    (e.fail = none → takeCode r code s = stopTest code (updateEntry r (fun e => { e with fail := some code }) s))) ∧
  (∀ (s : State) (code : FailCode),
    (s.batch.stop.getLsbD code.idx = false → stopTest code s = s) ∧
    (s.batch.stop.getLsbD code.idx = true →
      (s.seqr.st = .running ∨ s.seqr.st = .holding ∨ s.seqr.st = .held → stopTest code s = enterCancelling s) ∧
      (s.seqr.st = .suspended ∨ s.seqr.st = .powerdown → stopTest code s = { s with batch := { s.batch with stopPending := true } }) ∧
      (s.seqr.st ∉ [SeqState.running, .holding, .held, .suspended, .powerdown] → stopTest code s = s)))
end

