-- ==== Sys2Proof/Laws/Order.lean ====
section
/-! SUPPORT. What the table's and the lists' own operations keep of `Orderly`: one lemma for each operation of the Connection Table, the engines, the
arbiter's list, the Actuator Port's queue and the running of a batch. -/

namespace Sys2Proof.Machine

/-! ### Record updates outside what is kept in order -/

@[simp] theorem orderly_core (s : State) (mem bus win holds prot seqr profiles mon power integ attn clock pending) :
    Orderly { s with mem := mem, bus := bus, win := win, holds := holds, prot := prot, seqr := seqr, profiles := profiles, mon := mon,
                     power := power, integ := integ, attn := attn, clock := clock, pending := pending } ↔ Orderly s :=
  ⟨fun h => ⟨h.1, h.2, h.3, h.4, h.5, h.6, h.7, h.8, h.9, h.10, h.11, h.12, h.13, h.14, h.15, h.16⟩,
   fun h => ⟨h.1, h.2, h.3, h.4, h.5, h.6, h.7, h.8, h.9, h.10, h.11, h.12, h.13, h.14, h.15, h.16⟩⟩
@[simp] theorem orderly_batch (s : State) (holds seqr pr en sq rf sm c ab sp w lf rc ls) :
    Orderly { s with
      holds := holds, seqr := seqr
      batch := { s.batch with
        present := pr, ending := en, seq := sq, refuse := rf, stop := sm, counters := c, abandon := ab, stopPending := sp
        work := w, lastFetched := lf, recovery := rc, lossStop := ls } } ↔ Orderly s :=
  ⟨fun h => ⟨h.1, h.2, h.3, h.4, h.5, h.6, h.7, h.8, h.9, h.10, h.11, h.12, h.13, h.14, h.15, h.16⟩,
   fun h => ⟨h.1, h.2, h.3, h.4, h.5, h.6, h.7, h.8, h.9, h.10, h.11, h.12, h.13, h.14, h.15, h.16⟩⟩
@[simp] theorem orderly_ramp (s : State) (w p n) :
    Orderly { s with ramp := { s.ramp with wait := w, presc := p, nextGrant := n } } ↔ Orderly s :=
  ⟨fun h => ⟨h.1, h.2, h.3, h.4, h.5, h.6, h.7, h.8, h.9, h.10, h.11, h.12, h.13, h.14, h.15, h.16⟩,
   fun h => ⟨h.1, h.2, h.3, h.4, h.5, h.6, h.7, h.8, h.9, h.10, h.11, h.12, h.13, h.14, h.15, h.16⟩⟩
@[simp] theorem orderly_act (s : State) (u w t m r) :
    Orderly { s with act := { s.act with urgent := u, wait := w, txn := t, mods := m, refresh := r } } ↔ Orderly s :=
  ⟨fun h => ⟨h.1, h.2, h.3, h.4, h.5, h.6, h.7, h.8, h.9, h.10, h.11, h.12, h.13, h.14, h.15, h.16⟩,
   fun h => ⟨h.1, h.2, h.3, h.4, h.5, h.6, h.7, h.8, h.9, h.10, h.11, h.12, h.13, h.14, h.15, h.16⟩⟩
@[simp] theorem orderly_light (s : State) (attn q st ho cs ls rh) :
    Orderly { s with
      attn := attn
      light := { s.light with qual := q, state := st, holdOff := ho, changeSet := cs, lossSeen := ls, restoresHeld := rh } } ↔ Orderly s :=
  ⟨fun h => ⟨h.1, h.2, h.3, h.4, h.5, h.6, h.7, h.8, h.9, h.10, h.11, h.12, h.13, h.14, h.15, h.16⟩,
   fun h => ⟨h.1, h.2, h.3, h.4, h.5, h.6, h.7, h.8, h.9, h.10, h.11, h.12, h.13, h.14, h.15, h.16⟩⟩
@[simp] theorem orderly_batch_light (s : State) (pr en sq rf sm c ab sp w lf rc ls q st ho cs lo rh) :
    Orderly { s with
      batch := { s.batch with
        present := pr, ending := en, seq := sq, refuse := rf, stop := sm, counters := c, abandon := ab, stopPending := sp
        work := w, lastFetched := lf, recovery := rc, lossStop := ls }
      light := { s.light with qual := q, state := st, holdOff := ho, changeSet := cs, lossSeen := lo, restoresHeld := rh } } ↔ Orderly s :=
  (orderly_batch { s with light := { s.light with qual := q, state := st, holdOff := ho, changeSet := cs, lossSeen := lo, restoresHeld := rh } }
    _ _ pr en sq rf sm c ab sp w lf rc ls).trans (orderly_light s _ q st ho cs lo rh)
@[simp] theorem orderly_intr (s : State) (w i hd im) :
    Orderly { s with intr := { s.intr with work := w, item := i, header := hd, images := im } } ↔ Orderly s :=
  ⟨fun h => ⟨h.1, h.2, h.3, h.4, h.5, h.6, h.7, h.8, h.9, h.10, h.11, h.12, h.13, h.14, h.15, h.16⟩,
   fun h => ⟨h.1, h.2, h.3, h.4, h.5, h.6, h.7, h.8, h.9, h.10, h.11, h.12, h.13, h.14, h.15, h.16⟩⟩
@[simp] theorem orderly_start (s : State) (seqr ir sg dn pin y rp ew ar rb nh d fin) :
    Orderly { s with
      seqr := seqr
      start := { s.start with
        inReset := ir, stage := sg, powerdown := dn, pfw := pin, yields := y, readPart := rp, endWord := ew, anchorSeen := ar
        readback := rb, newHalves := nh, discrepancies := d, deferred := fin } } ↔ Orderly s :=
  ⟨fun h => ⟨h.1, h.2, h.3, h.4, h.5, h.6, h.7, h.8, h.9, h.10, h.11, h.12, h.13, h.14, h.15, h.16⟩,
   fun h => ⟨h.1, h.2, h.3, h.4, h.5, h.6, h.7, h.8, h.9, h.10, h.11, h.12, h.13, h.14, h.15, h.16⟩⟩

/-! ### The arbiter's list -/

/-- The arbiter's list replaced by one whose pops are at most 3. -/
theorem Orderly.port {s : State} (h : Orderly s) {l : List PortReq} (hl : ∀ d, PortReq.popHeader d ∈ l → d ≤ 3) :
    Orderly { s with port := l } :=
  ⟨h.1, h.2, h.3, h.4, h.5, h.6, h.7, h.8, h.9, h.10, h.11, h.12, h.13, h.14, hl, h.16⟩

@[simp] theorem orderly_erase {s : State} (h : Orderly s) (r : PortReq) : Orderly { s with port := s.port.erase r } :=
  h.port fun d hd => h.pops d (List.mem_of_mem_erase hd)
@[simp] theorem withdrawReqs_orderly {s : State} (h : Orderly s) (p) : Orderly (withdrawReqs p s) :=
  h.port fun d hd => h.pops d (List.mem_filter.1 hd).1
@[simp] theorem request_orderly {s : State} (h : Orderly s) {r : PortReq} (hr : ∀ d, r = .popHeader d → d ≤ 3) : Orderly (request r s) := by
  refine h.port fun d hd => ?_
  rcases List.mem_append.1 hd with hd | hd
  · exact h.pops d hd
  · exact hr d (List.mem_singleton.1 hd).symm
@[simp] theorem requestStatus_orderly {s : State} (h : Orderly s) {r : PortReq} (hr : ∀ d, r = .popHeader d → d ≤ 3) :
    Orderly (requestStatus r s) := by
  unfold requestStatus; split
  · exact request_orderly h hr
  · exact h
@[simp] theorem requestAttention_orderly {s : State} (h : Orderly s) : Orderly (requestAttention s) := by
  unfold requestAttention; split
  · exact request_orderly (orderly_erase h _) (by simp)
  · exact h
@[simp] theorem raiseCause_orderly {s : State} (h : Orderly s) (c) : Orderly (raiseCause c s) := by
  unfold raiseCause; split <;> simp [*]
@[simp] theorem setEnables_orderly {s : State} (h : Orderly s) (e) : Orderly (setEnables e s) := by
  unfold setEnables; split <;> simp [*]

/-! ### The Integrity Unit and memory -/

@[simp] theorem fresh_orderly {s : State} (h : Orderly s) : Orderly (fresh s) := by simp [fresh, h]
@[simp] theorem reportFault_orderly {s : State} (h : Orderly s) (k q a y) : Orderly (reportFault k q a y s) := by
  simp only [reportFault]; repeat' split
  all_goals simp [*]
@[simp] theorem clearFault_orderly {s : State} (h : Orderly s) : Orderly (clearFault s) := by simp [clearFault, h]
@[simp] theorem reportRefusal_orderly {s : State} (h : Orderly s) (a) : Orderly (reportRefusal a s) := by
  simp only [reportRefusal]; repeat' split
  all_goals simp [*]
@[simp] theorem clearProtection_orderly {s : State} (h : Orderly s) : Orderly (clearProtection s) := by simp [clearProtection, h]
@[simp] theorem addRewrite_orderly {s : State} (h : Orderly s) (a w) : Orderly (addRewrite a w s) := by
  simp only [addRewrite]; split <;> simp [*]
@[simp] theorem readWordOf_orderly {s : State} (h : Orderly s) (m q a) : Orderly (readWordOf m q a s).1 := by
  simp only [readWordOf]; repeat' split
  all_goals simp [*]
@[simp] theorem readBurstOf_orderly {s : State} (h : Orderly s) (m q a n) : Orderly (readBurstOf m q a n s).1 := by
  induction n generalizing a s with
  | zero => exact h
  | succ n ih => exact ih (readWordOf_orderly h m q a) _
@[simp] theorem readWord_orderly {s : State} (h : Orderly s) (q a) : Orderly (readWord q a s).1 := readWordOf_orderly h _ _ _
@[simp] theorem readBurst_orderly {s : State} (h : Orderly s) (q a n) : Orderly (readBurst q a n s).1 := readBurstOf_orderly h _ _ _ _
@[simp] theorem storeWord_orderly {s : State} (h : Orderly s) (a w) : Orderly (storeWord a w s) := by simp [storeWord, h]
@[simp] theorem storeBurst_orderly {s : State} (h : Orderly s) (a ws) : Orderly (storeBurst a ws s) := by
  induction ws generalizing a s with
  | nil => exact h
  | cons w ws ih => exact ih (storeWord_orderly h a w) _
@[simp] theorem readPart_orderly {s : State} (h : Orderly s) (m b a) : Orderly (readPart m b a s) := by simp [readPart, h]
@[simp] theorem readQuiet_orderly {s : State} (h : Orderly s) (r) : Orderly (readQuiet r s) := by
  unfold readQuiet; split <;> simp [h]
@[simp] theorem carryOut_orderly {s : State} (h : Orderly s) (r) : Orderly (carryOut r s) := by
  unfold carryOut; split <;> simp [h]
@[simp] theorem drainQuiet_orderly {s : State} (h : Orderly s) (n) : Orderly (drainQuiet n s) := by
  induction n generalizing s with
  | zero => exact h
  | succ n ih =>
    unfold drainQuiet; repeat' split
    all_goals first | exact h | exact ih (by simp [h])

/-- A row's grant: what is left is orderly, and the request granted stood on an orderly list. -/
theorem takeRow_orderly {s t : State} (h : Orderly s) {want r} (hr : takeRow want s = some (r, t)) :
    Orderly t ∧ ∀ d, r = .popHeader d → d ≤ 3 := by
  simp only [takeRow] at hr
  repeat' split at hr
  all_goals first
    | (simp at hr; done)
    | (rename_i hn _
       simp only [Option.some.injEq, Prod.mk.injEq] at hr
       obtain ⟨rfl, rfl⟩ := hr
       have hd := drainQuiet_orderly h s.port.length
       refine ⟨by simp [hd], fun d hd' => hd.pops d ?_⟩
       subst hd'
       unfold nextReq at hn
       split at hn
       · cases hn
       · exact List.mem_of_find?_eq_some hn)

@[simp] theorem grantHost_orderly {s : State} (h : Orderly s) : Orderly (grantHost s) := by
  have hf : ∀ (l : List PortReq) (t : State), Orderly t →
      Orderly (l.foldl (fun s r => carryOut r { s with port := s.port.erase r }) t) := by
    intro l
    induction l with
    | nil => exact fun t ht => ht
    | cons r l ih => exact fun t ht => ih _ (by simp [ht])
  simp only [grantHost]; split <;> simp [*]

/-! ### The Connection Table -/

/-- What `Orderly` says of the Connection Table, for engines with given owners. -/
structure ConnTable.Good (own : EngineNo → Option EngOwner) (t : ConnTable) : Prop where
  names : (t.paths.map (·.pid)).Nodup
  below : ∀ p ∈ t.paths, p.pid < t.nextPid
  occ : (t.occ.map (·.res)).Nodup
  completed : (t.done.map (·.1)).Pairwise (· < ·)
  engines : ∀ p ∈ t.paths, ∀ e, p.engine = some e → ∃ o, own e = some o ∧ o.pid = p.pid

/-- The owners of the engines. -/
abbrev State.owners (s : State) (e : EngineNo) : Option EngOwner := (s.engine e).owner

theorem Orderly.table {s : State} (h : Orderly s) : s.table.Good s.owners := ⟨h.names, h.namesBelow, h.occupancy, h.completed, h.engines⟩

theorem Orderly.setTable {s : State} (h : Orderly s) {t : ConnTable} (g : t.Good s.owners) : Orderly { s with table := t } :=
  ⟨g.1, g.2, g.3, g.4, h.5, g.5, h.7, h.8, h.9, h.10, h.11, h.12, h.13, h.14, h.15, h.16⟩

/-- A change of paths that leaves each path its name and its engine, or takes the engine. -/
def Mild (f : Path → Path) : Prop := ∀ p, (f p).pid = p.pid ∧ ((f p).engine = p.engine ∨ (f p).engine = none)

theorem ConnTable.Good.mapPaths {own} {t : ConnTable} (g : t.Good own) {f : Path → Path} (hf : ∀ p ∈ t.paths, (f p).pid = p.pid ∧
    ∀ e, (f p).engine = some e → ∃ o, own e = some o ∧ o.pid = p.pid) : ConnTable.Good own { t with paths := t.paths.map f } := by
  have hm : (t.paths.map f).map (·.pid) = t.paths.map (·.pid) := by
    rw [List.map_map]; exact List.map_congr_left fun p hp => (hf p hp).1
  refine ⟨hm ▸ g.names, ?_, g.occ, g.completed, ?_⟩
  · rintro _ hq
    obtain ⟨p, hp, rfl⟩ := List.mem_map.1 hq
    exact (hf p hp).1 ▸ g.below p hp
  · rintro _ hq e he
    obtain ⟨p, hp, rfl⟩ := List.mem_map.1 hq
    rw [(hf p hp).1]; exact (hf p hp).2 e he

theorem ConnTable.Good.mapMild {own} {t : ConnTable} (g : t.Good own) {f : Path → Path} (hf : Mild f) :
    ConnTable.Good own { t with paths := t.paths.map f } := by
  refine g.mapPaths fun p hp => ⟨(hf p).1, fun e he => ?_⟩
  rcases (hf p).2 with h | h
  · exact g.engines p hp e (h ▸ he)
  · simp [h] at he

theorem ConnTable.Good.update {own} {t : ConnTable} (g : t.Good own) (pid) {f : Path → Path} (hf : ∀ p ∈ t.paths, p.pid = pid →
    (f p).pid = pid ∧ ∀ e, (f p).engine = some e → ∃ o, own e = some o ∧ o.pid = pid) : (t.update pid f).Good own := by
  refine g.mapPaths fun p hp => ?_
  split
  · next h => exact h ▸ hf p hp h
  · exact ⟨rfl, fun e he => g.engines p hp e he⟩

theorem ConnTable.Good.updateMild {own} {t : ConnTable} (g : t.Good own) (pid) {f : Path → Path} (hf : Mild f) : (t.update pid f).Good own :=
  g.mapMild fun p => by split <;> [exact hf p; exact ⟨rfl, .inl rfl⟩]

/-- Occupancy entries that come from those of the list, each from one, keep their map entries apart. -/
theorem ConnTable.Good.mapOcc {own} {t : ConnTable} (g : t.Good own) {f : Occ → Occ} (hf : ∀ o, (f o).res = o.res) :
    ConnTable.Good own { t with occ := t.occ.map f } :=
  ⟨g.names, g.below, by rw [List.map_map]; exact (List.map_congr_left (fun o _ => hf o) : t.occ.map _ = _) ▸ g.occ, g.completed, g.engines⟩

theorem ConnTable.Good.filterOcc {own} {t : ConnTable} (g : t.Good own) (f : Occ → Bool) : ConnTable.Good own { t with occ := t.occ.filter f } :=
  ⟨g.names, g.below, g.occ.sublist (List.filter_sublist.map _), g.completed, g.engines⟩

theorem ConnTable.Good.filterPaths {own} {t : ConnTable} (g : t.Good own) (f : Path → Bool) : ConnTable.Good own { t with paths := t.paths.filter f } :=
  ⟨g.names.sublist (List.filter_sublist.map _), fun p hp => g.below p (List.mem_of_mem_filter hp), g.occ, g.completed,
   fun p hp => g.engines p (List.mem_of_mem_filter hp)⟩

theorem filterMap_res_sublist {f : Occ → Option Occ} (hf : ∀ o x, f o = some x → x.res = o.res) (l : List Occ) :
    ((l.filterMap f).map (·.res)).Sublist (l.map (·.res)) := by
  induction l with
  | nil => exact .slnil
  | cons o l ih =>
    rcases h : f o with _ | x
    · simpa [List.filterMap_cons, h] using ih.cons o.res
    · simpa [List.filterMap_cons, h, hf o x h] using ih.cons_cons o.res

theorem ConnTable.Good.remove {own} {t : ConnTable} (g : t.Good own) (pid) : (t.remove pid).Good own := by
  have h := g.filterPaths (fun p => p.pid ≠ pid)
  refine ⟨h.names, h.below, g.occ.sublist (filterMap_res_sublist ?_ _), g.completed, h.engines⟩
  intro o x hx
  split at hx
  · obtain ⟨q, -, rfl⟩ := Option.map_eq_some_iff.1 hx; rfl
  · split at hx <;> (cases hx; rfl)

theorem ConnTable.Good.removeAll {own} {α : Type} (f : α → Nat) (l : List α) {t : ConnTable} (g : t.Good own) :
    (l.foldl (fun t a => t.remove (f a)) t).Good own := by
  induction l generalizing t with
  | nil => exact g
  | cons a l ih => exact ih (g.remove _)

theorem ConnTable.Good.voidOn {own} {t : ConnTable} (g : t.Good own) (pid) : (t.voidOn pid).Good own :=
  g.mapOcc fun o => by split <;> rfl

theorem ConnTable.Good.undo {own} {t : ConnTable} (g : t.Good own) : t.undo.Good own :=
  ((g.removeAll id _).filterOcc _).mapMild fun _ => ⟨rfl, .inl rfl⟩

theorem ConnTable.Good.unclaim {own} {t : ConnTable} (g : t.Good own) (r) : (t.unclaim r).Good own :=
  (g.filterOcc _).mapMild fun p => by split <;> exact ⟨rfl, .inl rfl⟩

theorem ConnTable.Good.addOcc {own} {t : ConnTable} (g : t.Good own) {o : Occ} (h : t.entry o.res = none) :
    ConnTable.Good own { t with occ := t.occ ++ [o] } := by
  refine ⟨g.names, g.below, ?_, g.completed, g.engines⟩
  rw [List.map_append, List.nodup_append]
  refine ⟨g.occ, List.nodup_singleton _, ?_⟩
  intro a ha b hb hab
  obtain ⟨x, hx, rfl⟩ := List.mem_map.1 ha
  simp only [List.map_cons, List.map_nil, List.mem_singleton] at hb
  have := List.find?_eq_none.1 h x hx
  simp [hab, hb] at this

theorem ConnTable.Good.takeAll {own} (pid) (l : List Res) {t : ConnTable} (g : t.Good own) : (t.takeAll pid l).Good own := by
  induction l generalizing t with
  | nil => exact g
  | cons r l ih =>
    refine ih ?_
    split
    · next h => exact g.addOcc h
    · exact g.mapOcc fun o => by split <;> rfl

/-- A new path of the next name, with no engine. -/
theorem ConnTable.Good.addPath {own} {t : ConnTable} (g : t.Good own) {p : Path} (hp : p.pid = t.nextPid) (he : p.engine = none) :
    ConnTable.Good own { t with paths := t.paths ++ [p], nextPid := t.nextPid + 1 } := by
  refine ⟨?_, ?_, g.occ, g.completed, ?_⟩
  · rw [List.map_append, List.nodup_append]
    refine ⟨g.names, List.nodup_singleton _, ?_⟩
    intro a ha b hb hab
    obtain ⟨q, hq, rfl⟩ := List.mem_map.1 ha
    simp only [List.map_cons, List.map_nil, List.mem_singleton] at hb
    have := g.below q hq
    omega
  · intro q hq
    rcases List.mem_append.1 hq with hq | hq
    · exact Nat.lt_succ_of_lt (g.below q hq)
    · rw [List.mem_singleton.1 hq, hp]; exact Nat.lt_succ_self _
  · intro q hq e hqe
    rcases List.mem_append.1 hq with hq | hq
    · exact g.engines q hq e hqe
    · rw [List.mem_singleton.1 hq, he] at hqe; cases hqe

theorem ConnTable.Good.reserve {own} {t u : ConnTable} (g : t.Good own) {r h f} (e : t.reserve r h f = .ok u) : u.Good own := by
  simp only [ConnTable.reserve] at e
  split at e
  · cases e
  · cases e; exact (g.addPath rfl rfl).takeAll _ _

theorem ConnTable.Good.adopt {own} {t u : ConnTable} (g : t.Good own) {r pid f} (e : t.adopt r pid f = .ok u) : u.Good own := by
  unfold ConnTable.adopt at e
  split at e
  · split at e
    · cases e
    · next h => cases e; exact (g.addOcc h).updateMild _ fun _ => ⟨rfl, .inl rfl⟩
  · cases e; exact g.updateMild _ fun _ => ⟨rfl, .inl rfl⟩

theorem ConnTable.Good.claim {own} {t u : ConnTable} (g : t.Good own) {p : Path} (hp : p.engine = none) (e : t.claim p = some u) : u.Good own := by
  unfold ConnTable.claim at e
  split at e
  · cases e
  · cases e; exact (g.addPath (p := { p with pid := t.nextPid }) rfl hp).takeAll _ _

theorem doneSet_keys (r c) (l : List (RecNo × Completed)) : ∀ x ∈ (doneSet r c l).map (·.1), x = r ∨ x ∈ l.map (·.1) := by
  induction l with
  | nil => unfold doneSet; split <;> simp
  | cons a l ih =>
    obtain ⟨a, b⟩ := a
    unfold doneSet
    repeat' split
    all_goals simp only [List.map_cons, List.mem_cons]
    all_goals intro x hx
    all_goals first
      | tauto
      | (rcases hx with hx | hx
         · simp [hx]
         · rcases ih x hx with h | h <;> simp [h])

theorem doneSet_rising (r c) {l : List (RecNo × Completed)} (h : (l.map (·.1)).Pairwise (· < ·)) :
    ((doneSet r c l).map (·.1)).Pairwise (· < ·) := by
  induction l with
  | nil => unfold doneSet; split <;> simp
  | cons a l ih =>
    obtain ⟨a, b⟩ := a
    simp only [List.map_cons, List.pairwise_cons] at h
    unfold doneSet
    split
    · next hr =>
      split
      · simpa using h
      · simp only [List.map_cons, List.pairwise_cons, List.mem_cons]
        refine ⟨?_, h⟩
        rintro x (rfl | hx)
        · exact hr
        · exact lt_trans hr (h.1 x hx)
    · next hr =>
      split
      · next he =>
        subst he
        split
        · exact h.2
        · simpa using h
      · next he =>
        simp only [List.map_cons, List.pairwise_cons]
        refine ⟨fun x hx => ?_, ih h.2⟩
        rcases doneSet_keys r c l x hx with rfl | hx
        · exact lt_of_le_of_ne (not_lt.1 hr) (Ne.symm he)
        · exact h.1 x hx

theorem ConnTable.Good.setDone {own} {t : ConnTable} (g : t.Good own) (r c) : ConnTable.Good own { t with done := doneSet r c t.done } :=
  ⟨g.names, g.below, g.occ, doneSet_rising r c g.completed, g.engines⟩

end Sys2Proof.Machine
end

