-- ==== Sys2Proof/Laws/Orderly.lean ====
section
/-! SUPPORT. Every operation of the part keeps `Orderly`: the Monitor Port, the Actuator Port, the Ramp Bank, the running of a batch and of restores,
the light, the check, the Interruption Unit, the Start-up Controller and the bus. -/

namespace Sys2Proof.Machine

/-- An operation on a list's members keeps the order where each keeps it. -/
theorem foldl_orderly {α : Type} {f : State → α → State} (hf : ∀ s a, Orderly s → Orderly (f s a)) (l : List α) {s : State} (h : Orderly s) :
    Orderly (l.foldl f s) := by
  induction l generalizing s with
  | nil => exact h
  | cons a l ih => exact ih (hf s a h)

/-- A choice keeps the order where both sides do. -/
theorem ite_orderly {c : Prop} [Decidable c] {s t : State} (hs : Orderly s) (ht : Orderly t) : Orderly (if c then s else t) := by
  split
  · exact hs
  · exact ht

/-! ### The Connection Table's paths -/

@[simp] theorem updatePath_orderly {s : State} (h : Orderly s) (pid) {f : Path → Path} (hf : Mild f) : Orderly (updatePath pid f s) :=
  h.setTable (h.table.updateMild pid hf)
@[simp] theorem setCompleted_orderly {s : State} (h : Orderly s) (r c) : Orderly (setCompleted r c s) := h.setTable (h.table.setDone r c)
@[simp] theorem activeDue_orderly {s : State} (h : Orderly s) (r) : Orderly (activeDue r s) := by
  simp only [activeDue]; repeat' split
  all_goals simp [h]
@[simp] theorem fixCompleted_orderly {s : State} (h : Orderly s) (r c) : Orderly (fixCompleted r c s) := by simp [fixCompleted, h]

/-- A path's engine field is one of two: as it was, or none. -/
theorem mild_of_eq {f : Path → Path} (h1 : ∀ p, (f p).pid = p.pid) (h2 : ∀ p, (f p).engine = p.engine) : Mild f :=
  fun p => ⟨h1 p, .inl (h2 p)⟩

theorem settlePending_same (p : Path) (b) : (p.settlePending b).pid = p.pid ∧ (p.settlePending b).engine = p.engine := by
  unfold Path.settlePending; split <;> exact ⟨rfl, rfl⟩
theorem atFix_same (p : Path) (b) : (p.atFix b).1.pid = p.pid ∧ (p.atFix b).1.engine = p.engine := by
  unfold Path.atFix; repeat' split
  all_goals exact ⟨rfl, rfl⟩

/-- A path of the table replaced by one of its name and engine. -/
theorem replacePath_orderly {s : State} (h : Orderly s) {p q : Path} (hp : p ∈ s.table.paths) (hq : q.pid = p.pid) (he : q.engine = p.engine) :
    Orderly (updatePath p.pid (fun _ => q) s) :=
  h.setTable (h.table.update _ fun _ _ _ => ⟨hq, fun e hqe => h.engines p hp e (he ▸ hqe)⟩)

@[simp] theorem fixRecord_orderly {s : State} (h : Orderly s) (r a b) : Orderly (fixRecord r a b s) := by
  have hs := h.setTable (h.table.removeAll (fun p : Path => p.pid) ((s.table.recordPaths r).filter (fun p => p.st = .reserved)))
  simp only [fixRecord]
  split
  · exact fixCompleted_orderly hs _ _
  · next p l hl =>
    have hp := List.mem_of_mem_filter (hl ▸ List.mem_cons_self : p ∈ ConnTable.recordPaths _ r)
    have h1 := settlePending_same (p.atFix b).1 (a && !p.squelched)
    have h2 := atFix_same p b
    refine activeDue_orderly ?_ _
    cases (p.atFix b).2 with
    | some d => exact replacePath_orderly (q := { (p.atFix b).1.settlePending (a && !p.squelched) with owner := _, measured := _ })
                  (setCompleted_orderly hs _ _) hp (h1.1.trans h2.1) (h1.2.trans h2.2)
    | none => exact replacePath_orderly (q := { (p.atFix b).1.settlePending (a && !p.squelched) with owner := _, measured := _ })
                hs hp (h1.1.trans h2.1) (h1.2.trans h2.2)

/-! ### The engines -/

theorem engine_setEngine (e e' g) (s : State) : (setEngine e g s).engine e' = if e = e' then g else s.engine e' := by
  simp only [State.engine, setEngine]
  split
  · next h => subst h; simp
  · next h => exact Vector.getElem_set_ne _ _ (fun hh => h (Fin.ext hh))

/-- One engine replaced: FREE it has no owner, and it still serves the paths that it is held for. -/
theorem setEngine_orderly {s : State} (h : Orderly s) (e) {g : Engine} (hf : g.st = .free → g.owner = none)
    (hp : ∀ p ∈ s.table.paths, p.engine = some e → ∃ o, g.owner = some o ∧ o.pid = p.pid) : Orderly (setEngine e g s) := by
  refine ⟨h.1, h.2, h.3, h.4, fun e' he => ?_, fun p hpp e' he => ?_, h.7, h.8, h.9, h.10, h.11, h.12, h.13, h.14, h.15, h.16⟩
  · rw [engine_setEngine] at he ⊢
    split at he
    · next hh => rw [if_pos hh]; exact hf he
    · next hh => rw [if_neg hh]; exact h.freeEngines e' he
  · rw [engine_setEngine]
    split
    · next hh => subst hh; exact hp p hpp he
    · exact h.engines p hpp e' he

/-- One engine replaced by one of the same owner, not FREE anew. -/
theorem setEngine_same_orderly {s : State} (h : Orderly s) (e) {g : Engine} (ho : g.owner = (s.engine e).owner)
    (hf : g.st = .free → (s.engine e).st = .free) : Orderly (setEngine e g s) :=
  setEngine_orderly h e (fun hg => ho ▸ h.freeEngines e (hf hg)) fun p hp he => ho ▸ h.engines p hp e he

@[simp] theorem updateEngine_orderly {s : State} (h : Orderly s) (e) {f : Engine → Engine} (ho : ∀ g, (f g).owner = g.owner)
    (hf : ∀ g, (f g).st = .free → g.st = .free) : Orderly (updateEngine e f s) :=
  setEngine_same_orderly h e (ho _) (hf _)

@[simp] theorem askSample_orderly {s : State} (h : Orderly s) (e o n) : Orderly (askSample e o n s) := by
  simp only [askSample]; exact updateEngine_orderly (by simp [h]) _ (fun _ => rfl) (fun _ hg => hg)
@[simp] theorem giveUpSample_orderly {s : State} (h : Orderly s) (e) : Orderly (giveUpSample e s) := by simp [giveUpSample, h]
@[simp] theorem tellLost_orderly {s : State} (h : Orderly s) (a) : Orderly (tellLost a s) := by
  simp only [tellLost]; split
  · exact setEngine_same_orderly h _ rfl (fun hg => hg)
  · exact h
@[simp] theorem handSample_orderly {s : State} (h : Orderly s) (a v) : Orderly (handSample a v s) := by
  simp only [handSample]; split
  · exact setEngine_same_orderly h _ rfl (fun hg => hg)
  · exact h

/-! ### Monitor Port -/

@[simp] theorem powerTake_orderly {s : State} (h : Orderly s) (i) : Orderly (powerTake i s) := by simp [powerTake, h]
@[simp] theorem clearCells_orderly {s : State} (h : Orderly s) (o a b) : Orderly (clearCells o a b s) := by simp [clearCells, h]
@[simp] theorem beginMeasure_orderly {s : State} (h : Orderly s) : Orderly (beginMeasure s) := by
  simp only [beginMeasure]; split <;> simp [h]
@[simp] theorem setLink_orderly {s : State} (h : Orderly s) (a) : Orderly (setLink a s) := by simp [setLink, h]
@[simp] theorem sampleArrives_orderly {s : State} (h : Orderly s) (f) : Orderly (sampleArrives f s) := by
  simp only [sampleArrives]; repeat' split
  all_goals simp [h]
@[simp] theorem loseRequests_orderly {s : State} (h : Orderly s) : Orderly (loseRequests s) := by
  simp only [loseRequests]
  exact foldl_orderly (fun t r ht => by split <;> simp [ht]) _ (by simp [h])
@[simp] theorem slip_orderly {s : State} (h : Orderly s) : Orderly (slip s) := by simp [slip, h]
@[simp] theorem takeIntake_orderly {s : State} (h : Orderly s) : Orderly (takeIntake s) := by
  simp only [takeIntake]; repeat' split
  all_goals simp [h]
@[simp] theorem silenceExpires_orderly {s : State} (h : Orderly s) : Orderly (silenceExpires s) := by
  simp only [silenceExpires]; split <;> simp [h]

/-! ### Actuator Port -/

/-- The ordinary class replaced by one of at most 24 places. -/
theorem Orderly.ordinary {s : State} (h : Orderly s) {l : List ActCmd} (hl : l.length ≤ 24) (u w t m r) :
    Orderly { s with act := { ordinary := l, urgent := u, wait := w, txn := t, mods := m, refresh := r } } :=
  ⟨h.1, h.2, h.3, h.4, h.5, h.6, h.7, h.8, h.9, h.10, h.11, hl, h.13, h.14, h.15, h.16⟩

@[simp] theorem setModule_orderly {s : State} (h : Orderly s) (o m) : Orderly (setModule o m s) := by
  simp only [setModule]; split <;> simp [h]
@[simp] theorem onQueued_orderly {s : State} (h : Orderly s) (c) : Orderly (onQueued c s) := by
  simp only [onQueued]; repeat' split
  all_goals first
    | exact h
    | exact updatePath_orderly h _ fun _ => ⟨rfl, .inl rfl⟩
    | exact updateEngine_orderly h _ (fun _ => rfl) fun _ hg => hg
theorem queueOrdinary_orderly {s : State} (h : Orderly s) (c) (hl : s.act.ordinary.length < 24) : Orderly (queueOrdinary c s) :=
  onQueued_orderly (h.ordinary (by simp; omega) _ _ _ _ _) c
theorem handOrdinary_orderly {s t : State} (h : Orderly s) {c} (ht : handOrdinary c s = some t) : Orderly t := by
  simp only [handOrdinary] at ht
  split at ht
  · cases ht
  · split at ht
    · next hc =>
      cases ht
      simp only [Bool.and_eq_true, decide_eq_true_eq] at hc
      exact queueOrdinary_orderly h c hc.1
    · cases ht
      split
      · exact updateEngine_orderly (by simp [h]) _ (fun _ => rfl) fun _ hg => hg
      · simp [h]
@[simp] theorem handOrdinary_getD_orderly {s : State} (h : Orderly s) (c) : Orderly ((handOrdinary c s).getD s) := by
  rcases ht : handOrdinary c s with _ | t
  · exact h
  · exact handOrdinary_orderly h ht
theorem placeWaiting_orderly {s t : State} (h : Orderly s) (ht : placeWaiting s = some t) : Orderly t := by
  simp only [placeWaiting] at ht
  repeat' split at ht
  all_goals first
    | (cases ht; done)
    | (next hc => cases ht; exact queueOrdinary_orderly (by simp [h]) _ hc)
@[simp] theorem withdrawCmds_orderly {s : State} (h : Orderly s) (p) : Orderly (withdrawCmds p s) :=
  h.ordinary ((List.length_filter_le _ _).trans h.places) _ _ _ _ _
@[simp] theorem queueUrgent_orderly {s : State} (h : Orderly s) (c) : Orderly (queueUrgent c s) := by simp [queueUrgent, h]
@[simp] theorem squelchSlot_orderly {s : State} (h : Orderly s) (o n) : Orderly (squelchSlot o n s) := by
  simp only [squelchSlot]; repeat' split
  all_goals simp [h]
theorem chooseFrame_places {s : State} {c a} (hc : chooseFrame s = some (c, a)) : a.ordinary.length ≤ s.act.ordinary.length := by
  simp only [chooseFrame] at hc
  repeat' split at hc
  all_goals first
    | (cases hc; done)
    | (cases hc; first | exact le_refl _ | exact List.length_erase_le)
@[simp] theorem beginTransaction_orderly {s : State} (h : Orderly s) : Orderly (beginTransaction s) := by
  simp only [beginTransaction]; split
  · next hc => exact h.ordinary ((chooseFrame_places hc).trans h.places) _ _ _ _ _
  · exact h
@[simp] theorem refreshPing_orderly {s : State} (h : Orderly s) (o) : Orderly (refreshPing o s) := by simp [refreshPing, h]
@[simp] theorem refreshBurst_orderly {s : State} (h : Orderly s) (o k) : Orderly (refreshBurst o k s) := by simp [refreshBurst, h]
@[simp] theorem startRefresh_orderly {s : State} (h : Orderly s) : Orderly (startRefresh s) := by
  simp only [startRefresh]; split <;> simp [h]
@[simp] theorem nextRefresh_orderly {s : State} (h : Orderly s) : Orderly (nextRefresh s) := by
  simp only [nextRefresh]; split <;> simp [h]

/-! ### Ramp Bank -/

@[simp] theorem freeEngine_orderly {s : State} (h : Orderly s) (e) : Orderly (freeEngine e s) := by
  simp only [freeEngine]
  split
  · next o ho =>
    have hm : Mild (fun p => if p.engine = some e then { p with engine := none } else p) := fun p => by
      dsimp only; split <;> simp
    refine setEngine_orderly (giveUpSample_orderly (updatePath_orderly h _ hm) _) e (fun _ => rfl) fun p hp he => ?_
    simp only [giveUpSample, updatePath, ConnTable.update, List.mem_map] at hp
    obtain ⟨q, hq, rfl⟩ := hp
    split at he
    · split at he
      · cases he
      · next h1 h2 => exact absurd he h2
    · next h1 =>
      obtain ⟨o', ho', hpid⟩ := h.engines q hq e he
      rw [ho] at ho'; cases ho'
      exact absurd hpid.symm h1
  · next ho =>
    refine setEngine_orderly (giveUpSample_orderly h _) e (fun _ => rfl) fun p hp he => ?_
    obtain ⟨o, ho', -⟩ := h.engines p hp e he
    rw [ho] at ho'; cases ho'
@[simp] theorem stopEngine_orderly {s : State} (h : Orderly s) (e) : Orderly (stopEngine e s) := by simp [stopEngine, h]
@[simp] theorem freePathEngine_orderly {s : State} (h : Orderly s) (e) : Orderly (freePathEngine e s) := by
  simp only [freePathEngine]; split <;> simp [h]
@[simp] theorem stopPathEngine_orderly {s : State} (h : Orderly s) (e) : Orderly (stopPathEngine e s) := by
  simp only [stopPathEngine]; split <;> simp [h]
@[simp] theorem withdrawEngReq_orderly {s : State} (h : Orderly s) (e) : Orderly (withdrawEngReq e s) := by simp [withdrawEngReq, h]
@[simp] theorem presentRequest_orderly {s : State} (h : Orderly s) (a b c d) : Orderly (presentRequest a b c d s) := by
  simp only [presentRequest]; split <;> simp [h]
/-- A grant of a FREE engine. -/
theorem makeGrant_orderly {s : State} (h : Orderly s) {e} (he : (s.engine e).st = .free) (r) : Orderly (makeGrant e r s) := by
  have hno : ∀ p ∈ s.table.paths, p.engine ≠ some e := fun p hp hpe => by
    obtain ⟨o, ho, -⟩ := h.engines p hp e hpe
    rw [h.freeEngines e he] at ho; cases ho
  simp only [makeGrant]
  have key : ∀ g : Engine, g.st ≠ .free → g.owner = some r.owner → ∀ st : PathState, ∀ t : State, Orderly t → t.table.paths = s.table.paths →
      Orderly (updatePath r.owner.pid (fun p => { p with st := st, engine := some e }) (setEngine e g t)) := by
    intro g hg ho st t ht hp
    have h1 := setEngine_orderly ht e (g := g) (fun hh => absurd hh hg) fun p hpp hpe => absurd hpe (hno p (hp ▸ hpp))
    refine h1.setTable (h1.table.update _ fun p _ hpid => ⟨hpid, fun e' he' => ?_⟩)
    cases he'
    exact ⟨r.owner, by rw [State.owners, engine_setEngine, if_pos rfl, ho], rfl⟩
  have hg : ∀ n v, (Engine.granted n r v).st ≠ .free := fun n v => by
    simp only [Engine.granted]; split <;> simp
  have ht : Orderly { s with ramp := { s.ramp with wait := s.ramp.wait.erase r, nextGrant := s.ramp.nextGrant + 1 } } := by simp [h]
  split
  · exact askSample_orderly (key _ (hg _ _) rfl _ _ ht rfl) _ _ _
  · exact key _ (hg _ _) rfl _ _ ht rfl
@[simp] theorem startReturning_orderly {s : State} (h : Orderly s) (e) : Orderly (startReturning e s) := by
  simp only [startReturning]
  exact updateEngine_orderly (giveUpSample_orderly h _) _ (fun _ => rfl) fun _ hg => by simp at hg

/-! ### Running a batch -/

theorem mild_id : Mild id := fun _ => ⟨rfl, .inl rfl⟩
@[simp] theorem removePath_orderly {s : State} (h : Orderly s) (pid) : Orderly { s with table := s.table.remove pid } := h.setTable (h.table.remove pid)

@[simp] theorem updateEntry_orderly {s : State} (h : Orderly s) (r) {f : Entry → Entry} (hf : ∀ e, e.no = r → (f e).no = r) :
    Orderly (updateEntry r f s) := by
  refine ⟨h.1, h.2, h.3, h.4, h.5, h.6, h.7, ?_, h.9, h.10, h.11, h.12, h.13, h.14, h.15, h.16⟩
  have : (s.queue.map (fun e => if e.no = r then f e else e)).map (·.no) = s.queue.map (·.no) := by
    rw [List.map_map]; refine List.map_congr_left fun e _ => ?_
    simp only [Function.comp]; split
    · next hr => rw [hf e hr, hr]
    · rfl
  exact this ▸ h.queue

@[simp] theorem writeBatchState_orderly {s : State} (h : Orderly s) (b) : Orderly (writeBatchState b s) := by simp [writeBatchState, h]
@[simp] theorem enterState_orderly {s : State} (h : Orderly s) (st w) : Orderly (enterState st w s) := by simp [enterState, h]
@[simp] theorem enterRunning_orderly {s : State} (h : Orderly s) : Orderly (enterRunning s) := by
  refine enterState_orderly ?_ _ _
  exact ⟨h.1, h.2, h.3, h.4, h.5, h.6, h.7, h.8, h.9, h.10, h.11, h.12, Nat.max_le.2 ⟨by decide, h.13⟩, h.14, h.15, h.16⟩
@[simp] theorem writeCounters_orderly {s : State} (h : Orderly s) (c) : Orderly (writeCounters c s) := by simp [writeCounters, h]
@[simp] theorem writeOutcome_orderly {s : State} (h : Orderly s) (r c) : Orderly (writeOutcome r c s) := by simp [writeOutcome, h]
@[simp] theorem giveUpClaims_orderly {s : State} (h : Orderly s) (e) : Orderly (giveUpClaims e s) := by
  refine h.setTable (ConnTable.Good.unclaim ?_ _)
  have g : ∀ t : ConnTable, t.Good s.owners → ConnTable.Good s.owners (match e.oldP with
      | some p => (t.voidOn p).update p (fun q => { q with leaving := false, pend := none })
      | none => t) := fun t ht => by
    split
    · exact (ht.voidOn _).updateMild _ fun _ => ⟨rfl, .inl rfl⟩
    · exact ht
  refine g _ ?_
  split
  · split
    · exact h.table
    · exact h.table.remove _
  · exact h.table
@[simp] theorem endWaiting_orderly {s : State} (h : Orderly s) (e a b) : Orderly (endWaiting e a b s) := by
  simp only [endWaiting]; split <;> simp (maxDischargeDepth := 9) [h]
@[simp] theorem endAllWaiting_orderly {s : State} (h : Orderly s) (a) : Orderly (endAllWaiting a s) :=
  foldl_orderly (fun t e ht => by split <;> simp (maxDischargeDepth := 9) [ht]) _ h
@[simp] theorem enterCancelling_orderly {s : State} (h : Orderly s) : Orderly (enterCancelling s) := by simp [enterCancelling, h]
@[simp] theorem stopTest_orderly {s : State} (h : Orderly s) (c) : Orderly (stopTest c s) := by
  unfold stopTest; repeat' split
  all_goals simp (maxDischargeDepth := 9) [h]
@[simp] theorem takeCode_orderly {s : State} (h : Orderly s) (r c) : Orderly (takeCode r c s) := by
  unfold takeCode; repeat' split
  all_goals simp (maxDischargeDepth := 9) [h]
@[simp] theorem markVoid_orderly {s : State} (h : Orderly s) (c n l) : Orderly (markVoid c n l s) := by
  induction n generalizing l s with
  | zero => exact h
  | succ n ih =>
    cases l with
    | nil => exact h
    | cons a l =>
      simp only [markVoid]; repeat' split
      all_goals exact ih (by simp (maxDischargeDepth := 9) [h]) _
@[simp] theorem finishNow_orderly {s : State} (h : Orderly s) (r c b) : Orderly (finishNow r c b s) := by
  simp only [finishNow]
  split
  · exact h
  · next e _ =>
    refine markVoid_orderly (writeOutcome_orderly (fixRecord_orderly ?_ _ _ _) _ _) _ _ _
    have hu : Orderly (updateEntry r (fun e => { e with st := c, chain := [] }) s) := by
      refine updateEntry_orderly h r fun x hx => hx
    split
    · refine hu.setTable (ConnTable.Good.updateMild ?_ _ fun _ => ⟨rfl, .inl rfl⟩)
      split
      · exact hu.table.voidOn _
      · exact hu.table
    · exact hu
@[simp] theorem finishEntry_orderly {s : State} (h : Orderly s) (r c b) : Orderly (finishEntry r c b s) := by
  simp only [finishEntry]; split <;> simp (maxDischargeDepth := 9) [h]
@[simp] theorem leaveInPlace_orderly {s : State} (h : Orderly s) (r) : Orderly (leaveInPlace r s) :=
  updatePath_orderly h _ fun p => by split <;> exact ⟨rfl, .inl rfl⟩
@[simp] theorem leaveRetuned_orderly {s : State} (h : Orderly s) (r) : Orderly (leaveRetuned r s) :=
  updatePath_orderly h _ fun p => by repeat' split
                                     all_goals exact ⟨rfl, .inl rfl⟩
@[simp] theorem dropUnrouted_orderly {s : State} (h : Orderly s) (r k) : Orderly (dropUnrouted r k s) := by
  unfold dropUnrouted; split
  · exact updatePath_orderly h _ fun _ => ⟨rfl, .inl rfl⟩
  · simp (maxDischargeDepth := 9) [h]
@[simp] theorem failInPlace_orderly {s : State} (h : Orderly s) (e k c) : Orderly (failInPlace e k c s) := by
  simp only [failInPlace]; split <;> simp (maxDischargeDepth := 9) [h]
@[simp] theorem issueDisconnect_orderly {s : State} (h : Orderly s) (e p) : Orderly (issueDisconnect e p s) := by
  simp only [issueDisconnect]; split
  · next ht => exact handOrdinary_orderly h ht
  · simp (maxDischargeDepth := 9) [h]
@[simp] theorem setState_orderly {s : State} (h : Orderly s) (pid) (st : PathState) : Orderly (updatePath pid (fun p => { p with st := st }) s) :=
  updatePath_orderly h _ fun _ => ⟨rfl, .inl rfl⟩
@[simp] theorem stepFailed_orderly {s : State} (h : Orderly s) (r c) : Orderly (stepFailed r c s) := by
  simp only [stepFailed]; repeat' split
  all_goals simp (maxDischargeDepth := 9) [h]
@[simp] theorem issueStep_orderly {s : State} (h : Orderly s) (r b) : Orderly (issueStep r b s) := by
  simp only [issueStep]
  split
  · exact h
  · split
    · split
      · split
        · simp (maxDischargeDepth := 9) [h]
        · split
          · simp (maxDischargeDepth := 9) [h]
          · have hu : ∀ p : Path, Orderly (if b = true then updatePath p.pid (fun p => { p with rerouting := true }) s else s) := fun p => by
              split
              · exact updatePath_orderly h _ fun _ => ⟨rfl, .inl rfl⟩
              · exact h
            split
            · next ht => exact handOrdinary_orderly (hu _) ht
            · exact stepFailed_orderly (hu _) _ _
      all_goals first
        | (simp (maxDischargeDepth := 9) [h]; done)
        | (split <;> simp (maxDischargeDepth := 9) [h])
    · exact h
@[simp] theorem stepDone_orderly {s : State} (h : Orderly s) (r) : Orderly (stepDone r s) := by
  simp only [stepDone]; split <;> simp (maxDischargeDepth := 9) [h]
@[simp] theorem disconnected_orderly {s : State} (h : Orderly s) (r) : Orderly (disconnected r s) := by
  simp only [disconnected]; repeat' split
  all_goals simp (maxDischargeDepth := 9) [h]
@[simp] theorem verified_orderly {s : State} (h : Orderly s) (r) : Orderly (verified r s) := by
  simp only [verified]; split <;> simp (maxDischargeDepth := 9) [h]
@[simp] theorem adopted_orderly {s : State} (h : Orderly s) (pid r f) : Orderly (updatePath pid (fun p => p.adopted r f) s) :=
  updatePath_orderly h _ fun _ => ⟨rfl, .inl rfl⟩
@[simp] theorem beginEntry_orderly {s : State} (h : Orderly s) (e) : Orderly (beginEntry e s) := by
  simp only [beginEntry]; repeat' split
  all_goals simp (maxDischargeDepth := 9) [h]
@[simp] theorem endBatch_orderly {s : State} (h : Orderly s) (w) : Orderly (endBatch w s) := by simp [endBatch, h]
theorem pumpBatch_orderly {s t : State} (h : Orderly s) (ht : pumpBatch s = some t) : Orderly t := by
  simp only [pumpBatch] at ht
  repeat' split at ht
  all_goals first
    | (cases ht; done)
    | (cases ht; simp (maxDischargeDepth := 9) [h]; done)
    | (next hp => cases ht; exact ⟨h.1, h.2, h.3, h.4, h.5, h.6, h.7, h.8, h.9, h.10, h.11, h.12, hp, h.14, h.15, h.16⟩)
    | (obtain ⟨e, -, rfl⟩ := Option.map_eq_some_iff.1 ht; simp (maxDischargeDepth := 9) [h])

/-! ### Restores -/

/-- The Restore List and the begun restores replaced. -/
theorem Orderly.restoring {s : State} (h : Orderly s) {l : List (RecNo × Degree)} {b : List Restore}
    (hn : (l.map (·.1) ++ b.map (·.no)).Nodup) (hb : b.length ≤ 4) (q st ho cs ls rh) :
    Orderly { s with light := { qual := q, state := st, holdOff := ho, changeSet := cs, lossSeen := ls, restoreList := l, begun := b
                                restoresHeld := rh } } :=
  ⟨h.1, h.2, h.3, h.4, h.5, h.6, h.7, h.8, h.9, hn, hb, h.12, h.13, h.14, h.15, h.16⟩

/-- Fewer on the Restore List and fewer begun. -/
theorem Orderly.fewer {s : State} (h : Orderly s) {l : List (RecNo × Degree)} {b : List Restore} (hl : l.Sublist s.light.restoreList)
    (hb : b.Sublist s.light.begun) (q st ho cs ls rh) :
    Orderly { s with light := { qual := q, state := st, holdOff := ho, changeSet := cs, lossSeen := ls, restoreList := l, begun := b
                                restoresHeld := rh } } :=
  h.restoring (h.restores.sublist ((hl.map _).append (hb.map _))) (hb.length_le.trans h.begun) _ _ _ _ _ _

@[simp] theorem setRestoreStep_orderly {s : State} (h : Orderly s) (r k) : Orderly (setRestoreStep r k s) := by
  have hm : (s.light.begun.map (fun x => if x.no = r then { x with step := k } else x)).map (·.no) = s.light.begun.map (·.no) := by
    rw [List.map_map]; refine List.map_congr_left fun x _ => ?_
    simp only [Function.comp]; split <;> rfl
  exact h.restoring (hm ▸ h.restores) (by simpa using h.begun) _ _ _ _ _ _
@[simp] theorem endRestoreNow_orderly {s : State} (h : Orderly s) (r) : Orderly (endRestoreNow r s) :=
  raiseCause_orderly ((fixRecord_orderly h _ _ _).fewer (.refl _) List.filter_sublist _ _ _ _ _ _) _
@[simp] theorem endRestore_orderly {s : State} (h : Orderly s) (r) : Orderly (endRestore r s) := by
  simp only [endRestore]; split <;> simp (maxDischargeDepth := 9) [h]
@[simp] theorem restoreDisconnect_orderly {s : State} (h : Orderly s) (x p) : Orderly (restoreDisconnect x p s) := by
  simp only [restoreDisconnect]; split
  · next ht => exact handOrdinary_orderly (by simp (maxDischargeDepth := 9) [h]) ht
  · simp (maxDischargeDepth := 9) [h]
@[simp] theorem restoreFailed_orderly {s : State} (h : Orderly s) (r) : Orderly (restoreFailed r s) := by
  simp only [restoreFailed]; repeat' split
  all_goals simp (maxDischargeDepth := 9) [h]
@[simp] theorem restoreConnect_orderly {s : State} (h : Orderly s) (x p) : Orderly (restoreConnect x p s) := by
  simp only [restoreConnect]; split
  · next ht => exact handOrdinary_orderly h ht
  · simp (maxDischargeDepth := 9) [h]
@[simp] theorem engineFails_orderly {s : State} (h : Orderly s) (o c) : Orderly (engineFails o c s) := by
  simp only [engineFails]; split <;> simp (maxDischargeDepth := 9) [h]
@[simp] theorem dimmed_orderly {s : State} (h : Orderly s) (o) : Orderly (dimmed o s) := by
  simp only [dimmed]; repeat' split
  all_goals simp (maxDischargeDepth := 9) [h]

/-! ### Light -/

@[simp] theorem requestCapture_orderly {s : State} (h : Orderly s) (c) : Orderly (requestCapture c s) := by
  simp only [requestCapture]; split <;> simp (maxDischargeDepth := 9) [h]
theorem mild_squelch : Mild Path.squelch := fun p => by
  simp only [Path.squelch]; repeat' split
  all_goals exact ⟨rfl, .inl rfl⟩
@[simp] theorem squelchPath_orderly {s : State} (h : Orderly s) (p) : Orderly (squelchPath p s) := by
  simp only [squelchPath]; repeat' split
  all_goals simp (maxDischargeDepth := 9) [h, mild_squelch]
@[simp] theorem dropRequester_orderly {s : State} (h : Orderly s) (r) : Orderly (dropRequester r s) :=
  ⟨h.1, h.2, h.3, h.4, h.5, h.6, h.7, h.8, h.9, h.10, h.11, h.12, h.13, h.14, h.15, h.16⟩
@[simp] theorem stopRestore_orderly {s : State} (h : Orderly s) (x) : Orderly (stopRestore x s) := by
  refine Orderly.fewer (fixRecord_orderly ?_ _ _ _) (.refl _) List.filter_sublist _ _ _ _ _ _
  exact updatePath_orderly (dropRequester_orderly h _) _ fun _ => ⟨rfl, .inl rfl⟩
@[simp] theorem squelchDegree_orderly {s : State} (h : Orderly s) (d) : Orderly (squelchDegree d s) := by
  simp only [squelchDegree]
  refine foldl_orderly (fun t x ht => stopRestore_orderly ht x) _ (Orderly.fewer ?_ List.filter_sublist (.refl _) _ _ _ _ _ _)
  exact foldl_orderly (fun t p ht => squelchSlot_orderly ht _ _) _ (foldl_orderly (fun t p ht => squelchPath_orderly ht p) _ h)
@[simp] theorem lightChange_orderly {s : State} (h : Orderly s) (d l) : Orderly (lightChange d l s) := by simp (maxDischargeDepth := 9) [lightChange, h]
@[simp] theorem lossFromLit_orderly {s : State} (h : Orderly s) (d) : Orderly (lossFromLit d s) := by
  simp only [lossFromLit]; repeat' split
  all_goals simp (maxDischargeDepth := 9) [h]
@[simp] theorem setHoldOff_orderly {s : State} (h : Orderly s) (d n) : Orderly (setHoldOff d n s) := by simp (maxDischargeDepth := 9) [setHoldOff, h]
@[simp] theorem clearFromDark_orderly {s : State} (h : Orderly s) (d) : Orderly (clearFromDark d s) := by simp (maxDischargeDepth := 9) [clearFromDark, h]
@[simp] theorem lossEvent_orderly {s : State} (h : Orderly s) (d) : Orderly (lossEvent d s) := by
  unfold lossEvent; split <;> simp (maxDischargeDepth := 9) [h]
@[simp] theorem clearEvent_orderly {s : State} (h : Orderly s) (d) : Orderly (clearEvent d s) := by
  unfold clearEvent; split <;> simp (maxDischargeDepth := 9) [h]
@[simp] theorem litEvent_orderly {s : State} (h : Orderly s) (d) : Orderly (litEvent d s) := by
  have hs : Orderly (lightChange d .lit (setHoldOff d none s)) := by simp (maxDischargeDepth := 9) [h]
  simp only [litEvent]
  generalize lightChange d .lit (setHoldOff d none s) = t at hs ⊢
  have key : Orderly { t with light := { t.light with
      restoreList := t.light.restoreList ++ (allRecords.filter (restorable d t)).map (fun r => (r, d)) } } := by
    refine hs.restoring ?_ hs.begun _ _ _ _ _ _
    have hm : (List.map (·.1) ((allRecords.filter (restorable d t)).map (fun r => (r, d)))) = allRecords.filter (restorable d t) := by
      rw [List.map_map]; exact List.map_id' _
    rw [List.map_append, hm, List.append_assoc, (List.perm_append_comm.append_left _).nodup_iff, ← List.append_assoc, List.nodup_append]
    refine ⟨hs.restores, (List.nodup_finRange 256).filter _, ?_⟩
    rintro a ha b hb rfl
    have hr := (List.mem_filter.1 hb).2
    simp only [restorable, Bool.and_eq_true, Bool.not_eq_true', List.any_eq_false, decide_eq_true_eq] at hr
    rcases List.mem_append.1 ha with ha | ha
    · obtain ⟨x, hx, rfl⟩ := List.mem_map.1 ha; exact hr.1.2 x hx rfl
    · obtain ⟨x, hx, rfl⟩ := List.mem_map.1 ha; exact hr.2 x hx rfl
  repeat' split
  all_goals first | exact key | exact hs
@[simp] theorem setLevel_orderly {s : State} (h : Orderly s) (d l) : Orderly (setLevel d l s) := by simp (maxDischargeDepth := 9) [setLevel, h]
@[simp] theorem actOnLatched_orderly {s : State} (h : Orderly s) (d) : Orderly (actOnLatched d s) := by
  simp only [actOnLatched]; repeat' split
  all_goals simp (maxDischargeDepth := 9) [h]
theorem beginRestore_orderly {s t : State} (h : Orderly s) (ht : beginRestore s = some t) : Orderly t := by
  simp only [beginRestore] at ht
  split at ht
  · cases ht
  · next hd =>
    split at ht
    · cases ht
    · next r d rest hl =>
      have hs : Orderly { s with light := { s.light with restoreList := rest } } :=
        h.fewer (hl ▸ List.sublist_cons_self _ _) (.refl _) _ _ _ _ _ _
      have hb : ∀ x : Restore, x.no = r → Orderly { s with light := { s.light with restoreList := rest, begun := s.light.begun ++ [x] } } := by
        intro x hx
        refine h.restoring ?_ ?_ _ _ _ _ _ _
        · have := h.restores
          rw [hl] at this
          rw [List.map_append, List.map_cons, List.map_nil, hx, ← List.append_assoc]
          exact (List.perm_append_singleton r _).nodup_iff.2 this
        · have hd' : restoreDue s = true := by simpa using hd
          simp only [restoreDue, Bool.and_eq_true, decide_eq_true_eq] at hd'
          have := hd'.1.1.1.1.1.1.2
          simp; omega
      repeat' split at ht
      all_goals
        cases ht
        first
          | exact hs
          | exact restoreConnect_orderly (hb _ rfl) _ _
          | exact restoreFailed_orderly (hb _ rfl) _

/-! ### Engines at their expiries -/

@[simp] theorem askForPath_orderly {s : State} (h : Orderly s) (e) : Orderly (askForPath e s) := by
  simp only [askForPath]; split <;> simp (maxDischargeDepth := 9) [h]
@[simp] theorem updateEngineCmd_orderly {s : State} (h : Orderly s) (e c) : Orderly (updateEngine e (fun g => { g with cmd := c }) s) :=
  updateEngine_orderly h _ (fun _ => rfl) fun _ hg => hg
@[simp] theorem engineAnswered_orderly {s : State} (h : Orderly s) (e) : Orderly (engineAnswered e s) := by
  simp only [engineAnswered]; repeat' split
  all_goals simp (maxDischargeDepth := 9) [h]
@[simp] theorem setAtten_orderly {s : State} (h : Orderly s) (e a) : Orderly (setAtten e a s) := by
  simp only [setAtten]; repeat' split
  all_goals first
    | (simp (maxDischargeDepth := 9) [h]; done)
    | (next ht => exact handOrdinary_orderly h ht)
@[simp] theorem rampStep_orderly {s : State} (h : Orderly s) (e m a b) : Orderly (rampStep e m a b s) := by
  simp only [rampStep]; split
  · simp (maxDischargeDepth := 9) [h]
  · refine setAtten_orderly ?_ _ _
    exact updateEngine_orderly h _ (fun _ => rfl) fun _ hg => hg
@[simp] theorem toVerify_orderly {s : State} (h : Orderly s) (o) : Orderly (toVerify o s) := by
  simp only [toVerify]; split <;> simp (maxDischargeDepth := 9) [h]
@[simp] theorem endRamp_orderly {s : State} (h : Orderly s) (e b) : Orderly (endRamp e b s) := by
  have hu : Orderly (updateEngine e (fun g => { g with st := .verifying, kind := .verify, wanted := 2, first := none, samp := .none, sample := none }) s) :=
    updateEngine_orderly h _ (fun _ => rfl) fun _ hg => by cases hg
  simp only [endRamp]
  repeat' split
  all_goals simp (maxDischargeDepth := 9) [h, hu]
@[simp] theorem decideRamp_orderly {s : State} (h : Orderly s) (e g o a m) : Orderly (decideRamp e g o a m s) := by
  have hu : ∀ d, Orderly (updateEngine e (fun g => { g with dir := d }) s) := fun d => updateEngine_orderly h _ (fun _ => rfl) fun _ hg => hg
  simp only [decideRamp]; repeat' split
  all_goals simp (maxDischargeDepth := 9) [h, hu]
@[simp] theorem decideVerify_orderly {s : State} (h : Orderly s) (e g o a b) : Orderly (decideVerify e g o a b s) := by
  simp only [decideVerify]; repeat' split
  all_goals simp (maxDischargeDepth := 9) [h]
@[simp] theorem decide'_orderly {s : State} (h : Orderly s) (e g o p) : Orderly (decide' e g o p s) := by
  have hu : ∀ m, Orderly (updateEngine e (fun g => { g with first := some m, wanted := 1 }) s) := fun m =>
    updateEngine_orderly h _ (fun _ => rfl) fun _ hg => hg
  simp only [decide']; repeat' split
  all_goals simp (maxDischargeDepth := 9) [h, hu]
@[simp] theorem firstExpiry_orderly {s : State} (h : Orderly s) (e g o p) : Orderly (firstExpiry e g o p s) := by
  have hu : Orderly (updateEngine e (fun g => { g with st := .stepping }) s) := updateEngine_orderly h _ (fun _ => rfl) fun _ hg => by cases hg
  simp only [firstExpiry]; repeat' split
  all_goals simp (maxDischargeDepth := 9) [hu]
@[simp] theorem missedExpiry_orderly {s : State} (h : Orderly s) (e g o) : Orderly (missedExpiry e g o s) := by
  have hu : Orderly (updateEngine e (fun g => { g with miss := g.miss + 1 }) s) := updateEngine_orderly h _ (fun _ => rfl) fun _ hg => hg
  simp only [missedExpiry]; repeat' split
  all_goals simp (maxDischargeDepth := 9) [h, hu]
@[simp] theorem expiryDecision_orderly {s : State} (h : Orderly s) (e) : Orderly (expiryDecision e s) := by
  simp only [expiryDecision]; repeat' split
  all_goals simp (maxDischargeDepth := 9) [h]
@[simp] theorem intervalExpires_orderly {s : State} (h : Orderly s) (e) : Orderly (intervalExpires e s) := by
  have hd := expiryDecision_orderly h e
  simp only [intervalExpires]; repeat' split
  all_goals first
    | exact h
    | exact hd
    | exact setEngine_same_orderly hd _ rfl fun hg => hg
theorem grantStep_orderly {s t : State} (h : Orderly s) (ht : grantStep s = some t) : Orderly t := by
  simp only [grantStep] at ht
  split at ht
  · cases ht
  · next e r hn =>
    have he : (s.engine e).st = .free := by
      simp only [nextGrant?] at hn
      repeat' split at hn
      all_goals first
        | (cases hn; done)
        | (next hf _ => cases hn; simpa using List.find?_some hf)
    have hm := makeGrant_orderly h he r
    repeat' split at ht
    all_goals (cases ht; first | exact hm | exact dimmed_orderly (freeEngine_orderly hm _) _)

/-! ### Acknowledged commands -/

theorem mild_connectApplied : Mild connectApplied := fun p => by
  simp only [connectApplied]; split <;> exact ⟨rfl, .inl rfl⟩
@[simp] theorem disconnectApplied_orderly {s : State} (h : Orderly s) (pid k a) : Orderly (disconnectApplied pid k a s) := by
  simp only [disconnectApplied]; split
  · exact updatePath_orderly h _ fun _ => ⟨rfl, .inl rfl⟩
  · simp (maxDischargeDepth := 9) [h]
@[simp] theorem routeApplied_orderly {s : State} (h : Orderly s) (c) : Orderly (routeApplied c s) := by
  simp only [routeApplied]
  have hc : ∀ pid, Orderly (updatePath pid connectApplied s) := fun pid => updatePath_orderly h _ mild_connectApplied
  split
  · repeat' split
    all_goals simp (maxDischargeDepth := 9) [h, hc]
  · repeat' split
    all_goals simp (maxDischargeDepth := 9) [h]
  · repeat' split
    all_goals simp (maxDischargeDepth := 9) [h, hc]
  · split
    · simp (maxDischargeDepth := 9) [h]
    · exact updatePath_orderly h _ fun p => by split <;> exact ⟨rfl, .inl rfl⟩
  · exact updatePath_orderly h _ fun _ => ⟨rfl, .inl rfl⟩
  · exact h
@[simp] theorem attenApplied_orderly {s : State} (h : Orderly s) (c) : Orderly (attenApplied c s) := by
  have hu : ∀ pid a, Orderly (updatePath pid (fun p => { p with att := a }) s) := fun pid a => updatePath_orderly h _ fun _ => ⟨rfl, .inl rfl⟩
  simp only [attenApplied]; repeat' split
  all_goals simp (maxDischargeDepth := 9) [h, hu]
@[simp] theorem commandFailed_orderly {s : State} (h : Orderly s) (c) : Orderly (commandFailed c s) := by
  simp only [commandFailed]; repeat' split
  all_goals simp (maxDischargeDepth := 9) [h]

/-! ### Commands, fetch and check -/

/-- The batch record list and the phase replaced. -/
theorem Orderly.listed {s : State} (h : Orderly s) {l : List BatchRec} (hl : (l.map (·.no)).Nodup) {n : Nat} (hn : n ≤ 3)
    (pr en sq rf sm c ab sp w lf rc ls) :
    Orderly { s with batch := { present := pr, ending := en, seq := sq, refuse := rf, stop := sm, counters := c, phase := n, list := l, abandon := ab
                                stopPending := sp, work := w, lastFetched := lf, recovery := rc, lossStop := ls } } :=
  ⟨h.1, h.2, h.3, h.4, h.5, h.6, hl, h.8, h.9, h.10, h.11, h.12, hn, h.14, h.15, h.16⟩

theorem joinSet_mem {r x : RecNo} {l : List RecNo} (hx : x ∈ joinSet r l) : x = r ∨ x ∈ l := by
  induction l with
  | nil => simpa [joinSet] using hx
  | cons a l ih =>
    simp only [joinSet] at hx
    repeat' split at hx
    · simpa using hx
    · exact .inr hx
    · rcases List.mem_cons.1 hx with hx | hx
      · simp [hx]
      · rcases ih hx with h | h <;> simp [h]
theorem joinSet_rising (r : RecNo) {l : List RecNo} (h : l.Pairwise (· < ·)) : (joinSet r l).Pairwise (· < ·) := by
  induction l with
  | nil => simp [joinSet]
  | cons a l ih =>
    rw [List.pairwise_cons] at h
    simp only [joinSet]
    split
    · next hr =>
      refine List.pairwise_cons.2 ⟨?_, List.pairwise_cons.2 h⟩
      intro x hx
      rcases List.mem_cons.1 hx with rfl | hx
      · exact hr
      · exact lt_trans hr (h.1 x hx)
    · next hr =>
      split
      · exact List.pairwise_cons.2 h
      · next he =>
        refine List.pairwise_cons.2 ⟨fun x hx => ?_, ih h.2⟩
        rcases joinSet_mem hx with rfl | hx
        · exact lt_of_le_of_ne (not_lt.1 hr) (Ne.symm he)
        · exact h.1 x hx

/-- The Touched Set replaced by an ascending one. -/
theorem Orderly.touching {s : State} (h : Orderly s) {l : List RecNo} (hl : l.Pairwise (· < ·)) : Orderly { s with touched := l } :=
  ⟨h.1, h.2, h.3, h.4, h.5, h.6, h.7, h.8, hl, h.10, h.11, h.12, h.13, h.14, h.15, h.16⟩
@[simp] theorem touch_orderly {s : State} (h : Orderly s) (r) : Orderly (touch r s) := h.touching (joinSet_rising r h.touched)
@[simp] theorem untouch_orderly {s : State} (h : Orderly s) (r) : Orderly (untouch r s) := h.touching (h.touched.filter _)
@[simp] theorem returnTouched_orderly {s : State} (h : Orderly s) : Orderly (returnTouched s) := by
  unfold returnTouched; split
  · exact h
  · exact foldl_orderly (fun t b ht => touch_orderly ht _) _ h
@[simp] theorem nextFetch_orderly {s : State} (h : Orderly s) : Orderly (nextFetch s) := by
  simp only [nextFetch]; repeat' split
  all_goals simp (maxDischargeDepth := 9) [h]
@[simp] theorem beginBatch_orderly {s : State} (h : Orderly s) (q r) : Orderly (beginBatch q r s) := by
  have hb : Orderly (writeCounters .zero (enterState .fetching .fetching
      { s with batch := { Batch.reset with present := true, seq := q, work := .fetch, recovery := r } })) :=
    writeCounters_orderly (enterState_orderly (h.listed (l := []) .nil (Nat.zero_le 3) _ _ _ _ _ _ _ _ _ _ _ _) _ _) _
  simp only [beginBatch]
  split
  · refine request_orderly (hb.listed ?_ hb.phase _ _ _ _ _ _ _ _ _ _ _ _) (by simp)
    rw [List.map_map]
    exact (List.map_id' _).symm ▸ (List.nodup_finRange 256).filter _
  · exact nextFetch_orderly hb
theorem joinRecord_nodup {l : List BatchRec} (h : (l.map (·.no)).Nodup) (b : BatchRec) : ((joinRecord b l).map (·.no)).Nodup := by
  rw [joinRecord, List.map_append, List.nodup_append]
  refine ⟨h.sublist (List.filter_sublist.map _), by simp, ?_⟩
  intro x hx y hy hxy
  obtain ⟨c, hc, rfl⟩ := List.mem_map.1 hx
  simp only [List.map_cons, List.map_nil, List.mem_singleton] at hy
  exact absurd (hxy.trans hy) (by simpa using (List.mem_filter.1 hc).2)
@[simp] theorem recordFetched_orderly {s : State} (h : Orderly s) (r) : Orderly (recordFetched r s) := by
  unfold recordFetched
  split
  · exact h
  · next m _ =>
    have hs := readBurst_orderly h .fetch (pageAddr m.staging (offRecord r)) 3
    generalize readBurst .fetch (pageAddr m.staging (offRecord r)) 3 s = x at hs ⊢
    refine untouch_orderly ?_ _
    exact ⟨hs.1, hs.2, hs.3, hs.4, hs.5, hs.6, joinRecord_nodup hs.7 _, hs.8, hs.9, hs.10, hs.11, hs.12, hs.13, hs.14, hs.15, hs.16⟩
@[simp] theorem masksFetched_orderly {s : State} (h : Orderly s) : Orderly (masksFetched s) := by
  simp only [masksFetched]; repeat' split
  all_goals simp (maxDischargeDepth := 9) [h]
@[simp] theorem cacheProfile_orderly {s : State} (h : Orderly s) (q k) : Orderly (cacheProfile q k s) := by
  simp only [cacheProfile]; split <;> simp (maxDischargeDepth := 9) [h]
@[simp] theorem fetchComplete_orderly {s : State} (h : Orderly s) : Orderly (fetchComplete s) := by
  simp only [fetchComplete]
  have key : ∀ t : State, Orderly t → Orderly { t with
      batch := { t.batch with work := .check, list := t.batch.list.map (fun b => { b with held := true }) }
      light := { t.light with restoreList := t.light.restoreList.filter (fun x => !t.batch.list.any (fun b => b.no = x.1)) } } := by
    intro t ht
    have hl := ht.listed (l := t.batch.list.map (fun b => { b with held := true })) (by simpa [List.map_map, Function.comp_def] using ht.records)
      ht.phase t.batch.present t.batch.ending t.batch.seq t.batch.refuse t.batch.stop t.batch.counters t.batch.abandon t.batch.stopPending .check
      t.batch.lastFetched t.batch.recovery t.batch.lossStop
    exact hl.fewer List.filter_sublist (.refl _) _ _ _ _ _ _
  refine key _ ?_
  split <;> simp (maxDischargeDepth := 9) [h]
@[simp] theorem profileFetched_orderly {s : State} (h : Orderly s) (k) : Orderly (profileFetched k s) := by
  simp only [profileFetched]; split <;> simp (maxDischargeDepth := 9) [h]
@[simp] theorem setVerdict_orderly {s : State} (h : Orderly s) (r v) : Orderly (setVerdict r v s) := by
  refine h.listed ?_ h.phase _ _ _ _ _ _ _ _ _ _ _ _
  rw [List.map_map]
  refine (List.map_congr_left fun b _ => ?_ : _ = s.batch.list.map (·.no)) ▸ h.records
  simp only [Function.comp]; split <;> rfl
theorem mild_judged (k st) : Mild (fun q => q.judged k st) := fun p => by
  simp only [Path.judged]; repeat' split
  all_goals exact ⟨rfl, .inl rfl⟩
@[simp] theorem judge_orderly {s : State} (h : Orderly s) (b) : Orderly (judge b s) := by
  simp only [judge]; repeat' split
  all_goals simp (maxDischargeDepth := 9) [h, mild_judged]
theorem claimRound_good {own} (l : List BatchRec) {t u : ConnTable} {r x} (g : t.Good own) (hu : claimRound l t r = .final u x) : u.Good own := by
  induction l generalizing t r with
  | nil => simp only [claimRound] at hu; cases hu; exact g
  | cons b l ih =>
    simp only [claimRound] at hu
    repeat' split at hu
    all_goals first
      | (cases hu; done)
      | exact ih g hu
      | (next e => exact ih (g.reserve e) hu)
      | (next e => exact ih (g.adopt e) hu)
@[simp] theorem unmarkLeaving_orderly {s : State} (h : Orderly s) (r) : Orderly (unmarkLeaving r s) := by
  simp only [unmarkLeaving]; split
  · exact updatePath_orderly h _ fun _ => ⟨rfl, .inl rfl⟩
  · exact h
@[simp] theorem claimRounds_orderly {s : State} (h : Orderly s) (n) : Orderly (claimRounds n s) := by
  induction n generalizing s with
  | zero => exact h
  | succ n ih =>
    simp only [claimRounds]; split
    · next hu => exact foldl_orderly (fun t x ht => setVerdict_orderly ht _ _) _ (h.setTable (claimRound_good _ h.table hu))
    · exact ih (by simp (maxDischargeDepth := 9) [h])
@[simp] theorem refuseBatch_orderly {s : State} (h : Orderly s) : Orderly (refuseBatch s) := by
  simp only [refuseBatch]
  exact endBatch_orderly (foldl_orderly (fun t b ht => writeOutcome_orderly ht _ _) _ (returnTouched_orderly (h.setTable h.table.undo))) _
@[simp] theorem takeTag_orderly {s : State} (h : Orderly s) (p f) : Orderly (takeTag p f s) := updatePath_orderly h _ fun _ => ⟨rfl, .inl rfl⟩
@[simp] theorem acceptRecord_orderly {s : State} (h : Orderly s) (b) : Orderly (acceptRecord b s) := by
  simp only [acceptRecord]; repeat' split
  all_goals simp (maxDischargeDepth := 9) [h]
theorem entryOf_no {s : State} {b : BatchRec} {e} (he : entryOf s b = some e) : e.no = b.no := by
  simp only [entryOf] at he
  repeat' split at he
  all_goals first | (cases he; done) | (cases he; rfl)
theorem filterMap_no_sublist {f : BatchRec → Option Entry} (hf : ∀ b e, f b = some e → e.no = b.no) (l : List BatchRec) :
    ((l.filterMap f).map (·.no)).Sublist (l.map (·.no)) := by
  induction l with
  | nil => exact .slnil
  | cons b l ih =>
    rcases h : f b with _ | e
    · simpa [List.filterMap_cons, h] using ih.cons b.no
    · simpa [List.filterMap_cons, h, hf b e h] using ih.cons_cons b.no
@[simp] theorem reportAtCheck_orderly {s : State} (h : Orderly s) (b) : Orderly (reportAtCheck s b) := by
  simp only [reportAtCheck]; split <;> simp (maxDischargeDepth := 9) [h]
@[simp] theorem acceptBatch_orderly {s : State} (h : Orderly s) : Orderly (acceptBatch s) := by
  simp only [acceptBatch]
  have h1 : Orderly (s.batch.list.foldl (fun s b => acceptRecord b s) s) := foldl_orderly (fun t b ht => acceptRecord_orderly ht _) _ h
  generalize s.batch.list.foldl (fun s b => acceptRecord b s) s = t at h1 ⊢
  have h2 : Orderly { t with queue := t.batch.list.filterMap (entryOf t) } :=
    ⟨h1.1, h1.2, h1.3, h1.4, h1.5, h1.6, h1.7, h1.records.sublist (filterMap_no_sublist (fun _ _ => entryOf_no) _), h1.9, h1.10, h1.11, h1.12, h1.13,
     h1.14, h1.15, h1.16⟩
  have h3 := foldl_orderly (f := reportAtCheck) (fun u b hu => reportAtCheck_orderly hu b) t.batch.list h2
  generalize List.foldl reportAtCheck _ _ = u at h3 ⊢
  repeat' split
  all_goals simp (maxDischargeDepth := 9) [h3]
theorem continueCheck_orderly {s t : State} (h : Orderly s) (ht : continueCheck s = some t) : Orderly t := by
  simp only [continueCheck] at ht
  repeat' split at ht
  all_goals first
    | (cases ht; done)
    | (cases ht; simp (maxDischargeDepth := 9) [h]; done)
@[simp] theorem respond_orderly {s : State} (h : Orderly s) (a b c) : Orderly (respond a b c s) := by simp (maxDischargeDepth := 9) [respond, h]
@[simp] theorem undoBatch_orderly {s : State} (h : Orderly s) : Orderly (undoBatch s) := by
  have hw := withdrawReqs_orderly h (fun r => match r with | .fetchRec _ | .fetchMasks | .fetchProf _ => true | _ => false)
  have g := hw.table.undo
  exact returnTouched_orderly
    ⟨g.1, g.2, g.3, g.4, hw.5, g.5, hw.7, hw.8, hw.9, hw.10, hw.11, hw.12, hw.13, hw.14, hw.15, hw.16⟩
@[simp] theorem reportCancelled_orderly {s : State} (h : Orderly s) : Orderly (reportCancelled s) := by
  simp only [reportCancelled]; split
  · simp (maxDischargeDepth := 9) [h]
  · exact foldl_orderly (fun t b ht => writeOutcome_orderly ht _ _) _ (by simp (maxDischargeDepth := 9) [h])
@[simp] theorem cancelEarly_orderly {s : State} (h : Orderly s) : Orderly (cancelEarly s) := by simp (maxDischargeDepth := 9) [cancelEarly, h]
@[simp] theorem takeCommit_orderly {s : State} (h : Orderly s) (q) : Orderly (takeCommit q s) := by
  simp only [takeCommit]; repeat' split
  all_goals simp (maxDischargeDepth := 9) [h]
@[simp] theorem takeCancel_orderly {s : State} (h : Orderly s) (q) : Orderly (takeCancel q s) := by
  simp only [takeCancel]; repeat' split
  all_goals simp (maxDischargeDepth := 9) [h]
@[simp] theorem takeHold_orderly {s : State} (h : Orderly s) (q) : Orderly (takeHold q s) := by
  simp only [takeHold]; repeat' split
  all_goals simp (maxDischargeDepth := 9) [h]
@[simp] theorem takeRelease_orderly {s : State} (h : Orderly s) (q) : Orderly (takeRelease q s) := by
  simp only [takeRelease]; repeat' split
  all_goals simp (maxDischargeDepth := 9) [h]
@[simp] theorem takeResume_orderly {s : State} (h : Orderly s) (q) : Orderly (takeResume q s) := by
  simp only [takeResume]; repeat' split
  all_goals simp (maxDischargeDepth := 9) [h]
@[simp] theorem handCommand_orderly {s : State} (h : Orderly s) (w) : Orderly (handCommand w s) := by
  simp only [handCommand]; repeat' split
  all_goals simp (maxDischargeDepth := 9) [h]
@[simp] theorem batchEnded_orderly {s : State} (h : Orderly s) (b) : Orderly (batchEnded b s) := by
  have hl := h.listed (l := []) .nil h.phase false false s.batch.seq s.batch.refuse s.batch.stop s.batch.counters false false .none .none .none false
  have hq : Orderly { s with
      batch := { s.batch with present := false, ending := false, list := [], abandon := false, stopPending := false,
                              work := .none, lastFetched := none, recovery := none, lossStop := false }
      queue := [] } :=
    ⟨hl.1, hl.2, hl.3, hl.4, hl.5, hl.6, hl.7, .nil, hl.9, hl.10, hl.11, hl.12, hl.13, hl.14, hl.15, hl.16⟩
  simp only [batchEnded]; repeat' split
  all_goals simp (maxDischargeDepth := 9) [hq]

/-! ### The Interruption Unit -/

/-- The depth replaced by one of at most 4. -/
theorem Orderly.deep {s : State} (h : Orderly s) {n : Nat} (hn : n ≤ 4) (w i hd im) :
    Orderly { s with intr := { depth := n, work := w, item := i, header := hd, images := im } } :=
  ⟨h.1, h.2, h.3, h.4, h.5, h.6, h.7, h.8, h.9, h.10, h.11, h.12, h.13, hn, h.15, h.16⟩

@[simp] theorem stopBatchEngine_orderly {s : State} (h : Orderly s) (e) : Orderly (stopBatchEngine s e) := by
  simp only [stopBatchEngine]; repeat' split
  all_goals simp (maxDischargeDepth := 9) [h]
@[simp] theorem suspendBatch_orderly {s : State} (h : Orderly s) : Orderly (suspendBatch s) := by
  simp only [suspendBatch]
  exact (orderly_ramp _ _ _ _).2 (foldl_orderly (fun t e ht => stopBatchEngine_orderly ht e) _ (by simp (maxDischargeDepth := 9) [h]))
theorem stopBatchEngine_intr (s : State) (e) : (stopBatchEngine s e).intr = s.intr := by
  simp only [stopBatchEngine, stopEngine, freeEngine]; repeat' split
  all_goals rfl
theorem suspendBatch_intr (s : State) : (suspendBatch s).intr = s.intr := by
  have hf : ∀ (l : List EngineNo) (t : State), (l.foldl stopBatchEngine t).intr = t.intr := by
    intro l
    induction l with
    | nil => exact fun _ => rfl
    | cons e l ih => exact fun t => (ih _).trans (stopBatchEngine_intr t e)
  simp only [suspendBatch, hf, withdrawCmds, enterState, writeBatchState, requestStatus]; split <;> rfl
theorem suspendIdle_intr (s : State) : (suspendIdle s).intr = s.intr := by
  simp only [suspendIdle, writeBatchState, requestStatus]; split <;> rfl
@[simp] theorem suspendIdle_orderly {s : State} (h : Orderly s) : Orderly (suspendIdle s) := by simp (maxDischargeDepth := 9) [suspendIdle, h]
@[simp] theorem requestSlot_orderly {s : State} (h : Orderly s) (k ws) {last : List Word → PortReq} (hl : ∀ b d, last b = .popHeader d → d ≤ 3) :
    Orderly (requestSlot k ws last s) := by
  simp only [requestSlot]
  exact request_orderly (by simp (maxDischargeDepth := 9) [h]) (hl _)
@[simp] theorem mergeCapture_orderly {s : State} (h : Orderly s) (c) : Orderly (mergeCapture c s) := by
  simp only [mergeCapture]
  exact requestSlot_orderly (by simp (maxDischargeDepth := 9) [h]) _ _ (by simp)
@[simp] theorem takeCapture_orderly {s : State} (h : Orderly s) (c) : Orderly (takeCapture c s) := by
  have hs : Orderly { s with batch := { s.batch with lossStop := false } } := by simp (maxDischargeDepth := 9) [h]
  simp only [takeCapture]
  split
  · simp (maxDischargeDepth := 9) [h]
  · next hd =>
    have key : ∀ t : State, Orderly t → t.intr = s.intr → ∀ i, Orderly { t with intr := { t.intr with depth := t.intr.depth + 1, item := i } } := by
      intro t ht he i
      exact ht.deep (by rw [he]; omega) _ _ _ _
    refine key _ ?_ ?_ _
    · split <;> simp (maxDischargeDepth := 9) [hs]
    · split
      iterate 4 (next => exact suspendBatch_intr _)
      · exact suspendIdle_intr _
      · rfl
theorem buildCapture_orderly {s t : State} (h : Orderly s) (ht : buildCapture s = some t) : Orderly t := by
  simp only [buildCapture] at ht
  repeat' split at ht
  all_goals first
    | (cases ht; done)
    | (cases ht; exact request_orderly (requestSlot_orderly (by simp (maxDischargeDepth := 9) [h]) _ _ (by simp)) (by simp))
@[simp] theorem setPowerdown_orderly {s : State} (h : Orderly s) : Orderly (setPowerdown s) :=
  ⟨h.1, h.2, h.3, h.4, h.5, h.6, h.7, h.8, h.9, h.10, h.11, h.12, h.13, h.14, h.15, h.16⟩
@[simp] theorem captureWritten_orderly {s : State} (h : Orderly s) : Orderly (captureWritten s) := by
  simp only [captureWritten]; repeat' split
  all_goals simp (maxDischargeDepth := 9) [h]
@[simp] theorem pfwAsserted_orderly {s : State} (h : Orderly s) : Orderly (pfwAsserted s) := by
  simp only [pfwAsserted]; repeat' split
  all_goals simp (maxDischargeDepth := 9) [h]
@[simp] theorem runDeferred_orderly {s : State} (h : Orderly s) (d) : Orderly (runDeferred s d) := by
  unfold runDeferred; split <;> simp (maxDischargeDepth := 9) [h]

@[simp] theorem pfwDeasserted_orderly {s : State} (h : Orderly s) : Orderly (pfwDeasserted s) := by
  have hport : ∀ q b u, Orderly { s with
      seqr := q
      start := { s.start with pfw := { s.start.pfw with pin := false, level := some false, run := 0 }, powerdown := false, deferred := [] }
      holds := { s.holds with wb := b }
      port := s.port.map (fun r => match r with | .monitor _ => .monitor u | r => r) } := fun q b u =>
    ⟨h.1, h.2, h.3, h.4, h.5, h.6, h.7, h.8, h.9, h.10, h.11, h.12, h.13, h.14, fun d hd => by
      obtain ⟨r, hr, he⟩ := List.mem_map.1 hd
      split at he
      · cases he
      · exact h.pops d (he ▸ hr), h.16⟩
  simp only [pfwDeasserted]
  split
  · simp (maxDischargeDepth := 9) [h]
  · refine foldl_orderly (fun t d ht => actOnLatched_orderly ht d) _ (foldl_orderly (fun t d ht => runDeferred_orderly ht d) _ ?_)
    split
    · exact writeBatchState_orderly (hport _ _ _) _
    · exact hport _ _ _
@[simp] theorem takeResumeItem_orderly {s : State} (h : Orderly s) : Orderly (takeResumeItem s) := by
  simp only [takeResumeItem]; split <;> simp (maxDischargeDepth := 9) [h]
@[simp] theorem requestPop_orderly {s : State} (h : Orderly s) (a b) : Orderly (requestPop a b s) := by
  simp only [requestPop]
  refine request_orderly (request_orderly (by simp (maxDischargeDepth := 9) [h]) (by simp)) ?_
  rintro d hd
  cases hd
  have := h.depth
  omega
@[simp] theorem resumeWordRead_orderly {s : State} (h : Orderly s) (k) : Orderly (resumeWordRead k s) := by
  simp only [resumeWordRead]; repeat' split
  all_goals simp (maxDischargeDepth := 9) [h]
theorem refreshEnded_orderly {s t : State} (h : Orderly s) (ht : refreshEnded s = some t) : Orderly t := by
  simp only [refreshEnded] at ht
  repeat' split at ht
  all_goals first
    | (cases ht; done)
    | (cases ht; simp (maxDischargeDepth := 9) [h]; done)
@[simp] theorem reverse_orderly {s : State} (h : Orderly s) (r c) : Orderly (reverse r c s) := by simp (maxDischargeDepth := 9) [reverse, h]
@[simp] theorem abandonAtOnce_orderly {s : State} (h : Orderly s) (r) : Orderly (abandonAtOnce r s) := by simp (maxDischargeDepth := 9) [abandonAtOnce, h]
@[simp] theorem squelchedAsIs_orderly {s : State} (h : Orderly s) (pid) : Orderly (updatePath pid squelchedAsIs s) :=
  updatePath_orderly h _ fun _ => ⟨rfl, .inl rfl⟩
@[simp] theorem dropPending_orderly {s : State} (h : Orderly s) (pid) : Orderly (updatePath pid (fun q => { q with pend := none }) s) :=
  updatePath_orderly h _ fun _ => ⟨rfl, .inl rfl⟩
@[simp] theorem stay_orderly {s : State} (h : Orderly s) (pid) :
    Orderly { s with table := (s.table.voidOn pid).update pid (fun q => { q with leaving := false }) } :=
  h.setTable ((h.table.voidOn _).updateMild _ fun _ => ⟨rfl, .inl rfl⟩)
@[simp] theorem abandonEntry_orderly {s : State} (h : Orderly s) (e) : Orderly (abandonEntry e s) := by
  simp only [abandonEntry]; repeat' split
  all_goals simp (maxDischargeDepth := 9) [h]
@[simp] theorem retryEntry_orderly {s : State} (h : Orderly s) (e) : Orderly (retryEntry e s) := by
  simp only [retryEntry]; split <;> simp (maxDischargeDepth := 9) [h]
theorem eachInProgress_orderly {s : State} (h : Orderly s) {f : Entry → State → State} (hf : ∀ e t, Orderly t → Orderly (f e t)) :
    Orderly (eachInProgress f s) := by
  unfold eachInProgress
  refine foldl_orderly (fun t r ht => ?_) _ h
  repeat' split
  all_goals first
    | exact ht
    | exact hf _ _ ht
@[simp] theorem returnState_orderly {s : State} (h : Orderly s) (w b) : Orderly (returnState w b s) := by
  simp only [returnState]; repeat' split
  all_goals simp (maxDischargeDepth := 9) [h]
@[simp] theorem applyAction_orderly {s : State} (h : Orderly s) (w a b) : Orderly (applyAction w a b s) := by
  simp only [applyAction]
  split
  · exact eachInProgress_orderly (by simp (maxDischargeDepth := 9) [h]) fun e t ht => issueStep_orderly ht _ _
  · split
    · exact eachInProgress_orderly (by simp (maxDischargeDepth := 9) [h]) fun e t ht => abandonEntry_orderly ht _
    · exact eachInProgress_orderly (by simp (maxDischargeDepth := 9) [h]) fun e t ht => retryEntry_orderly ht _
    · exact eachInProgress_orderly (by simp (maxDischargeDepth := 9) [h]) fun e t ht => issueStep_orderly ht _ _
@[simp] theorem returnIdle_orderly {s : State} (h : Orderly s) : Orderly (returnIdle s) := by
  simp only [returnIdle]; split <;> simp (maxDischargeDepth := 9) [h]
@[simp] theorem popRebuilt_orderly {s : State} (h : Orderly s) (w a b) : Orderly (popRebuilt w a b s) := by
  simp only [popRebuilt]; split <;> simp (maxDischargeDepth := 9) [h]
@[simp] theorem leaveSuspension_orderly {s : State} (h : Orderly s) (w a b) : Orderly (leaveSuspension w a b s) := by
  simp only [leaveSuspension]; repeat' split
  all_goals simp (maxDischargeDepth := 9) [h]
@[simp] theorem popped_orderly {s : State} (h : Orderly s) {d} (hd : d ≤ 3) : Orderly (popped d s) := by
  have hq := h.deep (n := d) (by omega)
  unfold popped
  split
  · simp only []
    split
    · exact leaveSuspension_orderly ((orderly_light _ _ _ _ _ _ _ _).2 (hq _ _ _ _)) _ _ _
    · exact hq _ _ _ _
  · exact h

/-! ### The Start-up Controller -/

@[simp] theorem requestAnchor_orderly {s : State} (h : Orderly s) (w) : Orderly (requestAnchor w s) := by simp (maxDischargeDepth := 9) [requestAnchor, h]
theorem readAnchor_orderly {s : State} (h : Orderly s) : Orderly (readAnchor s).1 := by simp (maxDischargeDepth := 9) [readAnchor, h]
@[simp] theorem writeStatusWords_orderly {s : State} (h : Orderly s) : Orderly (writeStatusWords s) := by simp (maxDischargeDepth := 9) [writeStatusWords, h]
@[simp] theorem resetScrub_orderly {s : State} (h : Orderly s) : Orderly (resetScrub s) := by simp (maxDischargeDepth := 9) [resetScrub, h]
@[simp] theorem adoptCfg_orderly {s : State} (h : Orderly s) (c) : Orderly (adoptCfg c s) := by
  simp only [adoptCfg]; split <;> simp (maxDischargeDepth := 9) [h]
@[simp] theorem install_orderly {s : State} (h : Orderly s) (c) : Orderly (install c s) := by simp (maxDischargeDepth := 9) [install, h]
@[simp] theorem startAnchorRead_orderly {s : State} (h : Orderly s) : Orderly (startAnchorRead s) := by
  simp only [startAnchorRead]; split <;> simp (maxDischargeDepth := 9) [h]
@[simp] theorem anchorWritten_orderly {s : State} (h : Orderly s) : Orderly (anchorWritten s) := by
  simp only [anchorWritten]; split <;> simp (maxDischargeDepth := 9) [h]
@[simp] theorem enterUnconfigured_orderly {s : State} (h : Orderly s) : Orderly (enterUnconfigured s) := by
  have hs : ∀ u, Orderly u → ∀ w q g, Orderly (setEnables 0 { u with
      win := w, seqr := q, start := { u.start with stage := g }, light := { u.light with restoreList := [] } }) := by
    intro u hu w q g
    refine setEnables_orderly ?_ _
    exact ⟨hu.1, hu.2, hu.3, hu.4, hu.5, hu.6, hu.7, hu.8, hu.9, hu.restores.sublist (List.sublist_append_right _ _), hu.11, hu.12,
      hu.13, hu.14, hu.15, hu.16⟩
  simp only [enterUnconfigured]
  exact ite_orderly (startAnchorRead_orderly (hs _ (withdrawReqs_orderly h _) _ _ _)) (hs _ (withdrawReqs_orderly h _) _ _ _)
@[simp] theorem rebuildAnchor_orderly {s : State} (h : Orderly s) : Orderly (rebuildAnchor s) := by
  have hr := readAnchor_orderly h
  simp only [rebuildAnchor]
  split
  · next e => rw [e] at hr; simp (maxDischargeDepth := 9) [hr]
  · next e => rw [e] at hr; simp (maxDischargeDepth := 9) [hr]
@[simp] theorem unconfiguredAnchor_orderly {s : State} (h : Orderly s) : Orderly (unconfiguredAnchor s) := by
  have hr := readAnchor_orderly h
  simp only [unconfiguredAnchor]; repeat' split
  all_goals simp (maxDischargeDepth := 9) [hr]
@[simp] theorem rebuildProfile_orderly {s : State} (h : Orderly s) (k) : Orderly (rebuildProfile k s) := by
  have hc := cacheProfile_orderly h .rebuild k
  simp only [rebuildProfile]; split
  · simp (maxDischargeDepth := 9) [hc]
  · refine request_orderly ?_ (by simp)
    exact ⟨hc.1, hc.2, hc.3, .nil, hc.5, hc.6, hc.7, hc.8, hc.9, hc.10, hc.11, hc.12, hc.13, hc.14, hc.15, hc.16⟩
/-- The slots counted replaced by at most 4. -/
theorem Orderly.scanning {s : State} (h : Orderly s) {v : SaveScan} (hv : v.slots.length ≤ 4) (ir sg dn pin y rp ew ar rb nh d fin) :
    Orderly { s with start := { inReset := ir, stage := sg, powerdown := dn, pfw := pin, yields := y, save := v, readPart := rp, endWord := ew, anchorSeen := ar
                                readback := rb, newHalves := nh, discrepancies := d, deferred := fin } } :=
  ⟨h.1, h.2, h.3, h.4, h.5, h.6, h.7, h.8, h.9, h.10, h.11, h.12, h.13, h.14, h.15, hv⟩
@[simp] theorem rebuildActive_orderly {s : State} (h : Orderly s) (r) : Orderly (rebuildActive r s) := by
  simp only [rebuildActive]
  split
  · exact h
  · next m _ =>
    have hs := readBurst_orderly h .rebuild (pageAddr m.active (offRecord r)) 4
    generalize readBurst .rebuild (pageAddr m.active (offRecord r)) 4 s = x at hs ⊢
    have key : ∀ t, Orderly t → Orderly (if r.val < 255 then request (.rbActive (r + 1)) t
        else request .rbHeader { t with start := { t.start with stage := .save, save := { header := none, limit := 0, slots := [], ended := false } } }) := by
      intro t ht
      split
      · simp (maxDischargeDepth := 9) [ht]
      · exact request_orderly (ht.scanning (Nat.zero_le _) _ _ _ _ _ _ _ _ _ _ _ _) (by simp)
    refine key _ ?_
    split <;> simp (maxDischargeDepth := 9) [hs]
@[simp] theorem startReadback_orderly {s : State} (h : Orderly s) : Orderly (startReadback s) := by
  simp only [startReadback]
  exact foldl_orderly (fun t o ht => handOrdinary_getD_orderly ht _) _ (by simp (maxDischargeDepth := 9) [h])
@[simp] theorem nextTail_orderly {s : State} (h : Orderly s) (k) : Orderly (nextTail k s) := by
  simp only [nextTail]; split <;> simp (maxDischargeDepth := 9) [h]
@[simp] theorem requestSlotRead_orderly {s : State} (h : Orderly s) (k) : Orderly (requestSlotRead k s) := by simp (maxDischargeDepth := 9) [requestSlotRead, h]
@[simp] theorem saveCounted_orderly {s : State} (h : Orderly s) : Orderly (saveCounted s) := by
  simp only [saveCounted]
  refine nextTail_orderly ?_ _
  have hf : ∀ (im : List (List Word)), Orderly ((List.range s.start.save.slots.length).foldl
      (fun s i => request (.slotWord0 (i + 1) ((im.getD i []).headD 0)) s)
      { s with intr := { s.intr with depth := s.start.save.slots.length, header := s.start.save.slots.length, images := im } }) := fun im =>
    foldl_orderly (fun t i ht => request_orderly ht (by simp)) _ (h.deep h.slots _ _ _ _)
  split
  · exact hf _
  · exact request_orderly (hf _) (by simp)
@[simp] theorem rebuildHeader_orderly {s : State} (h : Orderly s) : Orderly (rebuildHeader s) := by
  simp only [rebuildHeader]
  split
  · exact h
  · next m _ =>
    have hs := readWord_orderly h .rebuild (pageAddr m.save offHeader)
    generalize readWord .rebuild (pageAddr m.save offHeader) s = x at hs ⊢
    split
    · exact saveCounted_orderly (hs.scanning (Nat.zero_le _) _ _ _ _ _ _ _ _ _ _ _ _)
    · exact requestSlotRead_orderly (hs.scanning (Nat.zero_le _) _ _ _ _ _ _ _ _ _ _ _ _) _
@[simp] theorem rebuildSlot_orderly {s : State} (h : Orderly s) (k) : Orderly (rebuildSlot k s) := by
  simp only [rebuildSlot]
  split
  · exact h
  · next m _ =>
    have hs := readBurst_orderly h .rebuild (pageAddr m.save (offSlot k + 48)) 4
    generalize readBurst .rebuild (pageAddr m.save (offSlot k + 48)) 4 s = x at hs ⊢
    have key : ∀ v : SaveScan, v.slots.length ≤ 4 → ∀ r n, Orderly (if k < n then requestSlotRead (k + 1) { x.1 with start := { x.1.start with save := v, readPart := r } }
        else saveCounted { x.1 with start := { x.1.start with save := v, readPart := r } }) := by
      intro v hv r n
      split
      · exact requestSlotRead_orderly (hs.scanning hv _ _ _ _ _ _ _ _ _ _ _ _) _
      · exact saveCounted_orderly (hs.scanning hv _ _ _ _ _ _ _ _ _ _ _ _)
    have hv : ∀ (c : Prop) [Decidable c] (w : List Word), (if c then { x.1.start.save with ended := true }
        else { x.1.start.save with slots := (x.1.start.save.slots ++ [w]).take 4 } : SaveScan).slots.length ≤ 4 := by
      intro c _ w
      split
      · exact hs.slots
      · exact List.length_take_le _ _
    exact key _ (hv _ _) _ _
@[simp] theorem rebuildTail_orderly {s : State} (h : Orderly s) (k) : Orderly (rebuildTail k s) := by
  simp only [rebuildTail]
  split
  · exact h
  · refine nextTail_orderly ?_ _
    split <;> simp (maxDischargeDepth := 9) [h]
@[simp] theorem countDiscrepancy_orderly {s : State} (h : Orderly s) : Orderly (countDiscrepancy s) := by simp (maxDischargeDepth := 9) [countDiscrepancy, h]
theorem presentClaim_orderly {s : State} (h : Orderly s) (r) {p : Path} (hp : p.engine = none) (c) : Orderly (presentClaim r p c s) := by
  simp only [presentClaim]
  split
  · next t ht =>
    have ht' := h.setTable (h.table.claim hp ht)
    split <;> simp (maxDischargeDepth := 9) [ht']
  · simp (maxDischargeDepth := 9) [h]
theorem activeClaim_engine (s : State) (y) : (activeClaim s y).engine = none := by
  simp only [activeClaim]; repeat' split
  all_goals rfl
@[simp] theorem adoptActive_orderly {s : State} (h : Orderly s) (y) : Orderly (adoptActive s y) := by
  simp only [adoptActive]
  split
  · split
    · simp (maxDischargeDepth := 9) [h]
    · refine presentClaim_orderly h _ ?_ _
      split <;> exact activeClaim_engine s y
  · exact presentClaim_orderly h _ (activeClaim_engine s y) _
@[simp] theorem adoptForeign_orderly {s : State} (h : Orderly s) (o n) : Orderly (adoptForeign o s n) := by
  simp only [adoptForeign]
  split
  · exact h
  · split
    · exact h
    · split
      · exact h
      · split
        · next ht => exact countDiscrepancy_orderly (h.setTable (h.table.claim rfl ht))
        · simp (maxDischargeDepth := 9) [h]
@[simp] theorem finishAdoption_orderly {s : State} (h : Orderly s) : Orderly (finishAdoption s) := by
  have h1 : Orderly (OutPoint.all.foldl (fun s o => allSlots.foldl (adoptForeign o) s) s) :=
    foldl_orderly (fun t o ht => foldl_orderly (fun u n hu => adoptForeign_orderly hu o n) _ ht) _ h
  have h2 : ∀ g, Orderly (allRecords.foldl (fun s r => activeDue r s) { (OutPoint.all.foldl (fun s o => allSlots.foldl (adoptForeign o) s) s) with
      start := { (OutPoint.all.foldl (fun s o => allSlots.foldl (adoptForeign o) s) s).start with stage := g } }) := fun g =>
    foldl_orderly (fun t r ht => activeDue_orderly ht r) _ (by simp (maxDischargeDepth := 9) [h1])
  simp only [finishAdoption]
  refine request_orderly (request_orderly ?_ (by simp)) (by simp)
  split <;> simp (maxDischargeDepth := 9) [h2]
@[simp] theorem nextNewHalf_orderly {s : State} (h : Orderly s) : Orderly (nextNewHalf s) := by
  simp only [nextNewHalf]; repeat' split
  all_goals simp (maxDischargeDepth := 9) [h]
@[simp] theorem startAdoption_orderly {s : State} (h : Orderly s) : Orderly (startAdoption s) := by
  simp only [startAdoption]
  refine nextNewHalf_orderly ?_
  have h0 : Orderly { s with table := { s.table with paths := [], occ := [] }, start := { s.start with stage := .adopt } } :=
    ⟨.nil, by simp, .nil, h.4, h.5, by simp, h.7, h.8, h.9, h.10, h.11, h.12, h.13, h.14, h.15, h.16⟩
  have h1 := foldl_orderly (f := adoptActive) (fun t y ht => adoptActive_orderly ht y) s.start.yields h0
  have h2 := fun l => foldl_orderly (f := fun (s : State) (i : InFlight) => setCompleted i.no .empty s) (fun t i ht => setCompleted_orderly ht _ _) l h1
  simp (maxDischargeDepth := 9) [h2]
@[simp] theorem newHalfRead_orderly {s : State} (h : Orderly s) (i) : Orderly (newHalfRead i s) := by
  simp only [newHalfRead]
  split
  · exact h
  · next m _ =>
    have hs := readBurst_orderly h .rebuild (pageAddr m.staging (offRecord i.no)) 3
    generalize readBurst .rebuild (pageAddr m.staging (offRecord i.no)) 3 s = x at hs ⊢
    split
    · split
      · simp (maxDischargeDepth := 9) [hs]
      · refine nextNewHalf_orderly (presentClaim_orderly hs _ ?_ _)
        split <;> rfl
    · simp (maxDischargeDepth := 9) [hs]
@[simp] theorem endBatchWord_orderly {s : State} (h : Orderly s) : Orderly (endBatchWord s) := by
  simp only [endBatchWord]; repeat' split
  all_goals simp (maxDischargeDepth := 9) [h]
@[simp] theorem rebuildEnds_orderly {s : State} (h : Orderly s) : Orderly (rebuildEnds s) := by
  simp only [rebuildEnds]
  refine foldl_orderly (fun t o ht => requestCapture_orderly ht _) _ (foldl_orderly (fun t d ht => ?_) _ (by simp (maxDischargeDepth := 9) [h]))
  split <;> simp (maxDischargeDepth := 9) [ht]
@[simp] theorem comparisonRead_orderly {s : State} (h : Orderly s) (r) : Orderly (comparisonRead r s) := by
  simp only [comparisonRead]
  split
  · exact h
  · next m _ =>
    have hs := readBurst_orderly h .rebuild (pageAddr m.staging (offRecord r)) 3
    generalize readBurst .rebuild (pageAddr m.staging (offRecord r)) 3 s = x at hs ⊢
    have key : ∀ t, Orderly t → Orderly (if r.val < 255 then request (.compare (r + 1)) t
        else if t.seqr.reread = .compare then { t with seqr := { t.seqr with reread := .none } } else rebuildEnds t) := by
      intro t ht
      repeat' split
      all_goals simp (maxDischargeDepth := 9) [ht]
    refine key _ ?_
    split <;> simp (maxDischargeDepth := 9) [hs]
@[simp] theorem takeReread_orderly {s : State} (h : Orderly s) : Orderly (takeReread s) := by simp (maxDischargeDepth := 9) [takeReread, h]
@[simp] theorem fillChange_orderly {s : State} (h : Orderly s) (o n d) : Orderly (fillChange o n s d) := by
  simp only [fillChange]; repeat' split
  all_goals simp (maxDischargeDepth := 9) [h]
@[simp] theorem refix_orderly {s : State} (h : Orderly s) (r) : Orderly (refix s r) := by
  simp only [refix]; repeat' split
  all_goals simp (maxDischargeDepth := 9) [h]
@[simp] theorem applyReread_orderly {s : State} (h : Orderly s) (c) : Orderly (applyReread c s) := by
  have h1 : Orderly (match s.win.cfg with | some o => Degree.all.foldl (fillChange o c) (adoptCfg c s) | none => adoptCfg c s) := by
    split
    · exact foldl_orderly (fun t d ht => fillChange_orderly ht _ _ d) _ (by simp (maxDischargeDepth := 9) [h])
    · simp (maxDischargeDepth := 9) [h]
  have h2 := writeStatusWords_orderly (foldl_orderly (f := refix) (fun t r ht => refix_orderly ht r) allRecords h1)
  have h3 : ∀ t, Orderly t → Orderly ([1, 2, 3, 4].foldl (fun s k => requestSlot k (List.replicate 16 0) (fun b => .slotBurst k 3 b) s) t) :=
    fun t ht => foldl_orderly (fun u k hu => requestSlot_orderly hu _ _ (by simp)) _ ht
  have key : ∀ t, Orderly t → Orderly { t with touched := [], seqr := { t.seqr with reread := .compare } } := fun t ht =>
    ⟨ht.1, ht.2, ht.3, ht.4, ht.5, ht.6, ht.7, ht.8, .nil, ht.10, ht.11, ht.12, ht.13, ht.14, ht.15, ht.16⟩
  simp only [applyReread]
  refine request_orderly (key _ (ite_orderly (request_orderly ((orderly_intr _ _ _ _ _).2 (h3 _ ?_)) (by simp)) ?_)) (by simp)
  all_goals exact ite_orderly (requestStatus_orderly (requestStatus_orderly (request_orderly h2 (by simp)) (by simp)) (by simp)) h2
@[simp] theorem rereadAnchor_orderly {s : State} (h : Orderly s) : Orderly (rereadAnchor s) := by
  have hr := readAnchor_orderly h
  simp only [rereadAnchor]
  split
  · next e => rw [e] at hr; simp (maxDischargeDepth := 9) [hr]
  · next e => rw [e] at hr; exact enterUnconfigured_orderly (hr.touching .nil)

/-! ### The ends of transactions and the scrubber -/

@[simp] theorem takeReadback_orderly {s : State} (h : Orderly s) (o x) : Orderly (takeReadback o x s) := by
  simp only [takeReadback]; split <;> simp (maxDischargeDepth := 9) [h]
@[simp] theorem transactionFails_orderly {s : State} (h : Orderly s) (t) : Orderly (transactionFails t s) := by
  have h0 : Orderly { s with act := { s.act with
      txn := none, mods := s.act.mods.set t.cmd.module .faulted, ordinary := s.act.ordinary.filter (fun c => c.module ≠ t.cmd.module)
      wait := s.act.wait.filter (fun c => c.module ≠ t.cmd.module), urgent := s.act.urgent.filter (fun c => c.module ≠ t.cmd.module) } } :=
    h.ordinary ((List.length_filter_le _ _).trans h.places) _ _ _ _ _
  have h1 := fun l => foldl_orderly (f := fun (s : State) (c : ActCmd) => commandFailed c s) (fun t c ht => commandFailed_orderly ht c) l
    (commandFailed_orderly h0 t.cmd)
  simp only [transactionFails]
  refine ite_orderly (takeReadback_orderly ?_ _ _) ?_
  all_goals refine ite_orderly (nextRefresh_orderly ?_) ?_
  all_goals refine ite_orderly (requestCapture_orderly ?_ _) ?_
  all_goals exact ite_orderly (requestStatus_orderly (h1 _) (by simp)) (h1 _)
@[simp] theorem attemptMissed_orderly {s : State} (h : Orderly s) : Orderly (attemptMissed s) := by
  simp only [attemptMissed]; repeat' split
  all_goals simp (maxDischargeDepth := 9) [h]
@[simp] theorem replyExpires_orderly {s : State} (h : Orderly s) : Orderly (replyExpires s) := by
  simp only [replyExpires]; repeat' split
  all_goals simp (maxDischargeDepth := 9) [h]
@[simp] theorem ackAccepted_orderly {s : State} (h : Orderly s) (t) : Orderly (ackAccepted t s) := by
  simp only [ackAccepted]; repeat' split
  all_goals simp (maxDischargeDepth := 9) [h]
@[simp] theorem ackArrives_orderly {s : State} (h : Orderly s) (k r) : Orderly (ackArrives k r s) := by
  simp only [ackArrives]; repeat' split
  all_goals simp (maxDischargeDepth := 9) [h]
@[simp] theorem dataArrives_orderly {s : State} (h : Orderly s) (r l) : Orderly (dataArrives r l s) := by
  simp only [dataArrives]; repeat' split
  all_goals simp (maxDischargeDepth := 9) [h]
@[simp] theorem nakArrives_orderly {s : State} (h : Orderly s) (r) : Orderly (nakArrives r s) := by
  simp only [nakArrives]; split <;> simp (maxDischargeDepth := 9) [h]
@[simp] theorem pacingExpires_orderly {s : State} (h : Orderly s) : Orderly (pacingExpires s) := by
  simp only [pacingExpires]; repeat' split
  all_goals simp (maxDischargeDepth := 9) [h]
@[simp] theorem scrubDone_orderly {s : State} (h : Orderly s) (a) : Orderly (scrubDone a s) := by
  simp only [scrubDone]; repeat' split
  all_goals simp (maxDischargeDepth := 9) [h]

/-! ### The bus -/

@[simp] theorem writeMemory_orderly {s : State} (h : Orderly s) (b) : Orderly (writeMemory b s).1 := by
  simp only [writeMemory]; repeat' split
  all_goals simp (maxDischargeDepth := 9) [h]
@[simp] theorem sideEffect_orderly {s : State} (h : Orderly s) (b) : Orderly (sideEffect b s) := by
  simp only [sideEffect]; repeat' split
  all_goals simp (maxDischargeDepth := 9) [h]
@[simp] theorem acknowledgeCauses_orderly {s : State} (h : Orderly s) (a) : Orderly (acknowledgeCauses a s) := by
  simp only [acknowledgeCauses]; repeat' split
  all_goals simp (maxDischargeDepth := 9) [h]
@[simp] theorem rewriteAttention_orderly {s : State} (h : Orderly s) (b) : Orderly (rewriteAttention b s) := by simp (maxDischargeDepth := 9) [rewriteAttention, h]
@[simp] theorem endBeat_orderly {s : State} (h : Orderly s) (b w f) : Orderly (endBeat b w f s) := by simp (maxDischargeDepth := 9) [endBeat, h]
@[simp] theorem carryWrite_orderly {s : State} (h : Orderly s) (b) : Orderly (carryWrite b s) := by
  simp only [carryWrite]; repeat' split
  all_goals simp (maxDischargeDepth := 9) [h]
@[simp] theorem carryRead_orderly {s : State} (h : Orderly s) (b) : Orderly (carryRead b s) := by simp (maxDischargeDepth := 9) [carryRead, h]
@[simp] theorem carryBeat_orderly {s : State} (h : Orderly s) (b) : Orderly (carryBeat b s) := by
  simp only [carryBeat]; split <;> simp (maxDischargeDepth := 9) [h]
@[simp] theorem letBeat_orderly {s : State} (h : Orderly s) (b) : Orderly (letBeat b s) := by
  simp only [letBeat]; split <;> simp (maxDischargeDepth := 9) [h]
@[simp] theorem hostBeat_orderly {s : State} (h : Orderly s) (b) : Orderly (hostBeat b s) := by
  simp only [hostBeat]; split <;> simp (maxDischargeDepth := 9) [h]
theorem releaseBeat_orderly {s t : State} (h : Orderly s) (ht : releaseBeat s = some t) : Orderly t := by
  simp only [releaseBeat] at ht
  repeat' split at ht
  all_goals first
    | (cases ht; done)
    | (cases ht; simp (maxDischargeDepth := 9) [h]; done)
@[simp] theorem releaseBeats_orderly {s : State} (h : Orderly s) (n) : Orderly (releaseBeats n s) := by
  induction n generalizing s with
  | zero => exact h
  | succ n ih =>
    unfold releaseBeats; split
    · next ht => exact ih (releaseBeat_orderly h ht)
    · exact h
@[simp] theorem resetBeat_orderly {s : State} (h : Orderly s) (b) : Orderly (resetBeat b s) := by simp (maxDischargeDepth := 9) [resetBeat, h]

/-! ### What follows by itself, and the shapes of a command -/

theorem settleStep_orderly {s t : State} (h : Orderly s) (ht : settleStep s = some t) : Orderly t := by
  simp only [settleStep, Option.orElse_eq_orElse, Option.orElse_eq_or, Option.or_eq_some_iff] at ht
  rcases ht with ht | ⟨-, ht | ⟨-, ht | ⟨-, ht | ⟨-, ht | ⟨-, ht | ⟨-, ht | ⟨-, ht⟩⟩⟩⟩⟩⟩⟩
  · exact buildCapture_orderly h ht
  · exact releaseBeat_orderly h ht
  · exact placeWaiting_orderly h ht
  · exact grantStep_orderly h ht
  · exact continueCheck_orderly h ht
  · exact pumpBatch_orderly h ht
  · exact refreshEnded_orderly h ht
  · exact beginRestore_orderly h ht
theorem settle_orderly {s : State} (h : Orderly s) (n) : Orderly (settle n s) := by
  induction n generalizing s with
  | zero => exact h
  | succ n ih =>
    unfold settle; split
    · next ht => exact ih (settleStep_orderly h ht)
    · exact h

/-- An event whose effect keeps the order keeps it. -/
theorem event_orderly {f : State → State} (hf : ∀ s, Orderly s → Orderly (f s)) {s t : State} (h : Orderly s) (ht : event s f = .next t) :
    Orderly t := by
  unfold event running at ht
  split at ht
  · cases ht; exact h
  · cases ht; exact settle_orderly (hf _ (fresh_orderly h)) _
/-- A host's beat keeps the order. -/
theorem beatEvent_orderly {b : Beat} {s t : State} (h : Orderly s) (ht : beatEvent s b = .next t) : Orderly t := by
  unfold beatEvent at ht
  split at ht
  · cases ht; exact resetBeat_orderly h b
  · exact event_orderly (fun s hs => hostBeat_orderly hs b) h ht
/-- A completed access keeps the order where what it brings about does, a pop's depth being at most 3. -/
theorem rowEvent_orderly {want} {f : PortReq → State → State} (hf : ∀ r s, Orderly s → (∀ d, r = .popHeader d → d ≤ 3) → Orderly (f r s))
    {s t : State} (h : Orderly s) (ht : rowEvent s want f = .next t) : Orderly t := by
  refine event_orderly (fun s hs => ?_) h ht
  split
  · next hr => exact hf _ _ (takeRow_orderly hs hr).1 (takeRow_orderly hs hr).2
  · exact hs

/-! ### One base tick -/

@[simp] theorem post_orderly {s : State} (h : Orderly s) (c) : Orderly (post c s) := by simp (maxDischargeDepth := 9) [post, h]
@[simp] theorem tickLos_orderly {s : State} (h : Orderly s) (d) : Orderly (tickLos s d) := by
  simp only [tickLos]; repeat' split
  all_goals simp (maxDischargeDepth := 9) [h]
@[simp] theorem tickPfw_orderly {s : State} (h : Orderly s) : Orderly (tickPfw s) := by
  simp only [tickPfw]; repeat' split
  all_goals simp (maxDischargeDepth := 9) [h]
@[simp] theorem tickEngine_orderly {s : State} (h : Orderly s) (b e) : Orderly (tickEngine b s e) := by
  have hb : Orderly (setEngine e { s.engine e with counting := true } s) := setEngine_same_orderly h e rfl fun hg => hg
  have hs : Orderly (setEngine e { s.engine e with count := (s.engine e).count - 1 } s) := setEngine_same_orderly h e rfl fun hg => hg
  simp only [tickEngine]; repeat' split
  all_goals simp (maxDischargeDepth := 9) [h, hs, hb]
@[simp] theorem tickRamp_orderly {s : State} (h : Orderly s) : Orderly (tickRamp s) := by
  simp only [tickRamp]; split
  · simp (maxDischargeDepth := 9) [h]
  · exact foldl_orderly (fun t e ht => tickEngine_orderly ht _ e) _ (by simp (maxDischargeDepth := 9) [h])
@[simp] theorem tickMonitor_orderly {s : State} (h : Orderly s) : Orderly (tickMonitor s) := by
  simp only [tickMonitor]; split <;> simp (maxDischargeDepth := 9) [h]
@[simp] theorem tickActuator_orderly {s : State} (h : Orderly s) : Orderly (tickActuator s) := by
  simp only [tickActuator]; repeat' split
  all_goals simp (maxDischargeDepth := 9) [h]
@[simp] theorem tickScrub_orderly {s : State} (h : Orderly s) : Orderly (tickScrub s) := by
  simp only [tickScrub]; repeat' split
  all_goals simp (maxDischargeDepth := 9) [h]
@[simp] theorem tickHoldOff_orderly {s : State} (h : Orderly s) (d) : Orderly (tickHoldOff s d) := by
  simp only [tickHoldOff]; repeat' split
  all_goals simp (maxDischargeDepth := 9) [h]
@[simp] theorem tickClock_orderly {s : State} (h : Orderly s) : Orderly (tickClock s) := by
  simp only [tickClock]
  have hs : ∀ (c : Prop) [Decidable c] k, Orderly (if c then post .captureTimeAdvance { s with clock := k } else { s with clock := k }) := fun c _ k =>
    ite_orderly (by simp (maxDischargeDepth := 9) [h]) (by simp (maxDischargeDepth := 9) [h])
  exact ite_orderly (foldl_orderly (fun t d ht => tickHoldOff_orderly ht d) _ (hs _ _)) (hs _ _)
@[simp] theorem baseTick_orderly {s : State} (h : Orderly s) : Orderly (baseTick s) := by
  have hl := foldl_orderly (f := tickLos) (fun t d ht => tickLos_orderly ht d) Degree.all h
  simp (maxDischargeDepth := 9) [baseTick, hl]

/-! ### Reset, and the queue's own access -/

@[simp] theorem cutBurst_orderly {s : State} (h : Orderly s) (n) : Orderly (cutBurst n s) := by
  simp only [cutBurst]; repeat' split
  all_goals simp (maxDischargeDepth := 9) [h]
theorem assertReset_orderly {s : State} (h : Orderly s) (n) : Orderly (assertReset n s) := by
  have hb : ∀ (l : List Beat) (t : State), Orderly t → Orderly (l.foldl (fun s b => endBeat b none true s) { t with bus := { t.bus with held := [] } }) :=
    fun l t ht => foldl_orderly (fun u b hu => endBeat_orderly hu b _ _) l (by simp (maxDischargeDepth := 9) [ht])
  have hs := hb (cutBurst n (fresh s)).bus.held _ (cutBurst_orderly (fresh_orderly h) n)
  exact ⟨hs.1, hs.2, hs.3, hs.4, hs.5, hs.6, hs.7, hs.8, hs.9, hs.10, hs.11, hs.12, hs.13, hs.14, by simp [assertReset], hs.16⟩
/-- A record's mark that the batch holds it set or cleared. -/
theorem markHeld_orderly {s : State} (h : Orderly s) (n : RecNo) (x : Bool) :
    Orderly { s with batch := { s.batch with list := s.batch.list.map (fun b => if b.no = n then { b with held := x } else b) } } := by
  refine h.listed ?_ h.phase _ _ _ _ _ _ _ _ _ _ _ _
  rw [List.map_map]
  refine (List.map_congr_left fun b _ => ?_ : _ = s.batch.list.map (·.no)) ▸ h.records
  simp only [Function.comp]; split <;> rfl

end Sys2Proof.Machine
end

