-- ==== Sys2Proof/Laws/Plan.lean ====
section
/-! SUPPORT. What the part's own acts leave alone: `State.plan` (memory, bus, window map, integrity, Power Table, light states, clock, queue). One
lemma for each operation of the batch, the junction, the engines, the links and the Interruption Unit. -/

namespace Sys2Proof.Machine

/-! ### Record updates that do not touch the plan -/

@[simp] theorem plan_core (s : State) (holds port seqr batch touched queue table ramp act intr attn) :
    State.plan { s with holds := holds, port := port, seqr := seqr, batch := batch, touched := touched, queue := queue, table := table,
                        ramp := ramp, act := act, intr := intr, attn := attn } = s.plan := rfl
@[simp] theorem plan_mon (s : State) (send out) :
    State.plan { s with mon := { s.mon with send := send, out := out } } = s.plan := rfl
@[simp] theorem plan_light (s : State) (holds port seqr batch touched queue table ramp act intr attn list begun held) :
    State.plan { s with holds := holds, port := port, seqr := seqr, batch := batch, touched := touched, queue := queue, table := table,
                        ramp := ramp, act := act, intr := intr, attn := attn,
                        light := { s.light with restoreList := list, begun := begun, restoresHeld := held } } = s.plan := rfl
@[simp] theorem plan_start (s : State) (holds port seqr batch touched queue table ramp act intr attn y sv rp ew ar rb nh d df) :
    State.plan { s with holds := holds, port := port, seqr := seqr, batch := batch, touched := touched, queue := queue, table := table,
                        ramp := ramp, act := act, intr := intr, attn := attn,
                        start := { s.start with yields := y, save := sv, readPart := rp, endWord := ew, anchorSeen := ar, readback := rb, newHalves := nh, discrepancies := d, deferred := df } } = s.plan := rfl

@[simp] theorem request_plan (r) (s : State) : (request r s).plan = s.plan := by simp [request]
@[simp] theorem requestStatus_plan (r) (s : State) : (requestStatus r s).plan = s.plan := by
  unfold requestStatus; split <;> simp
@[simp] theorem requestAttention_plan (s : State) : (requestAttention s).plan = s.plan := by
  unfold requestAttention; split <;> simp
@[simp] theorem raiseCause_plan (c) (s : State) : (raiseCause c s).plan = s.plan := by
  unfold raiseCause; split <;> simp
@[simp] theorem setCompleted_plan (r c) (s : State) : (setCompleted r c s).plan = s.plan := by simp [setCompleted]
@[simp] theorem activeDue_plan (r) (s : State) : (activeDue r s).plan = s.plan := by
  simp only [activeDue]; repeat' split
  all_goals simp
@[simp] theorem fixCompleted_plan (r c) (s : State) : (fixCompleted r c s).plan = s.plan := by simp [fixCompleted]
@[simp] theorem updatePath_plan (r c) (s : State) : (updatePath r c s).plan = s.plan := by simp [updatePath]
@[simp] theorem fixRecord_plan (r a b) (s : State) : (fixRecord r a b s).plan = s.plan := by
  simp only [fixRecord]; repeat' split
  all_goals simp

/-! ### Requests, monitor and actuator links -/

@[simp] theorem foldl_plan {α : Type} (f : State → α → State) (h : ∀ s a, (f s a).plan = s.plan) (l : List α) (s : State) :
    (l.foldl f s).plan = s.plan := by
  induction l generalizing s with
  | nil => rfl
  | cons a l ih => simp [ih, h]
@[simp] theorem withdrawReqs_plan (r) (s : State) : (withdrawReqs r s).plan = s.plan := by simp [withdrawReqs]
@[simp] theorem setEnables_plan (r) (s : State) : (setEnables r s).plan = s.plan := by unfold setEnables; split <;> simp
@[simp] theorem setEngine_plan (e g) (s : State) : (setEngine e g s).plan = s.plan := by simp [setEngine]
@[simp] theorem updateEngine_plan (e g) (s : State) : (updateEngine e g s).plan = s.plan := by simp [updateEngine]
@[simp] theorem askSample_plan (e o n) (s : State) : (askSample e o n s).plan = s.plan := by simp [askSample]
@[simp] theorem giveUpSample_plan (e) (s : State) : (giveUpSample e s).plan = s.plan := by simp [giveUpSample]
@[simp] theorem tellLost_plan (a) (s : State) : (tellLost a s).plan = s.plan := by unfold tellLost; simp only []; split <;> simp
@[simp] theorem handSample_plan (a v) (s : State) : (handSample a v s).plan = s.plan := by unfold handSample; simp only []; split <;> simp
@[simp] theorem setModule_plan (a v) (s : State) : (setModule a v s).plan = s.plan := by unfold setModule; split <;> simp
@[simp] theorem onQueued_plan (c) (s : State) : (onQueued c s).plan = s.plan := by
  simp only [onQueued]; repeat' split
  all_goals simp
@[simp] theorem queueOrdinary_plan (c) (s : State) : (queueOrdinary c s).plan = s.plan := by simp [queueOrdinary]
theorem handOrdinary_plan {c} {s t : State} (h : handOrdinary c s = some t) : t.plan = s.plan := by
  simp only [handOrdinary] at h
  repeat' split at h
  all_goals first | (simp at h; done) | (simp only [Option.some.injEq] at h; subst h; simp)
@[simp] theorem handOrdinary_getD_plan (c) (s : State) : ((handOrdinary c s).getD s).plan = s.plan := by
  rcases h : handOrdinary c s with _ | t
  · rfl
  · exact handOrdinary_plan h
theorem placeWaiting_plan {s t : State} (h : placeWaiting s = some t) : t.plan = s.plan := by
  simp only [placeWaiting] at h
  repeat' split at h
  all_goals first | (simp at h; done) | (simp only [Option.some.injEq] at h; subst h; simp)
@[simp] theorem withdrawCmds_plan (p) (s : State) : (withdrawCmds p s).plan = s.plan := by simp [withdrawCmds]
@[simp] theorem queueUrgent_plan (p) (s : State) : (queueUrgent p s).plan = s.plan := by simp [queueUrgent]
@[simp] theorem squelchSlot_plan (o n) (s : State) : (squelchSlot o n s).plan = s.plan := by
  simp only [squelchSlot]; repeat' split
  all_goals simp
@[simp] theorem beginTransaction_plan (s : State) : (beginTransaction s).plan = s.plan := by
  simp only [beginTransaction]; repeat' split
  all_goals simp
@[simp] theorem refreshPing_plan (o) (s : State) : (refreshPing o s).plan = s.plan := by simp [refreshPing]
@[simp] theorem refreshBurst_plan (o k) (s : State) : (refreshBurst o k s).plan = s.plan := by simp [refreshBurst]
@[simp] theorem startRefresh_plan (s : State) : (startRefresh s).plan = s.plan := by unfold startRefresh; split <;> simp
@[simp] theorem nextRefresh_plan (s : State) : (nextRefresh s).plan = s.plan := by unfold nextRefresh; split <;> simp

/-! ### Ramp Bank -/

@[simp] theorem freeEngine_plan (e) (s : State) : (freeEngine e s).plan = s.plan := by
  simp only [freeEngine]; repeat' split
  all_goals simp
@[simp] theorem stopEngine_plan (e) (s : State) : (stopEngine e s).plan = s.plan := by simp [stopEngine]
@[simp] theorem freePathEngine_plan (e) (s : State) : (freePathEngine e s).plan = s.plan := by unfold freePathEngine; split <;> simp
@[simp] theorem stopPathEngine_plan (e) (s : State) : (stopPathEngine e s).plan = s.plan := by unfold stopPathEngine; split <;> simp
@[simp] theorem withdrawEngReq_plan (e) (s : State) : (withdrawEngReq e s).plan = s.plan := by simp [withdrawEngReq]
@[simp] theorem presentRequest_plan (a b c d) (s : State) : (presentRequest a b c d s).plan = s.plan := by
  simp only [presentRequest]; split <;> simp
@[simp] theorem makeGrant_plan (e r) (s : State) : (makeGrant e r s).plan = s.plan := by
  simp only [makeGrant]; repeat' split
  all_goals simp
@[simp] theorem startReturning_plan (e) (s : State) : (startReturning e s).plan = s.plan := by simp [startReturning]

/-! ### Running a batch -/

@[simp] theorem writeBatchState_plan (e) (s : State) : (writeBatchState e s).plan = s.plan := by simp [writeBatchState]
@[simp] theorem enterState_plan (e w) (s : State) : (enterState e w s).plan = s.plan := by simp [enterState]
@[simp] theorem enterRunning_plan (s : State) : (enterRunning s).plan = s.plan := by simp [enterRunning]
@[simp] theorem writeCounters_plan (e) (s : State) : (writeCounters e s).plan = s.plan := by simp [writeCounters]
@[simp] theorem writeOutcome_plan (e c) (s : State) : (writeOutcome e c s).plan = s.plan := by simp [writeOutcome]
@[simp] theorem updateEntry_plan (e c) (s : State) : (updateEntry e c s).plan = s.plan := by simp [updateEntry]
@[simp] theorem giveUpClaims_plan (e) (s : State) : (giveUpClaims e s).plan = s.plan := by simp [giveUpClaims]
@[simp] theorem endWaiting_plan (e a b) (s : State) : (endWaiting e a b s).plan = s.plan := by
  simp only [endWaiting]; split <;> simp
@[simp] theorem endAllWaiting_plan (a) (s : State) : (endAllWaiting a s).plan = s.plan := by
  unfold endAllWaiting; apply foldl_plan; intro s e; split <;> simp
@[simp] theorem enterCancelling_plan (s : State) : (enterCancelling s).plan = s.plan := by simp [enterCancelling]
@[simp] theorem stopTest_plan (c) (s : State) : (stopTest c s).plan = s.plan := by
  unfold stopTest; repeat' split
  all_goals simp
@[simp] theorem takeCode_plan (r c) (s : State) : (takeCode r c s).plan = s.plan := by
  unfold takeCode; repeat' split
  all_goals simp
@[simp] theorem markVoid_plan (c n l) (s : State) : (markVoid c n l s).plan = s.plan := by
  induction n generalizing l s with
  | zero => rfl
  | succ n ih =>
    cases l with
    | nil => rfl
    | cons a l =>
      simp only [markVoid]; repeat' split
      all_goals simp [ih]
@[simp] theorem finishNow_plan (r c b) (s : State) : (finishNow r c b s).plan = s.plan := by
  simp only [finishNow]; repeat' split
  all_goals simp
@[simp] theorem finishEntry_plan (r c b) (s : State) : (finishEntry r c b s).plan = s.plan := by
  simp only [finishEntry]; repeat' split
  all_goals simp
@[simp] theorem leaveInPlace_plan (r) (s : State) : (leaveInPlace r s).plan = s.plan := by simp [leaveInPlace]
@[simp] theorem leaveRetuned_plan (r) (s : State) : (leaveRetuned r s).plan = s.plan := by simp [leaveRetuned]
@[simp] theorem dropUnrouted_plan (r k) (s : State) : (dropUnrouted r k s).plan = s.plan := by unfold dropUnrouted; split <;> simp
@[simp] theorem failInPlace_plan (r k c) (s : State) : (failInPlace r k c s).plan = s.plan := by
  simp only [failInPlace]; split <;> simp
@[simp] theorem issueDisconnect_plan (r k) (s : State) : (issueDisconnect r k s).plan = s.plan := by
  simp only [issueDisconnect]; split
  · next h => exact handOrdinary_plan h
  · simp
@[simp] theorem stepFailed_plan (r k) (s : State) : (stepFailed r k s).plan = s.plan := by
  simp only [stepFailed]; repeat' split
  all_goals simp
@[simp] theorem issueStep_plan (r k) (s : State) : (issueStep r k s).plan = s.plan := by
  simp only [issueStep]; repeat' split
  all_goals first | (simp; done) | (next h => rw [handOrdinary_plan h]; split <;> simp; done)
@[simp] theorem stepDone_plan (r) (s : State) : (stepDone r s).plan = s.plan := by simp only [stepDone]; split <;> simp
@[simp] theorem disconnected_plan (r) (s : State) : (disconnected r s).plan = s.plan := by
  simp only [disconnected]; repeat' split
  all_goals simp
@[simp] theorem verified_plan (r) (s : State) : (verified r s).plan = s.plan := by unfold verified; split <;> simp
@[simp] theorem beginEntry_plan (r) (s : State) : (beginEntry r s).plan = s.plan := by
  simp only [beginEntry]; repeat' split
  all_goals simp
@[simp] theorem endBatch_plan (r) (s : State) : (endBatch r s).plan = s.plan := by simp [endBatch]
theorem pumpBatch_plan {s t : State} (h : pumpBatch s = some t) : t.plan = s.plan := by
  simp only [pumpBatch] at h
  repeat' split at h
  all_goals first
    | (simp at h; done)
    | (simp only [Option.some.injEq] at h; subst h; simp; done)
    | (simp only [Option.map_eq_some_iff] at h; obtain ⟨a, -, rfl⟩ := h; simp)
@[simp] theorem setRestoreStep_plan (r k) (s : State) : (setRestoreStep r k s).plan = s.plan := by simp [setRestoreStep]
@[simp] theorem endRestoreNow_plan (r) (s : State) : (endRestoreNow r s).plan = s.plan := by simp [endRestoreNow]
@[simp] theorem endRestore_plan (r) (s : State) : (endRestore r s).plan = s.plan := by unfold endRestore; split <;> simp
@[simp] theorem restoreDisconnect_plan (r p) (s : State) : (restoreDisconnect r p s).plan = s.plan := by
  simp only [restoreDisconnect]; split
  · next h => rw [handOrdinary_plan h]; simp
  · simp
@[simp] theorem restoreFailed_plan (r) (s : State) : (restoreFailed r s).plan = s.plan := by
  simp only [restoreFailed]; repeat' split
  all_goals simp
@[simp] theorem restoreConnect_plan (r p) (s : State) : (restoreConnect r p s).plan = s.plan := by
  unfold restoreConnect; split
  · next h => exact handOrdinary_plan h
  · simp
@[simp] theorem engineFails_plan (r p) (s : State) : (engineFails r p s).plan = s.plan := by unfold engineFails; split <;> simp
@[simp] theorem dimmed_plan (r) (s : State) : (dimmed r s).plan = s.plan := by
  unfold dimmed; repeat' split
  all_goals simp

/-! ### Light Supervisor -/

@[simp] theorem requestCapture_plan (r) (s : State) : (requestCapture r s).plan = s.plan := by unfold requestCapture; split <;> simp
@[simp] theorem squelchPath_plan (r) (s : State) : (squelchPath r s).plan = s.plan := by
  simp only [squelchPath]; repeat' split
  all_goals simp
@[simp] theorem dropRequester_plan (r) (s : State) : (dropRequester r s).plan = s.plan := rfl
@[simp] theorem stopRestore_plan (r) (s : State) : (stopRestore r s).plan = s.plan := by simp [stopRestore]
@[simp] theorem squelchDegree_plan (r) (s : State) : (squelchDegree r s).plan = s.plan := by simp [squelchDegree]
theorem beginRestore_plan {s t : State} (h : beginRestore s = some t) : t.plan = s.plan := by
  simp only [beginRestore] at h
  repeat' split at h
  all_goals first
    | (simp at h; done)
    | (simp only [Option.some.injEq] at h; subst h; simp; done)

/-! ### Engines -/

@[simp] theorem askForPath_plan (r) (s : State) : (askForPath r s).plan = s.plan := by unfold askForPath; split <;> simp
@[simp] theorem engineAnswered_plan (r) (s : State) : (engineAnswered r s).plan = s.plan := by
  simp only [engineAnswered]; repeat' split
  all_goals simp
@[simp] theorem setAtten_plan (r a) (s : State) : (setAtten r a s).plan = s.plan := by
  simp only [setAtten]; repeat' split
  all_goals first | (simp; done) | (next h => exact handOrdinary_plan h)
@[simp] theorem rampStep_plan (r a b c) (s : State) : (rampStep r a b c s).plan = s.plan := by
  simp only [rampStep, setAtten_plan]; split <;> simp
@[simp] theorem toVerify_plan (r) (s : State) : (toVerify r s).plan = s.plan := by unfold toVerify; split <;> simp
@[simp] theorem endRamp_plan (r b) (s : State) : (endRamp r b s).plan = s.plan := by
  simp only [endRamp]; repeat' split
  all_goals simp
@[simp] theorem decideRamp_plan (r b c d e) (s : State) : (decideRamp r b c d e s).plan = s.plan := by
  simp only [decideRamp]; repeat' split
  all_goals simp
@[simp] theorem decideVerify_plan (r b c d e) (s : State) : (decideVerify r b c d e s).plan = s.plan := by
  simp only [decideVerify]; repeat' split
  all_goals simp
@[simp] theorem decide'_plan (r b c d) (s : State) : (decide' r b c d s).plan = s.plan := by
  simp only [decide']; repeat' split
  all_goals simp
@[simp] theorem firstExpiry_plan (r b c d) (s : State) : (firstExpiry r b c d s).plan = s.plan := by
  simp only [firstExpiry]; repeat' split
  all_goals simp
@[simp] theorem missedExpiry_plan (r b c) (s : State) : (missedExpiry r b c s).plan = s.plan := by
  simp only [missedExpiry]; repeat' split
  all_goals simp
@[simp] theorem expiryDecision_plan (r) (s : State) : (expiryDecision r s).plan = s.plan := by
  simp only [expiryDecision]; repeat' split
  all_goals simp
@[simp] theorem intervalExpires_plan (r) (s : State) : (intervalExpires r s).plan = s.plan := by
  simp only [intervalExpires]; repeat' split
  all_goals simp
theorem grantStep_plan {s t : State} (h : grantStep s = some t) : t.plan = s.plan := by
  simp only [grantStep] at h
  repeat' split at h
  all_goals first
    | (simp at h; done)
    | (simp only [Option.some.injEq] at h; subst h; simp; done)
@[simp] theorem disconnectApplied_plan (r a b) (s : State) : (disconnectApplied r a b s).plan = s.plan := by
  unfold disconnectApplied; split <;> simp
@[simp] theorem routeApplied_plan (r) (s : State) : (routeApplied r s).plan = s.plan := by
  simp only [routeApplied]; repeat' split
  all_goals simp
@[simp] theorem attenApplied_plan (r) (s : State) : (attenApplied r s).plan = s.plan := by
  simp only [attenApplied]; repeat' split
  all_goals simp
@[simp] theorem commandFailed_plan (r) (s : State) : (commandFailed r s).plan = s.plan := by
  simp only [commandFailed]; repeat' split
  all_goals simp

/-! ### Commands, fetch and check -/

@[simp] theorem touch_plan (r) (s : State) : (touch r s).plan = s.plan := by simp [touch]
@[simp] theorem untouch_plan (r) (s : State) : (untouch r s).plan = s.plan := by simp [untouch]
@[simp] theorem returnTouched_plan (s : State) : (returnTouched s).plan = s.plan := by unfold returnTouched; split <;> simp
@[simp] theorem nextFetch_plan (s : State) : (nextFetch s).plan = s.plan := by
  simp only [nextFetch]; repeat' split
  all_goals simp
@[simp] theorem beginBatch_plan (q r) (s : State) : (beginBatch q r s).plan = s.plan := by
  simp only [beginBatch]; repeat' split
  all_goals simp
@[simp] theorem fetchComplete_plan (s : State) : (fetchComplete s).plan = s.plan := by
  simp only [fetchComplete]; split <;> simp
@[simp] theorem setVerdict_plan (q r) (s : State) : (setVerdict q r s).plan = s.plan := by simp [setVerdict]
@[simp] theorem judge_plan (q) (s : State) : (judge q s).plan = s.plan := by
  simp only [judge]; repeat' split
  all_goals simp
@[simp] theorem unmarkLeaving_plan (q) (s : State) : (unmarkLeaving q s).plan = s.plan := by unfold unmarkLeaving; split <;> simp
@[simp] theorem claimRounds_plan (q) (s : State) : (claimRounds q s).plan = s.plan := by
  induction q generalizing s with
  | zero => rfl
  | succ n ih => simp only [claimRounds]; split <;> simp [ih]
@[simp] theorem refuseBatch_plan (s : State) : (refuseBatch s).plan = s.plan := by simp [refuseBatch]
@[simp] theorem takeTag_plan (q r) (s : State) : (takeTag q r s).plan = s.plan := by simp [takeTag]
@[simp] theorem acceptRecord_plan (q) (s : State) : (acceptRecord q s).plan = s.plan := by
  simp only [acceptRecord]; repeat' split
  all_goals simp
@[simp] theorem reportAtCheck_plan (b) (s : State) : (reportAtCheck s b).plan = s.plan := by
  unfold reportAtCheck; split <;> simp
@[simp] theorem acceptBatch_plan (s : State) : (acceptBatch s).plan = s.plan := by
  simp only [acceptBatch]; repeat' split
  all_goals simp
theorem continueCheck_plan {s t : State} (h : continueCheck s = some t) : t.plan = s.plan := by
  simp only [continueCheck] at h
  repeat' split at h
  all_goals first
    | (simp at h; done)
    | (simp only [Option.some.injEq] at h; subst h; simp; done)
@[simp] theorem respond_plan (a b c) (s : State) : (respond a b c s).plan = s.plan := by simp [respond]
@[simp] theorem undoBatch_plan (s : State) : (undoBatch s).plan = s.plan := by
  unfold undoBatch; refine (returnTouched_plan _).trans ?_
  exact (plan_core (withdrawReqs _ s) _ _ _ _ _ _ _ _ _ _ _).trans (withdrawReqs_plan _ s)
@[simp] theorem reportCancelled_plan (s : State) : (reportCancelled s).plan = s.plan := by
  simp only [reportCancelled]; split <;> simp
@[simp] theorem cancelEarly_plan (s : State) : (cancelEarly s).plan = s.plan := by simp [cancelEarly]
@[simp] theorem takeCommit_plan (a) (s : State) : (takeCommit a s).plan = s.plan := by
  simp only [takeCommit]; repeat' split
  all_goals simp
@[simp] theorem takeCancel_plan (a) (s : State) : (takeCancel a s).plan = s.plan := by
  simp only [takeCancel]; repeat' split
  all_goals simp
@[simp] theorem takeHold_plan (a) (s : State) : (takeHold a s).plan = s.plan := by
  simp only [takeHold]; repeat' split
  all_goals simp
@[simp] theorem takeRelease_plan (a) (s : State) : (takeRelease a s).plan = s.plan := by
  simp only [takeRelease]; repeat' split
  all_goals simp
@[simp] theorem takeResume_plan (a) (s : State) : (takeResume a s).plan = s.plan := by
  simp only [takeResume]; repeat' split
  all_goals simp
@[simp] theorem handCommand_plan (a) (s : State) : (handCommand a s).plan = s.plan := by
  simp only [handCommand]; repeat' split
  all_goals simp
@[simp] theorem batchEnded_plan (a) (s : State) : (batchEnded a s).plan = s.plan := by
  simp only [batchEnded]; repeat' split
  all_goals simp

/-! ### Interruption Unit -/

@[simp] theorem stopBatchEngine_plan (e) (s : State) : (stopBatchEngine s e).plan = s.plan := by
  unfold stopBatchEngine; repeat' split
  all_goals simp
@[simp] theorem suspendBatch_plan (s : State) : (suspendBatch s).plan = s.plan := by
  simp [suspendBatch]
@[simp] theorem suspendIdle_plan (s : State) : (suspendIdle s).plan = s.plan := by simp [suspendIdle]
@[simp] theorem requestSlot_plan (a b c) (s : State) : (requestSlot a b c s).plan = s.plan := by simp [requestSlot]
@[simp] theorem mergeCapture_plan (a) (s : State) : (mergeCapture a s).plan = s.plan := by simp [mergeCapture]
@[simp] theorem takeCapture_plan (a) (s : State) : (takeCapture a s).plan = s.plan := by
  simp only [takeCapture]; repeat' split
  all_goals simp
theorem buildCapture_plan {s t : State} (h : buildCapture s = some t) : t.plan = s.plan := by
  simp only [buildCapture] at h
  repeat' split at h
  all_goals first
    | (simp at h; done)
    | (simp only [Option.some.injEq] at h; subst h; simp; done)
@[simp] theorem runDeferred_plan (a) (s : State) : (runDeferred s a).plan = s.plan := by cases a <;> simp [runDeferred]
@[simp] theorem takeResumeItem_plan (s : State) : (takeResumeItem s).plan = s.plan := by unfold takeResumeItem; split <;> simp
@[simp] theorem requestPop_plan (a b) (s : State) : (requestPop a b s).plan = s.plan := by simp [requestPop]
theorem refreshEnded_plan {s t : State} (h : refreshEnded s = some t) : t.plan = s.plan := by
  simp only [refreshEnded] at h
  repeat' split at h
  all_goals first
    | (simp at h; done)
    | (simp only [Option.some.injEq] at h; subst h; simp; done)
@[simp] theorem reverse_plan (a b) (s : State) : (reverse a b s).plan = s.plan := by simp [reverse]
@[simp] theorem abandonAtOnce_plan (a) (s : State) : (abandonAtOnce a s).plan = s.plan := by simp [abandonAtOnce]
@[simp] theorem abandonEntry_plan (a) (s : State) : (abandonEntry a s).plan = s.plan := by
  simp only [abandonEntry]; repeat' split
  all_goals simp
@[simp] theorem retryEntry_plan (a) (s : State) : (retryEntry a s).plan = s.plan := by
  simp only [retryEntry]; split <;> simp
theorem eachInProgress_plan (f : Entry → State → State) (hf : ∀ e s, (f e s).plan = s.plan) (s : State) : (eachInProgress f s).plan = s.plan := by
  unfold eachInProgress; apply foldl_plan; intro s r; repeat' split
  all_goals simp [hf]
@[simp] theorem returnState_plan (a b) (s : State) : (returnState a b s).plan = s.plan := by
  simp only [returnState]; repeat' split
  all_goals simp
@[simp] theorem applyAction_plan (a b c) (s : State) : (applyAction a b c s).plan = s.plan := by
  simp only [applyAction]; repeat' split
  all_goals (rw [eachInProgress_plan _ (by simp)]; simp)
@[simp] theorem returnIdle_plan (s : State) : (returnIdle s).plan = s.plan := by
  simp only [returnIdle]; split <;> simp
@[simp] theorem popRebuilt_plan (a b c) (s : State) : (popRebuilt a b c s).plan = s.plan := by
  simp only [popRebuilt]; split <;> simp
@[simp] theorem leaveSuspension_plan (a b c) (s : State) : (leaveSuspension a b c s).plan = s.plan := by
  simp only [leaveSuspension]; repeat' split
  all_goals simp
@[simp] theorem popped_plan (a) (s : State) : (popped a s).plan = s.plan := by
  simp only [popped]; repeat' split
  all_goals simp

/-! ### The acts that follow an event -/

theorem releaseBeat_none {s : State} (h : BusFree s) : releaseBeat s = none := by
  unfold releaseBeat; rw [h]

theorem settleStep_plan {s t : State} (hb : BusFree s) (h : settleStep s = some t) : t.plan = s.plan := by
  simp only [settleStep, releaseBeat_none hb, Option.orElse_eq_orElse, Option.orElse_eq_or, Option.none_or, Option.or_eq_some_iff] at h
  rcases h with h | ⟨-, h | ⟨-, h | ⟨-, h | ⟨-, h | ⟨-, h | ⟨-, h⟩⟩⟩⟩⟩⟩
  · exact buildCapture_plan h
  · exact placeWaiting_plan h
  · exact grantStep_plan h
  · exact continueCheck_plan h
  · exact pumpBatch_plan h
  · exact refreshEnded_plan h
  · exact beginRestore_plan h

theorem busFree_of_plan {s t : State} (h : t.plan = s.plan) (hb : BusFree s) : BusFree t := by
  have : t.bus = s.bus := congrArg Plan.bus h
  unfold BusFree at *; rw [this]; exact hb

theorem settle_plan (n : Nat) {s : State} (hb : BusFree s) : (settle n s).plan = s.plan := by
  induction n generalizing s with
  | zero => rfl
  | succ n ih =>
    unfold settle
    split
    · next t h => rw [ih (busFree_of_plan (settleStep_plan hb h) hb), settleStep_plan hb h]
    · rfl

theorem settle_still {s : State} (h : Still s) (n : Nat) : settle n s = s := by
  cases n with
  | zero => rfl
  | succ n => simp [settle, show settleStep s = none from h]

end Sys2Proof.Machine
end

