-- ==== Sys2Proof/Laws/Event.lean ====
section
/-! SUPPORT. How a command runs: the three shapes of a meaning (an event, a host beat, a completed access) as equations. -/

namespace Sys2Proof.Machine

theorem event_awake {s : State} (h : Awake s) (f : State → State) : event s f = settled (f (fresh s)) := by
  simp [event, running, settled, show s.start.inReset = false from h]

theorem event_inReset {s : State} (h : s.start.inReset = true) (f : State → State) : event s f = .next s := by
  simp [event, running, h]

theorem beatEvent_awake {s : State} (h : Awake s) (b : Beat) : beatEvent s b = settled (hostBeat b (fresh s)) := by
  rw [beatEvent, if_neg (by simp [show s.start.inReset = false from h]), event_awake h]

theorem beatEvent_inReset {s : State} (h : s.start.inReset = true) (b : Beat) : beatEvent s b = .next (resetBeat b s) := by
  simp [beatEvent, h]

theorem event_next (s : State) (f : State → State) : ∃ t, event s f = .next t := by
  unfold event running; split <;> exact ⟨_, rfl⟩

theorem beatEvent_next (s : State) (b : Beat) : ∃ t, beatEvent s b = .next t := by
  unfold beatEvent; split
  · exact ⟨_, rfl⟩
  · exact event_next _ _

theorem rowEvent_next (s : State) (want : PortReq → Bool) (f : PortReq → State → State) : ∃ t, rowEvent s want f = .next t :=
  event_next _ _

/-- The arbiter grants a host cycle where no request of a higher rank waits (R16). -/
theorem hostMayGo_of_portFree {s : State} (h : PortFree s) : hostMayGo s = true := by
  unfold hostMayGo
  rcases h with h | h | ⟨h, h'⟩
  · simp [h]
  · simp [h]
  · have : ∀ r ∈ s.port, ¬r.rank = 2 ∨ r.quiet = true := fun r hr => .inl (h' r hr)
    simpa [h] using .inr this

/-- The arbiter does not grant it while one waits whose completion another block waits for (R16). -/
theorem hostMayGo_of_portTaken {s : State} (h : PortTaken s) : hostMayGo s = false := by
  obtain ⟨hg, hp, h | ⟨r, hr, h⟩⟩ := h
  · simp [hostMayGo, hg, hp, h]
  · have : r.rank = 2 ∧ r.quiet = false := by
      rcases h with ⟨d, rfl⟩ | ⟨d, rfl⟩ | ⟨ws, rfl⟩ <;> exact ⟨rfl, rfl⟩
    simpa [hostMayGo, hg, hp] using fun _ => ⟨r, hr, this⟩

/-- With the port free, the grant changes only the bus (R17). -/
theorem grantHost_of_portFree {s : State} (h : PortFree s) : grantHost s = { s with bus := { s.bus with granted := true } } := by
  unfold grantHost
  rcases h with h | h | ⟨h, h'⟩
  · simp [h]
  · simp [h]
  · have : s.port.filter (fun r => r.rank = 2) = [] := by
      rw [List.filter_eq_nil_iff]; intro r hr; simp [h' r hr]
    simp [this]

/-- A beat that no hold meets, that none waits before and that finds the port free is carried out under its cycle's grant (R13, R17). -/
theorem hostBeat_carried {s : State} {b : Beat} (hb : BusFree s) (hh : beatHeld s b = false) (hp : PortFree s) (hn : b.needsPort s = true) :
    hostBeat b s = carryBeat b { s with bus := { s.bus with granted := true } } := by
  simp [hostBeat, beatWaits, letBeat, show s.bus.held = [] from hb, hh, hn, hostMayGo_of_portFree hp, grantHost_of_portFree hp]

/-- A beat that needs no port is ended as it arrives (R1, R5). -/
theorem hostBeat_noPort {s : State} {b : Beat} (hb : BusFree s) (hh : beatHeld s b = false) (hn : b.needsPort s = false) :
    hostBeat b s = carryBeat b s := by
  simp [hostBeat, beatWaits, letBeat, show s.bus.held = [] from hb, hh, hn]

/-- A beat that has to wait joins the waiting beats, and its cycle gives the port up (R13, R16). -/
theorem hostBeat_waits {s : State} {b : Beat} (h : beatWaits s b = true) :
    hostBeat b s = { s with bus := { s.bus with isOpen := true, granted := false, reading := [], held := s.bus.held ++ [b] } } := by
  simp [hostBeat, h]

/-! ### The next grant -/

theorem nextReq_mem {l : List PortReq} {r : PortReq} (h : nextReq l = some r) : r ∈ l := by
  unfold nextReq at h
  split at h
  · cases h
  · exact List.mem_of_find?_eq_some h

theorem drainQuiet_nextIs {s : State} {r : PortReq} (h : nextReq s.port = some r) (hq : r.quiet = false) (n : Nat) :
    drainQuiet n s = s := by
  cases n with
  | zero => rfl
  | succ n => simp [drainQuiet, h, hq]

theorem takeRow_nextIs {s : State} {r : PortReq} {want : PortReq → Bool} (h : NextIs s r) (hq : r.quiet = false) (hw : want r = true) :
    takeRow want s = some (r, { s with port := s.port.erase r }) := by
  obtain ⟨hb, hr, hn⟩ := h
  simp only [takeRow, hb, Bool.false_eq_true, if_false, drainQuiet_nextIs hn hq, hr, List.isEmpty_nil, if_true, hn, hw]

theorem nextIs_fresh {s : State} {r : PortReq} (h : NextIs s r) : NextIs (fresh s) r := h

theorem rowEvent_nextIs {s : State} {r : PortReq} {want : PortReq → Bool} (ha : Awake s) (h : NextIs s r) (hq : r.quiet = false)
    (hw : want r = true) (f : PortReq → State → State) : rowEvent s want f = settled (f r (granted s r)) := by
  rw [rowEvent, event_awake ha, takeRow_nextIs (nextIs_fresh h) hq hw]; rfl

end Sys2Proof.Machine
end

