-- ==== Sys2Proof/Laws/Memory.lean ====
section
/-! SUPPORT. Memory keeps its canonical form, and what reading gives after a write. -/

namespace Sys2Proof.Machine

theorem cellsWf_some_of_none {l : List Host.Cell} {n : Nat} (h : cellsWf none l = true) (hn : ∀ c ∈ l, n < c.1) : cellsWf (some n) l = true := by
  cases l with
  | nil => rfl
  | cons c t => 
    obtain ⟨a, b⟩ := c
    simp only [cellsWf, Bool.and_eq_true, bne_iff_ne] at h ⊢
    exact ⟨⟨by simpa using hn (a, b) (by simp), h.1.2⟩, h.2⟩

theorem cellSet_wf (k : Nat) (v : BitVec 8) : ∀ (l : List Host.Cell) (lo : Option Nat), (∀ n, lo = some n → n < k) → cellsWf lo l = true →
    cellsWf lo (cellSet k v l) = true := by
  intro l
  induction l with
  | nil =>
    intro lo hk _
    unfold cellSet
    split
    · rfl
    · next hv =>
      cases lo <;> simp_all [cellsWf]
  | cons c t ih =>
    obtain ⟨a, b⟩ := c
    intro lo hk h
    simp only [cellsWf, Bool.and_eq_true, bne_iff_ne] at h
    obtain ⟨⟨h1, h2⟩, h3⟩ := h
    simp only [cellSet]
    split
    · next hlt =>
      split
      · simp_all [cellsWf]
      · next hv => cases lo <;> simp_all [cellsWf]
    · split
      · next hle heq =>
        subst heq
        split
        · next hv =>
          cases t with
          | nil => cases lo <;> simp [cellsWf]
          | cons c t =>
            obtain ⟨a', b'⟩ := c
            simp only [cellsWf, Bool.and_eq_true, bne_iff_ne, decide_eq_true_eq] at h3 ⊢
            cases lo with
            | none => simp_all
            | some n => have := hk n rfl; simp_all; omega
        · next hv => cases lo <;> simp_all [cellsWf]
      · next hle hne =>
        simp only [cellsWf, Bool.and_eq_true, bne_iff_ne]
        refine ⟨⟨h1, h2⟩, ih (some a) ?_ h3⟩
        intro n hn; cases hn; omega

theorem Memory.storeWord_wf (m : Memory) (a : Nat) (w : Word) (h : m.wf = true) : (m.storeWord a w).wf = true := by
  simp only [Memory.wf, Bool.and_eq_true] at h ⊢
  simp only [Memory.storeWord]
  refine ⟨?_, cellSet_wf _ _ _ _ (by simp) h.2⟩
  repeat' apply cellSet_wf
  all_goals first | (exact h.1) | simp

theorem cellGet_cellSet_same (k : Nat) (v : BitVec 8) : ∀ (l : List Host.Cell) (lo : Option Nat), cellsWf lo l = true →
    cellGet k (cellSet k v l) = v := by
  intro l
  induction l with
  | nil => intro lo _; unfold cellSet; split <;> simp_all [cellGet]
  | cons c t ih =>
    obtain ⟨a, b⟩ := c
    intro lo h
    simp only [cellsWf, Bool.and_eq_true, bne_iff_ne] at h
    have gt : ∀ (t : List Host.Cell) (n : Nat), k ≤ n → cellsWf (some n) t = true → cellGet k t = 0 := by
      intro t
      induction t with
      | nil => intros; rfl
      | cons c t ih => 
        obtain ⟨a, b⟩ := c
        intro n hn h
        simp only [cellsWf, Bool.and_eq_true, decide_eq_true_eq] at h
        simp only [cellGet]
        rw [if_neg (by omega)]
        exact ih a (by omega) h.2
    simp only [cellSet]
    split
    · split
      · next hv => simp only [cellGet]; rw [if_neg (by omega), gt t a (by omega) h.2]; exact hv.symm
      · simp [cellGet]
    · split
      · next heq => 
        subst heq
        split
        · next hv => rw [gt t k (Nat.le_refl _) h.2]; exact hv.symm
        · simp [cellGet]
      · next hne => simp only [cellGet]; rw [if_neg (Ne.symm hne)]; exact ih _ h.2

theorem cellGet_cellSet_other (k j : Nat) (v : BitVec 8) (hj : j ≠ k) : ∀ (l : List Host.Cell),
    cellGet j (cellSet k v l) = cellGet j l := by
  intro l
  induction l with
  | nil => unfold cellSet; split <;> simp [cellGet, Ne.symm hj]
  | cons c t ih =>
    obtain ⟨a, b⟩ := c
    simp only [cellSet]
    split
    · split
      · rfl
      · simp [cellGet, Ne.symm hj]
    · split
      · next heq => subst heq; split <;> simp [cellGet, Ne.symm hj]
      · simp [cellGet, ih]

/-! ### Words -/

theorem Memory.wf_bytes {m : Memory} (h : m.wf = true) : cellsWf none m.bytes = true := by
  simp only [Memory.wf, Bool.and_eq_true] at h; exact h.1

theorem Memory.wf_syn {m : Memory} (h : m.wf = true) : cellsWf none m.syn = true := by
  simp only [Memory.wf, Bool.and_eq_true] at h; exact h.2

theorem Memory.byte_storeWord_other {m : Memory} {a b : Nat} (w : Word) (h : b < a ∨ a + 4 ≤ b) :
    (m.storeWord a w).byte b = m.byte b := by
  simp only [Memory.byte, Memory.storeWord]
  rw [cellGet_cellSet_other _ _ _ (by omega), cellGet_cellSet_other _ _ _ (by omega),
    cellGet_cellSet_other _ _ _ (by omega), cellGet_cellSet_other _ _ _ (by omega)]

theorem Memory.byte_storeWord_same {m : Memory} (hm : m.wf = true) (a : Nat) (w : Word) :
    (m.storeWord a w).byte a = w.extractLsb' 0 8 ∧ (m.storeWord a w).byte (a + 1) = w.extractLsb' 8 8 ∧
      (m.storeWord a w).byte (a + 2) = w.extractLsb' 16 8 ∧ (m.storeWord a w).byte (a + 3) = w.extractLsb' 24 8 := by
  have h0 := Memory.wf_bytes hm
  have h3 := cellSet_wf (a + 3) (w.extractLsb' 24 8) _ none (by simp) h0
  have h2 := cellSet_wf (a + 2) (w.extractLsb' 16 8) _ none (by simp) h3
  have h1 := cellSet_wf (a + 1) (w.extractLsb' 8 8) _ none (by simp) h2
  simp only [Memory.byte, Memory.storeWord]
  refine ⟨cellGet_cellSet_same _ _ _ none h1, ?_, ?_, ?_⟩
  · rw [cellGet_cellSet_other _ _ _ (by omega)]; exact cellGet_cellSet_same _ _ _ none h2
  · rw [cellGet_cellSet_other _ _ _ (by omega), cellGet_cellSet_other _ _ _ (by omega)]
    exact cellGet_cellSet_same _ _ _ none h3
  · rw [cellGet_cellSet_other _ _ _ (by omega), cellGet_cellSet_other _ _ _ (by omega), cellGet_cellSet_other _ _ _ (by omega)]
    exact cellGet_cellSet_same _ _ _ none h0

theorem Memory.word_storeWord_same {m : Memory} (hm : m.wf = true) (a : Nat) (w : Word) : (m.storeWord a w).word a = w := by
  obtain ⟨h0, h1, h2, h3⟩ := Memory.byte_storeWord_same hm a w
  simp only [Memory.word, h0, h1, h2, h3]
  ext i hi
  simp only [BitVec.getElem_append, BitVec.getElem_extractLsb', Nat.zero_add]
  split
  · simp [BitVec.getLsbD_eq_getElem hi]
  · split
    · rw [show 8 + (i - 8) = i by omega, BitVec.getLsbD_eq_getElem hi]
    · split
      · rw [show 16 + (i - 8 - 8) = i by omega, BitVec.getLsbD_eq_getElem hi]
      · rw [show 24 + (i - 8 - 8 - 8) = i by omega, BitVec.getLsbD_eq_getElem hi]

theorem Memory.word_storeWord_other {m : Memory} {a b : Nat} (w : Word) (h : b + 4 ≤ a ∨ a + 4 ≤ b) :
    (m.storeWord a w).word b = m.word b := by
  simp only [Memory.word]
  rw [Memory.byte_storeWord_other w (by omega), Memory.byte_storeWord_other w (by omega),
    Memory.byte_storeWord_other w (by omega), Memory.byte_storeWord_other w (by omega)]

theorem Memory.syndrome_storeWord_same {m : Memory} (hm : m.wf = true) (a : Nat) (w : Word) : (m.storeWord a w).syndrome a = 0 := by
  simp only [Memory.syndrome, Memory.storeWord]
  rw [cellGet_cellSet_same _ _ _ none (Memory.wf_syn hm)]; rfl

theorem Memory.syndrome_storeWord_other {m : Memory} {a b : Nat} (w : Word) (h : b ≠ a) :
    (m.storeWord a w).syndrome b = m.syndrome b := by
  simp only [Memory.syndrome, Memory.storeWord]
  rw [cellGet_cellSet_other _ _ _ h]

/-- A word that shows no syndrome is read as its memory holds it, and nothing is reported (R169). -/
theorem readWordOf_clean {m : Memory} {a : Nat} (q : MemFaultReq) (s : State) (h : m.syndrome a = 0) :
    readWordOf m q a s = (s, m.word a, false) := by
  simp [readWordOf, Memory.check, h]

theorem readWord_clean {s : State} {a : Nat} (q : MemFaultReq) (h : s.mem.syndrome a = 0) :
    readWord q a s = (s, s.mem.word a, false) := readWordOf_clean q s h

/-- A burst without a syndrome gives the words of its memory and changes nothing (R17, R169). -/
theorem readBurstOf_clean {m : Memory} {a n : Nat} (q : MemFaultReq) (s : State) (h : CleanBurst m a n) :
    readBurstOf m q a n s = (s, (burstWords m a n).map (fun w => (w, false))) := by
  induction n generalizing a with
  | zero => rfl
  | succ n ih =>
    have h0 : m.syndrome a = 0 := h 0 (by omega)
    have hr : CleanBurst m (a + 4) n := fun i hi => by rw [show a + 4 + 4 * i = a + 4 * (i + 1) by omega]; exact h (i + 1) (by omega)
    have hw : (List.range n).map ((fun i => m.word (a + 4 * i)) ∘ Nat.succ) = (List.range n).map (fun i => m.word (a + 4 + 4 * i)) :=
      List.map_congr_left fun i _ => by simp only [Function.comp_apply, show a + 4 * i.succ = a + 4 + 4 * i by omega]
    simp only [readBurstOf, readWordOf_clean q s h0, ih hr, burstWords, List.range_succ_eq_map, List.map_cons, List.map_map, Nat.mul_zero, Nat.add_zero, ← hw]

/-- The last burst of an anchor read whose words 4 to 6 show no syndrome gives the record and ends the read: the words kept and the memory that a
re-read was made of go, and nothing else changes (R9, R17, R21). -/
theorem readAnchor_clean {s : State} (h : CleanBurst (s.start.anchorSeen.getD s.mem) (pageAddr s.win.anchorPage 16) 3) :
    readAnchor s = ({ s with start := { s.start with readPart := [], anchorSeen := none } }, anchorOf (s.start.anchorSeen.getD s.mem) s) := by
  unfold readAnchor anchorOf
  simp only [anchorMem, readBurstOf_clean _ _ h, List.any_append, List.map_append, List.map_map]
  have : ((burstWords (s.start.anchorSeen.getD s.mem) (pageAddr s.win.anchorPage 16) 3).map (fun w => (w, false))).any (fun x => x.2) = false := by simp
  rw [this, Bool.or_false]
  simp [Function.comp_def]

end Sys2Proof.Machine
end

