-- ==== Sys2Proof/Laws/Kept.lean ====
section
/-! SUPPORT. What the operations keep: nine fields that only few of them change (`Keeps`), and for those that do, the invariant `WellKept` with
the anchor page, the queue and the reset pin (`Sound`). -/

namespace Sys2Proof.Machine

/-- The fields that most operations leave alone: the anchor page, the queue, the reset pin, memory, the rewrites, the Intake Queue, the Power
Table, the next-sequence counter and the held beats. -/
abbrev Keeps (s t : State) : Prop :=
  t.win.anchorPage = s.win.anchorPage ∧ t.pending = s.pending ∧ t.start.inReset = s.start.inReset ∧ t.mem = s.mem ∧
    t.integ.rewrites = s.integ.rewrites ∧ t.mon.intake = s.mon.intake ∧ t.power = s.power ∧ t.mon.nextSeq = s.mon.nextSeq ∧
    t.bus.held = s.bus.held

theorem keeps_of_plan {s t : State} (h : t.plan = s.plan) : Keeps s t :=
  ⟨congrArg (fun p : Plan => p.win.anchorPage) h, congrArg Plan.pending h, congrArg (fun p : Plan => p.startRest.1) h,
   congrArg Plan.mem h, congrArg (fun p : Plan => p.integ.rewrites) h, congrArg (fun p : Plan => p.monRest.2.2.1) h,
   congrArg Plan.power h, congrArg (fun p : Plan => p.monRest.1) h,
   congrArg (fun p : Plan => p.bus.held) h⟩

/-! ### The operations that leave the whole plan alone -/

@[simp] theorem request_keeps (r) (s : State) : Keeps s (request r s) := keeps_of_plan (by simp)
@[simp] theorem requestStatus_keeps (r) (s : State) : Keeps s (requestStatus r s) := keeps_of_plan (by simp)
@[simp] theorem requestAttention_keeps (s : State) : Keeps s (requestAttention s) := keeps_of_plan (by simp)
@[simp] theorem raiseCause_keeps (c) (s : State) : Keeps s (raiseCause c s) := keeps_of_plan (by simp)
@[simp] theorem setCompleted_keeps (r c) (s : State) : Keeps s (setCompleted r c s) := keeps_of_plan (by simp)
@[simp] theorem activeDue_keeps (r) (s : State) : Keeps s (activeDue r s) := keeps_of_plan (by simp)
@[simp] theorem fixCompleted_keeps (r c) (s : State) : Keeps s (fixCompleted r c s) := keeps_of_plan (by simp)
@[simp] theorem updatePath_keeps (r c) (s : State) : Keeps s (updatePath r c s) := keeps_of_plan (by simp)
@[simp] theorem fixRecord_keeps (r a b) (s : State) : Keeps s (fixRecord r a b s) := keeps_of_plan (by simp)
@[simp] theorem withdrawReqs_keeps (r) (s : State) : Keeps s (withdrawReqs r s) := keeps_of_plan (by simp)
@[simp] theorem setEnables_keeps (r) (s : State) : Keeps s (setEnables r s) := keeps_of_plan (by simp)
@[simp] theorem setEngine_keeps (e g) (s : State) : Keeps s (setEngine e g s) := keeps_of_plan (by simp)
@[simp] theorem updateEngine_keeps (e g) (s : State) : Keeps s (updateEngine e g s) := keeps_of_plan (by simp)
@[simp] theorem askSample_keeps (e o n) (s : State) : Keeps s (askSample e o n s) := keeps_of_plan (by simp)
@[simp] theorem giveUpSample_keeps (e) (s : State) : Keeps s (giveUpSample e s) := keeps_of_plan (by simp)
@[simp] theorem tellLost_keeps (a) (s : State) : Keeps s (tellLost a s) := keeps_of_plan (by simp)
@[simp] theorem handSample_keeps (a v) (s : State) : Keeps s (handSample a v s) := keeps_of_plan (by simp)
@[simp] theorem setModule_keeps (a v) (s : State) : Keeps s (setModule a v s) := keeps_of_plan (by simp)
@[simp] theorem onQueued_keeps (c) (s : State) : Keeps s (onQueued c s) := keeps_of_plan (by simp)
@[simp] theorem queueOrdinary_keeps (c) (s : State) : Keeps s (queueOrdinary c s) := keeps_of_plan (by simp)
@[simp] theorem withdrawCmds_keeps (p) (s : State) : Keeps s (withdrawCmds p s) := keeps_of_plan (by simp)
@[simp] theorem queueUrgent_keeps (p) (s : State) : Keeps s (queueUrgent p s) := keeps_of_plan (by simp)
@[simp] theorem squelchSlot_keeps (o n) (s : State) : Keeps s (squelchSlot o n s) := keeps_of_plan (by simp)
@[simp] theorem beginTransaction_keeps (s : State) : Keeps s (beginTransaction s) := keeps_of_plan (by simp)
@[simp] theorem refreshPing_keeps (o) (s : State) : Keeps s (refreshPing o s) := keeps_of_plan (by simp)
@[simp] theorem refreshBurst_keeps (o k) (s : State) : Keeps s (refreshBurst o k s) := keeps_of_plan (by simp)
@[simp] theorem startRefresh_keeps (s : State) : Keeps s (startRefresh s) := keeps_of_plan (by simp)
@[simp] theorem nextRefresh_keeps (s : State) : Keeps s (nextRefresh s) := keeps_of_plan (by simp)
@[simp] theorem freeEngine_keeps (e) (s : State) : Keeps s (freeEngine e s) := keeps_of_plan (by simp)
@[simp] theorem stopEngine_keeps (e) (s : State) : Keeps s (stopEngine e s) := keeps_of_plan (by simp)
@[simp] theorem freePathEngine_keeps (e) (s : State) : Keeps s (freePathEngine e s) := keeps_of_plan (by simp)
@[simp] theorem stopPathEngine_keeps (e) (s : State) : Keeps s (stopPathEngine e s) := keeps_of_plan (by simp)
@[simp] theorem withdrawEngReq_keeps (e) (s : State) : Keeps s (withdrawEngReq e s) := keeps_of_plan (by simp)
@[simp] theorem presentRequest_keeps (a b c d) (s : State) : Keeps s (presentRequest a b c d s) := keeps_of_plan (by simp)
@[simp] theorem makeGrant_keeps (e r) (s : State) : Keeps s (makeGrant e r s) := keeps_of_plan (by simp)
@[simp] theorem startReturning_keeps (e) (s : State) : Keeps s (startReturning e s) := keeps_of_plan (by simp)
@[simp] theorem writeBatchState_keeps (e) (s : State) : Keeps s (writeBatchState e s) := keeps_of_plan (by simp)
@[simp] theorem enterState_keeps (e w) (s : State) : Keeps s (enterState e w s) := keeps_of_plan (by simp)
@[simp] theorem writeCounters_keeps (e) (s : State) : Keeps s (writeCounters e s) := keeps_of_plan (by simp)
@[simp] theorem writeOutcome_keeps (e c) (s : State) : Keeps s (writeOutcome e c s) := keeps_of_plan (by simp)
@[simp] theorem updateEntry_keeps (e c) (s : State) : Keeps s (updateEntry e c s) := keeps_of_plan (by simp)
@[simp] theorem giveUpClaims_keeps (e) (s : State) : Keeps s (giveUpClaims e s) := keeps_of_plan (by simp)
@[simp] theorem endWaiting_keeps (e a b) (s : State) : Keeps s (endWaiting e a b s) := keeps_of_plan (by simp)
@[simp] theorem endAllWaiting_keeps (a) (s : State) : Keeps s (endAllWaiting a s) := keeps_of_plan (by simp)
@[simp] theorem enterCancelling_keeps (s : State) : Keeps s (enterCancelling s) := keeps_of_plan (by simp)
@[simp] theorem stopTest_keeps (c) (s : State) : Keeps s (stopTest c s) := keeps_of_plan (by simp)
@[simp] theorem takeCode_keeps (r c) (s : State) : Keeps s (takeCode r c s) := keeps_of_plan (by simp)
@[simp] theorem markVoid_keeps (c n l) (s : State) : Keeps s (markVoid c n l s) := keeps_of_plan (by simp)
@[simp] theorem finishNow_keeps (r c b) (s : State) : Keeps s (finishNow r c b s) := keeps_of_plan (by simp)
@[simp] theorem finishEntry_keeps (r c b) (s : State) : Keeps s (finishEntry r c b s) := keeps_of_plan (by simp)
@[simp] theorem leaveInPlace_keeps (r) (s : State) : Keeps s (leaveInPlace r s) := keeps_of_plan (by simp)
@[simp] theorem leaveRetuned_keeps (r) (s : State) : Keeps s (leaveRetuned r s) := keeps_of_plan (by simp)
@[simp] theorem dropUnrouted_keeps (r k) (s : State) : Keeps s (dropUnrouted r k s) := keeps_of_plan (by simp)
@[simp] theorem failInPlace_keeps (r k c) (s : State) : Keeps s (failInPlace r k c s) := keeps_of_plan (by simp)
@[simp] theorem issueDisconnect_keeps (r k) (s : State) : Keeps s (issueDisconnect r k s) := keeps_of_plan (by simp)
@[simp] theorem stepFailed_keeps (r k) (s : State) : Keeps s (stepFailed r k s) := keeps_of_plan (by simp)
@[simp] theorem issueStep_keeps (r k) (s : State) : Keeps s (issueStep r k s) := keeps_of_plan (by simp)
@[simp] theorem stepDone_keeps (r) (s : State) : Keeps s (stepDone r s) := keeps_of_plan (by simp)
@[simp] theorem disconnected_keeps (r) (s : State) : Keeps s (disconnected r s) := keeps_of_plan (by simp)
@[simp] theorem verified_keeps (r) (s : State) : Keeps s (verified r s) := keeps_of_plan (by simp)
@[simp] theorem beginEntry_keeps (r) (s : State) : Keeps s (beginEntry r s) := keeps_of_plan (by simp)
@[simp] theorem endBatch_keeps (r) (s : State) : Keeps s (endBatch r s) := keeps_of_plan (by simp)
@[simp] theorem setRestoreStep_keeps (r k) (s : State) : Keeps s (setRestoreStep r k s) := keeps_of_plan (by simp)
@[simp] theorem endRestoreNow_keeps (r) (s : State) : Keeps s (endRestoreNow r s) := keeps_of_plan (by simp)
@[simp] theorem endRestore_keeps (r) (s : State) : Keeps s (endRestore r s) := keeps_of_plan (by simp)
@[simp] theorem restoreDisconnect_keeps (r p) (s : State) : Keeps s (restoreDisconnect r p s) := keeps_of_plan (by simp)
@[simp] theorem restoreFailed_keeps (r) (s : State) : Keeps s (restoreFailed r s) := keeps_of_plan (by simp)
@[simp] theorem restoreConnect_keeps (r p) (s : State) : Keeps s (restoreConnect r p s) := keeps_of_plan (by simp)
@[simp] theorem engineFails_keeps (r p) (s : State) : Keeps s (engineFails r p s) := keeps_of_plan (by simp)
@[simp] theorem dimmed_keeps (r) (s : State) : Keeps s (dimmed r s) := keeps_of_plan (by simp)
@[simp] theorem requestCapture_keeps (r) (s : State) : Keeps s (requestCapture r s) := keeps_of_plan (by simp)
@[simp] theorem squelchPath_keeps (r) (s : State) : Keeps s (squelchPath r s) := keeps_of_plan (by simp)
@[simp] theorem stopRestore_keeps (r) (s : State) : Keeps s (stopRestore r s) := keeps_of_plan (by simp)
@[simp] theorem squelchDegree_keeps (r) (s : State) : Keeps s (squelchDegree r s) := keeps_of_plan (by simp)
@[simp] theorem askForPath_keeps (r) (s : State) : Keeps s (askForPath r s) := keeps_of_plan (by simp)
@[simp] theorem engineAnswered_keeps (r) (s : State) : Keeps s (engineAnswered r s) := keeps_of_plan (by simp)
@[simp] theorem setAtten_keeps (r a) (s : State) : Keeps s (setAtten r a s) := keeps_of_plan (by simp)
@[simp] theorem rampStep_keeps (r a b c) (s : State) : Keeps s (rampStep r a b c s) := keeps_of_plan (by simp)
@[simp] theorem toVerify_keeps (r) (s : State) : Keeps s (toVerify r s) := keeps_of_plan (by simp)
@[simp] theorem endRamp_keeps (r b) (s : State) : Keeps s (endRamp r b s) := keeps_of_plan (by simp)
@[simp] theorem decideRamp_keeps (r b c d e) (s : State) : Keeps s (decideRamp r b c d e s) := keeps_of_plan (by simp)
@[simp] theorem decideVerify_keeps (r b c d e) (s : State) : Keeps s (decideVerify r b c d e s) := keeps_of_plan (by simp)
@[simp] theorem decide'_keeps (r b c d) (s : State) : Keeps s (decide' r b c d s) := keeps_of_plan (by simp)
@[simp] theorem firstExpiry_keeps (r b c d) (s : State) : Keeps s (firstExpiry r b c d s) := keeps_of_plan (by simp)
@[simp] theorem missedExpiry_keeps (r b c) (s : State) : Keeps s (missedExpiry r b c s) := keeps_of_plan (by simp)
@[simp] theorem expiryDecision_keeps (r) (s : State) : Keeps s (expiryDecision r s) := keeps_of_plan (by simp)
@[simp] theorem intervalExpires_keeps (r) (s : State) : Keeps s (intervalExpires r s) := keeps_of_plan (by simp)
@[simp] theorem disconnectApplied_keeps (r a b) (s : State) : Keeps s (disconnectApplied r a b s) := keeps_of_plan (by simp)
@[simp] theorem routeApplied_keeps (r) (s : State) : Keeps s (routeApplied r s) := keeps_of_plan (by simp)
@[simp] theorem attenApplied_keeps (r) (s : State) : Keeps s (attenApplied r s) := keeps_of_plan (by simp)
@[simp] theorem commandFailed_keeps (r) (s : State) : Keeps s (commandFailed r s) := keeps_of_plan (by simp)
@[simp] theorem touch_keeps (r) (s : State) : Keeps s (touch r s) := keeps_of_plan (by simp)
@[simp] theorem untouch_keeps (r) (s : State) : Keeps s (untouch r s) := keeps_of_plan (by simp)
@[simp] theorem returnTouched_keeps (s : State) : Keeps s (returnTouched s) := keeps_of_plan (by simp)
@[simp] theorem nextFetch_keeps (s : State) : Keeps s (nextFetch s) := keeps_of_plan (by simp)
@[simp] theorem beginBatch_keeps (q r) (s : State) : Keeps s (beginBatch q r s) := keeps_of_plan (by simp)
@[simp] theorem fetchComplete_keeps (s : State) : Keeps s (fetchComplete s) := keeps_of_plan (by simp)
@[simp] theorem setVerdict_keeps (q r) (s : State) : Keeps s (setVerdict q r s) := keeps_of_plan (by simp)
@[simp] theorem judge_keeps (q) (s : State) : Keeps s (judge q s) := keeps_of_plan (by simp)
@[simp] theorem unmarkLeaving_keeps (q) (s : State) : Keeps s (unmarkLeaving q s) := keeps_of_plan (by simp)
@[simp] theorem claimRounds_keeps (q) (s : State) : Keeps s (claimRounds q s) := keeps_of_plan (by simp)
@[simp] theorem refuseBatch_keeps (s : State) : Keeps s (refuseBatch s) := keeps_of_plan (by simp)
@[simp] theorem takeTag_keeps (q r) (s : State) : Keeps s (takeTag q r s) := keeps_of_plan (by simp)
@[simp] theorem acceptRecord_keeps (q) (s : State) : Keeps s (acceptRecord q s) := keeps_of_plan (by simp)
@[simp] theorem reportAtCheck_keeps (b) (s : State) : Keeps s (reportAtCheck s b) := keeps_of_plan (by simp)
@[simp] theorem acceptBatch_keeps (s : State) : Keeps s (acceptBatch s) := keeps_of_plan (by simp)
@[simp] theorem respond_keeps (a b c) (s : State) : Keeps s (respond a b c s) := keeps_of_plan (by simp)
@[simp] theorem undoBatch_keeps (s : State) : Keeps s (undoBatch s) := keeps_of_plan (by simp)
@[simp] theorem reportCancelled_keeps (s : State) : Keeps s (reportCancelled s) := keeps_of_plan (by simp)
@[simp] theorem cancelEarly_keeps (s : State) : Keeps s (cancelEarly s) := keeps_of_plan (by simp)
@[simp] theorem takeCommit_keeps (a) (s : State) : Keeps s (takeCommit a s) := keeps_of_plan (by simp)
@[simp] theorem takeCancel_keeps (a) (s : State) : Keeps s (takeCancel a s) := keeps_of_plan (by simp)
@[simp] theorem takeHold_keeps (a) (s : State) : Keeps s (takeHold a s) := keeps_of_plan (by simp)
@[simp] theorem takeRelease_keeps (a) (s : State) : Keeps s (takeRelease a s) := keeps_of_plan (by simp)
@[simp] theorem takeResume_keeps (a) (s : State) : Keeps s (takeResume a s) := keeps_of_plan (by simp)
@[simp] theorem handCommand_keeps (a) (s : State) : Keeps s (handCommand a s) := keeps_of_plan (by simp)
@[simp] theorem batchEnded_keeps (a) (s : State) : Keeps s (batchEnded a s) := keeps_of_plan (by simp)
@[simp] theorem stopBatchEngine_keeps (e) (s : State) : Keeps s (stopBatchEngine s e) := keeps_of_plan (by simp)
@[simp] theorem suspendBatch_keeps (s : State) : Keeps s (suspendBatch s) := keeps_of_plan (by simp)
@[simp] theorem suspendIdle_keeps (s : State) : Keeps s (suspendIdle s) := keeps_of_plan (by simp)
@[simp] theorem requestSlot_keeps (a b c) (s : State) : Keeps s (requestSlot a b c s) := keeps_of_plan (by simp)
@[simp] theorem mergeCapture_keeps (a) (s : State) : Keeps s (mergeCapture a s) := keeps_of_plan (by simp)
@[simp] theorem takeCapture_keeps (a) (s : State) : Keeps s (takeCapture a s) := keeps_of_plan (by simp)
@[simp] theorem runDeferred_keeps (a) (s : State) : Keeps s (runDeferred s a) := keeps_of_plan (by simp)
@[simp] theorem takeResumeItem_keeps (s : State) : Keeps s (takeResumeItem s) := keeps_of_plan (by simp)
@[simp] theorem requestPop_keeps (a b) (s : State) : Keeps s (requestPop a b s) := keeps_of_plan (by simp)
@[simp] theorem reverse_keeps (a b) (s : State) : Keeps s (reverse a b s) := keeps_of_plan (by simp)
@[simp] theorem abandonAtOnce_keeps (a) (s : State) : Keeps s (abandonAtOnce a s) := keeps_of_plan (by simp)
@[simp] theorem abandonEntry_keeps (a) (s : State) : Keeps s (abandonEntry a s) := keeps_of_plan (by simp)
@[simp] theorem retryEntry_keeps (a) (s : State) : Keeps s (retryEntry a s) := keeps_of_plan (by simp)
@[simp] theorem returnState_keeps (a b) (s : State) : Keeps s (returnState a b s) := keeps_of_plan (by simp)
@[simp] theorem applyAction_keeps (a b c) (s : State) : Keeps s (applyAction a b c s) := keeps_of_plan (by simp)
@[simp] theorem returnIdle_keeps (s : State) : Keeps s (returnIdle s) := keeps_of_plan (by simp)
@[simp] theorem popRebuilt_keeps (a b c) (s : State) : Keeps s (popRebuilt a b c s) := keeps_of_plan (by simp)
@[simp] theorem leaveSuspension_keeps (a b c) (s : State) : Keeps s (leaveSuspension a b c s) := keeps_of_plan (by simp)
@[simp] theorem popped_keeps (a) (s : State) : Keeps s (popped a s) := keeps_of_plan (by simp)

theorem handOrdinary_keeps {c} {s t : State} (h : handOrdinary c s = some t) : Keeps s t := keeps_of_plan (handOrdinary_plan h)


/-! ### Operations that change other parts of the plan -/

theorem foldl_keeps {α : Type} {f : State → α → State} (h : ∀ s a, Keeps s (f s a)) (l : List α) (s : State) : Keeps s (l.foldl f s) := by
  induction l generalizing s with
  | nil => simp [Keeps]
  | cons a l ih =>
    have h1 := h s a
    have h2 := ih (f s a)
    simp only [List.foldl_cons]
    simp_all [Keeps]

@[simp] theorem handOrdinary_getD_keeps (c) (s : State) : Keeps s ((handOrdinary c s).getD s) := keeps_of_plan (by simp)
@[simp] theorem foldl_keeps_of_plan {α : Type} (f : State → α → State) (h : ∀ s a, (f s a).plan = s.plan) (l : List α) (s : State) :
    Keeps s (l.foldl f s) := keeps_of_plan (foldl_plan f h l s)
@[simp] theorem fresh_keeps (s : State) : Keeps s (fresh s) := by simp [Keeps, fresh]
@[simp] theorem reportFault_keeps (k q a y) (s : State) : Keeps s (reportFault k q a y s) := by
  simp only [reportFault]; repeat' split
  all_goals simp [Keeps]
@[simp] theorem clearFault_keeps (s : State) : Keeps s (clearFault s) := by simp [Keeps, clearFault]
@[simp] theorem reportRefusal_keeps (a) (s : State) : Keeps s (reportRefusal a s) := by
  simp only [reportRefusal]; repeat' split
  all_goals simp [Keeps]
@[simp] theorem clearProtection_keeps (s : State) : Keeps s (clearProtection s) := by simp [Keeps, clearProtection]
@[simp] theorem setLink_keeps (a) (s : State) : Keeps s (setLink a s) := by simp [Keeps, setLink]
@[simp] theorem loseRequests_keeps (s : State) : Keeps s (loseRequests s) := by
  have h := foldl_keeps (f := fun (s : State) (r : OutReq) => match r.asker with | some a => tellLost a s | none => s)
    (by intro s r; split <;> simp [Keeps]) s.mon.out
    { s with mon := { s.mon with out := [], stale := s.mon.out.foldl (fun l r => joinStale r.seq l) s.mon.stale } }
  exact h
@[simp] theorem silenceExpires_keeps (s : State) : Keeps s (silenceExpires s) := by
  simp only [silenceExpires]; split <;> simp [Keeps]
@[simp] theorem lightChange_keeps (d l) (s : State) : Keeps s (lightChange d l s) := by simp [Keeps, lightChange]
@[simp] theorem lossFromLit_keeps (d) (s : State) : Keeps s (lossFromLit d s) := by
  simp only [lossFromLit]; repeat' split
  all_goals simp [Keeps]
@[simp] theorem setHoldOff_keeps (d n) (s : State) : Keeps s (setHoldOff d n s) := by simp [Keeps, setHoldOff]
@[simp] theorem clearFromDark_keeps (d) (s : State) : Keeps s (clearFromDark d s) := by simp [Keeps, clearFromDark]
@[simp] theorem lossEvent_keeps (d) (s : State) : Keeps s (lossEvent d s) := by
  unfold lossEvent; split <;> simp [Keeps]
@[simp] theorem clearEvent_keeps (d) (s : State) : Keeps s (clearEvent d s) := by
  unfold clearEvent; split <;> simp [Keeps]
@[simp] theorem litEvent_keeps (d) (s : State) : Keeps s (litEvent d s) := by
  simp only [litEvent]; repeat' split
  all_goals simp [Keeps]
@[simp] theorem setLevel_keeps (d l) (s : State) : Keeps s (setLevel d l s) := by simp [Keeps, setLevel]
@[simp] theorem actOnLatched_keeps (d) (s : State) : Keeps s (actOnLatched d s) := by
  simp only [actOnLatched]; repeat' split
  all_goals simp [Keeps]
@[simp] theorem setPowerdown_keeps (s : State) : Keeps s (setPowerdown s) := by simp [Keeps, setPowerdown]
@[simp] theorem captureWritten_keeps (s : State) : Keeps s (captureWritten s) := by
  simp only [captureWritten]; repeat' split
  all_goals simp [Keeps]
@[simp] theorem pfwAsserted_keeps (s : State) : Keeps s (pfwAsserted s) := by
  simp only [pfwAsserted]; repeat' split
  all_goals simp [Keeps]
@[simp] theorem pfwDeasserted_keeps (s : State) : Keeps s (pfwDeasserted s) := by
  simp only [pfwDeasserted]
  split
  · simp [Keeps]
  · have h1 := fun t => foldl_keeps (f := fun s d => actOnLatched d s) (by intro s d; simp [Keeps]) Degree.all t
    have h2 := fun t => foldl_keeps (f := runDeferred) (by intro s d; simp [Keeps]) s.start.deferred t
    split <;> simp [Keeps, h1, h2]
@[simp] theorem resetScrub_keeps (s : State) : Keeps s (resetScrub s) := by simp [Keeps, resetScrub]
@[simp] theorem writeStatusWords_keeps (s : State) : Keeps s (writeStatusWords s) := by simp [Keeps, writeStatusWords]
@[simp] theorem adoptCfg_keeps (c) (s : State) : Keeps s (adoptCfg c s) := by
  simp only [adoptCfg]; split <;> simp [Keeps]
@[simp] theorem install_keeps (c) (s : State) : Keeps s (install c s) := by simp [Keeps, install]
@[simp] theorem requestAnchor_keeps (w) (s : State) : Keeps s (requestAnchor w s) := by simp [Keeps, requestAnchor]
@[simp] theorem requestSlotRead_keeps (k) (s : State) : Keeps s (requestSlotRead k s) := by simp [Keeps, requestSlotRead]
@[simp] theorem startAnchorRead_keeps (s : State) : Keeps s (startAnchorRead s) := by
  unfold startAnchorRead; split <;> simp [Keeps]
@[simp] theorem anchorWritten_keeps (s : State) : Keeps s (anchorWritten s) := by
  unfold anchorWritten; split <;> simp [Keeps]
@[simp] theorem enterUnconfigured_keeps (s : State) : Keeps s (enterUnconfigured s) := by
  simp only [enterUnconfigured]; repeat' split
  all_goals simp [Keeps]
@[simp] theorem startReadback_keeps (s : State) : Keeps s (startReadback s) := by
  have h := fun t => foldl_keeps (f := fun s o =>
    (handOrdinary { module := o, kind := .read, start := 0, count := 64, vals := [], built := true, req := .readback } s).getD s)
    (by intro s o; simp [Keeps]) OutPoint.all t
  simp [Keeps, startReadback, h]
@[simp] theorem nextTail_keeps (k) (s : State) : Keeps s (nextTail k s) := by unfold nextTail; split <;> simp [Keeps]
@[simp] theorem saveCounted_keeps (s : State) : Keeps s (saveCounted s) := by
  simp only [saveCounted]; split <;> simp [Keeps]
@[simp] theorem countDiscrepancy_keeps (s : State) : Keeps s (countDiscrepancy s) := by simp [Keeps, countDiscrepancy]
@[simp] theorem presentClaim_keeps (r p c) (s : State) : Keeps s (presentClaim r p c s) := by
  simp only [presentClaim]; repeat' split
  all_goals simp [Keeps]
@[simp] theorem adoptActive_keeps (y) (s : State) : Keeps s (adoptActive s y) := by
  simp only [adoptActive]; repeat' split
  all_goals simp [Keeps]
@[simp] theorem adoptForeign_keeps (o n) (s : State) : Keeps s (adoptForeign o s n) := by
  simp only [adoptForeign]; repeat' split
  all_goals simp [Keeps]
@[simp] theorem finishAdoption_keeps (s : State) : Keeps s (finishAdoption s) := by
  have h := fun t => foldl_keeps (f := fun s o => allSlots.foldl (adoptForeign o) s)
    (by intro s o; exact foldl_keeps (by intro s n; simp [Keeps]) _ _) OutPoint.all t
  simp only [finishAdoption]; split <;> simp [Keeps, h]
@[simp] theorem nextNewHalf_keeps (s : State) : Keeps s (nextNewHalf s) := by
  simp only [nextNewHalf]; repeat' split
  all_goals simp [Keeps]
@[simp] theorem endBatchWord_keeps (s : State) : Keeps s (endBatchWord s) := by
  simp only [endBatchWord]; repeat' split
  all_goals simp [Keeps]
@[simp] theorem startAdoption_keeps (s : State) : Keeps s (startAdoption s) := by
  have h := fun (l : List Yield) t => foldl_keeps (f := adoptActive) (by intro s y; simp [Keeps]) l t
  simp [Keeps, startAdoption, h]
@[simp] theorem takeReread_keeps (s : State) : Keeps s (takeReread s) := by simp [Keeps, takeReread]
@[simp] theorem fillChange_keeps (o n d) (s : State) : Keeps s (fillChange o n s d) := by
  simp only [fillChange]; repeat' split
  all_goals simp [Keeps]
@[simp] theorem refix_keeps (r) (s : State) : Keeps s (refix s r) := by
  simp only [refix]; repeat' split
  all_goals simp [Keeps]
@[simp] theorem applyReread_keeps (c) (s : State) : Keeps s (applyReread c s) := by
  have h1 := fun (o : AnchorCfg) t => foldl_keeps (f := fillChange o c) (by intro s y; simp [Keeps]) Degree.all t
  have h2 := fun t => foldl_keeps (f := refix) (by intro s y; simp [Keeps]) allRecords t
  simp only [applyReread]; repeat' split
  all_goals simp [Keeps, h1, h2]
@[simp] theorem takeReadback_keeps (o x) (s : State) : Keeps s (takeReadback o x s) := by
  simp only [takeReadback]; split <;> simp [Keeps]
@[simp] theorem transactionFails_keeps (t) (s : State) : Keeps s (transactionFails t s) := by
  simp only [transactionFails]; repeat' split
  all_goals simp [Keeps]
@[simp] theorem attemptMissed_keeps (s : State) : Keeps s (attemptMissed s) := by
  simp only [attemptMissed]; repeat' split
  all_goals simp [Keeps]
@[simp] theorem replyExpires_keeps (s : State) : Keeps s (replyExpires s) := by
  simp only [replyExpires]; repeat' split
  all_goals simp [Keeps]
@[simp] theorem dataArrives_keeps (h l) (s : State) : Keeps s (dataArrives h l s) := by
  simp only [dataArrives]; repeat' split
  all_goals simp [Keeps]
@[simp] theorem nakArrives_keeps (h) (s : State) : Keeps s (nakArrives h s) := by
  simp only [nakArrives]; repeat' split
  all_goals simp [Keeps]
@[simp] theorem pacingExpires_keeps (s : State) : Keeps s (pacingExpires s) := by
  simp only [pacingExpires]; repeat' split
  all_goals simp [Keeps]
@[simp] theorem acknowledgeCauses_keeps (a) (s : State) : Keeps s (acknowledgeCauses a s) := by
  simp only [acknowledgeCauses]; repeat' split
  all_goals simp [Keeps]
@[simp] theorem endBeat_keeps (b w f) (s : State) : Keeps s (endBeat b w f s) := by simp [Keeps, endBeat]
@[simp] theorem sideEffect_keeps (b) (s : State) : Keeps s (sideEffect b s) := by
  simp only [sideEffect]; repeat' split
  all_goals simp [Keeps]

end Sys2Proof.Machine
end

