-- ==== Sys2Proof/Laws/Read.lean ====
section
/-! SUPPORT. What a checked read does, once for a word and once for a burst (R168 to R171): the words it gives, and that beside the Integrity Unit, the
attention set and the arbiter's list it changes nothing; and how a partial write beat ends by its merge read. -/

namespace Sys2Proof.Machine

/-- Two states that differ in the Integrity Unit, the attention set and the arbiter's list alone. -/
def OnlyReports (s t : State) : Prop := t = { s with integ := t.integ, attn := t.attn, port := t.port }

theorem OnlyReports.refl (s : State) : OnlyReports s s := rfl

theorem OnlyReports.trans {s t u : State} (h : OnlyReports s t) (h' : OnlyReports t u) : OnlyReports s u := by
  unfold OnlyReports at *; rw [h', h]

theorem requestStatus_only (r : PortReq) (s : State) : OnlyReports s (requestStatus r s) := by
  unfold requestStatus request; split <;> rfl

theorem raiseCause_only (c : Cause) (s : State) : OnlyReports s (raiseCause c s) := by
  unfold raiseCause requestAttention request
  split
  · rfl
  · simp only; split <;> rfl

theorem setFault_only (f : MemFault) (s : State) : OnlyReports s (requestStatus .memFault { s with integ := { s.integ with mfr := f } }) :=
  OnlyReports.trans (t := { s with integ := { s.integ with mfr := f } }) rfl (requestStatus_only _ _)

/-- A fault reported changes those three alone (R171). -/
theorem reportFault_only (k : MemFaultKind) (q : MemFaultReq) (a : Nat) (y : BitVec 7) (s : State) :
    OnlyReports s (reportFault k q a y s) := by
  unfold reportFault
  cases s.integ.mfr.kind
  · exact (setFault_only _ s).trans (raiseCause_only _ _)
  all_goals
    simp only
    split
    · exact .refl s
    · exact setFault_only _ s

theorem addRewrite_only (a : Nat) (w : Word) (s : State) : OnlyReports s (addRewrite a w s) := by
  unfold addRewrite; simp only; split <;> rfl

/-- One read changes those three alone (R169). -/
theorem readWordOf_only (m : Memory) (q : MemFaultReq) (a : Nat) (s : State) : OnlyReports s (readWordOf m q a s).1 := by
  unfold readWordOf; split
  · exact .refl s
  · simp only; split
    · exact (reportFault_only ..).trans (addRewrite_only ..)
    · exact reportFault_only ..
  · exact reportFault_only ..

theorem readWord_only (q : MemFaultReq) (a : Nat) (s : State) : OnlyReports s (readWord q a s).1 := readWordOf_only ..

/-- What one read gives (R169). -/
theorem readWordOf_gives (m : Memory) (q : MemFaultReq) (a : Nat) (s : State) :
    (readWordOf m q a s).2 = ((m.check a).2, decide ((m.check a).1 = .uncorrectable)) := by
  unfold readWordOf; rcases m.check a with ⟨x, w⟩; cases x <;> rfl

theorem readWord_gives (q : MemFaultReq) (a : Nat) (s : State) :
    (readWord q a s).2 = ((s.mem.check a).2, decide ((s.mem.check a).1 = .uncorrectable)) := readWordOf_gives ..

/-- A burst changes those three alone (R17, R169). -/
theorem readBurstOf_only (m : Memory) (q : MemFaultReq) (n a : Nat) (s : State) : OnlyReports s (readBurstOf m q a n s).1 := by
  induction n generalizing a s with
  | zero => exact .refl s
  | succ n ih => exact (readWordOf_only m q a s).trans (ih _ _)

theorem readBurst_only (q : MemFaultReq) (n a : Nat) (s : State) : OnlyReports s (readBurst q a n s).1 := readBurstOf_only ..

/-- What a burst gives (R17, R169). -/
theorem readBurstOf_gives (m : Memory) (q : MemFaultReq) (n a : Nat) (s : State) : (readBurstOf m q a n s).2 =
    (List.range n).map (fun i => ((m.check (a + 4 * i)).2, decide ((m.check (a + 4 * i)).1 = .uncorrectable))) := by
  induction n generalizing a s with
  | zero => rfl
  | succ n ih =>
    have h := readWordOf_gives m q a s
    simp only [readBurstOf, ih, h, List.range_succ_eq_map, List.map_cons, List.map_map, List.cons.injEq, List.map_inj_left]
    refine ⟨rfl, fun i _ => ?_⟩
    simp only [Function.comp_apply, show a + 4 + 4 * i = a + 4 * (i + 1) by omega]

theorem readBurst_gives (q : MemFaultReq) (n a : Nat) (s : State) : (readBurst q a n s).2 =
    (List.range n).map (fun i => ((s.mem.check (a + 4 * i)).2, decide ((s.mem.check (a + 4 * i)).1 = .uncorrectable))) := readBurstOf_gives ..

/-- The record that a fault reported leaves (R171). -/
theorem reportFault_record (k : MemFaultKind) (q : MemFaultReq) (a : Nat) (y : BitVec 7) (s : State) :
    (s.integ.mfr.kind = .none → (reportFault k q a y s).integ.mfr = { kind := k, req := q, addr := a, syndrome := y, further := false }) ∧
    (s.integ.mfr.kind ≠ .none → (reportFault k q a y s).integ.mfr.kind = s.integ.mfr.kind ∧
      (reportFault k q a y s).integ.mfr.req = s.integ.mfr.req) := by
  have hs (r : PortReq) (s : State) : (requestStatus r s).integ = s.integ := by unfold requestStatus request; split <;> rfl
  have hc (c : Cause) (s : State) : (raiseCause c s).integ = s.integ := by
    unfold raiseCause requestAttention request
    split
    · rfl
    · simp only; split <;> rfl
  unfold reportFault
  cases h : s.integ.mfr.kind
  · simp [hs, hc]
  all_goals
    simp only [reduceCtorEq, false_implies, ne_eq, not_false_eq_true, forall_const, true_and]
    split
    · exact ⟨h, rfl⟩
    · simp [hs, h]

/-- Any read keeps the kind and the requester of a record already filled, and a read that is not correct fills an empty one (R171). -/
theorem readWordOf_record (m : Memory) (q : MemFaultReq) (a : Nat) (s : State) :
    (s.integ.mfr.kind ≠ .none → (readWordOf m q a s).1.integ.mfr.kind = s.integ.mfr.kind ∧
      (readWordOf m q a s).1.integ.mfr.req = s.integ.mfr.req) ∧
    (s.integ.mfr.kind = .none → (m.check a).1 = .correct → (readWordOf m q a s).1 = s) ∧
    (s.integ.mfr.kind = .none → (m.check a).1 ≠ .correct →
      (readWordOf m q a s).1.integ.mfr.kind ≠ .none ∧ (readWordOf m q a s).1.integ.mfr.req = q) := by
  have ha (b : Bool) (a : Nat) (w : Word) (s : State) : (if b = true then addRewrite a w s else s).integ.mfr = s.integ.mfr := by
    cases b
    · rfl
    · unfold addRewrite; simp only [if_true]; split <;> rfl
  unfold readWordOf
  rcases m.check a with ⟨x, w⟩
  cases x
  · simp
  all_goals
    simp only [ha, reduceCtorEq, ne_eq, not_false_eq_true, forall_const, false_implies, implies_true, true_and]
    refine ⟨fun h => (reportFault_record ..).2 h, fun h => ?_⟩
    rw [(reportFault_record ..).1 h]; simp

theorem readBurstOf_keeps_record (m : Memory) (q : MemFaultReq) (n a : Nat) (s : State) (h : s.integ.mfr.kind ≠ .none) :
    (readBurstOf m q a n s).1.integ.mfr.kind = s.integ.mfr.kind ∧ (readBurstOf m q a n s).1.integ.mfr.req = s.integ.mfr.req := by
  induction n generalizing a s with
  | zero => exact ⟨rfl, rfl⟩
  | succ n ih =>
    have h1 := (readWordOf_record m q a s).1 h
    have h2 := ih (a + 4) (readWordOf m q a s).1 (by rw [h1.1]; exact h)
    exact ⟨h2.1.trans h1.1, h2.2.trans h1.2⟩

/-- A burst with a word that does not read correct fills an empty record in its requester's name (R171). -/
theorem readBurstOf_record (m : Memory) (q : MemFaultReq) (n a : Nat) (s : State) (h : s.integ.mfr.kind = .none)
    (hx : ∃ i, i < n ∧ (m.check (a + 4 * i)).1 ≠ .correct) :
    (readBurstOf m q a n s).1.integ.mfr.kind ≠ .none ∧ (readBurstOf m q a n s).1.integ.mfr.req = q := by
  induction n generalizing a s with
  | zero => obtain ⟨i, hi, _⟩ := hx; omega
  | succ n ih =>
    by_cases hc : (m.check a).1 = .correct
    · have h1 := (readWordOf_record m q a s).2.1 h hc
      obtain ⟨i, hi, hw⟩ := hx
      have h2 := ih (a + 4) s h (match i, hi, hw with
        | 0, _, hw => absurd hc hw
        | i + 1, hi, hw => ⟨i, by omega, by rw [show a + 4 + 4 * i = a + 4 * (i + 1) by omega]; exact hw⟩)
      simpa only [readBurstOf, h1] using h2
    · have h1 := (readWordOf_record m q a s).2.2 h hc
      have h2 := readBurstOf_keeps_record m q n (a + 4) (readWordOf m q a s).1 h1.1
      exact ⟨fun hk => h1.1 (h2.1.symm.trans hk), h2.2.trans h1.2⟩

theorem readBurst_record (q : MemFaultReq) (n a : Nat) (s : State) (h : s.integ.mfr.kind = .none)
    (hx : ∃ i, i < n ∧ (s.mem.check (a + 4 * i)).1 ≠ .correct) :
    (readBurst q a n s).1.integ.mfr.kind ≠ .none ∧ (readBurst q a n s).1.integ.mfr.req = q := readBurstOf_record s.mem q n a s h hx

/-! ### Partial write beats -/

theorem requestStatus_bus (r : PortReq) (s : State) (b : BusPort) : requestStatus r { s with bus := b } = { requestStatus r s with bus := b } := by
  unfold requestStatus request; split <;> rfl

theorem raiseCause_bus (c : Cause) (s : State) (b : BusPort) : raiseCause c { s with bus := b } = { raiseCause c s with bus := b } := by
  unfold raiseCause requestAttention request
  simp only; split
  · rfl
  · split <;> rfl

/-- A fault is reported whatever the bus holds (R171). -/
theorem reportFault_bus (k : MemFaultKind) (q : MemFaultReq) (a : Nat) (y : BitVec 7) (s : State) (b : BusPort) :
    reportFault k q a y { s with bus := b } = { reportFault k q a y s with bus := b } := by
  unfold reportFault
  cases s.integ.mfr.kind
  · simp only; rw [← raiseCause_bus, ← requestStatus_bus]
  all_goals
    simp only; split
    · rfl
    · rw [← requestStatus_bus]

/-- A write beat that passes the table of R4 needs the port where an enable is on (R1, R17). -/
theorem needsPort_of_pass {s : State} {addr : Addr} {b : BeatData} (h : b.be ≠ 0)
    (hp : writeAction (s.win.role (pageOf (wordAddr addr))) (wordAddr addr % 4096) = .pass) : (Beat.ofWrite addr b).needsPort s = true := by
  have hp' : writeAction ((Beat.ofWrite addr b).role s) ((Beat.ofWrite addr b).word % 4096) = .pass := hp
  have hb : (Beat.ofWrite addr b).be = b.be := rfl
  unfold Beat.needsPort; rw [hp', hb]; simpa using Or.inr h

/-- A partial beat whose merge read is uncorrectable fails, and nothing follows from it (R168). -/
theorem beatEvent_mergeFailed {s : State} {addr : Addr} {b : BeatData} (h : MergeReady s addr b) (hh : beatHeld s (.ofWrite addr b) = false)
    (hp : writeAction (s.win.role (pageOf (wordAddr addr))) (wordAddr addr % 4096) = .pass) (hc : (mergeRead s addr).1 = .uncorrectable) :
    beatEvent s (.ofWrite addr b) = settled (mergeFailed s addr b) := by
  have e : ({ fresh s with bus := { (fresh s).bus with granted := true } } : State) = { s with bus := { (fresh s).bus with granted := true } } := rfl
  rw [beatEvent_awake h.awake, hostBeat_carried (s := fresh s) h.free hh h.port (needsPort_of_pass (s := fresh s) h.lanes hp), e]
  have hr : writeAction ((Beat.ofWrite addr b).role { s with bus := { (fresh s).bus with granted := true } })
    ((Beat.ofWrite addr b).word % 4096) = .pass := hp
  have hb : (Beat.ofWrite addr b).be = b.be := rfl
  rcases hm : s.mem.check (wordAddr addr) with ⟨x, w⟩
  unfold mergeRead at hc
  rw [hm] at hc; simp only at hc; subst hc
  have hm' : ({ s with bus := { (fresh s).bus with granted := true } } : State).mem.check (Beat.ofWrite addr b).word = (.uncorrectable, w) := hm
  unfold carryBeat carryWrite writeMemory
  rw [if_pos (show (Beat.ofWrite addr b).write = true from rfl), if_neg (by rw [hb]; exact h.lanes)]
  simp only [hr, hm', if_neg (show ¬ (Beat.ofWrite addr b).be = 15 from h.part), Bool.false_eq_true, if_false]
  rw [reportFault_bus]
  unfold endBeat mergeFailed beatEnded
  cases hl : b.last <;> simp [Beat.ofWrite, hl, Beat.word, wordAddr, fresh]

/-- A partial beat whose merge read is corrected lands on the corrected word, and what a landed beat brings about follows (R6, R7, R9, R168). -/
theorem beatEvent_landedCorrected {s : State} {addr : Addr} {b : BeatData} (h : MergeReady s addr b) (hh : beatHeld s (.ofWrite addr b) = false)
    (hp : writeAction (s.win.role (pageOf (wordAddr addr))) (wordAddr addr % 4096) = .pass) (hc : (mergeRead s addr).1 = .corrected) :
    beatEvent s (.ofWrite addr b) = settled (endBeat (.ofWrite addr b) none false (sideEffect (.ofWrite addr b)
      { landedCorrected s addr b with bus := { s.bus with granted := true, finished := [], ready := false, error := false } })) := by
  have e : ({ fresh s with bus := { (fresh s).bus with granted := true } } : State) = { s with bus := { (fresh s).bus with granted := true } } := rfl
  rw [beatEvent_awake h.awake, hostBeat_carried (s := fresh s) h.free hh h.port (needsPort_of_pass (s := fresh s) h.lanes hp), e]
  have hr : writeAction ((Beat.ofWrite addr b).role { s with bus := { (fresh s).bus with granted := true } })
    ((Beat.ofWrite addr b).word % 4096) = .pass := hp
  have hb : (Beat.ofWrite addr b).be = b.be := rfl
  rcases hm : s.mem.check (wordAddr addr) with ⟨x, w⟩
  unfold mergeRead at hc
  rw [hm] at hc; simp only at hc; subst hc
  have hm' : ({ s with bus := { (fresh s).bus with granted := true } } : State).mem.check (Beat.ofWrite addr b).word = (.corrected, w) := hm
  unfold carryBeat carryWrite writeMemory
  rw [if_pos (show (Beat.ofWrite addr b).write = true from rfl), if_neg (by rw [hb]; exact h.lanes)]
  simp only [hr, hm', if_neg (show ¬ (Beat.ofWrite addr b).be = 15 from h.part), if_true]
  rw [reportFault_bus]
  unfold landedCorrected mergeRead
  rw [hm]; rfl

/-- How such a beat is given READY (R1): whatever it brought about, the bus is as at any beat's end. -/
theorem endBeat_landed (s t : State) (addr : Addr) (b : BeatData) :
    endBeat (.ofWrite addr b) none false { t with bus := { s.bus with granted := true, finished := [], ready := false, error := false } } =
      { t with bus := beatEnded s true addr none false b.last } := by
  unfold endBeat beatEnded
  cases hl : b.last <;> simp [Beat.ofWrite, hl]

end Sys2Proof.Machine
end

