-- ==== Sys2Proof/Laws/Sound.lean ====
section
/-! SUPPORT. The operations that change memory, the rewrites, the Intake Queue, the Power Table or the next-sequence counter: each keeps
`WellKept`, the anchor page, the queue and the reset pin. -/

namespace Sys2Proof.Machine

/-- What every operation of the part does to a state: the anchor page, the queue and the reset pin stay, and `WellKept` is kept. -/
structure Sound (s t : State) : Prop where
  page : t.win.anchorPage = s.win.anchorPage
  pending : t.pending = s.pending
  inReset : t.start.inReset = s.start.inReset
  kept : WellKept s → WellKept t

theorem Sound.refl (s : State) : Sound s s := ⟨rfl, rfl, rfl, id⟩

theorem Sound.trans {s t u : State} (h : Sound s t) (k : Sound t u) : Sound s u :=
  ⟨k.page.trans h.page, k.pending.trans h.pending, k.inReset.trans h.inReset, fun w => k.kept (h.kept w)⟩

theorem Sound.of_keeps {s t : State} (h : Keeps s t) : Sound s t := by
  obtain ⟨h1, h2, h3, h4, h5, h6, h7, h8, -⟩ := h
  exact ⟨h1, h2, h3, fun w => ⟨h4 ▸ w.memory, h5 ▸ w.rewrites, h6 ▸ w.intake, h7 ▸ w.cells, h8 ▸ w.sequence⟩⟩

theorem Sound.of_plan {s t : State} (h : t.plan = s.plan) : Sound s t := .of_keeps (keeps_of_plan h)

theorem Sound.foldl {α : Type} {f : State → α → State} (h : ∀ s a, Sound s (f s a)) (l : List α) (s : State) : Sound s (l.foldl f s) := by
  induction l generalizing s with
  | nil => exact .refl s
  | cons a l ih => exact (h s a).trans (ih _)

/-! ### Memory and the Integrity Unit -/

theorem storeWord_sound (a w) (s : State) : Sound s (storeWord a w s) :=
  ⟨rfl, rfl, rfl, fun k => ⟨Memory.storeWord_wf _ _ _ k.memory, by simpa [storeWord] using k.rewrites, k.intake, k.cells, k.sequence⟩⟩

theorem storeBurst_sound (a ws) (s : State) : Sound s (storeBurst a ws s) := by
  induction ws generalizing a s with
  | nil => exact .refl s
  | cons w ws ih => exact (storeWord_sound a w s).trans (ih _ _)

theorem addRewrite_sound (a w) (s : State) : Sound s (addRewrite a w s) := by
  simp only [addRewrite]
  split
  · exact .refl s
  · next h =>
    refine ⟨rfl, rfl, rfl, fun k => ⟨k.memory, ?_, k.intake, k.cells, k.sequence⟩⟩
    simp only [Bool.or_eq_true, decide_eq_true_eq, not_or] at h
    simp; omega

theorem readWordOf_sound (m q a) (s : State) : Sound s (readWordOf m q a s).1 := by
  simp only [readWordOf]
  repeat' split
  · exact .refl s
  · exact (Sound.of_keeps (reportFault_keeps _ _ _ _ s)).trans (addRewrite_sound _ _ _)
  · exact .of_keeps (reportFault_keeps _ _ _ _ s)
  · exact .of_keeps (reportFault_keeps _ _ _ _ s)

theorem readBurstOf_sound (m q a n) (s : State) : Sound s (readBurstOf m q a n s).1 := by
  induction n generalizing a s with
  | zero => exact .refl s
  | succ n ih => exact (readWordOf_sound m q a s).trans (ih _ _)

theorem readWord_sound (q a) (s : State) : Sound s (readWord q a s).1 := readWordOf_sound s.mem q a s

theorem readBurst_sound (q a n) (s : State) : Sound s (readBurst q a n s).1 := readBurstOf_sound s.mem q a n s

theorem readPart_sound (m b a) (s : State) : Sound s (readPart m b a s) :=
  (readBurstOf_sound m .rebuild a 4 s).trans (.of_keeps (by simp [Keeps, readPart]))

theorem readQuiet_sound (r) (s : State) : Sound s (readQuiet r s) := by
  unfold readQuiet; split
  · exact readPart_sound _ _ _ _
  · exact readPart_sound _ _ _ _
  · next m _ => exact (readWord_sound .rebuild (pageAddr m.status offBatchState) s).trans (.of_keeps (by simp [Keeps]))
  · exact .refl s

theorem carryOut_sound (r) (s : State) : Sound s (carryOut r s) := by
  unfold carryOut; split
  · exact storeBurst_sound _ _ _
  · exact readQuiet_sound _ _

theorem drainQuiet_sound (n) (s : State) : Sound s (drainQuiet n s) := by
  induction n generalizing s with
  | zero => exact .refl s
  | succ n ih =>
    unfold drainQuiet; repeat' split
    all_goals first
      | exact .refl s
      | exact ((Sound.of_keeps (by simp [Keeps])).trans (carryOut_sound _ _)).trans (ih _)

theorem takeRow_sound {want} {s t : State} {r} (h : takeRow want s = some (r, t)) : Sound s t := by
  simp only [takeRow] at h
  repeat' split at h
  all_goals first
    | (simp at h; done)
    | (simp only [Option.some.injEq, Prod.mk.injEq] at h; obtain ⟨-, rfl⟩ := h
       exact (drainQuiet_sound s.port.length s).trans (.of_keeps (by simp [Keeps])))

/-! ### Monitor Port and Power Table -/

theorem pushValue_length {l : List Int} (h : l.length ≤ 4) (v : Int) : 1 ≤ (pushValue l v).length ∧ (pushValue l v).length ≤ 4 := by
  unfold pushValue; split <;> simp <;> omega

theorem powerTake_sound (i) (s : State) : Sound s (powerTake i s) := by
  refine ⟨rfl, rfl, rfl, fun k => ⟨k.memory, k.rewrites, k.intake, ?_, k.sequence⟩⟩
  intro c hc
  simp only [powerTake, takeValue] at hc
  split at hc
  · simp only [List.mem_map] at hc
    obtain ⟨d, hd, rfl⟩ := hc
    split
    · exact pushValue_length (k.cells d hd).2 _
    · exact k.cells d hd
  · simp only [List.mem_append, List.mem_singleton] at hc
    rcases hc with hc | rfl
    · exact k.cells c hc
    · simp

theorem clearCells_sound (o a b) (s : State) : Sound s (clearCells o a b s) :=
  ⟨rfl, rfl, rfl, fun k => ⟨k.memory, k.rewrites, k.intake, fun c hc => k.cells c (List.mem_of_mem_filter hc), k.sequence⟩⟩

theorem nextSequence_ne_zero (q : BitVec 8) : nextSequence q ≠ 0 := by
  unfold nextSequence; split
  · decide
  · next h => intro h0; apply h; exact BitVec.eq_sub_iff_add_eq.mpr h0

theorem evict_fields (m : Monitor) : (evict m).intake = m.intake ∧ (evict m).send = m.send := by
  unfold evict; repeat' split
  all_goals simp

theorem beginMeasure_sound (s : State) : Sound s (beginMeasure s) := by
  unfold beginMeasure; split
  · exact .refl s
  · exact ⟨rfl, rfl, rfl, fun k => ⟨k.memory, k.rewrites, by simpa [(evict_fields s.mon).1] using k.intake, k.cells, nextSequence_ne_zero _⟩⟩

theorem intakeJoin_length (i : IntakeEntry) (l : List IntakeEntry) : (intakeJoin i l).length ≤ 4 := by
  unfold intakeJoin; split <;> simp <;> omega

theorem sampleArrives_sound (f) (s : State) : Sound s (sampleArrives f s) := by
  simp only [sampleArrives]; split
  · exact .refl s
  · refine Sound.trans (t := if s.mon.linkUp = true then s else setLink true s) ?_ ?_
    · split
      · exact .refl s
      · exact .of_keeps (setLink_keeps _ s)
    · exact ⟨rfl, rfl, rfl, fun k => ⟨k.memory, k.rewrites, intakeJoin_length _ _, k.cells, k.sequence⟩⟩

theorem slip_sound (s : State) : Sound s (slip s) := by
  unfold slip
  refine Sound.trans (t := { s with mon := { s.mon with intake := [] } }) ?_ (.of_keeps (loseRequests_keeps _))
  exact ⟨rfl, rfl, rfl, fun k => ⟨k.memory, k.rewrites, by simp, k.cells, k.sequence⟩⟩

theorem takeIntake_sound (s : State) : Sound s (takeIntake s) := by
  unfold takeIntake; split
  · exact .refl s
  · next i rest h =>
    refine Sound.trans (t := { s with mon := { s.mon with intake := rest } })
      ⟨rfl, rfl, rfl, fun k => ⟨k.memory, k.rewrites, by have := k.intake; simp [h] at this ⊢; omega, k.cells, k.sequence⟩⟩ ?_
    generalize { s with mon := { s.mon with intake := rest } } = u
    simp only []
    repeat' split
    all_goals first
      | exact powerTake_sound _ _
      | exact slip_sound _
      | exact (powerTake_sound _ _).trans (slip_sound _)
      | exact Sound.trans (.of_keeps (by simp [Keeps])) (slip_sound _)
      | exact Sound.trans (.of_keeps (by simp [Keeps])) (powerTake_sound _ _)
      | exact Sound.trans (Sound.trans (.of_keeps (by simp [Keeps])) (powerTake_sound _ _)) (.of_keeps (handSample_keeps _ _ _))
      | exact Sound.of_keeps (by simp [Keeps])

/-! ### Fetch, resume, rebuild, re-read, scrub -/

theorem recordFetched_sound (r) (s : State) : Sound s (recordFetched r s) := by
  unfold recordFetched; split
  · exact .refl s
  · next m _ =>
    have h := readBurst_sound .fetch (pageAddr m.staging (offRecord r)) 3 s
    generalize readBurst .fetch (pageAddr m.staging (offRecord r)) 3 s = x at h ⊢
    obtain ⟨u, ws⟩ := x
    refine h.trans ?_
    simp only []; repeat' split
    all_goals exact .of_keeps (by simp [Keeps])

theorem masksFetched_sound (s : State) : Sound s (masksFetched s) := by
  unfold masksFetched; split
  · exact .refl s
  · next m _ =>
    have h := readBurst_sound .fetch (pageAddr m.status 4) 2 s
    generalize readBurst .fetch (pageAddr m.status 4) 2 s = x at h ⊢
    obtain ⟨u, ws⟩ := x
    refine h.trans ?_
    simp only []; repeat' split
    all_goals exact .of_keeps (by simp [Keeps])

theorem cacheProfile_sound (q k) (s : State) : Sound s (cacheProfile q k s) := by
  unfold cacheProfile; split
  · exact .refl s
  · next m _ =>
    have h := readBurst_sound q (pageAddr m.status (offProfile k.val)) 4 s
    generalize readBurst q (pageAddr m.status (offProfile k.val)) 4 s = x at h ⊢
    obtain ⟨u, ws⟩ := x
    refine h.trans ?_
    simp only []; repeat' split
    all_goals exact .of_keeps (by simp [Keeps])

theorem profileFetched_sound (k) (s : State) : Sound s (profileFetched k s) := by
  unfold profileFetched; split
  all_goals exact (cacheProfile_sound .fetch k s).trans (.of_keeps (by simp [Keeps]))

theorem resumeWordRead_sound (k) (s : State) : Sound s (resumeWordRead k s) := by
  unfold resumeWordRead; split
  · exact .refl s
  · next m _ =>
    have h := readWord_sound .fetch (pageAddr m.save (offSlot k + 44)) s
    generalize readWord .fetch (pageAddr m.save (offSlot k + 44)) s = x at h ⊢
    obtain ⟨u, ws⟩ := x
    refine h.trans ?_
    simp only []; repeat' split
    all_goals exact .of_keeps (by simp [Keeps])

theorem readAnchor_sound (s : State) : Sound s (readAnchor s).1 := by
  have h := readBurstOf_sound (anchorMem s) .rebuild (pageAddr s.win.anchorPage 16) 3 s
  unfold readAnchor
  generalize readBurstOf (anchorMem s) .rebuild (pageAddr s.win.anchorPage 16) 3 s = x at h ⊢
  exact h.trans (.of_keeps (by simp [Keeps]))

theorem rebuildAnchor_sound (s : State) : Sound s (rebuildAnchor s) := by
  have h := readAnchor_sound s
  unfold rebuildAnchor; split <;> next heq => rw [heq] at h; exact h.trans (.of_keeps (by simp [Keeps]))

theorem unconfiguredAnchor_sound (s : State) : Sound s (unconfiguredAnchor s) := by
  have h := readAnchor_sound s
  unfold unconfiguredAnchor
  generalize readAnchor s = x at h ⊢
  obtain ⟨u, c⟩ := x
  simp only []; repeat' split
  all_goals exact h.trans (.of_keeps (by simp [Keeps]))

theorem rebuildProfile_sound (k) (s : State) : Sound s (rebuildProfile k s) := by
  unfold rebuildProfile; split
  all_goals exact (cacheProfile_sound .rebuild k s).trans (.of_keeps (by simp [Keeps]))

theorem rebuildActive_sound (r) (s : State) : Sound s (rebuildActive r s) := by
  unfold rebuildActive; split
  · exact .refl s
  · next m _ =>
    have h := readBurst_sound .rebuild (pageAddr m.active (offRecord r)) 4 s
    generalize readBurst .rebuild (pageAddr m.active (offRecord r)) 4 s = x at h ⊢
    obtain ⟨u, ws⟩ := x
    refine h.trans ?_
    simp only []; repeat' split
    all_goals exact .of_keeps (by simp [Keeps])

theorem rebuildHeader_sound (s : State) : Sound s (rebuildHeader s) := by
  unfold rebuildHeader; split
  · exact .refl s
  · next m _ =>
    have h := readWord_sound .rebuild (pageAddr m.save offHeader) s
    generalize readWord .rebuild (pageAddr m.save offHeader) s = x at h ⊢
    obtain ⟨u, ws⟩ := x
    refine h.trans ?_
    simp only []; repeat' split
    all_goals exact .of_keeps (by simp [Keeps])

theorem rebuildSlot_sound (k) (s : State) : Sound s (rebuildSlot k s) := by
  unfold rebuildSlot; split
  · exact .refl s
  · next m _ =>
    have h := readBurst_sound .rebuild (pageAddr m.save (offSlot k + 48)) 4 s
    generalize readBurst .rebuild (pageAddr m.save (offSlot k + 48)) 4 s = x at h ⊢
    obtain ⟨u, ws⟩ := x
    refine h.trans ?_
    simp only []; repeat' split
    all_goals exact .of_keeps (by simp [Keeps])

theorem rebuildTail_sound (k) (s : State) : Sound s (rebuildTail k s) := by
  unfold rebuildTail; split
  · exact .refl s
  · next m _ =>
    have h := readWord_sound .rebuild (pageAddr m.save (offSlot k)) s
    generalize readWord .rebuild (pageAddr m.save (offSlot k)) s = x at h ⊢
    obtain ⟨u, ws⟩ := x
    refine h.trans ?_
    simp only []; repeat' split
    all_goals exact .of_keeps (by simp [Keeps])

theorem newHalfRead_sound (i) (s : State) : Sound s (newHalfRead i s) := by
  unfold newHalfRead; split
  · exact .refl s
  · next m _ =>
    have h := readBurst_sound .rebuild (pageAddr m.staging (offRecord i.no)) 3 s
    generalize readBurst .rebuild (pageAddr m.staging (offRecord i.no)) 3 s = x at h ⊢
    obtain ⟨u, ws⟩ := x
    refine h.trans ?_
    simp only []; repeat' split
    all_goals exact .of_keeps (by simp [Keeps])

theorem rebuildEnds_sound (s : State) : Sound s (rebuildEnds s) := by
  unfold rebuildEnds
  refine Sound.trans ?_ (.of_plan (foldl_plan _ (by simp) _ _))
  refine Sound.trans ?_ (Sound.foldl (fun s d => by split <;> first | exact .refl s | exact .of_keeps (by simp [Keeps])) _ _)
  have h : Sound s (endBatchWord { s with start := { s.start with stage := .none, newHalves := [] } }) :=
    .of_keeps (by simp [Keeps])
  exact h.trans (.of_keeps (by simp [Keeps]))

theorem comparisonRead_sound (r) (s : State) : Sound s (comparisonRead r s) := by
  unfold comparisonRead; split
  · exact .refl s
  · next m _ =>
    have h := readBurst_sound .rebuild (pageAddr m.staging (offRecord r)) 3 s
    generalize readBurst .rebuild (pageAddr m.staging (offRecord r)) 3 s = x at h ⊢
    obtain ⟨u, ws⟩ := x
    refine h.trans ?_
    simp only []; repeat' split
    all_goals first
      | exact rebuildEnds_sound _
      | exact Sound.trans (.of_keeps (touch_keeps _ _)) (rebuildEnds_sound _)
      | exact .of_keeps (by simp [Keeps])

theorem rereadAnchor_sound (s : State) : Sound s (rereadAnchor s) := by
  have h := readAnchor_sound s
  unfold rereadAnchor; split <;> next heq => rw [heq] at h; exact h.trans (.of_keeps (by simp [Keeps]))

theorem scrubDone_sound (a) (s : State) : Sound s (scrubDone a s) := by
  have h := readWord_sound .scrub a s
  unfold scrubDone
  generalize readWord .scrub a s = x at h ⊢
  obtain ⟨u, w, bad⟩ := x
  refine h.trans ?_
  simp only []; repeat' split
  all_goals exact .of_keeps (by simp [Keeps])

theorem ackAccepted_sound (t) (s : State) : Sound s (ackAccepted t s) := by
  unfold ackAccepted
  refine Sound.trans (t := { s with act := { s.act with txn := none } }) (.of_keeps (by simp [Keeps])) ?_
  simp only []; repeat' split
  all_goals first
    | exact (clearCells_sound _ _ _ _).trans (.of_keeps (routeApplied_keeps _ _))
    | exact (clearCells_sound _ _ _ _).trans (.of_keeps (refreshBurst_keeps _ _ _))
    | exact .of_keeps (by simp [Keeps])

theorem ackArrives_sound (k h) (s : State) : Sound s (ackArrives k h s) := by
  unfold ackArrives; repeat' split
  all_goals first
    | exact .refl s
    | exact ackAccepted_sound _ s
    | exact .of_keeps (by simp [Keeps])

/-! ### The host's beats -/

theorem writeMemory_sound (b) (s : State) : Sound s (writeMemory b s).1 := by
  simp only [writeMemory]; repeat' split
  all_goals first
    | exact storeWord_sound _ _ s
    | exact (Sound.of_keeps (by simp [Keeps])).trans (storeWord_sound _ _ _)
    | exact .of_keeps (by simp [Keeps])

theorem rewriteAttention_sound (b) (s : State) : Sound s (rewriteAttention b s) := by
  unfold rewriteAttention
  exact Sound.trans (.of_keeps (acknowledgeCauses_keeps _ s)) (storeWord_sound _ _ _)

theorem carryBeat_sound (b) (s : State) : Sound s (carryBeat b s) := by
  unfold carryBeat; split
  · have h := writeMemory_sound b s
    unfold carryWrite; split
    · exact .of_keeps (endBeat_keeps _ _ _ _)
    · split
      · exact .of_keeps (by simp [Keeps])
      · exact (rewriteAttention_sound b s).trans (.of_keeps (endBeat_keeps _ _ _ _))
      · generalize writeMemory b s = x at h ⊢
        obtain ⟨u, ok⟩ := x
        refine h.trans ?_
        simp only []; split
        all_goals exact .of_keeps (by simp [Keeps])
  · have h := readWord_sound .hostRead b.word s
    unfold carryRead
    generalize readWord .hostRead b.word s = x at h ⊢
    exact h.trans (.of_keeps (endBeat_keeps _ _ _ _))

/-- A change of the bus alone. -/
theorem Sound.bus (s : State) (b : BusPort) : Sound s { s with bus := b } :=
  ⟨rfl, rfl, rfl, fun k => ⟨k.memory, k.rewrites, k.intake, k.cells, k.sequence⟩⟩

theorem grantHost_sound (s : State) : Sound s (grantHost s) := by
  unfold grantHost
  refine Sound.trans ?_ (.bus _ _)
  split
  · exact .refl s
  · exact Sound.foldl (fun s r => (Sound.of_keeps (by simp [Keeps])).trans (carryOut_sound _ _)) _ _

theorem letBeat_sound (b) (s : State) : Sound s (letBeat b s) := by
  unfold letBeat; split
  · exact (grantHost_sound s).trans (carryBeat_sound _ _)
  · exact carryBeat_sound _ _

theorem hostBeat_sound (b) (s : State) : Sound s (hostBeat b s) := by
  unfold hostBeat; split
  · exact .bus s _
  · exact letBeat_sound b s

theorem releaseBeat_sound {s t : State} (h : releaseBeat s = some t) : Sound s t := by
  unfold releaseBeat at h
  repeat' split at h
  all_goals first
    | (simp at h; done)
    | (simp only [Option.some.injEq] at h; subst h
       first
         | exact (Sound.bus s _).trans (letBeat_sound _ _)
         | exact Sound.bus s _)

theorem releaseBeats_sound (n) (s : State) : Sound s (releaseBeats n s) := by
  induction n generalizing s with
  | zero => exact .refl s
  | succ n ih =>
    unfold releaseBeats; split
    · next h => exact (releaseBeat_sound h).trans (ih _)
    · exact .refl s

/-! ### What follows by itself -/

theorem settleStep_sound {s t : State} (h : settleStep s = some t) : Sound s t := by
  simp only [settleStep, Option.orElse_eq_orElse, Option.orElse_eq_or, Option.or_eq_some_iff] at h
  rcases h with h | ⟨-, h | ⟨-, h | ⟨-, h | ⟨-, h | ⟨-, h | ⟨-, h | ⟨-, h⟩⟩⟩⟩⟩⟩⟩
  · exact .of_plan (buildCapture_plan h)
  · exact releaseBeat_sound h
  · exact .of_plan (placeWaiting_plan h)
  · exact .of_plan (grantStep_plan h)
  · exact .of_plan (continueCheck_plan h)
  · exact .of_plan (pumpBatch_plan h)
  · exact .of_plan (refreshEnded_plan h)
  · exact .of_plan (beginRestore_plan h)

theorem settle_sound (n) (s : State) : Sound s (settle n s) := by
  induction n generalizing s with
  | zero => exact .refl s
  | succ n ih =>
    unfold settle; split
    · next h => exact (settleStep_sound h).trans (ih _)
    · exact .refl s

theorem event_sound {f : State → State} (hf : ∀ s, Sound s (f s)) {s t : State} (h : event s f = .next t) : Sound s t := by
  unfold event running at h
  split at h
  · cases h; exact .refl s
  · cases h
    exact ((Sound.of_keeps (fresh_keeps s)).trans (hf _)).trans (settle_sound _ _)

theorem beatEvent_sound {b : Beat} {s t : State} (h : beatEvent s b = .next t) : Sound s t := by
  unfold beatEvent at h
  split at h
  · cases h; exact .of_keeps (by simp [Keeps, resetBeat])
  · exact event_sound (hostBeat_sound b) h

theorem rowEvent_sound {want} {f : PortReq → State → State} (hf : ∀ r s, Sound s (f r s)) {s t : State}
    (h : rowEvent s want f = .next t) : Sound s t := by
  refine event_sound (fun s => ?_) h
  split
  · next heq => exact (takeRow_sound heq).trans (hf _ _)
  · exact .refl s

/-! ### One base tick -/

/-- What one base tick leaves alone: all of `Keeps` but the queue. -/
abbrev TickKeeps (s t : State) : Prop :=
  t.win.anchorPage = s.win.anchorPage ∧ t.start.inReset = s.start.inReset ∧ t.mem = s.mem ∧
    t.integ.rewrites = s.integ.rewrites ∧ t.mon.intake = s.mon.intake ∧ t.power = s.power ∧ t.mon.nextSeq = s.mon.nextSeq

theorem foldl_tickKeeps {α : Type} {f : State → α → State} (h : ∀ s a, TickKeeps s (f s a)) (l : List α) (s : State) :
    TickKeeps s (l.foldl f s) := by
  induction l generalizing s with
  | nil => simp [TickKeeps]
  | cons a l ih =>
    have h1 := h s a
    have h2 := ih (f s a)
    simp only [List.foldl_cons]
    simp_all [TickKeeps]

@[simp] theorem post_tickKeeps (c) (s : State) : TickKeeps s (post c s) := by simp [TickKeeps, post]
@[simp] theorem tickLos_tickKeeps (d) (s : State) : TickKeeps s (tickLos s d) := by
  simp only [tickLos]; repeat' split
  all_goals simp [TickKeeps]
@[simp] theorem tickPfw_tickKeeps (s : State) : TickKeeps s (tickPfw s) := by
  simp only [tickPfw]; repeat' split
  all_goals simp [TickKeeps]
@[simp] theorem tickEngine_tickKeeps (b e) (s : State) : TickKeeps s (tickEngine b s e) := by
  simp only [tickEngine]; repeat' split
  all_goals simp [TickKeeps]
@[simp] theorem tickRamp_tickKeeps (s : State) : TickKeeps s (tickRamp s) := by
  have h := fun b t => foldl_tickKeeps (f := tickEngine b) (by simp [TickKeeps]) allEngines t
  simp only [tickRamp]; split <;> simp [TickKeeps, h]
@[simp] theorem tickMonitor_tickKeeps (s : State) : TickKeeps s (tickMonitor s) := by
  simp only [tickMonitor]; repeat' split
  all_goals simp [TickKeeps]
@[simp] theorem tickActuator_tickKeeps (s : State) : TickKeeps s (tickActuator s) := by
  simp only [tickActuator]; repeat' split
  all_goals simp [TickKeeps]
@[simp] theorem tickScrub_tickKeeps (s : State) : TickKeeps s (tickScrub s) := by
  simp only [tickScrub]; repeat' split
  all_goals simp [TickKeeps]
@[simp] theorem tickHoldOff_tickKeeps (d) (s : State) : TickKeeps s (tickHoldOff s d) := by
  simp only [tickHoldOff]; repeat' split
  all_goals simp [TickKeeps]
@[simp] theorem tickClock_tickKeeps (s : State) : TickKeeps s (tickClock s) := by
  have h := fun t => foldl_tickKeeps (f := tickHoldOff) (by simp [TickKeeps]) Degree.all t
  simp only [tickClock]; repeat' split
  all_goals simp [TickKeeps, h]
@[simp] theorem baseTick_tickKeeps (s : State) : TickKeeps s (baseTick s) := by
  have h := fun t => foldl_tickKeeps (f := tickLos) (by simp [TickKeeps]) Degree.all t
  simp [baseTick, TickKeeps, h]

end Sys2Proof.Machine
end

