-- ==== Sys2Proof/Laws/State.lean ====
section
/-! SUPPORT. The fields that each shared operation leaves alone, one lemma for each operation, and what it puts in the fields it changes. No later
proof needs to unfold a record update. -/

namespace Sys2Proof.Machine

/-- A statement about every degree is one about each of the four. -/
theorem degree_all (p : Degree → Prop) : (∀ d, p d) ↔ p .d1 ∧ p .d2 ∧ p .d3 ∧ p .d4 :=
  ⟨fun h => ⟨h _, h _, h _, h _⟩, fun h d => by cases d; exacts [h.1, h.2.1, h.2.2.1, h.2.2.2]⟩

/-! ### What the plainest operations put in the field they change -/

@[simp] theorem request_port (r) (s : State) : (request r s).port = s.port ++ [r] := rfl
@[simp] theorem requestStatus_port (r) (s : State) :
    (requestStatus r s).port = if s.win.map.isSome then s.port ++ [r] else s.port := by unfold requestStatus; split <;> rfl
@[simp] theorem withdrawReqs_port (p) (s : State) : (withdrawReqs p s).port = s.port.filter (fun r => !p r) := rfl
@[simp] theorem fresh_bus (s : State) :
    (fresh s).bus = { s.bus with finished := [], ready := false, error := false } := rfl
@[simp] theorem storeWord_mem (a w) (s : State) : (storeWord a w s).mem = s.mem.storeWord a w := rfl
@[simp] theorem storeWord_rewrites (a w) (s : State) : (storeWord a w s).integ.rewrites = overtaken a s.integ.rewrites := rfl
@[simp] theorem setEngine_ramp (e g) (s : State) : (setEngine e g s).ramp = { s.ramp with engines := s.ramp.engines.set e g } := rfl
@[simp] theorem updateEntry_queue (r f) (s : State) :
    (updateEntry r f s).queue = s.queue.map (fun e => if e.no = r then f e else e) := rfl
@[simp] theorem touch_touched (r) (s : State) : (touch r s).touched = joinSet r s.touched := rfl
@[simp] theorem writeBatchState_shown (b) (s : State) : (writeBatchState b s).seqr.shown = b := by
  unfold writeBatchState requestStatus; split <;> rfl
@[simp] theorem enterState_st (st w) (s : State) : (enterState st w s).seqr.st = st := by
  unfold enterState writeBatchState requestStatus; split <;> rfl
@[simp] theorem respond_lastResp (q c r) (s : State) : (respond q c r s).seqr.lastResp = responseWord q c r := rfl
@[simp] theorem writeCounters_counters (c) (s : State) : (writeCounters c s).batch.counters = c := by
  unfold writeCounters requestStatus; split <;> rfl
@[simp] theorem setHoldOff_holdOff (d n) (s : State) : (setHoldOff d n s).light.holdOff = s.light.holdOff.set d n := rfl
@[simp] theorem powerTake_power (i) (s : State) : (powerTake i s).power = takeValue i.point i.slot i.value s.power := rfl

@[simp] theorem anchorMem_reread {s : State} {m : Memory} (h : s.start.anchorSeen = some m) : anchorMem s = m := by simp [anchorMem, h]
@[simp] theorem anchorMem_other {s : State} (h : s.start.anchorSeen = none) : anchorMem s = s.mem := by simp [anchorMem, h]
@[simp] theorem takeReread_anchorSeen (s : State) : (takeReread s).start.anchorSeen = some s.mem := rfl
@[simp] theorem readAnchor_anchorSeen (s : State) : (readAnchor s).1.start.anchorSeen = none := rfl

/-! ### Running and requests -/

@[simp] theorem fresh_leaves (s : State) :
    (fresh s).mem = s.mem ∧ (fresh s).win = s.win ∧ (fresh s).holds = s.holds ∧ (fresh s).prot = s.prot ∧ (fresh s).port =
      s.port ∧ (fresh s).seqr = s.seqr ∧ (fresh s).batch = s.batch ∧ (fresh s).touched = s.touched ∧ (fresh s).queue = s.queue
      ∧ (fresh s).profiles = s.profiles ∧ (fresh s).table = s.table ∧ (fresh s).ramp = s.ramp ∧ (fresh s).mon = s.mon ∧ (fresh
      s).power = s.power ∧ (fresh s).act = s.act ∧ (fresh s).light = s.light ∧ (fresh s).intr = s.intr ∧ (fresh s).integ =
      s.integ ∧ (fresh s).attn = s.attn ∧ (fresh s).start = s.start ∧ (fresh s).clock = s.clock ∧ (fresh s).pending =
      s.pending := by
  simp only [fresh]; (repeat' split) <;> simp
@[simp] theorem request_leaves (r) (s : State) :
    (request r s).mem = s.mem ∧ (request r s).bus = s.bus ∧ (request r s).win = s.win ∧ (request r s).holds = s.holds ∧
      (request r s).prot = s.prot ∧ (request r s).seqr = s.seqr ∧ (request r s).batch = s.batch ∧ (request r s).touched =
      s.touched ∧ (request r s).queue = s.queue ∧ (request r s).profiles = s.profiles ∧ (request r s).table = s.table ∧
      (request r s).ramp = s.ramp ∧ (request r s).mon = s.mon ∧ (request r s).power = s.power ∧ (request r s).act = s.act ∧
      (request r s).light = s.light ∧ (request r s).intr = s.intr ∧ (request r s).integ = s.integ ∧ (request r s).attn =
      s.attn ∧ (request r s).start = s.start ∧ (request r s).clock = s.clock ∧ (request r s).pending = s.pending := by
  simp only [request]; (repeat' split) <;> simp
@[simp] theorem requestStatus_leaves (r) (s : State) :
    (requestStatus r s).mem = s.mem ∧ (requestStatus r s).bus = s.bus ∧ (requestStatus r s).win = s.win ∧ (requestStatus r
      s).holds = s.holds ∧ (requestStatus r s).prot = s.prot ∧ (requestStatus r s).seqr = s.seqr ∧ (requestStatus r s).batch =
      s.batch ∧ (requestStatus r s).touched = s.touched ∧ (requestStatus r s).queue = s.queue ∧ (requestStatus r s).profiles =
      s.profiles ∧ (requestStatus r s).table = s.table ∧ (requestStatus r s).ramp = s.ramp ∧ (requestStatus r s).mon = s.mon ∧
      (requestStatus r s).power = s.power ∧ (requestStatus r s).act = s.act ∧ (requestStatus r s).light = s.light ∧
      (requestStatus r s).intr = s.intr ∧ (requestStatus r s).integ = s.integ ∧ (requestStatus r s).attn = s.attn ∧
      (requestStatus r s).start = s.start ∧ (requestStatus r s).clock = s.clock ∧ (requestStatus r s).pending = s.pending := by
  simp only [requestStatus]; (repeat' split) <;> simp
@[simp] theorem requestAttention_leaves (s : State) :
    (requestAttention s).mem = s.mem ∧ (requestAttention s).bus = s.bus ∧ (requestAttention s).win = s.win ∧
      (requestAttention s).holds = s.holds ∧ (requestAttention s).prot = s.prot ∧ (requestAttention s).seqr = s.seqr ∧
      (requestAttention s).batch = s.batch ∧ (requestAttention s).touched = s.touched ∧ (requestAttention s).queue = s.queue ∧
      (requestAttention s).profiles = s.profiles ∧ (requestAttention s).table = s.table ∧ (requestAttention s).ramp = s.ramp ∧
      (requestAttention s).mon = s.mon ∧ (requestAttention s).power = s.power ∧ (requestAttention s).act = s.act ∧
      (requestAttention s).light = s.light ∧ (requestAttention s).intr = s.intr ∧ (requestAttention s).integ = s.integ ∧
      (requestAttention s).attn = s.attn ∧ (requestAttention s).start = s.start ∧ (requestAttention s).clock = s.clock ∧
      (requestAttention s).pending = s.pending := by
  simp only [requestAttention]; (repeat' split) <;> simp
@[simp] theorem withdrawReqs_leaves (p) (s : State) :
    (withdrawReqs p s).mem = s.mem ∧ (withdrawReqs p s).bus = s.bus ∧ (withdrawReqs p s).win = s.win ∧ (withdrawReqs p
      s).holds = s.holds ∧ (withdrawReqs p s).prot = s.prot ∧ (withdrawReqs p s).seqr = s.seqr ∧ (withdrawReqs p s).batch =
      s.batch ∧ (withdrawReqs p s).touched = s.touched ∧ (withdrawReqs p s).queue = s.queue ∧ (withdrawReqs p s).profiles =
      s.profiles ∧ (withdrawReqs p s).table = s.table ∧ (withdrawReqs p s).ramp = s.ramp ∧ (withdrawReqs p s).mon = s.mon ∧
      (withdrawReqs p s).power = s.power ∧ (withdrawReqs p s).act = s.act ∧ (withdrawReqs p s).light = s.light ∧ (withdrawReqs
      p s).intr = s.intr ∧ (withdrawReqs p s).integ = s.integ ∧ (withdrawReqs p s).attn = s.attn ∧ (withdrawReqs p s).start =
      s.start ∧ (withdrawReqs p s).clock = s.clock ∧ (withdrawReqs p s).pending = s.pending := by
  simp only [withdrawReqs]; (repeat' split) <;> simp
@[simp] theorem raiseCause_leaves (c) (s : State) :
    (raiseCause c s).mem = s.mem ∧ (raiseCause c s).bus = s.bus ∧ (raiseCause c s).win = s.win ∧ (raiseCause c s).holds =
      s.holds ∧ (raiseCause c s).prot = s.prot ∧ (raiseCause c s).seqr = s.seqr ∧ (raiseCause c s).batch = s.batch ∧
      (raiseCause c s).touched = s.touched ∧ (raiseCause c s).queue = s.queue ∧ (raiseCause c s).profiles = s.profiles ∧
      (raiseCause c s).table = s.table ∧ (raiseCause c s).ramp = s.ramp ∧ (raiseCause c s).mon = s.mon ∧ (raiseCause c
      s).power = s.power ∧ (raiseCause c s).act = s.act ∧ (raiseCause c s).light = s.light ∧ (raiseCause c s).intr = s.intr ∧
      (raiseCause c s).integ = s.integ ∧ (raiseCause c s).start = s.start ∧ (raiseCause c s).clock = s.clock ∧ (raiseCause c
      s).pending = s.pending := by
  simp only [raiseCause]; (repeat' split) <;> simp
@[simp] theorem setEnables_leaves (e) (s : State) :
    (setEnables e s).mem = s.mem ∧ (setEnables e s).bus = s.bus ∧ (setEnables e s).win = s.win ∧ (setEnables e s).holds =
      s.holds ∧ (setEnables e s).prot = s.prot ∧ (setEnables e s).seqr = s.seqr ∧ (setEnables e s).batch = s.batch ∧
      (setEnables e s).touched = s.touched ∧ (setEnables e s).queue = s.queue ∧ (setEnables e s).profiles = s.profiles ∧
      (setEnables e s).table = s.table ∧ (setEnables e s).ramp = s.ramp ∧ (setEnables e s).mon = s.mon ∧ (setEnables e
      s).power = s.power ∧ (setEnables e s).act = s.act ∧ (setEnables e s).light = s.light ∧ (setEnables e s).intr = s.intr ∧
      (setEnables e s).integ = s.integ ∧ (setEnables e s).start = s.start ∧ (setEnables e s).clock = s.clock ∧ (setEnables e
      s).pending = s.pending := by
  simp only [setEnables]; (repeat' split) <;> simp

/-! ### Memory, integrity, protection -/

@[simp] theorem storeWord_leaves (a w) (s : State) :
    (storeWord a w s).bus = s.bus ∧ (storeWord a w s).win = s.win ∧ (storeWord a w s).holds = s.holds ∧ (storeWord a w
      s).prot = s.prot ∧ (storeWord a w s).port = s.port ∧ (storeWord a w s).seqr = s.seqr ∧ (storeWord a w s).batch = s.batch
      ∧ (storeWord a w s).touched = s.touched ∧ (storeWord a w s).queue = s.queue ∧ (storeWord a w s).profiles = s.profiles ∧
      (storeWord a w s).table = s.table ∧ (storeWord a w s).ramp = s.ramp ∧ (storeWord a w s).mon = s.mon ∧ (storeWord a w
      s).power = s.power ∧ (storeWord a w s).act = s.act ∧ (storeWord a w s).light = s.light ∧ (storeWord a w s).intr = s.intr
      ∧ (storeWord a w s).attn = s.attn ∧ (storeWord a w s).start = s.start ∧ (storeWord a w s).clock = s.clock ∧ (storeWord a
      w s).pending = s.pending := by
  simp only [storeWord]; (repeat' split) <;> simp
@[simp] theorem storeBurst_leaves (a ws) (s : State) :
    (storeBurst a ws s).bus = s.bus ∧ (storeBurst a ws s).win = s.win ∧ (storeBurst a ws s).holds = s.holds ∧ (storeBurst a
      ws s).prot = s.prot ∧ (storeBurst a ws s).port = s.port ∧ (storeBurst a ws s).seqr = s.seqr ∧ (storeBurst a ws s).batch
      = s.batch ∧ (storeBurst a ws s).touched = s.touched ∧ (storeBurst a ws s).queue = s.queue ∧ (storeBurst a ws s).profiles
      = s.profiles ∧ (storeBurst a ws s).table = s.table ∧ (storeBurst a ws s).ramp = s.ramp ∧ (storeBurst a ws s).mon = s.mon
      ∧ (storeBurst a ws s).power = s.power ∧ (storeBurst a ws s).act = s.act ∧ (storeBurst a ws s).light = s.light ∧
      (storeBurst a ws s).intr = s.intr ∧ (storeBurst a ws s).attn = s.attn ∧ (storeBurst a ws s).start = s.start ∧
      (storeBurst a ws s).clock = s.clock ∧ (storeBurst a ws s).pending = s.pending := by
  induction ws generalizing a s with
  | nil => simp [storeBurst]
  | cons w ws ih => have h := ih (a + 4) (storeWord a w s); simp_all [storeBurst]
@[simp] theorem reportFault_leaves (k q a y) (s : State) :
    (reportFault k q a y s).mem = s.mem ∧ (reportFault k q a y s).bus = s.bus ∧ (reportFault k q a y s).win = s.win ∧
      (reportFault k q a y s).holds = s.holds ∧ (reportFault k q a y s).prot = s.prot ∧ (reportFault k q a y s).seqr = s.seqr
      ∧ (reportFault k q a y s).batch = s.batch ∧ (reportFault k q a y s).touched = s.touched ∧ (reportFault k q a y s).queue
      = s.queue ∧ (reportFault k q a y s).profiles = s.profiles ∧ (reportFault k q a y s).table = s.table ∧ (reportFault k q a
      y s).ramp = s.ramp ∧ (reportFault k q a y s).mon = s.mon ∧ (reportFault k q a y s).power = s.power ∧ (reportFault k q a
      y s).act = s.act ∧ (reportFault k q a y s).light = s.light ∧ (reportFault k q a y s).intr = s.intr ∧ (reportFault k q a
      y s).start = s.start ∧ (reportFault k q a y s).clock = s.clock ∧ (reportFault k q a y s).pending = s.pending := by
  simp only [reportFault]; (repeat' split) <;> simp
@[simp] theorem clearFault_leaves (s : State) :
    (clearFault s).mem = s.mem ∧ (clearFault s).bus = s.bus ∧ (clearFault s).win = s.win ∧ (clearFault s).holds = s.holds ∧
      (clearFault s).prot = s.prot ∧ (clearFault s).seqr = s.seqr ∧ (clearFault s).batch = s.batch ∧ (clearFault s).touched =
      s.touched ∧ (clearFault s).queue = s.queue ∧ (clearFault s).profiles = s.profiles ∧ (clearFault s).table = s.table ∧
      (clearFault s).ramp = s.ramp ∧ (clearFault s).mon = s.mon ∧ (clearFault s).power = s.power ∧ (clearFault s).act = s.act
      ∧ (clearFault s).light = s.light ∧ (clearFault s).intr = s.intr ∧ (clearFault s).attn = s.attn ∧ (clearFault s).start =
      s.start ∧ (clearFault s).clock = s.clock ∧ (clearFault s).pending = s.pending := by
  simp only [clearFault]; (repeat' split) <;> simp
@[simp] theorem addRewrite_leaves (a w) (s : State) :
    (addRewrite a w s).mem = s.mem ∧ (addRewrite a w s).bus = s.bus ∧ (addRewrite a w s).win = s.win ∧ (addRewrite a w
      s).holds = s.holds ∧ (addRewrite a w s).prot = s.prot ∧ (addRewrite a w s).port = s.port ∧ (addRewrite a w s).seqr =
      s.seqr ∧ (addRewrite a w s).batch = s.batch ∧ (addRewrite a w s).touched = s.touched ∧ (addRewrite a w s).queue =
      s.queue ∧ (addRewrite a w s).profiles = s.profiles ∧ (addRewrite a w s).table = s.table ∧ (addRewrite a w s).ramp =
      s.ramp ∧ (addRewrite a w s).mon = s.mon ∧ (addRewrite a w s).power = s.power ∧ (addRewrite a w s).act = s.act ∧
      (addRewrite a w s).light = s.light ∧ (addRewrite a w s).intr = s.intr ∧ (addRewrite a w s).attn = s.attn ∧ (addRewrite a
      w s).start = s.start ∧ (addRewrite a w s).clock = s.clock ∧ (addRewrite a w s).pending = s.pending := by
  simp only [addRewrite]; (repeat' split) <;> simp
@[simp] theorem readWordOf_leaves (m q a) (s : State) :
    ((readWordOf m q a s).1).mem = s.mem ∧ ((readWordOf m q a s).1).bus = s.bus ∧
      ((readWordOf m q a s).1).win = s.win ∧ ((readWordOf m q a s).1).holds = s.holds ∧
      ((readWordOf m q a s).1).prot = s.prot ∧ ((readWordOf m q a s).1).seqr = s.seqr ∧
      ((readWordOf m q a s).1).batch = s.batch ∧ ((readWordOf m q a s).1).touched = s.touched ∧
      ((readWordOf m q a s).1).queue = s.queue ∧ ((readWordOf m q a s).1).profiles = s.profiles ∧
      ((readWordOf m q a s).1).table = s.table ∧ ((readWordOf m q a s).1).ramp = s.ramp ∧
      ((readWordOf m q a s).1).mon = s.mon ∧ ((readWordOf m q a s).1).power = s.power ∧
      ((readWordOf m q a s).1).act = s.act ∧ ((readWordOf m q a s).1).light = s.light ∧
      ((readWordOf m q a s).1).intr = s.intr ∧ ((readWordOf m q a s).1).start = s.start ∧
      ((readWordOf m q a s).1).clock = s.clock ∧ ((readWordOf m q a s).1).pending = s.pending := by
  unfold readWordOf; split
  · simp
  · simp only; split <;> simp
  · simp
@[simp] theorem readBurstOf_leaves (m q a n) (s : State) :
    ((readBurstOf m q a n s).1).mem = s.mem ∧ ((readBurstOf m q a n s).1).bus = s.bus ∧
      ((readBurstOf m q a n s).1).win = s.win ∧ ((readBurstOf m q a n s).1).holds = s.holds ∧
      ((readBurstOf m q a n s).1).prot = s.prot ∧ ((readBurstOf m q a n s).1).seqr = s.seqr ∧
      ((readBurstOf m q a n s).1).batch = s.batch ∧ ((readBurstOf m q a n s).1).touched = s.touched ∧
      ((readBurstOf m q a n s).1).queue = s.queue ∧ ((readBurstOf m q a n s).1).profiles = s.profiles ∧
      ((readBurstOf m q a n s).1).table = s.table ∧ ((readBurstOf m q a n s).1).ramp = s.ramp ∧
      ((readBurstOf m q a n s).1).mon = s.mon ∧ ((readBurstOf m q a n s).1).power = s.power ∧
      ((readBurstOf m q a n s).1).act = s.act ∧ ((readBurstOf m q a n s).1).light = s.light ∧
      ((readBurstOf m q a n s).1).intr = s.intr ∧ ((readBurstOf m q a n s).1).start = s.start ∧
      ((readBurstOf m q a n s).1).clock = s.clock ∧ ((readBurstOf m q a n s).1).pending = s.pending := by
  induction n generalizing a s with
  | zero => simp [readBurstOf]
  | succ n ih => have h := ih (a + 4) (readWordOf m q a s).1; simp_all [readBurstOf]
@[simp] theorem readWord_leaves (q a) (s : State) :
    ((readWord q a s).1).mem = s.mem ∧ ((readWord q a s).1).bus = s.bus ∧ ((readWord q a s).1).win = s.win ∧
      ((readWord q a s).1).holds = s.holds ∧ ((readWord q a s).1).prot = s.prot ∧ ((readWord q a s).1).seqr = s.seqr ∧
      ((readWord q a s).1).batch = s.batch ∧ ((readWord q a s).1).touched = s.touched ∧
      ((readWord q a s).1).queue = s.queue ∧ ((readWord q a s).1).profiles = s.profiles ∧
      ((readWord q a s).1).table = s.table ∧ ((readWord q a s).1).ramp = s.ramp ∧ ((readWord q a s).1).mon = s.mon ∧
      ((readWord q a s).1).power = s.power ∧ ((readWord q a s).1).act = s.act ∧ ((readWord q a s).1).light = s.light ∧
      ((readWord q a s).1).intr = s.intr ∧ ((readWord q a s).1).start = s.start ∧
      ((readWord q a s).1).clock = s.clock ∧ ((readWord q a s).1).pending = s.pending :=
  readWordOf_leaves s.mem q a s
@[simp] theorem readBurst_leaves (q a n) (s : State) :
    ((readBurst q a n s).1).mem = s.mem ∧ ((readBurst q a n s).1).bus = s.bus ∧ ((readBurst q a n s).1).win = s.win ∧
      ((readBurst q a n s).1).holds = s.holds ∧ ((readBurst q a n s).1).prot = s.prot ∧
      ((readBurst q a n s).1).seqr = s.seqr ∧ ((readBurst q a n s).1).batch = s.batch ∧
      ((readBurst q a n s).1).touched = s.touched ∧ ((readBurst q a n s).1).queue = s.queue ∧
      ((readBurst q a n s).1).profiles = s.profiles ∧ ((readBurst q a n s).1).table = s.table ∧
      ((readBurst q a n s).1).ramp = s.ramp ∧ ((readBurst q a n s).1).mon = s.mon ∧
      ((readBurst q a n s).1).power = s.power ∧ ((readBurst q a n s).1).act = s.act ∧
      ((readBurst q a n s).1).light = s.light ∧ ((readBurst q a n s).1).intr = s.intr ∧
      ((readBurst q a n s).1).start = s.start ∧ ((readBurst q a n s).1).clock = s.clock ∧
      ((readBurst q a n s).1).pending = s.pending :=
  readBurstOf_leaves s.mem q a n s
@[simp] theorem carryOut_leaves (r) (s : State) :
    (carryOut r s).bus = s.bus ∧ (carryOut r s).win = s.win ∧ (carryOut r s).holds = s.holds ∧ (carryOut r s).prot = s.prot ∧
      (carryOut r s).seqr = s.seqr ∧ (carryOut r s).batch = s.batch ∧ (carryOut r s).touched = s.touched ∧ (carryOut r
      s).queue = s.queue ∧ (carryOut r s).profiles = s.profiles ∧ (carryOut r s).table = s.table ∧ (carryOut r s).ramp =
      s.ramp ∧ (carryOut r s).mon = s.mon ∧ (carryOut r s).power = s.power ∧ (carryOut r s).act = s.act ∧ (carryOut r
      s).light = s.light ∧ (carryOut r s).intr = s.intr ∧ (carryOut r s).clock = s.clock ∧ (carryOut r s).pending = s.pending := by
  simp only [carryOut, readQuiet, readPart]; (repeat' split) <;> simp
/-- An access that is no read without a row writes its words, if it has any (R17). -/
theorem carryOut_writes {r : PortReq} {s : State} {a : Nat} {ws : List Word} (h : writeOf s r = some (a, ws)) :
    carryOut r s = storeBurst a ws s := by simp only [carryOut, h]
/-- An access that stores nothing is a read without a row, or nothing where its page is absent (R17). -/
theorem carryOut_reads {r : PortReq} {s : State} (h : writeOf s r = none) : carryOut r s = readQuiet r s := by simp only [carryOut, h]
@[simp] theorem reportRefusal_leaves (a) (s : State) :
    (reportRefusal a s).mem = s.mem ∧ (reportRefusal a s).bus = s.bus ∧ (reportRefusal a s).win = s.win ∧ (reportRefusal a
      s).holds = s.holds ∧ (reportRefusal a s).seqr = s.seqr ∧ (reportRefusal a s).batch = s.batch ∧ (reportRefusal a
      s).touched = s.touched ∧ (reportRefusal a s).queue = s.queue ∧ (reportRefusal a s).profiles = s.profiles ∧
      (reportRefusal a s).table = s.table ∧ (reportRefusal a s).ramp = s.ramp ∧ (reportRefusal a s).mon = s.mon ∧
      (reportRefusal a s).power = s.power ∧ (reportRefusal a s).act = s.act ∧ (reportRefusal a s).light = s.light ∧
      (reportRefusal a s).intr = s.intr ∧ (reportRefusal a s).integ = s.integ ∧ (reportRefusal a s).start = s.start ∧
      (reportRefusal a s).clock = s.clock ∧ (reportRefusal a s).pending = s.pending := by
  simp only [reportRefusal]; (repeat' split) <;> simp
@[simp] theorem clearProtection_leaves (s : State) :
    (clearProtection s).mem = s.mem ∧ (clearProtection s).bus = s.bus ∧ (clearProtection s).win = s.win ∧ (clearProtection
      s).holds = s.holds ∧ (clearProtection s).seqr = s.seqr ∧ (clearProtection s).batch = s.batch ∧ (clearProtection
      s).touched = s.touched ∧ (clearProtection s).queue = s.queue ∧ (clearProtection s).profiles = s.profiles ∧
      (clearProtection s).table = s.table ∧ (clearProtection s).ramp = s.ramp ∧ (clearProtection s).mon = s.mon ∧
      (clearProtection s).power = s.power ∧ (clearProtection s).act = s.act ∧ (clearProtection s).light = s.light ∧
      (clearProtection s).intr = s.intr ∧ (clearProtection s).integ = s.integ ∧ (clearProtection s).attn = s.attn ∧
      (clearProtection s).start = s.start ∧ (clearProtection s).clock = s.clock ∧ (clearProtection s).pending = s.pending := by
  simp only [clearProtection]; (repeat' split) <;> simp
@[simp] theorem endBeat_leaves (b w f) (s : State) :
    (endBeat b w f s).mem = s.mem ∧ (endBeat b w f s).win = s.win ∧ (endBeat b w f s).holds = s.holds ∧ (endBeat b w f
      s).prot = s.prot ∧ (endBeat b w f s).port = s.port ∧ (endBeat b w f s).seqr = s.seqr ∧ (endBeat b w f s).batch = s.batch
      ∧ (endBeat b w f s).touched = s.touched ∧ (endBeat b w f s).queue = s.queue ∧ (endBeat b w f s).profiles = s.profiles ∧
      (endBeat b w f s).table = s.table ∧ (endBeat b w f s).ramp = s.ramp ∧ (endBeat b w f s).mon = s.mon ∧ (endBeat b w f
      s).power = s.power ∧ (endBeat b w f s).act = s.act ∧ (endBeat b w f s).light = s.light ∧ (endBeat b w f s).intr = s.intr
      ∧ (endBeat b w f s).integ = s.integ ∧ (endBeat b w f s).attn = s.attn ∧ (endBeat b w f s).start = s.start ∧ (endBeat b w
      f s).clock = s.clock ∧ (endBeat b w f s).pending = s.pending := by
  simp only [endBeat]; (repeat' split) <;> simp

/-! ### Connection Table -/

@[simp] theorem setCompleted_leaves (r c) (s : State) :
    (setCompleted r c s).mem = s.mem ∧ (setCompleted r c s).bus = s.bus ∧ (setCompleted r c s).win = s.win ∧ (setCompleted r
      c s).holds = s.holds ∧ (setCompleted r c s).prot = s.prot ∧ (setCompleted r c s).port = s.port ∧ (setCompleted r c
      s).seqr = s.seqr ∧ (setCompleted r c s).batch = s.batch ∧ (setCompleted r c s).touched = s.touched ∧ (setCompleted r c
      s).queue = s.queue ∧ (setCompleted r c s).profiles = s.profiles ∧ (setCompleted r c s).ramp = s.ramp ∧ (setCompleted r c
      s).mon = s.mon ∧ (setCompleted r c s).power = s.power ∧ (setCompleted r c s).act = s.act ∧ (setCompleted r c s).light =
      s.light ∧ (setCompleted r c s).intr = s.intr ∧ (setCompleted r c s).integ = s.integ ∧ (setCompleted r c s).attn = s.attn
      ∧ (setCompleted r c s).start = s.start ∧ (setCompleted r c s).clock = s.clock ∧ (setCompleted r c s).pending = s.pending := by
  simp only [setCompleted]; (repeat' split) <;> simp
@[simp] theorem updatePath_leaves (pid f) (s : State) :
    (updatePath pid f s).mem = s.mem ∧ (updatePath pid f s).bus = s.bus ∧ (updatePath pid f s).win = s.win ∧ (updatePath pid
      f s).holds = s.holds ∧ (updatePath pid f s).prot = s.prot ∧ (updatePath pid f s).port = s.port ∧ (updatePath pid f
      s).seqr = s.seqr ∧ (updatePath pid f s).batch = s.batch ∧ (updatePath pid f s).touched = s.touched ∧ (updatePath pid f
      s).queue = s.queue ∧ (updatePath pid f s).profiles = s.profiles ∧ (updatePath pid f s).ramp = s.ramp ∧ (updatePath pid f
      s).mon = s.mon ∧ (updatePath pid f s).power = s.power ∧ (updatePath pid f s).act = s.act ∧ (updatePath pid f s).light =
      s.light ∧ (updatePath pid f s).intr = s.intr ∧ (updatePath pid f s).integ = s.integ ∧ (updatePath pid f s).attn = s.attn
      ∧ (updatePath pid f s).start = s.start ∧ (updatePath pid f s).clock = s.clock ∧ (updatePath pid f s).pending = s.pending := by
  simp only [updatePath]; (repeat' split) <;> simp
@[simp] theorem activeDue_leaves (r) (s : State) :
    (activeDue r s).mem = s.mem ∧ (activeDue r s).bus = s.bus ∧ (activeDue r s).win = s.win ∧ (activeDue r s).prot = s.prot
      ∧ (activeDue r s).seqr = s.seqr ∧ (activeDue r s).batch = s.batch ∧ (activeDue r s).touched = s.touched ∧ (activeDue r
      s).queue = s.queue ∧ (activeDue r s).profiles = s.profiles ∧ (activeDue r s).ramp = s.ramp ∧ (activeDue r s).mon = s.mon
      ∧ (activeDue r s).power = s.power ∧ (activeDue r s).act = s.act ∧ (activeDue r s).light = s.light ∧ (activeDue r s).intr
      = s.intr ∧ (activeDue r s).integ = s.integ ∧ (activeDue r s).attn = s.attn ∧ (activeDue r s).start = s.start ∧
      (activeDue r s).clock = s.clock ∧ (activeDue r s).pending = s.pending := by
  simp only [activeDue]; (repeat' split) <;> simp
@[simp] theorem fixCompleted_leaves (r c) (s : State) :
    (fixCompleted r c s).mem = s.mem ∧ (fixCompleted r c s).bus = s.bus ∧ (fixCompleted r c s).win = s.win ∧ (fixCompleted r
      c s).prot = s.prot ∧ (fixCompleted r c s).seqr = s.seqr ∧ (fixCompleted r c s).batch = s.batch ∧ (fixCompleted r c
      s).touched = s.touched ∧ (fixCompleted r c s).queue = s.queue ∧ (fixCompleted r c s).profiles = s.profiles ∧
      (fixCompleted r c s).ramp = s.ramp ∧ (fixCompleted r c s).mon = s.mon ∧ (fixCompleted r c s).power = s.power ∧
      (fixCompleted r c s).act = s.act ∧ (fixCompleted r c s).light = s.light ∧ (fixCompleted r c s).intr = s.intr ∧
      (fixCompleted r c s).integ = s.integ ∧ (fixCompleted r c s).attn = s.attn ∧ (fixCompleted r c s).start = s.start ∧
      (fixCompleted r c s).clock = s.clock ∧ (fixCompleted r c s).pending = s.pending := by
  simp only [fixCompleted]; (repeat' split) <;> simp
@[simp] theorem fixRecord_leaves (r v f) (s : State) :
    (fixRecord r v f s).mem = s.mem ∧ (fixRecord r v f s).bus = s.bus ∧ (fixRecord r v f s).win = s.win ∧ (fixRecord r v f
      s).prot = s.prot ∧ (fixRecord r v f s).seqr = s.seqr ∧ (fixRecord r v f s).batch = s.batch ∧ (fixRecord r v f s).touched
      = s.touched ∧ (fixRecord r v f s).queue = s.queue ∧ (fixRecord r v f s).profiles = s.profiles ∧ (fixRecord r v f s).ramp
      = s.ramp ∧ (fixRecord r v f s).mon = s.mon ∧ (fixRecord r v f s).power = s.power ∧ (fixRecord r v f s).act = s.act ∧
      (fixRecord r v f s).light = s.light ∧ (fixRecord r v f s).intr = s.intr ∧ (fixRecord r v f s).integ = s.integ ∧
      (fixRecord r v f s).attn = s.attn ∧ (fixRecord r v f s).start = s.start ∧ (fixRecord r v f s).clock = s.clock ∧
      (fixRecord r v f s).pending = s.pending := by
  simp only [fixRecord]; (repeat' split) <;> simp

/-! ### Monitor Port, Actuator Port, Ramp Bank -/

@[simp] theorem setEngine_leaves (e g) (s : State) :
    (setEngine e g s).mem = s.mem ∧ (setEngine e g s).bus = s.bus ∧ (setEngine e g s).win = s.win ∧ (setEngine e g s).holds
      = s.holds ∧ (setEngine e g s).prot = s.prot ∧ (setEngine e g s).port = s.port ∧ (setEngine e g s).seqr = s.seqr ∧
      (setEngine e g s).batch = s.batch ∧ (setEngine e g s).touched = s.touched ∧ (setEngine e g s).queue = s.queue ∧
      (setEngine e g s).profiles = s.profiles ∧ (setEngine e g s).table = s.table ∧ (setEngine e g s).mon = s.mon ∧ (setEngine
      e g s).power = s.power ∧ (setEngine e g s).act = s.act ∧ (setEngine e g s).light = s.light ∧ (setEngine e g s).intr =
      s.intr ∧ (setEngine e g s).integ = s.integ ∧ (setEngine e g s).attn = s.attn ∧ (setEngine e g s).start = s.start ∧
      (setEngine e g s).clock = s.clock ∧ (setEngine e g s).pending = s.pending := by
  simp only [setEngine]; (repeat' split) <;> simp
@[simp] theorem updateEngine_leaves (e f) (s : State) :
    (updateEngine e f s).mem = s.mem ∧ (updateEngine e f s).bus = s.bus ∧ (updateEngine e f s).win = s.win ∧ (updateEngine e
      f s).holds = s.holds ∧ (updateEngine e f s).prot = s.prot ∧ (updateEngine e f s).port = s.port ∧ (updateEngine e f
      s).seqr = s.seqr ∧ (updateEngine e f s).batch = s.batch ∧ (updateEngine e f s).touched = s.touched ∧ (updateEngine e f
      s).queue = s.queue ∧ (updateEngine e f s).profiles = s.profiles ∧ (updateEngine e f s).table = s.table ∧ (updateEngine e
      f s).mon = s.mon ∧ (updateEngine e f s).power = s.power ∧ (updateEngine e f s).act = s.act ∧ (updateEngine e f s).light
      = s.light ∧ (updateEngine e f s).intr = s.intr ∧ (updateEngine e f s).integ = s.integ ∧ (updateEngine e f s).attn =
      s.attn ∧ (updateEngine e f s).start = s.start ∧ (updateEngine e f s).clock = s.clock ∧ (updateEngine e f s).pending =
      s.pending := by
  simp only [updateEngine]; (repeat' split) <;> simp
@[simp] theorem askSample_leaves (e o n) (s : State) :
    (askSample e o n s).mem = s.mem ∧ (askSample e o n s).bus = s.bus ∧ (askSample e o n s).win = s.win ∧ (askSample e o n
      s).holds = s.holds ∧ (askSample e o n s).prot = s.prot ∧ (askSample e o n s).port = s.port ∧ (askSample e o n s).seqr =
      s.seqr ∧ (askSample e o n s).batch = s.batch ∧ (askSample e o n s).touched = s.touched ∧ (askSample e o n s).queue =
      s.queue ∧ (askSample e o n s).profiles = s.profiles ∧ (askSample e o n s).table = s.table ∧ (askSample e o n s).power =
      s.power ∧ (askSample e o n s).act = s.act ∧ (askSample e o n s).light = s.light ∧ (askSample e o n s).intr = s.intr ∧
      (askSample e o n s).integ = s.integ ∧ (askSample e o n s).attn = s.attn ∧ (askSample e o n s).start = s.start ∧
      (askSample e o n s).clock = s.clock ∧ (askSample e o n s).pending = s.pending := by
  simp only [askSample]; (repeat' split) <;> simp
@[simp] theorem giveUpSample_leaves (e) (s : State) :
    (giveUpSample e s).mem = s.mem ∧ (giveUpSample e s).bus = s.bus ∧ (giveUpSample e s).win = s.win ∧ (giveUpSample e
      s).holds = s.holds ∧ (giveUpSample e s).prot = s.prot ∧ (giveUpSample e s).port = s.port ∧ (giveUpSample e s).seqr =
      s.seqr ∧ (giveUpSample e s).batch = s.batch ∧ (giveUpSample e s).touched = s.touched ∧ (giveUpSample e s).queue =
      s.queue ∧ (giveUpSample e s).profiles = s.profiles ∧ (giveUpSample e s).table = s.table ∧ (giveUpSample e s).ramp =
      s.ramp ∧ (giveUpSample e s).power = s.power ∧ (giveUpSample e s).act = s.act ∧ (giveUpSample e s).light = s.light ∧
      (giveUpSample e s).intr = s.intr ∧ (giveUpSample e s).integ = s.integ ∧ (giveUpSample e s).attn = s.attn ∧ (giveUpSample
      e s).start = s.start ∧ (giveUpSample e s).clock = s.clock ∧ (giveUpSample e s).pending = s.pending := by
  simp only [giveUpSample]; (repeat' split) <;> simp
@[simp] theorem powerTake_leaves (i) (s : State) :
    (powerTake i s).mem = s.mem ∧ (powerTake i s).bus = s.bus ∧ (powerTake i s).win = s.win ∧ (powerTake i s).holds =
      s.holds ∧ (powerTake i s).prot = s.prot ∧ (powerTake i s).port = s.port ∧ (powerTake i s).seqr = s.seqr ∧ (powerTake i
      s).batch = s.batch ∧ (powerTake i s).touched = s.touched ∧ (powerTake i s).queue = s.queue ∧ (powerTake i s).profiles =
      s.profiles ∧ (powerTake i s).table = s.table ∧ (powerTake i s).ramp = s.ramp ∧ (powerTake i s).mon = s.mon ∧ (powerTake
      i s).act = s.act ∧ (powerTake i s).light = s.light ∧ (powerTake i s).intr = s.intr ∧ (powerTake i s).integ = s.integ ∧
      (powerTake i s).attn = s.attn ∧ (powerTake i s).start = s.start ∧ (powerTake i s).clock = s.clock ∧ (powerTake i
      s).pending = s.pending := by
  simp only [powerTake]; (repeat' split) <;> simp
@[simp] theorem clearCells_leaves (o a n) (s : State) :
    (clearCells o a n s).mem = s.mem ∧ (clearCells o a n s).bus = s.bus ∧ (clearCells o a n s).win = s.win ∧ (clearCells o a
      n s).holds = s.holds ∧ (clearCells o a n s).prot = s.prot ∧ (clearCells o a n s).port = s.port ∧ (clearCells o a n
      s).seqr = s.seqr ∧ (clearCells o a n s).batch = s.batch ∧ (clearCells o a n s).touched = s.touched ∧ (clearCells o a n
      s).queue = s.queue ∧ (clearCells o a n s).profiles = s.profiles ∧ (clearCells o a n s).table = s.table ∧ (clearCells o a
      n s).ramp = s.ramp ∧ (clearCells o a n s).mon = s.mon ∧ (clearCells o a n s).act = s.act ∧ (clearCells o a n s).light =
      s.light ∧ (clearCells o a n s).intr = s.intr ∧ (clearCells o a n s).integ = s.integ ∧ (clearCells o a n s).attn = s.attn
      ∧ (clearCells o a n s).start = s.start ∧ (clearCells o a n s).clock = s.clock ∧ (clearCells o a n s).pending = s.pending := by
  simp only [clearCells]; (repeat' split) <;> simp
@[simp] theorem setLink_leaves (up) (s : State) :
    (setLink up s).mem = s.mem ∧ (setLink up s).bus = s.bus ∧ (setLink up s).win = s.win ∧ (setLink up s).holds = s.holds ∧
      (setLink up s).prot = s.prot ∧ (setLink up s).seqr = s.seqr ∧ (setLink up s).batch = s.batch ∧ (setLink up s).touched =
      s.touched ∧ (setLink up s).queue = s.queue ∧ (setLink up s).profiles = s.profiles ∧ (setLink up s).table = s.table ∧
      (setLink up s).ramp = s.ramp ∧ (setLink up s).power = s.power ∧ (setLink up s).act = s.act ∧ (setLink up s).light =
      s.light ∧ (setLink up s).intr = s.intr ∧ (setLink up s).integ = s.integ ∧ (setLink up s).start = s.start ∧ (setLink up
      s).clock = s.clock ∧ (setLink up s).pending = s.pending := by
  simp only [setLink]; (repeat' split) <;> simp
@[simp] theorem tellLost_leaves (a) (s : State) :
    (tellLost a s).mem = s.mem ∧ (tellLost a s).bus = s.bus ∧ (tellLost a s).win = s.win ∧ (tellLost a s).holds = s.holds ∧
      (tellLost a s).prot = s.prot ∧ (tellLost a s).port = s.port ∧ (tellLost a s).seqr = s.seqr ∧ (tellLost a s).batch =
      s.batch ∧ (tellLost a s).touched = s.touched ∧ (tellLost a s).queue = s.queue ∧ (tellLost a s).profiles = s.profiles ∧
      (tellLost a s).table = s.table ∧ (tellLost a s).mon = s.mon ∧ (tellLost a s).power = s.power ∧ (tellLost a s).act =
      s.act ∧ (tellLost a s).light = s.light ∧ (tellLost a s).intr = s.intr ∧ (tellLost a s).integ = s.integ ∧ (tellLost a
      s).attn = s.attn ∧ (tellLost a s).start = s.start ∧ (tellLost a s).clock = s.clock ∧ (tellLost a s).pending = s.pending := by
  simp only [tellLost]; (repeat' split) <;> simp
@[simp] theorem handSample_leaves (a v) (s : State) :
    (handSample a v s).mem = s.mem ∧ (handSample a v s).bus = s.bus ∧ (handSample a v s).win = s.win ∧ (handSample a v
      s).holds = s.holds ∧ (handSample a v s).prot = s.prot ∧ (handSample a v s).port = s.port ∧ (handSample a v s).seqr =
      s.seqr ∧ (handSample a v s).batch = s.batch ∧ (handSample a v s).touched = s.touched ∧ (handSample a v s).queue =
      s.queue ∧ (handSample a v s).profiles = s.profiles ∧ (handSample a v s).table = s.table ∧ (handSample a v s).mon = s.mon
      ∧ (handSample a v s).power = s.power ∧ (handSample a v s).act = s.act ∧ (handSample a v s).light = s.light ∧ (handSample
      a v s).intr = s.intr ∧ (handSample a v s).integ = s.integ ∧ (handSample a v s).attn = s.attn ∧ (handSample a v s).start
      = s.start ∧ (handSample a v s).clock = s.clock ∧ (handSample a v s).pending = s.pending := by
  simp only [handSample]; (repeat' split) <;> simp
@[simp] theorem setModule_leaves (o m) (s : State) :
    (setModule o m s).mem = s.mem ∧ (setModule o m s).bus = s.bus ∧ (setModule o m s).win = s.win ∧ (setModule o m s).holds
      = s.holds ∧ (setModule o m s).prot = s.prot ∧ (setModule o m s).seqr = s.seqr ∧ (setModule o m s).batch = s.batch ∧
      (setModule o m s).touched = s.touched ∧ (setModule o m s).queue = s.queue ∧ (setModule o m s).profiles = s.profiles ∧
      (setModule o m s).table = s.table ∧ (setModule o m s).ramp = s.ramp ∧ (setModule o m s).mon = s.mon ∧ (setModule o m
      s).power = s.power ∧ (setModule o m s).light = s.light ∧ (setModule o m s).intr = s.intr ∧ (setModule o m s).integ =
      s.integ ∧ (setModule o m s).attn = s.attn ∧ (setModule o m s).start = s.start ∧ (setModule o m s).clock = s.clock ∧
      (setModule o m s).pending = s.pending := by
  simp only [setModule]; (repeat' split) <;> simp
@[simp] theorem onQueued_leaves (c) (s : State) :
    (onQueued c s).mem = s.mem ∧ (onQueued c s).bus = s.bus ∧ (onQueued c s).win = s.win ∧ (onQueued c s).holds = s.holds ∧
      (onQueued c s).prot = s.prot ∧ (onQueued c s).port = s.port ∧ (onQueued c s).seqr = s.seqr ∧ (onQueued c s).batch =
      s.batch ∧ (onQueued c s).touched = s.touched ∧ (onQueued c s).queue = s.queue ∧ (onQueued c s).profiles = s.profiles ∧
      (onQueued c s).mon = s.mon ∧ (onQueued c s).power = s.power ∧ (onQueued c s).act = s.act ∧ (onQueued c s).light =
      s.light ∧ (onQueued c s).intr = s.intr ∧ (onQueued c s).integ = s.integ ∧ (onQueued c s).attn = s.attn ∧ (onQueued c
      s).start = s.start ∧ (onQueued c s).clock = s.clock ∧ (onQueued c s).pending = s.pending := by
  simp only [onQueued]; (repeat' split) <;> simp
@[simp] theorem queueOrdinary_leaves (c) (s : State) :
    (queueOrdinary c s).mem = s.mem ∧ (queueOrdinary c s).bus = s.bus ∧ (queueOrdinary c s).win = s.win ∧ (queueOrdinary c
      s).holds = s.holds ∧ (queueOrdinary c s).prot = s.prot ∧ (queueOrdinary c s).port = s.port ∧ (queueOrdinary c s).seqr =
      s.seqr ∧ (queueOrdinary c s).batch = s.batch ∧ (queueOrdinary c s).touched = s.touched ∧ (queueOrdinary c s).queue =
      s.queue ∧ (queueOrdinary c s).profiles = s.profiles ∧ (queueOrdinary c s).mon = s.mon ∧ (queueOrdinary c s).power =
      s.power ∧ (queueOrdinary c s).light = s.light ∧ (queueOrdinary c s).intr = s.intr ∧ (queueOrdinary c s).integ = s.integ
      ∧ (queueOrdinary c s).attn = s.attn ∧ (queueOrdinary c s).start = s.start ∧ (queueOrdinary c s).clock = s.clock ∧
      (queueOrdinary c s).pending = s.pending := by
  simp only [queueOrdinary]; (repeat' split) <;> simp
@[simp] theorem withdrawCmds_leaves (p) (s : State) :
    (withdrawCmds p s).mem = s.mem ∧ (withdrawCmds p s).bus = s.bus ∧ (withdrawCmds p s).win = s.win ∧ (withdrawCmds p
      s).holds = s.holds ∧ (withdrawCmds p s).prot = s.prot ∧ (withdrawCmds p s).port = s.port ∧ (withdrawCmds p s).seqr =
      s.seqr ∧ (withdrawCmds p s).batch = s.batch ∧ (withdrawCmds p s).touched = s.touched ∧ (withdrawCmds p s).queue =
      s.queue ∧ (withdrawCmds p s).profiles = s.profiles ∧ (withdrawCmds p s).table = s.table ∧ (withdrawCmds p s).ramp =
      s.ramp ∧ (withdrawCmds p s).mon = s.mon ∧ (withdrawCmds p s).power = s.power ∧ (withdrawCmds p s).light = s.light ∧
      (withdrawCmds p s).intr = s.intr ∧ (withdrawCmds p s).integ = s.integ ∧ (withdrawCmds p s).attn = s.attn ∧ (withdrawCmds
      p s).start = s.start ∧ (withdrawCmds p s).clock = s.clock ∧ (withdrawCmds p s).pending = s.pending := by
  simp only [withdrawCmds]; (repeat' split) <;> simp
@[simp] theorem dropRequester_leaves (r) (s : State) :
    (dropRequester r s).mem = s.mem ∧ (dropRequester r s).bus = s.bus ∧ (dropRequester r s).win = s.win ∧ (dropRequester r
      s).holds = s.holds ∧ (dropRequester r s).prot = s.prot ∧ (dropRequester r s).port = s.port ∧ (dropRequester r s).seqr =
      s.seqr ∧ (dropRequester r s).batch = s.batch ∧ (dropRequester r s).touched = s.touched ∧ (dropRequester r s).queue =
      s.queue ∧ (dropRequester r s).profiles = s.profiles ∧ (dropRequester r s).table = s.table ∧ (dropRequester r s).ramp =
      s.ramp ∧ (dropRequester r s).mon = s.mon ∧ (dropRequester r s).power = s.power ∧ (dropRequester r s).light = s.light ∧
      (dropRequester r s).intr = s.intr ∧ (dropRequester r s).integ = s.integ ∧ (dropRequester r s).attn = s.attn ∧ (dropRequester
      r s).start = s.start ∧ (dropRequester r s).clock = s.clock ∧ (dropRequester r s).pending = s.pending := by
  simp only [dropRequester]; (repeat' split) <;> simp
@[simp] theorem queueUrgent_leaves (c) (s : State) :
    (queueUrgent c s).mem = s.mem ∧ (queueUrgent c s).bus = s.bus ∧ (queueUrgent c s).win = s.win ∧ (queueUrgent c s).holds
      = s.holds ∧ (queueUrgent c s).prot = s.prot ∧ (queueUrgent c s).port = s.port ∧ (queueUrgent c s).seqr = s.seqr ∧
      (queueUrgent c s).batch = s.batch ∧ (queueUrgent c s).touched = s.touched ∧ (queueUrgent c s).queue = s.queue ∧
      (queueUrgent c s).profiles = s.profiles ∧ (queueUrgent c s).table = s.table ∧ (queueUrgent c s).ramp = s.ramp ∧
      (queueUrgent c s).mon = s.mon ∧ (queueUrgent c s).power = s.power ∧ (queueUrgent c s).light = s.light ∧ (queueUrgent c
      s).intr = s.intr ∧ (queueUrgent c s).integ = s.integ ∧ (queueUrgent c s).attn = s.attn ∧ (queueUrgent c s).start =
      s.start ∧ (queueUrgent c s).clock = s.clock ∧ (queueUrgent c s).pending = s.pending := by
  simp only [queueUrgent]; (repeat' split) <;> simp
@[simp] theorem squelchSlot_leaves (o n) (s : State) :
    (squelchSlot o n s).mem = s.mem ∧ (squelchSlot o n s).bus = s.bus ∧ (squelchSlot o n s).win = s.win ∧ (squelchSlot o n
      s).holds = s.holds ∧ (squelchSlot o n s).prot = s.prot ∧ (squelchSlot o n s).port = s.port ∧ (squelchSlot o n s).seqr =
      s.seqr ∧ (squelchSlot o n s).batch = s.batch ∧ (squelchSlot o n s).touched = s.touched ∧ (squelchSlot o n s).queue =
      s.queue ∧ (squelchSlot o n s).profiles = s.profiles ∧ (squelchSlot o n s).table = s.table ∧ (squelchSlot o n s).ramp =
      s.ramp ∧ (squelchSlot o n s).mon = s.mon ∧ (squelchSlot o n s).power = s.power ∧ (squelchSlot o n s).light = s.light ∧
      (squelchSlot o n s).intr = s.intr ∧ (squelchSlot o n s).integ = s.integ ∧ (squelchSlot o n s).attn = s.attn ∧
      (squelchSlot o n s).start = s.start ∧ (squelchSlot o n s).clock = s.clock ∧ (squelchSlot o n s).pending = s.pending := by
  simp only [squelchSlot]; (repeat' split) <;> simp
@[simp] theorem refreshPing_leaves (o) (s : State) :
    (refreshPing o s).mem = s.mem ∧ (refreshPing o s).bus = s.bus ∧ (refreshPing o s).win = s.win ∧ (refreshPing o s).holds
      = s.holds ∧ (refreshPing o s).prot = s.prot ∧ (refreshPing o s).port = s.port ∧ (refreshPing o s).seqr = s.seqr ∧
      (refreshPing o s).batch = s.batch ∧ (refreshPing o s).touched = s.touched ∧ (refreshPing o s).queue = s.queue ∧
      (refreshPing o s).profiles = s.profiles ∧ (refreshPing o s).table = s.table ∧ (refreshPing o s).ramp = s.ramp ∧
      (refreshPing o s).mon = s.mon ∧ (refreshPing o s).power = s.power ∧ (refreshPing o s).light = s.light ∧ (refreshPing o
      s).intr = s.intr ∧ (refreshPing o s).integ = s.integ ∧ (refreshPing o s).attn = s.attn ∧ (refreshPing o s).start =
      s.start ∧ (refreshPing o s).clock = s.clock ∧ (refreshPing o s).pending = s.pending := by
  simp only [refreshPing]; (repeat' split) <;> simp
@[simp] theorem refreshBurst_leaves (o k) (s : State) :
    (refreshBurst o k s).mem = s.mem ∧ (refreshBurst o k s).bus = s.bus ∧ (refreshBurst o k s).win = s.win ∧ (refreshBurst o
      k s).holds = s.holds ∧ (refreshBurst o k s).prot = s.prot ∧ (refreshBurst o k s).port = s.port ∧ (refreshBurst o k
      s).seqr = s.seqr ∧ (refreshBurst o k s).batch = s.batch ∧ (refreshBurst o k s).touched = s.touched ∧ (refreshBurst o k
      s).queue = s.queue ∧ (refreshBurst o k s).profiles = s.profiles ∧ (refreshBurst o k s).table = s.table ∧ (refreshBurst o
      k s).ramp = s.ramp ∧ (refreshBurst o k s).mon = s.mon ∧ (refreshBurst o k s).power = s.power ∧ (refreshBurst o k
      s).light = s.light ∧ (refreshBurst o k s).intr = s.intr ∧ (refreshBurst o k s).integ = s.integ ∧ (refreshBurst o k
      s).attn = s.attn ∧ (refreshBurst o k s).start = s.start ∧ (refreshBurst o k s).clock = s.clock ∧ (refreshBurst o k
      s).pending = s.pending := by
  simp only [refreshBurst]; (repeat' split) <;> simp
@[simp] theorem beginTransaction_leaves (s : State) :
    (beginTransaction s).mem = s.mem ∧ (beginTransaction s).bus = s.bus ∧ (beginTransaction s).win = s.win ∧
      (beginTransaction s).holds = s.holds ∧ (beginTransaction s).prot = s.prot ∧ (beginTransaction s).port = s.port ∧
      (beginTransaction s).seqr = s.seqr ∧ (beginTransaction s).batch = s.batch ∧ (beginTransaction s).touched = s.touched ∧
      (beginTransaction s).queue = s.queue ∧ (beginTransaction s).profiles = s.profiles ∧ (beginTransaction s).table = s.table
      ∧ (beginTransaction s).ramp = s.ramp ∧ (beginTransaction s).mon = s.mon ∧ (beginTransaction s).power = s.power ∧
      (beginTransaction s).light = s.light ∧ (beginTransaction s).intr = s.intr ∧ (beginTransaction s).integ = s.integ ∧
      (beginTransaction s).attn = s.attn ∧ (beginTransaction s).start = s.start ∧ (beginTransaction s).clock = s.clock ∧
      (beginTransaction s).pending = s.pending := by
  simp only [beginTransaction]; (repeat' split) <;> simp
@[simp] theorem freeEngine_leaves (e) (s : State) :
    (freeEngine e s).mem = s.mem ∧ (freeEngine e s).bus = s.bus ∧ (freeEngine e s).win = s.win ∧ (freeEngine e s).holds =
      s.holds ∧ (freeEngine e s).prot = s.prot ∧ (freeEngine e s).port = s.port ∧ (freeEngine e s).seqr = s.seqr ∧ (freeEngine
      e s).batch = s.batch ∧ (freeEngine e s).touched = s.touched ∧ (freeEngine e s).queue = s.queue ∧ (freeEngine e
      s).profiles = s.profiles ∧ (freeEngine e s).power = s.power ∧ (freeEngine e s).act = s.act ∧ (freeEngine e s).light =
      s.light ∧ (freeEngine e s).intr = s.intr ∧ (freeEngine e s).integ = s.integ ∧ (freeEngine e s).attn = s.attn ∧
      (freeEngine e s).start = s.start ∧ (freeEngine e s).clock = s.clock ∧ (freeEngine e s).pending = s.pending := by
  simp only [freeEngine]; (repeat' split) <;> simp
@[simp] theorem stopEngine_leaves (e) (s : State) :
    (stopEngine e s).mem = s.mem ∧ (stopEngine e s).bus = s.bus ∧ (stopEngine e s).win = s.win ∧ (stopEngine e s).holds =
      s.holds ∧ (stopEngine e s).prot = s.prot ∧ (stopEngine e s).port = s.port ∧ (stopEngine e s).seqr = s.seqr ∧ (stopEngine
      e s).batch = s.batch ∧ (stopEngine e s).touched = s.touched ∧ (stopEngine e s).queue = s.queue ∧ (stopEngine e
      s).profiles = s.profiles ∧ (stopEngine e s).power = s.power ∧ (stopEngine e s).light = s.light ∧ (stopEngine e s).intr =
      s.intr ∧ (stopEngine e s).integ = s.integ ∧ (stopEngine e s).attn = s.attn ∧ (stopEngine e s).start = s.start ∧
      (stopEngine e s).clock = s.clock ∧ (stopEngine e s).pending = s.pending := by
  simp only [stopEngine]; (repeat' split) <;> simp
@[simp] theorem withdrawEngReq_leaves (p) (s : State) :
    (withdrawEngReq p s).mem = s.mem ∧ (withdrawEngReq p s).bus = s.bus ∧ (withdrawEngReq p s).win = s.win ∧ (withdrawEngReq
      p s).holds = s.holds ∧ (withdrawEngReq p s).prot = s.prot ∧ (withdrawEngReq p s).port = s.port ∧ (withdrawEngReq p
      s).seqr = s.seqr ∧ (withdrawEngReq p s).batch = s.batch ∧ (withdrawEngReq p s).touched = s.touched ∧ (withdrawEngReq p
      s).queue = s.queue ∧ (withdrawEngReq p s).profiles = s.profiles ∧ (withdrawEngReq p s).table = s.table ∧ (withdrawEngReq
      p s).mon = s.mon ∧ (withdrawEngReq p s).power = s.power ∧ (withdrawEngReq p s).act = s.act ∧ (withdrawEngReq p s).light
      = s.light ∧ (withdrawEngReq p s).intr = s.intr ∧ (withdrawEngReq p s).integ = s.integ ∧ (withdrawEngReq p s).attn =
      s.attn ∧ (withdrawEngReq p s).start = s.start ∧ (withdrawEngReq p s).clock = s.clock ∧ (withdrawEngReq p s).pending =
      s.pending := by
  simp only [withdrawEngReq]; (repeat' split) <;> simp
@[simp] theorem presentRequest_leaves (n b p k) (s : State) :
    (presentRequest n b p k s).mem = s.mem ∧ (presentRequest n b p k s).bus = s.bus ∧ (presentRequest n b p k s).win = s.win
      ∧ (presentRequest n b p k s).holds = s.holds ∧ (presentRequest n b p k s).prot = s.prot ∧ (presentRequest n b p k
      s).port = s.port ∧ (presentRequest n b p k s).seqr = s.seqr ∧ (presentRequest n b p k s).batch = s.batch ∧
      (presentRequest n b p k s).touched = s.touched ∧ (presentRequest n b p k s).queue = s.queue ∧ (presentRequest n b p k
      s).profiles = s.profiles ∧ (presentRequest n b p k s).table = s.table ∧ (presentRequest n b p k s).mon = s.mon ∧
      (presentRequest n b p k s).power = s.power ∧ (presentRequest n b p k s).act = s.act ∧ (presentRequest n b p k s).light =
      s.light ∧ (presentRequest n b p k s).intr = s.intr ∧ (presentRequest n b p k s).integ = s.integ ∧ (presentRequest n b p
      k s).attn = s.attn ∧ (presentRequest n b p k s).start = s.start ∧ (presentRequest n b p k s).clock = s.clock ∧
      (presentRequest n b p k s).pending = s.pending := by
  simp only [presentRequest]; (repeat' split) <;> simp
@[simp] theorem makeGrant_leaves (e r) (s : State) :
    (makeGrant e r s).mem = s.mem ∧ (makeGrant e r s).bus = s.bus ∧ (makeGrant e r s).win = s.win ∧ (makeGrant e r s).holds
      = s.holds ∧ (makeGrant e r s).prot = s.prot ∧ (makeGrant e r s).port = s.port ∧ (makeGrant e r s).seqr = s.seqr ∧
      (makeGrant e r s).batch = s.batch ∧ (makeGrant e r s).touched = s.touched ∧ (makeGrant e r s).queue = s.queue ∧
      (makeGrant e r s).profiles = s.profiles ∧ (makeGrant e r s).power = s.power ∧ (makeGrant e r s).act = s.act ∧ (makeGrant
      e r s).light = s.light ∧ (makeGrant e r s).intr = s.intr ∧ (makeGrant e r s).integ = s.integ ∧ (makeGrant e r s).attn =
      s.attn ∧ (makeGrant e r s).start = s.start ∧ (makeGrant e r s).clock = s.clock ∧ (makeGrant e r s).pending = s.pending := by
  simp only [makeGrant]; (repeat' split) <;> simp
@[simp] theorem startReturning_leaves (e) (s : State) :
    (startReturning e s).mem = s.mem ∧ (startReturning e s).bus = s.bus ∧ (startReturning e s).win = s.win ∧ (startReturning
      e s).holds = s.holds ∧ (startReturning e s).prot = s.prot ∧ (startReturning e s).port = s.port ∧ (startReturning e
      s).seqr = s.seqr ∧ (startReturning e s).batch = s.batch ∧ (startReturning e s).touched = s.touched ∧ (startReturning e
      s).queue = s.queue ∧ (startReturning e s).profiles = s.profiles ∧ (startReturning e s).table = s.table ∧ (startReturning
      e s).power = s.power ∧ (startReturning e s).act = s.act ∧ (startReturning e s).light = s.light ∧ (startReturning e
      s).intr = s.intr ∧ (startReturning e s).integ = s.integ ∧ (startReturning e s).attn = s.attn ∧ (startReturning e
      s).start = s.start ∧ (startReturning e s).clock = s.clock ∧ (startReturning e s).pending = s.pending := by
  simp only [startReturning]; (repeat' split) <;> simp

/-! ### Sequencer and batch -/

@[simp] theorem writeBatchState_leaves (b) (s : State) :
    (writeBatchState b s).mem = s.mem ∧ (writeBatchState b s).bus = s.bus ∧ (writeBatchState b s).win = s.win ∧
      (writeBatchState b s).holds = s.holds ∧ (writeBatchState b s).prot = s.prot ∧ (writeBatchState b s).batch = s.batch ∧
      (writeBatchState b s).touched = s.touched ∧ (writeBatchState b s).queue = s.queue ∧ (writeBatchState b s).profiles =
      s.profiles ∧ (writeBatchState b s).table = s.table ∧ (writeBatchState b s).ramp = s.ramp ∧ (writeBatchState b s).mon =
      s.mon ∧ (writeBatchState b s).power = s.power ∧ (writeBatchState b s).act = s.act ∧ (writeBatchState b s).light =
      s.light ∧ (writeBatchState b s).intr = s.intr ∧ (writeBatchState b s).integ = s.integ ∧ (writeBatchState b s).attn =
      s.attn ∧ (writeBatchState b s).start = s.start ∧ (writeBatchState b s).clock = s.clock ∧ (writeBatchState b s).pending =
      s.pending := by
  simp only [writeBatchState]; (repeat' split) <;> simp
@[simp] theorem enterState_leaves (st w) (s : State) :
    (enterState st w s).mem = s.mem ∧ (enterState st w s).bus = s.bus ∧ (enterState st w s).win = s.win ∧ (enterState st w
      s).holds = s.holds ∧ (enterState st w s).prot = s.prot ∧ (enterState st w s).batch = s.batch ∧ (enterState st w
      s).touched = s.touched ∧ (enterState st w s).queue = s.queue ∧ (enterState st w s).profiles = s.profiles ∧ (enterState
      st w s).table = s.table ∧ (enterState st w s).ramp = s.ramp ∧ (enterState st w s).mon = s.mon ∧ (enterState st w
      s).power = s.power ∧ (enterState st w s).act = s.act ∧ (enterState st w s).light = s.light ∧ (enterState st w s).intr =
      s.intr ∧ (enterState st w s).integ = s.integ ∧ (enterState st w s).attn = s.attn ∧ (enterState st w s).start = s.start ∧
      (enterState st w s).clock = s.clock ∧ (enterState st w s).pending = s.pending := by
  simp only [enterState]; (repeat' split) <;> simp
@[simp] theorem writeCounters_leaves (c) (s : State) :
    (writeCounters c s).mem = s.mem ∧ (writeCounters c s).bus = s.bus ∧ (writeCounters c s).win = s.win ∧ (writeCounters c
      s).holds = s.holds ∧ (writeCounters c s).prot = s.prot ∧ (writeCounters c s).seqr = s.seqr ∧ (writeCounters c s).touched
      = s.touched ∧ (writeCounters c s).queue = s.queue ∧ (writeCounters c s).profiles = s.profiles ∧ (writeCounters c
      s).table = s.table ∧ (writeCounters c s).ramp = s.ramp ∧ (writeCounters c s).mon = s.mon ∧ (writeCounters c s).power =
      s.power ∧ (writeCounters c s).act = s.act ∧ (writeCounters c s).light = s.light ∧ (writeCounters c s).intr = s.intr ∧
      (writeCounters c s).integ = s.integ ∧ (writeCounters c s).attn = s.attn ∧ (writeCounters c s).start = s.start ∧
      (writeCounters c s).clock = s.clock ∧ (writeCounters c s).pending = s.pending := by
  simp only [writeCounters]; (repeat' split) <;> simp
@[simp] theorem writeOutcome_leaves (r c) (s : State) :
    (writeOutcome r c s).mem = s.mem ∧ (writeOutcome r c s).bus = s.bus ∧ (writeOutcome r c s).win = s.win ∧ (writeOutcome r
      c s).holds = s.holds ∧ (writeOutcome r c s).prot = s.prot ∧ (writeOutcome r c s).seqr = s.seqr ∧ (writeOutcome r c
      s).touched = s.touched ∧ (writeOutcome r c s).queue = s.queue ∧ (writeOutcome r c s).profiles = s.profiles ∧
      (writeOutcome r c s).table = s.table ∧ (writeOutcome r c s).ramp = s.ramp ∧ (writeOutcome r c s).mon = s.mon ∧
      (writeOutcome r c s).power = s.power ∧ (writeOutcome r c s).act = s.act ∧ (writeOutcome r c s).light = s.light ∧
      (writeOutcome r c s).intr = s.intr ∧ (writeOutcome r c s).integ = s.integ ∧ (writeOutcome r c s).attn = s.attn ∧
      (writeOutcome r c s).start = s.start ∧ (writeOutcome r c s).clock = s.clock ∧ (writeOutcome r c s).pending = s.pending := by
  simp only [writeOutcome]; (repeat' split) <;> simp
@[simp] theorem updateEntry_leaves (r f) (s : State) :
    (updateEntry r f s).mem = s.mem ∧ (updateEntry r f s).bus = s.bus ∧ (updateEntry r f s).win = s.win ∧ (updateEntry r f
      s).holds = s.holds ∧ (updateEntry r f s).prot = s.prot ∧ (updateEntry r f s).port = s.port ∧ (updateEntry r f s).seqr =
      s.seqr ∧ (updateEntry r f s).batch = s.batch ∧ (updateEntry r f s).touched = s.touched ∧ (updateEntry r f s).profiles =
      s.profiles ∧ (updateEntry r f s).table = s.table ∧ (updateEntry r f s).ramp = s.ramp ∧ (updateEntry r f s).mon = s.mon ∧
      (updateEntry r f s).power = s.power ∧ (updateEntry r f s).act = s.act ∧ (updateEntry r f s).light = s.light ∧
      (updateEntry r f s).intr = s.intr ∧ (updateEntry r f s).integ = s.integ ∧ (updateEntry r f s).attn = s.attn ∧
      (updateEntry r f s).start = s.start ∧ (updateEntry r f s).clock = s.clock ∧ (updateEntry r f s).pending = s.pending := by
  simp only [updateEntry]; (repeat' split) <;> simp
@[simp] theorem endBatch_leaves (w) (s : State) :
    (endBatch w s).mem = s.mem ∧ (endBatch w s).bus = s.bus ∧ (endBatch w s).win = s.win ∧ (endBatch w s).holds = s.holds ∧
      (endBatch w s).prot = s.prot ∧ (endBatch w s).touched = s.touched ∧ (endBatch w s).queue = s.queue ∧ (endBatch w
      s).profiles = s.profiles ∧ (endBatch w s).table = s.table ∧ (endBatch w s).ramp = s.ramp ∧ (endBatch w s).mon = s.mon ∧
      (endBatch w s).power = s.power ∧ (endBatch w s).act = s.act ∧ (endBatch w s).light = s.light ∧ (endBatch w s).intr =
      s.intr ∧ (endBatch w s).integ = s.integ ∧ (endBatch w s).attn = s.attn ∧ (endBatch w s).start = s.start ∧ (endBatch w
      s).clock = s.clock ∧ (endBatch w s).pending = s.pending := by
  simp only [endBatch]; (repeat' split) <;> simp
@[simp] theorem respond_leaves (q c r) (s : State) :
    (respond q c r s).mem = s.mem ∧ (respond q c r s).bus = s.bus ∧ (respond q c r s).win = s.win ∧ (respond q c r s).holds
      = s.holds ∧ (respond q c r s).prot = s.prot ∧ (respond q c r s).batch = s.batch ∧ (respond q c r s).touched = s.touched
      ∧ (respond q c r s).queue = s.queue ∧ (respond q c r s).profiles = s.profiles ∧ (respond q c r s).table = s.table ∧
      (respond q c r s).ramp = s.ramp ∧ (respond q c r s).mon = s.mon ∧ (respond q c r s).power = s.power ∧ (respond q c r
      s).act = s.act ∧ (respond q c r s).light = s.light ∧ (respond q c r s).intr = s.intr ∧ (respond q c r s).integ = s.integ
      ∧ (respond q c r s).attn = s.attn ∧ (respond q c r s).start = s.start ∧ (respond q c r s).clock = s.clock ∧ (respond q c
      r s).pending = s.pending := by
  simp only [respond]; (repeat' split) <;> simp
@[simp] theorem touch_leaves (r) (s : State) :
    (touch r s).mem = s.mem ∧ (touch r s).bus = s.bus ∧ (touch r s).win = s.win ∧ (touch r s).holds = s.holds ∧ (touch r
      s).prot = s.prot ∧ (touch r s).port = s.port ∧ (touch r s).seqr = s.seqr ∧ (touch r s).batch = s.batch ∧ (touch r
      s).queue = s.queue ∧ (touch r s).profiles = s.profiles ∧ (touch r s).table = s.table ∧ (touch r s).ramp = s.ramp ∧
      (touch r s).mon = s.mon ∧ (touch r s).power = s.power ∧ (touch r s).act = s.act ∧ (touch r s).light = s.light ∧ (touch r
      s).intr = s.intr ∧ (touch r s).integ = s.integ ∧ (touch r s).attn = s.attn ∧ (touch r s).start = s.start ∧ (touch r
      s).clock = s.clock ∧ (touch r s).pending = s.pending := by
  simp only [touch]; (repeat' split) <;> simp
@[simp] theorem untouch_leaves (r) (s : State) :
    (untouch r s).mem = s.mem ∧ (untouch r s).bus = s.bus ∧ (untouch r s).win = s.win ∧ (untouch r s).holds = s.holds ∧
      (untouch r s).prot = s.prot ∧ (untouch r s).port = s.port ∧ (untouch r s).seqr = s.seqr ∧ (untouch r s).batch = s.batch
      ∧ (untouch r s).queue = s.queue ∧ (untouch r s).profiles = s.profiles ∧ (untouch r s).table = s.table ∧ (untouch r
      s).ramp = s.ramp ∧ (untouch r s).mon = s.mon ∧ (untouch r s).power = s.power ∧ (untouch r s).act = s.act ∧ (untouch r
      s).light = s.light ∧ (untouch r s).intr = s.intr ∧ (untouch r s).integ = s.integ ∧ (untouch r s).attn = s.attn ∧
      (untouch r s).start = s.start ∧ (untouch r s).clock = s.clock ∧ (untouch r s).pending = s.pending := by
  simp only [untouch]; (repeat' split) <;> simp
@[simp] theorem setVerdict_leaves (r v) (s : State) :
    (setVerdict r v s).mem = s.mem ∧ (setVerdict r v s).bus = s.bus ∧ (setVerdict r v s).win = s.win ∧ (setVerdict r v
      s).holds = s.holds ∧ (setVerdict r v s).prot = s.prot ∧ (setVerdict r v s).port = s.port ∧ (setVerdict r v s).seqr =
      s.seqr ∧ (setVerdict r v s).touched = s.touched ∧ (setVerdict r v s).queue = s.queue ∧ (setVerdict r v s).profiles =
      s.profiles ∧ (setVerdict r v s).table = s.table ∧ (setVerdict r v s).ramp = s.ramp ∧ (setVerdict r v s).mon = s.mon ∧
      (setVerdict r v s).power = s.power ∧ (setVerdict r v s).act = s.act ∧ (setVerdict r v s).light = s.light ∧ (setVerdict r
      v s).intr = s.intr ∧ (setVerdict r v s).integ = s.integ ∧ (setVerdict r v s).attn = s.attn ∧ (setVerdict r v s).start =
      s.start ∧ (setVerdict r v s).clock = s.clock ∧ (setVerdict r v s).pending = s.pending := by
  simp only [setVerdict]; (repeat' split) <;> simp

/-! ### Light Supervisor and Interruption Unit -/

@[simp] theorem lightChange_leaves (d l) (s : State) :
    (lightChange d l s).mem = s.mem ∧ (lightChange d l s).bus = s.bus ∧ (lightChange d l s).win = s.win ∧ (lightChange d l
      s).holds = s.holds ∧ (lightChange d l s).prot = s.prot ∧ (lightChange d l s).seqr = s.seqr ∧ (lightChange d l s).batch =
      s.batch ∧ (lightChange d l s).touched = s.touched ∧ (lightChange d l s).queue = s.queue ∧ (lightChange d l s).profiles =
      s.profiles ∧ (lightChange d l s).table = s.table ∧ (lightChange d l s).ramp = s.ramp ∧ (lightChange d l s).mon = s.mon ∧
      (lightChange d l s).power = s.power ∧ (lightChange d l s).act = s.act ∧ (lightChange d l s).intr = s.intr ∧ (lightChange
      d l s).integ = s.integ ∧ (lightChange d l s).start = s.start ∧ (lightChange d l s).clock = s.clock ∧ (lightChange d l
      s).pending = s.pending := by
  simp only [lightChange]; (repeat' split) <;> simp
@[simp] theorem setHoldOff_leaves (d n) (s : State) :
    (setHoldOff d n s).mem = s.mem ∧ (setHoldOff d n s).bus = s.bus ∧ (setHoldOff d n s).win = s.win ∧ (setHoldOff d n
      s).holds = s.holds ∧ (setHoldOff d n s).prot = s.prot ∧ (setHoldOff d n s).port = s.port ∧ (setHoldOff d n s).seqr =
      s.seqr ∧ (setHoldOff d n s).batch = s.batch ∧ (setHoldOff d n s).touched = s.touched ∧ (setHoldOff d n s).queue =
      s.queue ∧ (setHoldOff d n s).profiles = s.profiles ∧ (setHoldOff d n s).table = s.table ∧ (setHoldOff d n s).ramp =
      s.ramp ∧ (setHoldOff d n s).mon = s.mon ∧ (setHoldOff d n s).power = s.power ∧ (setHoldOff d n s).act = s.act ∧
      (setHoldOff d n s).intr = s.intr ∧ (setHoldOff d n s).integ = s.integ ∧ (setHoldOff d n s).attn = s.attn ∧ (setHoldOff d
      n s).start = s.start ∧ (setHoldOff d n s).clock = s.clock ∧ (setHoldOff d n s).pending = s.pending := by
  simp only [setHoldOff]; (repeat' split) <;> simp
@[simp] theorem setLevel_leaves (d l) (s : State) :
    (setLevel d l s).mem = s.mem ∧ (setLevel d l s).bus = s.bus ∧ (setLevel d l s).win = s.win ∧ (setLevel d l s).holds =
      s.holds ∧ (setLevel d l s).prot = s.prot ∧ (setLevel d l s).port = s.port ∧ (setLevel d l s).seqr = s.seqr ∧ (setLevel d
      l s).batch = s.batch ∧ (setLevel d l s).touched = s.touched ∧ (setLevel d l s).queue = s.queue ∧ (setLevel d l
      s).profiles = s.profiles ∧ (setLevel d l s).table = s.table ∧ (setLevel d l s).ramp = s.ramp ∧ (setLevel d l s).mon =
      s.mon ∧ (setLevel d l s).power = s.power ∧ (setLevel d l s).act = s.act ∧ (setLevel d l s).intr = s.intr ∧ (setLevel d l
      s).integ = s.integ ∧ (setLevel d l s).attn = s.attn ∧ (setLevel d l s).start = s.start ∧ (setLevel d l s).clock =
      s.clock ∧ (setLevel d l s).pending = s.pending := by
  simp only [setLevel]; (repeat' split) <;> simp
@[simp] theorem requestCapture_leaves (c) (s : State) :
    (requestCapture c s).mem = s.mem ∧ (requestCapture c s).bus = s.bus ∧ (requestCapture c s).win = s.win ∧ (requestCapture
      c s).holds = s.holds ∧ (requestCapture c s).prot = s.prot ∧ (requestCapture c s).port = s.port ∧ (requestCapture c
      s).seqr = s.seqr ∧ (requestCapture c s).batch = s.batch ∧ (requestCapture c s).touched = s.touched ∧ (requestCapture c
      s).queue = s.queue ∧ (requestCapture c s).profiles = s.profiles ∧ (requestCapture c s).table = s.table ∧ (requestCapture
      c s).ramp = s.ramp ∧ (requestCapture c s).mon = s.mon ∧ (requestCapture c s).power = s.power ∧ (requestCapture c s).act
      = s.act ∧ (requestCapture c s).light = s.light ∧ (requestCapture c s).integ = s.integ ∧ (requestCapture c s).attn =
      s.attn ∧ (requestCapture c s).start = s.start ∧ (requestCapture c s).clock = s.clock ∧ (requestCapture c s).pending =
      s.pending := by
  simp only [requestCapture]; (repeat' split) <;> simp
@[simp] theorem setPowerdown_leaves (s : State) :
    (setPowerdown s).mem = s.mem ∧ (setPowerdown s).bus = s.bus ∧ (setPowerdown s).win = s.win ∧ (setPowerdown s).prot =
      s.prot ∧ (setPowerdown s).port = s.port ∧ (setPowerdown s).seqr = s.seqr ∧ (setPowerdown s).batch = s.batch ∧
      (setPowerdown s).touched = s.touched ∧ (setPowerdown s).queue = s.queue ∧ (setPowerdown s).profiles = s.profiles ∧
      (setPowerdown s).table = s.table ∧ (setPowerdown s).ramp = s.ramp ∧ (setPowerdown s).mon = s.mon ∧ (setPowerdown
      s).power = s.power ∧ (setPowerdown s).act = s.act ∧ (setPowerdown s).intr = s.intr ∧ (setPowerdown s).integ = s.integ ∧
      (setPowerdown s).attn = s.attn ∧ (setPowerdown s).clock = s.clock ∧ (setPowerdown s).pending = s.pending := by
  simp only [setPowerdown]; (repeat' split) <;> simp

end Sys2Proof.Machine
end

