-- ==== Sys2Proof/Tests/Slice0.lean ====
section
/-! SUPPORT. Tests: the ill-formed terms, the words of the table, one step of each command on a small state, and for each statement with
hypotheses a state and operands that meet them. -/

namespace Sys2Proof.Tests

open Sys2Proof.Machine

/-! ### Small states -/

/-- Staging, active, status and save pages 1 to 4; the anchor page is 0. -/
def pages : WindowMap := { staging := 1, active := 2, status := 3, save := 4 }

/-- Anchor fields. -/
def cfg : AnchorCfg :=
  { map := pages, budget := 2, fill := .const true, idler := .const 100, autoRestore := true, holdOff := 10, enables := 255, scrub := true }

/-- The part in IDLE with its pages installed. -/
def base : State :=
  { State.reset with
    win := { State.reset.win with map := some pages, cfg := some cfg }
    port := []
    seqr := { Sequencer.reset with st := .idle }
    start := { Startup.reset false with stage := .none } }

/-- The part in UNCONFIGURED, with a command watch. -/
def unconf : State :=
  { base with
    win := { State.reset.win with watch := some 0x3000 }
    seqr := { Sequencer.reset with st := .unconfigured } }

/-- The part in another sequencer state. -/
def inState (st : SeqState) : State := { base with seqr := { base.seqr with st := st } }

/-- A batch in a sequencer state. -/
def inBatch (st : SeqState) (work : BatchWork) : State :=
  { inState st with batch := { Batch.reset with present := true, seq := 7, phase := 1, work := work } }

/-- That batch with its end state asked for. -/
def endingIn (st : SeqState) : State :=
  { inBatch st .none with batch := { (inBatch st .none).batch with ending := true } }

/-- One request at the arbiter. -/
def granting (r : PortReq) : State := { base with port := [r] }

/-- A word with a syndrome. -/
def damaged (a : Nat) (y : BitVec 8) (s : State) : State := { s with mem := { s.mem with syn := [(a, y)] } }

/-- A depth of interruption, with empty images. -/
def atDepth (n : Nat) (s : State) : State :=
  { s with intr := { s.intr with depth := n, images := List.replicate n (List.replicate 16 0) } }

/-- A degree's light state. -/
def lightIn (l : LightState) (s : State) : State := { s with light := { s.light with state := .const l } }

/-- RESET_N asserted. -/
def asleep : State := { base with start := { base.start with inReset := true } }

/-- Host fields of a connection from D1 to D2 in slot 0. -/
def conn : HostFields := { slot := 0, src := .deg .d1, dst := .deg .d2, target := -100, profile := 0, permit := true, tag := 0 }

/-- A profile. -/
def prof : Profile := { Profile.none with valid := true, start := 150, up := 10, down := 20, load := 5, tol := 10, maxAdj := 3 }

/-- A path of record 3 held by engine 0, at 10.0 dB. -/
def path : Path := { Path.reserved 0 3 .new conn with st := .ramping, route := .source, att := .db 100, engine := some 0 }

/-- Whom engine 0 serves. -/
def owner : EngOwner := { pid := 0, no := 3, restore := false }

/-- Engine 0 held. -/
def held : Engine :=
  { Engine.free with st := .stepping, owner := some owner, kind := .rampUp, prof := prof, target := -100, dir := .falling, load := 5, count := 0 }

/-- The part with the path and engine 0 as given. -/
def withEngine (g : Engine) : State :=
  { base with
    table := { ConnTable.reset with paths := [path], nextPid := 1 }
    ramp := { RampBank.reset with engines := RampBank.reset.engines.set 0 g } }

/-- A transaction in progress. -/
def inTxn (c : ActCmd) (attempt : Nat) (s : State) : State :=
  { s with act := { s.act with txn := some { cmd := c, attempt := attempt, sendLeft := 0, timer := 200 } } }

/-- That transaction with its reply timer run out. -/
def timedOut (c : ActCmd) (attempt : Nat) (s : State) : State :=
  { s with act := { s.act with txn := some { cmd := c, attempt := attempt, sendLeft := 0, timer := 0 } } }

/-- The part in IDLE with its scrubber's pacing timer run out. -/
def paced : State := { base with integ := { base.integ with scrub := { base.integ.scrub with started := true, timer := 0 } } }

/-- An anchor read that has given words 0 to 3, with its last burst granted next. -/
def anchorNext (why : AnchorWhy) (s : State) : State :=
  { s with port := [.anchor why]
           start := { s.start with readPart := (burstWords s.mem 0 4).map (fun w => (w, false)) } }

/-- A save write of a pop waits at the arbiter, whose completion the Interruption Unit waits for. -/
def saveWaits (s : State) : State := { s with port := [.popHeader 0] }

/-- Record 3's entry in the Transition Queue. -/
def entry : Entry :=
  { no := 3, kind := .add, oldP := none, newP := some 0, chain := [.connect, .rampUp, .verify], half := .new, st := .begun, fail := none
    void := none, reversing := false }

/-- A batch that runs with entries and paths as given, on a LIT source. -/
def running (st : SeqState) (q : List Entry) (ps : List Path) : State :=
  { lightIn .lit (inBatch st .run) with queue := q, table := { ConnTable.reset with paths := ps, nextPid := 9 } }

/-- A command of one slot at M2. -/
def frame (k : FrameKind) (q : Requester) : ActCmd :=
  { module := .deg .d2, kind := k, start := 0, count := 1, vals := [{ input := .deg .d1, att := .db 100 }], built := true, req := q }

/-- A reply of M2. -/
def reply : ReplyHead := { module := .deg .d2, checksumOk := true }

/-- The engine's ATTEN. -/
def atten : ActCmd := frame .atten (.engine 0 0 owner)

/-- A SAMPLE of D2's slot 0. -/
def sampleOf (q : BitVec 8) : SampleFrame :=
  { whole := true, checksumOk := true, kindOk := true, seq := q, point := some (.deg .d2), slot := 0, power := -105, below := false }

/-- That sample in the Intake Queue. -/
def taken (q : BitVec 8) : IntakeEntry := { seq := q, point := .deg .d2, slot := 0, power := -105, below := false, overwritten := false }

/-- An outstanding request of engine 0. -/
def asked (q : BitVec 8) : OutReq := { seq := q, point := .deg .d2, slot := 0, asker := some { engine := 0, grant := 0 } }

/-- A request on the send list. -/
def toSend : SendReq := { asker := { engine := 0, grant := 0 }, point := .deg .d2, slot := 0 }

/-- A full-word beat, the last of its cycle. -/
def beat (w : Word) : BeatData := { data := w, be := 15, last := true }

/-- A command beat with sequence 9. -/
def cmd : CommandBeat := { seq := 9, spare := 0, be := 15, last := true }

/-- The words of a valid anchor record. -/
def anchorWords : List Word := [0x4C583234, 1, 0x00010002, 0x00030004, 0x0A000002, 0, 0xFF]

/-- Memory with that anchor record. -/
def withAnchor (s : State) : State := storeBurst 0 anchorWords s

/-- The state a command leaves. -/
def after (c : Instr) (s : State) : State :=
  match exec c s with
  | .next t => t
  | _ => s

/-! ### Well-formedness and words -/

theorem test_reset_cut_in_range : WellFormed (.reset 4) = true := by decide
theorem test_reset_cut_out_of_range : WellFormed (.reset 5) = false := by decide
theorem test_unknown_code : WellFormed (.unknownCommand 9 cmd) = true := by decide
theorem test_unknown_code_is_known : WellFormed (.unknownCommand 1 cmd) = false := by decide
theorem test_no_word_spells_a_command : ∀ n w, decodeTableWord n w = none ∧ base.withFetchWord n w = base := by
  intro n w; exact ⟨rfl, rfl⟩

/-! ### One step of each command -/

theorem test_hostReadBeat : (after (.hostReadBeat 0x5000 15 true) { base with mem := base.mem.storeWord 0x5000 0x12345678 }).bus.finished =
    [{ addr := 0x5000, word := some 0x12345678, failed := false }] := by decide
theorem test_hostWriteBeat : (after (.hostWriteBeat 0x5000 { beat 0xAABBCCDD with be := 2 })
    { base with mem := base.mem.storeWord 0x5000 0x12345678 }).mem.word 0x5000 = 0x1234CC78 := by decide
theorem test_stagingWrite : (after (.stagingWrite 3 0 (beat 5)) base).touched = [3] ∧
    (after (.stagingWrite 3 0 (beat 5)) base).mem.word 0x1030 = 5 := by decide
theorem test_refusedWriteBeat : (after (.refusedWriteBeat 0x2010 (beat 5)) base).prot = { filled := true, further := false, addr := 0x2010 } ∧
    (after (.refusedWriteBeat 0x2010 (beat 5)) base).bus.error = true := by decide
theorem test_anchorWrite : (after (.anchorWrite 3 (beat 5)) base).seqr.rereadDue = true ∧
    (after (.anchorWrite 3 (beat 5)) base).mem.word 12 = 5 := by decide
theorem test_resumeWordWrite : (after (.resumeWordWrite 0 (beat 2)) base).mem.word (0x4000 + 4032 - 64 + 44) = 2 := by decide
theorem test_acknowledge : (after (.acknowledge (beat 5)) { base with attn := { pending := 7, enable := 255 } }).attn.pending = 2 := by decide
theorem test_commit : (after (.commit cmd) base).seqr.st = .fetching ∧ (after (.commit cmd) base).seqr.lastResp = 0x00090101 := by decide
theorem test_cancel : (after (.cancel cmd) (inBatch .fetching .fetch)).batch.ending = true := by decide
theorem test_hold : (after (.hold cmd) { inBatch .running .none with queue := [] }).seqr.st = .holding := by decide
theorem test_release : (after (.release cmd) (inBatch .held .none)).seqr.st = .running := by decide
theorem test_resume : (after (.resume cmd) (atDepth 1 (inState .suspended))).intr.work = [.resume] := by decide
theorem test_unknownCommand : (after (.unknownCommand 9 cmd) base).seqr.lastResp = 0x00090906 := by decide
theorem test_reset : (after (.reset 1) (granting (.popHeader 2))).mem.word 0x4FFC = 2 ∧ (after (.reset 1) base).start.inReset = true := by decide
theorem test_resetEnd : (after (.resetEnd 1) asleep).win.anchorPage = 0x400 := by decide
theorem test_firstQualification : (after (.firstQualification .d2 false) base).light.state.d2 = .holdoff := by decide
theorem test_qualifiedLoss : (after (.qualifiedLoss .d1) (lightIn .lit base)).light.state.d1 = .dark ∧
    (after (.qualifiedLoss .d1) (lightIn .lit base)).intr.work = [.capture (.los .d1)] := by decide
theorem test_qualifiedClear : (after (.qualifiedClear .d1) base).light.holdOff.d1 = some 10 := by decide
theorem test_holdOffExpiry : (after (.holdOffExpiry .d1)
    { lightIn .holdoff base with light := { (lightIn .holdoff base).light with holdOff := .const (some 0) } }).light.state.d1 = .lit := by decide
theorem test_pfwAssertion : (after .pfwAssertion base).intr.work = [.capture .powerFail] := by decide
theorem test_pfwDeassertion : (after .pfwDeassertion
    { inState .powerdown with start := { base.start with powerdown := true } }).seqr.st = .suspended := by decide
theorem test_captureTimeAdvance : (after .captureTimeAdvance base).clock.ms = 1 := by decide
theorem test_sample : (after (.sample (sampleOf 4)) base).mon.intake = [taken 4] ∧ (after (.sample (sampleOf 4)) base).mon.linkUp = true := by decide
theorem test_intakeQueueTake : (after .intakeQueueTake { base with mon := { base.mon with intake := [taken 0] } }).power =
    [{ point := .deg .d2, slot := 0, vals := [-105] }] := by decide
theorem test_silenceTimerExpiry : (after .silenceTimerExpiry
    { base with mon := { base.mon with linkUp := true, out := [asked 4] } }).mon.stale = [4] := by decide
theorem test_measure : (after .measure { base with mon := { base.mon with linkUp := true, send := [toSend] } }).mon.out = [asked 1] := by decide
theorem test_transactionBegin : ((after .transactionBegin { base with act := { base.act with ordinary := [atten] } }).act.txn.map (·.cmd)) =
    some atten := by decide
theorem test_routeAck : (after (.routeAck reply) (inTxn (frame .route .squelch) 1 base)).act.txn = none := by decide
theorem test_attenAck : ((after (.attenAck reply) (inTxn { atten with vals := [{ input := .deg .d1, att := .db 90 }] } 1
    (withEngine { held with cmd := .unanswered }))).table.paths.map (·.att)) = [.db 90] := by decide
theorem test_pingAck : (after (.pingAck reply) (inTxn (frame .ping .refresh) 1
    { base with act := { base.act with mods := .const .faulted } })).act.mods.deg.d2 = .refreshing := by decide
theorem test_data : (after (.data reply [{ input := .deg .d1, att := .db 9 }]) (inTxn (frame .read .readback) 1 base)).start.readback.deg.d2 =
    .given [{ input := .deg .d1, att := .db 9 }] := by decide
theorem test_nak : (after (.nak reply) (inTxn atten 2 base)).act.mods.deg.d2 = .faulted := by decide
theorem test_replyTimerExpiry : ((after .replyTimerExpiry (timedOut atten 1 base)).act.txn.map (·.attempt)) = some 2 := by decide
theorem test_intervalExpiry : (after (.intervalExpiry 0) (withEngine { held with st := .armed })).act.ordinary =
    [engineAtten 0 held owner path 150] := by decide
theorem test_capture : (after .capture { base with intr := { base.intr with work := [.capture (.los .d1)] } }).seqr.st = .suspended := by decide
theorem test_captureWriteComplete : (after .captureWriteComplete
    { atDepth 1 (granting (.captureHeader 1)) with
      intr := { (atDepth 1 base).intr with item := some (.capture (.los .d1) .idle [] false) } }).attn.pending = 1 := by decide
theorem test_resumeTaken : (after .resumeTaken
    { atDepth 1 (inState .suspended) with intr := { (atDepth 1 base).intr with work := [.resume] } }).port = [.resumeWord 1] := by decide
theorem test_resumeWordRead : (after .resumeWordRead { atDepth 1 (granting (.resumeWord 1)) with
    intr := { (atDepth 1 base).intr with item := some (.resume .reading .cont false) } }).port = [.slotWord0 1 2, .popHeader 0] := by decide
theorem test_pop : (after .pop { atDepth 1 (granting (.popHeader 0)) with
    seqr := { base.seqr with st := .suspended, kept := some { st := .done, seq := 4 } }
    intr := { (atDepth 1 base).intr with item := some (.resume .popping .cont false) } }).seqr.st = .idle := by decide
theorem test_fetchRead : ((after .fetchRead { inBatch .fetching .fetch with port := [.fetchRec 3], touched := [3] }).batch.list.map (·.no)) = [3] ∧
    (after .fetchRead { inBatch .fetching .fetch with port := [.fetchRec 3], touched := [3] }).touched = [] := by decide
theorem test_maskRead : (after .maskRead
    { inBatch .fetching .fetch with port := [.fetchMasks], mem := base.mem.storeWord 0x3004 0x1FF }).batch.refuse = 0x1FF := by decide
theorem test_profileRead : (after .profileRead { inBatch .fetching .fetch with port := [.fetchProf 0] }).port = [.fetchProf 1] := by decide
theorem test_activeWriteBack : (after .activeWriteBack { granting (.active 1) with holds := { fetch := none, wb := [1] } }).mem.word 0x201C =
    0x00FF8000 := by decide
theorem test_endStateWrite : (after .endStateWrite
    { inBatch .running .none with port := [.endState { st := .done, seq := 7 }] }).mem.word 0x3010 = 0x00070008 := by decide
theorem test_correctionRewrite : (after .correctionRewrite
    { base with integ := { base.integ with rewrites := [{ addr := 0x5000, data := 9, written := false }] } }).mem.word 0x5000 = 9 := by decide
theorem test_pacingTimerExpiry : (after .pacingTimerExpiry paced).port = [.scrub 0] := by decide
theorem test_scrubRead : (after .scrubRead (granting (.scrub 0))).integ.scrub.word = 1 := by decide
theorem test_rebuildAnchorRead : (after .rebuildAnchorRead (withAnchor State.reset)).win.map = some pages := by decide
theorem test_rebuildProfileRead : (after .rebuildProfileRead (granting (.rbProf 0))).port = [.rbProf 1] := by decide
theorem test_rebuildActiveRead : (after .rebuildActiveRead (granting (.rbActive 0))).port = [.rbActive 1] := by decide
theorem test_rebuildSaveRead : (after .rebuildSaveRead
    { granting .rbHeader with mem := base.mem.storeWord 0x4FFC 1 }).port =
      [.rbSlotPart 1 0, .rbSlotPart 1 1, .rbSlotPart 1 2, .rbSlot 1] := by decide
theorem test_newHalfStagingRead : (after .newHalfStagingRead { granting (.newHalf ⟨3, .new, 1, .block, none⟩) with
    start := { base.start with newHalves := [⟨4, .new, 1, .block, none⟩] } }).port = [.newHalf ⟨4, .new, 1, .block, none⟩] := by decide
theorem test_comparisonRead : (after .comparisonRead
    { granting (.compare 1) with mem := base.mem.storeWord 0x1010 1 }).touched = [1] := by decide
theorem test_anchorRead : (after .anchorRead { withAnchor unconf with port := [.anchorHead, .anchor .unconfigured] }).seqr.st = .rebuilding := by decide
theorem test_anchorReRead : (after .anchorReRead { base with seqr := { base.seqr with rereadDue := true } }).port =
    [.anchorHead, .anchor .reread] := by decide
theorem test_anchorReReadDone : (after .anchorReReadDone { granting (.anchor .reread) with seqr := { base.seqr with reread := .anchor } }).seqr.st =
    .unconfigured := by decide
theorem test_outcomeWordWrite : (after .outcomeWordWrite (granting (.outcome 3 .done 7))).mem.word 0x103C = 0x00070001 := by decide

/-! ### Steps -/

theorem test_step_takes_front : step { base with pending := [.hold cmd, .capture] } = exec (.hold cmd) { base with pending := [.capture] } := rfl
theorem test_idle_tick : step base = .next (idle base) := rfl

/-! ### For each statement with hypotheses, what meets them -/

/-- A batch's path state for the clauses about ramps: engine 0 serves the path. -/
theorem witness_engineServes (g : Engine) (h : g.st ≠ .free) (c : g.count = 0) (o : g.owner = some owner) : EngineServes (withEngine g) 0 owner path :=
  ⟨h, c, o, rfl, rfl⟩

theorem witness_beatReady_full : BeatReady base 0x5000 (beat 5) ∧ BeatReady (damaged 0x5000 5 base) 0x5000 (beat 5) :=
  ⟨⟨by decide, by decide, by decide, by decide, by decide⟩, ⟨by decide, by decide, by decide, by decide, by decide⟩⟩

theorem witness_beatReady_partial : BeatReady base 0x5000 { beat 5 with be := 1 } := ⟨by decide, by decide, by decide, by decide, by decide⟩

theorem witness_mergeReady : MergeReady (damaged 0x5000 5 base) 0x5000 { beat 5 with be := 1 } ∧
    MergeReady (damaged 0x5000 5 base) 0x5000 { beat 5 with be := 14 } :=
  ⟨⟨by decide, by decide, by decide, by decide, by decide⟩, ⟨by decide, by decide, by decide, by decide, by decide⟩⟩

/-- A word with a syndrome reads corrected or uncorrectable, by the bit that the free function names for it. -/
theorem witness_damagedWord {m : Memory} {a : Nat} (h : m.syndrome a = 5) :
    ((m.check a).1 = .corrected ∧ ∃ i, Config.syndromeBit 5 = some i) ∨ ((m.check a).1 = .uncorrectable ∧ Config.syndromeBit 5 = none) := by
  unfold Memory.check
  rw [h]
  cases Config.syndromeBit 5 with
  | none => exact .inr ⟨rfl, rfl⟩
  | some i => exact .inl ⟨rfl, i, rfl⟩

theorem witness_commandReady (s : State) (code : BitVec 8) (b : BeatReady s 0x3000 (CommandBeat.write code cmd)) (m : s.mem.wf = true)
    (p : batchWordAddr s = some 0x3000)
    (r : s.win.role 3 = .status ∨ (s.win.role 3 = .plain ∧ s.seqr.st = .unconfigured ∧ s.win.watch = some 0x3000))
    (k : (landedWord s 0x3000 (CommandBeat.write code cmd)).extractLsb' 0 8 = code)
    (q : (landedWord s 0x3000 (CommandBeat.write code cmd)).extractLsb' 16 16 = 9) :
    CommandReady s 0x3000 code cmd code 9 := ⟨b, m, p, by decide, by decide, r, k, q⟩

theorem witness_StepTakesFrontCommand :
    ({ base with pending := [.capture] } : State).pending = .capture :: [] ∧ base.pending = [] := by decide

theorem witness_AnchorPageFollowsTheStrap :
    (∀ k, Instr.capture ≠ .resetEnd k) ∧ (exec .capture base = .next (after .capture base)) ∧ asleep.start.inReset = true ∧
    base.start.inReset = false :=
  ⟨fun _ h => (nomatch h), rfl, rfl, rfl⟩

theorem witness_wellKept (s : State) (m : s.mem = base.mem) (r : s.integ.rewrites.length ≤ 8) (i : s.mon.intake.length ≤ 4) (p : s.power = [])
    (q : s.mon.nextSeq = 1) : WellKept s :=
  ⟨by rw [m]; decide, r, i, by rw [p]; decide, by rw [q]; decide⟩

theorem witness_StepsKeepWellKept : WellKept base ∧ step base = .next (idle base) :=
  ⟨witness_wellKept base rfl (by decide) (by decide) rfl rfl, rfl⟩

/-- A path held by its engine, whose record is begun as a restore while another waits, beside a listed and touched record. -/
theorem witness_StepsKeepWellKept_orderly :
    let s : State := { withEngine held with
      batch := { Batch.reset with list := [{ no := 1, copy := none, verdict := .unjudged, held := false }], phase := 3 }
      touched := [1, 4], queue := [entry], port := [.popHeader 3]
      light := { base.light with restoreList := [(5, .d1)], begun := [{ no := 3, pid := 0, step := .rampUp }] }
      intr := { base.intr with depth := 4 } }
    Orderly s ∧ step s = .next (idle s) := by
  refine ⟨⟨by decide, by decide, by decide, by decide, ?_, ?_, by decide, by decide, by decide, by decide, by decide, by decide,
    by decide, by decide, ?_, by decide⟩, rfl⟩
  · decide
  · intro p hp e he
    cases List.mem_singleton.mp hp
    cases Option.some.inj he
    exact ⟨owner, rfl, rfl⟩
  · intro d hd
    cases List.mem_singleton.mp hd
    decide

theorem witness_NonStoringCommandsKeepMemory :
    BusFree base ∧ PortFree base ∧ exec .capture base = .next (after .capture base) ∧
    writeAction (base.win.role (pageOf (wordAddr 0x2010))) (wordAddr 0x2010 % 4096) = .refuse ∧
    exec (.refusedWriteBeat 0x2010 (beat 5)) base = .next (after (.refusedWriteBeat 0x2010 (beat 5)) base) :=
  ⟨rfl, by decide, rfl, by decide, rfl⟩

theorem witness_OwnActsKeepThePlan : BusFree base ∧ Awake base ∧ exec (.intervalExpiry 0) base = .next (after (.intervalExpiry 0) base) :=
  ⟨rfl, rfl, rfl⟩

/-- The word at 0x5000 without a syndrome, and with one: then one of the last two clauses is met, whichever bit the free function names. -/
theorem witness_HostReadDeliversCheckedWord :
    (Awake base ∧ BusFree base ∧ PortFree base ∧ beatHeld base { write := false, addr := 0x5000, data := 0, be := 15, last := true } = false ∧
      base.mem.syndrome 0x5000 = 0) ∧
    (let s := damaged 0x5000 5 base
     Awake s ∧ BusFree s ∧ PortFree s ∧ beatHeld s { write := false, addr := 0x5000, data := 0, be := 15, last := true } = false ∧
      s.mem.syndrome (wordAddr 0x5000) ≠ 0) ∧
    ((∃ i, Config.syndromeBit 5 = some i) ∨ Config.syndromeBit 5 = none) := by
  refine ⟨by decide, by decide, ?_⟩
  cases Config.syndromeBit 5 with
  | none => exact .inr rfl
  | some i => exact .inl ⟨i, rfl⟩

theorem witness_BeatsWaitOnHolds :
    (let s : State := { base with holds := { fetch := none, wb := [3] } }
     Awake s ∧ BusFree s ∧ s.win.role (pageOf (wordAddr 0x2030)) = .active ∧ recordAt (wordAddr 0x2030 % 4096) ∈ s.holds.wb ∧
      recordAt (wordAddr 0x2030 % 4096) ∉ s.bus.reading) ∧
    (let s : State := { base with holds := { fetch := none, wb := [3] }, bus := { base.bus with granted := true, reading := [3] } }
     Awake s ∧ BusFree s ∧ s.win.role (pageOf (wordAddr 0x2034)) = .active ∧ recordAt (wordAddr 0x2034 % 4096) ∈ s.bus.reading ∧
      s.bus.granted = true ∧ s.mem.syndrome (wordAddr 0x2034) = 0) ∧
    (let s : State := { base with holds := { fetch := some 3, wb := [] } }
     Awake s ∧ BusFree s ∧ s.win.map = some pages ∧ s.win.role pages.staging = .staging ∧ s.holds.fetch = some 3 ∧ (beat 5).be ≠ 0) ∧
    (∀ s ∈ [saveWaits base, { base with integ := { base.integ with rewrites := [{ addr := 0x5000, data := 9, written := false }] } }],
      Awake s ∧ BusFree s ∧ s.bus.granted = false ∧ s.start.powerdown = false ∧
      (s.integ.rewrites ≠ [] ∨ s.port = [.popHeader 0]) ∧ (beat 5).be ≠ 0 ∧
      writeAction (s.win.role (pageOf (wordAddr 0x5000))) (wordAddr 0x5000 % 4096) ≠ .refuse) := by
  decide

theorem witness_portTaken : PortTaken (saveWaits base) := ⟨rfl, rfl, .inr ⟨.popHeader 0, by decide, .inr (.inl ⟨0, rfl⟩)⟩⟩

theorem witness_HostWriteReplacesEnabledBytes :
    (∀ s ∈ [base, damaged 0x5000 5 base], Awake s ∧ BusFree s ∧ PortFree s ∧ s.win.role (pageOf (wordAddr 0x5000)) = .plain ∧
      ¬ (s.seqr.st = .unconfigured ∧ s.win.watch = some (wordAddr 0x5000))) ∧
    ({ beat 5 with be := 0 } : BeatData).be = 0 ∧
    (let y := (damaged 0x5000 5 base).mem.syndrome (wordAddr 0x5000)
     ({ beat 5 with be := 1 } : BeatData).be ≠ 0 ∧ ({ beat 5 with be := 1 } : BeatData).be ≠ 15 ∧ y ≠ 0 ∧ y = 5) := by decide

/-- The words of the status page that pass, at the ends of their ranges (R4). -/
theorem witness_HostWriteReplacesEnabledBytes_status :
    (∀ n ∈ [4, 8, 64, 188], base.win.role (pageOf (0x3000 + n)) = .status) ∧
    wordAddr 0x3004 = 0x3000 + 4 ∧ wordAddr 0x3040 = 0x3000 + 64 ∧ wordAddr 0x30BC = 0x3000 + 188 ∧ wordAddr 0x3004 % 4096 = 4 ∧ wordAddr 0x3008 % 4096 = 8 ∧ wordAddr 0x3040 % 4096 = 64 ∧ wordAddr 0x30BC % 4096 = 188 := by
  refine ⟨by decide, rfl, rfl, rfl, rfl, rfl, rfl, rfl⟩

theorem witness_StagingWriteTouchesItsRecord :
    (base.win.map = some pages ∧ base.win.role pages.staging = .staging ∧ base.holds.fetch ≠ some 255) ∧
    BeatReady base (BitVec.ofNat 24 (pageAddr pages.staging (offRecord 255 + 4 * (2 : Fin 3).val))) (beat 5) :=
  ⟨by decide, ⟨by decide, by decide, by decide, by decide, by decide⟩⟩

/-- A partial beat to a damaged word of record 255, which lands corrected or fails. -/
theorem witness_StagingWriteTouchesItsRecord_partial :
    let s := damaged 0x1FF8 5 base
    let addr : Addr := BitVec.ofNat 24 (pageAddr pages.staging (offRecord 255 + 4 * (2 : Fin 3).val))
    s.win.map = some pages ∧ s.win.role pages.staging = .staging ∧ s.holds.fetch ≠ some 255 ∧ MergeReady s addr { beat 5 with be := 1 } ∧
    ((mergeRead s addr).1 = .corrected ∨ (mergeRead s addr).1 = .uncorrectable) :=
  ⟨by decide, by decide, by decide, ⟨by decide, by decide, by decide, by decide, by decide⟩,
   (witness_damagedWord (by decide)).imp And.left And.left⟩

theorem witness_RefusedBeatsReachTheRecord :
    (beat 5).be ≠ 0 ∧ ∀ p ∈ [ProtRecord.empty, { filled := true, further := false, addr := 0 }, { filled := true, further := true, addr := 0 }],
      let s : State := { base with prot := p }
      Awake s ∧ BusFree s ∧ writeAction (s.win.role (pageOf (wordAddr 0x103C))) (wordAddr 0x103C % 4096) = .refuse := by decide

/-- The table of R4 at the ends of its ranges: the status page's words and the four resume words with their neighbours. -/
theorem test_writeTable :
    ([0, 4, 8, 12, 24, 28, 32, 60, 64, 188, 192, 4092].map (writeAction .status)) =
      [.pass, .pass, .pass, .refuse, .refuse, .rewrite, .refuse, .refuse, .pass, .pass, .refuse, .refuse] ∧
    ([4012, 3948, 3884, 3820, 4008, 4016, 3756, 4092].map (writeAction .save)) = [.pass, .pass, .pass, .pass, .refuse, .refuse, .refuse, .refuse] ∧
    ([0, 8, 12, 4088, 4092].map (writeAction .staging)) = [.pass, .pass, .refuse, .pass, .refuse] := by decide

theorem witness_RaisedCausesArePending :
    hasCause ({ base with attn := { pending := 1, enable := 0 } } : State).attn.pending .suspend = true ∧
    hasCause base.attn.pending .suspend = false ∧ Cause.batchEnd ≠ .suspend := by decide

theorem witness_AnchorAndResumeWordWritesLand :
    (∀ s ∈ [base, unconf, { unconf with seqr := { unconf.seqr with anchorRead := true } }],
      BeatReady s (BitVec.ofNat 24 (pageAddr s.win.anchorPage (4 * (1023 : BitVec 10).toNat))) (beat 5)) ∧
    (base.seqr.st ≠ .unconfigured ∧ unconf.seqr.st = .unconfigured ∧ unconf.seqr.anchorRead = false) ∧
    (base.win.map = some pages ∧ base.win.role pages.save = .save) ∧
    BeatReady base (BitVec.ofNat 24 (pageAddr pages.save (offSlot ((3 : Fin 4).val + 1) + 44))) (beat 5) := by
  refine ⟨?_, by decide, by decide, ⟨by decide, by decide, by decide, by decide, by decide⟩⟩
  intro s h
  simp only [List.mem_cons, List.mem_nil_iff, or_false] at h
  rcases h with rfl | rfl | rfl <;> exact ⟨by decide, by decide, by decide, by decide, by decide⟩

/-- Partial beats to a damaged anchor word, in IDLE and in UNCONFIGURED, and to a damaged resume word. -/
theorem witness_AnchorAndResumeWordWritesLand_partial :
    (∀ s ∈ [damaged 0xFFC 5 base, damaged 0xFFC 5 unconf, damaged 0xFFC 5 { unconf with seqr := { unconf.seqr with anchorRead := true } }],
      let addr : Addr := BitVec.ofNat 24 (pageAddr s.win.anchorPage (4 * (1023 : BitVec 10).toNat))
      MergeReady s addr { beat 5 with be := 1 } ∧ ((mergeRead s addr).1 = .corrected ∨ (mergeRead s addr).1 = .uncorrectable)) ∧
    (let s := damaged 0x4EEC 5 base
     let addr : Addr := BitVec.ofNat 24 (pageAddr pages.save (offSlot ((3 : Fin 4).val + 1) + 44))
     MergeReady s addr { beat 5 with be := 1 } ∧ ((mergeRead s addr).1 = .corrected ∨ (mergeRead s addr).1 = .uncorrectable)) := by
  refine ⟨?_, ⟨by decide, by decide, by decide, by decide, by decide⟩, (witness_damagedWord (by decide)).imp And.left And.left⟩
  intro s h
  simp only [List.mem_cons, List.mem_nil_iff, or_false] at h
  rcases h with rfl | rfl | rfl <;>
    exact ⟨⟨by decide, by decide, by decide, by decide, by decide⟩, (witness_damagedWord (by decide)).imp And.left And.left⟩

theorem witness_AcknowledgeClearsCauses :
    Awake base ∧ BusFree base ∧ PortFree base ∧ (beat 5).be ≠ 0 ∧ base.win.map = some pages ∧ base.win.role pages.status = .status := by decide

/-- Each of the six rows, in IDLE: COMMIT is accepted and the others are not; and a COMMIT in UNCONFIGURED, at the command watch. -/
theorem witness_CommandsAreAnsweredByTheTable :
    (∀ k ∈ [(1 : BitVec 8), 2, 3, 4, 5, 9], CommandReady base 0x3000 k cmd k 9) ∧ CommandReady unconf 0x3000 1 cmd 1 9 ∧
    (.commit cmd, 1) ∈ batchWrites 9 cmd ∧ (.unknownCommand 9 cmd, 9) ∈ batchWrites 9 cmd ∧
    responseTo base 1 9 = .accepted ∧ (∀ k ∈ [(2 : BitVec 8), 3, 4, 5, 9], responseTo base k 9 ≠ .accepted) ∧
    responseTo unconf 1 9 ≠ .accepted ∧ responseTo (endingIn .checking) 2 9 = .state ∧ responseTo (inBatch .checking .check) 2 9 = .accepted := by
  refine ⟨?_, ?_, by decide, by decide, by decide, by decide, by decide, by decide, by decide⟩
  · intro k h
    simp only [List.mem_cons, List.mem_nil_iff, or_false] at h
    rcases h with rfl | rfl | rfl | rfl | rfl | rfl <;>
      exact witness_commandReady _ _ ⟨by decide, by decide, by decide, by decide, by decide⟩ (by decide) (by decide) (by decide) (by decide) (by decide)
  · exact witness_commandReady _ _ ⟨by decide, by decide, by decide, by decide, by decide⟩ (by decide) (by decide) (by decide) (by decide) (by decide)

/-- A partial batch-word beat to a damaged word, in the status page and at the command watch. -/
theorem witness_CommandsAreAnsweredByTheTable_partial :
    ∀ s ∈ [damaged 0x3000 5 base, damaged 0x3000 5 unconf],
      MergeReady s (BitVec.ofNat 24 0x3000) (CommandBeat.write 1 { cmd with be := 1 }) ∧ s.mem.wf = true ∧ batchWordAddr s = some 0x3000 ∧
      (s.win.role (pageOf 0x3000) = .status ∨ (s.win.role (pageOf 0x3000) = .plain ∧ s.seqr.st = .unconfigured ∧ s.win.watch = some 0x3000)) ∧
      ((mergeRead s 0x3000).1 = .corrected ∨ (mergeRead s 0x3000).1 = .uncorrectable) := by
  intro s h
  simp only [List.mem_cons, List.mem_nil_iff, or_false] at h
  rcases h with rfl | rfl <;>
    exact ⟨⟨by decide, by decide, by decide, by decide, by decide⟩, by decide, by decide, by decide,
      (witness_damagedWord (by decide)).imp And.left And.left⟩

theorem witness_CommitBeginsABatch :
    CommandReady base 0x3000 1 cmd 1 9 ∧ (9 : BitVec 16) ≠ 0 ∧ base.seqr.st = .idle ∧ base.intr.depth = 0 ∧ base.seqr.reread = .none ∧
    base.start.powerdown = false ∧ base.win.map.isSome = true :=
  ⟨witness_commandReady _ _ ⟨by decide, by decide, by decide, by decide, by decide⟩ (by decide) (by decide) (by decide) (by decide) (by decide), by decide⟩

theorem witness_CancelStopsARunningBatch :
    let s := inBatch .running .run
    CommandReady s 0x3000 2 cmd 2 9 ∧ (s.seqr.st = .running ∨ s.seqr.st = .holding ∨ s.seqr.st = .held) ∧ s.batch.present = true ∧
    s.batch.ending = false ∧ (s.queue.map (·.no)).Nodup :=
  ⟨witness_commandReady _ _ ⟨by decide, by decide, by decide, by decide, by decide⟩ (by decide) (by decide) (by decide) (by decide) (by decide), by decide⟩

/-- An entry of each form that gives up its claims: a new path alone, both paths, an old path alone, an adoption. -/
theorem witness_CancelStopsARunningBatch_claims :
    (entry.kind ≠ .adopt ∧ entry.newP = some 0 ∧ entry.oldP = none ∧ (entry.kind ≠ .move ∨ entry.half = .old)) ∧
    (let e := { entry with kind := .move, oldP := some 1, half := .old }
     e.kind ≠ .adopt ∧ e.newP = some 0 ∧ e.oldP = some 1 ∧ e.half = .old) ∧
    (let e := { entry with kind := .move, half := .new }
     e.kind = .move ∧ e.half = .new) ∧
    (let e := { entry with kind := .remove, newP := none, oldP := some 1 }
     e.newP = none ∧ e.oldP = some 1) ∧
    (let e := { entry with kind := .adopt }
     e.kind = .adopt ∧ e.oldP = none) := by decide

/-- A batch in CHECKING: the host's, a recovery batch, and one begun by ABANDON. -/
theorem witness_CancelEndsAnUncheckedBatch :
    ∀ r ∈ [none, some ⟨false, true⟩, some ⟨true, false⟩],
      let s : State := { inBatch .checking .check with batch := { (inBatch .checking .check).batch with recovery := r } }
      CommandReady s 0x3000 2 cmd 2 9 ∧ (s.seqr.st = .fetching ∨ s.seqr.st = .checking) ∧ s.batch.present = true ∧ s.batch.ending = false ∧
      s.batch.recovery = r ∧ s.win.map.isSome = true := by
  intro r h
  simp only [List.mem_cons, List.mem_nil_iff, or_false] at h
  rcases h with rfl | rfl | rfl <;>
    exact ⟨witness_commandReady _ _ ⟨by decide, by decide, by decide, by decide, by decide⟩ (by decide) (by decide) (by decide) (by decide) (by decide),
      by decide⟩

/-- A table with claims of a check: a RESERVED path (1) that owns an entry and holds a pledge on the leaving path's (0), a path (3) pledged on an
entry of the RESERVED one, and an adoption claimed (2) with its port. -/
def claims : ConnTable :=
  { ConnTable.reset with
    paths := [{ path with leaving := true }, { path with pid := 1, st := .reserved }, { path with pid := 2, st := .foreign, claimed := some 5 }, { path with pid := 3 }]
    occ := [{ res := .out (.deg .d2) 0, owner := 0, pledge := some 1 }, { res := .inp .d1 7, owner := 1, pledge := none },
            { res := .inp .d3 7, owner := 1, pledge := some 3 }, { res := .addPort ⟨.g1, 0⟩, owner := 2, pledge := none },
            { res := .inp .d4 0, owner := 3, pledge := some 0 }] }

theorem witness_CancelEndsAnUncheckedBatch_undo :
    (claims.paths.map (·.pid)).Nodup ∧ (claims.occ.map (·.res)).Nodup ∧
    claims.undo.paths.map (fun p => (p.pid, p.leaving, p.claimed)) = [(0, false, none), (2, false, none), (3, false, none)] ∧
    claims.undo.entry (.out (.deg .d2) 0) = some { res := .out (.deg .d2) 0, owner := 0, pledge := none } ∧
    claims.undo.entry (.inp .d1 7) = none ∧ claims.undo.entry (.inp .d3 7) = some { res := .inp .d3 7, owner := 3, pledge := none } ∧
    claims.undo.entry (.addPort ⟨.g1, 0⟩) = none ∧ claims.undo.entry (.inp .d4 0) = claims.entry (.inp .d4 0) ∧
    claims.undo.entry (.inp .d2 0) = none := by decide

theorem witness_HoldAndReleaseSwitchTheRun :
    (let s := inBatch .running .run
     s.batch.present = true ∧ s.batch.ending = false ∧ s.win.map.isSome = true ∧ CommandReady s 0x3000 3 cmd 3 9 ∧ s.seqr.st = .running) ∧
    (let s := inBatch .held .run
     s.batch.present = true ∧ s.batch.ending = false ∧ s.win.map.isSome = true ∧ CommandReady s 0x3000 4 cmd 4 9 ∧
       (s.seqr.st = .holding ∨ s.seqr.st = .held)) :=
  ⟨⟨rfl, rfl, rfl, witness_commandReady _ _ ⟨by decide, by decide, by decide, by decide, by decide⟩ (by decide) (by decide) (by decide) (by decide)
      (by decide), rfl⟩,
   ⟨rfl, rfl, rfl, witness_commandReady _ _ ⟨by decide, by decide, by decide, by decide, by decide⟩ (by decide) (by decide) (by decide) (by decide)
      (by decide), .inr rfl⟩⟩

theorem witness_ResumeJoinsTheWorkList :
    let s := atDepth 1 (inState .suspended)
    CommandReady s 0x3000 5 cmd 5 9 ∧ 0 < s.intr.depth ∧ s.seqr.st ≠ .unconfigured ∧ s.seqr.st ≠ .rebuilding ∧ s.seqr.st ≠ .powerdown :=
  ⟨witness_commandReady _ _ ⟨by decide, by decide, by decide, by decide, by decide⟩ (by decide) (by decide) (by decide) (by decide) (by decide), by decide⟩

theorem witness_ResetCutsOffTheBus :
    portBlocked asleep = true ∧
    (let s := granting (.popHeader 2)
     portBlocked s = false ∧ s.integ.rewrites = [] ∧ nextReq s.port = some (.popHeader 2) ∧
       writeOf s (.popHeader 2) = some (0x4FFC, [2])) ∧
    (let r : Rewrite := { addr := 0x5000, data := 9, written := false }
     let s : State := { base with integ := { base.integ with rewrites := [r] } }
     portBlocked s = false ∧ s.integ.rewrites = r :: [] ∧ portBlocked (granting (.scrub 0)) = false ∧
       nextReq (granting (.scrub 0)).port = some (.scrub 0) ∧ writeOf (granting (.scrub 0)) (.scrub 0) = none) ∧
    asleep.start.inReset = true := by decide

theorem witness_ResetEndGivesTheStatedValues : asleep.start.inReset = true ∧ base.start.inReset = false := ⟨rfl, rfl⟩

theorem witness_MonitorPortAfterReset :
    State.reset = State.reset ∧ asleep.start.inReset = true ∧ exec (.resetEnd 1) asleep = .next (after (.resetEnd 1) asleep) := ⟨rfl, rfl, rfl⟩

theorem witness_FirstQualificationSetsTheLightState :
    Awake base ∧ base.start.powerdown = false ∧ (base.light.qual.get .d1).level = none ∧ base.seqr.st ≠ .rebuilding ∧
    (let s := inState .rebuilding
     Awake s ∧ s.start.powerdown = false ∧ (s.light.qual.get .d1).level = none ∧ s.seqr.st = .rebuilding) ∧
    (let s : State := { base with light := { base.light with qual := .const { pin := true, level := some true, run := 0 } } }
     Awake s ∧ (s.light.qual.get .d1).level ≠ none) ∧
    (let s : State := { base with start := { base.start with powerdown := true } }
     Awake s ∧ (s.light.qual.get .d1).level = none ∧ s.seqr.st ≠ .rebuilding ∧ s.start.powerdown = true) := by decide

theorem witness_QualifiedLossByLightState :
    (let s : State := { base with start := { base.start with powerdown := true } }
     Awake s ∧ s.start.powerdown = true) ∧
    (∀ l ∈ [LightState.dark, .holdoff, .lit], let s := lightIn l base
      Awake s ∧ s.start.powerdown = false ∧ s.light.state.get .d4 = l ∧ lightActs s = true) ∧
    (∀ st ∈ [SeqState.idle, .unconfigured], let s : State := { lightIn .lit (withEngine held) with seqr := { base.seqr with st := st } }
      Awake s ∧ s.start.powerdown = false ∧ s.light.state.get .d1 = .lit ∧ (lightActs s = true ∨ s.seqr.st = .unconfigured) ∧
      s.light.begun = [] ∧ (s.table.paths.map (·.pid)).Nodup ∧ s.table.paths = [path] ∧ path.src = .deg .d1 ∧ path.engine = some 0 ∧
      path.handsSlot = true ∧ isFaulted s path.dst.out = false) ∧
    (path.st = .ramping ∧ ({ path with st := .live } : Path).st = .live ∧ ({ path with st := .squelched } : Path).st = .squelched ∧
      ({ path with st := .reserved } : Path).st = .reserved) ∧
    (base.win.map.isSome = true ∧ hasCause (64 : BitVec 8) .lightChange = true ∧ hasCause base.attn.pending .lightChange = false ∧
      unconf.win.map = none) := by decide

/-- A LIVE path of record 3 from D1, the only one of its record; record 4 has none. -/
theorem witness_QualifiedLossByLightState_fixed :
    let p : Path := { path with owner := some (3, .old), st := .live, engine := none }
    let s : State := running .idle [] [p]
    p ∈ s.table.paths ∧ p.src = .deg .d1 ∧ p.st = .live ∧ p.owner = some (3, .old) ∧ p.host = some conn ∧ s.table.paths = [p] ∧ p.owner ≠ some (4, .old) ∧
    lightActs s = true ∧ lightActs unconf = false := by decide

/-- What the loss of D1 fixes, and that its capture holds the Restore List's entry of D2 back until the depth is 0 again (R49, R152). -/
theorem test_lossFixesAndHoldsRestores :
    let p : Path := { path with owner := some (3, .old), st := .live, engine := none }
    let s : State := { running .idle [] [p] with batch := Batch.reset }
    let t := lossFromLit .d1 { s with light := { s.light with restoreList := [(4, .d2)] } }
    t.completed 3 = .path { st := .squelched, host := conn, att := .db 100, measured := none } ∧ t.light.restoreList = [(4, .d2)] ∧
    t.light.restoresHeld = true ∧ restoreDue t = false ∧ restoreDue { t with light := { t.light with restoresHeld := false } } = true ∧
    (let u : State := { t with intr := { t.intr with item := some (.resume .popping .cont false), images := [[0]], depth := 1, work := [] } }
     (popped 0 u).light.restoresHeld = false ∧ restoreDue (popped 0 u) = true) := by decide

/-- The light word of a loss stands behind the active write that its squelch asks for (log 87). -/
theorem test_lightWordBehindTheSquelch :
    let p : Path := { path with owner := some (3, .old), st := .live, engine := none }
    let s : State := { running .idle [] [p] with batch := Batch.reset, attn := { pending := 64, enable := 0 } }
    (lossFromLit .d1 s).port = [.active 3, .light] := by decide

theorem witness_ClearAndExpiryRunTheHoldOff :
    (Awake base ∧ base.start.powerdown = false ∧ base.light.state.get .d1 = .dark) ∧
    (Awake (lightIn .lit base) ∧ (lightIn .lit base).light.state.get .d1 ≠ .dark) ∧
    (let s : State := { base with light := { base.light with state := .const .holdoff, holdOff := .const (some 1) } }
     Awake s ∧ s.light.state.get .d1 = .holdoff ∧ s.light.holdOff.get .d1 ≠ some 0 ∧ s.start.powerdown = false) ∧
    (let s : State := { base with light := { base.light with state := .const .holdoff, holdOff := .const (some 0) } }
     Awake s ∧ s.light.state.get .d1 = .holdoff ∧ s.light.holdOff.get .d1 = some 0 ∧ s.start.powerdown = false) ∧
    (Awake base ∧ base.light.state.get .d1 ≠ .holdoff) := by decide

/-- Record 3's path, SQUELCHED at the fill. -/
def dimPath : Path := { path with owner := some (3, .old), st := .squelched, route := .fill, att := .block, engine := none }

/-- Record 3 on the Restore List, SQUELCHED on a LIT degree. -/
def restoring : State :=
  { lightIn .lit base with
    light := { (lightIn .lit base).light with restoreList := [(3, .d1)] }
    profiles := base.profiles.set 0 prof
    table := { ConnTable.reset with paths := [dimPath], nextPid := 1, done := [(3, dimPath.completed (some cfg) .squelched)] } }

theorem witness_ClearAndExpiryRunTheHoldOff_restores :
    (restoring.light.restoreList = (3, .d1) :: [] ∧ restoring.intr.depth = 0 ∧ restoring.light.begun.length < 4 ∧ lightActs restoring = true ∧
      restoring.seqr.rereadDue = false ∧ restoring.seqr.reread = .none ∧ restoring.start.powerdown = false ∧ restoring.light.restoresHeld = false ∧
      ({ restoring.light with restoresHeld := true } : Light).restoresHeld = true ∧
      restoring.table.halfPath 3 .old = some dimPath ∧ dimPath.st = .squelched ∧ dimPath.src = .deg .d1 ∧
      restoring.light.state.get .d1 = .lit ∧ (restoring.profiles[(dimPath.info.map (·.profile)).getD 0]).valid = true ∧
      isFaulted restoring dimPath.dst.out = false ∧ restoring.act.ordinary.length < 24 ∧ restoring.act.wait = []) ∧
    (∃ x, restoring.completed 3 = .path x ∧ x.st = .squelched) ∧ (lightIn .dark restoring).light.state.get .d1 ≠ .lit ∧
    (∀ p ∈ [dimPath, { dimPath with route := .source, engine := some 0, att := .db 90 }, { dimPath with route := .source, engine := some 0 },
        { dimPath with route := .source }], ∀ k ∈ [ChainStep.connect, .rampUp, .verify, .returning, .disconnect],
      let x : Restore := { no := 3, pid := 0, step := k }
      let s : State := { restoring with light := { restoring.light with begun := [x] }, table := { restoring.table with paths := [p] } }
      let f : State := { s with act := { s.act with mods := .const .faulted } }
      s.restore? 3 = some x ∧ s.path? x.pid = some p ∧ s.start.powerdown = false ∧
        (p.route = .fill ∨ (p.engine = some 0 ∧ (atTop p.att = false ∨ atTop p.att = true)) ∨ p.engine = none) ∧
        (handOrdinary (disconnectCmd s p (.restore 3 0 .disconnectKeep)) s).isSome = true ∧
        handOrdinary (disconnectCmd f p (.restore 3 0 .disconnectKeep)) f = none) := by
  refine ⟨by decide, ⟨_, rfl, rfl⟩, by decide, by decide⟩

/-- A record that a clear restores (R147), and what passes it over: an entry, a batch that holds it, the permit, another degree. -/
theorem test_restorable :
    let s : State := { restoring with light := { restoring.light with restoreList := [] } }
    restorable .d1 s 3 = true ∧ restorable .d1 restoring 3 = false ∧ restorable .d4 s 3 = false ∧ restorable .d1 s 4 = false ∧
    (let b : BatchRec := { no := 3, copy := none, verdict := .unjudged, held := true }
     restorable .d1 { s with batch := { s.batch with list := [b] } } 3 = false ∧
     restorable .d1 { s with batch := { s.batch with list := [{ b with held := false }] } } 3 = true) ∧
    restorable .d1 { s with table := { s.table with paths := [{ dimPath with info := none }] } } 3 = false := by decide

/-- A restore whose path's profile is not valid. -/
theorem witness_ClearAndExpiryRunTheHoldOff_profile :
    let s : State := { restoring with profiles := base.profiles }
    s.table.halfPath 3 .old = some dimPath ∧ s.path? dimPath.pid = some dimPath ∧ dimPath.route = .fill ∧ (∀ y ∈ s.light.begun, y.no ≠ 3) ∧
    (s.profiles[(dimPath.info.map (·.profile)).getD 0]).valid = false := by decide

/-- Record 3's restore under way from D1, on engine 0. -/
def restoreRuns : State :=
  { withEngine { held with owner := some { owner with restore := true } } with
    table := { ConnTable.reset with paths := [{ path with owner := some (3, .old) }], nextPid := 1 }
    light := { (lightIn .lit base).light with begun := [{ no := 3, pid := 0, step := .rampUp }] }
    act := { base.act with ordinary := [frame .atten (.engine 0 0 { owner with restore := true })]
                           wait := [frame .route (.restore 3 0 .connect)] } }

theorem witness_ClearAndExpiryRunTheHoldOff_stopped :
    let s := restoreRuns
    (s.table.paths.map (·.pid)).Nodup ∧ (s.light.begun.map (·.no)).Nodup ∧
    s.table.recordPaths 3 = [{ path with owner := some (3, .old) }] ∧ path.pid = 0 ∧ path.host ≠ none ∧ path.engine = some 0 ∧
    (s.engine 0).owner = some { owner with restore := true } ∧ owner.pid = path.pid ∧
    s.path? 0 = some { path with owner := some (3, .old) } ∧ path.src = .deg .d1 ∧ path.src ≠ .deg .d4 ∧
    (let u := inTxn (frame .route (.restore 3 0 .connect)) 1 s
     u.act.txn.map (·.cmd.req) = some (.restore 3 0 .connect) ∧ (inTxn atten 1 s).act.txn.map (·.cmd.req) = some atten.req) := by decide

/-- What the squelch of D1 leaves of that restore (R152), and that of D4. -/
theorem test_squelchStopsItsRestore :
    (let t := squelchDegree .d1 restoreRuns
     t.light.begun = [] ∧ t.act.ordinary = [] ∧ t.act.wait = [] ∧ (t.engine 0).st = .free ∧ t.port = [.active 3] ∧
      t.table.paths.map (fun p => (p.st, p.route, p.squelched, p.engine)) = [(.squelched, .fill, false, none)] ∧
      (match t.completed 3 with | .path y => some y.st | _ => none) = some .squelched) ∧
    (squelchDegree .d4 restoreRuns).table = restoreRuns.table ∧ (squelchDegree .d4 restoreRuns).light = restoreRuns.light := by decide

/-- The late ACK of that restore's ROUTE sets the attenuation alone, though a restore of the record stands on its CONNECT anew (R50, R131). -/
theorem test_stoppedRestoreIsGone :
    let t := squelchDegree .d1 (inTxn (frame .route (.restore 3 0 .connect)) 1 restoreRuns)
    let anew : State := { t with light := { t.light with begun := [{ no := 3, pid := 0, step := .connect }] } }
    t.act.txn.map (·.cmd.req) = some (.gone 0) ∧
    ((after (.routeAck reply) anew).table.paths.map (fun p => (p.st, p.route, p.att))) = [(.squelched, .fill, .db 100)] ∧
    (after (.routeAck reply) anew).light.begun = anew.light.begun := by decide

theorem witness_PowerFailPinPausesAndResumes :
    (Awake base ∧ lightActs base = true ∧ base.start.powerdown = false) ∧
    (∀ st ∈ [SeqState.rebuilding, .unconfigured], Awake (inState st) ∧ ((inState st).seqr.st = .rebuilding ∨ (inState st).seqr.st = .unconfigured) ∧
      (inState st).start.powerdown = false) ∧
    (let s : State := { inState .powerdown with start := { base.start with powerdown := true } }
     Awake s ∧ s.start.powerdown = true ∧ s.seqr.st = .powerdown) := by decide

/-- POWERDOWN and its flag alone, with finishes put off; the degrees by light state, loss seen and level. -/
theorem witness_PowerFailPinPausesAndResumes_ends :
    (∀ st ∈ [SeqState.powerdown, .rebuilding],
      let s : State := { inState st with start := { base.start with powerdown := true, deferred := [.restore 3] } }
      Awake s ∧ s.start.powerdown = true ∧ (s.seqr.st = .powerdown ∨ s.seqr.st ≠ .powerdown)) ∧
    (∀ l ∈ [LightState.lit, .dark, .holdoff], ∀ seen ∈ [true, false], ∀ v ∈ [some false, some true, none],
      let s : State := { base with light := { base.light with
        state := .const l, lossSeen := .const seen, qual := .const { pin := false, level := v, run := 0 } } }
      s.light.state.get .d1 = l ∧ s.light.lossSeen.get .d1 = seen ∧ (s.light.qual.get .d1).level = v) ∧
    Awake base ∧ base.start.powerdown = false := by decide

/-- A finish with the POWERDOWN flag set waits for its end (R97). -/
theorem test_finishWaitsInPowerdown :
    let s : State := { inState .powerdown with start := { base.start with powerdown := true } }
    (finishEntry 3 .done true (endRestore 4 s)).start.deferred = [.restore 4, .entry 3 .done true] ∧ (finishEntry 3 .done true s).port = [] := by decide

theorem test_latchedLossActsAtTheEnd :
    let s : State := { inState .powerdown with
      start := { base.start with powerdown := true }
      light := { base.light with state := .const .lit, lossSeen := ⟨true, false, false, false⟩
                                 qual := .const { pin := false, level := some false, run := 0 } } }
    (after .pfwDeassertion s).light.state = ⟨.holdoff, .lit, .lit, .lit⟩ ∧
      WorkItem.capture (.los .d1) ∈ (after .pfwDeassertion s).intr.work := by decide

theorem witness_CaptureTimeAdvances :
    let s : State := { base with clock := { base.clock with ms := 0xFFFFFFFF } }
    Awake s ∧ s.clock.ms = 0xFFFFFFFF := by decide

/-- Counts one above their end and at it, and inputs one sample short of a level and at it. -/
theorem witness_CaptureTimeAdvances_counts :
    (let q : Qualifier := { pin := true, level := none, run := 8 }
     (q.level ≠ some q.pin ∧ q.run + 1 < 10 ∧ 10 ≤ ({ q with run := 9 } : Qualifier).run + 1 ∧
       ({ q with level := some true } : Qualifier).level = some q.pin) ∧
     ((q.tick 10).2 = false ∧ (({ q with run := 9 } : Qualifier).tick 10).2 = true ∧
       (({ q with run := 1 } : Qualifier).tick 3).2 = false ∧ (({ q with run := 2 } : Qualifier).tick 3).2 = true)) ∧
    (∀ n ∈ [1, 2], ∀ c ∈ [true, false], let g := (withEngine { held with count := n, counting := c }).engine 0
      g.st ≠ .free ∧ g.count = n ∧ g.counting = c) ∧
    (base.engine 0).st = .free ∧ held.prof.x16 = false ∧
    (∀ n ∈ [1, 2], let x : Txn := { cmd := atten, attempt := 1, sendLeft := 0, timer := n }
      ({ base with act := { base.act with txn := some x } } : State).act.txn = some x ∧ x.sendLeft = 0) ∧
    (base.act.txn = none ∧ scrubRuns base = true ∧ scrubRuns unconf = false ∧ base.mon.linkUp = false) ∧
    (base.light.holdOff.get .d1 = none ∧ ({ base.light with holdOff := .const (some 1) } : Light).holdOff.get .d1 = some 1) ∧
    ownEvent base = none ∧ (portNext base).isNone = true ∧ asleep.start.inReset = true := by decide

/-- A load of 1: the first tick after the grant starts the count, the next ends the interval (R103). -/
theorem test_firstTickStartsTheCount :
    let s := withEngine { held with count := 1 }
    let t := tickEngine false s 0
    (t.engine 0).count = 1 ∧ t.pending = [] ∧ (tickEngine false t 0).pending = [.intervalExpiry 0] := by decide

theorem witness_SamplesJoinTheIntake :
    (∀ f ∈ [{ sampleOf 4 with checksumOk := false }, { sampleOf 4 with power := 101 }, { sampleOf 4 with slot := 64 },
      { sampleOf 4 with point := none }], sampleEntry f = none) ∧ sampleEntry (sampleOf 4) = some (taken 4) ∧ Awake base ∧
    base.mon.linkUp = false ∧ ({ base.mon with linkUp := true } : Monitor).linkUp = true ∧
    (∀ v ∈ [(-600 : Int), 100], let f : SampleFrame := { sampleOf 4 with power := v, slot := 63 }
      f.point = some (.deg .d2) ∧ f.slot = (63 : Fin 64).val ∧ f.whole = true ∧ f.checksumOk = true ∧ f.kindOk = true ∧ -600 ≤ f.power ∧
      f.power ≤ 100) := by decide

theorem witness_MatchedSampleReachesItsEngine :
    (let s : State := { withEngine { held with samp := .outstanding } with
        mon := { base.mon with intake := [taken 4], out := [asked 4], linkUp := true } }
     Awake s ∧ s.mon.intake = taken 4 :: [] ∧ (taken 4).overwritten = false ∧ (taken 4).seq ≠ 0 ∧ s.mon.stale.contains (taken 4).seq = false ∧
      s.mon.out = asked 4 :: [] ∧ (asked 4).seq = (taken 4).seq ∧ (asked 4).point = (taken 4).point ∧ (asked 4).slot = (taken 4).slot ∧
      (asked 4).asker = some { engine := 0, grant := 0 } ∧ (s.engine 0).st ≠ .free ∧ (s.engine 0).grant = 0 ∧
      (s.engine 0).samp = .outstanding) ∧
    (let r : OutReq := { asked 4 with asker := none }
     let s : State := { base with mon := { base.mon with intake := [taken 4], out := [r] } }
     Awake s ∧ s.mon.intake = taken 4 :: [] ∧ s.mon.stale.contains (taken 4).seq = false ∧ s.mon.out = r :: [] ∧ r.seq = (taken 4).seq ∧
      r.point = (taken 4).point ∧ r.slot = (taken 4).slot ∧ r.asker = none) := by decide

theorem witness_OtherSamplesAreJudged :
    (∀ i ∈ [taken 0, taken 4], let s : State := { base with mon := { base.mon with intake := [i], stale := [] } }
      Awake s ∧ s.mon.intake = i :: [] ∧ i.overwritten = false ∧ s.mon.out = [] ∧ s.mon.stale.contains i.seq = false) ∧
    (taken 0).seq = 0 ∧ (taken 4).seq ≠ 0 ∧
    (let s : State := { base with mon := { base.mon with intake := [taken 4], stale := [4] } }
     Awake s ∧ s.mon.intake = taken 4 :: [] ∧ s.mon.stale.contains (taken 4).seq = true) ∧
    (let i := { taken 4 with overwritten := true }
     let s : State := { base with mon := { base.mon with intake := [i], out := [asked 4] } }
     Awake s ∧ s.mon.intake = i :: [] ∧ i.overwritten = true ∧ s.mon.out ≠ []) ∧
    (let s : State := { withEngine { held with samp := .outstanding } with mon := { base.mon with intake := [taken 5], out := [asked 4] } }
     Awake s ∧ s.mon.intake = taken 5 :: [] ∧ (taken 5).overwritten = false ∧ (taken 5).seq ≠ 0 ∧ s.mon.stale.contains (taken 5).seq = false ∧
      s.mon.out = asked 4 :: [] ∧ (asked 4).seq ≠ (taken 5).seq ∧ (asked 4).asker = some { engine := 0, grant := 0 } ∧
      (s.engine 0).st ≠ .free ∧ (s.engine 0).grant = 0 ∧ (s.engine 0).samp = .outstanding) := by decide

theorem witness_SilenceBringsTheLinkDown :
    (Awake base ∧ base.mon.linkUp = false) ∧
    (let s : State := { base with mon := { base.mon with linkUp := true, out := [asked 4] } }
     Awake s ∧ s.mon.linkUp = true ∧ s.mon.silence = 0 ∧ s.win.map.isSome = true) ∧
    (Awake base ∧ ({ base.mon with silence := 1 } : Monitor).silence ≠ 0) := by decide

theorem witness_MeasureSendsTheHeadRequest :
    (let s : State := { base with mon := { base.mon with linkUp := true, send := [toSend] } }
     Awake s ∧ measureDue s = true ∧ s.mon.send = toSend :: [] ∧ s.mon.out.length < 12 ∧ ∀ x ∈ s.mon.out, x.seq ≠ s.mon.nextSeq) ∧
    (let s : State := { base with mon := { base.mon with linkUp := true, send := [toSend], nextSeq := 255, out := [asked 255, asked 1] } }
     Awake s ∧ measureDue s = true ∧ s.mon.send = toSend :: [] ∧ s.mon.out.length < 12 ∧ (2 : BitVec 8) = nextSequence^[2] s.mon.nextSeq ∧
      (∃ x ∈ s.mon.out, x.seq = nextSequence^[0] s.mon.nextSeq) ∧ (∃ x ∈ s.mon.out, x.seq = nextSequence^[1] s.mon.nextSeq) ∧
      ∀ x ∈ s.mon.out, x.seq ≠ 2) ∧
    (let o : OutReq := { asked 20 with asker := none }
     let s : State := { base with mon := { base.mon with linkUp := true, send := [toSend], out := o :: List.replicate 11 (asked 9) } }
     Awake s ∧ measureDue s = true ∧ s.mon.send = toSend :: [] ∧ 12 ≤ s.mon.out.length ∧ s.mon.out.find? (fun x => x.asker.isNone) = some o ∧
      ∀ x ∈ s.mon.out, x.seq ≠ s.mon.nextSeq) := by decide

/-- No MEASURE is due with an empty send list. -/
theorem witness_MeasureSendsTheHeadRequest_notDue : Awake base ∧ measureDue base = false := by decide

theorem witness_PowerAverageRoundsTowardZero : ([1, 2, 3, 4] : List Int).length ≤ 4 ∧ ([] : List Int).length ≤ 4 := by decide +kernel

theorem witness_TransactionBeginsInOrder :
    (let c := frame .route .squelch
     let s : State := { base with act := { base.act with urgent := [c] } }
     Awake s ∧ s.act.txn = none ∧ s.act.urgent.find? (urgentMaySend s) = some c) ∧
    (let s : State := { base with act := { base.act with ordinary := [atten] } }
     Awake s ∧ s.act.txn = none ∧ s.act.urgent.find? (urgentMaySend s) = none ∧ s.act.ordinary.find? (ordinaryMaySend s) = some atten) ∧
    (Awake base ∧ base.act.txn = none ∧ base.act.urgent.find? (urgentMaySend base) = none ∧
      base.act.ordinary.find? (ordinaryMaySend base) = none) := by decide

/-- A FAULTED module, a free queue, a full one with the place wait list empty and with one waiting. -/
theorem witness_TransactionBeginsInOrder_places :
    (({ base.act with mods := .const .faulted } : Actuator).mods.get atten.module = .faulted ∧ atten.kind ≠ .read) ∧
    (base.act.mods.get atten.module ≠ .faulted ∧ base.act.ordinary.length < 24 ∧ base.act.wait = []) ∧
    (24 ≤ (List.replicate 24 atten).length ∧ atten.req = .engine 0 0 owner ∧ (frame .route (.entry 3 0 .connect)).req = .entry 3 0 .connect) ∧
    ((withEngine held).engine 0).st ≠ .free ∧ ((withEngine held).engine 0).grant = 0 ∧ (base.engine 0).st = .free := by decide

/-- What may be sent in REBUILDING, in POWERDOWN, in a refresh pass and to a FAULTED module (R132, R137, R138, R139). -/
theorem test_maySend :
    let read := frame .read .readback
    let squelch := frame .route .squelch
    let down : State := { base with start := { base.start with powerdown := true } }
    let passing : State := { base with act := { base.act with refresh := some { mods := [.grp .g1] } } }
    let faulted : State := { base with act := { base.act with mods := .const .faulted } }
    (urgentMaySend base squelch ∧ urgentMaySend down squelch ∧ ¬ urgentMaySend down (frame .ping .refresh) ∧
      ¬ urgentMaySend (inState .rebuilding) squelch) ∧
    (ordinaryMaySend base atten ∧ ordinaryMaySend (inState .rebuilding) read ∧ ordinaryMaySend faulted read ∧ ¬ ordinaryMaySend faulted atten ∧
      ¬ ordinaryMaySend (inState .rebuilding) atten ∧ ¬ ordinaryMaySend down read ∧ ¬ ordinaryMaySend passing read) := by decide

/-- A frame with its values fixed and one without; a slot owned by a path at its source and at the fill, and a free one; each fill. -/
theorem witness_TransactionBeginsInOrder_image :
    atten.built = true ∧ ({ atten with built := false } : ActCmd).built = false ∧
    (∀ r ∈ [PathRoute.source, .fill],
      let s : State := { base with table := { ConnTable.reset with
        paths := [{ path with route := r }], occ := [{ res := .out (.deg .d2) 0, owner := 0, pledge := none }] } }
      s.table.entry (.out (.deg .d2) 0) = some { res := .out (.deg .d2) 0, owner := 0, pledge := none } ∧
        s.path? 0 = some { path with route := r } ∧ s.table.entry (.out (.deg .d3) 0) = none) ∧
    base.hasImage = true ∧ State.reset.hasImage = false ∧ cfg.fill.get .d1 = true ∧ ({ cfg with fill := .const false } : AnchorCfg).fill.get .d1 = false :=
  by decide

theorem witness_RouteAckRoutesThePath :
    ∀ q ∈ [Requester.squelch, .fillChange, .refresh, .gone 0, .entry 3 0 .connect, .entry 3 9 .connect],
      let c := frame .route q
      let s := inTxn c 1 (withEngine held)
      Awake s ∧ s.act.txn = some { cmd := c, attempt := 1, sendLeft := 0, timer := 200 } ∧ reply.checksumOk = true ∧ reply.module = c.module ∧
      c.kind = .route ∧ c.req = q ∧ s.path? 0 = some path ∧ s.path? 9 = none := by decide

theorem witness_RouteAckRoutesThePath_released :
    (∀ u ∈ [RouteUse.disconnect, .disconnectKeep],
      let x : Entry := { entry with kind := .remove, oldP := some 0, newP := none, half := .old, chain := [.disconnect] }
      let c := frame .route (.entry 3 0 u)
      let s := inTxn c 1 (running .running [x] [path])
      Awake s ∧ reply.module = c.module ∧ c.kind = .route ∧ s.path? 0 = some path ∧ standsOn s 3 0 .disconnect = true) ∧
    (∀ k ∈ [ChainStep.connect, .disconnect],
      let y : Restore := { no := 3, pid := 0, step := k }
      let c := frame .route (.restore 3 0 (if k = .connect then .connect else .disconnectKeep))
      let s := inTxn c 1 { withEngine held with light := { base.light with begun := [y] } }
      Awake s ∧ reply.module = c.module ∧ c.kind = .route ∧ s.path? 0 = some path ∧ s.restore? 3 = some y ∧ y.pid = 0 ∧ y.step = k) ∧
    (let o : Occ := { res := .out (.deg .d2) 0, owner := 0, pledge := some 1 }
     let t : ConnTable := { ConnTable.reset with occ := [o, { o with res := .inp .d1 0, owner := 2, pledge := some 0 }] }
     (t.occ.map (·.res)).Nodup ∧ t.entry (.out (.deg .d2) 0) = some o) := by decide

/-- An entry at its DISCONNECT in each way: reversed, rolled back, a REMOVE, a MOVE with its void mark, a MOVE in CANCELLING and in RUNNING. -/
theorem witness_RouteAckRoutesThePath_disconnected :
    let old := { entry with kind := .move, oldP := some 0, newP := some 1, half := .old, chain := [.disconnect] }
    (∀ e ∈ [{ old with reversing := true }, { old with st := .rollingBack }, { old with kind := .remove }, { old with void := some .module }, old],
      ∀ st ∈ [SeqState.running, .cancelling], (running st [e] [path]).entry? 3 = some e ∧ (running st [e] [path]).seqr.st = st) ∧
    old.reversing = false ∧ old.st ≠ .rollingBack ∧ old.kind = .move ∧ old.void = none := by decide

theorem witness_AttenAndPingAcksAreHandedOn_dimmed :
    (∀ k ∈ [RampKind.rampDown, .returning], ∀ a ∈ [250, 100],
      let v : SlotSetting := { input := .deg .d1, att := .db a }
      let c := { atten with vals := [v] }
      let s := inTxn c 1 (withEngine { held with kind := k, cmd := .unanswered })
      Awake s ∧ s.act.txn = some { cmd := c, attempt := 1, sendLeft := 0, timer := 200 } ∧ reply.module = c.module ∧ c.kind = .atten ∧
      c.req = .engine 0 0 owner ∧ (s.engine 0).st ≠ .free ∧ (s.engine 0).grant = 0 ∧ (s.engine 0).cmd = .unanswered ∧ (s.engine 0).kind = k ∧
      (s.engine 0).owner = some owner ∧ s.path? owner.pid = some path) ∧
    (let y : Restore := { no := 3, pid := 0, step := .returning }
     let s : State := { withEngine held with light := { base.light with begun := [y] } }
     s.restore? ({ owner with restore := true } : EngOwner).no = some y ∧ s.path? 0 = some path) ∧
    (∀ q ∈ [Requester.refresh, .fillChange], let c := frame .atten q
     Awake (inTxn c 1 base) ∧ reply.module = c.module ∧ c.kind = .atten ∧ c.req = q) := by decide

theorem witness_AttenAndPingAcksAreHandedOn :
    (let v : SlotSetting := { input := .deg .d1, att := .db 100 }
     (let s := inTxn atten 1 base
      Awake s ∧ s.act.txn = some { cmd := atten, attempt := 1, sendLeft := 0, timer := 200 } ∧ atten.vals = v :: [] ∧ (s.engine 0).st = .free) ∧
     (let s := inTxn atten 1 (withEngine { held with cmd := .unanswered })
      Awake s ∧ s.act.txn = some { cmd := atten, attempt := 1, sendLeft := 0, timer := 200 } ∧ reply.checksumOk = true ∧
      reply.module = atten.module ∧ atten.kind = .atten ∧ atten.req = .engine 0 0 owner ∧ atten.vals = v :: [] ∧ (s.engine 0).st ≠ .free ∧
      (s.engine 0).grant = 0 ∧ (s.engine 0).cmd = .unanswered ∧ (s.engine 0).kind.wantsSample = true ∧ (s.engine 0).owner = some owner ∧
      s.path? owner.pid = some path)) ∧
    (let c := frame .ping .refresh
     let s := inTxn c 1 { base with act := { base.act with mods := .const .faulted } }
     Awake s ∧ s.act.txn = some { cmd := c, attempt := 1, sendLeft := 0, timer := 200 } ∧ reply.module = c.module ∧ c.kind = .ping ∧
      s.act.mods.get c.module = .faulted ∧ s.win.map.isSome = true) := by decide

theorem witness_DataHandsTheReadbackOver :
    ∀ k ∈ [FrameKind.read, .ping],
      let c := frame k .readback
      let l : List SlotSetting := [{ input := .deg .d1, att := .db 9 }]
      let s := inTxn c 1 base
      Awake s ∧ s.act.txn = some { cmd := c, attempt := 1, sendLeft := 0, timer := 200 } ∧ reply.checksumOk = true ∧ reply.module = c.module ∧
      (c.kind = k ∧ l.length = c.count ∧ l.all (settingOk c.module) = true) := by decide

theorem witness_MissedAttemptsRetryThenFault :
    ∀ n ∈ [1, 2], let s := inTxn atten n base
      Awake s ∧ s.act.txn = some { cmd := atten, attempt := n, sendLeft := 0, timer := 200 } ∧ reply.checksumOk = true ∧
      reply.module = atten.module ∧ s.seqr.st ≠ .unconfigured ∧ s.seqr.st ≠ .rebuilding ∧
      (timedOut atten n base).act.txn = some { cmd := atten, attempt := n, sendLeft := 0, timer := 0 } ∧
      ({ reply with checksumOk := false } : ReplyHead).checksumOk = false ∧ ({ reply with module := .deg .d1 } : ReplyHead).module ≠ atten.module ∧
      ({ cmd := atten, attempt := n, sendLeft := 1, timer := 200 } : Txn).sendLeft ≠ 0 := by decide

/-- Replies of the wrong kind, at either attempt: an ACK to a READ, DATA to an ATTEN, DATA of a READ with a count or a setting that cannot stand; and an
ACK's row while a frame of another kind is in transmission. -/
theorem witness_MissedAttemptsRetryThenFault_kinds :
    ∀ n ∈ [1, 2], ∀ k ∈ [FrameKind.read, .atten],
      let c := frame k .readback
      let s := inTxn c n base
      Awake s ∧ s.act.txn = some { cmd := c, attempt := n, sendLeft := 0, timer := 200 } ∧ reply.checksumOk = true ∧ reply.module = c.module ∧
      c.kind = k ∧ FrameKind.atten ≠ .route ∧ FrameKind.atten ≠ .ping ∧ ([] : List SlotSetting).length ≠ c.count ∧
      ([{ input := .deg .d2, att := .db 9 }] : List SlotSetting).all (settingOk c.module) = false := by decide

/-- A second attempt missed at an ONLINE module with no pass in progress and no READ queued, in IDLE and in UNCONFIGURED; the requesters told. -/
theorem witness_MissedAttemptsRetryThenFault_faults :
    (∀ st ∈ [SeqState.idle, .unconfigured],
      let s := timedOut (frame .route .squelch) 2 (inState st)
      let o : OutPoint := .deg .d2
      let u : State := { fresh s with act := { s.act with txn := none, mods := s.act.mods.set o .faulted } }
      let v := requestStatus .modules (commandFailed (frame .route .squelch) u)
      Awake s ∧ s.act.mods.get o ≠ .faulted ∧ s.act.refresh = none ∧ s.act.ordinary = [] ∧ s.act.wait = [] ∧ v.act.refresh = none ∧
        faultCaptures v = decide (st = .idle)) ∧
    (let s := running .running [entry] [path]
     standsOn s 3 0 .connect = true ∧ standsOn s 3 0 .disconnect = false) ∧
    restoreRuns.restore? 3 = some { no := 3, pid := 0, step := .rampUp } ∧
    (((withEngine held).engine 0).st ≠ .free ∧ ((withEngine held).engine 0).grant = 0 ∧ (base.engine 0).st = .free) := by decide

theorem witness_UnreadyExpiriesCountMisses :
    (∀ g ∈ [{ held with cmd := .waiting }, { held with cmd := .unanswered }, { held with samp := .outstanding },
        { held with kind := .rampDown, cmd := .unanswered }], EngineServes (withEngine g) 0 owner path) ∧
    Awake (withEngine held) ∧ held.st ≠ .armed ∧ held.kind.wantsSample = true ∧ held.samp ≠ .lost ∧ held.miss < 2 ∧ held.cmd = .none ∧
    ({ held with kind := .rampDown, cmd := .unanswered } : Engine).kind.wantsSample = false ∧
    (let g : Engine := { held with samp := .lost }
     g.kind.wantsSample = true ∧ g.cmd = .none ∧ g.samp = .lost ∧ g.miss < 2 ∧ 2 ≤ ({ g with miss := 2 } : Engine).miss) ∧
    (let s := withEngine { held with count := 1 }
     Awake s ∧ (s.engine 0).count ≠ 0) := by
  refine ⟨?_, by decide⟩
  intro g h
  simp only [List.mem_cons, List.mem_nil_iff, or_false] at h
  rcases h with rfl | rfl | rfl | rfl <;> exact witness_engineServes _ (by decide) rfl rfl

theorem witness_RampExpiriesSendOneCommand :
    (let g : Engine := { held with st := .armed }
     let s := withEngine g
     Awake s ∧ EngineServes s 0 owner path ∧ s.act.ordinary.length < 24 ∧ s.act.wait = [] ∧ s.act.mods.get path.dst.out = .online ∧
      (s.engine 0).st = .armed ∧ (s.engine 0).kind = .rampUp ∧ (s.engine 0).fromHeld = false ∧ path.att ≠ .db (s.engine 0).prof.start) ∧
    (let g : Engine := { held with kind := .rampDown }
     let s := withEngine g
     Awake s ∧ EngineServes s 0 owner path ∧ s.act.ordinary.length < 24 ∧ s.act.wait = [] ∧ s.act.mods.get path.dst.out = .online ∧
      (s.engine 0).st = .stepping ∧ (s.engine 0).kind = .rampDown ∧ (s.engine 0).cmd = .none ∧ path.att = .db 100 ∧ 100 < 250 ∧
      0 < (s.engine 0).prof.down) :=
  ⟨⟨rfl, witness_engineServes _ (by decide) rfl rfl, by decide, rfl, rfl, rfl, rfl, rfl, by decide⟩,
   ⟨rfl, witness_engineServes _ (by decide) rfl rfl, by decide, rfl, rfl, rfl, rfl, rfl, rfl, by decide, by decide⟩⟩

/-- A request for an engine. -/
def engReq (k : RampKind) : EngRequest := { owner := owner, kind := k, fromHeld := false, out := .deg .d2, prof := prof }

/-- Engine 0 held, a request of a full degree before one of another, and no path of the second request at an engine. -/
theorem witness_RampExpiriesSendOneCommand_grants :
    (∀ k ∈ [RampKind.rampUp, .rampRetune, .verify, .rampDown, .returning],
      let s : State := { withEngine held with
        win := { base.win with cfg := some { cfg with budget := 1 } }
        ramp := { (withEngine held).ramp with wait := [engReq .verify, { engReq k with out := .deg .d3 }] } }
      let r := { engReq k with out := .deg .d3 }
      s.start.powerdown = false ∧ (s.engine 1).st = .free ∧ (∀ f : EngineNo, f < 1 → (s.engine f).st ≠ .free) ∧
      s.ramp.wait = [engReq .verify] ++ r :: [] ∧ (∀ x ∈ [engReq .verify], eligible s x = false) ∧ eligible s r = true ∧
      s.path? r.owner.pid = some path) ∧
    (let s : State := { base with ramp := { base.ramp with engines := .replicate 8 held } }
     ∀ e : EngineNo, (s.engine e).st ≠ .free) ∧ (1 ≤ (engReq .rampUp).prof.load ∧ (engReq .rampUp).prof.load ≤ 256) := by decide

/-- A path whose request waits and one whose does not; its profile its own and a pending one. -/
theorem witness_RampExpiriesSendOneCommand_requests :
    let s : State := { base with ramp := { base.ramp with wait := [engReq .verify] } }
    (∃ y ∈ s.ramp.wait, y.owner.pid = path.pid) ∧ (∀ y ∈ base.ramp.wait, y.owner.pid ≠ path.pid) ∧ path.pend = none ∧
    (let p := { path with pend := some { target := 0, profile := 5, permitTag := none } }
     let s : State := { base with profiles := base.profiles.set 5 prof }
     (presentRequest 3 false p .rampRetune s).ramp.wait.map (·.prof.valid) = [true] ∧
     (presentRequest 3 false p .rampDown s).ramp.wait.map (·.prof.valid) = [false]) := by decide

/-- The first expiries and those of RETURNING: below 250, at 250 and at BLOCK; with a sample asked for. -/
theorem witness_RampExpiriesSendOneCommand_returning :
    (∀ g ∈ [{ held with st := .armed, kind := .rampDown }, { held with st := .returning, kind := .returning }],
      (withEngine g).engine 0 = g ∧ (g.st = .armed ∨ g.st = .returning) ∧ g.cmd = .none ∧ path.att = .db 100 ∧ 0 < g.prof.down ∧
        (withEngine g).act.ordinary = [] ∧ (withEngine g).act.wait = [] ∧ (withEngine g).act.mods.get path.dst.out = .online) ∧
    (∀ g ∈ [{ held with st := .armed, fromHeld := true }, { held with st := .armed, kind := .rampRetune }],
      ((g.kind = .rampUp ∧ g.fromHeld = true) ∨ g.kind = .rampRetune) ∧ g.st = .armed) ∧
    (∀ a ∈ [Att.db 250, .block], ({ path with att := a } : Path).att = .db 250 ∨ ({ path with att := a } : Path).att = .block) := by decide

/-- VERIFY's first sample, and the ends of a ramp with a step back: the engine held after it and gone after it, with and without the mark of lost
light. -/
theorem witness_RampAndVerifyDecisions_ends :
    (let g : Engine := { held with st := .verifying, kind := .verify, samp := .arrived, sample := some (-100), wanted := 2 }
     (withEngine g).engine 0 = g ∧ g.st ≠ .armed ∧ g.cmd = .none ∧ g.kind = .verify ∧ g.first = none) ∧
    (∀ m ∈ [ModState.online, .faulted], ∀ x ∈ [true, false],
      let s : State := { lightIn .lit (withEngine held) with
        act := { base.act with mods := .const m }, batch := { Batch.reset with lossStop := x }, queue := [entry] }
      let v := updateEngine 0 (fun g => { g with st := .verifying, kind := .verify, wanted := 2, first := none, samp := .none, sample := none }) s
      let w := rampStep 0 (-80) 100 110 v
      (s.engine 0).owner = some owner ∧ s.path? owner.pid = some path ∧ owner.restore = false ∧ s.batch.lossStop = x ∧ w.batch.lossStop = x ∧
        verifyAllowed owner v = true ∧ verifyAllowed owner w = decide (m = .online ∨ m = .faulted) ∧
        (((s.engine 0).grant = (w.engine 0).grant ∧ (w.engine 0).st = .verifying) ↔ m = .online)) := by decide

/-- An interval's expiry between a loss of light and its capture ends a ramp without VERIFY (R83). -/
theorem test_lossStopsVerify :
    let g : Engine := { held with samp := .arrived, sample := some (-100) }
    let s (x : Bool) : State := { lightIn .lit (withEngine g) with
      seqr := { base.seqr with st := .running }
      batch := { Batch.reset with present := true, work := .run, phase := 3, lossStop := x }
      queue := [{ entry with chain := [.rampUp, .verify] }] }
    let t (x : Bool) := after (.intervalExpiry 0) (s x)
    ((t true).queue.map (·.chain)) = [[.verify]] ∧ (t true).mon.send = [] ∧ ((t false).queue.map (·.chain)) = [[.verify]] ∧
      (t false).mon.send.length = 1 := by decide

/-- An engine whose sample has arrived, ready for RAMP_UP, RAMP_RETUNE or VERIFY to decide on it; and a path at an attenuation to set anew. -/
theorem witness_RampAndVerifyDecisions_ready :
    (∀ k ∈ [RampKind.rampUp, .rampRetune, .verify], EngineServes
      (withEngine { held with kind := k, samp := .arrived, sample := some (-105), first := some (-104) }) 0 owner path) ∧
    Awake (withEngine held) ∧ held.st ≠ .armed ∧ held.cmd = .none ∧ (withEngine held).path? owner.pid = some path ∧ path.att = .db 100 ∧
    path.att ≠ .db 90 ∧ (withEngine held).act.ordinary.length < 24 ∧
    (let s : State := { withEngine held with act := { base.act with mods := .const .faulted } }
     handOrdinary (engineAtten 0 held owner path 90) s = none) ∧
    (lightIn .lit (withEngine held)).path? owner.pid = some path ∧ verifyAllowed owner (lightIn .lit (withEngine held)) = true ∧
    verifyAllowed owner (withEngine held) = false := by
  refine ⟨?_, by decide⟩
  intro k h
  simp only [List.mem_cons, List.mem_nil_iff, or_false] at h
  rcases h with rfl | rfl | rfl <;> exact witness_engineServes _ (by decide) rfl rfl

/-- Samples on and just outside the tolerance of engine 0, target -10.0 dBm and tolerance 1.0 dB. -/
theorem witness_RampAndVerifyDecisions :
    let g := (withEngine held).engine 0
    let t := g.target
    let tol : Int := g.prof.tol
    (t - tol ≤ -110 ∧ -110 ≤ t + tol) ∧ (t - tol ≤ -90 ∧ -90 ≤ t + tol) ∧ (g.dir = .falling ∧ t + tol < -89) ∧
    (g.dir = .falling ∧ -111 < t - tol ∧ 0 < 1) ∧ (-201 < t - 100) ∧ (t - 100 ≤ -200) ∧
    (∀ x ∈ [true, false], (running .running [{ entry with reversing := x }] [path]).entry? 3 = some { entry with reversing := x }) := by decide

theorem witness_IntervalsAdaptWithinBounds :
    ({ held with expected := some (-100) } : Engine).expected = some (-100) ∧ (-111 : Int) < -100 - prof.lag - 10 ∧
    (prof.load : Int) + -5 < 1 ∧ 256 < (prof.load : Int) + 252 ∧ |held.adj| ≤ held.prof.maxAdj ∧ 1 ≤ (prof.load : Int) + 251 ∧ (prof.load : Int) + 251 ≤ 256 ∧ 1 ≤ (prof.load : Int) + -4 := by decide

theorem witness_CaptureSuspendsOrMerges :
    (∀ st ∈ [SeqState.idle, .fetching, .checking, .suspended, .running, .holding, .held, .cancelling],
      let s : State := { inBatch st .none with intr := { base.intr with work := [.capture .powerFail] } }
      Awake s ∧ workFree (.capture .powerFail) s = true ∧ s.intr.work = .capture .powerFail :: [] ∧ s.intr.depth < 4 ∧ s.win.map.isSome = true ∧ s.seqr.st = st) ∧
    (let s := atDepth 4 (inState .suspended)
     let s : State := { s with intr := { s.intr with work := [.capture .powerFail] } }
     Awake s ∧ workFree (.capture .powerFail) s = true ∧ s.intr.work = .capture .powerFail :: [] ∧ s.intr.depth = 4 ∧ s.intr.images.length = 4) := by decide

/-- A capture whose record is to be built, with no transaction and with one. -/
theorem witness_CaptureSuspendsOrMerges_record :
    let s : State := { base with intr := { base.intr with depth := 1, item := some (.capture (.los .d1) .held [] true) } }
    (s.intr.item = some (.capture (.los .d1) .held [] true) ∧ s.act.txn = none) ∧ (inTxn atten 1 s).act.txn ≠ none := by decide

/-- A capture in UNCONFIGURED and a RESUME in POWERDOWN are not taken, a RESUME in UNCONFIGURED is. -/
theorem witness_CaptureSuspendsOrMerges_waits :
    (let s : State := { unconf with intr := { base.intr with work := [.capture .powerFail] } }
     Awake s ∧ s.intr.work.head? = some (.capture .powerFail) ∧ workFree (.capture .powerFail) s = false) ∧
    (let s : State := { base with start := { base.start with powerdown := true }, intr := { base.intr with work := [.resume] } }
     Awake s ∧ s.intr.work.head? = some .resume ∧ workFree .resume s = false) ∧ workFree .resume unconf = true := by decide

/-- The words of a slot that rebuild read go back with the three behind the record zero (R30, R160). -/
theorem test_mergeWritesZeroTail :
    let s : State := { atDepth 4 base with intr := { (atDepth 4 base).intr with
      images := List.replicate 4 (List.replicate 16 7), work := [.capture .powerFail] } }
    (after .capture s).port.getLast? = some (.mergeEnd [7, 0, 0, 0]) := by decide

theorem witness_CaptureEndsAtItsLastWrite_merge :
    let s : State := { granting (.mergeEnd [0, 0, 0, 0]) with
      intr := { base.intr with item := some (.capture .powerFail .idle [] false) }
      start := { base.start with pfw := { base.start.pfw with level := some true } } }
    Awake s ∧ s.win.map = some pages ∧ NextIs s (.mergeEnd [0, 0, 0, 0]) ∧ s.start.pfw.level = some true := by decide

theorem witness_CaptureEndsAtItsLastWrite :
    ∀ r ∈ [PortReq.mergeEnd [0, 0, 0, 0], .captureHeader 1], ∀ v ∈ [some true, some false],
      let s : State := { granting r with
        intr := { base.intr with depth := 1, item := some (.capture .powerFail .idle [] false) }
        start := { base.start with pfw := { pin := true, level := v, run := 0 } } }
      Awake s ∧ s.win.map = some pages ∧ s.intr.item = some (.capture .powerFail .idle [] false) ∧ NextIs s r ∧ s.start.pfw.level = v := by decide

theorem witness_ResumeReadsItsWordThenPops :
    (∀ n ∈ [0, 1], let s := atDepth n (inState .suspended)
      let s : State := { s with intr := { s.intr with work := [.resume] } }
      Awake s ∧ workFree .resume s = true ∧ s.intr.work = .resume :: [] ∧ s.intr.depth = n) ∧
    (let s := atDepth 1 (granting (.resumeWord 1))
     Awake s ∧ s.win.map = some pages ∧ NextIs s (.resumeWord 1) ∧ (s.mem.check (pageAddr pages.save (offSlot 1 + 44))).1 = .correct ∧
      1 = s.intr.depth ∧ ∀ o ∈ OutPoint.all, isFaulted s o = false) ∧
    (let s := atDepth 1 { granting (.resumeWord 1) with act := { base.act with mods := PerPoint.set base.act.mods (.grp .g1) .faulted } }
     Awake s ∧ s.win.map = some pages ∧ NextIs s (.resumeWord 1) ∧ (s.mem.check (pageAddr pages.save (offSlot 1 + 44))).1 = .correct ∧
      1 = s.intr.depth ∧ OutPoint.all.filter (isFaulted s) = .grp .g1 :: []) := by decide

/-- A damaged resume word, which reads corrected or uncorrectable; and the four actions. -/
theorem witness_ResumeReadsItsWordThenPops_damaged :
    let s := damaged 0x4FAC 5 (atDepth 1 (granting (.resumeWord 1)))
    let x := s.mem.check (pageAddr pages.save (offSlot 1 + 44))
    (Awake s ∧ s.win.map = some pages ∧ NextIs s (.resumeWord 1) ∧ 1 = s.intr.depth ∧ ∀ o ∈ OutPoint.all, isFaulted s o = false) ∧
    (x.1 = .corrected ∨ x.1 = .uncorrectable) ∧ [0, 1, 2, 3].map (fun n => field (n : Word) 0 2) = [0, 1, 2, 3] :=
  ⟨by decide, (witness_damagedWord (by decide)).imp And.left And.left, by decide⟩

theorem witness_PopFreesItsLevel :
    ∀ d ∈ [0, 1],
      let s := atDepth (d + 1) (granting (.popHeader d))
      let s : State := { s with
        intr := { s.intr with item := some (.resume .popping .cont false) }
        seqr := { s.seqr with st := .suspended, kept := some { st := .done, seq := 4 } } }
      Awake s ∧ s.win.map = some pages ∧ NextIs s (.popHeader d) ∧ s.intr.item = some (.resume .popping .cont false) ∧
      field ((s.intr.images.getD 0 []).headD 0) 9 1 ≠ 1 ∧ s.batch.present = false ∧ s.seqr.kept = some { st := .done, seq := 4 } := by decide

/-- A slot-1 record rebuilt, and one captured in CANCELLING. -/
theorem witness_PopFreesItsLevel_actions :
    field (([0x200, 0x00090000] : List Word).headD 0) 9 1 = 1 ∧ field (([0, 0, 8] : List Word).headD 0) 9 1 ≠ 1 ∧
    field (([0, 0, 8] : List Word).getD 2 0) 0 4 = 8 ∧ field (([0, 0, 5] : List Word).getD 2 0) 0 4 ≠ 8 ∧
    (BitVec.ofNat 16 (field (([0x200, 0x00090000] : List Word).getD 1 0) 16 16) = 9) ∧
    (∀ w ∈ [BatchWork.fetch, .check, .run], let s := inBatch .suspended w
      s.batch.present = true ∧ s.batch.ending = false ∧ s.batch.work = w ∧ s.seqr.st = .suspended ∧ s.batch.abandon = false ∧
        s.batch.stopPending = false) ∧
    (let s := running .suspended [entry] [path]
     entry.st = .begun ∧ entry.path.bind s.path? = some path ∧ entry.kind = .add ∧ entry.reversing = false ∧ path.route = .source) := by decide

/-- An entry in progress of every kind, its path at the source and at the fill. -/
theorem witness_PopFreesItsLevel_reversals :
    ∀ k ∈ [Kind.move, .restore, .retune, .complete, .remove], ∀ h ∈ [Half.new, .old], ∀ r ∈ [PathRoute.source, .fill],
      let e := { entry with kind := k, half := h, oldP := some 0 }
      let p := { path with route := r }
      e.st = .begun ∧ e.reversing = false ∧ e.path.bind (running .cancelling [e] [p]).path? = some p ∧ e.kind = k ∧ e.half = h ∧ p.route = r := by
  decide

set_option maxRecDepth 4000 in
/-- A fetch at its first choice, at a later one, past the last touched record, and in POWERDOWN. -/
theorem witness_FetchReadAddsItsEntry_next :
    ∀ l ∈ [none, some (3 : RecNo), some 9], ∀ x ∈ [true, false],
      let s : State := { inBatch .fetching .fetch with
        touched := [2, 5], batch := { (inBatch .fetching .fetch).batch with lastFetched := l }, start := { base.start with powerdown := x } }
      s.batch.present = true ∧ s.batch.ending = false ∧ s.batch.work = .fetch ∧ s.touched.Pairwise (· < ·) ∧ s.batch.lastFetched = l ∧
        s.start.powerdown = x := by decide

theorem witness_FetchReadAddsItsEntry :
    (let s := granting (.fetchRec 3)
     Awake s ∧ s.win.map = some pages ∧ NextIs s (.fetchRec 3) ∧
      ∀ i, i < 3 → (s.mem.check (pageAddr pages.staging (offRecord 3) + 4 * i)).1 ≠ .uncorrectable) ∧
    (({ no := 3, copy := none, verdict := .rej .unreadable, held := false } : BatchRec).copy = none) ∧
    (Config.syndromeBit 5 = none → ((damaged 0x1034 5 base).mem.check (pageAddr pages.staging (offRecord 3) + 4 * 1)).1 = .uncorrectable) := by
  refine ⟨by decide, rfl, ?_⟩
  intro h
  have e : (damaged 0x1034 5 base).mem.syndrome (pageAddr pages.staging (offRecord 3) + 4 * 1) = 5 := by decide
  simp only [Memory.check, e, h]
  rfl

theorem witness_MasksAndProfilesEndTheFetch :
    (let s := granting .fetchMasks
     Awake s ∧ s.win.map = some pages ∧ NextIs s .fetchMasks ∧ (∀ i, i < 2 → s.mem.syndrome (pageAddr pages.status 4 + 4 * i) = 0) ∧
      s.batch.recovery = none) ∧
    (∀ k ∈ [(0 : Fin 8), 6, 7], let s := granting (.fetchProf k)
      Awake s ∧ s.win.map = some pages ∧ NextIs s (.fetchProf k) ∧
      ∀ i, i < 4 → s.mem.syndrome (pageAddr pages.status (offProfile k.val) + 4 * i) = 0) := by decide

/-- Damaged words: the stop mask's, and the last of profile 7; and a profile at the ends of its ranges. -/
theorem witness_MasksAndProfilesEndTheFetch_damaged :
    (let s := damaged 0x3008 5 (granting .fetchMasks)
     Awake s ∧ s.win.map = some pages ∧ NextIs s .fetchMasks ∧ s.integ.mfr.kind = .none ∧
     ((s.mem.check (pageAddr pages.status 8)).1 = .corrected ∨ (s.mem.check (pageAddr pages.status 8)).1 = .uncorrectable)) ∧
    (let s := damaged 0x30BC 5 (granting (.fetchProf 7))
     let x (i : Nat) := s.mem.check (pageAddr pages.status (offProfile 7) + 4 * i)
     Awake s ∧ s.win.map = some pages ∧ NextIs s (.fetchProf 7) ∧ s.integ.mfr.kind = .none ∧ ((x 3).1 = .corrected ∨ (x 3).1 = .uncorrectable)) ∧
    ((Profile.ofWords 0x80FA3232 0 0 20).valid = true ∧ (Profile.ofWords 0x80000101 0 0 1).valid = true ∧ (Profile.ofWords 0x80000101 0 0 1).load = 256 ∧
      (Profile.ofWords 0x80FB0101 0 0 1).valid = false ∧ (Profile.ofWords 0x80003301 0 0 1).valid = false ∧ (Profile.ofWords 0x80000100 0 0 1).valid = false ∧
      (Profile.ofWords 0x80000101 0 0 21).valid = false ∧ (Profile.ofWords 0x00000101 0 0 1).valid = false) := by
  refine ⟨⟨by decide, by decide, by decide, by decide, ?_⟩, ⟨by decide, by decide, by decide, by decide, ?_⟩, by decide⟩ <;>
    exact (witness_damagedWord (by decide)).imp And.left And.left

/-- The words of a connection record, with profile 0 valid. -/
theorem witness_SourceLightTest :
    let s : State := { base with profiles := base.profiles.set 0 prof }
    Staged.ofWords conn.words = some (.conn conn) ∧ loopback conn = false ∧
    profileFails s (.conn conn) (classify s (.conn conn) (presentPath 3 s)) (presentPath 3 s) = false ∧
    ({ path with st := .foreign, squelched := true } : Path).st = .foreign ∧ ({ path with st := .foreign, squelched := true } : Path).squelched = true := by
  decide

theorem witness_ReservationOwnsOrPledges :
    let t := ConnTable.reset
    let p := Path.reserved t.nextPid 3 .new conn
    let o : Occ := { res := .out (.deg .d2) 0, owner := 9, pledge := none }
    (∀ x ∈ p.needs, t.conflicts x = false ∧ t.entry x = none) ∧
    (p.needs.find? ({ t with occ := [o] } : ConnTable).conflicts = some (.out (.deg .d2) 0)) ∧
    (let u : ConnTable := { t with occ := [o], paths := [{ path with pid := 9, leaving := true }], nextPid := 10 }
     (∀ x ∈ (Path.reserved 10 3 .new conn).needs, u.conflicts x = false) ∧ u.entry (.out (.deg .d2) 0) = some o ∧
      Res.out (.deg .d2) 0 ∈ (Path.reserved 10 3 .new conn).needs) := by decide

/-- Record 3 listed as an ADD, and the table without a conflict and with one. -/
theorem witness_ReservationOwnsOrPledges_claims :
    let b : BatchRec := { no := 3, copy := some conn.words, verdict := .kind .add, held := true }
    let t := ConnTable.reset
    let u : ConnTable := { t with occ := [{ res := .out (.deg .d2) 0, owner := 9, pledge := none }] }
    b.conn = some conn ∧ (match t.reserve 3 .new conn with | .ok _ => true | .error _ => false) = true ∧
    (match u.reserve 3 .new conn with | .ok _ => false | .error c => c = .slotBusy) = true ∧
    (let q : Path := { path with pid := 9, owner := none, st := .foreign, route := .source }
     ({ t with paths := [q] } : ConnTable).foreignFor conn = some q ∧ q.claimed = none) ∧
    ({ conn with src := .port ⟨.g1, 0⟩ } : HostFields).port.isSome = true := by decide

/-- Record 3 listed with a verdict. -/
def listed (v : Verdict) : BatchRec := { no := 3, copy := some conn.words, verdict := v, held := true }

/-- A check of that record under a refuse mask. -/
def checking (v : Verdict) (m : BitVec 9) : State :=
  { inBatch .checking .check with batch := { (inBatch .checking .check).batch with list := [listed v], refuse := m } }

theorem witness_ReservationOwnsOrPledges_check :
    (let s := checking (.kind .remove) 0
     s.batch.present = true ∧ s.batch.ending = false ∧ s.batch.work = .check ∧ s.start.powerdown = false ∧ s.batch.recovery = none ∧
      s.intr.depth = 0) ∧
    (checking .unjudged 0).batch.list.find? (fun b => b.verdict = .unjudged) = some (listed .unjudged) ∧
    (listed (.kind .remove)).verdict ≠ .unjudged ∧ (listed (.rej .loopback)).verdict = .rej .loopback ∧
    (checking (.rej .loopback) 0x1FF).batch.list = [listed (.rej .loopback)] ∧
    (checking (.rej .loopback) 0x1FF).batch.refuse.getLsbD RejCode.loopback.idx = true := by decide

set_option maxRecDepth 4000 in
/-- Records judged: without a format, a loopback, a profile that is not valid, and each mark on a present path. -/
theorem witness_ReservationOwnsOrPledges_judged :
    let live : Path := { path with owner := some (3, .old), st := .live, engine := none }
    let on (q : List Path) : State := { running .checking [] q with profiles := Vector.replicate 8 prof }
    Staged.ofWords ⟨0xFF000000, 0, 0⟩ = none ∧
    (Staged.ofWords ({ conn with dst := .deg .d1 }).words = some (.conn { conn with dst := .deg .d1 }) ∧ loopback { conn with dst := .deg .d1 } = true) ∧
    (loopback conn = false ∧ profileFails (running .checking [] []) (.conn conn) .add none = true ∧ profileFails (on []) (.conn conn) .add none = false) ∧
    (verdictOf (on []) 3 conn.words = .kind .add ∧ presentPath 3 (on []) = none) ∧
    (verdictOf (on [live]) 3 .zero = .kind .remove ∧ verdictOf (on [live]) 3 conn.words = .kind .noChange ∧
      verdictOf (on [live]) 3 ({ conn with slot := 1 }).words = .kind .move ∧
      verdictOf (on [live]) 3 ({ conn with target := 0 }).words = .kind .retune ∧ presentPath 3 (on [live]) = some live) ∧
    verdictOf (on [{ live with st := .squelched }]) 3 conn.words = .kind .restore ∧
    verdictOf (on [{ live with st := .inFlight, readInput := some (.deg .d1) }]) 3 conn.words = .kind .complete := by
  refine ⟨?_, ?_, ?_, ?_, ?_, ?_, ?_⟩ <;> decide

/-- Records by the format test, at the ends of its ranges, and endpoint codes (R22, Table 2-3). -/
theorem test_stagedFormat :
    (Staged.ofWords ⟨0, 7, 7⟩ = some .empty ∧ Staged.ofWords ⟨0x02000102, 0, 0⟩ = none ∧
      Staged.ofWords ⟨0x013F0102, 0xFF060701, 0xFFFF⟩ = some (.conn { slot := 63, src := .deg .d1, dst := .deg .d2, target := -250, profile := 7,
                                                                      permit := true, tag := 0xFFFF })) ∧
    (∀ ws ∈ [(⟨0x01400102, 0, 0⟩ : HostWords), ⟨0x01000502, 0, 0⟩, ⟨0x0100011D, 0, 0⟩, ⟨0x01000102, 0xFF050000, 0⟩, ⟨0x01000102, 0x00330000, 0⟩,
        ⟨0x01000102, 0x00000800, 0⟩, ⟨0x01000102, 2, 0⟩, ⟨0x01000102, 0, 0x10000⟩], Staged.ofWords ws = none) ∧
    ([0, 5, 16, 29, 32, 45, 255].map endpointOfCode = List.replicate 7 none ∧ endpointOfCode 28 = some (.port ⟨.g1, 11⟩) ∧
      endpointOfCode 33 = some (.port ⟨.g2, 0⟩) ∧ endpointOfCode 44 = some (.port ⟨.g2, 11⟩)) := by decide

/-- The outcomes at the check: a code in the mask and one outside, and a batch accepted with a rejected record and one unchanged. -/
theorem test_outcomesAtTheCheck :
    PortReq.outcome 3 .notRun 7 ∈ (refuseBatch (checking (.rej .range) 0)).port ∧
    PortReq.outcome 3 (.rej .range) 7 ∈ (acceptBatch (checking (.rej .range) 0)).port ∧
    PortReq.outcome 3 .noChange 7 ∈ (acceptBatch (checking (.kind .noChange) 0)).port := by decide

/-- Record 3 accepted in each kind: what its acceptance finds. -/
theorem witness_ReservationOwnsOrPledges_accepted :
    let live : Path := { path with owner := some (3, .old), st := .live, engine := none }
    let s : State := running .checking [] [live]
    let taken : Path := { live with info := live.info.map (fun i => { i with permit := conn.permit, tag := conn.tag }) }
    (∀ k ∈ [Kind.retune, .restore, .noChange, .add, .move, .adopt, .remove, .complete], (listed (.kind k)).verdict = .kind k ∧
      (listed (.kind k)).conn = some conn) ∧ presentPath 3 s = some live ∧ live.st.done = some .live ∧
    (updatePath 0 (fun q => { q with info := q.info.map (fun i => { i with permit := conn.permit, tag := conn.tag }) }) s).path? 0 = some taken ∧
    (presentPath 3 (running .checking [] []) = none ∧ base.completed 3 ≠ .lost ∧
      ({ base with table := { ConnTable.reset with done := [(3, .lost)] } } : State).completed 3 = .lost) ∧
    (∀ k, k ≠ Kind.noChange → (listed (.rej .range)).verdict ≠ .kind k) := by
  refine ⟨by decide, by decide, by decide, by decide, by decide, ?_⟩
  intro k _ h
  cases h

/-- A batch of a NO_CHANGE and a REMOVE accepted: the fix is asked for ahead of the outcome, and the entry stands on its old half (R75, R77; log 91). -/
theorem test_acceptedRecords :
    let live (pid : Nat) (r : RecNo) : Path := { path with pid := pid, owner := some (r, .old), st := .live, engine := none }
    let s := checking (.kind .noChange) 0
    let s : State := { s with
      table := { ConnTable.reset with paths := [live 0 3, live 1 4], nextPid := 2 }
      batch := { s.batch with list := [listed (.kind .noChange), { listed (.kind .remove) with no := 4, copy := some .zero }] } }
    (acceptBatch s).port.take 2 = [.active 3, .outcome 3 .noChange 7] ∧
    (acceptBatch s).queue.map (fun e => (e.no, e.kind, e.oldP, e.newP, e.half)) = [(4, .remove, some 1, none, .old)] := by decide

/-- A record LOST, one EMPTY and one with a path. -/
theorem witness_WriteBacksLandAndEndTheBatch_due :
    let s : State := { base with table := { ConnTable.reset with done := [(1, .lost),
      (2, .path { st := .live, host := conn, att := .db 100, measured := none })] } }
    s.completed 1 = .lost ∧ s.completed 2 = .path { st := .live, host := conn, att := .db 100, measured := none } ∧ s.completed 3 = .empty ∧
      (s.table.done.map (·.1)).Pairwise (· < ·) := by decide

theorem witness_WriteBacksLandAndEndTheBatch :
    (Awake (granting (.active 3)) ∧ (granting (.active 3)).win.map = some pages ∧ NextIs (granting (.active 3)) (.active 3)) ∧
    NextIs (granting (.outcome 3 .done 7)) (.outcome 3 .done 7) ∧
    (let b : BatchWord := { st := .done, seq := 7 }
     (∀ st ∈ [SeqState.running, .suspended], let s : State := { inBatch st .none with port := [.endState b] }
       Awake s ∧ s.win.map = some pages ∧ NextIs s (.endState b) ∧ s.intr.depth = 0 ∧ s.seqr.st = st) ∧
     (let s : State := { atDepth 1 (inBatch .suspended .none) with port := [.endState b] }
      Awake s ∧ s.win.map = some pages ∧ NextIs s (.endState b) ∧ 0 < s.intr.depth)) := by decide

theorem witness_ArbiterGrantsByRankThenAge :
    [PortReq.attention, .popHeader 1] ≠ [] ∧ nextReq [.attention, .popHeader 1] = some (.popHeader 1) ∧
    base.win.map = some pages ∧ unconf.win.map = none ∧ writeOf base (.response 7) = some (0x300C, [7]) ∧ writeOf unconf (.response 7) = some (0x300C, [7]) ∧
    (∃ w ∈ [PortReq.attention, .popHeader 1], w.quiet = true) ∧ (PortReq.popHeader 1).quiet = false ∧
    (∀ s ∈ [granting .attention, granting (.popHeader 1)], s.start.inReset = false ∧ ownEvent s = none ∧ portBlocked s = false ∧
      s.integ.rewrites = [] ∧ nextReq (grantable s) = s.port.head?) ∧
    portBlocked asleep = true ∧ PortReq.attention.row = none ∧ (PortReq.popHeader 1).row = some .pop := by decide

/-- The words of the status page at their ends: counters of 256, a Memory Fault Record of a scrub at the highest address, a protection record. -/
theorem test_statusWords :
    ({ total := 256, done := 256, rejected := 256, failed := 256, other := 256 } : Counters).words = [0x01000100, 0x10040100] ∧
    ({ kind := .uncorrectable, req := .scrub, addr := 0xFFFFFC, syndrome := 0x7F, further := true } : MemFault).words = [0x00FFFFFC, 0x00017F42] ∧
    ({ filled := true, further := true, addr := 0x2010 } : ProtRecord).word = 0x81002010 ∧
    lightWord ⟨.dark, .holdoff, .lit, .holdoff⟩ ⟨true, false, false, true⟩ = 0x989 ∧
    moduleWord ⟨⟨.faulted, .online, .refreshing, .online⟩, .faulted, .refreshing⟩ = 0x921 ∧
    responseWord 9 3 .badCommand = 0x00090306 ∧ ({ pending := 0x0C, enable := 0xF8 } : Attention).word = 0x0004F80C := by decide

/-- The Memory Fault Record empty, frozen and with its flag set; the rewrite list with the word, full and with room. -/
theorem witness_RewritesAndScrubReads_reports :
    base.integ.mfr.kind = .none ∧
    (∀ x ∈ [true, false], ({ base.integ.mfr with kind := .corrected, further := x } : MemFault).kind ≠ .none) ∧
    (let l : List Rewrite := List.replicate 8 { addr := 4, data := 0, written := false }
     (∃ r ∈ l, r.addr = 4) ∧ 8 ≤ l.length ∧ (∀ r ∈ l.take 7, r.addr ≠ 8) ∧ (l.take 7).length < 8) := by decide

theorem witness_RewritesAndScrubReads :
    (∀ w ∈ [true, false], let r : Rewrite := { addr := 0x5000, data := 9, written := w }
      let s : State := { base with integ := { base.integ with rewrites := [r] } }
      Awake s ∧ portBlocked s = false ∧ s.integ.rewrites = r :: [] ∧ r.written = w) ∧
    (∀ s ∈ [base, paced], Awake s ∧ s.win.map = some pages ∧ scrubRuns s = true) ∧
    (paced.integ.scrub.started = true ∧ paced.integ.scrub.timer = 0 ∧ base.integ.scrub.started = false) ∧
    (let s := damaged 0x2000 5 (granting (.scrub 0x2000))
     Awake s ∧ NextIs s (.scrub 0x2000) ∧ s.mem.syndrome 0x2000 ≠ 0 ∧ s.win.role (pageOf 0x2000) = .active) ∧
    (Awake (granting (.scrub 0)) ∧ NextIs (granting (.scrub 0)) (.scrub 0) ∧ (granting (.scrub 0)).mem.syndrome 0 = 0) := by decide

theorem witness_RebuildReadsTheAnchorAndProfiles :
    (∀ s ∈ [State.reset, withAnchor State.reset], let t := anchorNext .rebuild s
      Awake t ∧ NextIs t (.anchor .rebuild) ∧ (∀ i, i < 3 → t.mem.syndrome (pageAddr t.win.anchorPage 16 + 4 * i) = 0) ∧
      ∀ i, i < 4 → t.mem.syndrome (pageAddr t.win.anchorPage 0 + 4 * i) = 0) ∧
    (∀ s ∈ [State.reset, withAnchor State.reset], (anchorNext .rebuild s).start.anchorSeen = none ∧
      (anchorOf s.mem (anchorNext .rebuild s)).isSome = decide (s = withAnchor State.reset)) ∧
    (∀ k ∈ [(0 : Fin 8), 6, 7], let s := granting (.rbProf k)
      Awake s ∧ s.win.map = some pages ∧ NextIs s (.rbProf k) ∧
      ∀ i, i < 4 → s.mem.syndrome (pageAddr pages.status (offProfile k.val) + 4 * i) = 0) := by decide

/-- A rebuild's read of a profile with a damaged word. -/
theorem witness_RebuildReadsTheAnchorAndProfiles_profile :
    let s := damaged 0x3040 5 (granting (.rbProf 0))
    let x (i : Nat) := s.mem.check (pageAddr pages.status (offProfile (0 : Fin 8).val) + 4 * i)
    Awake s ∧ s.win.map = some pages ∧ NextIs s (.rbProf 0) ∧ s.integ.mfr.kind = .none ∧ ((x 0).1 = .corrected ∨ (x 0).1 = .uncorrectable) :=
  ⟨by decide, by decide, by decide, by decide, (witness_damagedWord (by decide)).imp And.left And.left⟩

/-- The words of an anchor record that is valid and of some that are not: an address twice, a budget of 5, a hold-off of 0. -/
theorem witness_RebuildReadsTheAnchorAndProfiles_words :
    let valid (a : Page) (w0 w1 w2 w3 w4 w5 : Word) : Prop :=
      w0 = 0x4C583234 ∧ field w1 0 8 = 1 ∧
      [a, BitVec.ofNat 12 (field w2 16 12), BitVec.ofNat 12 (field w2 0 12), BitVec.ofNat 12 (field w3 16 12),
        BitVec.ofNat 12 (field w3 0 12)].Nodup ∧
      field w4 0 3 ≤ 4 ∧ (∀ d : Degree, field w5 (8 * d.idx) 8 ≤ 250) ∧ 1 ≤ field w4 24 8
    valid 0 0x4C583234 1 0x00010002 0x00030004 0x0A000002 0 ∧ valid 0 0x4C583234 1 0x00010002 0x00030004 0x01000000 0xFAFAFAFA ∧
    valid 0 0x4C583234 1 0x00010002 0x00030004 0xFF000004 0 ∧ ¬ valid 1 0x4C583234 1 0x00010002 0x00030004 0x0A000002 0 ∧
    ¬ valid 0 0x4C583234 1 0x00010002 0x00030004 0x0A000005 0 ∧ ¬ valid 0 0x4C583234 1 0x00010002 0x00030004 0x00000002 0 ∧
    ¬ valid 0 0x4C583234 1 0x00010002 0x00030004 0x0A000002 0xFB := by
  intro valid
  refine ⟨?_, ?_, ?_, ?_, ?_, ?_, ?_⟩ <;> simp only [valid, degree_all] <;> decide

/-- A word of an anchor read with one bit in error, that still stands as it was read and that has been written since. -/
theorem witness_RebuildReadsTheAnchorAndProfiles_copied (i : Fin 39) (h : Config.syndromeBit 5 = some i) :
    let m := (damaged 0x10 5 base).mem
    m.syndrome 0x10 ≠ 0 ∧ Config.syndromeBit (m.syndrome 0x10) = some i ∧
      ((damaged 0x10 5 base).mem.word 0x10 = m.word 0x10 ∧ (damaged 0x10 5 base).mem.syndrome 0x10 = m.syndrome 0x10) ∧
      base.mem.syndrome 0x10 ≠ m.syndrome 0x10 := by
  have e : (damaged 0x10 5 base).mem.syndrome 0x10 = 5 := by decide
  exact ⟨by decide, by rw [e, h], ⟨rfl, rfl⟩, by decide⟩

/-- An anchor read whose second burst has a damaged word, where its syndrome names no bit. -/
theorem witness_RebuildReadsTheAnchorAndProfiles_damaged (h : Config.syndromeBit 5 = none) :
    let s := anchorNext .rebuild (damaged 0x10 5 State.reset)
    Awake s ∧ NextIs s (.anchor .rebuild) ∧ s.start.anchorSeen = none ∧
      ∃ i, i < 3 ∧ (s.mem.check (pageAddr s.win.anchorPage 16 + 4 * i)).1 = .uncorrectable := by
  refine ⟨by decide, by decide, rfl, 0, by decide, ?_⟩
  have e : (anchorNext .rebuild (damaged 0x10 5 State.reset)).mem.syndrome
    (pageAddr (anchorNext .rebuild (damaged 0x10 5 State.reset)).win.anchorPage 16 + 4 * 0) = 5 := by decide
  simp only [Memory.check, e, h]
  decide

/-- An active page whose record 3 is a LIVE connection. -/
def liveRecord : State := storeBurst 0x2030 [0x01000102, 0, 0, 0x01640000] (granting (.rbActive 3))

theorem witness_RebuildReadsRecordsAndSlots_records :
    (∀ u ∈ [granting (.rbActive 3), liveRecord], Awake u ∧ u.win.map = some pages ∧ NextIs u (.rbActive 3) ∧ (3 : Fin 256).val < 255 ∧
      ∀ i, i < 4 → u.mem.syndrome (0x2030 + 4 * i) = 0) ∧ pageAddr pages.active (offRecord 3) = 0x2030 := by decide

set_option maxRecDepth 4000 in
theorem witness_RebuildReadsRecordsAndSlots_lastRecord :
    let u := granting (.rbActive 255)
    Awake u ∧ u.win.map = some pages ∧ NextIs u (.rbActive 255) ∧ (255 : Fin 256).val = 255 ∧
    ∀ i, i < 4 → u.mem.syndrome (pageAddr pages.active (offRecord 255) + 4 * i) = 0 := by decide

theorem witness_RebuildReadsRecordsAndSlots_judged :
    judgeActive 3 ((burstWords base.mem 0x2030 4).map (fun w => (w, false))) = .inr .empty ∧
    judgeActive 3 ((burstWords liveRecord.mem 0x2030 4).map (fun w => (w, false))) =
      .inl { no := 3, st := .live, host := { conn with target := 0, permit := false }, att := .db 100 } := by decide

/-- Slot 1 OUTSTANDING, its first three bursts read, under a header that gives the count's limit. -/
def oneSlot : State :=
  { granting (.rbSlot 1) with
    start := { base.start with save := { base.start.save with limit := 4 }, readPart := (1, false) :: List.replicate 11 (0, false) } }

theorem witness_RebuildReadsRecordsAndSlots_slot :
    Awake oneSlot ∧ oneSlot.win.map = some pages ∧ NextIs oneSlot (.rbSlot 1) ∧ pageAddr pages.save (offSlot 1 + 48) = 0x4FB0 ∧
    (∀ i, i < 4 → oneSlot.mem.syndrome (0x4FB0 + 4 * i) = 0) ∧ (∀ x ∈ oneSlot.start.readPart, x.2 = false) ∧
    oneSlot.start.save.ended = false ∧ field (((oneSlot.start.readPart.map (·.1)) ++ burstWords oneSlot.mem 0x4FB0 4).headD 0) 0 2 = 1 ∧
    (∃ x ∈ ((0, true) :: oneSlot.start.readPart.drop 1).take 11, x.2 = true) ∧ (∀ i, i < 4 → oneSlot.mem.syndrome (pageAddr pages.save (offSlot 1 + 16 * 2) + 4 * i) = 0) := by
  have h : pageAddr pages.save (offSlot 1 + 48) = 0x4FB0 := by simp [pageAddr, offSlot, pages]
  have hf : field (((oneSlot.start.readPart.map (·.1)) ++ burstWords oneSlot.mem 0x4FB0 4).headD 0) 0 2 = 1 := by decide
  exact ⟨rfl, rfl, by decide, h, fun _ _ => rfl, by simp [oneSlot], rfl, hf, ⟨(0, true), by decide, rfl⟩, fun _ _ => rfl⟩

set_option maxRecDepth 4000 in
/-- A save header that holds a depth. -/
def depthHeader (h : Word) : State := { granting .rbHeader with mem := base.mem.storeWord 0x4FFC h }

theorem witness_RebuildReadsRecordsAndSlots_header :
    pageAddr pages.save offHeader = 0x4FFC ∧
    (let s := depthHeader 1
     Awake s ∧ s.win.map = some pages ∧ NextIs s .rbHeader ∧ s.mem.syndrome 0x4FFC = 0 ∧ field (s.mem.word 0x4FFC) 0 3 = 1) ∧
    (∀ n ∈ [0, 4, 5], let s := depthHeader (BitVec.ofNat 32 n)
     Awake s ∧ s.win.map = some pages ∧ NextIs s .rbHeader ∧ s.mem.syndrome 0x4FFC = 0 ∧ field (s.mem.word 0x4FFC) 0 3 = n) := by decide

/-- A header, and a word 0 above the depth, with a syndrome: uncorrectable where the free function names no bit. -/
theorem witness_RebuildReadsRecordsAndSlots_damaged :
    (let s := damaged 0x4FFC 5 (granting .rbHeader)
     Awake s ∧ s.win.map = some pages ∧ NextIs s .rbHeader ∧ s.mem.syndrome 0x4FFC ≠ 0) ∧
    (let s := damaged (pageAddr pages.save (offSlot 4)) 5 (granting (.rbTail 4))
     Awake s ∧ s.win.map = some pages ∧ NextIs s (.rbTail 4) ∧ s.mem.syndrome (pageAddr pages.save (offSlot 4)) ≠ 0) ∧
    base.act.ordinary.length ≤ 18 ∧ base.act.wait = [] := by decide

/-- The end of the count (R179): two slots under a header of 3, and four under 4. -/
theorem test_saveCounted :
    (let s : State := { base with start := { base.start with save := { header := some 3, limit := 3, slots := [[1], [1]], ended := true } } }
     (saveCounted s).intr.depth = 2 ∧ (saveCounted s).port = [.slotWord0 1 0x201, .slotWord0 2 0x201, .saveHeader 2, .rbTail 3]) ∧
    (let s : State := { base with start := { base.start with save := { header := some 4, limit := 4, slots := [[1], [1], [1], [1]], ended := false } } }
     (saveCounted s).intr.depth = 4 ∧ (saveCounted s).start.stage = .readback ∧ (saveCounted s).act.ordinary.length = 6) := by decide

theorem witness_RebuildReadsRecordsAndSlots_tail :
    ∀ k ∈ [1, 3, 4], let s := granting (.rbTail k)
      Awake s ∧ s.win.map = some pages ∧ NextIs s (.rbTail k) ∧ s.mem.syndrome (pageAddr pages.save (offSlot k)) = 0 := by decide

theorem witness_StagingReadsOfRebuild_newHalf :
    let i : InFlight := ⟨3, .new, 1, .block, none⟩
    let j : InFlight := ⟨4, .new, 1, .block, none⟩
    let s : State := { granting (.newHalf i) with start := { base.start with newHalves := [j] } }
    let a := pageAddr pages.staging (offRecord i.no)
    Awake s ∧ s.win.map = some pages ∧ NextIs s (.newHalf i) ∧ (∀ n, n < 3 → s.mem.syndrome (a + 4 * n) = 0) ∧
    Staged.ofWords ⟨s.mem.word a, s.mem.word (a + 4), s.mem.word (a + 8)⟩ = some .empty ∧ s.start.newHalves = j :: [] ∧ j.half = .new := by
  decide

/-- The staged words of record 3, at the last new half. -/
def stagedHalf (w : HostWords) : State :=
  { granting (.newHalf ⟨3, .new, 1, .block, none⟩) with mem := (storeBurst 0x1030 [w.w0, w.w1, w.w2] base).mem }

/-- New halves that make no claim, each the last: one that fails the format test, an EMPTY one, a loopback; and one whose module has no readback. -/
theorem witness_StagingReadsOfRebuild_noClaim :
    pageAddr pages.staging (offRecord 3) = 0x1030 ∧
    (∀ w ∈ [⟨0x02000000, 0, 0⟩, HostWords.zero, { conn with dst := .deg .d1 }.words, conn.words], let s := stagedHalf w
      Awake s ∧ s.win.map = some pages ∧ NextIs s (.newHalf ⟨3, .new, 1, .block, none⟩) ∧ s.start.newHalves = [] ∧
      (∀ n, n < 3 → s.mem.syndrome (0x1030 + 4 * n) = 0) ∧ (⟨s.mem.word 0x1030, s.mem.word 0x1034, s.mem.word 0x1038⟩ : HostWords) = w) ∧
    Staged.ofWords ⟨0x02000000, 0, 0⟩ = none ∧ Staged.ofWords HostWords.zero = some .empty ∧
    Staged.ofWords { conn with dst := .deg .d1 }.words = some (.conn { conn with dst := .deg .d1 }) ∧
    loopback { conn with dst := .deg .d1 } = true ∧ Staged.ofWords conn.words = some (.conn conn) ∧ loopback conn = false ∧
    readbackAt (stagedHalf conn.words) (Res.ofDst conn.dst) conn.slot = none := by decide

/-- Staged words of a new half and of the comparison that read uncorrectable, where the free function names no bit. -/
theorem witness_StagingReadsOfRebuild_damaged (h : Config.syndromeBit 5 = none) :
    let i : InFlight := ⟨3, .new, 1, .block, none⟩
    ∀ x ∈ [(PortReq.newHalf i, (3 : RecNo), Reread.none), (.compare 3, 3, .none), (.compare 255, 255, .none), (.compare 255, 255, .compare)],
      let s : State := damaged (pageAddr pages.staging (offRecord x.2.1) + 4) 5 { granting x.1 with seqr := { base.seqr with reread := x.2.2 } }
      Awake s ∧ s.win.map = some pages ∧ NextIs s x.1 ∧ s.seqr.reread = x.2.2 ∧
      (s.mem.check (pageAddr pages.staging (offRecord x.2.1) + 4 * 1)).1 = .uncorrectable := by
  intro i x hx s
  have e : s.mem.syndrome (pageAddr pages.staging (offRecord x.2.1) + 4 * 1) = 5 := by
    simp only [List.mem_cons, List.not_mem_nil, or_false] at hx
    rcases hx with rfl | rfl | rfl | rfl <;> decide
  refine ⟨?_, rfl, ?_, rfl, ?_⟩
  · simp only [List.mem_cons, List.not_mem_nil, or_false] at hx
    rcases hx with rfl | rfl | rfl | rfl <;> decide
  · simp only [List.mem_cons, List.not_mem_nil, or_false] at hx
    rcases hx with rfl | rfl | rfl | rfl <;> decide
  · simp only [Memory.check, e, h]
    rfl

/-- A changed fill at three degrees hands its commands over from D1 to D4 (log 89). -/
theorem test_fillChangesInOrder :
    let new : AnchorCfg := { cfg with fill := ⟨!cfg.fill.get .d1, cfg.fill.get .d2, !cfg.fill.get .d3, cfg.fill.get .d4⟩, idler := cfg.idler.set .d4 7 }
    let s := Degree.all.foldl (fillChange cfg new) { base with act := { base.act with mods := .const .online } }
    s.act.ordinary.map (fun c => (c.module, c.kind)) = [(.deg .d1, .route), (.deg .d3, .route), (.deg .d4, .atten)] := by decide

/-- What M2 shows in its 64 slots. -/
def shown (x : SlotSetting) : State :=
  { base with start := { base.start with readback := PerPoint.set base.start.readback (.deg .d2) (.given (List.replicate 64 x)) } }

theorem witness_StagingReadsOfRebuild_claims :
    let y : Yield := { no := 3, st := .live, host := conn, att := .db 100 }
    let x : SlotSetting := { input := .deg .d1, att := .db 90 }
    let read (s : State) : Option SlotSetting := match s.start.readback.get (.deg .d2) with | .given l => l[y.host.slot.val]? | _ => none
    read base = none ∧ read (shown x) = some x ∧ read (shown { x with input := .idler }) = some { x with input := .idler } ∧
    (∀ h ∈ [Half.new, .old], let i : InFlight := ⟨3, h, 1, .block, none⟩
      ([i] : List InFlight).find? (fun i => i.no = y.no) = some i ∧ i.half = h) ∧
    base.start.newHalves.find? (fun i => i.no = y.no) = none ∧ (activeClaim base y).st.done = some .live ∧
    base.table.claim (activeClaim base y) ≠ none ∧
    ({ ConnTable.reset with occ := [{ res := .out (.deg .d2) 0, owner := 9, pledge := none }] } : ConnTable).claim (activeClaim base y) = none ∧
    (shown x).table.entry (.out (.deg .d2) 0) = none := by decide

/-- A slot that shows an input makes a FOREIGN path where its entries are free (R180), and none where another path owns one. -/
theorem test_foreignClaim :
    let s := shown { input := .deg .d1, att := .db 90 }
    let owned : State := { s with table := { ConnTable.reset with occ := [{ res := .inp .d1 0, owner := 9, pledge := none }] } }
    ((adoptForeign (.deg .d2) s 0).table.paths.map (·.st)) = [.foreign] ∧ (adoptForeign (.deg .d2) s 0).table.occ.length = 2 ∧
    (adoptForeign (.deg .d2) owned 0).table = owned.table ∧ (adoptForeign (.deg .d2) owned 0).start.discrepancies = 1 := by decide

theorem witness_StagingReadsOfRebuild_newHalfClaim :
    let i : InFlight := ⟨3, .new, 1, .block, none⟩
    let s : State := { shown { input := .deg .d1, att := .db 90 } with port := [.newHalf i], mem := (storeBurst 0x1030 [conn.words.w0, conn.words.w1, conn.words.w2] base).mem }
    Awake s ∧ s.win.map = some pages ∧ NextIs s (.newHalf i) ∧ pageAddr pages.staging (offRecord 3) = 0x1030 ∧
    (∀ n, n < 3 → s.mem.syndrome (0x1030 + 4 * n) = 0) ∧
    Staged.ofWords ⟨s.mem.word 0x1030, s.mem.word 0x1034, s.mem.word 0x1038⟩ = some (.conn conn) ∧ loopback conn = false := by decide

set_option maxRecDepth 4000 in
theorem witness_StagingReadsOfRebuild_compare :
    (let s := granting (.compare 254)
     Awake s ∧ s.win.map = some pages ∧ NextIs s (.compare 254) ∧ (254 : RecNo).val < 255 ∧
      ∀ n, n < 3 → s.mem.syndrome (pageAddr pages.staging (offRecord 254) + 4 * n) = 0) ∧
    (let s := granting (.compare 0)
     Awake s ∧ s.win.map = some pages ∧ NextIs s (.compare 0) ∧ (0 : RecNo).val < 255 ∧
      ∀ n, n < 3 → s.mem.syndrome (pageAddr pages.staging (offRecord 0) + 4 * n) = 0) := by decide

set_option maxRecDepth 4000 in
theorem witness_StagingReadsOfRebuild_lastCompare :
    (∀ k ∈ [Reread.none, .compare], let s : State := { granting (.compare 255) with seqr := { base.seqr with reread := k } }
     Awake s ∧ s.win.map = some pages ∧ NextIs s (.compare 255) ∧ s.seqr.reread = k ∧
      ∀ n, n < 3 → s.mem.syndrome (pageAddr pages.staging (offRecord 255) + 4 * n) = 0) := by decide

/-- The new halves gone and one left; the word read at the end of rebuild, at each end of its codes. -/
theorem witness_StagingReadsOfRebuild_ends :
    base.start.newHalves = [] ∧
    (let i : InFlight := ⟨3, .new, 1, .block, none⟩
     ({ base with start := { base.start with newHalves := [i] } } : State).start.newHalves = i :: [] ∧ i.half = .new) ∧
    base.mem.syndrome (pageAddr pages.status 16) = 0 ∧ base.start.powerdown = false ∧ base.intr.depth = 0 ∧ 0 < (atDepth 1 base).intr.depth ∧
    (∀ n ∈ [0, 1, 6, 7, 8, 12, 13, 255], let s : State := { base with start := { base.start with endWord := BitVec.ofNat 32 (0x70000 + n) } }
      field s.start.endWord 0 8 = n) := by decide

/-- The end of rebuild (R181, R27): a batch state of RUNNING is shown ABANDONED at depth 0, and SUSPENDED at a depth; a DARK degree and a
FAULTED module ask for their captures. -/
theorem test_rebuildEnds :
    let s : State := { inState .rebuilding with
      start := { base.start with stage := .compare, endWord := 0x70003 }
      light := { (lightIn .lit base).light with state := ⟨.lit, .dark, .lit, .lit⟩ }
      act := { base.act with mods := PerPoint.set base.act.mods (.grp .g1) .faulted } }
    (rebuildEnds s).seqr.st = .idle ∧ (rebuildEnds s).seqr.shown = { st := .abandoned, seq := 7 } ∧
    (rebuildEnds s).intr.work = [.capture (.los .d2), .capture (.module (.grp .g1))] ∧
    (rebuildEnds (atDepth 1 s)).seqr.st = .suspended ∧ (rebuildEnds (atDepth 1 s)).seqr.shown = { st := .suspended, seq := 7 } := by decide

theorem witness_AnchorReadsAndRereads :
    (∀ s ∈ [unconf, withAnchor unconf, { unconf with seqr := { unconf.seqr with anchorAgain := true } }],
      let t := anchorNext .unconfigured s
      Awake t ∧ NextIs t (.anchor .unconfigured) ∧ (∀ i, i < 3 → t.mem.syndrome (pageAddr t.win.anchorPage 16 + 4 * i) = 0)) ∧
    (∀ s ∈ [unconf, withAnchor unconf], (anchorNext .unconfigured s).start.anchorSeen = none ∧
      (anchorOf s.mem (anchorNext .unconfigured s)).isSome = decide (s = withAnchor unconf)) ∧
    unconf.seqr.anchorAgain = false ∧
    (let s : State := { base with seqr := { base.seqr with rereadDue := true } }
     Awake s ∧ s.seqr.rereadDue = true ∧ s.seqr.st = .idle ∧ s.intr.depth = 0 ∧ s.light.begun = [] ∧ s.seqr.reread = .none ∧
      s.start.stage = .none) ∧
    (∀ s ∈ [base, withAnchor base],
      let t : State := { anchorNext .reread s with seqr := { s.seqr with reread := .anchor }, mem := base.mem }
      let t : State := { t with start := { t.start with anchorSeen := some s.mem } }
      Awake t ∧ NextIs t (.anchor .reread) ∧ t.start.anchorSeen.getD t.mem = s.mem ∧ (anchorOf s.mem t).isSome = decide (s = withAnchor base) ∧
        ∀ i, i < 3 → s.mem.syndrome (pageAddr t.win.anchorPage 16 + 4 * i) = 0) := by decide

/-- A re-read reads the anchor as memory held it when it began (R9): a record that the host spoils after ANCHOR_RE_READ is read whole, and one that it
makes valid after it is not seen. -/
theorem test_rereadReadsItsBeginning :
    (let t : State := { takeReread (withAnchor base) with mem := base.mem }
     (readAnchor (carryOut .anchorHead t)).2.map (·.map) = some pages ∧ (readAnchor t).1.start.anchorSeen = none) ∧
    (after .anchorReReadDone (withAnchor (after .anchorReRead { base with seqr := { base.seqr with rereadDue := true } }))).seqr.st = .unconfigured := by
  decide

/-- A valid re-read whose anchor moves the save page, changes the fill of degree D1, and with the fill kept its idler attenuation, over a path
of record 3 that is LIVE and a list of completed states in order. -/
theorem witness_AnchorReadsAndRereads_valid :
    let p := { path with st := .live, engine := none }
    let of (o : AnchorCfg) : State :=
      let s := withAnchor base
      let t := anchorNext .reread { s with
        win := { s.win with map := some { pages with save := 5 }, cfg := some o }, act := { s.act with mods := .const .online }
        table := { ConnTable.reset with paths := [p], done := [(4, .lost), (9, .lost)] } }
      { t with seqr := { s.seqr with reread := .anchor } }
    (∀ o ∈ [cfg, { cfg with fill := .const false }],
      Awake (of o) ∧ NextIs (of o) (.anchor .reread) ∧ (of o).win.cfg = some o ∧ (of o).act.mods.get (.deg .d1) = .online ∧
      (of o).table.recordPaths 3 = [p] ∧ (of o).table.recordPaths 4 = [] ∧
      ((of o).table.done.map (·.1)).Pairwise (· < ·) ∧ p.st.done = some .live ∧ p.host = some conn ∧
      (of o).win.map = some { pages with save := 5 } ∧ (anchorOf (of o).mem (of o)).map (·.map) = some pages) ∧
    (anchorOf (of cfg).mem (of cfg)).map (fun c => c.fill.get .d1) = some false ∧ cfg.fill.get .d1 = true ∧
    (anchorOf (of cfg).mem (of cfg)).map (fun c => c.idler.get .d1) = some 0 ∧ cfg.idler.get .d1 = 100 := by
  intro p of
  refine ⟨?_, by decide, by decide, by decide, by decide⟩
  intro o ho
  rcases List.mem_cons.1 ho with rfl | ho
  · decide
  · obtain rfl := List.mem_singleton.1 ho
    decide

/-- The acts of a run: a phase that has ended, one with a WAITING entry, HOLDING with an entry left, CANCELLING with one in progress or none. -/
theorem witness_BatchRunsByPhases :
    (∀ st ∈ [SeqState.running, .holding, .held, .cancelling], let s := running st [entry] [path]
      s.batch.present = true ∧ s.batch.ending = false ∧ s.batch.work = .run ∧ s.start.powerdown = false ∧ inProgress s ≠ 0 ∧
      inProgress (running st [] [path]) = 0) ∧
    (1 ≤ (running .running [] []).batch.phase ∧ (∀ e ∈ [{ entry with st := .done }], e.st.finished = true) ∧
      (∀ e ∈ [entry], e.phase ≠ (running .running [entry] [path]).batch.phase)) ∧
    (let e := { entry with kind := .remove, st := .waiting, half := .old, oldP := some 0 }
     let s := running .running [e] [path]
     s.queue.find? (fun e => e.st = .waiting && e.phase = s.batch.phase) = some e ∧ inProgress s < 8 ∧ s.batch.lossStop = false ∧
     ({ s.batch with lossStop := true } : Batch).lossStop = true ∧
     8 ≤ inProgress (running .running (List.replicate 8 entry) []) ∧
     (e.st.finished = false ∧ e.phase = s.batch.phase ∧ inProgress (running .holding [e] [path]) = 0)) := by decide

theorem witness_BatchRunsByPhases_steps :
    (∀ c ∈ [ChainStep.connect, .rampUp, .verify, .rampRetune, .rampDown, .disconnect],
      let e := { entry with chain := [c] }
      let s := running .running [e] [path]
      s.entry? 3 = some e ∧ e.path.bind s.path? = some path ∧ e.chain.head? = some c ∧ (path.src = .deg .d1 → s.light.state.get .d1 = .lit) ∧
      path.squelched = false ∧ path.st ≠ .squelched ∧ path.route = .source ∧ e.no = 3 ∧ e.kind ≠ .restore ∧ e.kind ≠ .adopt ∧
      (handOrdinary (disconnectCmd s path (.entry 3 0 .disconnect)) s).isSome = true ∧ s.seqr.st.isRun = true ∧ s.batch.lossStop = false) ∧
    (let t := (ConnTable.reset.reserve 3 .new conn).toOption.getD ConnTable.reset
     t.ownsAll (Path.reserved 0 3 .new conn) = true) ∧
    (let s := running .running [entry] [path]
     handOrdinary (connectCmd path (.entry 3 0 .connect)) { s with act := { s.act with mods := .const .faulted } } = none ∧
     s.entry? entry.no = some entry ∧ entry.oldP = none ∧ PortReq.active 3 ∉ s.port ∧ s.win.map.isSome = true ∧ s.batch.recovery = none ∧
     entry.reversing = false ∧ entry.st = .begun ∧ entry.half = .new ∧ canIssue s = true ∧ path.engine = some 0 ∧ atTop path.att = false ∧
     entry.fail = none ∧ s.batch.stop.getLsbD FailCode.module.idx = false ∧ (31 : BitVec 5).getLsbD FailCode.module.idx = true) ∧
    (let p := { path with st := .live, engine := none }
     let s := running .running [entry] [p]
     s.table.recordPaths 3 = [p] ∧ p.st ≠ .reserved ∧ p.host = some conn ∧ (p.atFix false).2 = some .live ∧ s.table.recordPaths 4 = []) := by decide

/-- Steps at the fill, RETURNING at both routes, a CONNECT restarted with its mark set on a LIT source and on a dark one (R163, R164). -/
theorem witness_BatchRunsByPhases_resumed :
    (∀ c ∈ [ChainStep.rampDown, .returning, .disconnect, .connect], ∀ r ∈ [PathRoute.source, .fill], ∀ k ∈ [Kind.add, .remove, .restore],
      let e := { entry with chain := [c], kind := k, half := if k = .add then .new else .old, oldP := some 0 }
      let p := { path with route := r, squelched := true }
      let s := running .running [e] [p]
      s.entry? 3 = some e ∧ e.path.bind s.path? = some p ∧ e.chain.head? = some c ∧ p.route = r ∧ s.light.state.get .d1 = .lit ∧
        (lightIn .dark s).light.state.get .d1 ≠ .lit) ∧
    (let s := running .running [entry] [path]
     let f : State := { s with act := { s.act with mods := .const .faulted } }
     (handOrdinary (disconnectCmd s path (.entry 3 0 .disconnect)) s).isSome = true ∧ handOrdinary (disconnectCmd f path (.entry 3 0 .disconnect)) f = none ∧
     (handOrdinary (connectCmd path (.entry 3 0 .connect)) s).isSome = true ∧ handOrdinary (connectCmd path (.entry 3 0 .connect)) f = none) := by decide

/-- An entry whose path is left by a failed release with a pledge on it, and one whose path stays; the entry that holds the pledge in each state. -/
theorem witness_BatchRunsByPhases_left :
    let o : Occ := { res := .out (.deg .d2) 0, owner := 0, pledge := some 5 }
    let gone : Entry := { entry with kind := .remove, half := .old, oldP := some 0, newP := none, fail := some .module }
    let later (st : EntryState) (h : Half) : Entry := { entry with no := 4, kind := .move, oldP := some 1, newP := some 5, st := st, half := h }
    let s (l : Bool) (x : Entry) : State :=
      let u := running .running [gone, x] [{ path with owner := some (3, .old), leaving := l }]
      { u with table := { u.table with occ := [o] } }
    (∀ l ∈ [true, false], (s l (later .waiting .old)).start.powerdown = false ∧ (s l (later .waiting .old)).entry? 3 = some gone ∧ gone.oldP = some 0 ∧
      ((s l (later .waiting .old)).path? 0).map (·.leaving) = some l) ∧
    (∀ st ∈ [EntryState.waiting, .begun, .rollingBack], ∀ h ∈ [Half.old, .new], let x := later st h
      (s true x).queue.find? (fun e => e.newP = some 5) = some x ∧ x.st = st ∧ x.half = h ∧ x.fail = none) ∧
    (∀ e ∈ (s true (later .waiting .old)).queue, e.newP ≠ some 6) := by decide

/-- A release that fails with its path in place voids the pledge on it: the MOVE that waits for the slot fails with the code, and one begun in its old
half takes the mark (R45, R89). -/
theorem test_failedReleaseVoidsPledges :
    let o : Occ := { res := .out (.deg .d2) 0, owner := 0, pledge := some 5 }
    let gone : Entry := { entry with kind := .remove, half := .old, oldP := some 0, newP := none, fail := some .module }
    let later (st : EntryState) : Entry := { entry with no := 4, kind := .move, oldP := some 1, newP := some 5, st := st, half := .old }
    let s (x : Entry) : State :=
      let u := running .running [gone, x] [{ path with owner := some (3, .old), st := .offTarget, engine := none, leaving := true }]
      { u with table := { u.table with occ := [o] } }
    let t (st : EntryState) := finishEntry 3 .failed false (s (later st))
    (t .waiting).queue.map (fun e => (e.st, e.fail, e.void)) = [(.failed, some .module, none), (.failed, some .module, none)] ∧
    (t .begun).queue.map (fun e => (e.st, e.fail, e.void)) = [(.failed, some .module, none), (.begun, none, some .module)] ∧
    (t .begun).table.occ.map (·.pledge) = [none] ∧ (t .begun).table.paths.map (·.leaving) = [false] := by decide

/-- Failures of a new path and of a RESTORE: at the fill, on an engine below and at the top, with no engine, and while suspended; of a rollback and of
a reversal; and an ADOPT that begins. -/
theorem witness_BatchRunsByPhases_failures :
    (∀ k ∈ [Kind.add, .move, .restore], ∀ p ∈ [{ path with route := .fill }, path, { path with att := .block }, { path with engine := none }],
      ∀ st ∈ [SeqState.running, .suspended],
      let e := { entry with kind := k, half := if k = .restore then .old else .new, oldP := some 0 }
      let s := running st [e] [p]
      let f : State := { s with act := { s.act with mods := .const .faulted } }
      s.entry? 3 = some e ∧ e.path.bind s.path? = some p ∧ e.reversing = false ∧ e.st = .begun ∧ (s.queue.map (·.no)).Nodup ∧
      canIssue (withdrawEngReq p.pid (takeCode 3 .noLight s)) = decide (st = .running) ∧
      (handOrdinary (disconnectCmd s p (.entry 3 0 .disconnectKeep)) s).isSome = true ∧
      handOrdinary (disconnectCmd f p (.entry 3 0 .disconnectKeep)) f = none) ∧
    (∀ c ∈ [ChainStep.returning, .disconnect, .rampRetune, .verify], ∀ st ∈ [EntryState.rollingBack, .begun],
      let e := { entry with chain := [c], st := st, reversing := st = .begun }
      let s := running .cancelling [e] [path]
      s.entry? 3 = some e ∧ e.path.bind s.path? = some path ∧ e.chain.head? = some c ∧ e.half = .new) ∧
    (let e := { entry with kind := .adopt, st := .waiting }
     let s : State := { running .running [e] [{ path with owner := none, st := .foreign }] with batch :=
       { (inBatch .running .run).batch with list := [listed (.kind .adopt)] } }
     s.entry? 3 = some e ∧ (s.queue.map (·.no)).Nodup ∧ e.newP = some 0 ∧ s.batch.list.find? (fun b => b.no = 3) = some (listed (.kind .adopt)) ∧
      (listed (.kind .adopt)).conn = some conn) := by decide

/-- The steps that follow: DISCONNECT of a RESTORE that fails at the top, RETURNING with DISCONNECT behind it while suspended (R86, R166). -/
theorem test_failuresRollBack :
    let e := { entry with kind := .restore, half := .old, oldP := some 0 }
    let s (st : SeqState) (p : Path) := running st [e] [{ p with owner := some (3, .old) }]
    let look (t : State) := (t.queue.map (fun e => (e.st, e.chain)), t.act.ordinary.map (·.req), t.table.paths.map (·.st))
    look (stepFailed 3 .noLight (s .running { path with engine := none })) =
      ([(.rollingBack, [.disconnect])], [.entry 3 0 .disconnectKeep], [.releasing]) ∧
    look (stepFailed 3 .noLight (s .suspended path)) = ([(.rollingBack, [.returning, .disconnect])], [], [.releasing]) ∧
    look (stepFailed 3 .noLight (s .running { path with route := .fill, engine := none })) = ([(.failed, [])], [], [.squelched]) := by decide

/-- An ADOPT begun finishes at once with its FOREIGN path the record's own (R48, R84). -/
theorem test_adoptBegins :
    let e := { entry with kind := .adopt, st := .waiting }
    let s : State := { running .running [e] [{ path with owner := none, st := .foreign, info := none, engine := none, claimed := some 3 }] with batch :=
      { (inBatch .running .run).batch with list := [listed (.kind .adopt)] } }
    let t := beginEntry e s
    t.queue.map (·.st) = [.done] ∧ t.table.paths.map (fun p => (p.st, p.owner, p.host, p.claimed)) = [(.live, some (3, .old), some conn, none)] ∧
    t.port.take 2 = [.active 3, .outcome 3 .done 7] := by decide

/-- Outcomes, pending fields applied and dropped, and paths left by a failed release or retune. -/
theorem witness_BatchRunsByPhases_ends :
    (∀ st ∈ [PathState.live, .offTarget], (running .running [entry] [{ path with st := st }]).table.recordPaths 3 = [{ path with st := st }]) ∧
    ({ entry with fail := some .noLight } : Entry).fail = some .noLight ∧ entry.kind ≠ .adopt ∧ ({ entry with kind := .adopt } : Entry).kind = .adopt ∧
    (let p := { path with pend := some { target := 0, profile := 5, permitTag := some (false, 9) } }
     (p.settlePending true).info = some { target := 0, profile := 5, permit := false, tag := 9 } ∧ (p.settlePending false).info = path.info ∧ path.pend = none) ∧
    (∀ r ∈ [PathRoute.source, .fill], ∀ m ∈ [true, false], ∀ st ∈ [PathState.ramping, .releasing, .inFlight],
      let p := { path with route := r, squelched := m, st := st }
      (running .running [] [p]).path? 0 = some p ∧ p.route = r ∧ p.squelched = m ∧ p.st = st) := by decide

/-! ### What the review asked about, one step each -/

/-- A host read behind a save write of a pop waits, one behind a status write does not (R16). -/
theorem test_hostBeatWaitsBehindSaveWrite : (after (.hostReadBeat 0x5000 15 true) (saveWaits base)).bus.held.length = 1 ∧
    (after (.hostReadBeat 0x5000 15 true) (granting .light)).bus.held = [] := by decide
/-- A host read of a word whose rewrite waits is put behind it, and reads the corrected word (R170). -/
theorem test_rewriteGoesFirst :
    let s := damaged 0x5000 5 { base with integ := { base.integ with rewrites := [{ addr := 0x5000, data := 9, written := false }] } }
    let t := after .correctionRewrite (after (.hostReadBeat 0x5000 15 true) s)
    t.bus.finished = [{ addr := 0x5000, word := some 9, failed := false }] ∧ t.integ.mfr.kind = .none := by decide
/-- A CANCEL after the check has ended refused is answered REFUSED_STATE (R61). -/
theorem test_cancelAfterTheCheck : (after (.cancel cmd) (endingIn .checking)).seqr.lastResp = responseWord 9 2 .state := by decide
/-- The attention word follows the record whose cause it shows (R171). -/
theorem test_attentionAfterTheRecord :
    (reportFault .uncorrectable .fetch 0x1000 5 (granting .attention)).port = [.memFault, .attention] := by decide
/-- Light lost in a running batch stops the step after an acknowledge until its capture is taken (R83); a capture that waits for another
cause stops no step and no entry (R81, R162). -/
theorem test_lossStopsTheNextStep :
    let s := running .running [entry] [path]
    let lost := after (.qualifiedLoss .d3) s
    let waits : State := { s with intr := { s.intr with work := [.capture (.module (.deg .d4))] } }
    lost.batch.lossStop = true ∧ (stepDone 3 lost).ramp.wait = [] ∧ (after .capture lost).batch.lossStop = false ∧
    (stepDone 3 waits).ramp.wait.length = 1 ∧ (pumpBatch { waits with queue := [{ entry with st := .waiting }], batch :=
      { s.batch with phase := 3 } }).isSome = true := by decide
/-- A granted read of an active record passes a hold that comes into force after its first beat, and a new read waits (R13, R15). -/
theorem test_grantedReadIsReturnedWhole :
    let due (s : State) : State := { s with holds := { fetch := none, wb := [3] }, port := [.active 3] }
    let t := after (.hostReadBeat 0x2030 15 false) base
    let u := after (.hostReadBeat 0x2034 15 false) (due t)
    t.bus.reading = [3] ∧ u.bus.held = [] ∧ u.bus.finished.length = 1 ∧ u.bus.granted = true ∧
    (after (.hostReadBeat 0x2038 15 true) u).bus.reading = [] ∧ (after (.hostReadBeat 0x2034 15 true) (due base)).bus.held.length = 1 := by decide
/-- While rebuild's anchor read waits for the light, a rewrite is granted all the same (R16, R154). -/
theorem test_rewriteBeforeTheLight :
    let s : State := { State.reset with integ := { State.reset.integ with rewrites := [{ addr := 0x5000, data := 9, written := false }] } }
    awaitsLight s = true ∧ (idle s).pending = [.correctionRewrite] ∧ (portNext State.reset).isNone = true := by decide
/-- A clear first qualified in REBUILDING gives LIT with no event under the POWERDOWN flag (R141, R154). -/
theorem test_firstQualificationUnderPowerdown :
    let s := inState .rebuilding
    let t := after (.firstQualification .d2 false) { s with start := { s.start with powerdown := true } }
    t.light.state.d2 = .lit ∧ t.light.changeSet.d2 = false := by decide
/-- A reply that comes while the retry is sent is discarded (R130). -/
theorem test_lateReplyIsDiscarded :
    let s : State := { base with act := { base.act with txn := some { cmd := atten, attempt := 2, sendLeft := 3, timer := 200 } } }
    (after (.attenAck reply) s).act = s.act := by decide
/-- No module image is there before the first valid anchor (R140); ACT_DIR shows the line's direction (R128). -/
theorem test_imageAndDirection : base.image (.deg .d1) 0 = some { input := .idler, att := .db 100 } ∧
    State.reset.image (.deg .d1) 0 = none ∧ base.actDirSend = true ∧ (inTxn atten 1 base).actDirSend = false := by decide

end Sys2Proof.Tests
end

/-! ### What every command leaves of the anchor page (R2) -/

namespace Sys2Proof.Machine

theorem placedWrite_sound {a : Option Nat} {b : BeatData} {s t : State} (h : placedWrite s a b = .next t) : Sound s t := by
  cases a with
  | none => exact event_sound (fun s => Sound.refl s) h
  | some a => exact beatEvent_sound h

theorem clearRewrites_sound {s : State} {l : List Rewrite} {r : Rewrite} (h : s.integ.rewrites = r :: l) :
    Sound s { s with integ := { s.integ with rewrites := l } } :=
  ⟨rfl, rfl, rfl, fun k => ⟨k.memory, by have := k.rewrites; simp only [h, List.length_cons] at this ⊢; omega, k.intake, k.cells, k.sequence⟩⟩

theorem cutBurst_sound (cut : Nat) (s : State) : Sound s (cutBurst cut s) := by
  unfold cutBurst
  repeat' split
  all_goals first
    | exact .refl _
    | exact storeWord_sound _ _ _
    | exact storeBurst_sound _ _ _

/-- RESET leaves the window map alone: the strap is sampled when reset ends (R2, R18). -/
theorem assertReset_anchorPage (cut : Nat) (s : State) : (assertReset cut s).win.anchorPage = s.win.anchorPage := by
  have hfold (l : List Beat) (s : State) : Sound s (l.foldl (fun s b => endBeat b none true s) s) :=
    Sound.foldl (fun s b => .of_keeps (endBeat_keeps b none true s)) l s
  exact ((hfold _ _).page.trans (cutBurst_sound cut (fresh s)).page)

/-- Every command but the two of the reset pin keeps the anchor page, the queue, the reset pin and `WellKept`. -/
theorem exec_sound {c : Instr} {s t : State} (hr : ∀ n, c ≠ .reset n) (he : ∀ k, c ≠ .resetEnd k) (h : exec c s = .next t) : Sound s t := by
  cases c with
  | reset n => exact absurd rfl (hr n)
  | resetEnd k => exact absurd rfl (he k)
  | hostReadBeat | hostWriteBeat | refusedWriteBeat => exact beatEvent_sound h
  | anchorWrite w b => exact beatEvent_sound h
  | stagingWrite | resumeWordWrite | acknowledge | commit | cancel | hold | release | resume | unknownCommand =>
    exact placedWrite_sound h
  | firstQualification d loss =>
    simp only [exec, execFirstQualification] at h
    refine event_sound (fun s => ?_) h
    refine .of_keeps ?_
    repeat' split
    all_goals simp [Keeps]
  | qualifiedLoss | qualifiedClear | holdOffExpiry =>
    simp only [exec, execQualifiedLoss, execQualifiedClear, execHoldOffExpiry] at h
    refine event_sound (fun s => ?_) h
    refine .of_keeps ?_
    repeat' split
    all_goals simp [Keeps]
  | pfwAssertion => exact event_sound (fun s => .of_keeps (pfwAsserted_keeps s)) h
  | pfwDeassertion => exact event_sound (fun s => .of_keeps (pfwDeasserted_keeps s)) h
  | captureTimeAdvance =>
    simp only [exec, execCaptureTimeAdvance] at h
    refine event_sound (fun s => ?_) h
    exact .of_keeps (by simp [Keeps])
  | sample f => exact event_sound (sampleArrives_sound f) h
  | intakeQueueTake => exact event_sound takeIntake_sound h
  | silenceTimerExpiry => exact event_sound (fun s => .of_keeps (silenceExpires_keeps s)) h
  | measure =>
    simp only [exec, execMeasure] at h
    refine event_sound (fun s => ?_) h
    split
    · exact beginMeasure_sound s
    · exact .refl s
  | transactionBegin => exact event_sound (fun s => .of_keeps (beginTransaction_keeps s)) h
  | routeAck | attenAck | pingAck => exact event_sound (ackArrives_sound _ _) h
  | data x l => exact event_sound (fun s => .of_keeps (dataArrives_keeps x l s)) h
  | nak x => exact event_sound (fun s => .of_keeps (nakArrives_keeps x s)) h
  | replyTimerExpiry => exact event_sound (fun s => .of_keeps (replyExpires_keeps s)) h
  | intervalExpiry e => exact event_sound (fun s => .of_keeps (intervalExpires_keeps e s)) h
  | capture =>
    simp only [exec, execCapture] at h
    refine event_sound (fun s => .of_keeps ?_) h
    repeat' split
    all_goals simp [Keeps]
  | resumeTaken =>
    simp only [exec, execResumeTaken] at h
    refine event_sound (fun s => .of_keeps ?_) h
    repeat' split
    all_goals simp [Keeps]
  | captureWriteComplete =>
    refine rowEvent_sound (fun r s => (carryOut_sound r s).trans (.of_keeps ?_)) h
    cases r <;> simp [Keeps]
  | resumeWordRead =>
    refine rowEvent_sound (fun r s => ?_) h
    split
    · exact resumeWordRead_sound _ s
    · exact .refl s
  | pop =>
    refine rowEvent_sound (fun r s => ?_) h
    split
    · exact (carryOut_sound _ s).trans (.of_keeps (popped_keeps _ _))
    · exact .refl s
  | fetchRead =>
    refine rowEvent_sound (fun r s => ?_) h
    split
    · exact ((recordFetched_sound _ s).trans (releaseBeats_sound _ _)).trans (.of_keeps (nextFetch_keeps _))
    · exact .refl s
  | maskRead => exact rowEvent_sound (fun _ s => masksFetched_sound s) h
  | profileRead =>
    refine rowEvent_sound (fun r s => ?_) h
    split
    · exact profileFetched_sound _ s
    · exact .refl s
  | activeWriteBack =>
    refine rowEvent_sound (fun r s => ?_) h
    split
    · next n => exact (carryOut_sound (.active n) s).trans (.of_keeps (by simp [Keeps]))
    · exact .refl s
  | outcomeWordWrite =>
    refine rowEvent_sound (fun r s => ?_) h
    split
    · next n c q => exact (carryOut_sound (.outcome n c q) s).trans (.of_keeps (by simp [Keeps]))
    · exact .refl s
  | endStateWrite =>
    refine rowEvent_sound (fun r s => ?_) h
    split
    · exact (carryOut_sound _ s).trans (.of_keeps (batchEnded_keeps _ _))
    · exact .refl s
  | correctionRewrite =>
    simp only [exec, execCorrectionRewrite] at h
    refine event_sound (fun s => ?_) h
    split
    · exact .refl s
    · split
      · next hl =>
        refine (clearRewrites_sound hl).trans ?_
        simp only []
        split
        · exact .refl _
        · exact storeWord_sound _ _ _
      · exact .refl s
  | pacingTimerExpiry => exact event_sound (fun s => .of_keeps (pacingExpires_keeps s)) h
  | scrubRead =>
    refine rowEvent_sound (fun r s => ?_) h
    split
    · exact scrubDone_sound _ s
    · exact .refl s
  | rebuildAnchorRead => exact rowEvent_sound (fun _ s => rebuildAnchor_sound s) h
  | rebuildProfileRead =>
    refine rowEvent_sound (fun r s => ?_) h
    split
    · exact rebuildProfile_sound _ s
    · exact .refl s
  | rebuildActiveRead =>
    refine rowEvent_sound (fun r s => ?_) h
    split
    · exact rebuildActive_sound _ s
    · exact .refl s
  | rebuildSaveRead =>
    refine rowEvent_sound (fun r s => ?_) h
    split
    · exact rebuildHeader_sound s
    · exact rebuildSlot_sound _ s
    · exact rebuildTail_sound _ s
    · exact .refl s
  | newHalfStagingRead =>
    refine rowEvent_sound (fun r s => ?_) h
    split
    · exact newHalfRead_sound _ s
    · exact .refl s
  | comparisonRead =>
    refine rowEvent_sound (fun r s => ?_) h
    split
    · exact comparisonRead_sound _ s
    · exact .refl s
  | anchorRead => exact rowEvent_sound (fun _ s => unconfiguredAnchor_sound s) h
  | anchorReRead =>
    simp only [exec, execAnchorReRead] at h
    refine event_sound (fun s => ?_) h
    split
    · exact .of_keeps (takeReread_keeps s)
    · exact .refl s
  | anchorReReadDone => exact rowEvent_sound (fun _ s => rereadAnchor_sound s) h

/-- The part's own acts on an empty queue leave the anchor page alone (R2; log 6). -/
theorem idle_anchorPage (s : State) : (idle s).win.anchorPage = s.win.anchorPage := by
  have hnext {x : State} (h : portNext s = some (.inr x)) : x.win.anchorPage = s.win.anchorPage := by
    unfold portNext at h
    repeat' split at h
    all_goals first
      | (simp at h; done)
      | (simp only [Option.some.injEq, Sum.inr.injEq] at h; subst h; exact (carryOut_sound _ _).page)
  unfold idle
  split
  · rfl
  · split
    · rfl
    · split
      · rfl
      · next h => exact hnext h
      · exact (baseTick_tickKeeps s).1

theorem anchorPageOf_eq (k : BitVec 2) :
    anchorPageOf k = (if k = 0 then 0x000 else if k = 1 then 0x400 else if k = 2 then 0x800 else 0xC00) ∧
    pageAddr (anchorPageOf k) 0 = (if k = 0 then 0x000000 else if k = 1 then 0x400000 else if k = 2 then 0x800000 else 0xC00000) := by
  revert k; decide

end Sys2Proof.Machine

section
open Sys2Proof Sys2Proof.Machine

/-- Settles O3: every command but RESET_END is sound for the anchor page, whose value the strap gives. -/
theorem anchorPageFollowsTheStrap : Obligations.AnchorPageFollowsTheStrap := by
  refine ⟨fun c s t hc h => ?_, idle_anchorPage, fun m k los pfw q => (anchorPageOf_eq k).1, fun k s hs => ?_, fun s => ?_⟩
  · by_cases hr : ∃ n, c = .reset n
    · obtain ⟨n, rfl⟩ := hr
      cases h
      exact assertReset_anchorPage n s
    · exact (exec_sound (fun n e => hr ⟨n, e⟩) hc h).page
  · refine ⟨_, rfl, ?_⟩
    rw [if_pos hs]
    exact anchorPageOf_eq k
  · simp [Windows.role]

end

/-! ### Places in pages, and how a host beat ends -/

namespace Sys2Proof.Machine

theorem pageAddr_mod {p : Page} {off : Nat} (h : off < 4096) : pageAddr p off % 4096 = off := by
  unfold pageAddr; omega

theorem pageAddr_lt {p : Page} {off : Nat} (h : off < 4096) : pageAddr p off < 2 ^ 24 := by
  have := p.isLt; unfold pageAddr; omega

theorem pageOf_pageAddr {p : Page} {off : Nat} (h : off < 4096) : pageOf (pageAddr p off) = p := by
  have := p.isLt
  apply BitVec.eq_of_toNat_eq
  simp only [pageOf, pageAddr, BitVec.toNat_ofNat]
  omega

/-- A word address of 24 bits is its own word's address (R1). -/
theorem wordAddr_ofNat {a : Nat} (h : a < 2 ^ 24) (h4 : a % 4 = 0) : wordAddr (BitVec.ofNat 24 a) = a := by
  simp only [wordAddr, BitVec.toNat_ofNat]; omega

theorem wordAddr_pageAddr {p : Page} {off : Nat} (h : off < 4096) (h4 : off % 4 = 0) :
    wordAddr (BitVec.ofNat 24 (pageAddr p off)) = pageAddr p off :=
  wordAddr_ofNat (pageAddr_lt h) (by unfold pageAddr; omega)

/-- A beat's end on a bus where nothing is shown as finished yet (R1). -/
theorem endBeat_eq {s t : State} {port ready error : Bool} (b : Beat) (word : Option Word) (failed : Bool) (hw : t.win = s.win)
    (hb : t.bus = { s.bus with granted := port || s.bus.granted, finished := [], ready := ready, error := error }) :
    endBeat b word failed t = { t with bus := beatEnded s port b.addr word failed b.last } := by
  have hread : readingWith t b.addr = readingWith s b.addr := by unfold readingWith; rw [hw, hb]
  unfold endBeat beatEnded
  rw [hread, hb]
  cases b.last <;> simp

/-- The state in which a beat has its cycle's grant and nothing is shown as finished (R17; log 30). -/
abbrev underGrant (s : State) : State := { s with bus := { s.bus with granted := true, finished := [], ready := false, error := false } }

theorem endBeat_underGrant {s t : State} (b : Beat) (word : Option Word) (failed : Bool) (hw : t.win = s.win)
    (hb : t.bus = (underGrant s).bus) : endBeat b word failed t = { t with bus := beatEnded s true b.addr word failed b.last } :=
  endBeat_eq (port := true) b word failed hw hb

theorem endBeat_fresh {s t : State} (b : Beat) (word : Option Word) (failed : Bool) (hw : t.win = s.win)
    (hb : t.bus = (fresh s).bus) : endBeat b word failed t = { t with bus := beatEnded s false b.addr word failed b.last } :=
  endBeat_eq (port := false) b word failed hw (by rw [hb]; rfl)

theorem addRewrite_bus (a : Nat) (w : Word) (s : State) (b : BusPort) : addRewrite a w { s with bus := b } = { addRewrite a w s with bus := b } := by
  unfold addRewrite; simp only; split <;> rfl

/-! ### Beats that are carried out, and beats that wait -/

/-- A beat that no hold meets and that finds the port free is carried out under its cycle's grant (R13, R16, R17). -/
theorem beatEvent_carried {s : State} {b : Beat} (ha : Awake s) (hf : BusFree s) (hp : PortFree s) (hh : beatHeld s b = false)
    (hn : b.needsPort s = true) : beatEvent s b = settled (carryBeat b (underGrant s)) := by
  rw [beatEvent_awake ha, hostBeat_carried (s := fresh s) hf hh hp hn]; rfl

/-- A beat that needs no port is ended as it arrives (R1, R5). -/
theorem beatEvent_noPort {s : State} {b : Beat} (ha : Awake s) (hf : BusFree s) (hh : beatHeld s b = false) (hn : b.needsPort s = false) :
    beatEvent s b = settled (carryBeat b (fresh s)) := by
  rw [beatEvent_awake ha, hostBeat_noPort (s := fresh s) hf hh hn]

/-- A beat that has to wait is the only one that waits, its cycle has given the port up, and nothing else changes (R13, R16). -/
theorem beatEvent_waits {s : State} {b : Beat} (ha : Awake s) (hf : BusFree s) (hw : beatWaits s b = true) :
    beatEvent s b = settled { s with bus :=
      { isOpen := true, granted := false, reading := [], cycErr := s.bus.cycErr, ready := false, error := false, finished := [], held := [b] } } := by
  rw [beatEvent_awake ha, hostBeat_waits (s := fresh s) hw]
  simp [fresh, show s.bus.held = [] from hf]

theorem needsPort_read {s : State} {b : Beat} (h : b.write = false) : b.needsPort s = true := by simp [Beat.needsPort, h]

theorem beatWaits_of_held {s : State} {b : Beat} (h : beatHeld s b = true) : beatWaits s b = true := by simp [beatWaits, h]

theorem beatWaits_of_portTaken {s : State} {b : Beat} (h : PortTaken s) (hn : b.needsPort s = true) : beatWaits s b = true := by
  simp [beatWaits, hn, hostMayGo_of_portTaken h]

theorem mergeWord_all (old new : Word) : mergeWord old new 15 = new := by
  have hlane (i : Nat) (hi : i < 4) : (15 : ByteEn).getLsbD i = true := by interval_cases i <;> rfl
  unfold mergeWord
  simp only [hlane 0 (by omega), hlane 1 (by omega), hlane 2 (by omega), hlane 3 (by omega), if_true]
  ext i hi
  simp only [BitVec.getElem_append, BitVec.getElem_extractLsb']
  repeat' split
  all_goals first
    | (simp [BitVec.getLsbD_eq_getElem hi]; done)
    | (rw [← BitVec.getLsbD_eq_getElem hi]; congr 1; omega)

theorem check_clean {m : Memory} {a : Nat} (h : m.syndrome a = 0) : m.check a = (.correct, m.word a) := by simp [Memory.check, h]

/-- A word whose check bits name a bit is delivered with that bit turned (R169; log 2). -/
theorem check_corrected {m : Memory} {a : Nat} {i : Fin 39} (h : m.syndrome a ≠ 0) (hi : Config.syndromeBit (m.syndrome a) = some i) :
    m.check a = (.corrected, if i.val < 32 then m.word a ^^^ ((1 : Word) <<< i.val) else m.word a) := by
  simp only [Memory.check, if_neg h, hi]

theorem check_uncorrectable {m : Memory} {a : Nat} (h : m.syndrome a ≠ 0) (hi : Config.syndromeBit (m.syndrome a) = none) :
    m.check a = (.uncorrectable, m.word a) := by simp only [Memory.check, if_neg h, hi]

/-- A word written whole, or over one that reads without a syndrome, takes the enabled bytes of the beat (R168). -/
theorem writeMemory_ready {s t : State} {addr : Addr} {b : BeatData} (hm : t.mem = s.mem)
    (h : b.be = 15 ∨ s.mem.syndrome (wordAddr addr) = 0) :
    writeMemory (.ofWrite addr b) t = (storeWord (wordAddr addr) (landedWord s addr b) t, true) := by
  by_cases hb : b.be = 15
  · rw [writeMemory, if_pos (show (Beat.ofWrite addr b).be = 15 from hb), landedWord, hb, mergeWord_all]; rfl
  · have hc : t.mem.check (Beat.ofWrite addr b).word = (.correct, s.mem.word (wordAddr addr)) := by
      rw [hm]; exact check_clean (h.resolve_left hb)
    simp only [writeMemory, hc, if_neg (show ¬ (Beat.ofWrite addr b).be = 15 from hb)]
    rfl

/-- A write beat that passes and whose merge read shows no syndrome lands, and what a landed beat brings about follows (R6, R7, R9, R168). -/
theorem beatEvent_landed {s : State} {addr : Addr} {b : BeatData} (h : BeatReady s addr b) (hh : beatHeld s (.ofWrite addr b) = false)
    (hp : writeAction (s.win.role (pageOf (wordAddr addr))) (wordAddr addr % 4096) = .pass) :
    beatEvent s (.ofWrite addr b) = settled (endBeat (.ofWrite addr b) none false (sideEffect (.ofWrite addr b)
      { landed s addr b with bus := (underGrant s).bus })) := by
  have hpass : writeAction ((Beat.ofWrite addr b).role (underGrant s)) ((Beat.ofWrite addr b).word % 4096) = .pass := hp
  rw [beatEvent_carried h.awake h.free h.port hh (needsPort_of_pass h.lanes hp), carryBeat,
    if_pos (show (Beat.ofWrite addr b).write = true from rfl), carryWrite,
    if_neg (show ¬ (Beat.ofWrite addr b).be = 0 from h.lanes), hpass]
  simp only [writeMemory_ready (t := underGrant s) rfl h.merge, if_true]
  rfl

/-- A write beat's state after it has landed: on its word read without a syndrome or written whole, or on the word its merge read corrected (R168). -/
def Lands (s : State) (addr : Addr) (b : BeatData) (u : State) : Prop :=
  (BeatReady s addr b ∧ u = landed s addr b) ∨
    (MergeReady s addr b ∧ (mergeRead s addr).1 = .corrected ∧ u = landedCorrected s addr b)

theorem Lands.ready {s : State} {addr : Addr} {b : BeatData} (h : BeatReady s addr b) : Lands s addr b (landed s addr b) := .inl ⟨h, rfl⟩

theorem Lands.corrected {s : State} {addr : Addr} {b : BeatData} (h : MergeReady s addr b) (hc : (mergeRead s addr).1 = .corrected) :
    Lands s addr b (landedCorrected s addr b) := .inr ⟨h, hc, rfl⟩

/-- What a landed beat leaves alone: all but memory, the bus, the Integrity Unit, the attention set and the arbiter's list. -/
theorem Lands.leaves {s u : State} {addr : Addr} {b : BeatData} (h : Lands s addr b u) :
    u = { s with mem := u.mem, bus := u.bus, integ := u.integ, attn := u.attn, port := u.port } := by
  rcases h with ⟨-, rfl⟩ | ⟨-, -, rfl⟩
  · rfl
  · have h := reportFault_only .corrected .hostPartialWrite (wordAddr addr) (s.mem.syndrome (wordAddr addr)) s
    unfold landedCorrected
    rw [h]; rfl

theorem Lands.bus {s u : State} {addr : Addr} {b : BeatData} (h : Lands s addr b u) : u.bus = beatEnded s true addr none false b.last := by
  rcases h with ⟨-, rfl⟩ | ⟨-, -, rfl⟩ <;> rfl

/-- A write beat that lands leaves the part as what follows from it elsewhere says, under the bus of a beat's end. -/
theorem beatEvent_lands {s u v : State} {addr : Addr} {b : BeatData} (h : Lands s addr b u) (hh : beatHeld s (.ofWrite addr b) = false)
    (hp : writeAction (s.win.role (pageOf (wordAddr addr))) (wordAddr addr % 4096) = .pass)
    (hv : sideEffect (.ofWrite addr b) { u with bus := (underGrant s).bus } = { v with bus := (underGrant s).bus }) :
    beatEvent s (.ofWrite addr b) = settled { v with bus := u.bus } := by
  rw [h.bus, ← endBeat_landed, ← hv]
  rcases h with ⟨h, rfl⟩ | ⟨h, hc, rfl⟩
  · exact beatEvent_landed h hh hp
  · exact beatEvent_landedCorrected h hh hp hc

end Sys2Proof.Machine

/-! ### Reads and holds (R1, R13 to R17, R169) -/

namespace Sys2Proof.Machine

/-- The beat of a host read. -/
abbrev Beat.ofRead (addr : Addr) (be : ByteEn) (last : Bool) : Beat := { write := false, addr := addr, data := 0, be := be, last := last }

/-- A read beat ends by what its checked read gives (R1, R169). -/
theorem hostReadBeat_ends {s t : State} {addr : Addr} {be : ByteEn} {last bad : Bool} {w : Word} (ha : Awake s) (hf : BusFree s) (hp : PortFree s)
    (hh : beatHeld s (.ofRead addr be last) = false)
    (hr : readWord .hostRead (wordAddr addr) (underGrant s) = ({ t with bus := (underGrant s).bus }, w, bad)) (hw : t.win = s.win) :
    exec (.hostReadBeat addr be last) s = settled { t with bus := beatEnded s true addr (some w) bad last } := by
  have he : exec (.hostReadBeat addr be last) s = beatEvent s (.ofRead addr be last) := rfl
  have hr' : readWord .hostRead (Beat.ofRead addr be last).word (underGrant s) = ({ t with bus := (underGrant s).bus }, w, bad) := hr
  rw [he, beatEvent_carried ha hf hp hh (needsPort_read rfl), carryBeat, if_neg (by simp), carryRead, hr']
  exact congrArg settled (endBeat_underGrant (t := { t with bus := (underGrant s).bus }) _ _ _ hw rfl)

theorem readWord_corrected {s : State} {a : Nat} {i : Fin 39} (q : MemFaultReq) (h : s.mem.syndrome a ≠ 0)
    (hi : Config.syndromeBit (s.mem.syndrome a) = some i) :
    let v := if i.val < 32 then s.mem.word a ^^^ ((1 : Word) <<< i.val) else s.mem.word a
    readWord q a s = (addRewrite a v (reportFault .corrected q a (s.mem.syndrome a) s), v, false) := by
  simp only [readWord, readWordOf, check_corrected h hi]
  simp [Memory.sameAt]

theorem readWord_uncorrectable {s : State} {a : Nat} (q : MemFaultReq) (h : s.mem.syndrome a ≠ 0)
    (hi : Config.syndromeBit (s.mem.syndrome a) = none) :
    readWord q a s = (reportFault .uncorrectable q a (s.mem.syndrome a) s, s.mem.word a, true) := by
  simp only [readWord, readWordOf, check_uncorrectable h hi]

theorem hostReadBeat_clean {s : State} {addr : Addr} {be : ByteEn} {last : Bool} (ha : Awake s) (hf : BusFree s) (hp : PortFree s)
    (hh : beatHeld s (.ofRead addr be last) = false) (hy : s.mem.syndrome (wordAddr addr) = 0) :
    exec (.hostReadBeat addr be last) s = settled { s with bus := beatEnded s true addr (some (s.mem.word (wordAddr addr))) false last } :=
  hostReadBeat_ends (t := s) ha hf hp hh (readWord_clean (s := underGrant s) .hostRead hy) rfl

/-! ### The places of the rows that name a word -/

theorem offRecord_lt (r : RecNo) {k : Nat} (hk : k < 4) : offRecord r + 4 * k < 4096 := by
  have := r.isLt; unfold offRecord; omega

theorem recordAt_offRecord (r : RecNo) {k : Nat} (hk : k < 4) : recordAt (offRecord r + 4 * k) = r := by
  have := r.isLt
  apply Fin.ext
  simp only [recordAt, offRecord]; omega

theorem offRecord_mod (r : RecNo) (k : Nat) : (offRecord r + 4 * k) % 4 = 0 := by unfold offRecord; omega

/-- The word of a staging record that the host owns is not its word 3 (R19, R23). -/
theorem offRecord_lane (r : RecNo) {k : Nat} (hk : k < 3) : (offRecord r + 4 * k) / 4 % 4 ≠ 3 := by unfold offRecord; omega

/-- The word of a write beat at an aligned place in a page, and the role and offset that the table of R4 takes from it. -/
theorem ofWrite_place {p : Page} {off : Nat} (h : off < 4096) (h4 : off % 4 = 0) (s : State) (b : BeatData) :
    let x := Beat.ofWrite (BitVec.ofNat 24 (pageAddr p off)) b
    x.word = pageAddr p off ∧ x.role s = s.win.role p ∧ x.word % 4096 = off := by
  have hw : (Beat.ofWrite (BitVec.ofNat 24 (pageAddr p off)) b).word = pageAddr p off := wordAddr_pageAddr h h4
  exact ⟨hw, by rw [Beat.role, hw, pageOf_pageAddr h], by rw [hw, pageAddr_mod h]⟩

/-- A write beat to a staging record meets the hold of that record's fetch and no other (R13, R14). -/
theorem beatHeld_staging {s : State} {p : Page} {r : RecNo} {k : Nat} {b : BeatData} (hk : k < 3) (hr : s.win.role p = .staging) (hb : b.be ≠ 0) :
    beatHeld s (.ofWrite (BitVec.ofNat 24 (pageAddr p (offRecord r + 4 * k))) b) = decide (s.holds.fetch = some r) := by
  obtain ⟨-, hrole, hoff⟩ := ofWrite_place (p := p) (offRecord_lt r (show k < 4 by omega)) (offRecord_mod r k) s b
  have hbe : (Beat.ofWrite (BitVec.ofNat 24 (pageAddr p (offRecord r + 4 * k))) b).be ≠ 0 := hb
  have hw : (Beat.ofWrite (BitVec.ofNat 24 (pageAddr p (offRecord r + 4 * k))) b).write = true := rfl
  rw [beatHeld, hrole, hr]
  simpa [hoff, hw, offRecord_lane r hk, recordAt_offRecord r (show k < 4 by omega)] using fun _ => hbe

/-- A row that names a word is the beat that writes it, where the word's page is installed (R3). -/
theorem placedWrite_some (s : State) {a : Option Nat} {n : Nat} (b : BeatData) (h : a = some n) :
    placedWrite s a b = beatEvent s (.ofWrite (BitVec.ofNat 24 n) b) := by subst h; rfl

end Sys2Proof.Machine

section
open Sys2Proof Sys2Proof.Machine

/-- Settles O8: a read ends by its word's check, which is one of three. -/
theorem hostReadDeliversCheckedWord : Obligations.HostReadDeliversCheckedWord := by
  intro s addr be last ha hf hp hh
  refine ⟨hostReadBeat_clean ha hf hp hh, fun i hy hi => ?_, fun hy hi => ?_⟩
  · refine hostReadBeat_ends (t := addRewrite _ _ (reportFault ..)) ha hf hp hh ?_ (by simp)
    rw [readWord_corrected (s := underGrant s) .hostRead hy hi, reportFault_bus, addRewrite_bus]
  · refine hostReadBeat_ends (t := reportFault ..) ha hf hp hh ?_ (by simp)
    rw [readWord_uncorrectable (s := underGrant s) .hostRead hy hi, reportFault_bus]

/-- Settles O9: what a beat meets decides whether it waits, and a beat that waits joins the waiting ones. -/
theorem beatsWaitOnHolds : Obligations.BeatsWaitOnHolds := by
  intro s ha hf
  refine ⟨fun addr be last hr hm hn => ?_, fun addr be last hr hm hg hy => ?_, fun m r k b hm hr hh hb => ?_, fun ht => ⟨fun addr be last => ?_, fun addr b hb hp => ?_⟩⟩
  · have hheld : beatHeld s (.ofRead addr be last) = true := by
      simp only [wordAddr] at hr hm hn
      simp [beatHeld, Beat.role, Beat.word, hr, hm, hn]
    exact beatEvent_waits ha hf (beatWaits_of_held hheld)
  · have hheld : beatHeld s (.ofRead addr be last) = false := by
      simp only [wordAddr] at hr hm
      simp [beatHeld, Beat.role, Beat.word, hr, hm]
    exact hostReadBeat_clean ha hf (.inl hg) hheld hy
  · rw [exec, execStagingWrite, placedWrite_some s b (by rw [hm]; rfl)]
    refine beatEvent_waits ha hf (beatWaits_of_held ?_)
    rw [beatHeld_staging k.isLt hr hb]; simp [hh]
  · exact beatEvent_waits ha hf (beatWaits_of_portTaken ht (needsPort_read rfl))
  · refine beatEvent_waits ha hf (beatWaits_of_portTaken ht ?_)
    simp only [Beat.needsPort, Bool.or_eq_true, Bool.and_eq_true, bne_iff_ne, decide_eq_true_eq]
    exact .inr ⟨hb, hp⟩

end

/-! ### Write beats by the table of R4 -/

namespace Sys2Proof.Machine

theorem ofNat_wordAddr (a : Addr) : wordAddr (BitVec.ofNat 24 (wordAddr a)) = wordAddr a :=
  wordAddr_ofNat (by have := a.isLt; unfold wordAddr; omega) (by unfold wordAddr; omega)

/-- No hold meets a write beat outside the staging page (R14, R15). -/
theorem beatHeld_write {s : State} {addr : Addr} {b : BeatData} (h : s.win.role (pageOf (wordAddr addr)) ≠ .staging) :
    beatHeld s (.ofWrite addr b) = false := by
  have hr : (Beat.ofWrite addr b).role s ≠ .staging := h
  unfold beatHeld
  cases hrole : (Beat.ofWrite addr b).role s <;> simp_all [Beat.ofWrite]

/-- No hold meets a write beat that is refused (R5, R14). -/
theorem beatHeld_refused {s : State} {addr : Addr} {b : BeatData}
    (h : writeAction (s.win.role (pageOf (wordAddr addr))) (wordAddr addr % 4096) = .refuse) : beatHeld s (.ofWrite addr b) = false := by
  by_cases hr : s.win.role (pageOf (wordAddr addr)) = .staging
  · have hlane : wordAddr addr % 4096 / 4 % 4 = 3 := by
      rw [hr] at h; by_contra hn; simp [writeAction, hn] at h
    have hrole : (Beat.ofWrite addr b).role s = .staging := hr
    have hlane' : (Beat.ofWrite addr b).word % 4096 / 4 % 4 = 3 := hlane
    simp [beatHeld, hrole, hlane']
  · exact beatHeld_write hr

/-- A write beat with all enables off ends and does nothing (R1). -/
theorem beatEvent_noLanes {s : State} {addr : Addr} {b : BeatData} (ha : Awake s) (hf : BusFree s) (hb : b.be = 0) :
    beatEvent s (.ofWrite addr b) = settled { s with bus := beatEnded s false addr none false b.last } := by
  have hbe : (Beat.ofWrite addr b).be = 0 := hb
  have hw : (Beat.ofWrite addr b).write = true := rfl
  have hheld : beatHeld s (.ofWrite addr b) = false := by
    unfold beatHeld; rw [hbe]; cases (Beat.ofWrite addr b).role s <;> simp [hw]
  rw [beatEvent_noPort ha hf hheld (by simp [Beat.needsPort, hbe, hw]), carryBeat, if_pos hw, carryWrite, if_pos hbe]
  exact congrArg settled (endBeat_fresh (t := fresh s) _ _ _ rfl rfl)

/-- A refused write beat ends at once, failed, behind its report to the protection record (R5, R11). -/
theorem beatEvent_refused {s : State} {addr : Addr} {b : BeatData} (ha : Awake s) (hf : BusFree s) (hb : b.be ≠ 0)
    (h : writeAction (s.win.role (pageOf (wordAddr addr))) (wordAddr addr % 4096) = .refuse) :
    beatEvent s (.ofWrite addr b) = settled { reportRefusal (BitVec.ofNat 24 (wordAddr addr)) (fresh s) with
      bus := beatEnded s false addr none true b.last } := by
  have hw : (Beat.ofWrite addr b).write = true := rfl
  have hr : writeAction ((Beat.ofWrite addr b).role s) ((Beat.ofWrite addr b).word % 4096) = .refuse := h
  have hr' : writeAction ((Beat.ofWrite addr b).role (fresh s)) ((Beat.ofWrite addr b).word % 4096) = .refuse := h
  rw [beatEvent_noPort ha hf (beatHeld_refused h) (by simp [Beat.needsPort, hw, hr]), carryBeat, if_pos hw, carryWrite,
    if_neg (show ¬ (Beat.ofWrite addr b).be = 0 from hb), hr']
  exact congrArg settled (endBeat_fresh (t := reportRefusal (BitVec.ofNat 24 (wordAddr addr)) (fresh s)) _ _ _ (by simp) (by simp))

/-- The words of the status page that the host owns besides the batch word pass (R4). -/
theorem writeAction_hostWord {off : Nat} (h : off = 4 ∨ off = 8 ∨ (64 ≤ off ∧ off < 192)) : writeAction .status off = .pass := by
  have h28 : off ≠ offAttention := by unfold offAttention; omega
  simp only [writeAction, if_neg h28]
  simp; omega

/-! ### What a landed beat brings about elsewhere, by the page it fell in (R6, R7, R9) -/

theorem sideEffect_anchor {s : State} {b : Beat} (h : b.role s = .anchor) : sideEffect b s = anchorWritten s := by
  simp only [sideEffect, h]

theorem sideEffect_staging {s : State} {b : Beat} (h : b.role s = .staging) : sideEffect b s = touch (recordAt (b.word % 4096)) s := by
  simp only [sideEffect, h]

theorem sideEffect_save {s : State} {b : Beat} (h : b.role s = .save) : sideEffect b s = s := by simp only [sideEffect, h]

theorem sideEffect_status {s : State} {b : Beat} (h : b.role s = .status) :
    sideEffect b s = if b.word % 4096 = 0 then handCommand (s.mem.word b.word) s else s := by simp only [sideEffect, h]

theorem sideEffect_plain {s : State} {b : Beat} (h : b.role s = .plain) :
    sideEffect b s = if s.seqr.st = .unconfigured && s.win.watch = some b.word then handCommand (s.mem.word b.word) s else s := by
  simp only [sideEffect, h]

theorem Lands.win {s u : State} {addr : Addr} {b : BeatData} (h : Lands s addr b u) : u.win = s.win := by rw [h.leaves]

theorem Lands.seqr {s u : State} {addr : Addr} {b : BeatData} (h : Lands s addr b u) : u.seqr = s.seqr := by rw [h.leaves]

/-- A landed beat has left the window map as it was, so its page has the role it had. -/
theorem Lands.role {s u : State} {addr : Addr} {b : BeatData} (h : Lands s addr b u) (x : Beat) (bus : BusPort) :
    x.role { u with bus := bus } = x.role s := by simp only [Beat.role, h.win]

/-- What R4 lets a write beat at an aligned place of a page do, by that page's role. -/
theorem writeAction_place {s : State} {p : Page} {off : Nat} (h : off < 4096) (h4 : off % 4 = 0) :
    writeAction (s.win.role (pageOf (wordAddr (BitVec.ofNat 24 (pageAddr p off))))) (wordAddr (BitVec.ofNat 24 (pageAddr p off)) % 4096) =
      writeAction (s.win.role p) off := by
  rw [wordAddr_pageAddr h h4, pageOf_pageAddr h, pageAddr_mod h]

theorem writeAction_stagingWord {s : State} {p : Page} {r : RecNo} {k : Nat} (hk : k < 3) (hr : s.win.role p = .staging) :
    writeAction (s.win.role (pageOf (wordAddr (BitVec.ofNat 24 (pageAddr p (offRecord r + 4 * k))))))
      (wordAddr (BitVec.ofNat 24 (pageAddr p (offRecord r + 4 * k))) % 4096) = .pass := by
  rw [writeAction_place (offRecord_lt r (by omega)) (offRecord_mod r k), hr]
  simp only [writeAction, if_neg (offRecord_lane r hk)]

theorem stagingWrite_placed {s : State} {m : WindowMap} (r : RecNo) (k : Fin 3) (b : BeatData) (hm : s.win.map = some m) :
    exec (.stagingWrite r k b) s = beatEvent s (.ofWrite (BitVec.ofNat 24 (pageAddr m.staging (offRecord r + 4 * k.val))) b) :=
  placedWrite_some s b (by rw [hm]; rfl)

/-- A beat to a staging record that is not being fetched lands and touches its record (R6, R56). -/
theorem stagingWrite_lands {s u : State} {m : WindowMap} {r : RecNo} {k : Fin 3} {b : BeatData} (hm : s.win.map = some m)
    (hr : s.win.role m.staging = .staging) (hh : s.holds.fetch ≠ some r) (hb : b.be ≠ 0)
    (h : Lands s (BitVec.ofNat 24 (pageAddr m.staging (offRecord r + 4 * k.val))) b u) :
    exec (.stagingWrite r k b) s = settled { u with touched := joinSet r s.touched } := by
  have hk4 : k.val < 4 := by omega
  obtain ⟨-, hrole, hoff⟩ := ofWrite_place (p := m.staging) (offRecord_lt r hk4) (offRecord_mod r k.val) s b
  have hheld := (beatHeld_staging k.isLt hr hb).trans (decide_eq_false hh)
  have ht : u.touched = s.touched := by rw [h.leaves]
  rw [stagingWrite_placed r k b hm, ← ht]
  refine beatEvent_lands (v := touch r u) h hheld (writeAction_stagingWord k.isLt hr) ?_
  rw [sideEffect_staging ((h.role _ _).trans (hrole.trans hr)), hoff, recordAt_offRecord r hk4]
  rfl

theorem mem_joinSet (r x : RecNo) (l : List RecNo) : x ∈ joinSet r l ↔ x = r ∨ x ∈ l := by
  induction l with
  | nil => simp [joinSet]
  | cons a l ih =>
    unfold joinSet
    split
    · simp
    · split
      · next h => subst h; simp
      · simp only [List.mem_cons, ih]; tauto

end Sys2Proof.Machine

section
open Sys2Proof Sys2Proof.Machine

/-- Settles O10: such a beat passes, lands by its merge read and brings nothing about elsewhere. -/
theorem hostWriteReplacesEnabledBytes : Obligations.HostWriteReplacesEnabledBytes := by
  intro s addr b ha hf hplace a y
  have hheld : beatHeld s (.ofWrite addr b) = false := by
    apply beatHeld_write
    rcases hplace with ⟨h, -⟩ | ⟨h, -⟩ <;> simp [h]
  have hpass : writeAction (s.win.role (pageOf (wordAddr addr))) (wordAddr addr % 4096) = .pass := by
    rcases hplace with ⟨h, -⟩ | ⟨h, h'⟩
    · rw [h]; rfl
    · rw [h]; exact writeAction_hostWord h'
  have hside {u : State} (h : Lands s addr b u) : beatEvent s (.ofWrite addr b) = settled u := by
    refine beatEvent_lands (v := u) h hheld hpass ?_
    rcases hplace with ⟨hr, hwatch⟩ | ⟨hr, hoff⟩
    · rw [sideEffect_plain ((h.role (.ofWrite addr b) _).trans hr), if_neg]
      have hw : ¬ (s.seqr.st = .unconfigured ∧ s.win.watch = some (Beat.ofWrite addr b).word) := hwatch
      simpa [h.win, h.seqr] using hw
    · have h0 : (Beat.ofWrite addr b).word % 4096 ≠ 0 := by
        have : (Beat.ofWrite addr b).word = wordAddr addr := rfl
        omega
      rw [sideEffect_status ((h.role (.ofWrite addr b) _).trans hr), if_neg h0]
  refine ⟨beatEvent_noLanes ha hf, fun h => hside (.ready h), fun i hp h0 h15 hy hi => ?_, fun hp h0 h15 hy hi => ?_⟩
  · have hm : mergeRead s addr = _ := check_corrected hy hi
    have := hside (.corrected ⟨ha, hf, hp, h0, h15⟩ (by rw [hm]))
    rw [landedCorrected, hm] at this
    exact this
  · have hm : mergeRead s addr = _ := check_uncorrectable hy hi
    exact beatEvent_mergeFailed ⟨ha, hf, hp, h0, h15⟩ hheld hpass (by rw [hm])

/-- Settles O11: the beat lands by its merge read, and what follows from it is the record touched. -/
theorem stagingWriteTouchesItsRecord : Obligations.StagingWriteTouchesItsRecord := by
  refine ⟨fun s m r k b hm hr hh h => stagingWrite_lands hm hr hh h.lanes (.ready h), ?_, mem_joinSet⟩
  intro s m r k b hm hr hh addr h
  refine ⟨fun hc => ?_, fun hc => ?_⟩
  · exact stagingWrite_lands hm hr hh h.lanes (.corrected h hc)
  · rw [stagingWrite_placed r k b hm]
    exact beatEvent_mergeFailed h ((beatHeld_staging k.isLt hr h.lanes).trans (decide_eq_false hh)) (writeAction_stagingWord k.isLt hr) hc

/-- Settles O12: the table of R4, and the three states that a refused beat finds the protection record in. -/
theorem refusedBeatsReachTheRecord : Obligations.RefusedBeatsReachTheRecord := by
  refine ⟨fun role off => ⟨?_, ?_, ?_, ?_, ?_⟩, fun s addr b ha hf hb h => ⟨fun h1 => ?_, fun h1 h2 => ?_, fun h1 h2 => ?_⟩⟩
  · rintro (rfl | rfl) <;> rfl
  · rintro rfl; simp [writeAction]
  · rintro rfl; rfl
  · rintro rfl; simp [writeAction, offAttention, or_assoc]
  · rintro rfl; simp [writeAction, resumeOffsets, offSlot]
  all_goals
    have he : exec (.refusedWriteBeat addr b) s = beatEvent s (.ofWrite addr b) := rfl
    rw [he, beatEvent_refused ha hf hb h, reportRefusal]
  · rw [if_neg (by simp [fresh, h1])]
    simp only [← raiseCause_bus, ← requestStatus_bus, fresh]
  · rw [if_pos (by simp [fresh, h1]), if_neg (by simp [fresh, h2])]
    simp only [← requestStatus_bus, fresh]
  · rw [if_pos (by simp [fresh, h1]), if_pos (by simp [fresh, h2])]
    rfl

end

/-! ### The anchor page and the resume words (R9, R10, R182) -/

namespace Sys2Proof.Machine

theorem anchorWritten_configured {s : State} (h : s.seqr.st ≠ .unconfigured) :
    anchorWritten s = { s with seqr := { s.seqr with rereadDue := true } } := by rw [anchorWritten, if_neg h]

theorem anchorWritten_first {s : State} (h : s.seqr.st = .unconfigured) (h' : s.seqr.anchorRead = false) :
    anchorWritten s = { s with port := s.port ++ [.anchorHead, .anchor .unconfigured]
                               seqr := { s.seqr with anchorRead := true, rereadDue := false } } := by
  rw [anchorWritten, if_pos h, startAnchorRead, if_neg (by simp [h'])]
  simp [requestAnchor, request]

theorem anchorWritten_again {s : State} (h : s.seqr.st = .unconfigured) (h' : s.seqr.anchorRead = true) :
    anchorWritten s = { s with seqr := { s.seqr with anchorAgain := true } } := by
  rw [anchorWritten, if_pos h, startAnchorRead, if_pos h']

theorem anchorWritten_bus (s : State) (b : BusPort) : anchorWritten { s with bus := b } = { anchorWritten s with bus := b } := by
  by_cases h : s.seqr.st = .unconfigured
  · cases h' : s.seqr.anchorRead
    · rw [anchorWritten_first h h', anchorWritten_first (s := { s with bus := b }) h h']
    · rw [anchorWritten_again h h', anchorWritten_again (s := { s with bus := b }) h h']
  · rw [anchorWritten_configured h, anchorWritten_configured (s := { s with bus := b }) h]

/-- The place of an anchor word, and of a resume word, in its page. -/
theorem anchorOffset (w : BitVec 10) : 4 * w.toNat < 4096 ∧ 4 * w.toNat % 4 = 0 := by have := w.isLt; omega

theorem resumeOffset (k : Fin 4) : offSlot (k.val + 1) + 44 < 4096 ∧ (offSlot (k.val + 1) + 44) % 4 = 0 ∧
    writeAction .save (offSlot (k.val + 1) + 44) = .pass := by revert k; decide

/-- The beat of a row that names a word at an offset of a page: what it takes from the page's role. -/
theorem placedBeat {s : State} {p : Page} {off : Nat} {b : BeatData} {role : Role} (h : off < 4096) (h4 : off % 4 = 0) (hr : s.win.role p = role)
    (hs : role ≠ .staging) (hp : writeAction role off = .pass) :
    let addr : Addr := BitVec.ofNat 24 (pageAddr p off)
    beatHeld s (.ofWrite addr b) = false ∧ writeAction (s.win.role (pageOf (wordAddr addr))) (wordAddr addr % 4096) = .pass ∧
      (Beat.ofWrite addr b).role s = role ∧ (Beat.ofWrite addr b).word = pageAddr p off := by
  obtain ⟨hword, hrole, -⟩ := ofWrite_place (p := p) h h4 s b
  refine ⟨beatHeld_write ?_, ?_, hrole.trans hr, hword⟩
  · rw [wordAddr_pageAddr h h4, pageOf_pageAddr h, hr]; exact hs
  · rw [writeAction_place h h4, hr, hp]

theorem role_anchorPage (s : State) : s.win.role s.win.anchorPage = .anchor := by simp [Windows.role]

/-- A beat to the anchor page lands, and the anchor write is signalled (R9). -/
theorem anchorWrite_lands {s u : State} {w : BitVec 10} {b : BeatData}
    (h : Lands s (BitVec.ofNat 24 (pageAddr s.win.anchorPage (4 * w.toNat))) b u) : exec (.anchorWrite w b) s = settled (anchorWritten u) := by
  obtain ⟨hlt, h4⟩ := anchorOffset w
  obtain ⟨hheld, hpass, hrole, -⟩ := placedBeat (b := b) hlt h4 (role_anchorPage s) (by decide) rfl
  have hbus : (anchorWritten u).bus = u.bus := by
    have := anchorWritten_bus u u.bus; rw [show ({ u with bus := u.bus } : State) = u from rfl] at this; rw [this]
  have := beatEvent_lands (v := anchorWritten u) h hheld hpass
    (by rw [sideEffect_anchor ((h.role _ _).trans hrole), anchorWritten_bus])
  rw [← hbus] at this
  exact this

/-- A beat to a resume word lands, and nothing else follows (R10). -/
theorem resumeWordWrite_lands {s u : State} {m : WindowMap} {k : Fin 4} {b : BeatData} (hm : s.win.map = some m) (hr : s.win.role m.save = .save)
    (h : Lands s (BitVec.ofNat 24 (pageAddr m.save (offSlot (k.val + 1) + 44))) b u) : exec (.resumeWordWrite k b) s = settled u := by
  obtain ⟨hlt, h4, ho⟩ := resumeOffset k
  obtain ⟨hheld, hpass, hrole, -⟩ := placedBeat (b := b) hlt h4 hr (by decide) ho
  rw [exec, execResumeWordWrite, placedWrite_some s b (by rw [hm]; rfl)]
  exact beatEvent_lands (v := u) h hheld hpass (sideEffect_save ((h.role _ _).trans hrole))

end Sys2Proof.Machine

section
open Sys2Proof Sys2Proof.Machine

/-- Settles O14: both rows' beats land by their merge read; what an anchor write brings about goes by the sequencer's state. -/
theorem anchorAndResumeWordWritesLand : Obligations.AnchorAndResumeWordWritesLand := by
  refine ⟨?_, ?_, ?_⟩
  · intro s w b addr h
    rw [anchorWrite_lands (.ready h)]
    refine ⟨fun hs => ?_, fun hs hr => ?_, fun hs hr => ?_⟩
    · rw [anchorWritten_configured (s := landed s addr b) hs]; rfl
    · rw [anchorWritten_first (s := landed s addr b) hs hr]; rfl
    · rw [anchorWritten_again (s := landed s addr b) hs hr]; rfl
  · intro s w b addr u h
    refine ⟨fun hc => ?_, fun hc => ?_⟩
    · obtain ⟨hlt, h4⟩ := anchorOffset w
      obtain ⟨hheld, hpass, -, -⟩ := placedBeat (b := b) hlt h4 (role_anchorPage s) (by decide) rfl
      exact beatEvent_mergeFailed h hheld hpass hc
    · have hl : Lands s addr b u := .corrected h hc
      rw [anchorWrite_lands hl, ← hl.seqr]
      exact ⟨fun hs => by rw [anchorWritten_configured hs], fun hs hr => by rw [anchorWritten_first hs hr],
        fun hs hr => by rw [anchorWritten_again hs hr]⟩
  · intro s m k b hm hr addr
    refine ⟨fun h => resumeWordWrite_lands hm hr (.ready h), fun h => ⟨fun hc => resumeWordWrite_lands hm hr (.corrected h hc), fun hc => ?_⟩⟩
    obtain ⟨hlt, h4, ho⟩ := resumeOffset k
    obtain ⟨hheld, hpass, -, -⟩ := placedBeat (b := b) hlt h4 hr (by decide) ho
    rw [exec, execResumeWordWrite, placedWrite_some s b (by rw [hm]; rfl)]
    exact beatEvent_mergeFailed h hheld hpass hc

end

/-! ### The attention word (R8, R176) -/

namespace Sys2Proof.Machine

/-- An acknowledge takes its causes out of the pending set, clears the records of those that were pending, and asks for their words (R176; log 81). -/
theorem acknowledgeCauses_eq {s : State} {m : WindowMap} (hm : s.win.map = some m) (acks : BitVec 8) :
    let was := s.attn.pending &&& acks
    acknowledgeCauses acks s =
      { s with
        attn := { s.attn with pending := s.attn.pending &&& ~~~acks }
        integ := { s.integ with mfr := if hasCause was .memoryFault then .none else s.integ.mfr }
        prot := if hasCause was .protection then .empty else s.prot
        light := { s.light with changeSet := if hasCause was .lightChange then .const false else s.light.changeSet }
        port := s.port ++ (if hasCause was .memoryFault then [.memFault] else []) ++
          (if hasCause was .protection then [.protection] else []) ++ (if hasCause was .lightChange then [.light] else []) } := by
  have hs : s.win.map.isSome = true := by rw [hm]; rfl
  cases h1 : hasCause (s.attn.pending &&& acks) .memoryFault <;> cases h2 : hasCause (s.attn.pending &&& acks) .protection <;>
    cases h3 : hasCause (s.attn.pending &&& acks) .lightChange <;>
    simp [acknowledgeCauses, h1, h2, h3, clearFault, clearProtection, requestStatus, request, hs]

end Sys2Proof.Machine

section
open Sys2Proof Sys2Proof.Machine

/-- Settles O15: the beat to the attention word is rewritten, behind the acknowledge that it carries. -/
theorem acknowledgeClearsCauses : Obligations.AcknowledgeClearsCauses := by
  intro s m b ha hf hp hb hm hr a acks was attn
  obtain ⟨hword, hrole, hoff⟩ := ofWrite_place (p := m.status) (off := offAttention) (by decide) (by decide) s b
  have hw : (Beat.ofWrite (BitVec.ofNat 24 a) b).write = true := rfl
  have hact : writeAction ((Beat.ofWrite (BitVec.ofNat 24 a) b).role s) ((Beat.ofWrite (BitVec.ofNat 24 a) b).word % 4096) = .rewrite := by
    rw [hrole, hoff, hr]; rfl
  have hact' : writeAction ((Beat.ofWrite (BitVec.ofNat 24 a) b).role (underGrant s)) ((Beat.ofWrite (BitVec.ofNat 24 a) b).word % 4096) = .rewrite := hact
  have hheld : beatHeld s (.ofWrite (BitVec.ofNat 24 a) b) = false := by
    rw [beatHeld, hrole, hr]
  have hneeds : (Beat.ofWrite (BitVec.ofNat 24 a) b).needsPort s = true := by
    have hbe : (Beat.ofWrite (BitVec.ofNat 24 a) b).be ≠ 0 := hb
    unfold Beat.needsPort; rw [hact]; simpa [hw] using hbe
  rw [exec, execAcknowledge, placedWrite_some s b (by rw [hm]; rfl), beatEvent_carried ha hf hp hheld hneeds, carryBeat, if_pos hw, carryWrite,
    if_neg (show ¬ (Beat.ofWrite (BitVec.ofNat 24 a) b).be = 0 from hb), hact']
  simp only []
  have hack := acknowledgeCauses_eq (s := underGrant s) hm acks
  have hattn : (acknowledgeCauses acks (underGrant s)).attn = attn := by rw [hack]
  have hrew : rewriteAttention (.ofWrite (BitVec.ofNat 24 a) b) (underGrant s) = storeWord a attn.word (acknowledgeCauses acks (underGrant s)) := by
    rw [← hattn, rewriteAttention, hword]; rfl
  rw [hrew, endBeat_underGrant (s := s) _ _ _ (by simp [hack]) (by simp [hack]), hack]
  rfl

end

/-! ### Commands at the batch word (R7, R58, R59) -/

namespace Sys2Proof.Machine

/-- What a response survives: the last response stands, and a response asked for waits on. -/
structure KeepsResponse (s t : State) : Prop where
  last : t.seqr.lastResp = s.seqr.lastResp
  asked : ∀ w, PortReq.response w ∈ s.port → PortReq.response w ∈ t.port

theorem KeepsResponse.refl (s : State) : KeepsResponse s s := ⟨rfl, fun _ h => h⟩

theorem KeepsResponse.trans {s t u : State} (h : KeepsResponse s t) (k : KeepsResponse t u) : KeepsResponse s u :=
  ⟨k.last.trans h.last, fun w hw => k.asked w (h.asked w hw)⟩

theorem KeepsResponse.foldl {α : Type} {f : State → α → State} (h : ∀ s a, KeepsResponse s (f s a)) (l : List α) (s : State) :
    KeepsResponse s (l.foldl f s) := by
  induction l generalizing s with
  | nil => exact .refl s
  | cons a l ih => exact (h s a).trans (ih _)

theorem requestStatus_keepsResponse (r : PortReq) (s : State) : KeepsResponse s (requestStatus r s) :=
  ⟨by simp, fun w h => by rw [requestStatus_port]; split <;> simp [h]⟩

theorem writeBatchState_keepsResponse (b : BatchWord) (s : State) : KeepsResponse s (writeBatchState b s) :=
  KeepsResponse.trans (t := { s with seqr := { s.seqr with shown := b } }) ⟨rfl, fun _ h => h⟩ (requestStatus_keepsResponse _ _)

theorem enterState_keepsResponse (st : SeqState) (w : BatchWordState) (s : State) : KeepsResponse s (enterState st w s) :=
  KeepsResponse.trans (t := { s with seqr := { s.seqr with st := st } }) ⟨rfl, fun _ h => h⟩ (writeBatchState_keepsResponse _ _)

theorem writeCounters_keepsResponse (c : Counters) (s : State) : KeepsResponse s (writeCounters c s) :=
  KeepsResponse.trans (t := { s with batch := { s.batch with counters := c } }) ⟨rfl, fun _ h => h⟩ (requestStatus_keepsResponse _ _)

theorem writeOutcome_keepsResponse (r : RecNo) (c : OutcomeCode) (s : State) : KeepsResponse s (writeOutcome r c s) :=
  (requestStatus_keepsResponse _ s).trans (writeCounters_keepsResponse _ _)

theorem activeDue_keepsResponse (r : RecNo) (s : State) : KeepsResponse s (activeDue r s) := by
  refine ⟨by simp, fun w h => ?_⟩
  simp only [activeDue]
  repeat' split
  all_goals simp [setCompleted, h]

theorem fixRecord_keepsResponse (r : RecNo) (v f : Bool) (s : State) : KeepsResponse s (fixRecord r v f s) := by
  refine ⟨by simp, fun w h => ?_⟩
  simp only [fixRecord]
  repeat' split
  all_goals exact (activeDue_keepsResponse r _).asked w (by simp [setCompleted, updatePath, h])

theorem endWaiting_keepsResponse (e : Entry) (st : EntryState) (c : Option FailCode) (s : State) : KeepsResponse s (endWaiting e st c s) := by
  simp only [endWaiting]
  refine KeepsResponse.trans ?_ (writeOutcome_keepsResponse _ _ _)
  split
  · exact KeepsResponse.trans (t := updateEntry _ _ s) ⟨rfl, fun _ h => h⟩ (fixRecord_keepsResponse _ _ _ _)
  · exact ⟨rfl, fun _ h => h⟩

theorem enterCancelling_keepsResponse (s : State) : KeepsResponse s (enterCancelling s) := by
  refine (enterState_keepsResponse _ _ s).trans (KeepsResponse.foldl (fun s e => ?_) _ _)
  split
  · exact endWaiting_keepsResponse _ _ _ s
  · exact .refl s

theorem nextFetch_keepsResponse (s : State) : KeepsResponse s (nextFetch s) := by
  simp only [nextFetch]
  repeat' split
  all_goals exact ⟨by simp, fun w h => by simp [h]⟩

theorem beginBatch_keepsResponse (q : BitVec 16) (s : State) : KeepsResponse s (beginBatch q none s) := by
  refine KeepsResponse.trans ?_ (nextFetch_keepsResponse _)
  refine KeepsResponse.trans ?_ (writeCounters_keepsResponse _ _)
  exact KeepsResponse.trans (t := { s with batch := { Batch.reset with present := true, seq := q, work := .fetch, recovery := none } })
    ⟨rfl, fun _ h => h⟩ (enterState_keepsResponse _ _ _)

theorem undoBatch_keepsResponse (s : State) : KeepsResponse s (undoBatch s) := by
  have hback (t : State) : KeepsResponse t (returnTouched t) := by
    unfold returnTouched
    split
    · exact .refl t
    · exact KeepsResponse.foldl (f := fun (s : State) (b : BatchRec) => touch b.no s) (fun s b => ⟨rfl, fun _ h => h⟩) _ _
  refine KeepsResponse.trans ?_ (hback _)
  exact ⟨rfl, fun w h => List.mem_filter.mpr ⟨h, rfl⟩⟩

theorem cancelEarly_keepsResponse (s : State) : KeepsResponse s (cancelEarly s) := by
  have hreport (t : State) : KeepsResponse t (reportCancelled t) := by
    unfold reportCancelled
    simp only []
    split
    · exact writeCounters_keepsResponse _ t
    · refine KeepsResponse.trans ?_ (KeepsResponse.foldl (fun s b => writeOutcome_keepsResponse _ _ s) _ _)
      exact ⟨rfl, fun _ h => h⟩
  refine ((undoBatch_keepsResponse s).trans (hreport _)).trans ?_
  exact ⟨rfl, fun w h => List.mem_append_left _ h⟩

/-- A command is answered: its response is the last one and is asked for, and one that is not accepted has no other effect (R25, R58). -/
structure Answers (s t : State) (q : BitVec 16) (k : BitVec 8) (r : Response) : Prop where
  last : t.seqr.lastResp = responseWord q k r
  asked : PortReq.response (responseWord q k r) ∈ t.port
  refused : r ≠ .accepted → t = respond q k r s

theorem respond_answers (s : State) (q : BitVec 16) (k : BitVec 8) (r : Response) : Answers s (respond q k r s) q k r :=
  ⟨rfl, by simp [respond, request], fun _ => rfl⟩

theorem Answers.of_keeps {s t : State} {q : BitVec 16} {k : BitVec 8} (h : KeepsResponse (respond q k .accepted s) t) :
    Answers s t q k .accepted :=
  ⟨h.last, h.asked _ (respond_answers s q k .accepted).asked, fun h => absurd rfl h⟩

theorem takeCommit_answers {s : State} {q : BitVec 16} (hs : s.seqr.st ≠ .unconfigured) (hq : q ≠ 0) :
    Answers s (takeCommit q s) q 1 (responseTo s 1 q) := by
  unfold takeCommit
  by_cases h : (s.seqr.st = .idle && s.intr.depth = 0 && s.seqr.reread = .none) = true
  · rw [if_pos h]
    simp only [responseTo, if_neg hs, if_neg hq, if_pos h]
    exact .of_keeps (beginBatch_keepsResponse q _)
  · rw [if_neg h]
    simp only [responseTo, if_neg hs, if_neg hq, if_neg h]
    split <;> exact respond_answers ..

theorem takeCancel_answers {s : State} {q : BitVec 16} (hs : s.seqr.st ≠ .unconfigured) :
    Answers s (takeCancel q s) q 2 (responseTo s 2 q) := by
  unfold takeCancel
  cases h : s.seqr.st with
  | unconfigured => exact absurd h hs
  | fetching | checking =>
    cases hb : batchOpen s
    · simpa [responseTo, h, hb, commandCodes] using respond_answers s q 2 .state
    · simpa [responseTo, h, hb, commandCodes] using Answers.of_keeps (cancelEarly_keepsResponse (respond q 2 .accepted s))
  | running | holding | held =>
    have hk : KeepsResponse (respond q 2 .accepted s)
        (if batchOpen (respond q 2 .accepted s) then enterCancelling (respond q 2 .accepted s) else respond q 2 .accepted s) := by
      split
      · exact enterCancelling_keepsResponse _
      · exact .refl _
    simpa [responseTo, h, commandCodes] using Answers.of_keeps hk
  | rebuilding | idle | cancelling | suspended | powerdown =>
    simpa [responseTo, h, commandCodes] using respond_answers s q 2 .state

theorem takeHold_answers {s : State} {q : BitVec 16} (hs : s.seqr.st ≠ .unconfigured) :
    Answers s (takeHold q s) q 3 (responseTo s 3 q) := by
  unfold takeHold
  by_cases h : s.seqr.st = .running
  · have hk : KeepsResponse (respond q 3 .accepted s)
        (if batchOpen (respond q 3 .accepted s) then enterState .holding .holding (respond q 3 .accepted s) else respond q 3 .accepted s) := by
      split
      · exact enterState_keepsResponse ..
      · exact .refl _
    simpa [responseTo, h, commandCodes] using Answers.of_keeps hk
  · simpa [responseTo, h, hs, commandCodes] using respond_answers s q 3 .state

theorem takeRelease_answers {s : State} {q : BitVec 16} (hs : s.seqr.st ≠ .unconfigured) :
    Answers s (takeRelease q s) q 4 (responseTo s 4 q) := by
  unfold takeRelease
  by_cases h : s.seqr.st = .holding ∨ s.seqr.st = .held
  · have hk : KeepsResponse (respond q 4 .accepted s)
        (if batchOpen (respond q 4 .accepted s) then enterRunning (respond q 4 .accepted s) else respond q 4 .accepted s) := by
      split
      · refine KeepsResponse.trans ?_ (enterState_keepsResponse ..)
        exact ⟨rfl, fun _ h => h⟩
      · exact .refl _
    simpa [responseTo, h, hs, commandCodes] using Answers.of_keeps hk
  · simpa [responseTo, h, hs, commandCodes] using respond_answers s q 4 .state

theorem takeResume_answers {s : State} {q : BitVec 16} (hs : s.seqr.st ≠ .unconfigured) :
    Answers s (takeResume q s) q 5 (responseTo s 5 q) := by
  unfold takeResume
  by_cases h : 0 < s.intr.depth ∧ s.seqr.st ≠ .rebuilding ∧ s.seqr.st ≠ .powerdown
  · rw [if_pos (by simpa [and_assoc] using h)]
    have hk (t : State) (work : List WorkItem) : KeepsResponse t (if t.intr.work.countP (fun w => w = .resume) < 4 then
        { t with intr := { t.intr with work := work } } else t) := by
      split <;> exact ⟨rfl, fun _ h => h⟩
    simpa [responseTo, h, hs, commandCodes] using Answers.of_keeps (hk (respond q 5 .accepted s) _)
  · rw [if_neg (by simpa [and_assoc] using h)]
    have hr : responseTo s 5 q = .state := by
      simpa [responseTo, hs, commandCodes, and_assoc] using h
    rw [hr]
    exact respond_answers s q 5 .state

/-- A word handed over as a command is answered by the tables of R58 and R59, and where it is refused nothing else follows (R7, R58, R59, R61). -/
theorem handCommand_answers (s : State) (w : Word) :
    let k : BitVec 8 := w.extractLsb' 0 8
    let q : BitVec 16 := w.extractLsb' 16 16
    Answers s (handCommand w s) q k (responseTo s k q) := by
  simp only [handCommand]
  generalize w.extractLsb' 0 8 = k
  generalize w.extractLsb' 16 16 = q
  by_cases hs : s.seqr.st = .unconfigured
  · simpa [responseTo, hs] using respond_answers s q k .unconfigured
  rw [if_neg hs]
  split
  · next h1 =>
    rw [h1]
    split
    · next hq =>
      simpa [responseTo, hs, hq, commandCodes] using respond_answers s q 1 .badCommand
    · next hq => exact takeCommit_answers hs hq
  split
  · next h => rw [h]; exact takeCancel_answers hs
  split
  · next h => rw [h]; exact takeHold_answers hs
  split
  · next h => rw [h]; exact takeRelease_answers hs
  split
  · next h => rw [h]; exact takeResume_answers hs
  next h1 h2 h3 h4 h5 =>
  have hr : responseTo s k q = .badCommand := by
    rw [responseTo, if_neg hs, if_pos]
    simpa [commandCodes] using ⟨h1, h2, h3, h4, h5⟩
  rw [hr]
  exact respond_answers s q k .badCommand

end Sys2Proof.Machine

namespace Sys2Proof.Machine

theorem responseTo_of_lands {s u : State} {addr : Addr} {b : BeatData} (h : Lands s addr b u) (bus : BusPort) (k : BitVec 8) (q : BitVec 16) :
    responseTo { u with bus := bus } k q = responseTo s k q := by rw [h.leaves]; rfl

/-- The word of a beat that has landed, as memory holds it (R168). -/
theorem Lands.word {s u : State} {addr : Addr} {b : BeatData} (h : Lands s addr b u) (hm : s.mem.wf = true) :
    u.mem.word (wordAddr addr) = mergeWord (mergeRead s addr).2 b.data b.be := by
  rcases h with ⟨h, rfl⟩ | ⟨-, -, rfl⟩
  · rw [landed, Memory.word_storeWord_same hm, landedWord]
    rcases h.merge with hb | hy
    · rw [hb, mergeWord_all, mergeWord_all]
    · rw [mergeRead, check_clean hy]
  · have hmem : (landedCorrected s addr b).mem = s.mem.storeWord (wordAddr addr) (mergeWord (mergeRead s addr).2 b.data b.be) := by
      simp [landedCorrected]
    rw [hmem, Memory.word_storeWord_same hm]

/-- Where a beat is taken as a command: at the batch word of the installed status page, or in UNCONFIGURED at the command watch (R7). -/
structure TakenAsCommand (s : State) (a : Nat) : Prop where
  place : batchWordAddr s = some a
  range : a < 2 ^ 24
  page : a % 4096 = 0
  role : s.win.role (pageOf a) = .status ∨ (s.win.role (pageOf a) = .plain ∧ s.seqr.st = .unconfigured ∧ s.win.watch = some a)

theorem TakenAsCommand.wordAddr {s : State} {a : Nat} (h : TakenAsCommand s a) : wordAddr (BitVec.ofNat 24 a) = a :=
  wordAddr_ofNat h.range (by have := h.page; omega)

theorem TakenAsCommand.passes {s : State} {a : Nat} (h : TakenAsCommand s a) (b : BeatData) :
    beatHeld s (.ofWrite (BitVec.ofNat 24 a) b) = false ∧
    writeAction (s.win.role (pageOf (Machine.wordAddr (BitVec.ofNat 24 a)))) (Machine.wordAddr (BitVec.ofNat 24 a) % 4096) = .pass := by
  refine ⟨beatHeld_write ?_, ?_⟩
  · rw [h.wordAddr]; rcases h.role with hr | ⟨hr, -⟩ <;> simp [hr]
  · rw [h.wordAddr, h.page]; rcases h.role with hr | ⟨hr, -⟩ <;> rw [hr] <;> rfl

theorem exec_batchWrite {s : State} {a : Nat} {code x : BitVec 8} {c : CommandBeat} {i : Instr} (hi : (i, x) ∈ batchWrites code c)
    (h : TakenAsCommand s a) : exec i s = beatEvent s (.ofWrite (BitVec.ofNat 24 a) (CommandBeat.write x c)) := by
  rw [← placedWrite_some s (CommandBeat.write x c) h.place]
  simp only [batchWrites, List.mem_cons, Prod.mk.injEq, List.not_mem_nil, or_false] at hi
  rcases hi with ⟨rfl, rfl⟩ | ⟨rfl, rfl⟩ | ⟨rfl, rfl⟩ | ⟨rfl, rfl⟩ | ⟨rfl, rfl⟩ | ⟨rfl, rfl⟩ <;> rfl

/-- A command that lands is answered by the table, and where it is refused nothing else follows (R7, R58, R59). -/
theorem command_lands {s u : State} {a : Nat} {code x : BitVec 8} {c : CommandBeat} {i : Instr} (hi : (i, x) ∈ batchWrites code c)
    (ht : TakenAsCommand s a) (h : Lands s (BitVec.ofNat 24 a) (CommandBeat.write x c) u) :
    let k : BitVec 8 := (u.mem.word a).extractLsb' 0 8
    let q : BitVec 16 := (u.mem.word a).extractLsb' 16 16
    let w := responseWord q k (responseTo s k q)
    (∃ t, exec i s = settled t ∧ t.seqr.lastResp = w ∧ PortReq.response w ∈ t.port) ∧
    (responseTo s k q ≠ .accepted → exec i s = settled { u with port := u.port ++ [.response w], seqr := { s.seqr with lastResp := w } }) := by
  intro k q w
  let g : State := { u with bus := (underGrant s).bus }
  let v := handCommand (u.mem.word a) g
  have hans : Answers g v q k (responseTo s k q) := by
    rw [← responseTo_of_lands h (underGrant s).bus k q]
    exact handCommand_answers g (u.mem.word a)
  have hbus : v.bus = (underGrant s).bus := congrArg Plan.bus (handCommand_plan (u.mem.word a) g)
  obtain ⟨hheld, hpass⟩ := ht.passes (CommandBeat.write x c)
  have hword : (Beat.ofWrite (BitVec.ofNat 24 a) (CommandBeat.write x c)).word = a := ht.wordAddr
  have hrole (bus : BusPort) : (Beat.ofWrite (BitVec.ofNat 24 a) (CommandBeat.write x c)).role { u with bus := bus } = s.win.role (pageOf a) := by
    rw [h.role, Beat.role, hword]
  have hside : sideEffect (.ofWrite (BitVec.ofNat 24 a) (CommandBeat.write x c)) g = v := by
    rcases ht.role with hr | ⟨hr, hst, hwatch⟩
    · rw [sideEffect_status ((hrole _).trans hr), hword, if_pos ht.page]
    · rw [sideEffect_plain ((hrole _).trans hr), hword, if_pos (by simp [h.win, h.seqr, hst, hwatch])]
  have hexec : exec i s = settled { v with bus := u.bus } := by
    rw [exec_batchWrite hi ht]
    exact beatEvent_lands (v := v) h hheld hpass (by rw [hside, ← hbus])
  refine ⟨⟨_, hexec, hans.last, hans.asked⟩, fun hr => ?_⟩
  rw [hexec, hans.refused hr, ← h.seqr]
  rfl

end Sys2Proof.Machine

section
open Sys2Proof Sys2Proof.Machine

/-- Settles O16: the beat lands by its merge read and is handed over as a command, which the tables answer. -/
theorem commandsAreAnsweredByTheTable : Obligations.CommandsAreAnsweredByTheTable := by
  refine ⟨?_, ?_⟩
  · intro s a code c k q i x hi h w
    have ht : TakenAsCommand s a := ⟨h.place, h.range, h.page, h.role⟩
    have hl : Lands s (BitVec.ofNat 24 a) (CommandBeat.write x c) _ := .ready h.beat
    have hword : (landed s (BitVec.ofNat 24 a) (CommandBeat.write x c)).mem.word a = landedWord s (BitVec.ofNat 24 a) (CommandBeat.write x c) := by
      rw [landed, ht.wordAddr, Memory.word_storeWord_same h.memory]
    have := command_lands hi ht hl
    rw [hword, h.kind, h.sequence] at this
    exact this
  · intro s a code c i x hi addr b hr hm hp hlt hpg hrole
    have ht : TakenAsCommand s a := ⟨hp, hlt, hpg, hrole⟩
    refine ⟨fun hc => ?_, fun hc => ?_⟩
    · have hl : Lands s addr b _ := .corrected hr hc
      have hword := hl.word hm
      rw [ht.wordAddr] at hword
      have := command_lands hi ht hl
      rw [hword] at this
      exact this
    · obtain ⟨hheld, hpass⟩ := ht.passes b
      rw [exec_batchWrite hi ht]
      exact beatEvent_mergeFailed hr hheld hpass hc

end

/-! ### Reset and the bus (R18) -/

namespace Sys2Proof.Machine

theorem storeBurst_mem_congr {s t : State} (h : s.mem = t.mem) (a : Nat) (ws : List Word) :
    (storeBurst a ws s).mem = (storeBurst a ws t).mem := by
  induction ws generalizing a s t with
  | nil => exact h
  | cons w ws ih => exact ih (s := storeWord a w s) (t := storeWord a w t) (by simp [h]) (a + 4)

/-- Each beat that was waiting is ended, failed, in the order in which they came (R1, R18). -/
theorem endBeats_finished (l : List Beat) (s : State) : (l.foldl (fun s b => endBeat b none true s) s).bus.finished =
    s.bus.finished ++ l.map (fun b => { addr := b.addr, word := none, failed := true }) := by
  induction l generalizing s with
  | nil => simp
  | cons b l ih =>
    rw [List.foldl_cons, ih, List.map_cons]
    simp [endBeat]

theorem endBeats_keeps (l : List Beat) (s : State) : Keeps s (l.foldl (fun s b => endBeat b none true s) s) :=
  foldl_keeps (fun s b => endBeat_keeps b none true s) l s

theorem assertReset_bus (cut : Nat) (s : State) : (assertReset cut s).bus.held = [] ∧
    (assertReset cut s).bus.finished = s.bus.held.map (fun b => { addr := b.addr, word := none, failed := true }) := by
  have hbus : (cutBurst cut (fresh s)).bus = (fresh s).bus := by
    unfold cutBurst
    repeat' split
    all_goals simp
  constructor
  · exact (endBeats_keeps _ _).2.2.2.2.2.2.2.2
  · exact (endBeats_finished _ _).trans (by simp [hbus])

/-- A reset leaves of memory what it cuts off the access in progress, and nothing else of it changes (R18; log 12). -/
theorem assertReset_mem (cut : Nat) (s : State) : (assertReset cut s).mem = (cutBurst cut (fresh s)).mem :=
  (endBeats_keeps _ _).2.2.2.1

theorem cutBurst_blocked {cut : Nat} {s : State} (h : portBlocked s = true) : cutBurst cut s = s := by simp [cutBurst, h]

theorem cutBurst_rewrite {cut : Nat} {s : State} {r : Rewrite} {l : List Rewrite} (h : portBlocked s = false) (hr : s.integ.rewrites = r :: l) :
    cutBurst cut s = if 0 < cut ∧ r.written = false then storeWord r.addr r.data s else s := by simp [cutBurst, h, hr]

theorem cutBurst_port {cut : Nat} {s : State} (h : portBlocked s = false) (hr : s.integ.rewrites = []) :
    cutBurst cut s = match (nextReq s.port).bind (writeOf s) with | some (a, ws) => storeBurst a (ws.take cut) s | none => s := by
  simp only [cutBurst, h, hr]
  rfl

end Sys2Proof.Machine

section
open Sys2Proof Sys2Proof.Machine

/-- Settles O22: what a reset leaves of memory is `cutBurst`'s, what it leaves of the bus is the waiting beats' ends. -/
theorem resetCutsOffTheBus : Obligations.ResetCutsOffTheBus := by
  have hwrite (s : State) (r : PortReq) : writeOf (fresh s) r = writeOf s r := rfl
  refine ⟨fun cut s => ⟨assertReset cut s, rfl, rfl, rfl, rfl, (assertReset_bus cut s).1, (assertReset_bus cut s).2, fun h => ?_, fun r l h hr => ?_,
    fun r a ws h hr hn hw => ?_, fun h hr hn => ?_⟩, fun s addr be last b h => ?_⟩
  · rw [assertReset_mem, cutBurst_blocked (s := fresh s) h]; rfl
  · rw [assertReset_mem, cutBurst_rewrite (s := fresh s) h hr]; split <;> rfl
  · rw [assertReset_mem, cutBurst_port (s := fresh s) h hr, show nextReq (fresh s).port = some r from hn, Option.bind_some, hwrite, hw]
    exact storeBurst_mem_congr (s := fresh s) (t := s) rfl a (ws.take cut)
  · rw [assertReset_mem, cutBurst_port (s := fresh s) h hr]
    cases hq : nextReq (fresh s).port with
    | none => rfl
    | some r => rw [Option.bind_some, hwrite, hn r hq]; rfl
  · have hreset (x : Beat) : beatEvent s x = .next { s with bus := beatEnded s false x.addr none true x.last } := by
      rw [beatEvent_inReset h, resetBeat,
        endBeat_eq (s := s) (t := { s with bus := { s.bus with finished := [] } }) (port := false) x none true rfl rfl]
    exact ⟨hreset _, hreset _⟩

end

/-! ### The end of POWERDOWN (R97, R153, R186) -/

namespace Sys2Proof.Machine

/-- The sequencer's own state and the start-up state stand. -/
structure KeepsCourse (s t : State) : Prop where
  seqr : t.seqr = s.seqr
  start : t.start = s.start

theorem KeepsCourse.refl (s : State) : KeepsCourse s s := ⟨rfl, rfl⟩

theorem KeepsCourse.trans {s t u : State} (h : KeepsCourse s t) (k : KeepsCourse t u) : KeepsCourse s u :=
  ⟨k.seqr.trans h.seqr, k.start.trans h.start⟩

theorem KeepsCourse.foldl {α : Type} {f : State → α → State} (h : ∀ s a, KeepsCourse s (f s a)) (l : List α) (s : State) :
    KeepsCourse s (l.foldl f s) := by
  induction l generalizing s with
  | nil => exact .refl s
  | cons a l ih => exact (h s a).trans (ih _)

/-- A list's acts keep the course where each does in a state of that course. -/
theorem KeepsCourse.foldl_of {α : Type} {f : State → α → State} {s : State} (h : ∀ t a, KeepsCourse s t → KeepsCourse t (f t a)) (l : List α) :
    KeepsCourse s (l.foldl f s) := by
  have hgen (l : List α) (t : State) (ht : KeepsCourse s t) : KeepsCourse s (l.foldl f t) := by
    induction l generalizing t with
    | nil => exact ht
    | cons a l ih => exact ih _ (ht.trans (h t a ht))
  exact hgen l s (.refl s)

theorem endWaiting_keepsCourse (e : Entry) (st : EntryState) (c : Option FailCode) (s : State) : KeepsCourse s (endWaiting e st c s) := by
  simp only [endWaiting]
  split <;> exact ⟨by simp [giveUpClaims], by simp [giveUpClaims]⟩

/-- A failure code taken in SUSPENDED sets the stop-pending mark at most (R90, R166). -/
theorem stopTest_keepsCourse {s : State} (h : s.seqr.st = .suspended) (c : FailCode) : KeepsCourse s (stopTest c s) := by
  simp only [stopTest, h]
  split <;> exact ⟨rfl, rfl⟩

theorem markVoid_keepsCourse (c : FailCode) (n : Nat) (l : List Nat) (s : State) (h : s.seqr.st = .suspended) : KeepsCourse s (markVoid c n l s) := by
  induction n generalizing l s with
  | zero => unfold markVoid; exact .refl s
  | succ n ih =>
    cases l with
    | nil => unfold markVoid; exact .refl s
    | cons pid rest =>
      unfold markVoid
      split
      · exact ih rest s h
      · next e _ =>
        split
        · have hend := endWaiting_keepsCourse e .failed (some c) s
          have hst : (endWaiting e .failed (some c) s).seqr.st = .suspended := by rw [hend.seqr, h]
          have hstop := stopTest_keepsCourse hst c
          exact (hend.trans hstop).trans (ih _ _ (by rw [hstop.seqr, hst]))
        · simp only []
          split
          · refine KeepsCourse.trans ?_ (ih rest _ h)
            exact ⟨rfl, rfl⟩
          · exact ih _ _ h
        · exact ih _ _ h

/-- A finish that was put off is carried out in SUSPENDED, and the sequencer stays there (R97). -/
theorem runDeferred_keepsCourse {s : State} (h : s.seqr.st = .suspended) (x : Deferred) : KeepsCourse s (runDeferred s x) := by
  cases x with
  | entry r st v =>
    simp only [runDeferred, finishNow]
    split
    · exact .refl s
    · refine KeepsCourse.trans ?_ (markVoid_keepsCourse _ _ _ _ ?_)
      · split <;> exact ⟨by simp, by simp⟩
      · split <;> simp [h]
  | restore r => exact ⟨by simp [runDeferred, endRestoreNow], by simp [runDeferred, endRestoreNow]⟩

theorem squelchPath_keepsCourse (p : Path) (s : State) : KeepsCourse s (squelchPath p s) := by
  have hstop : KeepsCourse s (stopPathEngine p.pid s) := by
    unfold stopPathEngine
    split <;> exact ⟨by simp, by simp⟩
  simp only [squelchPath]
  refine KeepsCourse.trans hstop ?_
  repeat' split
  all_goals exact ⟨by simp, by simp⟩

theorem stopRestore_keepsCourse (x : Restore) (s : State) : KeepsCourse s (stopRestore x s) := ⟨by simp [stopRestore], by simp [stopRestore]⟩

theorem squelchDegree_keepsCourse (d : Degree) (s : State) : KeepsCourse s (squelchDegree d s) := by
  simp only [squelchDegree]
  refine KeepsCourse.trans ?_ (KeepsCourse.foldl (fun s x => stopRestore_keepsCourse x s) _ _)
  refine KeepsCourse.trans (t := List.foldl _ _ _) ?_ ⟨rfl, rfl⟩
  refine KeepsCourse.trans ?_ (KeepsCourse.foldl (fun s p => ⟨by simp, by simp⟩) _ _)
  exact KeepsCourse.foldl (fun s p => squelchPath_keepsCourse p s) _ _

theorem lossEvent_keepsCourse (d : Degree) (s : State) : KeepsCourse s (lossEvent d s) := by
  have hlit : KeepsCourse s (lossFromLit d s) := by
    have hsq (t : State) : KeepsCourse t (if lightActs t || t.seqr.st = .unconfigured then squelchDegree d t else t) := by
      split
      · exact squelchDegree_keepsCourse d t
      · exact .refl t
    simp only [lossFromLit]
    refine KeepsCourse.trans (KeepsCourse.trans (t := { s with light := { s.light with state := s.light.state.set d .dark } }) ⟨rfl, rfl⟩ (hsq _)) ?_
    repeat' split
    all_goals exact ⟨by simp, by simp⟩
  unfold lossEvent
  split
  · exact hlit
  · exact ⟨by simp, by simp⟩
  · exact .refl s

theorem clearEvent_keepsCourse (d : Degree) (s : State) : KeepsCourse s (clearEvent d s) := by
  unfold clearEvent clearFromDark
  split <;> exact ⟨by simp, by simp⟩

theorem actOnLatched_keepsCourse (d : Degree) (s : State) : KeepsCourse s (actOnLatched d s) := by
  have hboth (t : State) : KeepsCourse t (clearEvent d (lossEvent d t)) := (lossEvent_keepsCourse d t).trans (clearEvent_keepsCourse d _)
  simp only [actOnLatched]
  refine KeepsCourse.trans (t := { s with light := { s.light with lossSeen := s.light.lossSeen.set d false } }) ⟨rfl, rfl⟩ ?_
  repeat' split
  all_goals first
    | exact hboth _
    | exact lossEvent_keepsCourse d _
    | exact clearEvent_keepsCourse d _
    | exact .refl _

end Sys2Proof.Machine

namespace Sys2Proof.Machine

/-- A qualified assertion where the Light Supervisor acts asks for a POWER_FAIL capture, one waiting request standing for all (R155, R185). -/
theorem pfwAsserted_acts {s : State} (h : lightActs s = true) : pfwAsserted s = requestCapture .powerFail
    { s with start := { s.start with pfw := { s.start.pfw with pin := true, level := some true, run := 0 } } } := by
  unfold pfwAsserted
  cases hs : s.seqr.st <;> simp_all [lightActs, SeqState.isBatch, SeqState.isRun]

theorem requestCapture_eq (c : CaptureSource) (s : State) : requestCapture c s =
    { s with intr := { s.intr with work := if WorkItem.capture c ∈ s.intr.work then s.intr.work else s.intr.work ++ [.capture c] } } := by
  unfold requestCapture
  by_cases h : WorkItem.capture c ∈ s.intr.work <;> simp [h]

/-- The state in which PFW_N has its level and the POWERDOWN flag is gone, before the finishes put off and the degrees (R15, R122, R186). -/
def powerdownEnded (s : State) : State :=
  { s with
    start := { s.start with pfw := { s.start.pfw with pin := false, level := some false, run := 0 }, powerdown := false, deferred := [] }
    holds := { s.holds with wb := s.port.filterMap (fun r => match r with | .active r => some r | _ => none) }
    port := s.port.map (fun r => match r with | .monitor _ => .monitor s.mon.linkUp | r => r) }

/-- The finishes put off, and then the degrees from D1 to D4 (R97, R153; log 32). -/
def latchedActs (l : List Deferred) (s : State) : State :=
  [Degree.d1, .d2, .d3, .d4].foldl (fun s d => actOnLatched d s) (l.foldl runDeferred s)

theorem pfwDeasserted_flagClear {s : State} (h : s.start.powerdown = false) : pfwDeasserted s =
    { s with start := { s.start with pfw := { s.start.pfw with pin := false, level := some false, run := 0 } } } := by
  simp [pfwDeasserted, h]

theorem pfwDeasserted_powerdown {s : State} (h : s.start.powerdown = true) (hs : s.seqr.st = .powerdown) : pfwDeasserted s =
    latchedActs s.start.deferred (writeBatchState { st := .suspended, seq := if s.batch.present then s.batch.seq else s.seqr.shown.seq }
      { powerdownEnded s with seqr := { s.seqr with st := .suspended } }) := by
  simp only [pfwDeasserted, h, hs]
  rfl

theorem pfwDeasserted_elsewhere {s : State} (h : s.start.powerdown = true) (hs : s.seqr.st ≠ .powerdown) :
    pfwDeasserted s = latchedActs s.start.deferred (powerdownEnded s) := by
  simp only [pfwDeasserted, h, hs]
  rfl

theorem latchedActs_keepsCourse {s : State} (h : s.seqr.st = .suspended) (l : List Deferred) : KeepsCourse s (latchedActs l s) :=
  (KeepsCourse.foldl_of (fun t x ht => runDeferred_keepsCourse (by rw [ht.seqr, h]) x) l).trans
    (KeepsCourse.foldl (fun s d => actOnLatched_keepsCourse d s) _ _)

end Sys2Proof.Machine

section
open Sys2Proof Sys2Proof.Machine

/-- Settles O28: what the pin's two edges do by the POWERDOWN flag and the sequencer's state, and what the acts put off to its end do one by one. -/
theorem powerFailPinPausesAndResumes : Obligations.PowerFailPinPausesAndResumes := by
  intro s ha lvl
  have hev (f : State → State) : event s f = settled (f (fresh s)) := event_awake ha f
  refine ⟨fun h => ?_, fun hs hp => ?_, fun hp => ?_, fun hp hs => ?_, fun hp => ?_, fun d hp => ⟨?_, ?_⟩, fun d => ⟨?_, ?_, ?_⟩, fun r st v => ⟨fun hp => ?_, fun hp => ?_⟩⟩
  · rw [exec, execPfwAssertion, hev, pfwAsserted_acts (s := fresh s) h, requestCapture_eq]; rfl
  · rw [exec, execPfwAssertion, hev, pfwAsserted]
    rcases hs with hs | hs <;> simp only [fresh, hs, hp] <;> rfl
  · rw [exec, execPfwDeassertion, hev, pfwDeasserted_flagClear (s := fresh s) hp]; rfl
  · rw [exec, execPfwDeassertion, hev, pfwDeasserted_powerdown (s := fresh s) hp hs]
    have hc (q : BitVec 16) := latchedActs_keepsCourse (s := writeBatchState { st := .suspended, seq := q }
      { powerdownEnded (fresh s) with seqr := { (fresh s).seqr with st := .suspended } }) (by simp [writeBatchState]) (fresh s).start.deferred
    exact ⟨_, rfl, by rw [(hc _).start]; simp [powerdownEnded], by rw [(hc _).start]; simp [powerdownEnded],
      by rw [(hc _).seqr]; simp [writeBatchState], by rw [(hc _).seqr, writeBatchState_shown]⟩
  · refine ⟨fun hs => ?_, fun hs => ?_⟩
    · rw [exec, execPfwDeassertion, hev, pfwDeasserted_powerdown (s := fresh s) hp hs]; rfl
    · rw [exec, execPfwDeassertion, hev, pfwDeasserted_elsewhere (s := fresh s) hp hs]; rfl
  · simp only [exec, execQualifiedLoss]
    rw [hev, if_neg (by simp [setLevel, hp])]
  · simp only [exec, execQualifiedClear]
    rw [hev, if_neg (by simp [setLevel, hp])]
  · intro hl hseen
    rcases hl with hl | hl <;> exact ⟨fun hc => by simp [actOnLatched, hl, hseen, hc], fun hc => by simp [actOnLatched, hl, hseen, hc]⟩
  · intro hl hseen
    rcases hl with hl | hl <;> simp [actOnLatched, hl, hseen]
  · intro hl
    exact ⟨fun hc => by simp [actOnLatched, hl, hc], fun hc => by simp [actOnLatched, hl, hc]⟩
  · exact ⟨by simp [runDeferred, finishEntry, hp], by simp [runDeferred, endRestore, hp]⟩
  · exact ⟨by simp [finishEntry, hp], by simp [endRestore, hp]⟩

end

/-! ### Fetch reads (R14, R57, R62, R63) -/

namespace Sys2Proof.Machine

/-- The entry that a fetch read of a record adds, by the checks of its three words (R63). -/
def fetchedItem (m : Memory) (a : Nat) (r : RecNo) : BatchRec :=
  if (m.check a).1 = .uncorrectable ∨ (m.check (a + 4)).1 = .uncorrectable ∨ (m.check (a + 8)).1 = .uncorrectable then
    { no := r, copy := none, verdict := .rej .unreadable, held := false }
  else { no := r, copy := some ⟨(m.check a).2, (m.check (a + 4)).2, (m.check (a + 8)).2⟩, verdict := .unjudged, held := false }

/-- What a completed fetch read leaves (R14, R55, R57, R63). -/
theorem recordFetched_eq {s : State} {m : WindowMap} {r : RecNo} {a : Nat} (hm : s.win.map = some m) (ha : pageAddr m.staging (offRecord r) = a) :
    recordFetched r s = { (readBurst .fetch a 3 s).1 with
      batch := { s.batch with list := joinRecord (fetchedItem s.mem a r) s.batch.list, lastFetched := some r }
      holds := { s.holds with fetch := none }
      touched := s.touched.filter (fun x => x ≠ r) } := by
  have hpair : readBurst .fetch a 3 s = ((readBurst .fetch a 3 s).1,
      [((s.mem.check a).2, decide ((s.mem.check a).1 = .uncorrectable)),
       ((s.mem.check (a + 4)).2, decide ((s.mem.check (a + 4)).1 = .uncorrectable)),
       ((s.mem.check (a + 8)).2, decide ((s.mem.check (a + 8)).1 = .uncorrectable))]) :=
    Prod.ext rfl (readBurst_gives .fetch 3 a s)
  have hb := (readBurst_leaves .fetch a 3 s)
  generalize (readBurst .fetch a 3 s).1 = t at hpair hb ⊢
  simp only [recordFetched, hm, ha, hpair, untouch, hb, fetchedItem, Bool.or_eq_true, decide_eq_true_eq, or_assoc]

theorem recordFetched_bus (r : RecNo) (s : State) : (recordFetched r s).bus = s.bus := by
  cases hm : s.win.map with
  | none => simp [recordFetched, hm]
  | some m => rw [recordFetched_eq hm rfl]; simp

/-- The lowest element that a test picks is the first one it picks in an ascending list. -/
theorem find_lowest {l : List RecNo} {p : RecNo → Bool} {r : RecNo} (hl : l.Pairwise (· < ·)) (hr : r ∈ l) (hp : p r = true)
    (hmin : ∀ x ∈ l, p x = true → r ≤ x) : l.find? p = some r := by
  induction l with
  | nil => simp at hr
  | cons a l ih =>
    obtain ⟨ha, hl⟩ := List.pairwise_cons.mp hl
    by_cases hpa : p a = true
    · have hle := hmin a (by simp) hpa
      rcases List.mem_cons.mp hr with rfl | hr
      · simp [hpa]
      · exact absurd (ha r hr) (not_lt.mpr hle)
    · rw [List.find?_cons_of_neg (by simpa using hpa)]
      rcases List.mem_cons.mp hr with rfl | hr
      · exact absurd hp hpa
      · exact ih hl hr (fun x hx => hmin x (by simp [hx]))

/-- Whether a record lies above the one last fetched; at the first choice every one does (R62). -/
def aboveFetched (s : State) (r : RecNo) : Bool := match s.batch.lastFetched with | some l => decide (l < r) | none => true

theorem aboveFetched_iff (s : State) (r : RecNo) : aboveFetched s r = true ↔ ∀ l, s.batch.lastFetched = some l → l < r := by
  unfold aboveFetched
  cases s.batch.lastFetched <;> simp

theorem nextFetch_idle {s : State} (h : s.batch.present = false ∨ s.batch.ending = true ∨ s.batch.work ≠ .fetch) : nextFetch s = s := by
  rw [nextFetch, if_pos]
  rcases h with h | h | h <;> simp [h]

/-- The next fetch read is of the first touched record above the last one fetched; where there is none the masks are read (R14, R15, R62, R64). -/
theorem nextFetch_fetching {s : State} (hp : s.batch.present = true) (he : s.batch.ending = false) (hw : s.batch.work = .fetch) :
    nextFetch s = match s.touched.find? (aboveFetched s) with
      | some r => request (.fetchRec r) (if s.start.powerdown then s else { s with holds := { s.holds with fetch := some r } })
      | none => request .fetchMasks s := by
  rw [nextFetch, if_neg (by simp [hp, he, hw])]
  rfl

end Sys2Proof.Machine

section
open Sys2Proof Sys2Proof.Machine

/-- Settles O49: the read's burst decides the entry, and the next read is the first that the ascending Touched Set gives. -/
theorem fetchReadAddsItsEntry : Obligations.FetchReadAddsItsEntry := by
  refine ⟨?_, ?_, ?_, ?_⟩
  · intro s m r ha hm hn
    simp only [exec, execFetchRead]
    rw [rowEvent_nextIs ha hn rfl rfl]
    simp only []
    rw [recordFetched_bus]
    rfl
  · intro s m r hm
    generalize ha : pageAddr m.staging (offRecord r) = a
    intro a' t x
    have ht : t = _ := recordFetched_eq hm ha
    clear_value t
    subst ht
    refine ⟨fun h => ?_, fun h => ⟨?_, fun hk => ?_⟩, rfl, rfl, rfl⟩
    · rw [fetchedItem, if_neg]
      · rfl
      · rintro (h' | h' | h')
        exacts [h 0 (by omega) h', h 1 (by omega) h', h 2 (by omega) h']
    · rw [fetchedItem, if_pos]
      · rfl
      · obtain ⟨i, hi, h⟩ := h
        interval_cases i
        exacts [.inl h, .inr (.inl h), .inr (.inr h)]
    · obtain ⟨i, hi, h⟩ := h
      have hrec := readBurst_record .fetch 3 a s hk ⟨i, hi, by rw [show (s.mem.check (a + 4 * i)).1 = .uncorrectable from h]; simp⟩
      exact ⟨hrec.2, hrec.1⟩
  · intro s b h
    simp only [judge, h]
  · intro s
    refine ⟨nextFetch_idle, ?_⟩
    intro hp he hw hl above
    refine ⟨fun r hr ha hmin => ?_, fun hnone => ?_⟩
    · have hfind := find_lowest hl hr ((aboveFetched_iff s r).mpr ha) (fun x hx h => hmin x hx ((aboveFetched_iff s x).mp h))
      rw [nextFetch_fetching hp he hw, hfind]
      exact ⟨fun hd => by simp [hd, request], fun hd => by simp [hd, request]⟩
    · have hfind : s.touched.find? (aboveFetched s) = none :=
        List.find?_eq_none.mpr (fun r hr h => hnone r hr ((aboveFetched_iff s r).mp h))
      rw [nextFetch_fetching hp he hw, hfind]
      rfl

end

/-! ### Write-backs and the end of a batch (R15, R23, R24, R95) -/

namespace Sys2Proof.Machine

/-- A completed state but EMPTY is read back as it was set, whatever the order of the list. -/
theorem doneGet_doneSet {c : Completed} (r : RecNo) (hc : c ≠ .empty) (l : List (RecNo × Completed)) : doneGet r (doneSet r c l) = c := by
  induction l with
  | nil => simp [doneSet, hc, doneGet]
  | cons x l ih =>
    obtain ⟨a, b⟩ := x
    simp only [doneSet]
    split
    · simp [doneGet]
    · split
      · simp [doneGet]
      · next h => simpa [doneGet, show ¬ a = r from fun e => h e.symm] using ih

/-- EMPTY is what a rising list leaves out, and it is read back where the list is rising (R41). -/
theorem doneGet_none {r : RecNo} {l : List (RecNo × Completed)} (h : ∀ x ∈ l.map (·.1), x ≠ r) : doneGet r l = .empty := by
  induction l with
  | nil => rfl
  | cons x l ih =>
    simp only [List.map_cons, List.mem_cons, forall_eq_or_imp] at h
    rw [doneGet, if_neg h.1, ih h.2]

theorem doneGet_doneSet_empty (r : RecNo) {l : List (RecNo × Completed)} (h : (l.map (·.1)).Pairwise (· < ·)) :
    doneGet r (doneSet r .empty l) = .empty := by
  induction l with
  | nil => rfl
  | cons x l ih =>
    obtain ⟨a, b⟩ := x
    obtain ⟨ha, hl⟩ := List.pairwise_cons.mp h
    simp only [doneSet]
    split
    · next hlt =>
      refine doneGet_none (fun y hy => ?_)
      rcases List.mem_cons.mp hy with rfl | hy
      · exact ne_of_gt hlt
      · exact ne_of_gt (hlt.trans (ha y hy))
    · split
      · next heq => exact doneGet_none (fun y hy => ne_of_gt (heq ▸ ha y hy))
      · next hne => simpa [doneGet, show ¬ a = r from fun e => hne e.symm] using ih hl

theorem completed_setCompleted {c : Completed} (r : RecNo) (hc : c ≠ .empty) (s : State) : (setCompleted r c s).completed r = c :=
  doneGet_doneSet r hc s.table.done

/-- What becomes due with a write of an active record: the measured power, the hold but in POWERDOWN, and the request, of which one waits (R15, R24). -/
theorem activeDue_eq (r : RecNo) (s : State) : activeDue r s =
    { s with
      table := { s.table with done := doneSet r ((s.completed r).measure s) s.table.done }
      holds := { s.holds with wb := if s.start.powerdown = true ∨ r ∈ s.holds.wb then s.holds.wb else s.holds.wb ++ [r] }
      port := if PortReq.active r ∈ s.port then s.port else s.port ++ [.active r] } := by
  by_cases h : s.start.powerdown = true ∨ r ∈ s.holds.wb <;> by_cases hp : PortReq.active r ∈ s.port <;>
    simp [activeDue, setCompleted, request, h, hp]

end Sys2Proof.Machine

namespace Sys2Proof.Machine

/-- A write of the part at its grant stores its words, all else as after the grant (R17). -/
theorem carryOut_granted {s : State} {r : PortReq} {a : Nat} {ws : List Word} (h : writeOf s r = some (a, ws)) :
    carryOut r (granted s r) = written s r a ws :=
  carryOut_writes (s := granted s r) h

/-- The end state's write ends the batch, whose list and queue are emptied with BATCH_END raised (R95); what the sequencer then is goes by the depth and,
at depth 0, by the state it was in (logs 16 and 17). -/
theorem batchEnded_eq {s : State} {m : WindowMap} (b : BatchWord) (hm : s.win.map = some m) :
    let t := raiseCause .batchEnd { s with
      batch := { s.batch with present := false, ending := false, list := [], abandon := false, stopPending := false, work := .none
                              lastFetched := none, recovery := none, lossStop := false }
      queue := [] }
    (s.intr.depth = 0 → s.seqr.st ≠ .suspended → batchEnded b s = { t with seqr := { s.seqr with st := .idle } }) ∧
    (s.intr.depth = 0 → s.seqr.st = .suspended →
      batchEnded b s = { t with seqr := { s.seqr with st := .idle, shown := b }, port := t.port ++ [.batchState b] }) ∧
    (0 < s.intr.depth → batchEnded b s = { t with
      seqr := { s.seqr with st := .suspended, kept := some b, shown := { st := .suspended, seq := b.seq } }
      port := t.port ++ [.batchState { st := .suspended, seq := b.seq }] }) := by
  refine ⟨fun hd hs => ?_, fun hd hs => ?_, fun hd => ?_⟩
  · simp [batchEnded, hd, hs]
  · simp [batchEnded, hd, hs, writeBatchState, requestStatus, request, hm]
  · simp [batchEnded, show s.intr.depth ≠ 0 by omega, writeBatchState, requestStatus, request, hm]

end Sys2Proof.Machine

section
open Sys2Proof Sys2Proof.Machine

/-- Settles O53: each write is the grant's, and what follows it is its row's. -/
theorem writeBacksLandAndEndTheBatch : Obligations.WriteBacksLandAndEndTheBatch := by
  refine ⟨?_, ?_, ?_⟩
  · intro s r t
    have ht : t = _ := activeDue_eq r s
    clear_value t
    subst ht
    refine ⟨rfl, rfl, fun x hx => ?_, fun hx => ?_, fun hl hx => ?_, rfl, rfl, fun c => ?_⟩
    · rw [hx]; exact doneGet_doneSet r (by simp [Completed.measure]) _
    · rw [hx]; exact doneGet_doneSet r (by simp [Completed.measure]) _
    · rw [hx]; exact doneGet_doneSet_empty r hl
    · rw [fixCompleted, activeDue_eq]
      by_cases h : s.start.powerdown = true ∨ r ∈ s.holds.wb <;> by_cases hp : PortReq.active r ∈ s.port <;> simp [setCompleted, h, hp]
  · intro s m r ha hm
    refine ⟨fun hn => ?_, fun c q hn => ?_⟩
    · simp only [exec, execActiveWriteBack]
      rw [rowEvent_nextIs ha hn rfl rfl]
      simp only []
      rw [carryOut_granted (a := pageAddr m.active (offRecord r)) (ws := (s.completed r).words) (by simp [writeOf, hm])]
      simp [written, granted, fresh]
    · simp only [exec, execOutcomeWordWrite]
      rw [rowEvent_nextIs ha hn rfl rfl]
      simp only []
      rw [carryOut_granted (a := pageAddr m.staging (offRecord r + 12)) (ws := [outcomeWord c q]) (by simp [writeOf, hm])]
      simp [written, granted, fresh]
  · intro s m b ha hm hn t
    have hexec : exec .endStateWrite s = settled (batchEnded b (written s (.endState b) (pageAddr m.status offBatchState) [b.word])) := by
      simp only [exec, execEndStateWrite]
      rw [rowEvent_nextIs ha hn rfl rfl]
      simp only []
      rw [carryOut_granted (a := pageAddr m.status offBatchState) (ws := [b.word]) (by simp [writeOf, hm])]
    rw [hexec]
    obtain ⟨h1, h2, h3⟩ := batchEnded_eq (s := written s (.endState b) (pageAddr m.status offBatchState) [b.word]) b hm
    exact ⟨fun hd hs => congrArg settled (h1 hd hs), fun hd hs => congrArg settled (h2 hd hs), fun hd => congrArg settled (h3 hd)⟩

end

/-! ### Fields of a word written from a number (Table 2-6) -/

namespace Sys2Proof.Machine

theorem extract_ofNat {lo len : Nat} (n : Nat) (h : lo + len ≤ 32) : (BitVec.ofNat 32 n).extractLsb' lo len = BitVec.ofNat len (n / 2 ^ lo) := by
  apply BitVec.eq_of_getLsbD_eq
  intro i hi
  simp only [BitVec.getLsbD_extractLsb', BitVec.getLsbD_ofNat, Nat.testBit_div_two_pow, hi, show lo + i < 32 by omega, decide_true, Bool.true_and,
    Nat.add_comm]

theorem field_ofNat {lo len : Nat} (n : Nat) (h : lo + len ≤ 32) : field (BitVec.ofNat 32 n) lo len = n / 2 ^ lo % 2 ^ len := by
  have := congrArg BitVec.toNat (extract_ofNat n h)
  simpa [field, BitVec.extractLsb'_toNat, Nat.shiftRight_eq_div_pow] using this

theorem getLsbD_ofNat32 {i : Nat} (n : Nat) (h : i < 32) : (BitVec.ofNat 32 n).getLsbD i = decide (n / 2 ^ i % 2 = 1) := by
  rw [BitVec.getLsbD_ofNat, Nat.testBit_eq_decide_div_mod_eq]; simp [h]

theorem ofNat_eq_of_toNat_mod {w : Nat} {x : BitVec w} {n : Nat} (h : n % 2 ^ w = x.toNat) : BitVec.ofNat w n = x := by
  apply BitVec.eq_of_toNat_eq; rw [BitVec.toNat_ofNat, h]

theorem Response.code_le (r : Response) : r.code ≤ 6 := by cases r <;> decide

theorem responseWord_fields (q : BitVec 16) (k : BitVec 8) (r : Response) :
    (responseWord q k r).extractLsb' 16 16 = q ∧ (responseWord q k r).extractLsb' 8 8 = k ∧ field (responseWord q k r) 0 8 = r.code := by
  have hq := q.isLt
  have hk := k.isLt
  have hr := r.code_le
  unfold responseWord
  rw [extract_ofNat _ (by omega), extract_ofNat _ (by omega), field_ofNat _ (by omega)]
  exact ⟨ofNat_eq_of_toNat_mod (by omega), ofNat_eq_of_toNat_mod (by omega), by omega⟩

theorem BatchWordState.code_le (st : BatchWordState) : st.code ≤ 12 := by cases st <;> decide

theorem BatchWord.word_fields (b : BatchWord) :
    b.word.extractLsb' 16 16 = b.seq ∧ field b.word 8 8 = 0 ∧ field b.word 0 8 = b.st.code := by
  have hq := b.seq.isLt
  have hc := b.st.code_le
  unfold BatchWord.word
  rw [extract_ofNat _ (by omega), field_ofNat _ (by omega), field_ofNat _ (by omega)]
  exact ⟨ofNat_eq_of_toNat_mod (by omega), by omega, by omega⟩

theorem topRank_le (x : BitVec 8) : topRank x ≤ 8 := by
  unfold topRank
  split
  · next i h =>
    have := List.mem_range.mp (List.mem_of_find?_eq_some h)
    omega
  · omega

theorem Attention.word_fields (a : Attention) : a.word.extractLsb' 0 8 = a.pending ∧ a.word.extractLsb' 8 8 = a.enable ∧
    field a.word 16 4 = topRank (a.pending &&& a.enable) ∧ field a.word 20 12 = 0 := by
  have hp := a.pending.isLt
  have he := a.enable.isLt
  have ht := topRank_le (a.pending &&& a.enable)
  unfold Attention.word
  rw [extract_ofNat _ (by omega), extract_ofNat _ (by omega), field_ofNat _ (by omega), field_ofNat _ (by omega)]
  exact ⟨ofNat_eq_of_toNat_mod (by omega), ofNat_eq_of_toNat_mod (by omega), by omega, by omega⟩

theorem bit_le (b : Bool) : bit b ≤ 1 := by cases b <;> decide

theorem decide_bit (b : Bool) : decide (bit b = 1) = b := by cases b <;> decide

theorem ProtRecord.word_fields {p : ProtRecord} (h : p.filled = true) :
    p.word.getLsbD 31 = true ∧ p.word.getLsbD 24 = p.further ∧ p.word.extractLsb' 0 24 = p.addr := by
  have ha := p.addr.isLt
  have hb := bit_le p.further
  rw [ProtRecord.word, if_pos h, getLsbD_ofNat32 _ (by omega), getLsbD_ofNat32 _ (by omega), extract_ofNat _ (by omega)]
  refine ⟨by simp only [decide_eq_true_eq]; omega, ?_, ofNat_eq_of_toNat_mod (by omega)⟩
  exact (decide_eq_decide.mpr (by omega)).trans (decide_bit p.further)

theorem Counters.words_fields {c : Counters} (h1 : c.total ≤ 256) (h2 : c.done ≤ 256) (h3 : c.rejected ≤ 256) (h4 : c.failed ≤ 256)
    (h5 : c.other ≤ 256) : ∃ x y, c.words = [x, y] ∧ field x 16 10 = c.total ∧ field x 0 10 = c.done ∧ field y 20 10 = c.rejected ∧
      field y 10 10 = c.failed ∧ field y 0 10 = c.other := by
  refine ⟨_, _, rfl, ?_⟩
  simp only [field_ofNat _ (show 16 + 10 ≤ 32 by omega), field_ofNat _ (show 0 + 10 ≤ 32 by omega), field_ofNat _ (show 20 + 10 ≤ 32 by omega),
    field_ofNat _ (show 10 + 10 ≤ 32 by omega)]
  omega

theorem LightState.code_le (l : LightState) : l.code ≤ 2 := by cases l <;> decide

theorem lightWord_fields (l : PerDegree LightState) (c : PerDegree Bool) (d : Degree) :
    field (lightWord l c) (2 * d.idx) 2 = (l.get d).code ∧ (lightWord l c).getLsbD (8 + d.idx) = c.get d := by
  have h1 := l.d1.code_le
  have h2 := l.d2.code_le
  have h3 := l.d3.code_le
  have h4 := l.d4.code_le
  have b1 := bit_le c.d1
  have b2 := bit_le c.d2
  have b3 := bit_le c.d3
  have b4 := bit_le c.d4
  have hd : d.idx < 4 := by cases d <;> decide
  rw [lightWord, field_ofNat _ (by omega), getLsbD_ofNat32 _ (by omega)]
  refine ⟨by cases d <;> simp only [Degree.idx, PerDegree.get] <;> omega, (decide_eq_decide.mpr ?_).trans (decide_bit (c.get d))⟩
  cases d <;> simp only [Degree.idx, PerDegree.get] <;> omega

theorem ModState.code_le (m : ModState) : m.code ≤ 2 := by cases m <;> decide

theorem moduleWord_fields (m : PerPoint ModState) (o : OutPoint) : field (moduleWord m) (2 * o.idx) 2 = (m.get o).code := by
  have h1 := m.deg.d1.code_le
  have h2 := m.deg.d2.code_le
  have h3 := m.deg.d3.code_le
  have h4 := m.deg.d4.code_le
  have h5 := m.g1.code_le
  have h6 := m.g2.code_le
  have ho : o.idx < 6 := by rcases o with d | g <;> [cases d; cases g] <;> decide
  rw [moduleWord, field_ofNat _ (by omega)]
  rcases o with d | g
  · cases d <;> simp only [OutPoint.idx, Degree.idx, PerPoint.get, PerDegree.get] <;> omega
  · cases g <;> simp only [OutPoint.idx, Group.idx, PerPoint.get] <;> omega

theorem MemFault.words_fields {f : MemFault} {k q : Nat} (ha : f.addr < 2 ^ 24)
    (hk : (f.kind, k) ∈ [(MemFaultKind.none, 0), (.corrected, 1), (.uncorrectable, 2)])
    (hq : (f.req, q) ∈ [(MemFaultReq.hostRead, 0), (.hostPartialWrite, 1), (.fetch, 2), (.rebuild, 3), (.scrub, 4)]) : ∃ x y, f.words = [x, y] ∧
    field x 0 24 = f.addr ∧ field x 24 8 = 0 ∧ field y 0 2 = k ∧ field y 4 3 = q ∧ y.extractLsb' 8 7 = f.syndrome ∧ y.getLsbD 16 = f.further := by
  have hwords : f.words = [BitVec.ofNat 32 (f.addr % 2 ^ 24), BitVec.ofNat 32 (k + q * 2 ^ 4 + f.syndrome.toNat * 2 ^ 8 + bit f.further * 2 ^ 16)] := by
    simp only [List.mem_cons, Prod.mk.injEq, List.not_mem_nil, or_false] at hk hq
    rw [MemFault.words]
    rcases hk with ⟨h, rfl⟩ | ⟨h, rfl⟩ | ⟨h, rfl⟩ <;> rw [h] <;>
      rcases hq with ⟨h', rfl⟩ | ⟨h', rfl⟩ | ⟨h', rfl⟩ | ⟨h', rfl⟩ | ⟨h', rfl⟩ <;> rw [h']
  have hk2 : k ≤ 2 := by
    simp only [List.mem_cons, Prod.mk.injEq, List.not_mem_nil, or_false] at hk
    omega
  have hq4 : q ≤ 4 := by
    simp only [List.mem_cons, Prod.mk.injEq, List.not_mem_nil, or_false] at hq
    omega
  have hs := f.syndrome.isLt
  have hb := bit_le f.further
  refine ⟨_, _, hwords, ?_⟩
  rw [field_ofNat _ (by omega), field_ofNat _ (by omega), field_ofNat _ (by omega), field_ofNat _ (by omega), extract_ofNat _ (by omega),
    getLsbD_ofNat32 _ (by omega)]
  exact ⟨by omega, by omega, by omega, by omega, ofNat_eq_of_toNat_mod (by omega), (decide_eq_decide.mpr (by omega)).trans (decide_bit f.further)⟩

end Sys2Proof.Machine

/-! ### The arbiter (R16) -/

namespace Sys2Proof.Machine

/-- The next grant is the first request of the least rank number that waits, which is the highest rank (R16). -/
theorem nextReq_eq_some {l : List PortReq} {r : PortReq} (h : nextReq l = some r) :
    ∃ before after, l = before ++ r :: after ∧ (∀ q ∈ before, r.rank < q.rank) ∧ ∀ q ∈ after, r.rank ≤ q.rank := by
  unfold nextReq at h
  cases hm : (l.map PortReq.rank).min? with
  | none => simp [hm] at h
  | some n =>
    rw [hm] at h
    have hmin := (List.min?_eq_some_iff.mp hm).2
    obtain ⟨hr, before, after, rfl, hb⟩ := List.find?_eq_some_iff_append.mp h
    have hrn : r.rank = n := by simpa using hr
    have hle (q : PortReq) (hq : q ∈ before ++ r :: after) : r.rank ≤ q.rank := hrn ▸ hmin q.rank (List.mem_map_of_mem hq)
    refine ⟨before, after, rfl, fun q hq => ?_, fun q hq => hle q (by simp [hq])⟩
    have hne : q.rank ≠ n := by simpa using hb q hq
    exact lt_of_le_of_ne (hle q (by simp [hq])) (hrn ▸ hne.symm)

theorem nextReq_ne_none {l : List PortReq} (h : l ≠ []) : nextReq l ≠ none := by
  unfold nextReq
  cases hm : (l.map PortReq.rank).min? with
  | none => simp [List.min?_eq_none_iff, h] at hm
  | some n =>
    obtain ⟨r, hr, hrn⟩ := List.mem_map.mp (List.min?_eq_some_iff.mp hm).1
    simp only [ne_eq, List.find?_eq_none, not_forall]
    exact ⟨r, hr, by simp [hrn]⟩

theorem quiet_iff_row (r : PortReq) : r.quiet = true ↔ r.row = none := by
  cases r with
  | anchor why => cases why <;> simp [PortReq.quiet, PortReq.row]
  | _ => simp [PortReq.quiet, PortReq.row]

theorem drainQuiet_rewrites {s : State} (h : s.integ.rewrites ≠ []) (n : Nat) : drainQuiet n s = s := by
  cases n with
  | zero => rfl
  | succ n => rw [drainQuiet, if_neg (by simpa using h)]

theorem drainQuiet_none {s : State} (h : nextReq s.port = none) (n : Nat) : drainQuiet n s = s := by
  cases n with
  | zero => rfl
  | succ n => simp [drainQuiet, h]

theorem drainQuiet_quiet {s : State} {r : PortReq} (hr : s.integ.rewrites = []) (h : nextReq s.port = some r) (hq : r.quiet = true) (n : Nat) :
    drainQuiet (n + 1) s = drainQuiet n (carryOut r { s with port := s.port.erase r }) := by
  simp [drainQuiet, hr, h, hq]

theorem portNext_row {s : State} {r : PortReq} {c : Instr} (hb : portBlocked s = false) (hw : s.integ.rewrites = [])
    (hn : nextReq (grantable s) = some r) (hc : r.row = some c) : portNext s = some (.inl c) := by simp [portNext, hb, hw, hn, hc]

theorem portNext_quiet {s : State} {r : PortReq} (hb : portBlocked s = false) (hw : s.integ.rewrites = [])
    (hn : nextReq (grantable s) = some r) (hc : r.row = none) : portNext s = some (.inr (carryOut r { s with port := s.port.erase r })) := by
  simp [portNext, hb, hw, hn, hc]

/-- With no page installed a status word but the response is discarded (R3; log 14). -/
theorem carryOut_unconfigured {s : State} (h : s.win.map = none) {b : BatchWord} {c : Counters} {up : Bool} {r : PortReq}
    (hr : r ∈ [PortReq.batchState b, .endState b, .counters c, .attention, .memFault, .protection, .light, .monitor up, .modules]) :
    writeOf s r = none ∧ carryOut r s = s := by
  have hw : writeOf s r = none := by
    simp only [List.mem_cons, List.not_mem_nil, or_false] at hr
    rcases hr with rfl | rfl | rfl | rfl | rfl | rfl | rfl | rfl | rfl <;> simp [writeOf, h]
  refine ⟨hw, ?_⟩
  rw [carryOut_reads hw]
  simp only [List.mem_cons, List.not_mem_nil, or_false] at hr
  rcases hr with rfl | rfl | rfl | rfl | rfl | rfl | rfl | rfl | rfl <;> rfl

end Sys2Proof.Machine

section
open Sys2Proof Sys2Proof.Machine

/-- Settles O54: the words' fields are those of the numbers they are written from, and the arbiter's choice is the first of the least rank number. -/
theorem arbiterGrantsByRankThenAge : Obligations.ArbiterGrantsByRankThenAge := by
  refine ⟨fun s r a ws => carryOut_writes, ?_, ?_, ?_, ?_, fun c h1 h2 h3 h4 h5 => Counters.words_fields h1 h2 h3 h4 h5, Attention.word_fields,
    fun f k q ha hk hq => MemFault.words_fields ha hk hq, ?_, ?_, ?_, ?_, ?_, ?_, ?_, ?_, ?_⟩
  · intro s m hm
    simp [writeOf, hm, offResponse, offBatchState, offCounters, offAttention, offMemFault, offProtection, offLight, offMonitor, offModules, bit]
  · intro s hm
    exact ⟨fun w => by simp [writeOf, hm, offResponse], fun b c up r hr => carryOut_unconfigured hm hr⟩
  · intro q k r n hr
    have hn : n = r.code := by
      simp only [List.mem_cons, Prod.mk.injEq, List.not_mem_nil, or_false] at hr
      rcases hr with ⟨rfl, rfl⟩ | ⟨rfl, rfl⟩ | ⟨rfl, rfl⟩ | ⟨rfl, rfl⟩ | ⟨rfl, rfl⟩ | ⟨rfl, rfl⟩ <;> rfl
    rw [hn]
    exact responseWord_fields q k r
  · intro b n hb
    have hn : n = b.st.code := by
      simp only [List.mem_cons, Prod.mk.injEq, List.not_mem_nil, or_false] at hb
      rcases hb with ⟨h, rfl⟩ | ⟨h, rfl⟩ | ⟨h, rfl⟩ | ⟨h, rfl⟩ | ⟨h, rfl⟩ | ⟨h, rfl⟩ | ⟨h, rfl⟩ | ⟨h, rfl⟩ | ⟨h, rfl⟩ | ⟨h, rfl⟩ | ⟨h, rfl⟩ |
        ⟨h, rfl⟩ | ⟨h, rfl⟩ <;> rw [h] <;> rfl
    rw [hn]
    exact b.word_fields
  · exact fun p => ⟨fun h => by simp [ProtRecord.word, h], ProtRecord.word_fields⟩
  · intro l c d n hl
    have hn : n = (l.get d).code := by
      simp only [List.mem_cons, Prod.mk.injEq, List.not_mem_nil, or_false] at hl
      rcases hl with ⟨h, rfl⟩ | ⟨h, rfl⟩ | ⟨h, rfl⟩ <;> rw [h] <;> rfl
    rw [hn]
    exact lightWord_fields l c d
  · intro m o n ho
    have hn : n = (m.get o).code := by
      simp only [List.mem_cons, Prod.mk.injEq, List.not_mem_nil, or_false] at ho
      rcases ho with ⟨h, rfl⟩ | ⟨h, rfl⟩ | ⟨h, rfl⟩ <;> rw [h] <;> rfl
    rw [hn]
    exact moduleWord_fields m o
  · exact fun r => ⟨by cases r <;> rfl, quiet_iff_row r⟩
  · exact fun n s => ⟨rfl, fun h => drainQuiet_rewrites h n, fun h => drainQuiet_none h n,
      fun r hr hn => ⟨fun hq => drainQuiet_quiet hr hn hq n, fun hq => drainQuiet_nextIs hn hq n⟩⟩
  · intro want s
    refine ⟨fun h => by simp [takeRow, h], ?_⟩
    intro h u
    refine ⟨?_, fun r hr hn => by simp [takeRow, h, u, hr, hn]⟩
    rintro (hr | hn)
    · simp [takeRow, h, u, hr]
    · simp [takeRow, h, u, hn]
  · intro s r hr ho hb hw hn
    exact ⟨fun h => by simp [idle, hr, ho, portNext_quiet hb hw hn h], fun c h => by simp [idle, hr, ho, portNext_row hb hw hn h, post]⟩
  · exact fun r => by cases r <;> rfl
  · exact fun l => ⟨nextReq_ne_none, fun r => nextReq_eq_some⟩

end

/-! ### The anchor record (R20, R21) -/

namespace Sys2Proof.Machine

theorem field_bit (w : Word) (i : Nat) : (field w i 1 == 1) = w.getLsbD i := by
  rw [BitVec.getLsbD, Nat.testBit_eq_decide_div_mod_eq, field]
  rfl

theorem ofNat_field (w : Word) (lo n : Nat) : BitVec.ofNat n (field w lo n) = w.extractLsb' lo n := by
  apply BitVec.eq_of_toNat_eq
  simp [field, BitVec.extractLsb'_toNat, Nat.shiftRight_eq_div_pow]

/-- The seven tests of an anchor record, by its words (R21). -/
def AnchorValid (a : Page) (w0 w1 w2 w3 w4 w5 : Word) : Prop :=
  w0 = 0x4C583234 ∧ field w1 0 8 = 1 ∧ [a, BitVec.ofNat 12 (field w2 16 12), BitVec.ofNat 12 (field w2 0 12), BitVec.ofNat 12 (field w3 16 12),
    BitVec.ofNat 12 (field w3 0 12)].Nodup ∧ field w4 0 3 ≤ 4 ∧ (∀ d : Degree, field w5 (8 * d.idx) 8 ≤ 250) ∧ 1 ≤ field w4 24 8

/-- The fields of an anchor record, by its words (R20); a stored budget of 0 is taken as 2. -/
def anchorFields (w2 w3 w4 w5 w6 : Word) : AnchorCfg :=
  { map := { staging := BitVec.ofNat 12 (field w2 16 12), active := BitVec.ofNat 12 (field w2 0 12), status := BitVec.ofNat 12 (field w3 16 12),
             save := BitVec.ofNat 12 (field w3 0 12) }
    budget := if field w4 0 3 = 0 then 2 else field w4 0 3
    fill := ⟨w4.getLsbD 8, w4.getLsbD 9, w4.getLsbD 10, w4.getLsbD 11⟩
    idler := ⟨field w5 0 8, field w5 8 8, field w5 16 8, field w5 24 8⟩
    autoRestore := w4.getLsbD 16, holdOff := field w4 24 8, enables := w6.extractLsb' 0 8, scrub := w4.getLsbD 17 }

theorem AnchorCfg.ofWords_valid {a : Page} {w0 w1 w2 w3 w4 w5 w6 : Word} (h : AnchorValid a w0 w1 w2 w3 w4 w5) :
    AnchorCfg.ofWords a [w0, w1, w2, w3, w4, w5, w6] = some (anchorFields w2 w3 w4 w5 w6) := by
  obtain ⟨h0, h1, h2, h3, h4, h5⟩ := h
  have hd := (degree_all _).mp h4
  simp only [AnchorCfg.ofWords, anchorFields, field_bit, ofNat_field w6]
  exact if_pos ⟨h0, h1, h2, h3, hd.1, hd.2.1, hd.2.2.1, hd.2.2.2, h5⟩

theorem AnchorCfg.ofWords_invalid {a : Page} {w0 w1 w2 w3 w4 w5 w6 : Word} (h : ¬ AnchorValid a w0 w1 w2 w3 w4 w5) :
    AnchorCfg.ofWords a [w0, w1, w2, w3, w4, w5, w6] = none := by
  simp only [AnchorCfg.ofWords]
  refine if_neg (fun hv => h ?_)
  obtain ⟨h0, h1, h2, h3, hd1, hd2, hd3, hd4, h5⟩ := hv
  exact ⟨h0, h1, h2, h3, (degree_all _).mpr ⟨hd1, hd2, hd3, hd4⟩, h5⟩

/-! ### What the anchor's read leaves (R29, R179, R182) -/

@[simp] theorem setEnables_enable (e : BitVec 8) (s : State) : (setEnables e s).attn.enable = e := by
  unfold setEnables
  split
  · assumption
  · simp only [requestAttention]; split <;> rfl

theorem setEnables_pending (e : BitVec 8) (s : State) : (setEnables e s).attn.pending = s.attn.pending := by
  unfold setEnables
  split
  · rfl
  · simp only [requestAttention]; split <;> rfl

/-- With a status page installed the six words are asked for, the attention word last and once (R29, R177; log 62). -/
theorem writeStatusWords_eq {s : State} (h : s.win.map.isSome = true) : writeStatusWords s =
    { s with port := (s.port ++ [PortReq.protection, .memFault, .light, .monitor s.mon.linkUp, .modules]).erase .attention ++ [.attention] } := by
  simp [writeStatusWords, requestAttention, requestStatus, request, h]

theorem mem_writeStatusWords {s : State} (h : s.win.map.isSome = true) :
    ∀ x ∈ [PortReq.protection, .memFault, .light, .monitor s.mon.linkUp, .modules, .attention], x ∈ (writeStatusWords s).port := by
  intro x hx
  rw [writeStatusWords_eq h]
  by_cases ha : x = .attention
  · simp [ha]
  · refine List.mem_append_left _ ((List.mem_erase_of_ne ha).mpr (List.mem_append_right _ ?_))
    simpa [ha] using hx

theorem writeStatusWords_keeps_request {s : State} {r : PortReq} (hr : r ∈ s.port) (hne : r ≠ .attention) : r ∈ (writeStatusWords s).port := by
  simp only [writeStatusWords, requestAttention]
  split
  · exact List.mem_append_left _ ((List.mem_erase_of_ne hne).mpr (by simp only [requestStatus_port]; repeat' split <;> simp [hr]))
  · simp only [requestStatus_port]; repeat' split <;> simp [hr]

theorem writeStatusWords_only_port (s : State) : writeStatusWords s = { s with port := (writeStatusWords s).port } := by
  simp only [writeStatusWords, requestAttention, requestStatus, request]
  repeat' split
  all_goals rfl

/-- An anchor's fields in effect: the window map, the fields and the enable set; beside those the scrubber and the arbiter's list alone change (R20). -/
theorem adoptCfg_eq (c : AnchorCfg) (s : State) : adoptCfg c s = { s with
    win := { s.win with map := some c.map, watch := none, cfg := some c }
    attn := { s.attn with enable := c.enables }
    integ := (adoptCfg c s).integ, port := (adoptCfg c s).port } := by
  have hset (t : State) : setEnables c.enables t = { t with attn := { t.attn with enable := c.enables }, port := (setEnables c.enables t).port } := by
    by_cases h : t.attn.enable = c.enables
    · rw [setEnables, if_pos h, ← h]
    · rw [setEnables, if_neg h]
      simp only [requestAttention, request]
      split <;> rfl
  rw [adoptCfg]
  rw [hset]
  split <;> rfl

/-- The installation of a valid anchor's map (R3, R29, R179). -/
theorem install_eq (c : AnchorCfg) (s : State) : install c s = { s with
    win := { s.win with map := some c.map, watch := none, cfg := some c }
    attn := { s.attn with enable := c.enables }
    start := { s.start with stage := .profiles }
    integ := (install c s).integ, port := (install c s).port } := by
  unfold install
  simp only [request]
  rw [writeStatusWords_only_port, adoptCfg_eq c s]

theorem adoptCfg_mapped (c : AnchorCfg) (s : State) : (adoptCfg c s).win.map.isSome = true := by rw [adoptCfg_eq]; rfl

theorem adoptCfg_mon (c : AnchorCfg) (s : State) : (adoptCfg c s).mon = s.mon := by rw [adoptCfg_eq]

theorem mem_install (c : AnchorCfg) (s : State) : PortReq.rbProf 0 ∈ (install c s).port ∧
    ∀ x ∈ [PortReq.protection, .memFault, .light, .monitor s.mon.linkUp, .modules, .attention], x ∈ (install c s).port := by
  refine ⟨by simp [install], fun x hx => ?_⟩
  rw [← adoptCfg_mon c s] at hx
  exact List.mem_append_left _ (mem_writeStatusWords (adoptCfg_mapped c s) x hx)

/-- The word address of the batch word, which stays watched where the map is dropped (R3). -/
def watchKept (s : State) : Option Nat :=
  match s.win.map with
  | some m => some (pageAddr m.status 0)
  | none => s.win.watch

/-- What is left where an anchor is not valid: UNCONFIGURED, the four roles absent, the enable set empty, the batch word's address kept (R3, R182). -/
theorem enterUnconfigured_fields (s : State) :
    (enterUnconfigured s).seqr.st = .unconfigured ∧ (enterUnconfigured s).seqr.reread = .none ∧
    (enterUnconfigured s).win = { s.win with map := none, watch := watchKept s } ∧
    (enterUnconfigured s).attn.enable = 0 ∧ (enterUnconfigured s).attn.pending = s.attn.pending ∧ (enterUnconfigured s).start.stage = .none ∧
    (enterUnconfigured s).light.restoreList = [] ∧ (enterUnconfigured s).table = s.table ∧
    (s.seqr.rereadDue = true → (enterUnconfigured s).seqr.anchorRead = true) := by
  have hstart (t : State) : (startAnchorRead t).seqr.st = t.seqr.st ∧ (startAnchorRead t).seqr.reread = t.seqr.reread ∧
      (startAnchorRead t).win = t.win ∧ (startAnchorRead t).attn = t.attn ∧ (startAnchorRead t).start = t.start ∧
      (startAnchorRead t).light = t.light ∧ (startAnchorRead t).table = t.table ∧ (startAnchorRead t).seqr.anchorRead = true := by
    unfold startAnchorRead
    split <;> simp_all [requestAnchor]
  cases hd : s.seqr.rereadDue <;> cases hm : s.win.map <;>
    simp [enterUnconfigured, watchKept, hstart, setEnables_pending, hd, hm]

end Sys2Proof.Machine

/-! ### Rebuild's anchor read and profile reads (R20, R21, R179) -/

namespace Sys2Proof.Machine

/-- The first burst of an anchor read, with no word in error, keeps its four words (R17). -/
theorem carryOut_anchorHead_clean {s : State} (h : CleanBurst (s.start.anchorSeen.getD s.mem) (pageAddr s.win.anchorPage 0) 4) :
    carryOut .anchorHead s = { s with start := { s.start with
      readPart := (burstWords (s.start.anchorSeen.getD s.mem) (pageAddr s.win.anchorPage 0) 4).map (fun w => (w, false)) } } := by
  rw [carryOut_reads rfl]
  simp only [readQuiet, readPart, anchorMem, readBurstOf_clean _ _ h, if_true]

theorem readWordOf_corrected {m : Memory} {a : Nat} {i : Fin 39} (q : MemFaultReq) (s : State) (h : m.syndrome a ≠ 0)
    (hi : Config.syndromeBit (m.syndrome a) = some i) :
    let v := if i.val < 32 then m.word a ^^^ ((1 : Word) <<< i.val) else m.word a
    readWordOf m q a s = (if s.mem.sameAt m a then addRewrite a v (reportFault .corrected q a (m.syndrome a) s)
      else reportFault .corrected q a (m.syndrome a) s, v, false) := by
  simp only [readWordOf, check_corrected h hi]

theorem readAnchor_uncorrectable {s : State} (h : ∃ i, i < 3 ∧ ((anchorMem s).check (pageAddr s.win.anchorPage 16 + 4 * i)).1 = .uncorrectable) :
    (readAnchor s).2 = none := by
  obtain ⟨i, hi, hu⟩ := h
  simp only [readAnchor, readBurstOf_gives, List.any_append, List.any_map]
  rw [if_pos]
  simp only [Bool.or_eq_true, List.any_eq_true, List.mem_range, Function.comp_apply, decide_eq_true_eq]
  exact .inr ⟨i, hi, hu⟩

theorem exec_rebuildAnchorRead {s : State} (ha : Awake s) (hn : NextIs s (.anchor .rebuild)) :
    exec .rebuildAnchorRead s = settled (rebuildAnchor (granted s (.anchor .rebuild))) := by
  simp only [exec, execRebuildAnchorRead]
  rw [rowEvent_nextIs ha hn rfl rfl]

/-- An anchor read that ends: the words kept and the memory a re-read is made of go (R9, R17). -/
def anchorTaken (s : State) : State := { s with start := { s.start with readPart := [], anchorSeen := none } }

theorem readAnchor_eq {s : State} (h : CleanBurst (s.start.anchorSeen.getD s.mem) (pageAddr s.win.anchorPage 16) 3) :
    readAnchor s = (anchorTaken s, anchorOf (s.start.anchorSeen.getD s.mem) s) := readAnchor_clean h

theorem rebuildAnchor_some {s t : State} {c : AnchorCfg} (h : readAnchor s = (t, some c)) : rebuildAnchor s = install c t := by simp only [rebuildAnchor, h]

theorem rebuildAnchor_none {s : State} (h : (readAnchor s).2 = none) : rebuildAnchor s = enterUnconfigured (readAnchor s).1 := by
  have hp : readAnchor s = ((readAnchor s).1, none) := Prod.ext rfl h
  unfold rebuildAnchor
  rw [hp]

theorem readBurst_profile (q : MemFaultReq) (a : Nat) (s : State) :
    let x (i : Nat) : ReadCheck × Word := s.mem.check (a + 4 * i)
    (readBurst q a 4 s).2 = [((x 0).2, decide ((x 0).1 = .uncorrectable)), ((x 1).2, decide ((x 1).1 = .uncorrectable)),
      ((x 2).2, decide ((x 2).1 = .uncorrectable)), ((x 3).2, decide ((x 3).1 = .uncorrectable))] := by
  simp only [readBurst_gives, List.range_succ_eq_map, List.range_zero, List.map_cons, List.map_nil]

theorem profileOf_readable {a b c d : Word} : profileOf [(a, false), (b, false), (c, false), (d, false)] = Profile.ofWords a b c d := by
  simp [profileOf]

theorem profileOf_bad {a b c d : Word} {w x y z : Bool} (h : (w || x || y || z) = true) :
    (profileOf [(a, w), (b, x), (c, y), (d, z)]).valid = false := by
  simp only [profileOf, h, if_true]

theorem exists_lt_four {p : Nat → Prop} : (∃ i, i < 4 ∧ p i) ↔ p 0 ∨ p 1 ∨ p 2 ∨ p 3 := by
  constructor
  · rintro ⟨i, hi, h⟩
    match i, hi with
    | 0, _ => exact .inl h
    | 1, _ => exact .inr (.inl h)
    | 2, _ => exact .inr (.inr (.inl h))
    | 3, _ => exact .inr (.inr (.inr h))
  · rintro (h | h | h | h)
    exacts [⟨0, by omega, h⟩, ⟨1, by omega, h⟩, ⟨2, by omega, h⟩, ⟨3, by omega, h⟩]

theorem profileOf_burst_valid {q : MemFaultReq} {a : Nat} {s : State} (h : ∀ i, i < 4 → (s.mem.check (a + 4 * i)).1 ≠ .uncorrectable) :
    profileOf (readBurst q a 4 s).2 = Profile.ofWords (s.mem.check (a + 4 * 0)).2 (s.mem.check (a + 4 * 1)).2 (s.mem.check (a + 4 * 2)).2
      (s.mem.check (a + 4 * 3)).2 := by
  have h' (i : Nat) (hi : i < 4) : decide ((s.mem.check (a + 4 * i)).1 = .uncorrectable) = false := decide_eq_false (h i hi)
  rw [readBurst_profile]
  simp only [h' 0 (by omega), h' 1 (by omega), h' 2 (by omega), h' 3 (by omega), profileOf_readable]

theorem profileOf_burst_invalid {q : MemFaultReq} {a : Nat} {s : State} (h : ∃ i, i < 4 ∧ (s.mem.check (a + 4 * i)).1 = .uncorrectable) :
    (profileOf (readBurst q a 4 s).2).valid = false := by
  rw [exists_lt_four] at h
  rw [readBurst_profile]
  exact profileOf_bad (by simpa [or_assoc] using h)

theorem cacheProfile_eq {s : State} {m : WindowMap} (q : MemFaultReq) (k : Fin 8) (hm : s.win.map = some m) :
    cacheProfile q k s = { (readBurst q (pageAddr m.status (offProfile k.val)) 4 s).1 with
      profiles := s.profiles.set k (profileOf (readBurst q (pageAddr m.status (offProfile k.val)) 4 s).2) } := by
  simp only [cacheProfile, hm, readBurst_leaves]

theorem exec_rebuildProfileRead {s : State} {k : Fin 8} (ha : Awake s) (hn : NextIs s (.rbProf k)) :
    exec .rebuildProfileRead s = settled (rebuildProfile k (granted s (.rbProf k))) := by
  simp only [exec, execRebuildProfileRead]
  rw [rowEvent_nextIs ha hn rfl rfl]

theorem rebuildProfile_leaves (k : Fin 8) (s : State) : (rebuildProfile k s).profiles = (cacheProfile .rebuild k s).profiles ∧
    (rebuildProfile k s).mem = (cacheProfile .rebuild k s).mem ∧ (rebuildProfile k s).integ = (cacheProfile .rebuild k s).integ := by
  unfold rebuildProfile
  dsimp only
  split <;> exact ⟨rfl, rfl, rfl⟩

/-- A valid anchor read by rebuild is installed, and profile 0 is read next (R3, R29, R179). -/
theorem rebuildAnchorRead_valid {s : State} {c : AnchorCfg} (ha : Awake s) (hn : NextIs s (.anchor .rebuild))
    (hc : CleanBurst (s.start.anchorSeen.getD s.mem) (pageAddr s.win.anchorPage 16) 3) (hr : anchorOf (s.start.anchorSeen.getD s.mem) s = some c) :
    exec .rebuildAnchorRead s = settled (install c (anchorTaken (granted s (.anchor .rebuild)))) := by
  rw [exec_rebuildAnchorRead ha hn, rebuildAnchor_some ((readAnchor_eq (s := granted s (.anchor .rebuild)) hc).trans (Prod.ext rfl hr))]

/-- An anchor read by rebuild that is not valid, or has an uncorrectable word, leaves the part UNCONFIGURED (R182). -/
theorem rebuildAnchorRead_invalid {s : State} (ha : Awake s) (hn : NextIs s (.anchor .rebuild))
    (hr : (readAnchor (granted s (.anchor .rebuild))).2 = none) :
    exec .rebuildAnchorRead s = settled (enterUnconfigured (readAnchor (granted s (.anchor .rebuild))).1) := by
  rw [exec_rebuildAnchorRead ha hn, rebuildAnchor_none hr]

theorem burstWords_four (m : Memory) (a : Nat) : burstWords m a 4 = [m.word a, m.word (a + 4), m.word (a + 8), m.word (a + 12)] := rfl

theorem profileOf_burstWords (m : Memory) (a : Nat) : profileOf ((burstWords m a 4).map (fun w => (w, false))) =
    Profile.ofWords (m.word a) (m.word (a + 4)) (m.word (a + 8)) (m.word (a + 12)) := by
  simp only [burstWords_four, List.map_cons, List.map_nil, profileOf_readable]

/-- A profile read of rebuild with no word in error fills the cache and changes nothing else (R179). -/
theorem cacheProfile_clean {s : State} {m : WindowMap} {k : Fin 8} (q : MemFaultReq) (hm : s.win.map = some m)
    (h : CleanBurst s.mem (pageAddr m.status (offProfile k.val)) 4) :
    let a := pageAddr m.status (offProfile k.val)
    cacheProfile q k s = { s with
      profiles := s.profiles.set k (Profile.ofWords (s.mem.word a) (s.mem.word (a + 4)) (s.mem.word (a + 8)) (s.mem.word (a + 12))) } := by
  intro a
  have hb : readBurst q a 4 s = (s, (burstWords s.mem a 4).map (fun w => (w, false))) := readBurstOf_clean q s h
  rw [cacheProfile_eq q k hm, show pageAddr m.status (offProfile k.val) = a from rfl, hb, profileOf_burstWords]

/-- Settles O56, burst by burst: what the reads give, what the anchor's fields are, and what a valid and an invalid anchor leave. -/
theorem rebuildReadsTheAnchorAndProfiles : Obligations.RebuildReadsTheAnchorAndProfiles := by
  refine ⟨fun s => by simp [State.cfgOk, Option.isSome_iff_exists], fun s => carryOut_anchorHead_clean, ?_, ?_, ?_, ?_, ?_, ?_⟩
  · intro m s a i hy hi
    refine ⟨fun hw hs => ?_, fun hne => ?_⟩
    · rw [readWordOf_corrected _ s hy hi, if_pos (by simp [Memory.sameAt, hw, hs])]
    · rw [readWordOf_corrected _ s hy hi, if_neg (by simpa [Memory.sameAt, or_iff_not_imp_left] using hne)]
  · intro s ha hn m hc r
    refine ⟨fun c hr => ⟨_, rebuildAnchorRead_valid ha hn hc hr, ?_⟩, fun hr => ?_⟩
    · obtain ⟨hprof, hstatus⟩ := mem_install c (anchorTaken (granted s (.anchor .rebuild)))
      refine ⟨?_, ?_, ?_, hprof, ?_, ?_, hstatus⟩ <;> rw [install_eq] <;> rfl
    · have hread := readAnchor_eq (s := granted s (.anchor .rebuild)) hc
      have he := rebuildAnchorRead_invalid ha hn ((congrArg Prod.snd hread).trans hr)
      rw [hread] at he
      obtain ⟨hst, _, hwin, hen, hpend, hstage, hlist, _, hdue⟩ := enterUnconfigured_fields (anchorTaken (granted s (.anchor .rebuild)))
      exact ⟨_, he, hdue, hst, congrArg _ hwin, hen, hpend, hstage, hlist⟩
  · intro s ha hn hu
    obtain ⟨hst, _, hwin, hen, _, hstage, _⟩ := enterUnconfigured_fields (readAnchor (granted s (.anchor .rebuild))).1
    exact ⟨_, rebuildAnchorRead_invalid ha hn (readAnchor_uncorrectable hu), hst, congrArg _ hwin, hen, hstage⟩
  · intro a w0 w1 w2 w3 w4 w5 w6 page valid
    refine ⟨fun h => AnchorCfg.ofWords_invalid h, fun h => ⟨_, AnchorCfg.ofWords_valid h, rfl, rfl, fun d => ?_, rfl, rfl, rfl, rfl⟩⟩
    cases d <;> exact ⟨rfl, rfl⟩
  · intro s m k ha hm hn x
    obtain ⟨hp, hmem, hinteg⟩ := rebuildProfile_leaves k (granted s (.rbProf k))
    have hcache := cacheProfile_eq (s := granted s (.rbProf k)) .rebuild k hm
    refine ⟨_, exec_rebuildProfileRead ha hn, fun j hj => ?_, ?_, fun hx => ?_, fun hx => ⟨?_, fun hk => ?_⟩⟩
    · rw [hp, hcache]
      exact Vector.getElem_set_ne k.isLt j.isLt (by omega)
    · rw [hmem, hcache]
      simp [granted, fresh]
    · rw [hp, hcache]
      exact (Vector.getElem_set_self k.isLt).trans (profileOf_burst_valid hx)
    · rw [hp, hcache]
      exact (congrArg Profile.valid (Vector.getElem_set_self k.isLt)).trans (profileOf_burst_invalid hx)
    · rw [hinteg, hcache]
      have hx' : ∃ i, i < 4 ∧ (s.mem.check (pageAddr m.status (offProfile k.val) + 4 * i)).1 ≠ .correct := by
        obtain ⟨i, hi, hu⟩ := hx
        exact ⟨i, hi, fun hcorr => by simp [x, hcorr] at hu⟩
      exact (readBurst_record .rebuild 4 (pageAddr m.status (offProfile k.val)) (granted s (.rbProf k)) hk hx').symm
  · intro s m k ha hm hn a hc profiles
    have he := exec_rebuildProfileRead ha hn
    rw [rebuildProfile, cacheProfile_clean (s := granted s (.rbProf k)) .rebuild hm hc] at he
    refine ⟨fun hk => ?_, fun hk => ?_⟩
    · rw [he]; simp only [if_pos hk]; rfl
    · rw [he]; simp only [if_neg (show ¬ k.val < 7 by omega)]; rfl

end Sys2Proof.Machine

/-! ### Rebuild's reads of active records and of the save page (R30, R138, R179) -/

namespace Sys2Proof.Machine

theorem exec_rebuildActiveRead {s : State} {r : RecNo} (ha : Awake s) (hn : NextIs s (.rbActive r)) :
    exec .rebuildActiveRead s = settled (rebuildActive r (granted s (.rbActive r))) := by
  simp only [exec, execRebuildActiveRead]
  rw [rowEvent_nextIs ha hn rfl rfl]

theorem exec_rebuildSaveRead_header {s : State} (ha : Awake s) (hn : NextIs s .rbHeader) :
    exec .rebuildSaveRead s = settled (rebuildHeader (granted s .rbHeader)) := by
  simp only [exec, execRebuildSaveRead]
  rw [rowEvent_nextIs ha hn rfl rfl]

theorem exec_rebuildSaveRead_slot {s : State} {k : Nat} (ha : Awake s) (hn : NextIs s (.rbSlot k)) :
    exec .rebuildSaveRead s = settled (rebuildSlot k (granted s (.rbSlot k))) := by
  simp only [exec, execRebuildSaveRead]
  rw [rowEvent_nextIs ha hn rfl rfl]

theorem exec_rebuildSaveRead_tail {s : State} {k : Nat} (ha : Awake s) (hn : NextIs s (.rbTail k)) :
    exec .rebuildSaveRead s = settled (rebuildTail k (granted s (.rbTail k))) := by
  simp only [exec, execRebuildSaveRead]
  rw [rowEvent_nextIs ha hn rfl rfl]

/-- What an active record gives rebuild, noted: the path it yields, or its record's completed state (R179). -/
def noteActive (r : RecNo) : Yield ⊕ Completed → State → State
  | .inl y, s => { s with start := { s.start with yields := s.start.yields ++ [y] } }
  | .inr c, s => setCompleted r c s

theorem rebuildActive_clean {s : State} {m : WindowMap} {r : RecNo} (hm : s.win.map = some m)
    (h : CleanBurst s.mem (pageAddr m.active (offRecord r)) 4) :
    let u := noteActive r (judgeActive r ((burstWords s.mem (pageAddr m.active (offRecord r)) 4).map (fun w => (w, false)))) s
    rebuildActive r s = if r.val < 255 then request (.rbActive (r + 1)) u
      else request .rbHeader { u with start := { u.start with stage := .save, save := { header := none, limit := 0, slots := [], ended := false } } } := by
  simp only [rebuildActive, hm, readBurst, readBurstOf_clean _ _ h]
  cases judgeActive r ((burstWords s.mem (pageAddr m.active (offRecord r)) 4).map (fun w => (w, false))) <;> rfl

/-! #### How an active record is judged (R179) -/

theorem judgeActive_bad {r : RecNo} {a b c d : Word} {w x y z : Bool} (h : (w || x || y || z) = true) :
    judgeActive r [(a, w), (b, x), (c, y), (d, z)] = .inr .lost := by
  simp only [judgeActive, h, if_true]

theorem judgeActive_empty {r : RecNo} {a b c d : Word} (h : field d 24 8 = 0) :
    judgeActive r [(a, false), (b, false), (c, false), (d, false)] = .inr .empty := by
  simp [judgeActive, h]

theorem doneStateOf_eq_some {n : Nat} {st : DoneState} :
    doneStateOf n = some st ↔ (n, st) ∈ [(1, DoneState.live), (2, .offTarget), (3, .squelched), (4, .discrepant)] := by
  unfold doneStateOf
  constructor
  · intro h; split_ifs at h <;> simp_all
  · intro h
    simp only [List.mem_cons, Prod.mk.injEq, List.not_mem_nil, or_false] at h
    rcases h with ⟨rfl, rfl⟩ | ⟨rfl, rfl⟩ | ⟨rfl, rfl⟩ | ⟨rfl, rfl⟩ <;> rfl

theorem doneStateOf_zero : doneStateOf 0 = none := rfl

theorem doneStateOf_large {n : Nat} (h : 4 < n) : doneStateOf n = none := by
  simp only [doneStateOf, show n ≠ 1 by omega, show n ≠ 2 by omega, show n ≠ 3 by omega, show n ≠ 4 by omega, if_false]

/-- A record in one of the four states whose fields are a CONNECTION yields its path, or is LOST with a loopback (R179, R33). -/
theorem judgeActive_conn {r : RecNo} {a b c d : Word} {st : DoneState} {f : HostFields} (hst : doneStateOf (field d 24 8) = some st)
    (hf : Staged.ofWords ⟨a, b, c⟩ = some (.conn f)) :
    judgeActive r [(a, false), (b, false), (c, false), (d, false)] =
      if loopback f then .inr .lost else .inl { no := r, st := st, host := f, att := (attOfCode (field d 16 8)).getD .block } := by
  have h0 : field d 24 8 ≠ 0 := fun h => by rw [h] at hst; cases hst
  simp [judgeActive, h0, hst, hf]

theorem judgeActive_unknown {r : RecNo} {a b c d : Word} (h : 4 < field d 24 8) :
    judgeActive r [(a, false), (b, false), (c, false), (d, false)] = .inr .lost := by
  have h0 : field d 24 8 ≠ 0 := by omega
  simp [judgeActive, h0, doneStateOf_large h]

theorem judgeActive_noConn {r : RecNo} {a b c d : Word} (h0 : field d 24 8 ≠ 0) (h : ∀ f, Staged.ofWords ⟨a, b, c⟩ ≠ some (.conn f)) :
    judgeActive r [(a, false), (b, false), (c, false), (d, false)] = .inr .lost := by
  simp only [judgeActive, Bool.or_false, Bool.false_eq_true, if_false, if_neg h0]
  split
  · next hf => exact absurd hf (h _)
  · rfl

/-! #### The save page's slots (R30, R31, R179) -/

theorem carryOut_rbSlotPart_clean {s : State} {m : WindowMap} {k b : Nat} (hm : s.win.map = some m)
    (h : CleanBurst s.mem (pageAddr m.save (offSlot k + 16 * b)) 4) :
    carryOut (.rbSlotPart k b) s = { s with start := { s.start with readPart := (if b = 0 then [] else s.start.readPart) ++
      (burstWords s.mem (pageAddr m.save (offSlot k + 16 * b)) 4).map (fun w => (w, false)) } } := by
  rw [carryOut_reads rfl]
  simp only [readQuiet, hm, readPart, readBurstOf_clean _ _ h]
  by_cases hb : b = 0 <;> simp [hb]

theorem requestSlotRead_eq (k : Nat) (s : State) :
    requestSlotRead k s = { s with port := s.port ++ [.rbSlotPart k 0, .rbSlotPart k 1, .rbSlotPart k 2, .rbSlot k] } := by
  simp [requestSlotRead, request]

/-- Requests joined one after another (R16). -/
theorem foldl_request {α : Type} (f : α → PortReq) (l : List α) (s : State) :
    l.foldl (fun s i => request (f i) s) s = { s with port := s.port ++ l.map f } := by
  induction l generalizing s with
  | nil => simp
  | cons a l ih => rw [List.foldl_cons, ih, List.map_cons, List.append_cons]; rfl

/-- The words of a slot read with no word in error stand as they were read. -/
theorem modify_resume_clean {l : List (Word × Bool)} (h : ∀ x ∈ l, x.2 = false) :
    (l.map (·.1)).modify 11 (fun w => if (l.getD 11 (0, false)).2 then 0 else w) = l.map (·.1) := by
  have hg : (l.getD 11 (0, false)).2 = false := by
    by_cases h11 : 11 < l.length
    · rw [List.getD_eq_getElem _ _ h11]; exact h _ (List.getElem_mem h11)
    · rw [List.getD_eq_default _ _ (by omega)]
  simp only [hg, Bool.false_eq_true, if_false]
  exact List.modify_id _ _

/-- The count of the save slots after one more (R30, R179). -/
def scanNext (v : SaveScan) (bad : Bool) (ws : List Word) : SaveScan :=
  if v.ended || bad || field (ws.headD 0) 0 2 ≠ 1 then { v with ended := true } else { v with slots := (v.slots ++ [ws]).take 4 }

theorem scanNext_counted {v : SaveScan} {ws : List Word} (he : v.ended = false) (h1 : field (ws.headD 0) 0 2 = 1) :
    scanNext v false ws = { v with slots := (v.slots ++ [ws]).take 4 } := by
  rw [scanNext, he, h1]; rfl

theorem scanNext_ended {v : SaveScan} {bad : Bool} {ws : List Word} (h : v.ended = true ∨ bad = true ∨ field (ws.headD 0) 0 2 ≠ 1) :
    scanNext v bad ws = { v with ended := true } := by
  rw [scanNext, if_pos (by rcases h with h | h | h <;> simp only [h, Bool.true_or, Bool.or_true, ne_eq, not_false_eq_true, decide_true])]

/-- The read of a slot ends: the next slot of the range is read, or the count is over (R179). -/
def slotRead (k : Nat) (v : SaveScan) (s : State) : State :=
  let s := { s with start := { s.start with save := v, readPart := [] } }
  if k < v.limit then requestSlotRead (k + 1) s else saveCounted s

theorem rebuildSlot_clean {s : State} {m : WindowMap} {k : Nat} (hm : s.win.map = some m)
    (h : CleanBurst s.mem (pageAddr m.save (offSlot k + 48)) 4) :
    let ws := s.start.readPart ++ (burstWords s.mem (pageAddr m.save (offSlot k + 48)) 4).map (fun w => (w, false))
    rebuildSlot k s = slotRead k (scanNext s.start.save (((ws.take 11) ++ ws.drop 12).any (·.2))
      ((ws.map (·.1)).modify 11 (fun w => if (ws.getD 11 (0, false)).2 then 0 else w))) s := by
  simp only [rebuildSlot, hm, readBurst, readBurstOf_clean _ _ h, slotRead, scanNext]
  rfl

theorem rebuildSlot_allClean {s : State} {m : WindowMap} {k : Nat} (hm : s.win.map = some m)
    (h : CleanBurst s.mem (pageAddr m.save (offSlot k + 48)) 4) (hp : ∀ x ∈ s.start.readPart, x.2 = false) :
    rebuildSlot k s = slotRead k (scanNext s.start.save false
      (s.start.readPart.map (·.1) ++ burstWords s.mem (pageAddr m.save (offSlot k + 48)) 4)) s := by
  rw [rebuildSlot_clean hm h]
  generalize burstWords s.mem (pageAddr m.save (offSlot k + 48)) 4 = tail
  have hclean : ∀ x ∈ s.start.readPart ++ tail.map (fun w => (w, false)), x.2 = false := by
    intro x hx
    rcases List.mem_append.mp hx with hx | hx
    · exact hp x hx
    · obtain ⟨w, _, rfl⟩ := List.mem_map.mp hx; rfl
  have hnone : ((s.start.readPart ++ tail.map (fun w => (w, false))).take 11 ++ (s.start.readPart ++ tail.map (fun w => (w, false))).drop 12).any (·.2)
      = false := by
    rw [List.any_eq_false]
    intro x hx
    rcases List.mem_append.mp hx with hx | hx
    · simp [hclean x (List.mem_of_mem_take hx)]
    · simp [hclean x (List.mem_of_mem_drop hx)]
  rw [modify_resume_clean hclean, hnone]
  simp [Function.comp_def]

theorem rebuildSlot_uncorrectable {s : State} {m : WindowMap} {k : Nat} (hm : s.win.map = some m)
    (h : CleanBurst s.mem (pageAddr m.save (offSlot k + 48)) 4) (hp : ∃ x ∈ s.start.readPart.take 11, x.2 = true) :
    rebuildSlot k s = slotRead k { s.start.save with ended := true } s := by
  rw [rebuildSlot_clean hm h, scanNext_ended]
  obtain ⟨x, hx, hbad⟩ := hp
  refine .inr (.inl (List.any_eq_true.mpr ⟨x, List.mem_append_left _ ?_, hbad⟩))
  rw [List.take_append]
  exact List.mem_append_left _ hx

/-- The header as rebuild takes it, and the slots read behind it (R179). -/
def headerTaken (ok : Bool) (h : Nat) (s : State) : State :=
  let s := { s with start := { s.start with
    save := { header := if ok then some h else none, limit := if ok then h else 4, slots := [], ended := false } } }
  if ok && h = 0 then saveCounted s else requestSlotRead 1 s

theorem headerTaken_limit {h : Nat} (s : State) (h0 : h ≠ 0) : headerTaken true h s = { s with
    port := s.port ++ [.rbSlotPart 1 0, .rbSlotPart 1 1, .rbSlotPart 1 2, .rbSlot 1]
    start := { s.start with save := { header := some h, limit := h, slots := [], ended := false } } } := by
  simp only [headerTaken, h0, decide_false, Bool.and_false, Bool.false_eq_true, if_false, if_true, requestSlotRead_eq]

theorem headerTaken_unreadable (h : Nat) (s : State) : headerTaken false h s = { s with
    port := s.port ++ [.rbSlotPart 1 0, .rbSlotPart 1 1, .rbSlotPart 1 2, .rbSlot 1]
    start := { s.start with save := { header := none, limit := 4, slots := [], ended := false } } } := by
  simp only [headerTaken, Bool.false_and, Bool.false_eq_true, if_false, requestSlotRead_eq]

theorem headerTaken_zero (s : State) : headerTaken true 0 s = saveCounted { s with
    start := { s.start with save := { header := some 0, limit := 0, slots := [], ended := false } } } := by
  simp only [headerTaken, decide_true, Bool.and_true, if_true]

theorem rebuildHeader_eq {s : State} {m : WindowMap} (hm : s.win.map = some m) {t : State} {w : Word} {bad : Bool}
    (hr : readWord .rebuild (pageAddr m.save offHeader) s = (t, w, bad)) :
    rebuildHeader s = headerTaken (!bad && decide (field w 0 3 ≤ 4)) (field w 0 3) t := by
  simp only [rebuildHeader, hm, hr, headerTaken]

theorem rebuildTail_eq {s : State} {m : WindowMap} {k : Nat} (hm : s.win.map = some m) {t : State} {w : Word} {bad : Bool}
    (hr : readWord .rebuild (pageAddr m.save (offSlot k)) s = (t, w, bad)) :
    rebuildTail k s = nextTail (k + 1) (if bad || field w 0 2 = 1 then request (.slotWord0 k (withRecordState w 2)) t else t) := by
  simp only [rebuildTail, hm, hr]

theorem nextTail_succ (k : Nat) (s : State) : nextTail (k + 1) s = if k < 4 then { s with port := s.port ++ [.rbTail (k + 1)] } else startReadback s := rfl

/-- The count's end: the depth, the images with the rebuilt flag set, and the rewrites of word 0 and of the header (R179). -/
theorem saveCounted_eq (s : State) :
    let v := s.start.save
    let d := v.slots.length
    let images := v.slots.map (fun ws => ws.modify 0 (fun w => setBits w (2 ^ 9)))
    saveCounted s = nextTail (d + 1) { s with
      intr := { s.intr with depth := d, header := d, images := images }
      port := s.port ++ (List.range d).map (fun i => PortReq.slotWord0 (i + 1) ((images.getD i []).headD 0)) ++
        (if v.header = some d then [] else [.saveHeader d]) } := by
  simp only [saveCounted, foldl_request, setWord]
  by_cases h : s.start.save.header = some s.start.save.slots.length
  · simp only [if_pos h, List.append_nil]
  · simp only [if_neg h, request]

/-! #### The readback of rebuild (R138) -/

/-- The READ of all 64 slots of a module that rebuild hands over (R138). -/
def readbackCmd (o : OutPoint) : ActCmd := { module := o, kind := .read, start := 0, count := 64, vals := [], built := true, req := .readback }

/-- Commands taken into the ordinary class behind those that stand there (R133). -/
def withOrdinary (l : List ActCmd) (s : State) : State := { s with act := { s.act with ordinary := s.act.ordinary ++ l } }

theorem withOrdinary_nil (s : State) : withOrdinary [] s = s := by simp [withOrdinary]

theorem withOrdinary_cons (c : ActCmd) (l : List ActCmd) (s : State) : withOrdinary l (withOrdinary [c] s) = withOrdinary (c :: l) s := by
  simp [withOrdinary]

theorem handOrdinary_readback {s : State} (o : OutPoint) (hl : s.act.ordinary.length < 24) (hw : s.act.wait = []) :
    (handOrdinary (readbackCmd o) s).getD s = withOrdinary [readbackCmd o] s := by
  rw [handOrdinary, if_neg (by simp [readbackCmd]), if_pos (by simp [hl, hw])]
  rfl

theorem foldl_handOrdinary_readback (l : List OutPoint) {s : State} (hl : s.act.ordinary.length + l.length ≤ 24) (hw : s.act.wait = []) :
    l.foldl (fun s o => (handOrdinary (readbackCmd o) s).getD s) s = withOrdinary (l.map readbackCmd) s := by
  induction l generalizing s with
  | nil => exact (withOrdinary_nil s).symm
  | cons o l ih =>
    rw [List.length_cons] at hl
    have hlen : (withOrdinary [readbackCmd o] s).act.ordinary.length + l.length ≤ 24 := by simp [withOrdinary]; omega
    rw [List.foldl_cons, handOrdinary_readback o (by omega) hw, ih hlen hw, List.map_cons, withOrdinary_cons]

end Sys2Proof.Machine

/-! ### Rebuild's rows (R179) -/

namespace Sys2Proof.Machine

/-- The last record's read leads on to the save header (R179). -/
theorem rebuildActiveRead_last {s : State} {m : WindowMap} {r : RecNo} (ha : Awake s) (hm : s.win.map = some m) (hn : NextIs s (.rbActive r))
    (hr : r.val = 255) (hc : CleanBurst s.mem (pageAddr m.active (offRecord r)) 4) :
    let u := noteActive r (judgeActive r ((burstWords s.mem (pageAddr m.active (offRecord r)) 4).map (fun w => (w, false)))) (granted s (.rbActive r))
    exec .rebuildActiveRead s = settled (request .rbHeader
      { u with start := { u.start with stage := .save, save := { header := none, limit := 0, slots := [], ended := false } } }) := by
  exact (exec_rebuildActiveRead ha hn).trans
    (congrArg settled ((rebuildActive_clean (s := granted s (.rbActive r)) hm hc).trans (if_neg (by omega))))

theorem rebuildActiveRead_next {s : State} {m : WindowMap} {r : RecNo} (ha : Awake s) (hm : s.win.map = some m) (hn : NextIs s (.rbActive r))
    (hr : r.val < 255) (hc : CleanBurst s.mem (pageAddr m.active (offRecord r)) 4) :
    let u := noteActive r (judgeActive r ((burstWords s.mem (pageAddr m.active (offRecord r)) 4).map (fun w => (w, false)))) (granted s (.rbActive r))
    exec .rebuildActiveRead s = settled (request (.rbActive (r + 1)) u) := by
  exact (exec_rebuildActiveRead ha hn).trans
    (congrArg settled ((rebuildActive_clean (s := granted s (.rbActive r)) hm hc).trans (if_pos hr)))

/-- The header's read with no word in error (R179). -/
theorem rebuildHeaderRead_clean {s : State} {m : WindowMap} (ha : Awake s) (hm : s.win.map = some m) (hn : NextIs s .rbHeader)
    (hy : s.mem.syndrome (pageAddr m.save offHeader) = 0) :
    let h := field (s.mem.word (pageAddr m.save offHeader)) 0 3
    exec .rebuildSaveRead s = settled (headerTaken (decide (h ≤ 4)) h (granted s .rbHeader)) := by
  intro h
  rw [exec_rebuildSaveRead_header ha hn, rebuildHeader_eq (s := granted s .rbHeader) hm (readWord_clean (s := granted s .rbHeader) .rebuild hy)]
  rfl

theorem rebuildHeaderRead_uncorrectable {s : State} {m : WindowMap} (ha : Awake s) (hm : s.win.map = some m) (hn : NextIs s .rbHeader)
    (hy : s.mem.syndrome (pageAddr m.save offHeader) ≠ 0) (hu : Config.syndromeBit (s.mem.syndrome (pageAddr m.save offHeader)) = none) :
    exec .rebuildSaveRead s = settled (headerTaken false (field (s.mem.word (pageAddr m.save offHeader)) 0 3)
      (reportFault .uncorrectable .rebuild (pageAddr m.save offHeader) (s.mem.syndrome (pageAddr m.save offHeader)) (granted s .rbHeader))) := by
  rw [exec_rebuildSaveRead_header ha hn, rebuildHeader_eq (s := granted s .rbHeader) hm (readWord_uncorrectable (s := granted s .rbHeader) .rebuild hy hu)]
  rfl

theorem rebuildTailRead_clean {s : State} {m : WindowMap} {k : Nat} (ha : Awake s) (hm : s.win.map = some m) (hn : NextIs s (.rbTail k))
    (hy : s.mem.syndrome (pageAddr m.save (offSlot k)) = 0) :
    let w := s.mem.word (pageAddr m.save (offSlot k))
    exec .rebuildSaveRead s = settled (nextTail (k + 1) (if field w 0 2 = 1 then request (.slotWord0 k (withRecordState w 2)) (granted s (.rbTail k))
      else granted s (.rbTail k))) := by
  intro w
  rw [exec_rebuildSaveRead_tail ha hn, rebuildTail_eq (s := granted s (.rbTail k)) hm (readWord_clean (s := granted s (.rbTail k)) .rebuild hy)]
  simp only [Bool.false_or, decide_eq_true_eq]
  rfl

theorem rebuildTailRead_uncorrectable {s : State} {m : WindowMap} {k : Nat} (ha : Awake s) (hm : s.win.map = some m) (hn : NextIs s (.rbTail k))
    (hy : s.mem.syndrome (pageAddr m.save (offSlot k)) ≠ 0) (hu : Config.syndromeBit (s.mem.syndrome (pageAddr m.save (offSlot k))) = none) :
    let w := s.mem.word (pageAddr m.save (offSlot k))
    exec .rebuildSaveRead s = settled (nextTail (k + 1) (request (.slotWord0 k (withRecordState w 2))
      (reportFault .uncorrectable .rebuild (pageAddr m.save (offSlot k)) (s.mem.syndrome (pageAddr m.save (offSlot k))) (granted s (.rbTail k))))) := by
  intro w
  rw [exec_rebuildSaveRead_tail ha hn, rebuildTail_eq (s := granted s (.rbTail k)) hm (readWord_uncorrectable (s := granted s (.rbTail k)) .rebuild hy hu)]
  simp only [Bool.true_or, if_true]
  rfl

/-- The in-flight items of slot 1 that rebuild carries over, eight at most (R180; log 83). -/
def readbackItems (s : State) : List InFlight :=
  let slot1 := s.intr.images.getD 0 []
  let n := if field (slot1.getD 2 0) 13 1 = 1 then min 8 (field (slot1.getD 2 0) 16 4) else 0
  ((slot1.drop 3).take n).map InFlight.ofWord

/-- The stage at which the modules are read back (R138, R180). -/
def readbackBegun (s : State) : State :=
  { s with start := { s.start with stage := .readback, readback := .const .unread, newHalves := readbackItems s } }

theorem startReadback_eq (s : State) :
    startReadback s = OutPoint.all.foldl (fun s o => (handOrdinary (readbackCmd o) s).getD s) (readbackBegun s) := by
  simp only [startReadback, readbackCmd, readbackBegun, readbackItems]

theorem startReadback_fields {s : State} (hl : s.act.ordinary.length ≤ 18) (hw : s.act.wait = []) :
    (startReadback s).start.stage = .readback ∧ (∀ o, (startReadback s).start.readback.get o = .unread) ∧
    (startReadback s).act = { s.act with ordinary := s.act.ordinary ++ OutPoint.all.map readbackCmd } := by
  rw [startReadback_eq, foldl_handOrdinary_readback (s := readbackBegun s) OutPoint.all (Nat.add_le_add_right hl 6) hw]
  refine ⟨rfl, fun o => ?_, rfl⟩
  cases o with
  | deg d => cases d <;> rfl
  | grp g => cases g <;> rfl

/-- Settles O57, row by row of rebuild's memory stages. -/
theorem rebuildReadsRecordsAndSlots : Obligations.RebuildReadsRecordsAndSlots := by
  refine ⟨?_, ?_, ?_, ?_, ?_, ?_, ?_, ?_, ?_⟩
  · intro s m r ha hm hn hr a hc t j
    have he := rebuildActiveRead_next ha hm hn hr hc
    exact ⟨fun y hy => he.trans (by rw [show judgeActive r _ = _ from hy]; rfl), fun c hj => he.trans (by rw [show judgeActive r _ = _ from hj]; rfl)⟩
  · intro s m r ha hm hn hr a hc v t j
    have he := rebuildActiveRead_last ha hm hn hr hc
    exact ⟨fun y hy => he.trans (by rw [show judgeActive r _ = _ from hy]; rfl), fun c hj => he.trans (by rw [show judgeActive r _ = _ from hj]; rfl)⟩
  · intro r a b c d w x y z
    refine ⟨fun h => judgeActive_bad (by simpa [or_assoc] using h), ?_⟩
    rintro rfl rfl rfl rfl
    refine ⟨judgeActive_empty, fun st f hst hf => ?_, judgeActive_unknown, judgeActive_noConn⟩
    have hj := judgeActive_conn (r := r) (doneStateOf_eq_some.mpr hst) hf
    exact ⟨fun h => by rw [hj, if_pos h], fun h => by rw [hj, if_neg (by simp [h])]⟩
  · intro s m k b hm a l hc
    exact carryOut_rbSlotPart_clean hm hc
  · intro s m k ha hm hn a hc ws u next
    have he := exec_rebuildSaveRead_slot ha hn
    have hnext (v : SaveScan) (hv : v.limit = s.start.save.limit) : slotRead k v (granted s (.rbSlot k)) = next v := by
      simp only [slotRead, hv, next, requestSlotRead_eq, u]
      rfl
    refine ⟨fun hp => ⟨fun hend hw => ?_, fun hw => ?_⟩, fun hp => ?_⟩
    · have hread : rebuildSlot k (granted s (.rbSlot k)) = slotRead k (scanNext s.start.save false ws) (granted s (.rbSlot k)) :=
        rebuildSlot_allClean (s := granted s (.rbSlot k)) hm hc hp
      rw [scanNext_counted hend hw] at hread
      exact he.trans (congrArg settled (hread.trans (hnext _ rfl)))
    · have hread : rebuildSlot k (granted s (.rbSlot k)) = slotRead k (scanNext s.start.save false ws) (granted s (.rbSlot k)) :=
        rebuildSlot_allClean (s := granted s (.rbSlot k)) hm hc hp
      rw [scanNext_ended (hw.imp_right .inr)] at hread
      exact he.trans (congrArg settled (hread.trans (hnext _ rfl)))
    · exact he.trans (congrArg settled ((rebuildSlot_uncorrectable (s := granted s (.rbSlot k)) hm hc hp).trans (hnext _ rfl)))
  · intro s m ha hm hn a h y slot1 scan
    refine ⟨fun hy h0 h4 => ?_, fun hy h4 => ?_, fun hy h0 => ?_, ?_⟩
    · have he : exec .rebuildSaveRead s = settled (headerTaken (decide (h ≤ 4)) h (granted s .rbHeader)) := rebuildHeaderRead_clean ha hm hn hy
      rw [he, decide_eq_true h4, headerTaken_limit _ (by omega)]
      rfl
    · have he : exec .rebuildSaveRead s = settled (headerTaken (decide (h ≤ 4)) h (granted s .rbHeader)) := rebuildHeaderRead_clean ha hm hn hy
      rw [he, decide_eq_false (by omega), headerTaken_unreadable]
      rfl
    · have he : exec .rebuildSaveRead s = settled (headerTaken (decide (h ≤ 4)) h (granted s .rbHeader)) := rebuildHeaderRead_clean ha hm hn hy
      rw [he, h0, decide_eq_true (by omega), headerTaken_zero]
      rfl
    · intro hy hu g
      have he : exec .rebuildSaveRead s = settled (headerTaken false h g) := rebuildHeaderRead_uncorrectable ha hm hn hy hu
      have hg : g.start = s.start := by simp only [g, reportFault_leaves]; rfl
      rw [he, headerTaken_unreadable, hg]
  · intro s v d images t
    have he := (saveCounted_eq s).trans (nextTail_succ _ _)
    exact ⟨fun hd => he.trans (if_pos hd), fun hd => he.trans (if_neg (Nat.not_lt.mpr hd))⟩
  · intro s m k ha hm hn a w y next
    refine ⟨fun hy => ?_, ?_⟩
    · rw [rebuildTailRead_clean ha hm hn hy, nextTail_succ]
      refine congrArg settled ?_
      change next (if field w 0 2 = 1 then _ else _) = _
      by_cases hw : field w 0 2 = 1
      · rw [if_pos hw, if_pos hw]
        rfl
      · rw [if_neg hw, if_neg hw, List.append_nil]
        rfl
    · intro hy hu g
      rw [rebuildTailRead_uncorrectable ha hm hn hy hu, nextTail_succ]
      rfl
  · intro s hl hw
    have hread := startReadback_fields hl hw
    generalize startReadback s = u at hread ⊢
    exact hread

end Sys2Proof.Machine

/-! ### The re-read: the fill commands and the completed states (R40, R41, R53, R133, R184) -/

namespace Sys2Proof.Machine

/-! #### The commands of a change of fill (R184; log 34) -/

/-- The commands of `l` handed over, in this order and behind those already handed: nothing but the two lists changes (R133). -/
def Handed (l : List ActCmd) (s t : State) : Prop :=
  t = { s with act := { s.act with ordinary := t.act.ordinary, wait := t.act.wait } } ∧
  t.act.ordinary ++ t.act.wait = s.act.ordinary ++ s.act.wait ++ l

theorem Handed.refl (s : State) : Handed [] s s := ⟨rfl, by simp⟩

theorem Handed.trans {l l' : List ActCmd} {s t u : State} (h : Handed l s t) (h' : Handed l' t u) : Handed (l ++ l') s u := by
  obtain ⟨ht, hl⟩ := h
  obtain ⟨hu, hl'⟩ := h'
  refine ⟨?_, by rw [hl', hl, List.append_assoc]⟩
  rw [hu, ht]

/-- A command of the Start-up Controller that its module does not refuse is handed over (R133). -/
theorem handOrdinary_fillChange {s : State} {x : ActCmd} (hx : x.req = .fillChange) (ho : (isFaulted s x.module && x.kind ≠ .read) = false) :
    Handed [x] s ((handOrdinary x s).getD s) := by
  rw [handOrdinary, if_neg (by rw [ho]; decide)]
  split
  · next hp =>
    have hw : s.act.wait = [] := by simp at hp; exact hp.2
    simp [queueOrdinary, onQueued, hx, Handed, hw]
  · simp [hx, Handed]

theorem handOrdinary_refused {s : State} {x : ActCmd} (ho : (isFaulted s x.module && x.kind ≠ .read) = true) : (handOrdinary x s).getD s = s := by
  rw [handOrdinary, if_pos ho]
  rfl

/-- What a degree's change asks its module for: a ROUTE where the fill's flag changed, an ATTEN where its idler attenuation alone did. -/
def fillKind (old new : AnchorCfg) (d : Degree) : Option FrameKind :=
  if old.fill.get d ≠ new.fill.get d then some .route
  else if old.idler.get d ≠ new.idler.get d then some .atten else none

/-- A slot that holds the fill: it has no owner, or one whose path is at the fill (R40). -/
abbrev HoldsFill (s : State) (d : Degree) (n : Slot) : Prop := ∀ p, s.table.ownerOf (.deg d) n = some p → p.route = .fill

/-- The command over the slots `lo` to `hi` of a degree. -/
def fillCmd (d : Degree) (k : FrameKind) (lo hi : Nat) : ActCmd :=
  { module := .deg d, kind := k, start := lo, count := hi - lo + 1, vals := [], built := false, req := .fillChange }

/-- What a degree's change hands over. -/
def fillCmds (old new : AnchorCfg) (s : State) (d : Degree) : List ActCmd :=
  match fillKind old new d, (fillSlots s d).min?, (fillSlots s d).max? with
  | some k, some lo, some hi => if isFaulted s (.deg d) then [] else [fillCmd d k lo hi]
  | _, _, _ => []

theorem fillKind_ne_read {old new : AnchorCfg} {d : Degree} {k : FrameKind} (h : fillKind old new d = some k) : k ≠ .read := by
  unfold fillKind at h
  split_ifs at h <;> cases h <;> simp

theorem fillChange_handed (old new : AnchorCfg) (s : State) (d : Degree) : Handed (fillCmds old new s d) s (fillChange old new s d) := by
  have he : fillChange old new s d = match fillKind old new d, (fillSlots s d).min?, (fillSlots s d).max? with
      | some k, some lo, some hi => (handOrdinary (fillCmd d k lo hi) s).getD s
      | _, _, _ => s := by
    rfl
  rw [he, fillCmds]
  cases hk : fillKind old new d with
  | none => exact .refl s
  | some k =>
    cases (fillSlots s d).min? with
    | none => exact .refl s
    | some lo =>
      cases (fillSlots s d).max? with
      | none => exact .refl s
      | some hi =>
        have hr := fillKind_ne_read hk
        by_cases hf : isFaulted s (.deg d) = true
        · simp only [if_pos hf]
          rw [handOrdinary_refused (by simp [fillCmd, hf, hr])]
          exact .refl s
        · simp only [if_neg hf]
          exact handOrdinary_fillChange rfl (by simp [fillCmd, hf])

theorem fillCmds_handed {old new : AnchorCfg} {s t : State} {l : List ActCmd} (h : Handed l s t) (d : Degree) : fillCmds old new t d = fillCmds old new s d := by
  rw [h.1]; rfl

theorem foldl_fillChange (old new : AnchorCfg) (l : List Degree) (s : State) :
    Handed (l.flatMap (fillCmds old new s)) s (l.foldl (fillChange old new) s) := by
  induction l generalizing s with
  | nil => exact .refl s
  | cons d l ih =>
    have hd := fillChange_handed old new s d
    have hl := ih (fillChange old new s d)
    simp only [List.flatMap_cons, List.foldl_cons]
    rw [show fillCmds old new (fillChange old new s d) = fillCmds old new s from funext (fillCmds_handed hd)] at hl
    exact hd.trans hl

theorem fillCmds_module (old new : AnchorCfg) (s : State) (d : Degree) : ((fillCmds old new s d).map (·.module)).Sublist [.deg d] := by
  unfold fillCmds
  split
  · split
    · exact List.nil_sublist _
    · exact List.Sublist.refl _
  · exact List.nil_sublist _

theorem flatMap_fillCmds_module (old new : AnchorCfg) (s : State) (l : List Degree) :
    ((l.flatMap (fillCmds old new s)).map (·.module)).Sublist (l.map OutPoint.deg) := by
  induction l with
  | nil => exact List.nil_sublist _
  | cons d l ih =>
    rw [List.flatMap_cons, List.map_append, List.map_cons]
    exact (fillCmds_module old new s d).append ih

theorem mem_fillSlots {s : State} {d : Degree} {n : Nat} : n ∈ fillSlots s d ↔ ∃ k : Slot, HoldsFill s d k ∧ k.val = n := by
  simp only [fillSlots, allSlots, List.mem_map, List.mem_filter, List.mem_finRange, true_and]
  refine exists_congr fun k => and_congr_left fun _ => ?_
  cases h : s.table.ownerOf (.deg d) k with
  | none => simp [HoldsFill, h]
  | some p => cases hp : p.route <;> simp [HoldsFill, h, hp]

/-- The command runs from the lowest to the highest slot that holds the fill. -/
theorem mem_fillCmds {old new : AnchorCfg} {s : State} {d : Degree} {k : FrameKind} {lo hi : Slot} (hk : fillKind old new d = some k)
    (hm : isFaulted s (.deg d) = false) (hlo : HoldsFill s d lo) (hhi : HoldsFill s d hi) (hall : ∀ n, HoldsFill s d n → lo ≤ n ∧ n ≤ hi) :
    fillCmd d k lo.val hi.val ∈ fillCmds old new s d := by
  have hmin : (fillSlots s d).min? = some lo.val := by
    refine List.min?_eq_some_iff.mpr ⟨mem_fillSlots.mpr ⟨lo, hlo, rfl⟩, fun b hb => ?_⟩
    obtain ⟨n, hn, rfl⟩ := mem_fillSlots.mp hb
    exact (hall n hn).1
  have hmax : (fillSlots s d).max? = some hi.val := by
    refine List.max?_eq_some_iff.mpr ⟨mem_fillSlots.mpr ⟨hi, hhi, rfl⟩, fun b hb => ?_⟩
    obtain ⟨n, hn, rfl⟩ := mem_fillSlots.mp hb
    exact (hall n hn).2
  simp [fillCmds, hk, hmin, hmax, hm]

/-! #### The completed states fixed anew (R41, R53; log 29) -/

theorem doneGet_doneSet_other {n r : RecNo} (h : n ≠ r) (c : Completed) (l : List (RecNo × Completed)) : doneGet n (doneSet r c l) = doneGet n l := by
  induction l with
  | nil =>
    rw [doneSet]
    split
    · rfl
    · simp [doneGet, h.symm]
  | cons x l ih =>
    obtain ⟨a, b⟩ := x
    rw [doneSet]
    split
    · split
      · rfl
      · simp [doneGet, h.symm]
    · split
      · next hr =>
        split <;> simp [doneGet, ← hr, h.symm]
      · rw [doneGet, doneGet, ih]

/-- Completed states fixed and active records made due, and nothing else changed: a rising list stays rising, and a request that waits stays (R15, R24). -/
structure Dues (s t : State) : Prop where
  only : t = { s with table := { s.table with done := t.table.done }, holds := t.holds, port := t.port }
  rising : (s.table.done.map (·.1)).Pairwise (· < ·) → (t.table.done.map (·.1)).Pairwise (· < ·)
  port : ∀ x ∈ s.port, x ∈ t.port

theorem Dues.refl (s : State) : Dues s s := ⟨rfl, id, fun _ h => h⟩

theorem Dues.trans {s t u : State} (h : Dues s t) (h' : Dues t u) : Dues s u := by
  refine ⟨?_, h'.rising ∘ h.rising, fun x hx => h'.port x (h.port x hx)⟩
  rw [h'.only, h.only]

theorem setCompleted_dues (r : RecNo) (c : Completed) (s : State) : Dues s (setCompleted r c s) := ⟨rfl, doneSet_rising r c, fun _ h => h⟩

theorem activeDue_dues (r : RecNo) (s : State) : Dues s (activeDue r s) := by
  rw [activeDue_eq]
  refine ⟨rfl, doneSet_rising r _, fun x hx => ?_⟩
  dsimp only
  split
  · exact hx
  · exact List.mem_append_left _ hx

theorem activeDue_mem (r : RecNo) (s : State) : PortReq.active r ∈ (activeDue r s).port := by
  rw [activeDue_eq]
  dsimp only
  split
  · assumption
  · simp

theorem completed_activeDue_other {n r : RecNo} (h : n ≠ r) (s : State) : (activeDue r s).completed n = s.completed n := by
  rw [activeDue_eq]
  exact doneGet_doneSet_other h _ _

theorem fixCompleted_dues (r : RecNo) (c : Completed) (s : State) : Dues s (fixCompleted r c s) :=
  (setCompleted_dues r c s).trans (activeDue_dues r _)

theorem completed_fixCompleted_other {n r : RecNo} (h : n ≠ r) (c : Completed) (s : State) : (fixCompleted r c s).completed n = s.completed n :=
  (completed_activeDue_other h _).trans (doneGet_doneSet_other h c _)

/-- A record's completed state fixed as a path shows its measured power at that moment (R24, R47). -/
theorem completed_fixCompleted_path (r : RecNo) (x : DonePath) (s : State) :
    (fixCompleted r (.path x) s).completed r = .path { x with measured := powerAverage s (Res.ofDst x.host.dst) x.host.slot } := by
  rw [fixCompleted, activeDue_eq, completed_setCompleted r (by simp)]
  exact doneGet_doneSet r (by simp [Completed.measure]) _

theorem completed_fixCompleted_empty (r : RecNo) {s : State} (h : (s.table.done.map (·.1)).Pairwise (· < ·)) :
    (fixCompleted r .empty s).completed r = .empty := by
  have he : (setCompleted r .empty s).completed r = .empty := doneGet_doneSet_empty r h
  rw [fixCompleted, activeDue_eq, he]
  exact doneGet_doneSet_empty r (doneSet_rising r _ h)

/-- A record is fixed anew as one of its paths in a completed state shows, or its write is asked for with its completed state as it stands (log 29). -/
theorem refix_cases (s : State) (r : RecNo) : refix s r = activeDue r s ∨ ∃ c, refix s r = fixCompleted r c s := by
  unfold refix
  split
  · exact .inr ⟨_, rfl⟩
  · split
    · split
      · exact .inr ⟨_, rfl⟩
      · exact .inl rfl
    · exact .inl rfl

theorem refix_dues (s : State) (r : RecNo) : Dues s (refix s r) := by
  rcases refix_cases s r with h | ⟨c, h⟩ <;> rw [h]
  · exact activeDue_dues r s
  · exact fixCompleted_dues r c s

theorem refix_mem (s : State) (r : RecNo) : PortReq.active r ∈ (refix s r).port := by
  rcases refix_cases s r with h | ⟨c, h⟩ <;> rw [h]
  · exact activeDue_mem r s
  · exact activeDue_mem r _

theorem completed_refix_other {n r : RecNo} (h : n ≠ r) (s : State) : (refix s r).completed n = s.completed n := by
  rcases refix_cases s r with hr | ⟨c, hr⟩ <;> rw [hr]
  · exact completed_activeDue_other h s
  · exact completed_fixCompleted_other h c s

theorem refix_noPath {s : State} {r : RecNo} (h : s.table.recordPaths r = []) : refix s r = fixCompleted r .empty s := by
  simp only [refix, h]

theorem refix_onePath {s : State} {r : RecNo} {p : Path} {d : DoneState} (h : s.table.recordPaths r = [p]) (hd : p.st.done = some d) :
    refix s r = fixCompleted r (p.completed s.win.cfg d) s := by
  simp [refix, h, hd]

theorem foldl_refix_dues (l : List RecNo) (s : State) : Dues s (l.foldl refix s) := by
  induction l generalizing s with
  | nil => exact .refl s
  | cons r l ih => exact (refix_dues s r).trans (ih _)

theorem completed_foldl_refix_other {n : RecNo} {l : List RecNo} (h : n ∉ l) (s : State) : (l.foldl refix s).completed n = s.completed n := by
  induction l generalizing s with
  | nil => rfl
  | cons r l ih =>
    obtain ⟨hr, hl⟩ := List.ne_and_not_mem_of_not_mem_cons h
    rw [List.foldl_cons, ih hl, completed_refix_other hr]

/-- Each record's part in the pass over all of them: it is fixed at its turn, and no later turn changes it. -/
theorem foldl_refix_at (n : RecNo) (s : State) : ∃ u, Dues s u ∧ (allRecords.foldl refix s).completed n = (refix u n).completed n ∧
    PortReq.active n ∈ (allRecords.foldl refix s).port := by
  obtain ⟨before, after, hl⟩ := List.mem_iff_append.mp (List.mem_finRange n)
  have hn : n ∉ after := by
    have hnd : (before ++ n :: after).Nodup := hl ▸ List.nodup_finRange 256
    exact (List.nodup_cons.mp (List.nodup_append.mp hnd).2.1).1
  have hfold : allRecords.foldl refix s = after.foldl refix (refix (before.foldl refix s) n) := by
    rw [allRecords, hl, List.foldl_append, List.foldl_cons]
  refine ⟨before.foldl refix s, foldl_refix_dues before s, ?_, ?_⟩
  · rw [hfold, completed_foldl_refix_other hn]
  · rw [hfold]
    exact (foldl_refix_dues after _).port _ (refix_mem _ n)

end Sys2Proof.Machine

/-! ### The anchor reads of UNCONFIGURED and of a re-read (R9, R182, R184) -/

namespace Sys2Proof.Machine

/-! #### The re-read applied, step by step (R184) -/

/-- The commands of every degree whose fill changed, where an anchor stood before (R184). -/
def changeFills (old : Option AnchorCfg) (new : AnchorCfg) (s : State) : State :=
  match old with
  | some o => Degree.all.foldl (fillChange o new) s
  | none => s

/-- The commands that `changeFills` hands over. -/
def changeFillsCmds (old : Option AnchorCfg) (new : AnchorCfg) (s : State) : List ActCmd :=
  match old with
  | some o => Degree.all.flatMap (fillCmds o new s)
  | none => []

theorem changeFills_handed (old : Option AnchorCfg) (new : AnchorCfg) (s : State) : Handed (changeFillsCmds old new s) s (changeFills old new s) := by
  cases old with
  | none => exact .refl s
  | some o => exact foldl_fillChange o new Degree.all s

theorem changeFillsCmds_module (old : Option AnchorCfg) (new : AnchorCfg) (s : State) :
    ((changeFillsCmds old new s).map (·.module)).Sublist [.deg .d1, .deg .d2, .deg .d3, .deg .d4] := by
  cases old with
  | none => exact List.nil_sublist _
  | some o => exact flatMap_fillCmds_module o new s Degree.all

/-- The words of a status page that moved which no other write renews: the response, the batch state and the counters (R184; log 62). -/
def renewStatus (moved : Bool) (s : State) : State :=
  if moved then
    requestStatus (.counters s.batch.counters) (requestStatus (.batchState s.seqr.shown) (request (.response s.seqr.lastResp) s))
  else s

theorem renewStatus_only_port (moved : Bool) (s : State) : renewStatus moved s = { s with port := (renewStatus moved s).port } := by
  unfold renewStatus requestStatus request
  repeat' split
  all_goals rfl

theorem renewStatus_keeps_request {moved : Bool} {s : State} {r : PortReq} (h : r ∈ s.port) : r ∈ (renewStatus moved s).port := by
  unfold renewStatus requestStatus request
  repeat' split
  all_goals simp [h]

/-- The sixteen words of a save slot written zero, in four bursts (R17, R30). -/
def zeroSlot (s : State) (k : Nat) : State := requestSlot k (List.replicate 16 0) (fun b => .slotBurst k 3 b) s

theorem zeroSlot_eq (s : State) (k : Nat) : zeroSlot s k = { s with
    port := s.port ++ (List.range 4).map (fun b => PortReq.slotBurst k b [0, 0, 0, 0]) } := by
  simp [zeroSlot, requestSlot, request, List.range_succ_eq_map]

/-- A save page that moved is written empty (R30, R184). -/
def renewSave (moved : Bool) (s : State) : State :=
  if moved then
    let s := [1, 2, 3, 4].foldl (fun s k => zeroSlot s k) s
    request (.saveHeader 0) { s with intr := { s.intr with header := 0, images := [] } }
  else s

/-- The requests that write a moved save page empty. -/
def zeroSave : List PortReq :=
  [1, 2, 3, 4].flatMap (fun k => (List.range 4).map (fun b => PortReq.slotBurst k b [0, 0, 0, 0])) ++ [.saveHeader 0]

theorem renewSave_moved (s : State) : renewSave true s = { s with
    port := s.port ++ zeroSave, intr := { s.intr with header := 0, images := [] } } := by
  simp [renewSave, zeroSlot_eq, request, zeroSave]

theorem renewSave_only (moved : Bool) (s : State) : renewSave moved s = { s with port := (renewSave moved s).port, intr := (renewSave moved s).intr } := by
  cases moved
  · rfl
  · rw [renewSave_moved]

theorem renewSave_keeps_request {moved : Bool} {s : State} {r : PortReq} (h : r ∈ s.port) : r ∈ (renewSave moved s).port := by
  cases moved
  · exact h
  · rw [renewSave_moved]; exact List.mem_append_left _ h

theorem mem_zeroSave {k b : Nat} (hk : k ∈ [1, 2, 3, 4]) (hb : b < 4) : PortReq.slotBurst k b [0, 0, 0, 0] ∈ zeroSave :=
  List.mem_append_left _ (List.mem_flatMap.mpr ⟨k, hk, List.mem_map.mpr ⟨b, List.mem_range.mpr hb, rfl⟩⟩)

/-- What follows the records in a re-read: the status words, the pages that moved, and the comparison (R57, R184). -/
def rereadEnds (statusMoved saveMoved : Bool) (s : State) : State :=
  let s := renewSave saveMoved (renewStatus statusMoved (writeStatusWords s))
  request (.compare 0) { s with touched := [], seqr := { s.seqr with reread := .compare } }

/-- The re-read's changes in their order: the anchor's fields, the fill commands, the records, and the rest (R184). -/
theorem applyReread_eq (c : AnchorCfg) (s : State) : ∃ statusMoved saveMoved : Bool,
    (∀ m, s.win.map = some m → m.save ≠ c.map.save → saveMoved = true) ∧
    applyReread c s = rereadEnds statusMoved saveMoved (allRecords.foldl refix (changeFills s.win.cfg c (adoptCfg c s))) := by
  cases hm : s.win.map with
  | none =>
    refine ⟨true, true, by simp, ?_⟩
    cases hc : s.win.cfg <;> simp only [applyReread, hm, hc, rereadEnds, renewSave, renewStatus, zeroSlot, changeFills, if_true]
  | some m =>
    refine ⟨decide (m.status ≠ c.map.status), decide (m.save ≠ c.map.save), fun m' h => by cases h; exact decide_eq_true, ?_⟩
    cases hc : s.win.cfg <;> simp only [applyReread, hm, hc, rereadEnds, renewSave, renewStatus, zeroSlot, changeFills]

theorem rereadEnds_only (statusMoved saveMoved : Bool) (s : State) : rereadEnds statusMoved saveMoved s =
    { s with port := (rereadEnds statusMoved saveMoved s).port, intr := (rereadEnds statusMoved saveMoved s).intr, touched := []
             seqr := { s.seqr with reread := .compare } } := by
  simp only [rereadEnds, request]
  rw [renewSave_only, renewStatus_only_port, writeStatusWords_only_port]

theorem rereadEnds_keeps_request {statusMoved saveMoved : Bool} {s : State} {r : PortReq} (h : r ∈ (writeStatusWords s).port) :
    r ∈ (rereadEnds statusMoved saveMoved s).port :=
  List.mem_append_left _ (renewSave_keeps_request (renewStatus_keeps_request h))

theorem mem_rereadEnds_compare (statusMoved saveMoved : Bool) (s : State) : PortReq.compare 0 ∈ (rereadEnds statusMoved saveMoved s).port :=
  List.mem_append_right _ (List.mem_singleton_self _)

theorem rereadEnds_saveMoved (statusMoved : Bool) (s : State) :
    (rereadEnds statusMoved true s).intr.images = [] ∧ ∀ x ∈ zeroSave, x ∈ (rereadEnds statusMoved true s).port := by
  simp only [rereadEnds, renewSave_moved, request]
  exact ⟨trivial, fun x hx => List.mem_append_left _ (List.mem_append_right _ hx)⟩

end Sys2Proof.Machine

/-! ### The rows of the anchor reads of UNCONFIGURED and of a re-read -/

namespace Sys2Proof.Machine

/-! #### What a re-read with a valid anchor leaves (R184) -/

/-- The state with the anchor's fields in effect and the fill commands handed over. -/
def rereadFilled (c : AnchorCfg) (s : State) : State := changeFills s.win.cfg c (adoptCfg c s)

/-- The state with every record fixed anew behind those. -/
def rereadFixed (c : AnchorCfg) (s : State) : State := allRecords.foldl refix (rereadFilled c s)

theorem applyReread_ends (c : AnchorCfg) (s : State) : ∃ statusMoved saveMoved : Bool,
    (∀ m, s.win.map = some m → m.save ≠ c.map.save → saveMoved = true) ∧
    applyReread c s = rereadEnds statusMoved saveMoved (rereadFixed c s) := applyReread_eq c s

theorem rereadFilled_handed (c : AnchorCfg) (s : State) :
    Handed (changeFillsCmds s.win.cfg c (adoptCfg c s)) (adoptCfg c s) (rereadFilled c s) := changeFills_handed ..

theorem rereadFixed_dues (c : AnchorCfg) (s : State) : Dues (rereadFilled c s) (rereadFixed c s) := foldl_refix_dues ..

/-- What the steps of a re-read leave of the state, but the two lists of commands, the completed states and the requests (R20, R184). -/
theorem rereadFilled_fields (c : AnchorCfg) (s : State) :
    (rereadFilled c s).win = { s.win with map := some c.map, watch := none, cfg := some c } ∧ (rereadFilled c s).attn.enable = c.enables ∧
    (rereadFilled c s).mon = s.mon ∧ (rereadFilled c s).table = s.table ∧ (rereadFilled c s).power = s.power := by
  rw [(rereadFilled_handed c s).1, adoptCfg_eq]
  exact ⟨rfl, rfl, rfl, rfl, rfl⟩

theorem rereadFixed_fields (c : AnchorCfg) (s : State) :
    (rereadFixed c s).win = { s.win with map := some c.map, watch := none, cfg := some c } ∧ (rereadFixed c s).attn.enable = c.enables ∧
    (rereadFixed c s).mon = s.mon ∧ (rereadFixed c s).act = (rereadFilled c s).act := by
  obtain ⟨hwin, hen, hmon, _, _⟩ := rereadFilled_fields c s
  rw [(rereadFixed_dues c s).only]
  exact ⟨hwin, hen, hmon, rfl⟩

theorem applyReread_fields (c : AnchorCfg) (s : State) :
    (applyReread c s).win = { s.win with map := some c.map, watch := none, cfg := some c } ∧ (applyReread c s).touched = [] ∧
    (applyReread c s).seqr.reread = .compare ∧ (applyReread c s).attn.enable = c.enables ∧ PortReq.compare 0 ∈ (applyReread c s).port ∧
    (applyReread c s).act = (rereadFilled c s).act ∧ (applyReread c s).table = (rereadFixed c s).table := by
  obtain ⟨statusMoved, saveMoved, _, he⟩ := applyReread_ends c s
  obtain ⟨hwin, hen, _, hact⟩ := rereadFixed_fields c s
  have hcompare := mem_rereadEnds_compare statusMoved saveMoved (rereadFixed c s)
  rw [← he] at hcompare
  have ht := he.trans (rereadEnds_only statusMoved saveMoved (rereadFixed c s))
  generalize rereadFixed c s = u at ht hwin hen hact ⊢
  exact ⟨(congrArg State.win ht).trans hwin, congrArg State.touched ht, congrArg (·.seqr.reread) ht, (congrArg (·.attn.enable) ht).trans hen,
    hcompare, (congrArg State.act ht).trans hact, (congrArg State.table ht).trans rfl⟩

theorem applyReread_keeps_request {c : AnchorCfg} {s : State} {r : PortReq} (h : r ∈ (writeStatusWords (rereadFixed c s)).port) :
    r ∈ (applyReread c s).port := by
  obtain ⟨statusMoved, saveMoved, _, he⟩ := applyReread_ends c s
  rw [he]
  exact rereadEnds_keeps_request h

theorem applyReread_actives (c : AnchorCfg) (s : State) (n : RecNo) : PortReq.active n ∈ (applyReread c s).port := by
  obtain ⟨_, _, _, hmem⟩ := foldl_refix_at n (rereadFilled c s)
  exact applyReread_keeps_request (writeStatusWords_keeps_request hmem (by simp))

theorem applyReread_statusWords (c : AnchorCfg) (s : State) :
    ∀ x ∈ [PortReq.protection, .memFault, .light, .monitor s.mon.linkUp, .modules, .attention], x ∈ (applyReread c s).port := by
  intro x hx
  obtain ⟨hwin, _, hmon, _⟩ := rereadFixed_fields c s
  rw [← hmon] at hx
  exact applyReread_keeps_request (mem_writeStatusWords (by rw [hwin]; rfl) x hx)

theorem applyReread_saveMoved {c : AnchorCfg} {s : State} {m : WindowMap} (hm : s.win.map = some m) (hne : m.save ≠ c.map.save) :
    (applyReread c s).intr.images = [] ∧ ∀ x ∈ zeroSave, x ∈ (applyReread c s).port := by
  obtain ⟨statusMoved, saveMoved, hsave, he⟩ := applyReread_ends c s
  rw [he, hsave m hm hne]
  exact rereadEnds_saveMoved statusMoved (rereadFixed c s)

/-- A record's completed state after a re-read is what its turn in the pass fixed, from the Connection Table as it stood (log 29). -/
theorem applyReread_completed (c : AnchorCfg) (s : State) (n : RecNo) : ∃ u, (applyReread c s).completed n = (refix u n).completed n ∧
    u.table.recordPaths n = s.table.recordPaths n ∧ u.win.cfg = some c ∧ u.power = s.power ∧
    ((s.table.done.map (·.1)).Pairwise (· < ·) → (u.table.done.map (·.1)).Pairwise (· < ·)) := by
  obtain ⟨hwin, _, _, htable, hpower⟩ := rereadFilled_fields c s
  obtain ⟨_, _, _, _, _, _, hdone⟩ := applyReread_fields c s
  obtain ⟨u, hu, hc, _⟩ := foldl_refix_at n (rereadFilled c s)
  refine ⟨u, ?_, ?_, ?_, ?_, ?_⟩
  · rw [rereadFixed] at hdone
    simp only [State.completed] at hc ⊢
    rw [hdone, hc]
  · rw [hu.only, ← htable]; rfl
  · rw [hu.only, hwin]
  · rw [hu.only, hpower]
  · rw [← htable]; exact hu.rising

theorem applyReread_completed_empty {c : AnchorCfg} {s : State} {n : RecNo} (hr : (s.table.done.map (·.1)).Pairwise (· < ·))
    (hp : s.table.recordPaths n = []) : (applyReread c s).completed n = .empty := by
  obtain ⟨u, hc, hpaths, _, _, hrising⟩ := applyReread_completed c s n
  rw [hc, refix_noPath (hpaths.trans hp)]
  exact completed_fixCompleted_empty n (hrising hr)

theorem applyReread_completed_path {c : AnchorCfg} {s : State} {n : RecNo} {p : Path} {d : DoneState} {h : HostFields}
    (hp : s.table.recordPaths n = [p]) (hd : p.st.done = some d) (hh : p.host = some h) :
    (applyReread c s).completed n = .path { st := d, host := h, att := if d = .squelched then (fillOf (some c) p.dst.out).att else p.att
                                            measured := powerAverage s (Res.ofDst h.dst) h.slot } := by
  obtain ⟨u, hc, hpaths, hcfg, hpower, _⟩ := applyReread_completed c s n
  rw [hc, refix_onePath (hpaths.trans hp) hd, Path.completed, hh]
  simp only []
  rw [completed_fixCompleted_path, hcfg, powerAverage, hpower, powerAverage]

/-- The commands that a re-read hands over stand behind those already handed, in the order of the degrees (R133; log 89). -/
theorem applyReread_handed (c : AnchorCfg) (s : State) : (applyReread c s).act.ordinary ++ (applyReread c s).act.wait =
    s.act.ordinary ++ s.act.wait ++ changeFillsCmds s.win.cfg c (adoptCfg c s) := by
  obtain ⟨_, _, _, _, _, hact, _⟩ := applyReread_fields c s
  have hadopt : (adoptCfg c s).act = s.act := by rw [adoptCfg_eq]
  rw [hact, (rereadFilled_handed c s).2, hadopt]

theorem applyReread_fill {o c : AnchorCfg} {s : State} {d : Degree} {k : FrameKind} {lo hi : Slot} (ho : s.win.cfg = some o)
    (hm : s.act.mods.get (.deg d) = .online) (hk : fillKind o c d = some k) (hlo : HoldsFill s d lo) (hhi : HoldsFill s d hi)
    (hall : ∀ n, HoldsFill s d n → lo ≤ n ∧ n ≤ hi) :
    fillCmd d k lo.val hi.val ∈ (applyReread c s).act.ordinary ++ (applyReread c s).act.wait := by
  have htable : (adoptCfg c s).table = s.table := by rw [adoptCfg_eq]
  have hmods : isFaulted (adoptCfg c s) (.deg d) = false := by
    rw [isFaulted, adoptCfg_eq]; simp [hm]
  have hholds (n : Slot) : HoldsFill (adoptCfg c s) d n ↔ HoldsFill s d n := by rw [HoldsFill, htable]
  have hmem : fillCmd d k lo.val hi.val ∈ fillCmds o c (adoptCfg c s) d :=
    mem_fillCmds hk hmods ((hholds lo).mpr hlo) ((hholds hi).mpr hhi) (fun n hn => hall n ((hholds n).mp hn))
  rw [applyReread_handed, ho]
  exact List.mem_append_right _ (List.mem_flatMap.mpr ⟨d, by cases d <;> simp [Degree.all], hmem⟩)

/-! #### The rows -/

/-- The anchor read of UNCONFIGURED with no word in error (R182; log 25). -/
theorem exec_anchorRead {s : State} (ha : Awake s) (hn : NextIs s (.anchor .unconfigured)) :
    exec .anchorRead s = settled (unconfiguredAnchor (granted s (.anchor .unconfigured))) := by
  simp only [exec, execAnchorRead]
  rw [rowEvent_nextIs ha hn rfl rfl]

theorem exec_anchorReReadDone {s : State} (ha : Awake s) (hn : NextIs s (.anchor .reread)) :
    exec .anchorReReadDone s = settled (rereadAnchor (granted s (.anchor .reread))) := by
  simp only [exec, execAnchorReReadDone]
  rw [rowEvent_nextIs ha hn rfl rfl]

theorem unconfiguredAnchor_some {s t : State} {c : AnchorCfg} (h : readAnchor s = (t, some c)) : unconfiguredAnchor s =
    install c { t with seqr := { t.seqr with st := .rebuilding, rereadDue := t.seqr.rereadDue || t.seqr.anchorAgain
                                             anchorRead := false, anchorAgain := false } } := by
  simp only [unconfiguredAnchor, h]

theorem unconfiguredAnchor_none {s t : State} (h : readAnchor s = (t, none)) :
    unconfiguredAnchor s = if t.seqr.anchorAgain then
        { t with seqr := { t.seqr with anchorRead := true, anchorAgain := false, rereadDue := false }
                 port := t.port ++ [.anchorHead, .anchor .unconfigured] }
      else { t with seqr := { t.seqr with anchorRead := false, anchorAgain := false } } := by
  simp [unconfiguredAnchor, h, startAnchorRead, requestAnchor, request]

theorem install_fields (c : AnchorCfg) (s : State) : (install c s).seqr = s.seqr ∧ (install c s).start.stage = .profiles ∧
    (install c s).win = { s.win with map := some c.map, watch := none, cfg := some c } := by
  rw [install_eq]
  exact ⟨rfl, rfl, rfl⟩

theorem rereadAnchor_some {s t : State} {c : AnchorCfg} (h : readAnchor s = (t, some c)) : rereadAnchor s = applyReread c t := by
  simp only [rereadAnchor, h]

theorem rereadAnchor_none {s t : State} (h : readAnchor s = (t, none)) : rereadAnchor s = enterUnconfigured { t with touched := [] } := by
  simp only [rereadAnchor, h]

theorem takeReread_eq (s : State) : takeReread s = { s with
    port := s.port ++ [.anchorHead, .anchor .reread], seqr := { s.seqr with rereadDue := false, reread := .anchor }
    start := { s.start with anchorSeen := some s.mem } } := by
  simp [takeReread, requestAnchor, request]

theorem anchorReReadDone_valid {s : State} {c : AnchorCfg} (ha : Awake s) (hn : NextIs s (.anchor .reread))
    (hc : CleanBurst (s.start.anchorSeen.getD s.mem) (pageAddr s.win.anchorPage 16) 3) (hr : anchorOf (s.start.anchorSeen.getD s.mem) s = some c) :
    exec .anchorReReadDone s = settled (applyReread c (anchorTaken (granted s (.anchor .reread)))) := by
  rw [exec_anchorReReadDone ha hn, rereadAnchor_some ((readAnchor_eq (s := granted s (.anchor .reread)) hc).trans (Prod.ext rfl hr))]

theorem anchorReReadDone_invalid {s : State} (ha : Awake s) (hn : NextIs s (.anchor .reread))
    (hc : CleanBurst (s.start.anchorSeen.getD s.mem) (pageAddr s.win.anchorPage 16) 3) (hr : anchorOf (s.start.anchorSeen.getD s.mem) s = none) :
    exec .anchorReReadDone s = settled (enterUnconfigured { anchorTaken (granted s (.anchor .reread)) with touched := [] }) := by
  rw [exec_anchorReReadDone ha hn, rereadAnchor_none ((readAnchor_eq (s := granted s (.anchor .reread)) hc).trans (Prod.ext rfl hr))]

/-- Settles O59: each read's row is its grant's, and a re-read's changes are followed step by step. -/
theorem anchorReadsAndRereads : Obligations.AnchorReadsAndRereads := by
  refine ⟨?_, ?_, ?_⟩
  · intro s ha hn m hc r g
    have he := exec_anchorRead ha hn
    have hread : readAnchor (granted s (.anchor .unconfigured)) = (anchorTaken (granted s (.anchor .unconfigured)), r) :=
      readAnchor_eq (s := granted s (.anchor .unconfigured)) hc
    refine ⟨fun hr hagain => ?_, fun hr hagain => ?_, fun c hr => ?_⟩
    · rw [hr] at hread
      exact he.trans (congrArg settled ((unconfiguredAnchor_none hread).trans (if_neg (Bool.eq_false_iff.mp hagain))))
    · rw [hr] at hread
      exact he.trans (congrArg settled ((unconfiguredAnchor_none hread).trans (if_pos hagain)))
    · rw [hr] at hread
      rw [unconfiguredAnchor_some hread] at he
      obtain ⟨hseqr, hstage, hwin⟩ := install_fields c { anchorTaken (granted s (.anchor .unconfigured)) with
        seqr := { s.seqr with st := .rebuilding, rereadDue := s.seqr.rereadDue || s.seqr.anchorAgain, anchorRead := false, anchorAgain := false } }
      exact ⟨_, he, congrArg (·.st) hseqr, hstage, hwin, (mem_install c _).1⟩
  · intro s ha hdue hst hdepth hbegun hreread hstage
    have hready : rereadReady (fresh s) = true := by simp [rereadReady, fresh, hdue, hst, hdepth, hbegun, hreread, hstage]
    simp only [exec, execAnchorReRead]
    rw [event_awake ha, if_pos hready, takeReread_eq]
    rfl
  · intro s ha hn m hc r
    refine ⟨fun c hr => ⟨_, anchorReReadDone_valid ha hn hc hr, ?_⟩, fun hr => ⟨_, anchorReReadDone_invalid ha hn hc hr, ?_⟩⟩
    · obtain ⟨hwin, htouched, hreread, hen, hcompare, _, _⟩ := applyReread_fields c (anchorTaken (granted s (.anchor .reread)))
      have hstatus := applyReread_statusWords c (anchorTaken (granted s (.anchor .reread)))
      refine ⟨hwin, htouched, hreread, hen, hcompare, applyReread_actives c _, hstatus, fun m hm hne => ?_,
        fun hrising n hp => applyReread_completed_empty hrising hp,
        fun n p d h hp hd hh => ?_, fun o d ho hm => ?_, ?_⟩
      · obtain ⟨himages, hzero⟩ := applyReread_saveMoved (s := anchorTaken (granted s (.anchor .reread))) hm hne
        exact ⟨hzero _ (List.mem_append_right _ (List.mem_singleton_self _)), himages, fun k hk b hb => hzero _ (mem_zeroSave hk hb)⟩
      · have hpath := applyReread_completed_path (c := c) (s := anchorTaken (granted s (.anchor .reread))) hp hd hh
        exact ⟨_, hpath, rfl, rfl, rfl, rfl⟩
      · intro holdsFill handed
        have hgive (k : FrameKind) (hk : fillKind o c d = some k) : handed k := fun lo hi hlo hhi hall =>
          ⟨_, applyReread_fill (s := anchorTaken (granted s (.anchor .reread))) ho hm hk hlo hhi hall, rfl, rfl, rfl,
            by have hle : lo.val ≤ hi.val := (hall lo hlo).2; simp only [fillCmd]; omega, rfl, rfl⟩
        exact ⟨fun hne => hgive .route (if_pos hne), fun heq hne => hgive .atten ((if_neg (not_not.mpr heq)).trans (if_pos hne))⟩
      · exact ⟨_, applyReread_handed c _, changeFillsCmds_module ..⟩
    · obtain ⟨hst, hreread, hwin, hen, _, _, hlist, htable, _⟩ :=
        enterUnconfigured_fields { anchorTaken (granted s (.anchor .reread)) with touched := [] }
      refine ⟨hst, congrArg _ hwin, ?_, hen, htable, hlist, hreread⟩
      rw [hwin]
      rfl

end Sys2Proof.Machine

/-! ### The base tick and its counts -/

namespace Sys2Proof.Machine

/-- A qualifier that has its level counts no run. -/
theorem tick_settled {q : Qualifier} (n : Nat) (h : q.level = some q.pin) : q.tick n = ({ q with run := 0 }, false) := if_pos h

/-- An equal sample short of the run's end is counted. -/
theorem tick_counts {q : Qualifier} {n : Nat} (h : q.level ≠ some q.pin) (hn : q.run + 1 < n) : q.tick n = ({ q with run := q.run + 1 }, false) :=
  (if_neg h).trans (if_neg (Nat.not_le.mpr hn))

/-- The last equal sample of a run makes the level due. -/
theorem tick_due {q : Qualifier} {n : Nat} (h : q.level ≠ some q.pin) (hn : n ≤ q.run + 1) : q.tick n = ({ q with run := 0 }, true) :=
  (if_neg h).trans (if_pos hn)

/-- A sample changes the run alone. -/
theorem tick_same (n : Nat) (q : Qualifier) : (q.tick n).1.level = q.level ∧ (q.tick n).1.pin = q.pin := by
  unfold Qualifier.tick; repeat' split
  all_goals exact ⟨rfl, rfl⟩

/-- A sample that makes the level due ends the run. -/
theorem tick_of_due {n : Nat} {q : Qualifier} (h : (q.tick n).2 = true) : (q.tick n).1 = { q with run := 0 } := by
  revert h; unfold Qualifier.tick; repeat' split
  all_goals simp

theorem tickLos_quiet {s : State} {d : Degree} (h : ((s.light.qual.get d).tick 10).2 = false) :
    tickLos s d = { s with light := { s.light with qual := s.light.qual.set d ((s.light.qual.get d).tick 10).1 } } := by
  simp [tickLos, h]

theorem tickLos_due {s : State} {d : Degree} (h : ((s.light.qual.get d).tick 10).2 = true) :
    tickLos s d = { s with
      light := { s.light with qual := s.light.qual.set d ((s.light.qual.get d).tick 10).1 }
      pending := s.pending ++ [if (s.light.qual.get d).level = none then .firstQualification d (s.light.qual.get d).pin
        else if (s.light.qual.get d).pin = true then .qualifiedLoss d else .qualifiedClear d] } := by
  obtain ⟨hl, hp⟩ := tick_same 10 (s.light.qual.get d)
  simp only [tickLos, h, hl, hp, Bool.not_true, Bool.false_eq_true, if_false, Option.isNone_iff_eq_none]
  split <;> rfl

theorem tickPfw_quiet {s : State} (h : (s.start.pfw.tick 3).2 = false) :
    tickPfw s = { s with start := { s.start with pfw := (s.start.pfw.tick 3).1 } } := by
  simp [tickPfw, h]

theorem tickPfw_asserted {s : State} (h : (s.start.pfw.tick 3).2 = true) (hp : s.start.pfw.pin = true) :
    tickPfw s = { s with start := { s.start with pfw := (s.start.pfw.tick 3).1 }, pending := s.pending ++ [.pfwAssertion] } := by
  simp [tickPfw, h, (tick_same 3 s.start.pfw).2, hp, post]

theorem tickPfw_deasserted {s : State} (h : (s.start.pfw.tick 3).2 = true) (hp : s.start.pfw.pin = false) (hl : s.start.pfw.level ≠ none) :
    tickPfw s = { s with start := { s.start with pfw := (s.start.pfw.tick 3).1 }, pending := s.pending ++ [.pfwDeassertion] } := by
  simp [tickPfw, h, (tick_same 3 s.start.pfw).2, (tick_same 3 s.start.pfw).1, hp, hl, post]

theorem tickPfw_first {s : State} (h : (s.start.pfw.tick 3).2 = true) (hp : s.start.pfw.pin = false) (hl : s.start.pfw.level = none) :
    tickPfw s = { s with start := { s.start with pfw := { s.start.pfw with level := some false, run := 0 } } } := by
  simp [tickPfw, h, tick_of_due h, hp, hl]

theorem tickEngine_skips {x : Bool} {s : State} {e : EngineNo} (h : (s.engine e).st = .free ∨ ((s.engine e).prof.x16 = true ∧ x = false)) :
    tickEngine x s e = s := by
  unfold tickEngine; exact if_pos (by simpa using h)

/-- A tick of an engine's own prescaler setting passes the first test of the tick. -/
theorem tickEngine_ticks {x : Bool} {s : State} {e : EngineNo} (hst : (s.engine e).st ≠ .free) (hx : (s.engine e).prof.x16 = false ∨ x = true) :
    tickEngine x s e = if !(s.engine e).counting then setEngine e { s.engine e with counting := true } s
      else if (s.engine e).count ≤ 1 then post (.intervalExpiry e) (setEngine e { s.engine e with count := (s.engine e).count - 1 } s)
      else setEngine e { s.engine e with count := (s.engine e).count - 1 } s := by
  have hno : ¬((s.engine e).st = .free ∨ ((s.engine e).prof.x16 = true ∧ x = false)) := by
    rintro (h | ⟨h, rfl⟩)
    · exact hst h
    · simp [h] at hx
  unfold tickEngine; exact if_neg (by simpa using hno)

theorem tickMonitor_down {s : State} (h : s.mon.linkUp = false) : tickMonitor s = { s with mon := { s.mon with txLeft := s.mon.txLeft - 1 } } := by
  simp [tickMonitor, h]

theorem tickMonitor_up {s : State} (h : s.mon.linkUp = true) : tickMonitor s =
    { s with
      mon := { s.mon with txLeft := s.mon.txLeft - 1, silence := s.mon.silence - 1 }
      pending := s.pending ++ (if s.mon.silence ≤ 1 then [.silenceTimerExpiry] else []) } := by
  by_cases hs : s.mon.silence ≤ 1 <;> simp [tickMonitor, h, hs, post]

theorem tickActuator_none {s : State} (h : s.act.txn = none) : tickActuator s = s := by simp [tickActuator, h]

theorem tickActuator_sending {s : State} {x : Txn} (h : s.act.txn = some x) (hx : 0 < x.sendLeft) :
    tickActuator s = { s with act := { s.act with txn := some { x with sendLeft := x.sendLeft - 1 } } } := by
  simp [tickActuator, h, hx]

theorem tickActuator_sent {s : State} {x : Txn} (h : s.act.txn = some x) (hx : x.sendLeft = 0) :
    tickActuator s = { s with
      act := { s.act with txn := some { x with timer := x.timer - 1 } }
      pending := s.pending ++ (if x.timer ≤ 1 then [.replyTimerExpiry] else []) } := by
  by_cases ht : x.timer ≤ 1 <;> simp [tickActuator, h, hx, ht, post]

theorem tickScrub_stopped {s : State} (h : scrubRuns s = false) : tickScrub s = s := by simp [tickScrub, h]

theorem tickScrub_first {s : State} (h : scrubRuns s = true) (hs : s.integ.scrub.started = false) :
    tickScrub s = { s with integ := { s.integ with scrub := { s.integ.scrub with started := true, timer := 10 } } } := by
  simp [tickScrub, h, hs]

theorem tickScrub_counts {s : State} (h : scrubRuns s = true) (hs : s.integ.scrub.started = true) :
    tickScrub s = { s with
      integ := { s.integ with scrub := { s.integ.scrub with started := true, timer := s.integ.scrub.timer - 1 } }
      pending := s.pending ++ (if s.integ.scrub.timer ≤ 1 then [.pacingTimerExpiry] else []) } := by
  have hz : s.integ.scrub.timer - 1 = 0 ↔ s.integ.scrub.timer ≤ 1 := by omega
  by_cases ht : s.integ.scrub.timer ≤ 1 <;> simp [tickScrub, h, hs, hz, ht, post]

theorem tickHoldOff_none {s : State} {d : Degree} (h : s.light.holdOff.get d = none) : tickHoldOff s d = s := by simp [tickHoldOff, h]

theorem tickHoldOff_some {s : State} {d : Degree} {n : Nat} (h : s.light.holdOff.get d = some n) :
    tickHoldOff s d = { s with
      light := { s.light with holdOff := s.light.holdOff.set d (some (n - 1)) }
      pending := s.pending ++ (if n ≤ 1 then [.holdOffExpiry d] else []) } := by
  by_cases hn : n ≤ 1 <;> simp [tickHoldOff, h, hn, setHoldOff, post]

/-- The two counts of the clock after a base tick, and the millisecond's command where the first comes round. -/
def clockTicked (s : State) : State :=
  { s with
    clock := { s.clock with sub100 := if 99 ≤ s.clock.sub100 then 0 else s.clock.sub100 + 1, slow := if 999 ≤ s.clock.slow then 0 else s.clock.slow + 1 }
    pending := s.pending ++ (if 99 ≤ s.clock.sub100 then [.captureTimeAdvance] else []) }

theorem tickClock_eq (s : State) : tickClock s =
    if 999 ≤ s.clock.slow ∧ s.start.powerdown = false then Degree.all.foldl tickHoldOff (clockTicked s) else clockTicked s := by
  have hms : 100 ≤ s.clock.sub100 + 1 ↔ 99 ≤ s.clock.sub100 := Nat.succ_le_succ_iff
  have hslow : 1000 ≤ s.clock.slow + 1 ↔ 999 ≤ s.clock.slow := Nat.succ_le_succ_iff
  unfold tickClock clockTicked
  by_cases h : 99 ≤ s.clock.sub100 <;> simp [hms, hslow, h, post]

end Sys2Proof.Machine

section
open Sys2Proof Sys2Proof.Machine

/-- Settles O29: the capture time's own effect, then the tick part by part. -/
theorem captureTimeAdvances : Obligations.CaptureTimeAdvances := by
  refine ⟨?_, ?_, ?_, ?_, ?_, ?_, ?_, ?_, ?_, ?_, ?_, ?_⟩
  · refine fun s ha => ⟨?_, fun h => by rw [h]; rfl⟩
    exact event_awake ha (fun s => { s with clock := { s.clock with ms := s.clock.ms + 1 } })
  · exact fun n q => ⟨tick_settled n, fun h => ⟨tick_counts h, tick_due h⟩⟩
  · exact fun s d => ⟨tickLos_quiet, tickLos_due⟩
  · exact fun s => ⟨tickPfw_quiet, fun h => ⟨tickPfw_asserted h, tickPfw_deasserted h, tickPfw_first h⟩⟩
  · refine fun x s e => ⟨tickEngine_skips, fun hst hx => ⟨fun hc => ?_, fun hc hn => ?_, fun hc hn => ?_⟩⟩ <;>
      rw [tickEngine_ticks hst hx]
    · simp [hc, setEngine]
    · simp [hc, Nat.not_le.mpr hn, setEngine]
    · simp [hc, hn, setEngine, post]
  · exact fun s => ⟨fun h => if_pos h, fun h => if_neg (by simp [h])⟩
  · refine fun s => ⟨tickMonitor_down, fun h => ⟨fun hs => ?_, fun hs => ?_⟩⟩ <;> rw [tickMonitor_up h]
    · simp [Nat.not_le.mpr hs]
    · simp [hs, Nat.sub_eq_zero_of_le hs]
  · refine fun s => ⟨tickActuator_none, fun x hx => ⟨tickActuator_sending hx, fun h0 ht => ?_, fun h0 ht => ?_⟩⟩ <;>
      rw [tickActuator_sent hx h0]
    · simp [Nat.not_le.mpr ht]
    · simp [ht, Nat.sub_eq_zero_of_le ht]
  · refine fun s => ⟨tickScrub_stopped, fun h => ⟨tickScrub_first h, fun hs => ⟨fun ht => ?_, fun ht => ?_⟩⟩⟩ <;>
      rw [tickScrub_counts h hs]
    · simp [Nat.not_le.mpr ht]
    · simp [ht, Nat.sub_eq_zero_of_le ht]
  · refine fun s d => ⟨tickHoldOff_none, fun n hn => ⟨fun h => ?_, fun h => ?_⟩⟩ <;> rw [tickHoldOff_some hn]
    · simp [Nat.not_le.mpr h]
    · simp [h]
  · refine fun s => ⟨fun hm hs => ?_, fun hm hs => ?_, fun hm hs => ?_, fun hm hs => ?_⟩ <;> rw [tickClock_eq] <;>
      cases hp : s.start.powerdown <;> simp [clockTicked, *, Nat.not_le.mpr]
  · refine fun s => ⟨rfl, fun h => if_pos h, fun h ho hn => ?_⟩
    simp [idle, h, ho, hn]

end

/-! ### Captures -/

namespace Sys2Proof.Machine

/-- When an item of the work list can be taken (R155, R184, R185). -/
theorem workFree_iff (w : WorkItem) (s : State) : workFree w s = true ↔ s.intr.item = none ∧ s.seqr.reread = .none ∧ s.start.powerdown = false ∧
    (w = .resume ∨ (s.seqr.st ≠ .unconfigured ∧ s.seqr.st ≠ .rebuilding)) := by
  simp [workFree, and_assoc]

/-- An item that cannot be taken stays on the work list (log 7). -/
theorem exec_workWaits {w : WorkItem} {s : State} (ha : Awake s) (hw : s.intr.work.head? = some w) (hf : workFree w s = false) :
    exec .capture s = settled (fresh s) ∧ exec .resumeTaken s = settled (fresh s) := by
  obtain ⟨rest, hl⟩ := List.head?_eq_some_iff.mp hw
  have hff : workFree w (fresh s) = false := hf
  have hlf : (fresh s).intr.work = w :: rest := hl
  simp only [exec, execCapture, execResumeTaken]
  rw [event_awake ha, event_awake ha, hlf]
  cases w <;> simp [hff]

/-- The state in which the head of the work list has been taken. -/
def itemTaken (rest : List WorkItem) (s : State) : State := { fresh s with intr := { s.intr with work := rest } }

/-- The capture at the head of the work list is taken (R155). -/
theorem exec_capture {s : State} {c : CaptureSource} {rest : List WorkItem} (ha : Awake s) (hf : workFree (.capture c) s = true)
    (hw : s.intr.work = .capture c :: rest) :
    exec .capture s = settled (takeCapture c (itemTaken rest s)) := by
  have hff : workFree (.capture c) (fresh s) = true := hf
  have hwf : (fresh s).intr.work = .capture c :: rest := hw
  simp only [exec, execCapture]
  rw [event_awake ha, hwf]
  exact congrArg settled (if_pos hff)

/-! ### Steps 1 to 3 of a capture in a run state (R156) -/

/-- Whether an engine serves a batch entry (R99). -/
def Engine.servesBatch (g : Engine) : Bool := g.owner.any (fun o => !o.restore)

/-- What stopping engines leaves alone; commands only leave the lists (R112, R133). -/
structure EnginesStopped (s t : State) : Prop where
  intr : t.intr = s.intr
  seqr : t.seqr = s.seqr
  queue : t.queue = s.queue
  batch : t.batch = s.batch
  light : t.light = s.light
  urgent : t.act.urgent = s.act.urgent
  wait : t.ramp.wait = s.ramp.wait
  cmds : ∀ x ∈ t.act.ordinary ++ t.act.wait, x ∈ s.act.ordinary ++ s.act.wait

theorem EnginesStopped.refl (s : State) : EnginesStopped s s := ⟨rfl, rfl, rfl, rfl, rfl, rfl, rfl, fun _ h => h⟩

theorem EnginesStopped.trans {s t u : State} (h : EnginesStopped s t) (k : EnginesStopped t u) : EnginesStopped s u :=
  ⟨k.intr.trans h.intr, k.seqr.trans h.seqr, k.queue.trans h.queue, k.batch.trans h.batch, k.light.trans h.light, k.urgent.trans h.urgent,
    k.wait.trans h.wait, fun x hx => h.cmds x (k.cmds x hx)⟩

/-- Withdrawn commands were on the lists, and the rest stays. -/
theorem mem_withdrawCmds (p : Requester → Bool) (s : State) (x : ActCmd) :
    x ∈ (withdrawCmds p s).act.ordinary ++ (withdrawCmds p s).act.wait ↔ x ∈ s.act.ordinary ++ s.act.wait ∧ p x.req = false := by
  simp [withdrawCmds, ← or_and_right]

theorem freeEngine_wait (e : EngineNo) (s : State) : (freeEngine e s).ramp.wait = s.ramp.wait := by
  unfold freeEngine; split <;> rfl

theorem stopEngine_stops (e : EngineNo) (s : State) : EnginesStopped s (stopEngine e s) := by
  have hact : (stopEngine e s).act = (withdrawCmds (fun r => match r with | .engine e' g' _ => e' = e && g' = (s.engine e).grant | _ => false) s).act :=
    (freeEngine_leaves e _).2.2.2.2.2.2.2.2.2.2.2.2.1
  exact ⟨by simp, by simp, by simp, by simp, by simp, by rw [hact]; rfl, by simp only [stopEngine, freeEngine_wait, withdrawCmds_leaves],
    fun x hx => ((mem_withdrawCmds _ s x).mp (hact ▸ hx)).1⟩

theorem stopBatchEngine_stops (s : State) (e : EngineNo) : EnginesStopped s (stopBatchEngine s e) := by
  unfold stopBatchEngine
  split
  · split
    · exact .refl s
    · exact stopEngine_stops e s
  · exact .refl s

theorem foldl_stopBatchEngine_stops (l : List EngineNo) (s : State) : EnginesStopped s (l.foldl stopBatchEngine s) := by
  induction l generalizing s with
  | nil => exact .refl s
  | cons e l ih => exact (stopBatchEngine_stops s e).trans (ih _)

theorem engine_freeEngine (e e' : EngineNo) (s : State) : (freeEngine e s).engine e' = if e = e' then .free else s.engine e' := by
  unfold freeEngine
  rw [engine_setEngine]
  split
  · rfl
  · cases (s.engine e).owner <;> rfl

theorem engine_stopBatchEngine (s : State) (e e' : EngineNo) :
    (stopBatchEngine s e).engine e' = if e = e' ∧ (s.engine e').servesBatch = true then .free else s.engine e' := by
  by_cases he : e = e'
  · subst he
    unfold stopBatchEngine Engine.servesBatch
    cases ho : (s.engine e).owner with
    | none => simp
    | some o =>
      cases hr : o.restore with
      | true => simp [hr]
      | false => simpa [hr, stopEngine] using (engine_freeEngine e e _).trans (if_pos rfl)
  · have hother : ∀ t : State, (freeEngine e t).engine e' = t.engine e' := fun t => (engine_freeEngine e e' t).trans (if_neg he)
    unfold stopBatchEngine stopEngine
    rw [if_neg (fun h => he h.1)]
    repeat' split
    · rfl
    · exact hother _
    · rfl

/-- The engines of batch entries are FREE after all in a list are stopped, and any other is as it was. -/
theorem engine_foldl_stopBatchEngine (l : List EngineNo) (s : State) (e : EngineNo) :
    (l.foldl stopBatchEngine s).engine e = if e ∈ l ∧ (s.engine e).servesBatch = true then .free else s.engine e := by
  induction l generalizing s with
  | nil => simp
  | cons a l ih =>
    have hfree : Engine.free.servesBatch = false := rfl
    rw [List.foldl_cons, ih, engine_stopBatchEngine]
    by_cases ha : a = e <;> cases hs : (s.engine e).servesBatch <;> simp [ha, hs, hfree, eq_comm (a := e)]

theorem mem_allEngines (e : EngineNo) : e ∈ allEngines := by revert e; decide

/-- The commands that a capture in a run state withdraws (R156). -/
def Requester.ofBatch : Requester → Bool
  | .entry _ _ _ => true
  | .engine _ _ o => !o.restore
  | _ => false

/-- Suspending a batch: the state entered, then commands and engine requests withdrawn and engines stopped (R156). -/
theorem suspendBatch_eq (s : State) : ∃ p : Requester → Bool, (∀ r, p r = r.ofBatch) ∧ suspendBatch s =
    let t := allEngines.foldl stopBatchEngine (withdrawCmds p (enterState .suspended .suspended s))
    { t with ramp := { t.ramp with wait := t.ramp.wait.filter (fun r => r.owner.restore) } } := by
  refine ⟨_, fun r => ?_, by unfold suspendBatch; with_reducible rfl⟩
  cases r <;> rfl

/-- What suspending a batch in a run state does (R156). -/
theorem suspendBatch_fields (s : State) :
    let t := suspendBatch s
    t.seqr.st = .suspended ∧ t.seqr.shown = { st := .suspended, seq := s.batch.seq } ∧ t.intr = s.intr ∧ t.queue = s.queue ∧ t.batch = s.batch ∧
    t.light = s.light ∧ t.act.urgent = s.act.urgent ∧ t.ramp.wait = s.ramp.wait.filter (fun r => r.owner.restore) ∧
    (∀ e, t.engine e = if (s.engine e).servesBatch = true then .free else s.engine e) ∧
    (∀ x ∈ t.act.ordinary ++ t.act.wait, x.req.ofBatch = false) := by
  obtain ⟨p, hp, he⟩ := suspendBatch_eq s
  have hstops := foldl_stopBatchEngine_stops allEngines (withdrawCmds p (enterState .suspended .suspended s))
  have hengine := engine_foldl_stopBatchEngine allEngines (withdrawCmds p (enterState .suspended .suspended s))
  have hsame (e : EngineNo) : (withdrawCmds p (enterState .suspended .suspended s)).engine e = s.engine e := by simp [State.engine]
  generalize allEngines.foldl stopBatchEngine (withdrawCmds p (enterState .suspended .suspended s)) = t at he hstops hengine
  obtain ⟨hintr, hseqr, hqueue, hbatch, hlight, hurgent, hwait, hcmds⟩ := hstops
  rw [he]
  refine ⟨by rw [hseqr]; simp, by rw [hseqr]; simp [enterState], hintr.trans (by simp), hqueue.trans (by simp), hbatch.trans (by simp),
    hlight.trans (by simp), hurgent.trans (by simp [withdrawCmds]), (congrArg _ hwait).trans (by simp), fun e => (hengine e).trans ?_,
    fun x hx => (hp _).symm.trans ((mem_withdrawCmds p _ x).mp (hcmds x hx)).2⟩
  simp [hsame, mem_allEngines]

/-- IDLE left for a capture (R159). -/
theorem suspendIdle_eq {s : State} (h : s.win.map.isSome = true) : suspendIdle s = { s with
    seqr := { s.seqr with st := .suspended, kept := some s.seqr.shown, shown := { st := .suspended, seq := s.seqr.shown.seq } }
    port := s.port ++ [.batchState { st := .suspended, seq := s.seqr.shown.seq }] } := by
  simp [suspendIdle, writeBatchState, requestStatus, h, request]

/-- A capture's beginning below depth 4: the depth rises, and the record waits to be built (R156). -/
def captureBegun (c : CaptureSource) (noted : SeqState) (g : List (RecNo × EngineNo)) (s : State) : State :=
  { s with intr := { s.intr with depth := s.intr.depth + 1, item := some (.capture c noted g true) } }

/-- The batch's mark of a loss of light gone (R83; log 58). -/
def lossNoted (s : State) : State := { s with batch := { s.batch with lossStop := false } }

/-- A capture below depth 4 (R156, R159): by the sequencer's state the batch is suspended, or IDLE left, and the depth rises. -/
theorem takeCapture_below {c : CaptureSource} {s : State} (h : s.intr.depth < 4) :
    (s.seqr.st.isRun = true → takeCapture c s = captureBegun c s.seqr.st (entryEngines s) (suspendBatch (lossNoted s))) ∧
    (s.seqr.st = .idle → takeCapture c s = captureBegun c .idle (entryEngines s) (suspendIdle (lossNoted s))) ∧
    (s.seqr.st.isRun = false → s.seqr.st ≠ .idle → takeCapture c s = captureBegun c s.seqr.st (entryEngines s) (lossNoted s)) := by
  have hg : entryEngines { s with batch := { s.batch with lossStop := false } } = entryEngines s := rfl
  simp only [takeCapture, Nat.not_le.mpr h, if_false, hg, captureBegun, lossNoted]
  cases s.seqr.st <;> simp [SeqState.isRun]

/-- A save slot's four bursts are asked for in order (R17, R30). -/
theorem requestSlot_eq (k : Nat) (ws : List Word) (last : List Word → PortReq) (s : State) : requestSlot k ws last s =
    { s with port := s.port ++ [.slotBurst k 0 (ws.take 4), .slotBurst k 1 ((ws.drop 4).take 4), .slotBurst k 2 ((ws.drop 8).take 4),
      last ((ws.drop 12).take 4)] } := by
  simp [requestSlot, request]

/-- A capture at depth 4 is merged (R160). -/
theorem takeCapture_merged {c : CaptureSource} {s : State} (h : s.intr.depth = 4) :
    takeCapture c s = mergeCapture c (lossNoted s) := by
  simp [takeCapture, h, lossNoted]

/-! ### The record of a capture (R156 to R158) -/

theorem causeBit_eq (c : CaptureSource) : causeBit c = (match c with | .los _ => 2 ^ 4 | .powerFail => 2 ^ 5 | .module _ => 2 ^ 6) := by
  cases c <;> rfl

theorem buildCapture_waits {s : State} {c : CaptureSource} {noted : SeqState} {g : List (RecNo × EngineNo)}
    (hi : s.intr.item = some (.capture c noted g true)) (h : s.act.txn ≠ none) : buildCapture s = none := by
  simp [buildCapture, hi, Option.isSome_iff_ne_none, h]

theorem buildCapture_some {s : State} {c : CaptureSource} {noted : SeqState} {g : List (RecNo × EngineNo)}
    (hi : s.intr.item = some (.capture c noted g true)) (h : s.act.txn = none) :
    buildCapture s =
      let k := s.intr.depth
      let ws := (captureFields c noted g s).words
      some { s with
        intr := { s.intr with images := s.intr.images.take (k - 1) ++ [ws], item := some (.capture c noted g false) }
        port := s.port ++ [.slotBurst k 0 (ws.take 4), .slotBurst k 1 ((ws.drop 4).take 4), .slotBurst k 2 ((ws.drop 8).take 4),
          .slotBurst k 3 ((ws.drop 12).take 4), .captureHeader k] } := by
  simp [buildCapture, hi, h, requestSlot_eq, request]

/-- The words of a capture's record (Table 2-8). -/
theorem captureFields_words (c : CaptureSource) (noted : SeqState) (g : List (RecNo × EngineNo)) (s : State) :
    (captureFields c noted g s).words =
      let items := if s.intr.depth = 1 then (s.queue.filter (fun e => e.st.inProgress)).map (inFlightOf s g) else []
      [BitVec.ofNat 32 (1 + causeBit c + 2 ^ 16),
       BitVec.ofNat 32 (darkSet s + faultedSet s * 2 ^ 8 + (if s.batch.present then s.batch.seq.toNat else 0) * 2 ^ 16),
       BitVec.ofNat 32 (noted.code + (if s.batch.present then s.batch.phase else 0) * 2 ^ 8 +
         bit (s.batch.present && s.batch.phase = 0) * 2 ^ 12 + bit (!items.isEmpty) * 2 ^ 13 + items.length * 2 ^ 16)] ++
      (items.map InFlight.word ++ List.replicate (8 - items.length) 0).take 8 ++
      [BitVec.ofNat 32 (bit (noted = .holding || noted = .held) * 2 ^ 8), s.clock.ms, 0, 0, 0] := by
  have hseq : (if s.batch.present then s.batch.seq else 0).toNat = if s.batch.present then s.batch.seq.toNat else 0 := by split <;> rfl
  cases c <;> simp only [SlotFields.words, captureFields, hseq] <;> rfl

end Sys2Proof.Machine

section
open Sys2Proof Sys2Proof.Machine

/-- Settles O45: by the state the capture finds, and the record by the fields that it takes. -/
theorem captureSuspendsOrMerges : Obligations.CaptureSuspendsOrMerges := by
  refine ⟨fun w s => ⟨workFree_iff w s, fun ha hw hf => exec_workWaits ha hw hf⟩, ?_, ?_, ?_, causeBit_eq⟩
  · intro s c rest ha hf hw hd hm intr
    have he := exec_capture ha hf hw
    obtain ⟨hrun, hidle, hbatch⟩ := takeCapture_below (c := c) (s := itemTaken rest s) hd
    refine ⟨fun hst => ?_, fun hst => ?_, fun hr => ?_⟩
    · rw [he, hidle hst, suspendIdle_eq (s := lossNoted (itemTaken rest s)) hm]
      rfl
    · have hother : s.seqr.st.isRun = false ∧ s.seqr.st ≠ .idle := by rcases hst with h | h | h <;> simp [h, SeqState.isRun]
      rw [he, hbatch hother.1 hother.2]
      rfl
    · have hfields := suspendBatch_fields (lossNoted (itemTaken rest s))
      generalize suspendBatch (lossNoted (itemTaken rest s)) = u at hrun hfields
      obtain ⟨hst, hshown, hintr, hqueue, hbatch, hlight, hurgent, hwait, hengine, hcmds⟩ := hfields
      refine ⟨_, he.trans (congrArg settled (hrun hr)), hst, hshown, ?_, hqueue, hbatch, hlight, hurgent, hwait,
        fun e ho hne => ?_, fun e o ho hro => ?_, fun x hx => ?_⟩
      · simp only [captureBegun, hintr]; rfl
      · obtain ⟨o, ho'⟩ := Option.ne_none_iff_exists'.mp hne
        have hserves : (s.engine e).servesBatch = true := by simp [Engine.servesBatch, ho', ho o ho']
        exact congrArg (·.st) ((hengine e).trans (if_pos hserves))
      · have hserves : ¬(s.engine e).servesBatch = true := by simp [Engine.servesBatch, ho, hro]
        exact (hengine e).trans (if_neg hserves)
      · have hx' := hcmds x hx
        revert hx'
        cases x.req <;> simp [Requester.ofBatch]
  · intro s c rest ha hf hw hd hl
    refine ⟨_, _, (exec_capture ha hf hw).trans (congrArg settled (takeCapture_merged (s := itemTaken rest s) hd)), hd, rfl, rfl, rfl, ?_, rfl⟩
    simp only [mergeCapture, requestSlot_eq]
    rfl
  · intro s c noted g hi
    refine ⟨buildCapture_waits hi, fun ht => ?_⟩
    rw [buildCapture_some hi ht, captureFields_words]
    rfl

end

/-! ### Resumes -/

namespace Sys2Proof.Machine

theorem exec_resumeTaken {s : State} {rest : List WorkItem} (ha : Awake s) (hf : workFree .resume s = true) (hw : s.intr.work = .resume :: rest) :
    exec .resumeTaken s = settled (takeResumeItem { fresh s with intr := { s.intr with work := rest } }) := by
  have hff : workFree .resume (fresh s) = true := hf
  have hwf : (fresh s).intr.work = .resume :: rest := hw
  simp only [exec, execResumeTaken]
  rw [event_awake ha, hwf]
  exact congrArg settled (if_pos hff)

theorem exec_resumeWordRead {s : State} {k : Nat} (ha : Awake s) (hn : NextIs s (.resumeWord k)) :
    exec .resumeWordRead s = settled (resumeWordRead k (granted s (.resumeWord k))) :=
  rowEvent_nextIs ha hn rfl rfl _

/-- A read of one word as memory holds it, by its check (R169, R170). -/
theorem readWord_checked (q : MemFaultReq) (a : Nat) (s : State) :
    ((s.mem.check a).1 = .correct → readWord q a s = (s, (s.mem.check a).2, false)) ∧
    ((s.mem.check a).1 = .corrected → readWord q a s =
      (addRewrite a (s.mem.check a).2 (reportFault .corrected q a (s.mem.syndrome a) s), (s.mem.check a).2, false)) ∧
    ((s.mem.check a).1 = .uncorrectable → readWord q a s =
      (reportFault .uncorrectable q a (s.mem.syndrome a) s, (s.mem.check a).2, true)) := by
  unfold readWord readWordOf
  rcases s.mem.check a with ⟨x, w⟩
  cases x <;> simp [Memory.sameAt]

/-- What a RESUME takes the word read as (R31). -/
def resumeAs (w : Word) (bad : Bool) : ResumeAction × Bool := if bad then (.cont, false) else resumeOfWord w

theorem resumeWordRead_eq {s t : State} {m : WindowMap} {k : Nat} {w : Word} {bad : Bool} (hm : s.win.map = some m)
    (hr : readWord .fetch (pageAddr m.save (offSlot k + 44)) s = (t, w, bad)) :
    resumeWordRead k s = if OutPoint.all.any (isFaulted t) then
        startRefresh { t with intr := { t.intr with item := some (.resume .refreshing (resumeAs w bad).1 (resumeAs w bad).2) } }
      else requestPop (resumeAs w bad).1 (resumeAs w bad).2 t := by
  simp only [resumeWordRead, hm, hr]; rfl

/-- The pop's two writes are asked for, the slot's word 0 as RESUMED (R161). -/
theorem requestPop_eq (act : ResumeAction) (held : Bool) (s : State) :
    requestPop act held s =
      let ws := (s.intr.images.getD (s.intr.depth - 1) []).modify 0 (fun w => withRecordState w 2)
      { s with
        port := s.port ++ [.slotWord0 s.intr.depth (ws.headD 0), .popHeader (s.intr.depth - 1)]
        intr := { s.intr with images := s.intr.images.take (s.intr.depth - 1) ++ [ws], item := some (.resume .popping act held) } } := by
  simp [requestPop, request, setWord]

/-- A refresh pass begins with the PING of its first module (R137). -/
theorem startRefresh_some {s : State} {o : OutPoint} {l : List OutPoint} (h : OutPoint.all.filter (isFaulted s) = o :: l) :
    startRefresh s = { s with act := { s.act with
      refresh := some { mods := o :: l }
      urgent := s.act.urgent ++ [{ module := o, kind := .ping, start := 0, count := 0, vals := [], built := true, req := .refresh }] } } := by
  simp only [startRefresh, h]; rfl

/-- The refresh pass or the pop that follows a resume word (R161), from the state its read has left. -/
theorem resumeWordRead_goesOn {s t : State} {m : WindowMap} {k : Nat} {w : Word} {bad : Bool} (hm : s.win.map = some m)
    (hr : readWord .fetch (pageAddr m.save (offSlot k + 44)) s = (t, w, bad)) (ht : OnlyReports s t) :
    ((∀ o ∈ OutPoint.all, isFaulted s o = false) → resumeWordRead k s = requestPop (resumeAs w bad).1 (resumeAs w bad).2 t) ∧
    (∀ o l, OutPoint.all.filter (isFaulted s) = o :: l → resumeWordRead k s = { t with
      act := { s.act with
        refresh := some { mods := o :: l }
        urgent := s.act.urgent ++ [{ module := o, kind := .ping, start := 0, count := 0, vals := [], built := true, req := .refresh }] }
      intr := { s.intr with item := some (.resume .refreshing (resumeAs w bad).1 (resumeAs w bad).2) } }) := by
  have hact : t.act = s.act := by rw [ht]
  have hintr : t.intr = s.intr := by rw [ht]
  have hfaulted : isFaulted t = isFaulted s := by funext o; simp [isFaulted, hact]
  rw [resumeWordRead_eq hm hr, hfaulted]
  refine ⟨fun hf => if_neg (by simpa using hf), fun o l hl => ?_⟩
  have hany : OutPoint.all.any (isFaulted s) = true := by
    obtain ⟨hmem, ho⟩ := List.mem_filter.mp (hl ▸ List.mem_cons_self : o ∈ OutPoint.all.filter (isFaulted s))
    exact List.any_eq_true.mpr ⟨o, hmem, ho⟩
  refine (if_pos hany).trans ((startRefresh_some (o := o) (l := l) ?_).trans ?_)
  · exact (congrArg (fun f => OutPoint.all.filter f) hfaulted).trans hl
  · simp only [hact, hintr]

/-- The fields of a resume word (R31); the unassigned action is CONTINUE. -/
theorem resumeOfWord_fields (w : Word) : (resumeOfWord w).2 = w.getLsbD 8 ∧ (field w 0 2 = 0 ∨ field w 0 2 = 3 → (resumeOfWord w).1 = .cont) ∧
    (field w 0 2 = 1 → (resumeOfWord w).1 = .retry) ∧ (field w 0 2 = 2 → (resumeOfWord w).1 = .abandon) := by
  refine ⟨?_, fun h => ?_, fun h => ?_, fun h => ?_⟩
  · exact field_bit w 8
  · rcases h with h | h <;> simp [resumeOfWord, h]
  · simp [resumeOfWord, h]
  · simp [resumeOfWord, h]

end Sys2Proof.Machine

section
open Sys2Proof Sys2Proof.Machine

/-- Settles O47: by the check of the word read, and by whether a module is FAULTED then. -/
theorem resumeReadsItsWordThenPops : Obligations.ResumeReadsItsWordThenPops := by
  refine ⟨fun s rest ha hf hw => ⟨fun hd => ?_, fun hd => ?_⟩, ?_, resumeOfWord_fields⟩
  · rw [exec_resumeTaken ha hf hw]
    exact congrArg settled (if_pos hd)
  · rw [exec_resumeTaken ha hf hw]
    exact congrArg settled (if_neg (Nat.ne_of_gt hd))
  · intro s m k ha hm hn hk a y x u ws goesOn
    obtain ⟨hcorrect, hcorrected, hbad⟩ := readWord_checked .fetch a u
    have hgo {t : State} {w : Word} {bad : Bool} {act : ResumeAction} {held : Bool} (hr : readWord .fetch a u = (t, w, bad))
        (ht : OnlyReports u t) (hact : resumeAs w bad = (act, held)) : goesOn act held t := by
      obtain ⟨hpop, hrefresh⟩ := resumeWordRead_goesOn (s := u) (k := k) hm hr ht
      have hintr : t.intr = s.intr := by rw [ht]; rfl
      rw [hact] at hpop hrefresh
      refine ⟨fun hf => ?_, fun o l hl => ?_⟩
      · rw [exec_resumeWordRead ha hn, hpop hf, requestPop_eq, hintr, ← hk]
      · rw [exec_resumeWordRead ha hn, hrefresh o l hl]
        rfl
    exact ⟨fun hx => hgo (hcorrect hx) (.refl u) rfl, fun hx => hgo (hcorrected hx) ((reportFault_only ..).trans (addRewrite_only ..)) rfl,
      fun hx => hgo (hbad hx) (reportFault_only ..) rfl⟩

end

/-! ### The end of the fetch -/

namespace Sys2Proof.Machine

theorem exec_maskRead {s : State} (ha : Awake s) (hn : NextIs s .fetchMasks) :
    exec .maskRead s = settled (masksFetched (granted s .fetchMasks)) :=
  rowEvent_nextIs ha hn rfl (by simp) _

theorem exec_profileRead {s : State} {k : Fin 8} (ha : Awake s) (hn : NextIs s (.fetchProf k)) :
    exec .profileRead s = settled (profileFetched k (granted s (.fetchProf k))) :=
  rowEvent_nextIs ha hn rfl rfl _

/-- A mask as its read gives it: every kind set where the word is uncorrectable (R26, R64). -/
def maskOf (n : Nat) (x : ReadCheck × Word) : Nat := if x.1 = .uncorrectable then 2 ^ n - 1 else field x.2 0 n

/-- Whether the batch is a recovery by ABANDON (R183). -/
def Batch.byAbandon (b : Batch) : Bool := match b.recovery with | some x => x.abandon | none => false

/-- The masks read, and profile 0 asked for (R64, R183). -/
theorem masksFetched_eq {s : State} {m : WindowMap} (hm : s.win.map = some m) :
    let t := (readBurst .fetch (pageAddr m.status 4) 2 s).1
    masksFetched s = { t with
      port := t.port ++ [.fetchProf 0]
      batch := { s.batch with
        refuse := if s.batch.byAbandon then 0 else BitVec.ofNat 9 (maskOf 9 (s.mem.check (pageAddr m.status 4)))
        stop := BitVec.ofNat 5 (maskOf 5 (s.mem.check (pageAddr m.status 8))) } } := by
  have hg := readBurst_gives .fetch 2 (pageAddr m.status 4) s
  have hb := (readBurst_leaves .fetch (pageAddr m.status 4) 2 s)
  rcases hr : readBurst .fetch (pageAddr m.status 4) 2 s with ⟨t, ws⟩
  rw [hr] at hg hb
  have hbatch : t.batch = s.batch := hb.2.2.2.2.2.2.1
  simp only [List.range_succ_eq_map, List.range_zero, List.map_cons, List.map_nil] at hg
  simp only [masksFetched, hm, hr, hg, hbatch, request, decide_eq_true_eq]
  rfl

/-- A recovery not by ABANDON, or none, leaves the refuse mask as read (R183). -/
theorem byAbandon_eq_false {b : Batch} (h : ∀ x, b.recovery = some x → x.abandon = false) : b.byAbandon = false := by
  unfold Batch.byAbandon
  cases hr : b.recovery with
  | none => rfl
  | some x => exact h x hr

theorem byAbandon_eq_true {b : Batch} {x : Recovery} (hr : b.recovery = some x) (h : x.abandon = true) : b.byAbandon = true := by
  simp [Batch.byAbandon, hr, h]

/-- What a profile read of the fetch leaves as its cache read does (R64). -/
theorem profileFetched_leaves (k : Fin 8) (s : State) : (profileFetched k s).profiles = (cacheProfile .fetch k s).profiles ∧
    (profileFetched k s).mem = (cacheProfile .fetch k s).mem ∧ (profileFetched k s).integ = (cacheProfile .fetch k s).integ := by
  unfold profileFetched fetchComplete
  dsimp only
  repeat' split
  all_goals simp

/-- The end of the fetch with a status page installed: the counters' write, then CHECKING's where the fetch has not run on while SUSPENDED
(R65, R67). -/
theorem fetchComplete_eq {s : State} (hm : s.win.map.isSome = true) :
    let c := { s.batch.counters with total := s.batch.list.length }
    let w : BatchWord := { st := .checking, seq := s.batch.seq }
    fetchComplete s = { s with
      port := s.port ++ [.counters c] ++ (if s.seqr.st = .fetching then [.batchState w] else [])
      seqr := if s.seqr.st = .fetching then { s.seqr with st := .checking, shown := w } else s.seqr
      batch := { s.batch with counters := c, work := .check, list := s.batch.list.map (fun b => { b with held := true }) }
      light := { s.light with restoreList := s.light.restoreList.filter (fun x => !s.batch.list.any (fun b => b.no = x.1)) } } := by
  by_cases h : s.seqr.st = .fetching <;>
    simp [fetchComplete, writeCounters, enterState, writeBatchState, requestStatus, hm, h, request]

/-- The fields of a profile (R28, Table 2-7). -/
theorem profile_ofWords_valid (w0 w1 w2 w3 : Word) :
    let p := Profile.ofWords w0 w1 w2 w3
    p.valid = true ↔ w0.getLsbD 31 = true ∧ p.start ≤ 250 ∧ 1 ≤ p.up ∧ p.up ≤ 50 ∧ 1 ≤ p.down ∧ p.down ≤ 50 ∧ 1 ≤ p.tol ∧ p.tol ≤ 20 := by
  simp only [Profile.ofWords, field_bit, Bool.and_eq_true, decide_eq_true_eq, and_assoc]

theorem pageAddr_eight (p : Page) : pageAddr p 8 = pageAddr p 4 + 4 := rfl

end Sys2Proof.Machine

section
open Sys2Proof Sys2Proof.Machine

/-- Settles O50: the masks, a profile, its format, and both reads without a word in error. -/
theorem masksAndProfilesEndTheFetch : Obligations.MasksAndProfilesEndTheFetch := by
  refine ⟨?_, ?_, ?_, ?_, ?_⟩
  · intro s m ha hm hn x mask
    have he := masksFetched_eq (s := granted s .fetchMasks) hm
    have hleaves := readBurst_leaves .fetch (pageAddr m.status 4) 2 (granted s .fetchMasks)
    have hrecord := readBurst_record .fetch 2 (pageAddr m.status 4) (granted s .fetchMasks)
    generalize readBurst .fetch (pageAddr m.status 4) 2 (granted s .fetchMasks) = b at he hleaves hrecord
    obtain ⟨hmem, _, _, _, _, hseqr, _, _, _, hprofiles, htable, _⟩ := hleaves
    refine ⟨_, (exec_maskRead ha hn).trans (congrArg settled he), rfl, fun hy => ?_, fun y hy hab => ?_, List.getLast?_concat, hseqr, hprofiles,
      htable, hmem, fun hx hk => (hrecord hk ?_).symm⟩
    · exact if_neg (by simp [show (granted s .fetchMasks).batch.byAbandon = false from byAbandon_eq_false hy])
    · exact if_pos (byAbandon_eq_true hy hab)
    · rcases hx with hx | hx
      · exact ⟨0, by omega, fun hc => by cases hc.symm.trans hx⟩
      · exact ⟨1, by omega, fun hc => by cases hc.symm.trans hx⟩
  · intro s m k ha hm hn x
    obtain ⟨hp, hmem, hinteg⟩ := profileFetched_leaves k (granted s (.fetchProf k))
    have hcache := cacheProfile_eq (s := granted s (.fetchProf k)) .fetch k hm
    refine ⟨_, exec_profileRead ha hn, fun j hj => ?_, ?_, fun hx => ?_, fun hx => ⟨?_, fun hk => ?_⟩⟩
    · rw [hp, hcache]
      exact Vector.getElem_set_ne k.isLt j.isLt (by omega)
    · rw [hmem, hcache]
      simp [granted, fresh]
    · rw [hp, hcache]
      exact (Vector.getElem_set_self k.isLt).trans (profileOf_burst_valid hx)
    · rw [hp, hcache]
      exact (congrArg Profile.valid (Vector.getElem_set_self k.isLt)).trans (profileOf_burst_invalid hx)
    · rw [hinteg, hcache]
      obtain ⟨i, hi, hu⟩ := hx
      exact (readBurst_record .fetch 4 _ (granted s (.fetchProf k)) hk ⟨i, hi, fun hc => by cases hc.symm.trans hu⟩).symm
  · exact fun w0 w1 w2 w3 => ⟨rfl, rfl, rfl, rfl, field_bit w1 8, rfl, rfl, rfl, rfl, profile_ofWords_valid w0 w1 w2 w3⟩
  · intro s m ha hm hn hc hy
    have hb : readBurst .fetch (pageAddr m.status 4) 2 (granted s .fetchMasks) = (granted s .fetchMasks, _) := readBurstOf_clean .fetch _ hc
    have he := masksFetched_eq (s := granted s .fetchMasks) hm
    have h4 := check_clean (hc 0 (by omega))
    have h8 := check_clean (hc 1 (by omega))
    have hab : (granted s .fetchMasks).batch.byAbandon = false := byAbandon_eq_false hy
    rw [hb, hab] at he
    rw [exec_maskRead ha hn, he]
    simp only [show (granted s .fetchMasks).mem = s.mem from rfl, pageAddr_eight, show s.mem.check (pageAddr m.status 4) = _ from h4,
      show s.mem.check (pageAddr m.status 4 + 4) = _ from h8, maskOf]
    rfl
  · intro s m k ha hm hn a hc profiles
    have he := exec_profileRead ha hn
    rw [profileFetched, cacheProfile_clean (s := granted s (.fetchProf k)) .fetch hm hc] at he
    refine ⟨fun hk => ?_, fun hk => ?_⟩
    · rw [he]; simp only [if_pos hk]; rfl
    · rw [he]; simp only [if_neg (show ¬ k.val < 7 by omega)]
      refine congrArg settled ((fetchComplete_eq ?_).trans ?_)
      · exact Option.isSome_of_eq_some hm
      · rfl

end

/-! ### A record's words (R22, Tables 2-2 and 2-3) -/

namespace Sys2Proof.Machine

theorem portOf_eq_some {g : Group} {n : Nat} {e : Endpoint} : portOf g n = some e ↔ ∃ k : Fin 12, n = k.val ∧ e = .port ⟨g, k⟩ := by
  unfold portOf
  constructor
  · intro h
    split at h
    · next hn => exact ⟨⟨n, hn⟩, rfl, (Option.some.inj h).symm⟩
    · cases h
  · rintro ⟨k, rfl, rfl⟩
    simp

/-- The endpoint codes (Table 2-3): 1 to 4 a degree, 17 to 28 and 33 to 44 a port. -/
theorem endpointOfCode_eq_some {c : Nat} {e : Endpoint} : endpointOfCode c = some e ↔
    (c, e) ∈ [(1, Endpoint.deg .d1), (2, .deg .d2), (3, .deg .d3), (4, .deg .d4)] ∨
      ∃ n : Fin 12, (c = 17 + n.val ∧ e = .port ⟨.g1, n⟩) ∨ (c = 33 + n.val ∧ e = .port ⟨.g2, n⟩) := by
  constructor
  · intro h
    unfold endpointOfCode at h
    split_ifs at h with h1 h2 h3 h4 h17 h29 h33
    · subst h1; cases h; simp
    · subst h2; cases h; simp
    · subst h3; cases h; simp
    · subst h4; cases h; simp
    · obtain ⟨k, hk, rfl⟩ := portOf_eq_some.mp h
      exact .inr ⟨k, .inl ⟨by omega, rfl⟩⟩
    · obtain ⟨k, hk, rfl⟩ := portOf_eq_some.mp h
      exact .inr ⟨k, .inr ⟨by omega, rfl⟩⟩
  · rintro (h | ⟨n, ⟨rfl, rfl⟩ | ⟨rfl, rfl⟩⟩)
    · simp only [List.mem_cons, Prod.mk.injEq, List.not_mem_nil, or_false] at h
      rcases h with ⟨rfl, rfl⟩ | ⟨rfl, rfl⟩ | ⟨rfl, rfl⟩ | ⟨rfl, rfl⟩ <;> rfl
    · have hn := n.isLt
      unfold endpointOfCode
      rw [if_neg (by omega), if_neg (by omega), if_neg (by omega), if_neg (by omega), if_neg (by omega), if_pos (by omega)]
      exact portOf_eq_some.mpr ⟨n, by omega, rfl⟩
    · have hn := n.isLt
      unfold endpointOfCode
      rw [if_neg (by omega), if_neg (by omega), if_neg (by omega), if_neg (by omega), if_neg (by omega), if_neg (by omega), if_neg (by omega)]
      exact portOf_eq_some.mpr ⟨n, by omega, rfl⟩

/-- A 16-bit field read as signed is the bits' two's complement value. -/
theorem signed16_field (w : Word) : signed16 (field w 16 16) = (w.extractLsb' 16 16).toInt := by
  have hf : field w 16 16 = (w.extractLsb' 16 16).toNat := by
    simp [field, BitVec.extractLsb'_toNat, Nat.shiftRight_eq_div_pow]
  have hlt := (w.extractLsb' 16 16).isLt
  rw [signed16, hf, BitVec.toInt_eq_toNat_cond]
  split <;> split <;> omega

/-- A byte that is at most 1 is 1 exactly where its lowest bit is set. -/
theorem field_byte_bit {w : Word} (h : field w 0 8 ≤ 1) : (field w 0 8 == 1) = w.getLsbD 0 := by
  rw [← field_bit w 0]
  have h1 : field w 0 1 = field w 0 8 := by unfold field at *; omega
  rw [h1]

/-- The format test of a connection's fields but for its endpoints (R22). -/
def GoodFields (ws : HostWords) : Prop :=
  field ws.w0 16 8 < 64 ∧ field ws.w1 8 8 < 8 ∧ -250 ≤ (ws.w1.extractLsb' 16 16).toInt ∧ (ws.w1.extractLsb' 16 16).toInt ≤ 50 ∧
    field ws.w1 0 8 ≤ 1 ∧ field ws.w2 16 16 = 0

theorem staged_empty {ws : HostWords} (h : field ws.w0 24 8 = 0) : Staged.ofWords ws = some .empty := if_pos h

theorem staged_unknown {ws : HostWords} (h : 1 < field ws.w0 24 8) : Staged.ofWords ws = none :=
  (if_neg (by omega)).trans (if_neg (by omega))

/-- A record of the kind CONNECTION is judged by its endpoints and its fields (R22). -/
theorem staged_conn {ws : HostWords} (h : field ws.w0 24 8 = 1) : Staged.ofWords ws =
    match endpointOfCode (field ws.w0 8 8), endpointOfCode (field ws.w0 0 8) with
    | some src, some dst =>
      let target := signed16 (field ws.w1 16 16)
      if hs : field ws.w0 16 8 < 64 then
        if hp : field ws.w1 8 8 < 8 then
          if -250 ≤ target ∧ target ≤ 50 ∧ field ws.w1 0 8 ≤ 1 ∧ field ws.w2 16 16 = 0 then
            some (.conn { slot := ⟨_, hs⟩, src := src, dst := dst, target := target, profile := ⟨_, hp⟩,
                          permit := field ws.w1 0 8 == 1, tag := BitVec.ofNat 16 (field ws.w2 0 16) })
          else none
        else none
      else none
    | _, _ => none :=
  (if_neg (by omega)).trans (if_pos h)

theorem staged_bad {ws : HostWords} (h : field ws.w0 24 8 = 1)
    (hb : endpointOfCode (field ws.w0 8 8) = none ∨ endpointOfCode (field ws.w0 0 8) = none ∨ ¬ GoodFields ws) : Staged.ofWords ws = none := by
  rw [staged_conn h]
  rcases hb with hb | hb | hb
  · rw [hb]
  · rw [hb]
    cases endpointOfCode (field ws.w0 8 8) <;> rfl
  · rw [GoodFields, ← signed16_field] at hb
    split
    · dsimp only
      split_ifs with hs hp hg
      · exact absurd ⟨hs, hp, hg⟩ hb
      all_goals rfl
    · rfl

theorem staged_good {ws : HostWords} {a b : Endpoint} (h : field ws.w0 24 8 = 1) (ha : endpointOfCode (field ws.w0 8 8) = some a)
    (hb : endpointOfCode (field ws.w0 0 8) = some b) (hg : GoodFields ws) : ∃ f : HostFields,
    Staged.ofWords ws = some (.conn f) ∧ f.slot.val = field ws.w0 16 8 ∧ f.src = a ∧ f.dst = b ∧ f.target = (ws.w1.extractLsb' 16 16).toInt ∧
    f.profile.val = field ws.w1 8 8 ∧ f.permit = ws.w1.getLsbD 0 ∧ f.tag = ws.w2.extractLsb' 0 16 := by
  obtain ⟨hs, hp, ht⟩ := hg
  rw [← signed16_field] at ht
  rw [staged_conn h, ha, hb]
  exact ⟨_, (dif_pos hs).trans ((dif_pos hp).trans (if_pos ht)), rfl, rfl, rfl, signed16_field ws.w1, rfl, field_byte_bit ht.2.2.1, ofNat_field ws.w2 0 16⟩

/-! ### Classifying and judging (R66 to R72) -/

theorem sameRoute_settled {f : HostFields} {p : Path} (h : p.st ≠ .discrepant) (h' : p.st ≠ .inFlight) :
    sameRoute f p = true ↔ p.slot = f.slot ∧ p.src = .of f.src ∧ p.dst = .of f.dst := by
  simp [sameRoute, h, h', and_assoc]

/-- The route of a path as read back (log 43). -/
theorem sameRoute_readBack {f : HostFields} {p : Path} {x : Input} (h : p.st = .discrepant ∨ p.st = .inFlight) (hx : p.readInput = some x) :
    sameRoute f p = true ↔ p.dst.out = Res.ofDst f.dst ∧ p.slot = f.slot ∧ x = (PathEnd.of f.src).input ∧ ∀ port, f.port = some port → port ∈ p.needs := by
  have hst : (decide (p.st = .discrepant) || decide (p.st = .inFlight)) = true := by simpa using h
  unfold sameRoute
  rw [if_pos hst, hx]
  cases f.port <;> simp [and_assoc]

/-- A record without a present path is a NO_CHANGE, an ADOPT or an ADD (R69). -/
theorem classify_none (s : State) (f : HostFields) :
    (s.table.foreignFor f = none → classify s (.conn f) none = .add) ∧
    (∀ q, s.table.foreignFor f = some q → classify s (.conn f) none = .adopt) := by
  constructor
  · intro h; simp [classify, h]
  · intro q h; simp [classify, h]

theorem classify_otherRoute {s : State} {f : HostFields} {p : Path} (h : sameRoute f p = false) : classify s (.conn f) (some p) = .move := by
  simp [classify, h]

/-- On the route it has, a record is classified by its path's state (R69). -/
theorem classify_sameRoute {s : State} {f : HostFields} {p : Path} (h : sameRoute f p = true) :
    (p.st = .live ∨ p.st = .offTarget → classify s (.conn f) (some p) = if sameTarget f p then .noChange else .retune) ∧
    (p.st = .squelched → classify s (.conn f) (some p) =
      if litSource s p.src then .restore else if sameTarget f p then .noChange else .retune) ∧
    (p.st = .discrepant → classify s (.conn f) (some p) = .retune) ∧
    (p.st = .inFlight → classify s (.conn f) (some p) = .complete) := by
  refine ⟨?_, ?_, ?_, ?_⟩
  · rintro (hst | hst) <;> simp [classify, h, hst]
  all_goals intro hst; simp [classify, h, hst]

/-- The profile test (R68): the profile named, and that of a path released by a ramp-down. -/
theorem profileFails_iff (s : State) (st : Staged) (k : Kind) (q : Path) :
    profileFails s st k (some q) = true ↔ (∃ g, st = .conn g ∧ (s.profiles[g.profile]).valid = false) ∨
      ((k = .remove ∨ k = .move) ∧ q.route = .source ∧ ∃ i, q.info = some i ∧ (s.profiles[i.profile]).valid = false) := by
  unfold profileFails profileValid
  rw [Bool.or_eq_true, Bool.and_eq_true]
  refine or_congr ?_ (and_congr (by simp) ?_)
  · cases st <;> simp
  · rw [Bool.and_eq_true, decide_eq_true_eq]
    refine and_congr_right fun _ => ?_
    cases q.info <;> simp

theorem profileFails_noPath (s : State) (f : HostFields) (k : Kind) :
    profileFails s (.conn f) k none = true ↔ (s.profiles[f.profile]).valid = false := by
  simp [profileFails, profileValid]

theorem verdict_range {s : State} {r : RecNo} {ws : HostWords} (h : Staged.ofWords ws = none) : verdictOf s r ws = .rej .range := by
  simp only [verdictOf, h]

theorem verdict_loopback {s : State} {r : RecNo} {ws : HostWords} {f : HostFields} (h : Staged.ofWords ws = some (.conn f)) (hl : loopback f = true) :
    verdictOf s r ws = .rej .loopback := by
  simp only [verdictOf, h, hl, if_true]

theorem verdict_profile {s : State} {r : RecNo} {ws : HostWords} {st : Staged} (h : Staged.ofWords ws = some st)
    (hl : ∀ f, st = .conn f → loopback f = false)
    (hp : profileFails s st (classify s st (presentPath r s)) (presentPath r s) = true) : verdictOf s r ws = .rej .profile := by
  cases st with
  | empty => simp [verdictOf, h, hp]
  | conn f => simp [verdictOf, h, hl f rfl, hp]

/-- A record with its words read takes its verdict, and one that passes leaves its mark on its present path (R66, R70, R72). -/
theorem judge_read {s : State} {b : BatchRec} {ws : HostWords} (h : b.copy = some ws) :
    (∀ c, verdictOf s b.no ws = .rej c → judge b s = setVerdict b.no (verdictOf s b.no ws) s) ∧
    (∀ k, verdictOf s b.no ws = .kind k → presentPath b.no s = none → judge b s = setVerdict b.no (verdictOf s b.no ws) s) ∧
    (∀ k p st, verdictOf s b.no ws = .kind k → presentPath b.no s = some p → Staged.ofWords ws = some st →
      judge b s = setVerdict b.no (verdictOf s b.no ws) (updatePath p.pid (fun q => q.judged k st) s)) := by
  refine ⟨fun c hv => ?_, fun k hv hp => ?_, fun k p st hv hp hst => ?_⟩
  · simp only [judge, h, hv]
  · simp only [judge, h, hv, hp]
    cases Staged.ofWords ws <;> rfl
  · simp only [judge, h, hv, hp, hst]

theorem updatePath_id (pid : Nat) (s : State) : updatePath pid (fun q => q) s = s := by
  simp [updatePath, ConnTable.update]

/-! ### The claiming pass (R36, R48, R73) -/

theorem claimRound_reserved {b : BatchRec} {rest : List BatchRec} {t u : ConnTable} {l : List (RecNo × RejCode)} {f : HostFields}
    (hf : b.conn = some f) (hr : t.reserve b.no .new f = .ok u) (hv : b.verdict = .kind .add ∨ b.verdict = .kind .move) :
    claimRound (b :: rest) t l = claimRound rest u l := by
  rcases hv with hv | hv <;> simp only [claimRound, hv, hf, hr]

theorem claimRound_refused {b : BatchRec} {rest : List BatchRec} {t : ConnTable} {l : List (RecNo × RejCode)} {f : HostFields} {c : RejCode}
    (hf : b.conn = some f) (hr : t.reserve b.no .new f = .error c) :
    (b.verdict = .kind .add → claimRound (b :: rest) t l = claimRound rest t (l ++ [(b.no, c)])) ∧
    (b.verdict = .kind .move → claimRound (b :: rest) t l = .moveRefused b.no c) := by
  constructor <;> intro hv <;> simp only [claimRound, hv, hf, hr]

/-- An adoption claims its foreign path unless another record has claimed it or its port is owned (R48). -/
theorem claimRound_adopt {b : BatchRec} {rest : List BatchRec} {t : ConnTable} {l : List (RecNo × RejCode)} {f : HostFields} {p : Path}
    (hf : b.conn = some f) (hv : b.verdict = .kind .adopt) (hp : t.foreignFor f = some p) :
    (p.claimed ≠ none → claimRound (b :: rest) t l = claimRound rest t (l ++ [(b.no, .slotBusy)])) ∧
    (p.claimed = none → (∀ u, t.adopt b.no p.pid f = .ok u → claimRound (b :: rest) t l = claimRound rest u l) ∧
      (∀ c, t.adopt b.no p.pid f = .error c → claimRound (b :: rest) t l = claimRound rest t (l ++ [(b.no, c)]))) := by
  refine ⟨fun h => ?_, fun h => ⟨fun u hu => ?_, fun c hc => ?_⟩⟩
  · simp [claimRound, hv, hf, hp, Option.isSome_iff_ne_none, h]
  · simp [claimRound, hv, hf, hp, h, hu]
  · simp [claimRound, hv, hf, hp, h, hc]

theorem adopt_portBusy {t : ConnTable} {f : HostFields} {x : Res} (hx : f.port = some x) (h : t.entry x ≠ none) (r : RecNo) (pid : Nat) :
    t.adopt r pid f = .error .portBusy := by
  obtain ⟨o, ho⟩ := Option.ne_none_iff_exists'.mp h
  simp only [ConnTable.adopt, hx, ho]

/-- An entry that joins the occupancy list is found where none was. -/
theorem entry_append {t : ConnTable} {o : Occ} (h : t.entry o.res = none) (paths : List Path) :
    ConnTable.entry { t with paths := paths, occ := t.occ ++ [o] } o.res = some o := by
  have hn : t.occ.find? (fun y => y.res = o.res) = none := h
  simp [ConnTable.entry, List.find?_append, hn]

theorem adopt_takes {t : ConnTable} {f : HostFields} {x : Res} (hx : f.port = some x) (h : t.entry x = none) (r : RecNo) (pid : Nat) :
    ∃ u, t.adopt r pid f = .ok u ∧ u.entry x = some { res := x, owner := pid, pledge := none } ∧ ∀ q ∈ u.paths, q.pid = pid → q.claimed = some r := by
  simp only [ConnTable.adopt, hx, h]
  refine ⟨_, rfl, entry_append (o := { res := x, owner := pid, pledge := none }) h _, fun q hq hpid => ?_⟩
  obtain ⟨p, hp, rfl⟩ := List.mem_map.mp hq
  by_cases hpp : p.pid = pid
  · rw [if_pos hpp]
  · rw [if_neg hpp] at hpid
    exact absurd hpid hpp

theorem claimRounds_final {s : State} {n : Nat} {t : ConnTable} {l : List (RecNo × RejCode)} (h : claimRound s.batch.list s.table [] = .final t l) :
    claimRounds (n + 1) s = l.foldl (fun s x => setVerdict x.1 (.rej x.2) s) { s with table := t } := by
  simp only [claimRounds, h]

theorem claimRounds_moveRefused {s : State} {n : Nat} {r : RecNo} {c : RejCode} (h : claimRound s.batch.list s.table [] = .moveRefused r c) :
    claimRounds (n + 1) s = claimRounds n (setVerdict r (.rej c) (unmarkLeaving r s)) := by
  simp only [claimRounds, h]

/-! ### Where the check goes on (R66, R67, R74, R75) -/

/-- A batch in its check, outside POWERDOWN. -/
def InCheck (s : State) : Prop := s.batch.present = true ∧ s.batch.ending = false ∧ s.batch.work = .check ∧ s.start.powerdown = false

theorem continueCheck_eq {s : State} (h : InCheck s) : continueCheck s =
    match s.batch.list.find? (fun b => b.verdict = .unjudged) with
    | some b => if s.light.begun.any (fun x => x.no = b.no) then none else some (judge b s)
    | none =>
      let t := claimRounds 257 s
      let refused := t.batch.list.any (fun b => match b.verdict with | .rej c => t.batch.refuse.getLsbD c.idx | _ => false)
      some (if refused then refuseBatch t else acceptBatch t) := by
  obtain ⟨hp, he, hw, hd⟩ := h
  exact if_neg (by simp [hp, he, hw, hd])

/-- Whether a code of a list's verdicts is in the refuse mask (R74). -/
theorem anyRefused_iff (t : State) :
    t.batch.list.any (fun b => match b.verdict with | .rej c => t.batch.refuse.getLsbD c.idx | _ => false) = true ↔
      ∃ b ∈ t.batch.list, ∃ c, b.verdict = .rej c ∧ t.batch.refuse.getLsbD c.idx = true := by
  rw [List.any_eq_true]
  refine exists_congr fun b => and_congr_right fun _ => ?_
  cases b.verdict <;> simp

theorem continueCheck_ends {s : State} (h : InCheck s) (hj : ∀ b ∈ s.batch.list, b.verdict ≠ .unjudged) :
    let t := claimRounds 257 s
    ((∃ b ∈ t.batch.list, ∃ c, b.verdict = .rej c ∧ t.batch.refuse.getLsbD c.idx = true) → continueCheck s = some (refuseBatch t)) ∧
    (¬ (∃ b ∈ t.batch.list, ∃ c, b.verdict = .rej c ∧ t.batch.refuse.getLsbD c.idx = true) → continueCheck s = some (acceptBatch t)) := by
  have hn : s.batch.list.find? (fun b => b.verdict = .unjudged) = none := by simpa using hj
  intro t
  rw [continueCheck_eq h, hn]
  exact ⟨fun hr => congrArg some (if_pos ((anyRefused_iff t).mpr hr)), fun hr => congrArg some (if_neg (fun h => hr ((anyRefused_iff t).mp h)))⟩

end Sys2Proof.Machine

/-! ### Outcomes asked for at the check's end (R74, R75) -/

namespace Sys2Proof.Machine

/-- What asking for outcomes changes: the arbiter's list, at its tail, and the counters (R23, R27). -/
def AsksOutcomes (s t : State) : Prop :=
  t = { s with port := t.port, batch := { s.batch with counters := t.batch.counters } } ∧ s.port <+: t.port

theorem AsksOutcomes.refl (s : State) : AsksOutcomes s s := ⟨rfl, List.prefix_refl _⟩

theorem AsksOutcomes.trans {s t u : State} (h : AsksOutcomes s t) (k : AsksOutcomes t u) : AsksOutcomes s u := by
  refine ⟨?_, h.2.trans k.2⟩
  rw [k.1, h.1]

theorem AsksOutcomes.foldl {f : State → BatchRec → State} (h : ∀ s b, AsksOutcomes s (f s b)) (l : List BatchRec) (s : State) :
    AsksOutcomes s (l.foldl f s) := by
  induction l generalizing s with
  | nil => exact .refl s
  | cons b l ih => exact (h s b).trans (ih _)

/-- What is asked for at one record of the list is still asked for at its end. -/
theorem AsksOutcomes.foldl_asks {f : State → BatchRec → State} (h : ∀ s b, AsksOutcomes s (f s b)) {l : List BatchRec} {b : BatchRec} (hb : b ∈ l)
    (s : State) : ∃ t, AsksOutcomes s t ∧ (f t b).port ⊆ (l.foldl f s).port := by
  induction l generalizing s with
  | nil => cases hb
  | cons a l ih =>
    rcases List.mem_cons.mp hb with rfl | hb
    · exact ⟨s, .refl s, (AsksOutcomes.foldl h l _).2.subset⟩
    · obtain ⟨t, ht, hp⟩ := ih hb (f s a)
      exact ⟨t, (h s a).trans ht, hp⟩

theorem requestStatus_asks (r : PortReq) (s : State) : AsksOutcomes s (requestStatus r s) := by
  unfold requestStatus
  split
  · exact ⟨rfl, List.prefix_append _ _⟩
  · exact .refl s

theorem writeOutcome_asks (r : RecNo) (c : OutcomeCode) (s : State) : AsksOutcomes s (writeOutcome r c s) := by
  have hcount (k : Counters) (t : State) : AsksOutcomes t (writeCounters k t) :=
    AsksOutcomes.trans (t := { t with batch := { t.batch with counters := k } }) ⟨rfl, List.prefix_refl _⟩ (requestStatus_asks _ _)
  exact (requestStatus_asks _ s).trans (hcount _ _)

/-- With a status page installed, an outcome is asked for by its code, but in a recovery by ABANDON (R23, R183). -/
theorem mem_writeOutcome {r : RecNo} {c : OutcomeCode} {s : State} (hm : s.win.map.isSome = true) (ha : s.batch.byAbandon = false) :
    PortReq.outcome r c s.batch.seq ∈ (writeOutcome r c s).port := by
  have hc : (match s.batch.recovery with | some { abandon := true, toHeld := _ } => OutcomeCode.abandoned | _ => c) = c := by
    unfold Batch.byAbandon at ha
    split
    · next h => rw [h] at ha; cases ha
    · rfl
  have hasked : PortReq.outcome r c s.batch.seq ∈ (requestStatus (.outcome r c s.batch.seq) s).port := by
    simp [hm]
  unfold writeOutcome writeCounters
  simp only
  split
  · next h => simp [Batch.byAbandon, h] at ha
  · exact (requestStatus_asks _ { requestStatus (.outcome r c s.batch.seq) s with batch := _ }).2.subset hasked

/-! ### A refused batch (R74) -/

/-- The outcome of a record of a refused batch (R74). -/
def refusedOutcome (mask : BitVec 9) : Verdict → OutcomeCode
  | .rej c => if mask.getLsbD c.idx then .rej c else .notRun
  | _ => .notRun

theorem foldl_touch_eq (l : List BatchRec) (s : State) : l.foldl (fun s b => touch b.no s) s =
    { s with touched := l.foldl (fun x b => joinSet b.no x) s.touched } := by
  induction l generalizing s with
  | nil => rfl
  | cons b l ih => rw [List.foldl_cons, ih]; rfl

theorem mem_foldl_joinSet (l : List BatchRec) (x : List RecNo) (r : RecNo) :
    r ∈ l.foldl (fun x b => joinSet b.no x) x ↔ r ∈ x ∨ ∃ b ∈ l, b.no = r := by
  induction l generalizing x with
  | nil => simp
  | cons b l ih =>
    rw [List.foldl_cons, ih, mem_joinSet]
    simp only [List.mem_cons, exists_eq_or_imp, eq_comm (a := r)]
    tauto

/-- The claims are undone and the records touched again, then the outcomes and the end state are asked for (R74). -/
theorem refuseBatch_eq {s : State} (h : s.batch.recovery = none) : refuseBatch s =
    endBatch .refused (s.batch.list.foldl (fun t b => writeOutcome b.no (refusedOutcome s.batch.refuse b.verdict) t)
      { s with table := s.table.undo, touched := s.batch.list.foldl (fun x b => joinSet b.no x) s.touched }) := by
  have hr : returnTouched { s with table := s.table.undo } =
      { s with table := s.table.undo, touched := s.batch.list.foldl (fun x b => joinSet b.no x) s.touched } := by
    simp only [returnTouched, h]
    exact foldl_touch_eq _ _
  unfold refuseBatch
  rw [hr]
  refine congrArg (endBatch .refused) (congrArg (fun f => s.batch.list.foldl f _) ?_)
  funext t b
  refine congrArg (fun c => writeOutcome b.no c t) ?_
  unfold refusedOutcome
  cases hv : b.verdict <;> simp only [hv]

theorem endBatch_port (w : BatchWordState) (s : State) : (endBatch w s).port = s.port ++ [.endState { st := w, seq := s.batch.seq }] := rfl

/-- What a refused batch leaves (R74). -/
theorem refuseBatch_fields {s : State} (h : s.batch.recovery = none) :
    (refuseBatch s).table = s.table.undo ∧ (refuseBatch s).batch.ending = true ∧
    (∀ r, r ∈ (refuseBatch s).touched ↔ r ∈ s.touched ∨ ∃ b ∈ s.batch.list, b.no = r) ∧
    (refuseBatch s).port.getLast? = some (.endState { st := .refused, seq := s.batch.seq }) ∧
    (s.win.map.isSome = true → ∀ b ∈ s.batch.list,
      PortReq.outcome b.no (refusedOutcome s.batch.refuse b.verdict) s.batch.seq ∈ (refuseBatch s).port) := by
  have hasks (t : State) (b : BatchRec) : AsksOutcomes t (writeOutcome b.no (refusedOutcome s.batch.refuse b.verdict) t) := writeOutcome_asks _ _ t
  obtain ⟨hall, _⟩ := AsksOutcomes.foldl hasks s.batch.list
    { s with table := s.table.undo, touched := s.batch.list.foldl (fun x b => joinSet b.no x) s.touched }
  rw [refuseBatch_eq h]
  refine ⟨?_, rfl, fun r => ?_, ?_, fun hm b hb => ?_⟩
  · rw [(endBatch_leaves _ _).2.2.2.2.2.2.2.2.1, hall]
  · rw [(endBatch_leaves _ _).2.2.2.2.2.1, hall]
    exact mem_foldl_joinSet _ _ r
  · rw [endBatch_port, List.getLast?_concat, hall]
  · obtain ⟨t, ⟨ht, _⟩, hp⟩ := AsksOutcomes.foldl_asks hasks hb
      { s with table := s.table.undo, touched := s.batch.list.foldl (fun x b => joinSet b.no x) s.touched }
    have hseq : t.batch.seq = s.batch.seq := by rw [ht]
    have hwin : t.win.map.isSome = true := by rw [ht]; exact hm
    have hab : t.batch.byAbandon = false := by rw [ht]; simp [Batch.byAbandon, h]
    have hmem := mem_writeOutcome (r := b.no) (c := refusedOutcome s.batch.refuse b.verdict) hwin hab
    rw [hseq] at hmem
    exact List.mem_append_left _ (hp hmem)

/-! ### An accepted batch (R75 to R78) -/

/-- A RETUNE or a RESTORE takes the record's tag and permit into its path (R70). -/
theorem acceptRecord_tag {s : State} {b : BatchRec} {f : HostFields} {p : Path} (hv : b.verdict = .kind .retune ∨ b.verdict = .kind .restore)
    (hf : b.conn = some f) (hp : presentPath b.no s = some p) : acceptRecord b s = takeTag p.pid f s := by
  rcases hv with hv | hv <;> simp only [acceptRecord, hv, hf, hp]

/-- A NO_CHANGE takes the tag and is fixed from its path (R70, R75). -/
theorem acceptRecord_noChange {s : State} {b : BatchRec} {f : HostFields} {p q : Path} {d : DoneState} (hv : b.verdict = .kind .noChange)
    (hf : b.conn = some f) (hp : presentPath b.no s = some p) (hd : p.st.done = some d) (hq : (takeTag p.pid f s).path? p.pid = some q) :
    acceptRecord b s = fixCompleted b.no (q.completed s.win.cfg d) (takeTag p.pid f s) := by
  simp only [acceptRecord, hv, hf, hp, hd, hq]
  rfl

/-- A NO_CHANGE without a path is fixed EMPTY where it was LOST (R75). -/
theorem acceptRecord_noPath {s : State} {b : BatchRec} (hv : b.verdict = .kind .noChange) (hp : presentPath b.no s = none) :
    acceptRecord b s = if s.completed b.no = .lost then fixCompleted b.no .empty s else s := by
  simp only [acceptRecord, hv, hp]

theorem acceptRecord_other {s : State} {b : BatchRec} (h : ∀ k ∈ [Kind.retune, .restore, .noChange], b.verdict ≠ .kind k) : acceptRecord b s = s := by
  cases hv : b.verdict with
  | kind k =>
    cases k with
    | retune | restore | noChange => exact absurd hv (h _ (by simp))
    | remove | adopt | add | move | complete => simp only [acceptRecord, hv]
  | _ => simp only [acceptRecord, hv]

/-- What taking tags and fixes changes: the table, the hold set and the arbiter's list, at its tail (R75). -/
def AcceptsRecords (s t : State) : Prop :=
  t = { s with table := t.table, holds := t.holds, port := t.port } ∧ s.port <+: t.port

theorem AcceptsRecords.refl (s : State) : AcceptsRecords s s := ⟨rfl, List.prefix_refl _⟩

theorem AcceptsRecords.trans {s t u : State} (h : AcceptsRecords s t) (k : AcceptsRecords t u) : AcceptsRecords s u := by
  refine ⟨?_, h.2.trans k.2⟩
  rw [k.1, h.1]

theorem takeTag_accepts (pid : Nat) (f : HostFields) (s : State) : AcceptsRecords s (takeTag pid f s) := ⟨rfl, List.prefix_refl _⟩

theorem activeDue_accepts (r : RecNo) (s : State) : AcceptsRecords s (activeDue r s) := by
  unfold activeDue request
  simp only
  split <;> split <;> exact ⟨rfl, by simp [setCompleted]⟩

theorem fixCompleted_accepts (r : RecNo) (c : Completed) (s : State) : AcceptsRecords s (fixCompleted r c s) :=
  AcceptsRecords.trans (t := setCompleted r c s) ⟨rfl, List.prefix_refl _⟩ (activeDue_accepts _ _)

theorem acceptRecord_accepts (b : BatchRec) (s : State) : AcceptsRecords s (acceptRecord b s) := by
  unfold acceptRecord
  split
  · split
    · exact takeTag_accepts _ _ _
    · exact .refl s
  · split
    · exact takeTag_accepts _ _ _
    · exact .refl s
  · split
    · have htag (p : Path) : AcceptsRecords s (match b.conn with | some f => takeTag p.pid f s | none => s) := by
        split
        · exact takeTag_accepts _ _ _
        · exact .refl s
      dsimp only
      split
      · exact (htag _).trans (fixCompleted_accepts _ _ _)
      · exact htag _
    · split
      · exact fixCompleted_accepts _ _ _
      · exact .refl s
  · exact .refl s

theorem foldl_acceptRecord_accepts (l : List BatchRec) (s : State) : AcceptsRecords s (l.foldl (fun t b => acceptRecord b t) s) := by
  induction l generalizing s with
  | nil => exact .refl s
  | cons b l ih => exact (acceptRecord_accepts b s).trans (ih _)

theorem reportAtCheck_asks (s : State) (b : BatchRec) : AsksOutcomes s (reportAtCheck s b) := by
  unfold reportAtCheck
  split
  · exact writeOutcome_asks _ _ _
  · exact writeOutcome_asks _ _ _
  · exact .refl s

/-- The run state an accepted batch enters (R76, R183). -/
def runBegun (s : State) : State :=
  if s.intr.depth = 0 then
    match s.batch.recovery with
    | some { abandon := _, toHeld := true } => enterState .holding .holding s
    | _ => enterRunning s
  else enterState .suspended .suspended s

theorem acceptBatch_eq (s : State) : acceptBatch s =
    let u := s.batch.list.foldl (fun t b => acceptRecord b t) s
    let v := u.batch.list.foldl reportAtCheck { u with queue := u.batch.list.filterMap (entryOf u) }
    runBegun { v with batch := { v.batch with work := .run } } := by
  unfold acceptBatch runBegun
  rfl

theorem enterState_port_prefix (st : SeqState) (w : BatchWordState) (s : State) : s.port <+: (enterState st w s).port := by
  simp only [enterState, writeBatchState, requestStatus_port]
  split
  · exact List.prefix_append _ _
  · exact List.prefix_refl _

/-- The state entered, and what entering it leaves alone (R76, R183; log 48). -/
theorem runBegun_fields (s : State) : (runBegun s).queue = s.queue ∧ (runBegun s).table = s.table ∧ (runBegun s).holds = s.holds ∧
    s.port <+: (runBegun s).port ∧ (runBegun s).batch.work = s.batch.work ∧
    (0 < s.intr.depth → (runBegun s).seqr.st = .suspended) ∧
    (s.intr.depth = 0 → (∀ x, s.batch.recovery = some x → x.toHeld = false) →
      (runBegun s).seqr.st = .running ∧ (runBegun s).batch.phase = max 1 s.batch.phase) ∧
    (∀ x, s.intr.depth = 0 → s.batch.recovery = some x → x.toHeld = true →
      (runBegun s).seqr.st = .holding ∧ (runBegun s).batch.phase = s.batch.phase) := by
  unfold runBegun
  split
  · next hd =>
    split
    · next hr =>
      refine ⟨by simp, by simp, by simp, enterState_port_prefix .., by simp, fun h => by omega, fun _ h => ?_, fun _ _ _ _ => by simp⟩
      cases h _ hr
    · next hr =>
      refine ⟨by simp [enterRunning], by simp [enterRunning], by simp [enterRunning], enterState_port_prefix (s := { s with batch := { s.batch with phase := max 1 s.batch.phase } }) .running .running, by simp [enterRunning],
        fun h => by omega, fun _ _ => by simp [enterRunning], fun x _ hx hh => ?_⟩
      exact absurd (hx.trans (congrArg some (show x = { abandon := x.abandon, toHeld := true } by rw [← hh]))) (hr x.abandon)
  · next hd =>
    exact ⟨by simp, by simp, by simp, enterState_port_prefix .., by simp, fun _ => by simp, fun h => absurd h hd, fun _ h => absurd h hd⟩

/-- The entry of an accepted record waits, without a code (R78). -/
theorem entryOf_waiting {s : State} {b : BatchRec} {e : Entry} (h : entryOf s b = some e) : e.st = .waiting ∧ e.fail = none := by
  unfold entryOf at h
  dsimp only at h
  split at h <;> cases h <;> exact ⟨rfl, rfl⟩

/-- The record of an accepted record's entry; a NO_CHANGE and a rejected record have none (R75). -/
def entryNo (b : BatchRec) : Option RecNo :=
  match b.verdict with
  | .kind .noChange => none
  | .kind _ => some b.no
  | _ => none

theorem entryOf_map_no (s : State) (b : BatchRec) : (entryOf s b).map (·.no) = entryNo b := by
  unfold entryOf entryNo
  cases b.verdict with
  | kind k => cases k <;> rfl
  | _ => rfl

/-- An accepted batch, as its records leave the table and as its list gives the queue (R75 to R78). -/
theorem acceptBatch_fields (s : State) :
    let u := s.batch.list.foldl (fun t b => acceptRecord b t) s
    let t := acceptBatch s
    (t.queue = s.batch.list.filterMap (entryOf u) ∧ t.table = u.table ∧ t.holds = u.holds ∧ u.port <+: t.port) ∧ t.batch.work = .run ∧
    (0 < s.intr.depth → t.seqr.st = .suspended) ∧
    (s.intr.depth = 0 → (∀ x, s.batch.recovery = some x → x.toHeld = false) → t.seqr.st = .running ∧ t.batch.phase = max 1 s.batch.phase) ∧
    (∀ x, s.intr.depth = 0 → s.batch.recovery = some x → x.toHeld = true → t.seqr.st = .holding ∧ t.batch.phase = s.batch.phase) ∧
    (s.win.map.isSome = true → s.batch.byAbandon = false → ∀ b ∈ s.batch.list,
      (∀ c, b.verdict = .rej c → PortReq.outcome b.no (.rej c) s.batch.seq ∈ t.port) ∧
      (b.verdict = .kind .noChange → PortReq.outcome b.no .noChange s.batch.seq ∈ t.port)) := by
  intro u t
  have hu : AcceptsRecords s u := foldl_acceptRecord_accepts s.batch.list s
  have hlist : u.batch.list = s.batch.list := by rw [hu.1]
  have ht : t = _ := acceptBatch_eq s
  obtain ⟨hv, hport⟩ := AsksOutcomes.foldl reportAtCheck_asks u.batch.list { u with queue := u.batch.list.filterMap (entryOf u) }
  have hasked (b : BatchRec) (hb : b ∈ u.batch.list) :=
    AsksOutcomes.foldl_asks reportAtCheck_asks hb { u with queue := u.batch.list.filterMap (entryOf u) }
  dsimp only at ht
  generalize u.batch.list.foldl reportAtCheck { u with queue := u.batch.list.filterMap (entryOf u) } = v at ht hv hport hasked
  rw [hlist] at hv hasked
  have hfields := runBegun_fields { v with batch := { v.batch with work := .run } }
  rw [← ht] at hfields
  obtain ⟨hqueue, htable, hholds, hprefix, hwork, hsuspended, hrunning, hholding⟩ := hfields
  have hdepth : v.intr.depth = s.intr.depth := by rw [hv, hu.1]
  have hrecovery : v.batch.recovery = s.batch.recovery := by rw [hv, hu.1]
  have hphase : v.batch.phase = s.batch.phase := by rw [hv, hu.1]
  simp only [hdepth, hrecovery, hphase] at hsuspended hrunning hholding
  refine ⟨⟨hqueue.trans (by rw [hv]), htable.trans (by rw [hv]), hholds.trans (by rw [hv]), hport.trans hprefix⟩, hwork, hsuspended, hrunning,
    hholding, fun hm hab b hb => ?_⟩
  obtain ⟨x, ⟨hx, _⟩, hp⟩ := hasked b hb
  have hwin : x.win.map.isSome = true := by rw [hx, hu.1]; exact hm
  have habx : x.batch.byAbandon = false := by rw [hx, hu.1]; exact hab
  have hseq : x.batch.seq = s.batch.seq := by rw [hx, hu.1]
  have hout (c : OutcomeCode) (hr : reportAtCheck x b = writeOutcome b.no c x) : PortReq.outcome b.no c s.batch.seq ∈ t.port := by
    have hmem := mem_writeOutcome (r := b.no) (c := c) hwin habx
    rw [hseq, ← hr] at hmem
    exact hprefix.subset (hp hmem)
  exact ⟨fun c hc => hout _ (by simp only [reportAtCheck, hc]), fun hc => hout _ (by simp only [reportAtCheck, hc])⟩

end Sys2Proof.Machine

/-! ### Reservations (R34 to R36) -/

namespace Sys2Proof.Machine

theorem isLeaving_iff (t : ConnTable) (pid : Nat) : t.isLeaving pid = true ↔ ∃ p, t.path? pid = some p ∧ p.leaving = true := by
  unfold ConnTable.isLeaving
  cases t.path? pid <;> simp

theorem conflicts_iff (t : ConnTable) (x : Res) : t.conflicts x = true ↔
    ∃ o, t.entry x = some o ∧ (o.pledge ≠ none ∨ ¬ ∃ p, t.path? o.owner = some p ∧ p.leaving = true) := by
  unfold ConnTable.conflicts
  cases t.entry x with
  | none => simp
  | some o => simp [← isLeaving_iff, Option.isSome_iff_ne_none, or_comm]

/-- The table of R34, row by row. -/
theorem needs_rows (p : Path) :
    (∀ a b, p.src = .deg a → p.dst = .deg b → p.needs = [.out (.deg b) p.slot, .inp a p.slot]) ∧
    (∀ a b, p.src = .port a → p.dst = .deg b → p.needs = [.out (.deg b) p.slot, .addSlot a.group p.slot, .addPort a]) ∧
    (∀ a b, p.src = .deg a → p.dst = .port b → p.needs = [.out (.grp b.group) p.slot, .inp a p.slot, .dropSlot b.group p.slot, .dropPort b]) ∧
    (∀ a b, p.src = .grp a → p.dst = .deg b → p.needs = [.out (.deg b) p.slot, .addSlot a p.slot]) ∧
    (∀ a b, p.src = .deg a → p.dst = .grp b → p.needs = [.out (.grp b) p.slot, .inp a p.slot, .dropSlot b p.slot]) := by
  refine ⟨?_, ?_, ?_, ?_, ?_⟩ <;> intro a b hs hd <;> rw [Path.needs, hs, hd] <;> rfl

/-- No entry is needed twice. -/
theorem needs_nodup (p : Path) : p.needs.Nodup := by
  unfold Path.needs resources
  cases p.src <;> cases p.dst <;> simp

theorem entry_res {t : ConnTable} {x : Res} {o : Occ} (h : t.entry x = some o) : o.res = x := by
  simpa using List.find?_some h

/-- An entry taken for a path (R36): a free one is owned, an owned one takes the pledge. -/
def taken (pid : Nat) (x : Res) : Option Occ → Occ
  | none => { res := x, owner := pid, pledge := none }
  | some o => { o with pledge := some pid }

/-- The table with one entry taken for a path. -/
def ConnTable.takeOne (t : ConnTable) (pid : Nat) (r : Res) : ConnTable :=
  match t.entry r with
  | none => { t with occ := t.occ ++ [{ res := r, owner := pid, pledge := none }] }
  | some _ => { t with occ := t.occ.map (fun o => if o.res = r then { o with pledge := some pid } else o) }

theorem takeAll_cons (t : ConnTable) (pid : Nat) (r : Res) (l : List Res) : t.takeAll pid (r :: l) = (t.takeOne pid r).takeAll pid l := by
  cases h : t.entry r <;> simp only [ConnTable.takeOne, ConnTable.takeAll, h]

theorem takeOne_paths (t : ConnTable) (pid : Nat) (r : Res) : (t.takeOne pid r).paths = t.paths := by
  unfold ConnTable.takeOne
  split <;> rfl

theorem takeOne_entry (t : ConnTable) (pid : Nat) (r x : Res) :
    (t.takeOne pid r).entry x = if x = r then some (taken pid r (t.entry r)) else t.entry x := by
  unfold ConnTable.takeOne
  cases hr : t.entry r with
  | none =>
    by_cases hx : x = r
    · subst hx
      rw [if_pos rfl]
      exact entry_append (o := { res := x, owner := pid, pledge := none }) hr t.paths
    · rw [if_neg hx]
      simp [ConnTable.entry, List.find?_append, Ne.symm hx]
  | some o =>
    have hf : (fun o : Occ => decide (o.res = x)) ∘ (fun o => if o.res = r then { o with pledge := some pid } else o) = fun o => decide (o.res = x) := by
      funext y
      simp only [Function.comp_apply]
      split <;> rfl
    simp only [ConnTable.entry, List.find?_map, hf]
    by_cases hx : x = r
    · subst hx
      have ho : t.occ.find? (fun y => y.res = x) = some o := hr
      simp [ho, entry_res hr, taken]
    · rw [if_neg hx]
      cases hy : t.occ.find? (fun y => decide (y.res = x)) with
      | none => rfl
      | some y =>
        have hres : y.res = x := entry_res (t := t) hy
        simp [hres, hx]

theorem takeAll_paths (t : ConnTable) (pid : Nat) (l : List Res) : (t.takeAll pid l).paths = t.paths := by
  induction l generalizing t with
  | nil => rfl
  | cons r l ih => rw [takeAll_cons, ih, takeOne_paths]

/-- After a path takes a list of entries, each is taken as it stood before, and no other is touched (R36). -/
theorem takeAll_entry {l : List Res} (hl : l.Nodup) (t : ConnTable) (pid : Nat) (x : Res) :
    (t.takeAll pid l).entry x = if x ∈ l then some (taken pid x (t.entry x)) else t.entry x := by
  induction l generalizing t with
  | nil => simp [ConnTable.takeAll]
  | cons r l ih =>
    obtain ⟨hr, hl⟩ := List.nodup_cons.mp hl
    rw [takeAll_cons, ih hl, takeOne_entry]
    by_cases hx : x = r
    · subst hx; simp [hr]
    · simp [hx]

theorem reserve_refused {t : ConnTable} {r : RecNo} {h : Half} {f : HostFields} {x : Res}
    (hx : (Path.reserved t.nextPid r h f).needs.find? t.conflicts = some x) : t.reserve r h f = .error x.code := by
  simp only [ConnTable.reserve, hx]

theorem reserve_ok {t : ConnTable} {r : RecNo} {h : Half} {f : HostFields} (hx : ∀ x ∈ (Path.reserved t.nextPid r h f).needs, t.conflicts x = false) :
    let p := Path.reserved t.nextPid r h f
    ∃ u, t.reserve r h f = .ok u ∧ u.paths = t.paths ++ [p] ∧ ∀ x, u.entry x = if x ∈ p.needs then some (taken p.pid x (t.entry x)) else t.entry x := by
  intro p
  have hn : p.needs.find? t.conflicts = none := List.find?_eq_none.mpr fun x hxn => by simp [hx x hxn]
  refine ⟨(({ t with paths := t.paths ++ [p], nextPid := t.nextPid + 1 } : ConnTable).takeAll p.pid p.needs), ?_, takeAll_paths _ _ _,
    fun x => takeAll_entry (needs_nodup p) _ _ x⟩
  simp only [ConnTable.reserve, show (Path.reserved t.nextPid r h f).needs.find? t.conflicts = none from hn]
  rfl

/-- The entry that a record accepted with a given kind has (R77, R78). -/
def entryOfKind (s : State) (b : BatchRec) (k : Kind) : Option Entry :=
  let old := (presentPath b.no s).map (·.pid)
  let new := (s.table.halfPath b.no .new).map (·.pid)
  let claimed := (s.table.paths.find? (fun p => p.claimed = some b.no)).map (·.pid)
  let waits (o n : Option Nat) (h : Half) : Option Entry :=
    some { no := b.no, kind := k, oldP := o, newP := n, chain := [], half := h, st := .waiting, fail := none, void := none, reversing := false }
  match k with
  | .noChange => none
  | .add => waits none new .new
  | .move => waits old new .old
  | .adopt => waits none claimed .new
  | .remove | .retune | .restore | .complete => waits old none .old

theorem entryOf_kind {s : State} {b : BatchRec} {k : Kind} (hv : b.verdict = .kind k) : entryOf s b = entryOfKind s b k := by
  unfold entryOf
  rw [hv]
  cases k <;> rfl

end Sys2Proof.Machine

section
open Sys2Proof Sys2Proof.Machine

/-- Settles O52: a record's words, its kind and its verdict; the claims; the end of the check both ways; and a reservation. -/
theorem reservationOwnsOrPledges : Obligations.ReservationOwnsOrPledges := by
  refine ⟨fun c e => endpointOfCode_eq_some, ?_, ?_, ?_, ?_, ?_, ?_, ?_, ?_, ?_, conflicts_iff, needs_rows, ?_, ?_, ?_, ?_, ?_, ?_⟩
  · exact fun ws => ⟨staged_empty, staged_unknown, fun h => ⟨staged_bad h, fun a b => staged_good h⟩⟩
  · intro s f p
    exact ⟨⟨rfl, rfl⟩, (classify_none s f).1, (classify_none s f).2, classify_otherRoute, classify_sameRoute, sameRoute_settled,
      fun x => sameRoute_readBack⟩
  · intro b rest t l f hf
    exact ⟨fun u hr => claimRound_reserved hf hr, fun c hr => claimRound_refused hf hr, fun p hv hp => claimRound_adopt hf hv hp,
      fun x hx => ⟨fun h => adopt_portBusy hx h, fun h => adopt_takes hx h⟩⟩
  · exact fun s n => ⟨fun t l => claimRounds_final, fun r c => claimRounds_moveRefused⟩
  · intro s hp he hw hd
    have hcheck : InCheck s := ⟨hp, he, hw, hd⟩
    refine ⟨fun b hb => ?_, continueCheck_ends hcheck⟩
    rw [continueCheck_eq hcheck, hb]
  · intro s hr
    obtain ⟨htable, hending, htouched, hlast, hout⟩ := refuseBatch_fields hr
    refine ⟨htable, hending, htouched, hlast, fun hm b hb => ⟨fun c hc hmask => ?_, fun hmask => ?_⟩⟩
    · simpa [refusedOutcome, hc, hmask] using hout hm b hb
    · have hnot : refusedOutcome s.batch.refuse b.verdict = .notRun := by
        cases hv : b.verdict with
        | rej c => simp [refusedOutcome, hmask c hv]
        | _ => rfl
      exact hnot ▸ hout hm b hb
  · intro s hm hab
    exact (acceptBatch_fields s).2.2.2.2.2 hm (byAbandon_eq_false hab)
  · intro s b ws hc v p?
    obtain ⟨hrej, hnone, hsome⟩ := judge_read (s := s) hc
    refine ⟨verdict_range, fun f => verdict_loopback, fun st => verdict_profile, hrej, hnone, fun k p st hv hp hst => ?_⟩
    have hj := hsome k p st hv hp hst
    refine ⟨?_, fun f hf => ?_, fun f hf hk => ?_, ?_⟩
    · rintro (rfl | rfl) <;> exact hj
    · subst hf; rintro (rfl | rfl) <;> exact hj
    · subst hf; subst hk; exact hj
    · rintro (rfl | rfl | rfl) <;> exact hj.trans (congrArg _ (updatePath_id _ _))
  · exact fun s f st k q => ⟨profileFails_noPath s f k, profileFails_iff s st k q⟩
  · exact fun o d g n x => ⟨rfl, rfl, rfl, rfl, rfl, rfl⟩
  · intro s b p? taken
    refine ⟨fun f p => acceptRecord_tag, fun hv => ⟨fun f p q d => acceptRecord_noChange hv, fun hp => ?_⟩, acceptRecord_other⟩
    rw [acceptRecord_noPath hv hp]
    exact ⟨fun h => if_pos h, fun h => if_neg h⟩
  · intro s b old new claimed fresh
    refine ⟨fun k e hmem hv => ?_, fun h => ?_⟩
    · rw [entryOf_kind hv]
      simp only [List.mem_cons, Prod.mk.injEq, List.not_mem_nil, or_false] at hmem
      rcases hmem with ⟨rfl, rfl⟩ | ⟨rfl, rfl⟩ | ⟨rfl, rfl⟩ | ⟨rfl, rfl⟩ | ⟨rfl, rfl⟩ | ⟨rfl, rfl⟩ | ⟨rfl, rfl⟩ <;> rfl
    · cases hv : b.verdict with
      | kind k =>
        have hk : k = .noChange := by by_contra hk; exact h k hk hv
        subst hk
        exact entryOf_kind hv
      | _ => simp [entryOf, hv]
  · exact fun s => (acceptBatch_fields s).1
  · intro s
    obtain ⟨⟨hqueue, _⟩, hwork, hsuspended, hrunning, hholding, _⟩ := acceptBatch_fields s
    refine ⟨hwork, fun e he => ?_, ?_, hsuspended, hrunning, hholding⟩
    · rw [hqueue] at he
      obtain ⟨b, _, hb⟩ := List.mem_filterMap.mp he
      exact entryOf_waiting hb
    · rw [hqueue, List.map_filterMap]
      exact congrArg (fun f => s.batch.list.filterMap f) (funext fun b => entryOf_map_no _ b)
  · intro t r h f p
    refine ⟨fun x => reserve_refused, fun hx => ?_⟩
    obtain ⟨u, hu, hpaths, hentry⟩ := reserve_ok hx
    refine ⟨u, hu, hpaths, fun x hn hfree => ?_, fun x hn o ho => ?_, fun x hn => ?_⟩
    · rw [hentry, if_pos hn, hfree]; rfl
    · rw [hentry, if_pos hn, ho]; rfl
    · rw [hentry, if_neg hn]

end

/-! ### The reads of COMPARE and the end of rebuild (R27, R57, R181) -/

namespace Sys2Proof.Machine

theorem exec_comparisonRead {s : State} {r : RecNo} (ha : Awake s) (hn : NextIs s (.compare r)) :
    exec .comparisonRead s = settled (comparisonRead r (granted s (.compare r))) := by
  simp only [exec, execComparisonRead]
  rw [rowEvent_nextIs ha hn rfl rfl]

theorem exec_newHalfStagingRead {s : State} {i : InFlight} (ha : Awake s) (hn : NextIs s (.newHalf i)) :
    exec .newHalfStagingRead s = settled (newHalfRead i (granted s (.newHalf i))) := by
  simp only [exec, execNewHalfStagingRead]
  rw [rowEvent_nextIs ha hn rfl rfl]

theorem carryOut_rbBatchState {s : State} {m : WindowMap} (hm : s.win.map = some m) (h : s.mem.syndrome (pageAddr m.status 16) = 0) :
    carryOut .rbBatchState s = { s with start := { s.start with endWord := s.mem.word (pageAddr m.status 16) } } := by
  have hr : readWord .rebuild (pageAddr m.status offBatchState) s = (s, s.mem.word (pageAddr m.status 16), false) := readWord_clean .rebuild h
  rw [carryOut_reads rfl]
  simp only [readQuiet, hm, hr]

/-- A burst with an uncorrectable word gives a word that is marked (R169). -/
theorem readBurst_marked {q : MemFaultReq} {a k : Nat} {s : State} (h : ∃ n, n < k ∧ (s.mem.check (a + 4 * n)).1 = .uncorrectable) :
    (readBurst q a k s).2.any (·.2) = true := by
  obtain ⟨n, hn, hu⟩ := h
  rw [readBurst_gives, List.any_map, List.any_eq_true]
  exact ⟨n, List.mem_range.mpr hn, by simpa using hu⟩

/-- What follows a comparison (R57, R181, R184): the next record's, or the end of the re-read or of the rebuild. -/
def compareNext (r : RecNo) (s : State) : State :=
  if r.val < 255 then request (.compare (r + 1)) s
  else if s.seqr.reread = .compare then { s with seqr := { s.seqr with reread := .none } }
  else rebuildEnds s

theorem compareNext_before {r : RecNo} (h : r.val < 255) (s : State) : compareNext r s = request (.compare (r + 1)) s := if_pos h

theorem compareNext_last {r : RecNo} (h : r.val = 255) (s : State) : compareNext r s =
    if s.seqr.reread = .compare then { s with seqr := { s.seqr with reread := .none } } else rebuildEnds s := if_neg (by omega)

/-- A comparison whose words are the record's own with none uncorrectable touches nothing; any other touches the record (R57). -/
theorem comparisonRead_eq {s : State} {m : WindowMap} (r : RecNo) (hm : s.win.map = some m) :
    let x := readBurst .rebuild (pageAddr m.staging (offRecord r)) 3 s
    let h := (s.completed r).hostWords
    comparisonRead r s = compareNext r (if x.2.any (·.2) || x.2.map (·.1) ≠ [h.w0, h.w1, h.w2] then touch r x.1 else x.1) := by
  intro x h
  have hc : x.1.completed r = s.completed r := by unfold State.completed; simp [x]
  simp only [comparisonRead, hm]
  rw [show (readBurst .rebuild (pageAddr m.staging (offRecord r)) 3 s).1.completed r = s.completed r from hc]
  rfl

theorem comparisonRead_uncorrectable {s : State} {m : WindowMap} {r : RecNo} (hm : s.win.map = some m)
    (h : ∃ n, n < 3 ∧ (s.mem.check (pageAddr m.staging (offRecord r) + 4 * n)).1 = .uncorrectable) :
    comparisonRead r s =
      compareNext r { (readBurst .rebuild (pageAddr m.staging (offRecord r)) 3 s).1 with touched := joinSet r s.touched } := by
  rw [comparisonRead_eq r hm, readBurst_marked h]
  simp [touch]

theorem comparisonRead_clean {s : State} {m : WindowMap} {r : RecNo} (hm : s.win.map = some m)
    (h : CleanBurst s.mem (pageAddr m.staging (offRecord r)) 3) :
    let w := (s.completed r).hostWords
    comparisonRead r s = compareNext r { s with
      touched := if burstWords s.mem (pageAddr m.staging (offRecord r)) 3 = [w.w0, w.w1, w.w2] then s.touched else joinSet r s.touched } := by
  intro w
  have hb : readBurst .rebuild (pageAddr m.staging (offRecord r)) 3 s =
      (s, (burstWords s.mem (pageAddr m.staging (offRecord r)) 3).map (fun w => (w, false))) := readBurstOf_clean .rebuild s h
  rw [comparisonRead_eq r hm, hb]
  generalize burstWords s.mem (pageAddr m.staging (offRecord r)) 3 = l
  have hmark : (l.map (fun w => (w, false))).any (·.2) = false := by simp
  have hwords : (l.map (fun w => (w, false))).map (·.1) = l := by simp [Function.comp_def]
  dsimp only
  rw [hmark, hwords]
  by_cases he : l = [w.w0, w.w1, w.w2]
  · rw [if_neg (by simp [he, w]), if_pos he]
  · rw [if_pos (by simpa using he), if_neg he]
    rfl

/-! #### The batch state word at the end of rebuild (R27) -/

/-- The state that a word judged at depth 0 is rewritten with, where it is. -/
def endWordRewrite : Option BatchWordState → Option BatchWordState
  | some .fetching | some .checking | some .running | some .holding | some .held | some .cancelling => some .abandoned
  | some .suspended => some .none
  | _ => none

theorem endBatchWord_eq (s : State) :
    let st := BatchWordState.ofCode (field s.start.endWord 0 8)
    let word (st : BatchWordState) : BatchWord := { st := st, seq := s.start.endWord.extractLsb' 16 16 }
    endBatchWord s =
      match if 0 < s.intr.depth then some .suspended else endWordRewrite st with
      | some x => writeBatchState (word x) s
      | none => { s with seqr := { s.seqr with shown := word (st.getD .none) } } := by
  intro st word
  simp only [endBatchWord, ofNat_field]
  by_cases hd : 0 < s.intr.depth
  · rw [if_pos hd, if_pos hd]
    rfl
  · rw [if_neg hd, if_neg hd]
    rcases hst : BatchWordState.ofCode (field s.start.endWord 0 8) with _ | x
    · simp only [st, hst]; rfl
    · cases x <;> simp only [st, hst] <;> rfl

theorem ofCode_running {n : Nat} (h : 1 ≤ n) (h' : n ≤ 6) : endWordRewrite (BatchWordState.ofCode n) = some .abandoned := by
  interval_cases n <;> rfl

theorem ofCode_above {n : Nat} (h : 12 < n) : BatchWordState.ofCode n = none := List.getElem?_eq_none h

theorem ofCode_ended {n : Nat} {st : BatchWordState} (h : (n, st) ∈ [(0, BatchWordState.none), (8, .done), (9, .doneWithFailures), (10, .refused),
    (11, .cancelled), (12, .abandoned)]) : BatchWordState.ofCode n = some st ∧ endWordRewrite (some st) = none := by
  simp only [List.mem_cons, Prod.mk.injEq, List.not_mem_nil, or_false] at h
  rcases h with ⟨rfl, rfl⟩ | ⟨rfl, rfl⟩ | ⟨rfl, rfl⟩ | ⟨rfl, rfl⟩ | ⟨rfl, rfl⟩ | ⟨rfl, rfl⟩ <;> exact ⟨rfl, rfl⟩

/-- The end's word at depth 0, by the code that was read. -/
theorem endBatchWord_depthZero {s : State} (hd : s.intr.depth = 0) :
    let st := BatchWordState.ofCode (field s.start.endWord 0 8)
    let word (st : BatchWordState) : BatchWord := { st := st, seq := s.start.endWord.extractLsb' 16 16 }
    (∀ x, endWordRewrite st = some x → endBatchWord s = writeBatchState (word x) s) ∧
    (endWordRewrite st = none → endBatchWord s = { s with seqr := { s.seqr with shown := word (st.getD .none) } }) := by
  refine ⟨fun x hx => ?_, fun hx => ?_⟩
  all_goals
    rw [endBatchWord_eq, if_neg (by omega), hx]

/-! #### The degrees presented at the end of rebuild (R153) -/

theorem get_set_degree {α : Type} (t : PerDegree α) (d : Degree) (v : α) : (t.set d v).get d = v := by cases d <;> rfl

theorem set_set_degree {α : Type} (t : PerDegree α) (d : Degree) (v w : α) : (t.set d v).set d w = t.set d w := by cases d <;> rfl

/-- A loss of light from LIT sets the degree's state itself, whatever that state was. -/
theorem lossFromLit_ofState (d : Degree) (x : LightState) (s : State) :
    lossFromLit d { s with light := { s.light with state := s.light.state.set d x } } = lossFromLit d s := by
  simp only [lossFromLit, set_set_degree]

theorem lossEvent_asLit (d : Degree) (s : State) :
    lossEvent d { s with light := { s.light with state := s.light.state.set d .lit } } = lossFromLit d s := by
  rw [lossEvent]
  simp only [get_set_degree]
  exact lossFromLit_ofState d .lit s

end Sys2Proof.Machine

/-! ### The claims of ADOPT (R34, R52, R180) -/

namespace Sys2Proof.Machine

theorem claim_eq_none (t : ConnTable) (p : Path) : t.claim p = none ↔ ∃ x ∈ p.needs, t.entry x ≠ none := by
  simp [ConnTable.claim, Option.isSome_iff_ne_none]

/-- A claim accepted adds its path with the next number and takes the entries it needs (R52). -/
theorem claim_eq_some {t u : ConnTable} {p : Path} (h : t.claim p = some u) :
    u = ({ t with paths := t.paths ++ [{ p with pid := t.nextPid }], nextPid := t.nextPid + 1 } : ConnTable).takeAll t.nextPid p.needs := by
  unfold ConnTable.claim at h
  split at h
  · cases h
  · exact (Option.some.inj h).symm

theorem claim_free {t : ConnTable} {p : Path} (h : ∀ x ∈ p.needs, t.entry x = none) : ∃ u, t.claim p = some u := by
  refine Option.ne_none_iff_exists'.mp fun hn => ?_
  obtain ⟨x, hx, he⟩ := (claim_eq_none t p).mp hn
  exact he (h x hx)

theorem claim_paths {t u : ConnTable} {p : Path} (h : t.claim p = some u) : u.paths = t.paths ++ [{ p with pid := t.nextPid }] := by
  rw [claim_eq_some h, takeAll_paths]

theorem claim_entry {t u : ConnTable} {p : Path} {x : Res} (h : t.claim p = some u) (hx : x ∈ p.needs) (hf : t.entry x = none) :
    u.entry x = some { res := x, owner := t.nextPid, pledge := none } := by
  have hf' : ConnTable.entry { t with paths := t.paths ++ [{ p with pid := t.nextPid }], nextPid := t.nextPid + 1 } x = none := hf
  rw [claim_eq_some h, takeAll_entry (needs_nodup p), if_pos hx, hf']
  rfl

theorem takeAll_done (t : ConnTable) (pid : Nat) (l : List Res) : (t.takeAll pid l).done = t.done := by
  induction l generalizing t with
  | nil => rfl
  | cons r l ih =>
    rw [takeAll_cons, ih]
    unfold ConnTable.takeOne
    split <;> rfl

theorem claim_done {t u : ConnTable} {p : Path} (h : t.claim p = some u) : u.done = t.done := by rw [claim_eq_some h, takeAll_done]

theorem presentClaim_refused {s : State} {p : Path} (h : s.table.claim p = none) (r : RecNo) (c : Completed) :
    presentClaim r p c s = countDiscrepancy (setCompleted r .lost s) := by simp only [presentClaim, h]

theorem presentClaim_accepted {s : State} {p : Path} {t : ConnTable} (h : s.table.claim p = some t) (r : RecNo) (c : Completed) :
    presentClaim r p c s = { s with
      table := { t with done := doneSet r c s.table.done }
      start := { s.start with discrepancies := s.start.discrepancies + (if p.st = .discrepant then 1 else 0) } } := by
  simp only [presentClaim, h]
  by_cases hd : p.st = .discrepant
  · rw [if_pos hd, if_pos hd, ← claim_done h]
    rfl
  · rw [if_neg hd, if_neg hd, ← claim_done h]
    rfl

/-! #### Group (a): the active records (R180) -/

theorem claimPath_host (s : State) (r : RecNo) (f : HostFields) (st : PathState) (route : PathRoute) (att : Att) :
    (claimPath s r f st route att).host = some f := by
  obtain ⟨slot, src, dst, _⟩ := f
  cases src <;> cases dst <;> rfl

theorem out_of (e : Endpoint) : (PathEnd.of e).out = Res.ofDst e := by cases e <;> rfl

theorem routeOf_eq (x : SlotSetting) : routeOf x = if x.input = .idler ∨ x.input = .block then .fill else .source := by simp [routeOf]

/-- A readback that agrees with an active record's state: its source where it has light, its fill where it is SQUELCHED (R180). -/
def readAgrees (s : State) (y : Yield) (x : SlotSetting) : Prop :=
  ((y.st = .live ∨ y.st = .offTarget) ∧ x.input = (PathEnd.of y.host.src).input) ∨
    (y.st = .squelched ∧ x.input = (fillOf s.win.cfg (Res.ofDst y.host.dst)).input)

theorem readAgrees_iff (s : State) (y : Yield) (x : SlotSetting) : readAgrees s y x ↔
    ¬ (y.st = .discrepant ∨ ((y.st = .live ∨ y.st = .offTarget) ∧ x.input ≠ (PathEnd.of y.host.src).input) ∨
      (y.st = .squelched ∧ x.input ≠ (fillOf s.win.cfg (Res.ofDst y.host.dst)).input)) := by
  unfold readAgrees
  cases y.st <;> simp

theorem activeClaim_unread {s : State} {y : Yield} (h : readbackAt s (Res.ofDst y.host.dst) y.host.slot = none) :
    activeClaim s y = claimPath s y.no y.host y.st.pathState (if y.st = .squelched then .fill else .source) y.att := by
  simp only [activeClaim, h]

theorem activeClaim_agrees {s : State} {y : Yield} {x : SlotSetting} (h : readbackAt s (Res.ofDst y.host.dst) y.host.slot = some x)
    (ha : readAgrees s y x) :
    activeClaim s y = claimPath s y.no y.host y.st.pathState (if y.st = .squelched then .fill else .source) x.att := by
  rcases ha with ⟨hst | hst, hin⟩ | ⟨hst, hin⟩ <;> simp [activeClaim, h, hst, hin, DoneState.pathState]

theorem activeClaim_differs {s : State} {y : Yield} {x : SlotSetting} (h : readbackAt s (Res.ofDst y.host.dst) y.host.slot = some x)
    (ha : ¬ readAgrees s y x) : activeClaim s y = claimPath s y.no y.host .discrepant (routeOf x) x.att := by
  unfold readAgrees at ha
  simp only [activeClaim, h]
  cases hst : y.st <;> simp [hst] at ha <;> simp [ha]

/-- Every claim of group (a) has its record's fields, whatever the readback shows. -/
theorem activeClaim_claimPath (s : State) (y : Yield) : ∃ st route att, activeClaim s y = claimPath s y.no y.host st route att := by
  cases h : readbackAt s (Res.ofDst y.host.dst) y.host.slot with
  | none => exact ⟨_, _, _, activeClaim_unread h⟩
  | some x =>
    by_cases ha : readAgrees s y x
    · exact ⟨_, _, _, activeClaim_agrees h ha⟩
    · exact ⟨_, _, _, activeClaim_differs h ha⟩

/-- The claim of a record in flight with its old half: as read back, where its output point and slot are (R180). -/
def oldHalfClaim (s : State) (y : Yield) : Path :=
  match readbackAt s (Res.ofDst y.host.dst) y.host.slot with
  | some x => { activeClaim s y with st := .inFlight, route := routeOf x, att := x.att }
  | none => { activeClaim s y with st := .inFlight }

theorem oldHalfClaim_fields (s : State) (y : Yield) : (oldHalfClaim s y).st = .inFlight ∧ (oldHalfClaim s y).needs = (activeClaim s y).needs ∧
    ∀ x, readbackAt s (Res.ofDst y.host.dst) y.host.slot = some x → (oldHalfClaim s y).att = x.att ∧ (oldHalfClaim s y).route = routeOf x := by
  unfold oldHalfClaim
  cases readbackAt s (Res.ofDst y.host.dst) y.host.slot with
  | none => exact ⟨rfl, rfl, fun x hx => nomatch hx⟩
  | some x => exact ⟨rfl, rfl, fun z hz => by cases hz; exact ⟨rfl, rfl⟩⟩

theorem adoptActive_new {s : State} {y : Yield} {i : InFlight} (h : s.start.newHalves.find? (fun i => i.no = y.no) = some i)
    (hh : i.half = .new) : adoptActive s y = setCompleted y.no .empty s := by simp only [adoptActive, h, hh]

theorem adoptActive_old {s : State} {y : Yield} {i : InFlight} (h : s.start.newHalves.find? (fun i => i.no = y.no) = some i)
    (hh : i.half = .old) :
    adoptActive s y = presentClaim y.no (oldHalfClaim s y) (.path { st := y.st, host := y.host, att := y.att, measured := none }) s := by
  obtain ⟨st, route, att, hc⟩ := activeClaim_claimPath s y
  have hout : (activeClaim s y).dst.out = Res.ofDst y.host.dst := hc ▸ out_of y.host.dst
  have hslot : (activeClaim s y).slot = y.host.slot := hc ▸ rfl
  cases hr : readbackAt s (Res.ofDst y.host.dst) y.host.slot <;> simp only [adoptActive, h, hh, hout, hslot, oldHalfClaim, hr]

theorem adoptActive_unlisted {s : State} {y : Yield} {d : DoneState} (h : s.start.newHalves.find? (fun i => i.no = y.no) = none)
    (hd : (activeClaim s y).st.done = some d) :
    adoptActive s y = presentClaim y.no (activeClaim s y) ((activeClaim s y).completed s.win.cfg d) s := by
  simp only [adoptActive, h, hd]

theorem presentClaim_newHalves (r : RecNo) (p : Path) (c : Completed) (s : State) :
    (presentClaim r p c s).start.newHalves = s.start.newHalves := by
  cases h : s.table.claim p with
  | none => rw [presentClaim_refused h]; rfl
  | some t => rw [presentClaim_accepted h]

theorem adoptActive_newHalves (s : State) (y : Yield) : (adoptActive s y).start.newHalves = s.start.newHalves := by
  cases h : s.start.newHalves.find? (fun i => i.no = y.no) with
  | none =>
    simp only [adoptActive, h]
    exact presentClaim_newHalves ..
  | some i =>
    cases hh : i.half with
    | new => rw [adoptActive_new h hh]; rfl
    | old => rw [adoptActive_old h hh]; exact presentClaim_newHalves ..

theorem foldl_adoptActive_newHalves (l : List Yield) (s : State) : (l.foldl adoptActive s).start.newHalves = s.start.newHalves := by
  induction l generalizing s with
  | nil => rfl
  | cons y l ih => rw [List.foldl_cons, ih, adoptActive_newHalves]

/-! #### Group (b): the new halves (R180) -/

theorem nextNewHalf_none {s : State} (h : s.start.newHalves = []) : nextNewHalf s = finishAdoption s := by simp only [nextNewHalf, h]

theorem nextNewHalf_some {s : State} {i : InFlight} {rest : List InFlight} (h : s.start.newHalves = i :: rest) (hh : i.half = .new) :
    nextNewHalf s = request (.newHalf i) { s with start := { s.start with newHalves := rest } } := by simp only [nextNewHalf, h, hh]

/-- The record that a staging read's three words give, none where one is uncorrectable (R22). -/
def readStaged (ws : List (Word × Bool)) : Option Staged :=
  match ws with
  | [(a, x), (b, y), (c, z)] => if x || y || z then none else Staged.ofWords ⟨a, b, c⟩
  | _ => none

theorem readStaged_marked {ws : List (Word × Bool)} (h : ws.any (·.2) = true) : readStaged ws = none := by
  unfold readStaged
  split
  · exact if_pos (by simpa [or_assoc] using h)
  · rfl

theorem readStaged_clean (m : Memory) (a : Nat) : readStaged ((burstWords m a 3).map (fun w => (w, false))) =
    Staged.ofWords ⟨m.word a, m.word (a + 4), m.word (a + 8)⟩ := rfl

/-- The claim of a new half: by the readback where there is one, by its item otherwise (R180). -/
def newHalfClaim (s : State) (i : InFlight) (f : HostFields) : Path :=
  match readbackAt s (Res.ofDst f.dst) f.slot with
  | some x => claimPath s i.no f .inFlight (if x.input = (PathEnd.of f.src).input then .source else .fill) x.att
  | none => claimPath s i.no f .inFlight (if i.step = 1 && i.att = .block then .fill else .source) i.att

/-- What becomes of a new half whose staging words have been read (R180). -/
def adoptNewHalf (i : InFlight) (w : Option Staged) (s : State) : State :=
  match w with
  | some (.conn f) => if loopback f then s else presentClaim i.no (newHalfClaim s i f) (s.completed i.no) s
  | _ => s

theorem newHalfRead_eq {s : State} {m : WindowMap} (i : InFlight) (hm : s.win.map = some m) :
    let x := readBurst .rebuild (pageAddr m.staging (offRecord i.no)) 3 s
    newHalfRead i s = nextNewHalf (adoptNewHalf i (readStaged x.2) x.1) := by
  intro x
  have hx : newHalfRead i s = match readStaged x.2 with
      | some (.conn f) => if loopback f then nextNewHalf x.1
        else nextNewHalf (presentClaim i.no (newHalfClaim x.1 i f) (x.1.completed i.no) x.1)
      | _ => nextNewHalf x.1 := by
    simp only [newHalfRead, hm]
    rfl
  rw [hx]
  rcases readStaged x.2 with _ | _ | f
  · rfl
  · rfl
  · exact (apply_ite nextNewHalf _ _ _).symm

theorem adoptNewHalf_skipped {i : InFlight} {w : Option Staged} (s : State)
    (h : w = none ∨ w = some .empty ∨ ∃ f, w = some (.conn f) ∧ loopback f = true) : adoptNewHalf i w s = s := by
  rcases h with rfl | rfl | ⟨f, rfl, hl⟩
  · rfl
  · rfl
  · exact if_pos hl

theorem adoptNewHalf_claims (i : InFlight) {f : HostFields} (s : State) (h : loopback f = false) :
    adoptNewHalf i (some (.conn f)) s = presentClaim i.no (newHalfClaim s i f) (s.completed i.no) s := if_neg (by simp [h])

theorem newHalfStagingRead_clean {s : State} {m : WindowMap} {i : InFlight} (ha : Awake s) (hm : s.win.map = some m) (hn : NextIs s (.newHalf i))
    (h : CleanBurst s.mem (pageAddr m.staging (offRecord i.no)) 3) :
    let a := pageAddr m.staging (offRecord i.no)
    exec .newHalfStagingRead s = settled (nextNewHalf (adoptNewHalf i (Staged.ofWords ⟨s.mem.word a, s.mem.word (a + 4), s.mem.word (a + 8)⟩)
      (granted s (.newHalf i)))) := by
  intro a
  have hb : readBurst .rebuild a 3 (granted s (.newHalf i)) = (granted s (.newHalf i), (burstWords s.mem a 3).map (fun w => (w, false))) :=
    readBurstOf_clean .rebuild _ h
  rw [exec_newHalfStagingRead ha hn, newHalfRead_eq (s := granted s (.newHalf i)) i hm, hb, readStaged_clean]

theorem newHalfStagingRead_claims {s : State} {m : WindowMap} {i : InFlight} {f : HostFields} (ha : Awake s) (hm : s.win.map = some m)
    (hn : NextIs s (.newHalf i)) (h : CleanBurst s.mem (pageAddr m.staging (offRecord i.no)) 3)
    (hw : let a := pageAddr m.staging (offRecord i.no)
      Staged.ofWords ⟨s.mem.word a, s.mem.word (a + 4), s.mem.word (a + 8)⟩ = some (.conn f)) (hl : loopback f = false) :
    exec .newHalfStagingRead s =
      settled (nextNewHalf (presentClaim i.no (newHalfClaim s i f) (s.completed i.no) (granted s (.newHalf i)))) := by
  rw [newHalfStagingRead_clean ha hm hn h, hw, adoptNewHalf_claims i _ hl]
  rfl

theorem newHalfStagingRead_uncorrectable {s : State} {m : WindowMap} {i : InFlight} (ha : Awake s) (hm : s.win.map = some m)
    (hn : NextIs s (.newHalf i))
    (h : ∃ n, n < 3 ∧ (s.mem.check (pageAddr m.staging (offRecord i.no) + 4 * n)).1 = .uncorrectable) :
    exec .newHalfStagingRead s =
      settled (nextNewHalf (readBurst .rebuild (pageAddr m.staging (offRecord i.no)) 3 (granted s (.newHalf i))).1) := by
  have hmark : (readBurst .rebuild (pageAddr m.staging (offRecord i.no)) 3 (granted s (.newHalf i))).2.any (·.2) = true := readBurst_marked h
  rw [exec_newHalfStagingRead ha hn, newHalfRead_eq (s := granted s (.newHalf i)) i hm, readStaged_marked hmark]
  rfl

theorem newHalfClaim_fields (s : State) (i : InFlight) (f : HostFields) :
    (newHalfClaim s i f).st = .inFlight ∧ (newHalfClaim s i f).host = some f ∧ (newHalfClaim s i f).owner = some (i.no, .old) := by
  unfold newHalfClaim
  split <;> exact ⟨rfl, claimPath_host .., rfl⟩

theorem newHalfClaim_unread {s : State} {i : InFlight} {f : HostFields} (h : readbackAt s (Res.ofDst f.dst) f.slot = none) :
    (newHalfClaim s i f).att = i.att ∧ (newHalfClaim s i f).route = if i.step = 1 ∧ i.att = .block then .fill else .source := by
  simp [newHalfClaim, h, claimPath]

theorem newHalfClaim_read {s : State} {i : InFlight} {f : HostFields} {x : SlotSetting} (h : readbackAt s (Res.ofDst f.dst) f.slot = some x) :
    (newHalfClaim s i f).att = x.att ∧ (newHalfClaim s i f).route = if x.input = (PathEnd.of f.src).input then .source else .fill := by
  simp [newHalfClaim, h, claimPath]

theorem readbackAt_given {s : State} {o : OutPoint} {n : Slot} {l : List SlotSetting} (h : s.start.readback.get o = .given l) :
    readbackAt s o n = l[n.val]? := by simp only [readbackAt, h]

theorem readbackAt_eq_none {s : State} {o : OutPoint} {n : Slot} (h : ∀ l, s.start.readback.get o = .given l → l[n.val]? = none) :
    readbackAt s o n = none := by
  unfold readbackAt
  split
  · next l hl => exact h l hl
  · rfl

/-! #### Group (c): the slots that show an input and have no owner (R34, R180) -/

/-- The source of a foreign path by the input that its slot shows, none at the fill. -/
def foreignSource : Input → Option PathEnd
  | .deg d => some (.deg d)
  | .grp g => some (.grp g)
  | _ => none

/-- The path that a foreign claim presents. -/
def foreignPath (o : OutPoint) (n : Slot) (src : PathEnd) (att : Att) : Path :=
  { pid := 0, owner := none, slot := n, src := src, dst := match o with | .deg d => .deg d | .grp g => .grp g,
    info := none, pend := none, st := .foreign, route := .source, att := att, squelched := false, rerouting := false,
    engine := none, measured := none, leaving := false, claimed := none, readInput := none }

theorem adoptForeign_owned {s : State} {o : OutPoint} {n : Slot} (h : s.table.entry (.out o n) ≠ none) : adoptForeign o s n = s :=
  if_pos (Option.isSome_iff_ne_none.mpr h)

theorem adoptForeign_fill {s : State} {o : OutPoint} {n : Slot} {x : SlotSetting} (h : s.table.entry (.out o n) = none)
    (hx : readbackAt s o n = some x) (hf : x.input = .idler ∨ x.input = .block) : adoptForeign o s n = s := by
  rcases hf with hf | hf <;> simp [adoptForeign, h, hx, hf]

/-- A slot that shows an input and has no owner is counted, and its path joins the table where the entries it needs are free. -/
theorem adoptForeign_shown {s : State} {o : OutPoint} {n : Slot} {x : SlotSetting} {src : PathEnd} (h : s.table.entry (.out o n) = none)
    (hx : readbackAt s o n = some x) (hs : foreignSource x.input = some src) :
    adoptForeign o s n = countDiscrepancy { s with table := (s.table.claim (foreignPath o n src x.att)).getD s.table } := by
  simp only [adoptForeign, h, hx, Option.isSome_none, Bool.false_eq_true, if_false]
  cases hi : x.input <;> rw [hi] at hs <;> cases hs
  all_goals
    unfold foreignPath
    dsimp only
    cases s.table.claim _ <;> rfl

/-- What a foreign claim leaves: its count, and its path with the entries it owns. -/
theorem adoptForeign_fields {s : State} {o : OutPoint} {n : Slot} {x : SlotSetting} {src : PathEnd} (h : s.table.entry (.out o n) = none)
    (hx : readbackAt s o n = some x) (hs : foreignSource x.input = some src) :
    let q : Path := { foreignPath o n src x.att with pid := s.table.nextPid }
    (adoptForeign o s n).start.discrepancies = s.start.discrepancies + 1 ∧
    ((∀ y ∈ q.needs, s.table.entry y = none) → (adoptForeign o s n).table.paths = s.table.paths ++ [q] ∧
      ∀ y ∈ q.needs, (adoptForeign o s n).table.entry y = some { res := y, owner := q.pid, pledge := none }) ∧
    ((∃ y ∈ q.needs, s.table.entry y ≠ none) → (adoptForeign o s n).table = s.table) := by
  intro q
  rw [adoptForeign_shown h hx hs]
  refine ⟨rfl, fun hf => ?_, fun hb => ?_⟩
  · obtain ⟨u, hu⟩ := claim_free (p := foreignPath o n src x.att) hf
    rw [hu]
    exact ⟨claim_paths hu, fun y hy => claim_entry hu hy (hf y hy)⟩
  · rw [(claim_eq_none s.table (foreignPath o n src x.att)).mpr hb]
    rfl

end Sys2Proof.Machine

/-! ### The end of adoption (R180, R181) -/

namespace Sys2Proof.Machine

/-- What every step of a pass keeps stands after the pass. -/
theorem foldl_keeps_prop {α : Type} {f : State → α → State} {P : State → Prop} (keeps : ∀ s b, P s → P (f s b)) (l : List α) {s : State} (h : P s) :
    P (l.foldl f s) :=
  List.foldlRecOn l f h fun t ht b _ => keeps t b ht

/-- What one step of a pass makes and every step keeps holds after the pass. -/
theorem foldl_makes {α : Type} {f : State → α → State} {P : State → Prop} (keeps : ∀ s b, P s → P (f s b)) {a : α} (makes : ∀ s, P (f s a))
    {l : List α} (h : a ∈ l) (s : State) : P (l.foldl f s) := by
  induction l generalizing s with
  | nil => cases h
  | cons b l ih =>
    rcases List.mem_cons.mp h with rfl | h
    · exact foldl_keeps_prop keeps l (makes s)
    · exact ih h _

theorem adoptForeign_powerdown (o : OutPoint) (s : State) (n : Slot) : (adoptForeign o s n).start.powerdown = s.start.powerdown := by
  simp only [adoptForeign]
  repeat' split
  all_goals rfl

/-- The foreign claims of every output point and slot, in the order of the pass (R180). -/
def adoptForeigns (s : State) : State := OutPoint.all.foldl (fun s o => allSlots.foldl (adoptForeign o) s) s

theorem foldl_adoptForeign_powerdown (slots : List Slot) (points : List OutPoint) {s : State} (h : s.start.powerdown = false) :
    (points.foldl (fun s o => slots.foldl (adoptForeign o) s) s).start.powerdown = false :=
  foldl_keeps_prop (P := fun t => t.start.powerdown = false)
    (fun _ o => foldl_keeps_prop (P := fun t => t.start.powerdown = false) (fun t n ht => (adoptForeign_powerdown o t n).trans ht) slots) points h

theorem adoptForeigns_powerdown {s : State} (h : s.start.powerdown = false) : (adoptForeigns s).start.powerdown = false := by
  rw [adoptForeigns]
  exact foldl_adoptForeign_powerdown allSlots OutPoint.all h

theorem activeDue_wb_mem {r : RecNo} {s : State} (h : s.start.powerdown = false) : r ∈ (activeDue r s).holds.wb := by
  rw [activeDue_eq]
  simp only [h, Bool.false_eq_true, false_or]
  split
  · assumption
  · simp

theorem activeDue_wb_keeps {r : RecNo} {s : State} (b : RecNo) (h : r ∈ s.holds.wb) : r ∈ (activeDue b s).holds.wb := by
  rw [activeDue_eq]
  dsimp only
  split
  · exact h
  · exact List.mem_append_left _ h

theorem activeDue_start (r : RecNo) (s : State) : (activeDue r s).start = s.start := by rw [activeDue_eq]

/-- Active records made due leave the Start-up Controller as it is. -/
theorem foldl_activeDue_start (l : List RecNo) (s : State) : (l.foldl (fun s r => activeDue r s) s).start = s.start :=
  foldl_keeps_prop (P := fun t => t.start = s.start) (fun t r ht => (activeDue_start r t).trans ht) l rfl

theorem foldl_activeDue_port {l : List RecNo} {r : RecNo} (h : r ∈ l) (s : State) :
    PortReq.active r ∈ (l.foldl (fun s r => activeDue r s) s).port :=
  foldl_makes (P := fun t => PortReq.active r ∈ t.port) (fun s b h => (activeDue_dues b s).port _ h) (activeDue_mem r) h s

theorem foldl_activeDue_wb {l : List RecNo} {r : RecNo} (h : r ∈ l) {s : State} (hp : s.start.powerdown = false) :
    r ∈ (l.foldl (fun s r => activeDue r s) s).holds.wb := by
  refine foldl_makes (P := fun t => t.start.powerdown = false → r ∈ t.holds.wb) (fun t b ht hp => ?_) (fun t hp => ?_) h s ?_
  · exact activeDue_wb_keeps b (ht (activeDue_start b t ▸ hp))
  · exact activeDue_wb_mem (activeDue_start r t ▸ hp)
  · rw [foldl_activeDue_start]
    exact hp

/-- Every active record made due, in ascending number (R181). -/
def rewriteActive (s : State) : State := allRecords.foldl (fun s r => activeDue r s) s

theorem mem_allRecords (r : RecNo) : r ∈ allRecords := List.mem_finRange r

theorem rewriteActive_start (s : State) : (rewriteActive s).start = s.start := by
  rw [rewriteActive, foldl_activeDue_start]

theorem rewriteActive_port (r : RecNo) (s : State) : PortReq.active r ∈ (rewriteActive s).port := by
  rw [rewriteActive]
  exact foldl_activeDue_port (mem_allRecords r) s

theorem rewriteActive_wb (r : RecNo) {s : State} (h : s.start.powerdown = false) : r ∈ (rewriteActive s).holds.wb := by
  rw [rewriteActive]
  exact foldl_activeDue_wb (mem_allRecords r) h

theorem hasCause_joinCause (set : BitVec 8) (c : Cause) : hasCause (joinCause set c) c = true := by
  cases c <;> simp [hasCause, joinCause, Cause.bit]

theorem requestAttention_pending (s : State) : (requestAttention s).attn.pending = s.attn.pending := by
  unfold requestAttention
  split <;> rfl

theorem raiseCause_pending (c : Cause) (s : State) : hasCause (raiseCause c s).attn.pending c = true := by
  unfold raiseCause
  split
  · assumption
  · rw [requestAttention_pending]
    exact hasCause_joinCause ..

/-- A cause raised asks for the attention word anew; every other request stays (R29). -/
theorem mem_raiseCause_port {c : Cause} {r : PortReq} {s : State} (h : r ∈ s.port) (hr : r ≠ .attention) : r ∈ (raiseCause c s).port := by
  unfold raiseCause requestAttention
  split
  · exact h
  · split
    · exact List.mem_append_left _ ((List.mem_erase_of_ne hr).mpr h)
    · exact h

/-- DISCREPANCY raised where a discrepancy was counted (R181). -/
def reportDiscrepancies (s : State) : State := if 0 < s.start.discrepancies then raiseCause .discrepancy s else s

theorem reportDiscrepancies_pending {s : State} (h : 0 < s.start.discrepancies) :
    hasCause (reportDiscrepancies s).attn.pending .discrepancy = true := by
  rw [reportDiscrepancies, if_pos h]
  exact raiseCause_pending ..

theorem reportDiscrepancies_port {r : PortReq} {s : State} (h : r ∈ s.port) (hr : r ≠ .attention) : r ∈ (reportDiscrepancies s).port := by
  unfold reportDiscrepancies
  split
  · exact mem_raiseCause_port h hr
  · exact h

theorem reportDiscrepancies_holds (s : State) : (reportDiscrepancies s).holds = s.holds := by
  unfold reportDiscrepancies
  split <;> simp

/-- REWRITE (R181): every active record becomes due, and DISCREPANCY is raised. -/
def rewriteStage (s : State) : State := reportDiscrepancies (rewriteActive { s with start := { s.start with stage := .rewrite } })

theorem rewriteStage_eq (s : State) :
    let v := rewriteActive { s with start := { s.start with stage := .rewrite } }
    rewriteStage s = if 0 < s.start.discrepancies then raiseCause .discrepancy v else v := by
  intro v
  rw [rewriteStage, reportDiscrepancies, rewriteActive_start]

theorem rewriteStage_active (r : RecNo) (s : State) : PortReq.active r ∈ (rewriteStage s).port := by
  rw [rewriteStage]
  exact reportDiscrepancies_port (rewriteActive_port r _) (by simp)

theorem rewriteStage_wb (r : RecNo) {s : State} (h : s.start.powerdown = false) : r ∈ (rewriteStage s).holds.wb := by
  rw [rewriteStage, reportDiscrepancies_holds]
  exact rewriteActive_wb r h

theorem rewriteStage_pending {s : State} (h : 0 < s.start.discrepancies) : hasCause (rewriteStage s).attn.pending .discrepancy = true := by
  rw [rewriteStage]
  refine reportDiscrepancies_pending ?_
  rw [rewriteActive_start]
  exact h

/-- COMPARE begins (R27, R57): the batch state word is asked for, then record 0. -/
def beginCompare (s : State) : State := request (.compare 0) (request .rbBatchState { s with start := { s.start with stage := .compare } })

theorem beginCompare_eq (s : State) :
    beginCompare s = { s with start := { s.start with stage := .compare }, port := s.port ++ [.rbBatchState, .compare 0] } := by
  simp only [beginCompare, request, List.append_assoc, List.cons_append, List.nil_append]

theorem finishAdoption_eq (s : State) : finishAdoption s = beginCompare (rewriteStage (adoptForeigns s)) := by
  unfold finishAdoption rewriteStage reportDiscrepancies rewriteActive adoptForeigns beginCompare
  rfl

theorem startAdoption_eq (s : State) :
    let adopting := s.start.yields.foldl adoptActive { s with table := { s.table with paths := [], occ := [] }, start := { s.start with stage := .adopt } }
    let news := s.start.newHalves.filter (fun i => i.half = .new)
    let emptied := news.foldl (fun t i => setCompleted i.no .empty t) adopting
    startAdoption s = nextNewHalf { emptied with start := { emptied.start with newHalves := news, yields := [] } } := by
  have hk := foldl_adoptActive_newHalves s.start.yields
    { s with table := { s.table with paths := [], occ := [] }, start := { s.start with stage := .adopt } }
  simp only [startAdoption]
  rw [hk]

/-- How a degree is presented at the end of rebuild (R153). -/
def presentDegree (s : State) (d : Degree) : State :=
  match s.light.state.get d with
  | .dark => lossEvent d { s with light := { s.light with state := s.light.state.set d .lit } }
  | .holdoff => squelchDegree d s
  | .lit => s

theorem presentDegree_eq : presentDegree = fun s d => match s.light.state.get d with
    | .dark => lossFromLit d s
    | .holdoff => squelchDegree d s
    | .lit => s := by
  funext s d
  simp only [presentDegree, lossEvent_asLit]

theorem endBatchWord_depth (s : State) : (endBatchWord s).intr.depth = s.intr.depth := by
  have hw (b : BatchWord) : (writeBatchState b s).intr = s.intr := by simp
  rw [endBatchWord_eq]
  split
  · rw [hw]
  · rfl

theorem rebuildEnds_eq (s : State) :
    let t := endBatchWord { s with start := { s.start with stage := .none, newHalves := [] } }
    let u := Degree.all.foldl presentDegree { t with seqr := { t.seqr with st := if 0 < s.intr.depth then .suspended else .idle } }
    rebuildEnds s = (OutPoint.all.filter (isFaulted u)).foldl (fun t o => requestCapture (.module o) t) u := by
  have ht : (endBatchWord { s with start := { s.start with stage := .none, newHalves := [] } }).intr.depth = s.intr.depth := endBatchWord_depth _
  rw [presentDegree_eq, ← ht]
  rfl

end Sys2Proof.Machine

section
open Sys2Proof Sys2Proof.Machine

/-- Settles O58: the order of adoption, its claims group by group, and the comparison with the end of rebuild. -/
theorem stagingReadsOfRebuild : Obligations.StagingReadsOfRebuild := by
  refine ⟨startAdoption_eq, fun s => ⟨nextNewHalf_none, fun i rest => nextNewHalf_some⟩, ?_, fun s m => carryOut_rbBatchState, ?_, ?_, ?_, ?_, ?_, ?_, ?_,
    ?_, ?_, ?_⟩
  · intro s slots points u v w t
    have hu : u = adoptForeigns s := rfl
    have hw : w = rewriteStage (adoptForeigns s) := (rewriteStage_eq _).symm
    have ht : t = beginCompare w := by
      rw [hw]
      exact finishAdoption_eq s
    have hport (r : RecNo) : PortReq.active r ∈ w.port := hw ▸ rewriteStage_active r (adoptForeigns s)
    have hwb (r : RecNo) (hp : s.start.powerdown = false) : r ∈ w.holds.wb :=
      hw ▸ rewriteStage_wb r (s := adoptForeigns s) (adoptForeigns_powerdown hp)
    have hcause (h : 0 < u.start.discrepancies) : hasCause w.attn.pending .discrepancy = true := by
      rw [hu] at h
      rw [hw]
      exact rewriteStage_pending h
    clear_value w
    rw [ht, beginCompare_eq]
    exact ⟨rfl, fun r => ⟨List.mem_append_left _ (hport r), hwb r⟩, hcause⟩
  · intro s n word
    refine ⟨fun hd => ?_, fun hd => ?_⟩
    · rw [endBatchWord_eq, if_pos hd]
    · obtain ⟨hwrites, hkeeps⟩ := endBatchWord_depthZero hd
      refine ⟨fun h h' => hwrites _ (ofCode_running h h'), fun h => hwrites _ ?_, fun st h => ?_, fun h => ?_⟩
      · rw [show field s.start.endWord 0 8 = 7 from h]
        rfl
      · obtain ⟨hcode, hnone⟩ := ofCode_ended h
        rw [hkeeps (by rw [hcode, hnone]), hcode]
        rfl
      · rw [hkeeps (by rw [ofCode_above h]; rfl), ofCode_above h]
        rfl
  · exact rebuildEnds_eq
  · intro s m ha hm hn a hc h t
    rw [exec_comparisonRead ha hn, comparisonRead_clean (s := granted s (.compare 255)) hm hc, compareNext_last rfl]
    exact ⟨fun hr => congrArg settled (if_pos hr), fun hr => congrArg settled (if_neg hr)⟩
  · intro s y o own p read
    have hread : read = readbackAt s o y.host.slot := rfl
    obtain ⟨st, route, att, hp⟩ := activeClaim_claimPath s y
    have hp' : p = claimPath s y.no y.host st route att := hp
    refine ⟨hp' ▸ rfl, hp' ▸ rfl, hp' ▸ rfl, hp' ▸ rfl, hp' ▸ claimPath_host .., hp' ▸ rfl, fun hr => ?_, fun x hx => ?_, fun i hi => ?_,
      fun hi d hd => adoptActive_unlisted hi hd⟩
    · have hc : p = _ := activeClaim_unread (hread ▸ hr)
      exact hc ▸ ⟨rfl, rfl, rfl⟩
    · have hx' : readbackAt s (Res.ofDst y.host.dst) y.host.slot = some x := hread ▸ hx
      by_cases hag : readAgrees s y x
      · have hc : p = _ := activeClaim_agrees hx' hag
        refine ⟨hc ▸ rfl, fun hst _ => ⟨hc ▸ rfl, ?_⟩, fun hst _ => ?_, fun hdiff => absurd hdiff ((readAgrees_iff s y x).mp hag)⟩
        · rw [hc]
          rcases hst with hst | hst <;> simp [claimPath, hst]
        · rw [hc]
          simp [claimPath, hst, DoneState.pathState]
      · have hc : p = _ := activeClaim_differs hx' hag
        refine ⟨hc ▸ rfl, fun hst hin => absurd (.inl ⟨hst, hin⟩) hag, fun hst hin => absurd (.inr ⟨hst, hin⟩) hag, fun _ => ?_⟩
        rw [hc]
        exact ⟨rfl, routeOf_eq x⟩
    · obtain ⟨hst', hneeds, hq⟩ := oldHalfClaim_fields s y
      refine ⟨adoptActive_new hi, fun hh => ⟨oldHalfClaim s y, hst', hneeds, fun x hx => ?_, adoptActive_old hi hh⟩⟩
      obtain ⟨hatt, hroute⟩ := hq x (hread ▸ hx)
      exact ⟨hatt, hroute.trans (routeOf_eq x)⟩
  · exact fun s r p c => ⟨claim_eq_none s.table p, fun t => claim_paths, fun h => presentClaim_refused h r c, fun t h => presentClaim_accepted h r c⟩
  · intro s o n
    refine ⟨adoptForeign_owned, fun l x hl hx hf => ?_⟩
    have hx' : readbackAt s o n = some x := (readbackAt_given hl).trans hx
    refine ⟨adoptForeign_fill hf hx', fun hi => ?_⟩
    obtain ⟨src, hs⟩ : ∃ src, foreignSource x.input = some src := by
      rcases hi with ⟨d, hi⟩ | ⟨g, hi⟩
      · exact ⟨.deg d, by rw [hi]; rfl⟩
      · exact ⟨.grp g, by rw [hi]; rfl⟩
    obtain ⟨hcount, hfree, htaken⟩ := adoptForeign_fields hf hx' hs
    refine ⟨hcount, _, rfl, rfl, rfl, rfl, ?_, fun d hd => ?_, fun g hg => ?_, rfl, rfl, rfl, rfl, hfree, htaken⟩
    · cases o <;> rfl
    · rw [hd] at hs
      exact (Option.some.inj hs).symm
    · rw [hg] at hs
      exact (Option.some.inj hs).symm
  · intro s m i ha hm hn a hc w
    refine ⟨fun hw => ?_, fun f hw hl hr => ?_, fun f l x hw hl hg hx => ?_⟩
    · rw [newHalfStagingRead_clean ha hm hn hc, adoptNewHalf_skipped _ hw]
    · obtain ⟨hst, hhost, howner⟩ := newHalfClaim_fields s i f
      obtain ⟨hatt, hroute⟩ := newHalfClaim_unread (i := i) (readbackAt_eq_none hr)
      exact ⟨_, hst, hatt, hroute, hhost, howner, newHalfStagingRead_claims ha hm hn hc hw hl⟩
    · obtain ⟨hst, hhost, howner⟩ := newHalfClaim_fields s i f
      obtain ⟨hatt, hroute⟩ := newHalfClaim_read (i := i) ((readbackAt_given hg).trans hx)
      exact ⟨_, hst, hatt, hroute, hhost, howner, newHalfStagingRead_claims ha hm hn hc hw hl⟩
  · exact fun s m i => newHalfStagingRead_uncorrectable
  · intro s m r ha hm hn a hu u
    have hseqr : u.seqr = s.seqr := by
      show (readBurst .rebuild a 3 (granted s (.compare r))).1.seqr = s.seqr
      simp [granted, fresh]
    rw [exec_comparisonRead ha hn, comparisonRead_uncorrectable (s := granted s (.compare r)) hm hu]
    change (_ → settled (compareNext r u) = _) ∧ (_ → _ → settled (compareNext r u) = _) ∧ (_ → _ → settled (compareNext r u) = _)
    refine ⟨fun hr => ?_, fun hr hre => ?_, fun hr hre => ?_⟩
    · rw [compareNext_before hr]
      rfl
    · rw [compareNext_last hr, if_pos (hseqr ▸ hre), hseqr]
    · rw [compareNext_last hr, if_neg (hseqr ▸ hre)]
  · intro s m r ha hm hn hr a hc h
    rw [exec_comparisonRead ha hn, comparisonRead_clean (s := granted s (.compare r)) hm hc, compareNext_before hr]
    rfl

end

/-! ### Commands accepted: a batch begun, a RESUME that joins the work list (R59, R60, R62, R155) -/

namespace Sys2Proof.Machine

theorem CommandReady.taken {s : State} {a : Nat} {x k : BitVec 8} {c : CommandBeat} {q : BitVec 16} (h : CommandReady s a x c k q) :
    TakenAsCommand s a := ⟨h.place, h.range, h.page, h.role⟩

/-- The word that a command's beat has landed is the one handed over (R7). -/
theorem CommandReady.word {s : State} {a : Nat} {x k : BitVec 8} {c : CommandBeat} {q : BitVec 16} (h : CommandReady s a x c k q) :
    (landed s (BitVec.ofNat 24 a) (CommandBeat.write x c)).mem.word a = landedWord s (BitVec.ofNat 24 a) (CommandBeat.write x c) := by
  rw [landed, h.taken.wordAddr, Memory.word_storeWord_same h.memory]

/-- The state in which a command is handed over: its beat has landed, under its cycle's grant (R7, R17). -/
def handedOver (s : State) (a : Nat) (x : BitVec 8) (c : CommandBeat) : State :=
  { landed s (BitVec.ofNat 24 a) (CommandBeat.write x c) with bus := (underGrant s).bus }

/-- A command's beat at the status page leaves the part as the command handed over does, under the bus of the beat's end (R6, R7). -/
theorem exec_handed {s t : State} {a : Nat} {code x k : BitVec 8} {c : CommandBeat} {q : BitVec 16} {i : Instr} (hi : (i, x) ∈ batchWrites code c)
    (h : CommandReady s a x c k q) (hs : s.seqr.st ≠ .unconfigured)
    (hbus : t.bus = (landed s (BitVec.ofNat 24 a) (CommandBeat.write x c)).bus)
    (ht : handCommand (landedWord s (BitVec.ofNat 24 a) (CommandBeat.write x c)) (handedOver s a x c) = { t with bus := (underGrant s).bus }) :
    exec i s = settled t := by
  have hl := Lands.ready h.beat
  obtain ⟨hheld, hpass⟩ := h.taken.passes (CommandBeat.write x c)
  have hword : (Beat.ofWrite (BitVec.ofNat 24 a) (CommandBeat.write x c)).word = a := h.taken.wordAddr
  have hrole : s.win.role (pageOf a) = .status := h.role.resolve_right (fun hr => hs hr.2.1)
  have hside : sideEffect (.ofWrite (BitVec.ofNat 24 a) (CommandBeat.write x c)) (handedOver s a x c) = { t with bus := (underGrant s).bus } := by
    rw [sideEffect_status (by rw [handedOver, hl.role, Beat.role, hword, hrole]), hword, if_pos h.page]
    exact (congrArg (handCommand · _) h.word).trans ht
  rw [exec_batchWrite hi h.taken, beatEvent_lands hl hheld hpass hside, ← hbus]

theorem handCommand_commit {s : State} {w : Word} {q : BitVec 16} (hs : s.seqr.st ≠ .unconfigured) (hk : w.extractLsb' 0 8 = (1 : BitVec 8))
    (hq : w.extractLsb' 16 16 = q) (h0 : q ≠ 0) : handCommand w s = takeCommit q s := by
  simp only [handCommand, hk, hq, if_neg hs, if_neg h0, if_true]

theorem handCommand_resume {s : State} {w : Word} {q : BitVec 16} (hs : s.seqr.st ≠ .unconfigured) (hk : w.extractLsb' 0 8 = (5 : BitVec 8))
    (hq : w.extractLsb' 16 16 = q) : handCommand w s = takeResume q s := by
  simp [handCommand, hk, hq, hs]

theorem takeCommit_accepted {s : State} (q : BitVec 16) (hs : s.seqr.st = .idle) (hd : s.intr.depth = 0) (hr : s.seqr.reread = .none) :
    takeCommit q s = beginBatch q none (respond q 1 .accepted s) := by
  simp [takeCommit, hs, hd, hr]

/-- The work list once a RESUME has been accepted: a fifth lapses (R155). -/
theorem takeResume_accepted {s : State} (q : BitVec 16) (hd : 0 < s.intr.depth) (hb : s.seqr.st ≠ .rebuilding) (hp : s.seqr.st ≠ .powerdown) :
    takeResume q s = { respond q 5 .accepted s with
      intr := { s.intr with work := if s.intr.work.count .resume < 4 then s.intr.work ++ [.resume] else s.intr.work } } := by
  have hcount : s.intr.work.countP (fun w => w = .resume) = s.intr.work.count .resume := rfl
  rw [takeResume, if_pos (by simp [hd, hb, hp])]
  by_cases h : s.intr.work.count .resume < 4 <;> simp [respond, request, hcount, h]

/-- The first read of a batch whose fetch has taken none: the first touched record under its hold, or the masks (R14, R62). -/
theorem nextFetch_first {s : State} (hb : s.batch.present = true) (he : s.batch.ending = false) (hw : s.batch.work = .fetch)
    (hl : s.batch.lastFetched = none) (hp : s.start.powerdown = false) :
    nextFetch s = { s with
      port := s.port ++ [s.touched.head?.elim .fetchMasks .fetchRec]
      holds := { s.holds with fetch := s.touched.head?.or s.holds.fetch } } := by
  have habove : aboveFetched s = fun _ => true := funext fun r => by simp [aboveFetched, hl]
  rw [nextFetch_fetching hb he hw, habove]
  cases ht : s.touched with
  | nil => simp [request, ht]
  | cons r l => simp [request, hp]

/-- The host's batch begins with a status page installed, outside POWERDOWN (R60, R62). -/
theorem beginBatch_host {s : State} (q : BitVec 16) (hm : s.win.map.isSome = true) (hp : s.start.powerdown = false) :
    beginBatch q none s = { s with
      batch := { Batch.reset with present := true, seq := q, work := .fetch }
      seqr := { s.seqr with st := .fetching, shown := { st := .fetching, seq := q } }
      port := s.port ++ [.batchState { st := .fetching, seq := q }, .counters .zero] ++ [s.touched.head?.elim .fetchMasks .fetchRec]
      holds := { s.holds with fetch := s.touched.head?.or s.holds.fetch } } := by
  have ht : beginBatch q none s = nextFetch { s with
      batch := { Batch.reset with present := true, seq := q, work := .fetch }
      seqr := { s.seqr with st := .fetching, shown := { st := .fetching, seq := q } }
      port := s.port ++ [.batchState { st := .fetching, seq := q }, .counters .zero] } := by
    simp [beginBatch, enterState, writeBatchState, writeCounters, requestStatus, request, hm, Batch.reset]
  exact ht.trans (nextFetch_first rfl rfl rfl rfl hp)

end Sys2Proof.Machine

section
open Sys2Proof Sys2Proof.Machine

/-- Settles O17: the beat hands the COMMIT over, and the batch begins behind its response. -/
theorem commitBeginsABatch : Obligations.CommitBeginsABatch := by
  intro s a c q h hq hs hd hr hp hm w
  have hst : s.seqr.st ≠ .unconfigured := by simp [hs]
  refine exec_handed (code := 1) (i := .commit c) (x := 1) (by simp [batchWrites]) h hst rfl ?_
  rw [handCommand_commit (s := handedOver s a 1 c) hst h.kind h.sequence hq, takeCommit_accepted (s := handedOver s a 1 c) q hs hd hr,
    beginBatch_host (s := respond q 1 .accepted (handedOver s a 1 c)) q hm hp]
  cases ht : s.touched with
  | nil => simp [w, handedOver, respond, request, landed, ht]
  | cons r l => simp [w, handedOver, respond, request, landed, ht]

/-- Settles O21: the beat hands the RESUME over, and the work list takes it where it holds fewer than four. -/
theorem resumeJoinsTheWorkList : Obligations.ResumeJoinsTheWorkList := by
  intro s a c q h hd hu hb hp
  refine exec_handed (code := 5) (i := .resume c) (x := 5) (by simp [batchWrites]) h hu rfl ?_
  rw [handCommand_resume (s := handedOver s a 5 c) hu h.kind h.sequence, takeResume_accepted (s := handedOver s a 5 c) q hd hb hp]
  rfl

end

/-! ### The source light test (R71) -/

namespace Sys2Proof.Machine

/-- A degree carries no light where it is DARK or HOLDOFF (R71). -/
theorem not_litSource_degree (s : State) (d : Degree) :
    (!litSource s (.deg d)) = decide (s.light.state.get d = .dark ∨ s.light.state.get d = .holdoff) := by
  cases h : s.light.state.get d <;> simp [litSource, h]

/-- The test is made on the new source of an ADD or MOVE (R71). -/
theorem darkSource_newSource {s : State} {f : HostFields} {k : Kind} {p : Option Path} (h : k = .add ∨ k = .move) :
    darkSource s (.conn f) k p = !litSource s (.of f.src) := by
  rcases h with rfl | rfl <;> rfl

/-- The test is made on the present source of a RETUNE, COMPLETE or RESTORE (R71). -/
theorem darkSource_presentSource {s : State} {st : Staged} {k : Kind} {q : Path} (h : k = .retune ∨ k = .complete ∨ k = .restore) :
    darkSource s st k (some q) = !litSource s q.src := by
  rcases h with rfl | rfl | rfl <;> rfl

theorem darkSource_untested {s : State} {st : Staged} {k : Kind} {p : Option Path} (h : k = .remove ∨ k = .adopt ∨ k = .noChange) :
    darkSource s st k p = false := by
  rcases h with rfl | rfl | rfl <;> rfl

/-- A record that passes the format, loopback and profile tests stands or falls by the source light test (R66, R71). -/
theorem verdict_light {s : State} {r : RecNo} {ws : HostWords} {st : Staged} (h : Staged.ofWords ws = some st)
    (hl : ∀ f, st = .conn f → loopback f = false)
    (hp : profileFails s st (classify s st (presentPath r s)) (presentPath r s) = false) :
    verdictOf s r ws = if darkSource s st (classify s st (presentPath r s)) (presentPath r s) then .rej .sourceDark
      else .kind (classify s st (presentPath r s)) := by
  cases st with
  | empty => simp [verdictOf, h, hp]
  | conn f => simp [verdictOf, h, hl f rfl, hp]

end Sys2Proof.Machine

section
open Sys2Proof Sys2Proof.Machine

/-- Settles O51: the test of each kind is of one source, and the verdict that of a record the earlier tests let pass. -/
theorem sourceLightTest : Obligations.SourceLightTest := by
  refine fun s f st q p => ⟨fun k hk => ?_, fun k hk => ?_, fun k hk => darkSource_untested hk, fun r ws hw hl => verdict_light hw hl, fun r _ hq => by simp [Path.adopted, hq]⟩
  · rw [darkSource_newSource hk]
    cases f.src with
    | deg d => exact not_litSource_degree s d
    | port => rfl
  · rw [darkSource_presentSource hk]
    cases q.src with
    | deg d => exact not_litSource_degree s d
    | port | grp => rfl

end

/-! ### HOLD and RELEASE accepted (R91, R92) -/

namespace Sys2Proof.Machine

theorem handCommand_hold {s : State} {w : Word} {q : BitVec 16} (hs : s.seqr.st ≠ .unconfigured) (hk : w.extractLsb' 0 8 = (3 : BitVec 8))
    (hq : w.extractLsb' 16 16 = q) : handCommand w s = takeHold q s := by
  simp [handCommand, hk, hq, hs]

theorem handCommand_release {s : State} {w : Word} {q : BitVec 16} (hs : s.seqr.st ≠ .unconfigured) (hk : w.extractLsb' 0 8 = (4 : BitVec 8))
    (hq : w.extractLsb' 16 16 = q) : handCommand w s = takeRelease q s := by
  simp [handCommand, hk, hq, hs]

theorem batchOpen_iff (s : State) : batchOpen s = true ↔ s.batch.present = true ∧ s.batch.ending = false := by
  simp [batchOpen]

/-- With a status page installed, a state is entered with its batch state word asked for (R27). -/
theorem enterState_installed {s : State} (h : s.win.map.isSome = true) (st : SeqState) (w : BatchWordState) :
    enterState st w s = { s with
      port := s.port ++ [.batchState { st := w, seq := s.batch.seq }]
      seqr := { s.seqr with st := st, shown := { st := w, seq := s.batch.seq } } } :=
  if_pos h

/-- A HOLD in RUNNING is answered, then HOLDING is entered (R91; log 97). -/
theorem takeHold_accepted {s : State} (q : BitVec 16) (hs : s.seqr.st = .running) (ho : batchOpen s = true) :
    takeHold q s = enterState .holding .holding (respond q 3 .accepted s) := by
  have ho' : batchOpen (respond q 3 .accepted s) = true := ho
  rw [takeHold, if_pos hs]
  exact if_pos ho'

/-- A RELEASE in HOLDING or HELD is answered, then RUNNING is entered (R92; log 97). -/
theorem takeRelease_accepted {s : State} (q : BitVec 16) (hs : s.seqr.st = .holding ∨ s.seqr.st = .held) (ho : batchOpen s = true) :
    takeRelease q s = enterRunning (respond q 4 .accepted s) := by
  have ho' : batchOpen (respond q 4 .accepted s) = true := ho
  rw [takeRelease, if_pos (by simpa using hs)]
  exact if_pos ho'

end Sys2Proof.Machine

section
open Sys2Proof Sys2Proof.Machine

/-- Settles O20: the beat hands the command over, its response is asked for, and the sequencer enters the state behind it. -/
theorem holdAndReleaseSwitchTheRun : Obligations.HoldAndReleaseSwitchTheRun := by
  intro s a c q hp he hm
  have ho : batchOpen s = true := (batchOpen_iff s).mpr ⟨hp, he⟩
  refine ⟨fun h hs => ?_, fun h hs => ?_⟩
  · have hst : s.seqr.st ≠ .unconfigured := by simp [hs]
    refine exec_handed (code := 3) (i := .hold c) (x := 3) (by simp [batchWrites]) h hst rfl ?_
    rw [handCommand_hold (s := handedOver s a 3 c) hst h.kind h.sequence, takeHold_accepted (s := handedOver s a 3 c) q hs ho,
      enterState_installed (s := respond q 3 .accepted (handedOver s a 3 c)) hm]
    simp [handedOver, respond, request, landed]
  · have hst : s.seqr.st ≠ .unconfigured := by rcases hs with hs | hs <;> simp [hs]
    refine exec_handed (code := 4) (i := .release c) (x := 4) (by simp [batchWrites]) h hst rfl ?_
    rw [handCommand_release (s := handedOver s a 4 c) hst h.kind h.sequence, takeRelease_accepted (s := handedOver s a 4 c) q hs ho,
      enterRunning, enterState_installed (by exact hm)]
    simp [handedOver, respond, request, landed]

end

/-! ### What a ready expiry decides (R103 to R109) -/

namespace Sys2Proof.Machine

@[simp] theorem engine_updateEngine_same (e : EngineNo) (f : Engine → Engine) (s : State) :
    (updateEngine e f s).engine e = f (s.engine e) := by
  simp [updateEngine, engine_setEngine]

/-- A change that an engine already shows leaves the state. -/
theorem updateEngine_same {e : EngineNo} {f : Engine → Engine} {s : State} (h : f (s.engine e) = s.engine e) : updateEngine e f s = s := by
  have hv : s.ramp.engines.set e (s.engine e) = s.ramp.engines := by simp [State.engine]
  rw [updateEngine, setEngine, h, hv]

/-! #### The decisions of RAMP_UP and RAMP_RETUNE (R106, R107) -/

/-- An engine given the direction of its ramp (R107). -/
def turned (e : EngineNo) (d : Direction) (s : State) : State := updateEngine e (fun g => { g with dir := d }) s

theorem turned_same {e : EngineNo} {d : Direction} {s : State} (h : (s.engine e).dir = d) : turned e d s = s :=
  updateEngine_same (by rw [← h])

section
variable {e : EngineNo} {g : Engine} {o : EngOwner} {a : Nat} {m : Int} {s : State}

theorem decideRamp_within (hl : g.target - g.prof.tol ≤ m) (hu : m ≤ g.target + g.prof.tol) : decideRamp e g o a m s = endRamp e none s := by
  simp [decideRamp, Int.not_lt.mpr hl, Int.not_lt.mpr hu]

/-- Above tolerance a falling ramp steps back once and ends (R106). -/
theorem decideRamp_above_falling (hd : g.dir = .falling) (h : g.target + g.prof.tol < m) :
    decideRamp e g o a m s = endRamp e (some (m, a, min 250 (a + g.prof.up))) (turned e .falling s) := by
  have hs : ¬ m < g.target - g.prof.tol := by omega
  simp [decideRamp, turned, hd, hs, h]

/-- Short of tolerance a falling ramp steps on, and at attenuation 0 it fails (R106); a ramp without a direction falls (R107). -/
theorem decideRamp_short_falling (hd : g.dir = .falling ∨ g.dir = .none) (h : m < g.target - g.prof.tol) :
    decideRamp e g o a m s =
      if 0 < a then rampStep e m a (a - g.prof.up) (turned e .falling s) else engineFails o .underpower (turned e .falling s) := by
  rcases hd with hd | hd <;> simp [decideRamp, turned, hd, h]

/-- Above tolerance a rising ramp steps up, and at 250 it ends; a ramp without a direction rises (R107). -/
theorem decideRamp_above_rising (hd : g.dir = .rising ∨ g.dir = .none) (h : g.target + g.prof.tol < m) :
    decideRamp e g o a m s =
      if a < 250 then rampStep e m a (min 250 (a + g.prof.up)) (turned e .rising s) else endRamp e none (turned e .rising s) := by
  have hs : ¬ m < g.target - g.prof.tol := by omega
  rcases hd with hd | hd <;> simp [decideRamp, turned, hd, hs, h]

/-- Short of tolerance a rising ramp steps back once and ends (R107). -/
theorem decideRamp_short_rising (hd : g.dir = .rising) (h : m < g.target - g.prof.tol) :
    decideRamp e g o a m s = endRamp e (some (m, a, a - g.prof.up)) (turned e .rising s) := by
  have hu : ¬ g.target + g.prof.tol < m := by omega
  simp [decideRamp, turned, hd, h, hu]

end

/-! #### The decision of VERIFY (R109) -/

theorem decideVerify_noLight {e : EngineNo} {g : Engine} {s1 s2 : Int} (o : EngOwner) (s : State)
    (h : s1 < g.target - 100 ∨ s2 < g.target - 100) : decideVerify e g o s1 s2 s = engineFails o .noLight s := by
  simp [decideVerify, h]

/-- With light in both samples the engine is freed, the path is LIVE or OFF_TARGET, and the requester has verified. -/
theorem decideVerify_light {e : EngineNo} {g : Engine} {s1 s2 : Int} (o : EngOwner) (s : State) (h1 : g.target - 100 ≤ s1)
    (h2 : g.target - 100 ≤ s2) :
    decideVerify e g o s1 s2 s =
      (let st : PathState := if g.target - g.prof.tol ≤ s1 ∧ s1 ≤ g.target + g.prof.tol ∧ g.target - g.prof.tol ≤ s2 ∧
          s2 ≤ g.target + g.prof.tol then .live else .offTarget
       if o.restore then endRestore o.no (updatePath o.pid (fun p => { p with st := st }) (freeEngine e s))
       else verified o.no (updatePath o.pid (fun p => { p with st := st }) (freeEngine e s))) := by
  simp [decideVerify, Int.not_lt.mpr h1, Int.not_lt.mpr h2, and_assoc]

theorem verified_finishes {s : State} {r : RecNo} {x : Entry} (h : s.entry? r = some x) :
    verified r s = finishEntry r (if x.reversing then .abandoned else .done) true s := by
  simp [verified, h]

/-! #### Expiries (R103, R104) -/

/-- An expiry at the zero count decides, and the count is reloaded where the engine is still held under its grant (R103; log 44). -/
theorem exec_intervalExpiry {s : State} {e : EngineNo} {o : EngOwner} {p : Path} (ha : Awake s) (hs : EngineServes s e o p) :
    exec (.intervalExpiry e) s = settled
      (let u := expiryDecision e (fresh s)
       if (u.engine e).st = .free ∨ (u.engine e).grant ≠ (s.engine e).grant then u
       else setEngine e (if (u.engine e).st = .returning ∧ (s.engine e).st ≠ .returning then (u.engine e).reloadHeld
         else (u.engine e).reload) u) := by
  obtain ⟨hheld, hcount, -, -, hpow⟩ := hs
  rw [exec, execIntervalExpiry, event_awake ha]
  have hengine : (fresh s).engine e = s.engine e := rfl
  simp [intervalExpires, hengine, hheld, hcount, hpow]

/-- A decision that leaves the engine in its state and under its grant is followed by the plain reload (R103). -/
theorem exec_intervalExpiry_reloads {s : State} {e : EngineNo} {o : EngOwner} {p : Path} (ha : Awake s) (hs : EngineServes s e o p)
    (hst : ((expiryDecision e (fresh s)).engine e).st = (s.engine e).st)
    (hgrant : ((expiryDecision e (fresh s)).engine e).grant = (s.engine e).grant) :
    exec (.intervalExpiry e) s = settled (setEngine e ((expiryDecision e (fresh s)).engine e).reload (expiryDecision e (fresh s))) := by
  have hheld : (s.engine e).st ≠ .free := hs.1
  simp [exec_intervalExpiry ha hs, hst, hgrant, hheld]

/-- An engine whose sample is taken at a ready expiry: the miss count is cleared and the adjustment moved (R104, R108). -/
def Engine.sampled (g : Engine) (m : Int) : Engine :=
  { g with miss := 0, adj := adjust g m, expected := none, samp := .none, sample := none }

/-- The command of an engine past its first expiry is answered and its sample `m` has arrived (R104). -/
structure SampleReady (g : Engine) (m : Int) : Prop where
  begun : g.st ≠ .armed
  answered : g.cmd = .none
  arrived : g.samp = .arrived
  sample : g.sample = some m

/-- With its command answered and its sample arrived, an engine that wants samples decides on it (R104). -/
theorem expiryDecision_ready {s : State} {e : EngineNo} {o : EngOwner} {p : Path} {m : Int} (hs : EngineServes s e o p)
    (hr : SampleReady (s.engine e) m) (hw : (s.engine e).kind.wantsSample = true) :
    expiryDecision e s =
      decide' e { s.engine e with adj := adjust (s.engine e) m } o p (updateEngine e (fun g => g.sampled m) s) := by
  obtain ⟨-, -, hown, hpath, -⟩ := hs
  obtain ⟨hbegun, hanswered, harrived, hsample⟩ := hr
  simp only [expiryDecision, hown, Option.bind_some, hpath, if_neg hbegun, hanswered, hw, if_true, harrived, hsample]
  rfl

theorem decide'_ramp {e : EngineNo} {g : Engine} {o : EngOwner} {p : Path} {s : State} {m : Int} (hk : g.kind = .rampUp ∨ g.kind = .rampRetune)
    (hm : g.sample = some m) : decide' e g o p s = decideRamp e g o (attNum p.att) m s := by
  rcases hk with hk | hk <;> simp [decide', hk, hm]

/-- VERIFY keeps its first sample and asks for the second (R109). -/
theorem decide'_verify_first {e : EngineNo} {g : Engine} {o : EngOwner} {p : Path} {s : State} {m : Int} (hk : g.kind = .verify)
    (hm : g.sample = some m) (hf : g.first = none) :
    decide' e g o p s = askForPath e (updateEngine e (fun g => { g with first := some m, wanted := 1 }) s) := by
  simp [decide', hk, hm, hf]

theorem decide'_verify_second {e : EngineNo} {g : Engine} {o : EngOwner} {p : Path} {s : State} {m s1 : Int} (hk : g.kind = .verify)
    (hm : g.sample = some m) (hf : g.first = some s1) : decide' e g o p s = decideVerify e g o s1 m s := by
  simp [decide', hk, hm, hf]

/-- An engine that serves a path asks for a sample of the path's output point and slot (R105). -/
theorem askForPath_serving {s : State} {e : EngineNo} {o : EngOwner} {p : Path} (ho : (s.engine e).owner = some o) (hp : s.path? o.pid = some p) :
    askForPath e s = askSample e p.dst.out p.slot s := by
  simp [askForPath, ho, hp]

/-- The first sample of VERIFY is kept and its second asked for (R105, R109). -/
theorem expiryDecision_firstSample {s : State} {e : EngineNo} {o : EngOwner} {p : Path} {m : Int} (hs : EngineServes s e o p)
    (hr : SampleReady (s.engine e) m) (hk : (s.engine e).kind = .verify) (hf : (s.engine e).first = none) :
    expiryDecision e s = { setEngine e { (s.engine e).sampled m with first := some m, wanted := 1, samp := .outstanding } s with
      mon := { s.mon with send := s.mon.send ++ [{ asker := { engine := e, grant := (s.engine e).grant }, point := p.dst.out, slot := p.slot }] } } := by
  have ⟨_, _, hown, hpath, _⟩ := hs
  have hasked := askForPath_serving (e := e) (o := o) (p := p)
    (s := updateEngine e (fun g => { g with first := some m, wanted := 1 }) (updateEngine e (fun g => g.sampled m) s))
    (by simpa [Engine.sampled] using hown) hpath
  refine (expiryDecision_ready hs hr (by rw [hk]; rfl)).trans ((decide'_verify_first hk hr.sample hf).trans (hasked.trans ?_))
  simp [askSample, updateEngine, setEngine, State.engine, Engine.sampled]

/-- An expiry that takes VERIFY's first sample leaves the engine reloaded and its second sample asked for (R103, R109). -/
theorem exec_firstSample {s : State} {e : EngineNo} {o : EngOwner} {p : Path} {m : Int} (ha : Awake s) (hs : EngineServes s e o p)
    (hr : SampleReady (s.engine e) m) (hk : (s.engine e).kind = .verify) (hf : (s.engine e).first = none) :
    exec (.intervalExpiry e) s = settled { fresh s with
      ramp := { s.ramp with
        engines := s.ramp.engines.set e
          ({ (s.engine e).sampled m with first := some m, wanted := 1, samp := .outstanding } : Engine).reload }
      mon := { s.mon with send := s.mon.send ++ [{ asker := { engine := e, grant := (s.engine e).grant }, point := p.dst.out, slot := p.slot }] } } := by
  have hu := expiryDecision_firstSample (s := fresh s) hs hr hk hf
  have hengine : (expiryDecision e (fresh s)).engine e =
      { (s.engine e).sampled m with first := some m, wanted := 1, samp := .outstanding } := by
    rw [hu]
    simp [State.engine, setEngine]
  rw [exec_intervalExpiry_reloads ha hs (by rw [hengine]; rfl) (by rw [hengine]; rfl), hengine, hu]
  simp [setEngine, State.engine]

/-! #### Steps (R105, R106, R108) -/

theorem rampStep_changes {e : EngineNo} {m : Int} {a a' : Nat} {s : State} (h : a ≠ a') :
    rampStep e m a a' s =
      setAtten e a' (updateEngine e (fun g => { g with prev := some m, expected := some (m + ((a : Int) - (a' : Int))) }) s) := by
  simp [rampStep, h]

section
variable {s : State} {e : EngineNo} {o : EngOwner} {p : Path} {a : Nat}

theorem setAtten_held (ho : (s.engine e).owner = some o) (hp : s.path? o.pid = some p) (ha : p.att = .db a) :
    setAtten e a s = engineAnswered e s := by
  simp [setAtten, ho, hp, ha]

/-- An attenuation that the path does not hold is sent as one ATTEN; refused, it fails the step (R105, R136). -/
theorem setAtten_sends (ho : (s.engine e).owner = some o) (hp : s.path? o.pid = some p) (ha : p.att ≠ .db a) :
    setAtten e a s = (handOrdinary (engineAtten e (s.engine e) o p a) s).getD (engineFails o .module s) := by
  simp only [setAtten, ho, hp, if_neg ha]
  cases handOrdinary (engineAtten e (s.engine e) o p a) s <;> rfl

end

/-! #### Ends of ramps (R83, R106, R109) -/

/-- An engine put on VERIFY at the end of its ramp (R106, R107, R109). -/
def verifying (e : EngineNo) (s : State) : State :=
  updateEngine e (fun g => { g with st := .verifying, kind := .verify, wanted := 2, first := none, samp := .none, sample := none }) s

/-- What a requester does about VERIFY at the end of a ramp: with light lost in the running batch an entry's cursor alone moves on (R83; log 58), and
otherwise the source test decides; `ask` is what VERIFY begins with. -/
def verifyBegun (o : EngOwner) (ask : State → State) (s : State) : State :=
  if !o.restore && s.batch.lossStop then toVerify o s
  else if verifyAllowed o s then ask (toVerify o s) else engineFails o .sourceDark s

theorem verifyBegun_lossStop {o : EngOwner} {ask : State → State} {s : State} (hr : o.restore = false) (hl : s.batch.lossStop = true) :
    verifyBegun o ask s = toVerify o s := if_pos (by simp [hr, hl])

/-- Without a loss of light, or for a restore, the source test decides (R83, R109). -/
theorem verifyBegun_tested {o : EngOwner} {s : State} (ask : State → State) (h : o.restore = true ∨ s.batch.lossStop = false) :
    verifyBegun o ask s = if verifyAllowed o s = true then ask (toVerify o s) else engineFails o .sourceDark s :=
  if_neg (by rcases h with h | h <;> simp [h])

/-- A ramp that ends with no command goes to VERIFY, which asks for its first sample at once (R109). -/
theorem endRamp_noCommand {s : State} {e : EngineNo} {o : EngOwner} (ho : (s.engine e).owner = some o) :
    endRamp e none s = verifyBegun o (askForPath e) (verifying e s) := by
  simp only [endRamp, ho]
  exact if_pos (by simp)

/-- A ramp that ends with a step back goes to VERIFY behind that step, where the engine is still held for it (R106, R109). -/
theorem endRamp_stepBack {s : State} {e : EngineNo} {o : EngOwner} (m : Int) (a a' : Nat) (ho : (s.engine e).owner = some o) :
    endRamp e (some (m, a, a')) s =
      (let w := rampStep e m a a' (verifying e s)
       if (s.engine e).grant = (w.engine e).grant ∧ (w.engine e).st = .verifying then verifyBegun o id w else w) := by
  simp only [endRamp, ho]
  refine if_congr ?_ rfl rfl
  rw [Bool.and_eq_true, decide_eq_true_iff, decide_eq_true_iff, eq_comm (a := Engine.grant _)]
  rfl

theorem verifyAllowed_entry {o : EngOwner} {s : State} {p : Path} (hr : o.restore = false) (hp : s.path? o.pid = some p) :
    verifyAllowed o s = true ↔ (∀ d, p.src = .deg d → s.light.state.get d = .lit) ∧ p.squelched = false := by
  cases h : p.src <;> simp [verifyAllowed, sourceLit, hr, hp, h]

theorem toVerify_restore {o : EngOwner} (s : State) (hr : o.restore = true) : toVerify o s = setRestoreStep o.no .verify s := if_pos hr

theorem toVerify_entry {o : EngOwner} (s : State) (hr : o.restore = false) :
    toVerify o s = updateEntry o.no (fun x => { x with chain := x.chain.drop 1 }) s := if_neg (by simp [hr])

end Sys2Proof.Machine

section
open Sys2Proof Sys2Proof.Machine

/-- Settles O43: the two decisions by where the samples lie, the expiry that makes them, and what a step, an end and a failure lead to. -/
theorem rampAndVerifyDecisions : Obligations.RampAndVerifyDecisions := by
  refine ⟨?_, fun s r x => verified_finishes, ?_, ?_, ?_⟩
  · intro s e o a m s1 s2 g t tol turned'
    refine ⟨decideRamp_within, fun hd h => ?_, fun hd h ha => ?_, fun hd h ha => ?_, fun hd h ha => ?_, fun hd h ha => ?_, fun hd h => ?_,
      fun hd h ha => ?_, fun hd h ha => ?_, fun hd h ha => ?_, fun hd h ha => ?_, decideVerify_noLight o s, decideVerify_light o s⟩
    · rw [decideRamp_above_falling hd h, turned_same hd]
    · rw [decideRamp_short_falling (.inl hd) h, if_pos ha, turned_same hd]
    · rw [decideRamp_short_falling (.inl hd) h, if_neg (by omega), turned_same hd]
    · rw [decideRamp_above_rising (.inl hd) h, if_pos ha, turned_same hd]
    · rw [decideRamp_above_rising (.inl hd) h, if_neg (by omega), turned_same hd]
    · rw [decideRamp_short_rising hd h, turned_same hd]
    · rw [decideRamp_short_falling (.inr hd) h, if_pos ha]; rfl
    · rw [decideRamp_short_falling (.inr hd) h, if_neg (by omega)]; rfl
    · rw [decideRamp_above_rising (.inr hd) h, if_pos ha]; rfl
    · rw [decideRamp_above_rising (.inr hd) h, if_neg (by omega)]; rfl
  · intro s e o p hawake hs g u h
    have hexec := exec_intervalExpiry hawake hs
    refine ⟨fun hgone => hexec.trans (congrArg settled (if_pos hgone)), fun hheld hgrant => ?_, fun m hb hc hv hm => ?_⟩
    · exact hexec.trans (congrArg settled (if_neg (not_or.mpr ⟨hheld, not_not.mpr hgrant⟩)))
    · have hr : SampleReady g m := ⟨hb, hc, hv, hm⟩
      refine ⟨fun hk => ?_, fun s1 hk hf => ?_, fun hk hf => ?_⟩
      · have hw : g.kind.wantsSample = true := by rcases hk with hk | hk <;> rw [hk] <;> rfl
        exact (expiryDecision_ready hs hr hw).trans (decide'_ramp hk hm)
      · exact (expiryDecision_ready hs hr (by rw [hk]; rfl)).trans (decide'_verify_second hk hm hf)
      · exact exec_firstSample hawake hs hr hk hf
  · intro s e o p m a a' ho hp
    refine ⟨rampStep_changes, setAtten_held ho hp, fun ha => ⟨fun t ht => ?_, fun hn => ?_⟩, ?_,
      fun hr => ⟨by simp [verifyAllowed, hr], toVerify_restore s hr⟩, fun hr => ⟨toVerify_entry s hr, verifyAllowed_entry hr hp⟩⟩
    · rw [setAtten_sends ho hp ha, ht, Option.getD_some]
    · rw [setAtten_sends ho hp ha, hn, Option.getD_none]
    intro x v w here
    have hend : endRamp e none s = verifyBegun o (askForPath e) v := endRamp_noCommand ho
    have hback : endRamp e (some (m, a, a')) s = if here then verifyBegun o id w else w := endRamp_stepBack m a a' ho
    refine ⟨fun h hok => ?_, fun h hno => ?_, fun hr hl => ?_, fun hgone => ?_, fun hheld h => ⟨fun hok => ?_, fun hno => ?_⟩, fun hheld hr hl => ?_⟩
    · rw [hend, verifyBegun_tested (s := v) _ h, if_pos hok]
    · rw [hend, verifyBegun_tested (s := v) _ h, if_neg (by simp [hno])]
    · rw [hend, verifyBegun_lossStop (s := v) hr hl]
    · rw [hback, if_neg hgone]
    · rw [hback, if_pos hheld, verifyBegun_tested _ h, if_pos hok, id]
    · rw [hback, if_pos hheld, verifyBegun_tested _ h, if_neg (by simp [hno])]
    · rw [hback, if_pos hheld, verifyBegun_lossStop hr hl]
  · exact fun o c s => ⟨fun h => if_pos h, fun h => if_neg (by simp [h])⟩

end

/-! ### Events that leave the plan alone -/

namespace Sys2Proof.Machine

theorem busFree_fresh {s : State} (h : BusFree s) : BusFree (fresh s) := h

/-- An event that leaves the plan alone, leaves it alone with the acts that follow, while no host beat waits. -/
theorem event_plan {s t : State} {f : State → State} (ha : Awake s) (hb : BusFree s) (hf : ∀ u, (f u).plan = u.plan)
    (h : event s f = .next t) : t.plan = (fresh s).plan := by
  rw [event_awake ha] at h
  obtain rfl : settle settleBound (f (fresh s)) = t := by simpa [settled] using h
  exact (settle_plan _ (busFree_of_plan (hf _) (busFree_fresh hb))).trans (hf _)

/-- An item taken from the work list leaves the plan alone. -/
theorem dropWork_plan (s : State) (l : List WorkItem) : State.plan { s with intr := { s.intr with work := l } } = s.plan := rfl

end Sys2Proof.Machine

section
open Sys2Proof Sys2Proof.Machine

/-- Settles O7: each of the four acts is an event that leaves the plan alone. -/
theorem ownActsKeepThePlan : Obligations.OwnActsKeepThePlan := by
  intro c s t hbus hawake hc h
  cases c with
  | intervalExpiry e => exact event_plan hawake hbus (intervalExpires_plan e) h
  | transactionBegin => exact event_plan hawake hbus beginTransaction_plan h
  | capture =>
    rw [exec, execCapture] at h
    refine event_plan hawake hbus (fun u => ?_) h
    repeat' split
    · exact (takeCapture_plan ..).trans (dropWork_plan u _)
    · rfl
    · rfl
  | resumeTaken =>
    rw [exec, execResumeTaken] at h
    refine event_plan hawake hbus (fun u => ?_) h
    repeat' split
    · exact (takeResumeItem_plan _).trans (dropWork_plan u _)
    · rfl
    · rfl
  | _ => exact absurd hc id

end

/-! ### The adjustment and the effective load (R103, R108) -/

namespace Sys2Proof.Machine

theorem adjust_unexpected {g : Engine} (m : Int) (h : g.expected = none) : adjust g m = g.adj := by simp [adjust, h]

section
variable {g : Engine} {m x : Int}

/-- A sample that lags raises the adjustment by one up to its maximum (R108). -/
theorem adjust_lags (hx : g.expected = some x) (h : m < x - g.prof.lag) : adjust g m = min (g.adj + 1) g.prof.maxAdj := by
  simp [adjust, hx, h]

/-- A sample that leads lowers the adjustment by one down to minus its maximum (R108). -/
theorem adjust_leads (hx : g.expected = some x) (h : x + g.prof.lead < m) : adjust g m = max (g.adj - 1) (-(g.prof.maxAdj : Int)) := by
  have hlag : ¬ m < x - g.prof.lag := by omega
  simp [adjust, hx, hlag, h]

theorem adjust_asExpected (hx : g.expected = some x) (hl : x - g.prof.lag ≤ m) (hu : m ≤ x + g.prof.lead) : adjust g m = g.adj := by
  simp [adjust, hx, Int.not_lt.mpr hl, Int.not_lt.mpr hu]

end

/-- The adjustment stays as it is, or moves by one within its maximum (R108). -/
theorem adjust_cases (g : Engine) (m : Int) :
    adjust g m = g.adj ∨ adjust g m = min (g.adj + 1) g.prof.maxAdj ∨ adjust g m = max (g.adj - 1) (-(g.prof.maxAdj : Int)) := by
  cases hx : g.expected with
  | none => exact .inl (adjust_unexpected m hx)
  | some x =>
    by_cases hlag : m < x - g.prof.lag
    · exact .inr (.inl (adjust_lags hx hlag))
    by_cases hlead : x + g.prof.lead < m
    · exact .inr (.inr (adjust_leads hx hlead))
    · exact .inl (adjust_asExpected hx (Int.not_lt.mp hlag) (Int.not_lt.mp hlead))

theorem adjust_bounded {g : Engine} (m : Int) (h : |g.adj| ≤ g.prof.maxAdj) : |adjust g m| ≤ g.prof.maxAdj ∧ |adjust g m - g.adj| ≤ 1 := by
  simp only [abs_le] at h ⊢
  rcases adjust_cases g m with ha | ha | ha <;> rw [ha] <;> omega

theorem effectiveLoad_bounds (p : Profile) (adj : Int) : 1 ≤ effectiveLoad p adj ∧ effectiveLoad p adj ≤ 256 := by
  unfold effectiveLoad
  omega

theorem effectiveLoad_within {p : Profile} {adj : Int} (hl : 1 ≤ (p.load : Int) + adj) (hu : (p.load : Int) + adj ≤ 256) :
    (effectiveLoad p adj : Int) = p.load + adj := by
  unfold effectiveLoad
  omega

theorem effectiveLoad_below {p : Profile} {adj : Int} (h : (p.load : Int) + adj < 1) : effectiveLoad p adj = 1 := by
  unfold effectiveLoad
  omega

theorem effectiveLoad_above {p : Profile} {adj : Int} (h : 256 < (p.load : Int) + adj) : effectiveLoad p adj = 256 := by
  unfold effectiveLoad
  omega

end Sys2Proof.Machine

section
open Sys2Proof Sys2Proof.Machine

/-- Settles O44: the adjustment by how the sample lies, and the load by where the sum lies. -/
theorem intervalsAdaptWithinBounds : Obligations.IntervalsAdaptWithinBounds :=
  ⟨fun _ m => adjust_bounded m,
   fun _ m => ⟨adjust_unexpected m, fun _ hx => ⟨adjust_lags hx, adjust_leads hx, adjust_asExpected hx⟩⟩,
   fun p adj => ⟨(effectiveLoad_bounds p adj).1, (effectiveLoad_bounds p adj).2, effectiveLoad_within, effectiveLoad_below, effectiveLoad_above⟩,
   fun _ => rfl⟩

end

/-! ### Expiries that find their command or sample outstanding (R103, R104) -/

namespace Sys2Proof.Machine

/-- An engine's request joins the send list, and the engine waits for the sample (R105, R115). -/
theorem askSample_eq (e : EngineNo) (o : OutPoint) (n : Slot) (s : State) :
    askSample e o n s = { setEngine e { s.engine e with samp := .outstanding, sample := none } s with
      mon := { s.mon with send := s.mon.send ++ [{ asker := { engine := e, grant := (s.engine e).grant }, point := o, slot := n }] } } := rfl

theorem setEngine_setEngine (e : EngineNo) (g h : Engine) (s : State) : setEngine e h (setEngine e g s) = setEngine e h s := by
  simp [setEngine]

@[simp] theorem engine_setEngine_same (e : EngineNo) (g : Engine) (s : State) : (setEngine e g s).engine e = g := by
  rw [engine_setEngine, if_pos rfl]

section
variable {s u : State} {e : EngineNo} {g x : Engine} {o : EngOwner} {p : Path}

/-- An expiry of a FREE engine, of a count that is not at zero, or in POWERDOWN does nothing (R113; logs 7, 8 and 79). -/
theorem exec_intervalExpiry_nothing (ha : Awake s) (h : (s.engine e).st = .free ∨ (s.engine e).count ≠ 0 ∨ s.start.powerdown = true) :
    exec (.intervalExpiry e) s = settled (fresh s) := by
  rw [exec, execIntervalExpiry, event_awake ha, intervalExpires]
  refine congrArg settled (if_pos ?_)
  rw [Bool.or_eq_true, Bool.or_eq_true, decide_eq_true_iff, decide_eq_true_iff, or_assoc]
  exact h

/-- A decision that keeps the engine held under its grant, outside an entry into RETURNING, is followed by the plain reload (R103). -/
theorem exec_intervalExpiry_decided (ha : Awake s) (hs : EngineServes s e o p) (hu : expiryDecision e (fresh s) = u) (hx : u.engine e = x)
    (hheld : x.st ≠ .free) (hgrant : x.grant = (s.engine e).grant) (hret : x.st = .returning → (s.engine e).st = .returning) :
    exec (.intervalExpiry e) s = settled (setEngine e x.reload u) := by
  have hplain : ¬ (x.st = .returning ∧ (s.engine e).st ≠ .returning) := fun h => h.2 (hret h.1)
  simp only [exec_intervalExpiry ha hs, hu, hx, if_neg (not_or.mpr ⟨hheld, not_not.mpr hgrant⟩), if_neg hplain]

/-- A decision that changes the engine alone (R103). -/
theorem exec_intervalExpiry_engineAlone (ha : Awake s) (hs : EngineServes s e o p) (hu : expiryDecision e (fresh s) = setEngine e x (fresh s))
    (hst : x.st = (s.engine e).st) (hgrant : x.grant = (s.engine e).grant) :
    exec (.intervalExpiry e) s = settled (setEngine e x.reload (fresh s)) := by
  rw [exec_intervalExpiry_decided ha hs hu (engine_setEngine_same ..) (hst ▸ hs.1) hgrant (hst ▸ id), setEngine_setEngine]

/-- A changed engine that serves a path asks for a sample of the path's output point and slot (R105). -/
theorem askForPath_setEngine (ho : x.owner = some o) (hp : s.path? o.pid = some p) :
    askForPath e (setEngine e x s) = { setEngine e { x with samp := .outstanding, sample := none } s with
      mon := { s.mon with send := s.mon.send ++ [{ asker := { engine := e, grant := x.grant }, point := p.dst.out, slot := p.slot }] } } := by
  rw [askForPath_serving ((congrArg Engine.owner (engine_setEngine_same e x s)).trans ho) hp, askSample_eq, engine_setEngine_same,
    setEngine_setEngine]
  rfl

/-- A decision that changes the engine and asks for a sample (R103, R105). -/
theorem exec_intervalExpiry_asks (ha : Awake s) (hs : EngineServes s e o p) (hu : expiryDecision e (fresh s) = askForPath e (setEngine e x (fresh s)))
    (ho : x.owner = (s.engine e).owner) (hheld : x.st ≠ .free) (hgrant : x.grant = (s.engine e).grant)
    (hret : x.st = .returning → (s.engine e).st = .returning) :
    exec (.intervalExpiry e) s = settled { fresh s with
      ramp := { s.ramp with
        engines := s.ramp.engines.set e ({ x with samp := .outstanding, sample := none } : Engine).reload }
      mon := { s.mon with send := s.mon.send ++ [{ asker := { engine := e, grant := (s.engine e).grant }, point := p.dst.out, slot := p.slot }] } } := by
  obtain ⟨-, -, hown, hpath, -⟩ := id hs
  have hasked := hu.trans (askForPath_setEngine (s := fresh s) (ho.trans hown) hpath)
  rw [exec_intervalExpiry_decided ha hs hasked (engine_setEngine_same ..) hheld hgrant hret, ← hgrant]
  simp [setEngine]

/-- An expiry that finds its command waiting for a place takes no step (R104). -/
theorem expiryDecision_waiting (hs : EngineServes s e o p) (hb : (s.engine e).st ≠ .armed) (hc : (s.engine e).cmd = .waiting) :
    expiryDecision e s = s := by
  obtain ⟨-, -, hown, hpath, -⟩ := hs
  simp only [expiryDecision, hown, Option.bind_some, hpath, if_neg hb, hc]

/-- What an expiry finds missing (R104): its command unanswered, or the sample that its step wants. -/
def Engine.misses (g : Engine) : Prop := g.cmd = .unanswered ∨ (g.cmd = .none ∧ g.kind.wantsSample = true ∧ g.samp ≠ .arrived)

theorem expiryDecision_missed (hs : EngineServes s e o p) (hb : (s.engine e).st ≠ .armed) (hm : (s.engine e).misses) :
    expiryDecision e s = missedExpiry e (s.engine e) o s := by
  obtain ⟨-, -, hown, hpath, -⟩ := hs
  simp only [expiryDecision, hown, Option.bind_some, hpath, if_neg hb]
  rcases hm with hc | ⟨hc, hw, ha⟩
  · simp only [hc]
  · simp only [hc, hw, if_true]
    split
    · next h _ => exact absurd h ha
    · rfl

/-- A step that wants no sample counts no miss (R104). -/
theorem missedExpiry_unwanted (s : State) (e : EngineNo) (o : EngOwner) (hw : g.kind.wantsSample = false) : missedExpiry e g o s = s := by
  simp [missedExpiry, hw]

/-- The first two misses are counted (R104). -/
theorem missedExpiry_counts (s : State) (e : EngineNo) (o : EngOwner) (hw : g.kind.wantsSample = true) (hl : g.samp ≠ .lost) (hm : g.miss < 2) :
    missedExpiry e g o s = updateEngine e (fun g => { g with miss := g.miss + 1 }) s := by
  simp [missedExpiry, hw, hl, show ¬ 3 ≤ g.miss + 1 by omega]

/-- A lost sample is asked for again (R104). -/
theorem missedExpiry_lost (s : State) (e : EngineNo) (o : EngOwner) (hw : g.kind.wantsSample = true) (hl : g.samp = .lost) (hm : g.miss < 2) :
    missedExpiry e g o s = askForPath e (updateEngine e (fun g => { g with miss := g.miss + 1 }) s) := by
  simp [missedExpiry, hw, hl, show ¬ 3 ≤ g.miss + 1 by omega]

/-- The third miss fails the step (R104). -/
theorem missedExpiry_fails (s : State) (e : EngineNo) (o : EngOwner) (hw : g.kind.wantsSample = true) (hm : 2 ≤ g.miss) :
    missedExpiry e g o s = engineFails o .monitorTimeout (updateEngine e (fun g => { g with miss := g.miss + 1 }) s) := by
  simp [missedExpiry, hw, show 3 ≤ g.miss + 1 by omega]

end

end Sys2Proof.Machine

section
open Sys2Proof Sys2Proof.Machine

/-- Settles O41: by what the expiry finds missing, and how often it was missing before. -/
theorem unreadyExpiriesCountMisses : Obligations.UnreadyExpiriesCountMisses := by
  refine ⟨fun s e o p ha hs hb => ?_, fun s e ha h => exec_intervalExpiry_nothing ha h⟩
  have hfound : (s.engine e).misses → expiryDecision e (fresh s) = missedExpiry e (s.engine e) o (fresh s) :=
    expiryDecision_missed (s := fresh s) hs hb
  have hsame : setEngine e (s.engine e) (fresh s) = fresh s := updateEngine_same (s := fresh s) (f := id) rfl
  have hwants {c : Prop} (hw : (s.engine e).kind.wantsSample = true) (hc : (s.engine e).cmd = .unanswered ∨ ((s.engine e).cmd = .none ∧ c))
      (harr : c → (s.engine e).samp ≠ .arrived) : (s.engine e).misses :=
    hc.imp_right fun ⟨hn, h⟩ => ⟨hn, hw, harr h⟩
  refine ⟨fun hc => ?_, fun hw hc hl hm => ?_, fun hw hc hl hm => ?_, fun hw hc hm => ?_, fun hw hc => ?_⟩
  · exact exec_intervalExpiry_engineAlone ha hs ((expiryDecision_waiting (s := fresh s) hs hb hc).trans hsame.symm) rfl rfl
  · have hmiss := hwants hw hc fun h => by rw [h]; decide
    exact exec_intervalExpiry_engineAlone (x := { s.engine e with miss := (s.engine e).miss + 1 }) ha hs
      ((hfound hmiss).trans (missedExpiry_counts _ e o hw hl hm)) rfl rfl
  · have hmiss := hwants (c := True) hw (.inr ⟨hc, trivial⟩) fun _ => by rw [hl]; decide
    exact exec_intervalExpiry_asks (x := { s.engine e with miss := (s.engine e).miss + 1 }) ha hs
      ((hfound hmiss).trans (missedExpiry_lost _ e o hw hl hm)) rfl hs.1 rfl id
  · have hmiss := hwants hw hc fun h => by rcases h with h | h <;> rw [h] <;> decide
    exact (expiryDecision_missed hs hb hmiss).trans (missedExpiry_fails s e o hw hm)
  · exact exec_intervalExpiry_engineAlone ha hs ((hfound (.inl hc)).trans ((missedExpiry_unwanted _ e o hw).trans hsame.symm)) rfl rfl

end

/-! ### Replies and acknowledged ATTENs and PINGs (R105, R130, R131, R135, R137) -/

namespace Sys2Proof.Machine

/-- A path changed under its own name is found as changed. -/
theorem path?_updatePath {s : State} {pid : Nat} {p : Path} {f : Path → Path} (hp : s.path? pid = some p) (hf : ∀ q, (f q).pid = q.pid) :
    (updatePath pid f s).path? pid = some (f p) := by
  have hsame : ((fun q : Path => decide (q.pid = pid)) ∘ fun q : Path => if q.pid = pid then f q else q) =
      fun q : Path => decide (q.pid = pid) := by
    funext q
    by_cases hq : q.pid = pid <;> simp [hq, hf]
  rw [State.path?, ConnTable.path?] at hp ⊢
  have hpid : p.pid = pid := by simpa using List.find?_some hp
  simp only [updatePath, ConnTable.update, List.find?_map, hsame, hp, Option.map_some, hpid, if_true]

/-! #### Which replies are judged (R128, R130) -/

section
variable {s : State} {x : Txn} {h : ReplyHead}

/-- A reply that is judged in a transaction: whole, of its module, and behind the attempt's last bit (R128, R130). -/
structure Judged (x : Txn) (h : ReplyHead) : Prop where
  checksum : h.checksumOk = true
  module : h.module = x.cmd.module
  sent : x.sendLeft = 0

theorem replyTxn_judged (hx : s.act.txn = some x) (hj : Judged x h) : replyTxn h s = some x := by
  simp [replyTxn, hx, hj.checksum, hj.module, hj.sent]

theorem replyTxn_discarded (hx : s.act.txn = some x) (hd : h.checksumOk = false ∨ h.module ≠ x.cmd.module ∨ x.sendLeft ≠ 0) :
    replyTxn h s = none := by
  have hnot : ¬ ((h.checksumOk = true ∧ h.module = x.cmd.module) ∧ x.sendLeft = 0) := by
    rintro ⟨⟨hc, hm⟩, hl⟩
    simp [hc, hm, hl] at hd
  simpa [replyTxn, hx, and_assoc] using hnot

/-- An ACK of the frame in transmission is accepted (R130). -/
theorem ackArrives_accepted (hx : s.act.txn = some x) (hj : Judged x h) : ackArrives x.cmd.kind h s = ackAccepted x s := by
  simp [ackArrives, replyTxn_judged hx hj]

end

/-! #### An engine's ATTEN (R105, R110, R111, R131) -/

section
variable {s : State} {x : Txn} {h : ReplyHead} {e : EngineNo} {g : Nat} {o : EngOwner} {v : SlotSetting} {l : List SlotSetting} {p : Path}

/-- An accepted ACK to an engine's ATTEN sets the path's attenuation, and the engine that still waits for it is told (R105, R131). -/
theorem exec_attenAck_engine (ha : Awake s) (hx : s.act.txn = some x) (hj : Judged x h) (hk : x.cmd.kind = .atten)
    (hr : x.cmd.req = .engine e g o) (hv : x.cmd.vals = v :: l) :
    exec (.attenAck h) s = settled
      (let t := updatePath o.pid (fun p => { p with att := v.att }) { fresh s with act := { s.act with txn := none } }
       if (s.engine e).st ≠ .free ∧ (s.engine e).grant = g ∧ (s.engine e).cmd = .unanswered then engineAnswered e t else t) := by
  rw [exec, execAttenAck, event_awake ha, ← hk, ackArrives_accepted (s := fresh s) hx hj]
  simp only [ackAccepted, hk, attenApplied, hr, hv]
  rw [if_neg (by simp)]
  refine congrArg settled (if_congr ?_ rfl rfl)
  rw [Bool.and_eq_true, Bool.and_eq_true, decide_eq_true_iff, decide_eq_true_iff, decide_eq_true_iff, and_assoc]
  exact Iff.rfl

/-- An engine that wants samples asks for one when its command is answered, in POWERDOWN too (R105; log 51). -/
theorem engineAnswered_wanting (hw : (s.engine e).kind.wantsSample = true) (ho : (s.engine e).owner = some o) (hp : s.path? o.pid = some p) :
    engineAnswered e s = { setEngine e { s.engine e with cmd := .none, samp := .outstanding, sample := none } s with
      mon := { s.mon with send := s.mon.send ++ [{ asker := { engine := e, grant := (s.engine e).grant }, point := p.dst.out, slot := p.slot }] } } := by
  have hasked : engineAnswered e s = askForPath e (setEngine e { s.engine e with cmd := .none } s) := by
    simp only [engineAnswered, engine_updateEngine_same, hw, if_true]
    rfl
  exact hasked.trans (askForPath_setEngine ho hp)

/-- A RAMP_DOWN or a RETURNING ends at the top, and waits for its next expiry below it (R110, R111). -/
theorem engineAnswered_lowering (hw : (s.engine e).kind.wantsSample = false) (ho : (s.engine e).owner = some o) (hp : s.path? o.pid = some p) :
    engineAnswered e s =
      (let u := updateEngine e (fun g => { g with cmd := .none }) s
       if atTop p.att = true then dimmed o (freeEngine e u) else u) := by
  have hpath : (updateEngine e (fun g => { g with cmd := .none }) s).path? o.pid = some p := hp
  simp only [engineAnswered, engine_updateEngine_same, hw, Bool.false_eq_true, if_false, ho, hpath]

end

theorem atTop_iff (a : Att) : atTop a = true ↔ a = .db 250 ∨ a = .block := by
  rw [atTop, Bool.or_eq_true, decide_eq_true_iff, decide_eq_true_iff, or_comm]

theorem dimmed_entry {o : EngOwner} (s : State) (h : o.restore = false) : dimmed o s = stepDone o.no s := if_neg (by simp [h])

theorem dimmed_restore {o : EngOwner} {s : State} {x : Restore} {p : Path} (h : o.restore = true) (hx : s.restore? o.no = some x)
    (hp : s.path? o.pid = some p) : dimmed o s = restoreDisconnect x p s := by
  simp [dimmed, h, hx, hp]

/-! #### Refreshes and changes of fill (R131, R135, R137, R184) -/

theorem ackAccepted_attenRefresh {s : State} {x : Txn} (hk : x.cmd.kind = .atten) (hr : x.cmd.req = .refresh) :
    ackAccepted x s = nextRefresh (setModule x.cmd.module .online { s with act := { s.act with txn := none } }) := by
  simp [ackAccepted, hk, hr]

/-- The ATTEN of a re-read's change of fill ends its transaction and does nothing else (R131, R184). -/
theorem ackAccepted_fillChange {s : State} {x : Txn} (hk : x.cmd.kind = .atten) (hr : x.cmd.req = .fillChange) :
    ackAccepted x s = { s with act := { s.act with txn := none } } := by
  simp [ackAccepted, hk, attenApplied, hr]

/-- A module's state changes, and the module word is written where a status page is installed (R29, R135). -/
theorem setModule_changes {s : State} {o : OutPoint} {m : ModState} (h : s.act.mods.get o ≠ m) (hw : s.win.map.isSome = true) :
    setModule o m s = { s with port := s.port ++ [.modules], act := { s.act with mods := s.act.mods.set o m } } := by
  simp [setModule, h, requestStatus, hw, request]

/-- A PING answered makes its FAULTED module REFRESHING, and a ROUTE over slots 0 to 63 is queued (R135, R137). -/
theorem ackAccepted_ping {s : State} {x : Txn} (hk : x.cmd.kind = .ping) (hm : s.act.mods.get x.cmd.module ≠ .refreshing)
    (hw : s.win.map.isSome = true) :
    ackAccepted x s = { s with
      port := s.port ++ [.modules]
      act := { s.act with
        txn := none, mods := s.act.mods.set x.cmd.module .refreshing
        urgent := s.act.urgent ++ [{ module := x.cmd.module, kind := .route, start := 0, count := 64, vals := [], built := false
                                     req := .refresh }] } } := by
  simp only [ackAccepted, hk]
  rw [setModule_changes]
  · rfl
  · exact hm
  · exact hw

end Sys2Proof.Machine

section
open Sys2Proof Sys2Proof.Machine

/-- Settles O38: by the requester of the frame acknowledged, and for an engine's ATTEN by whether its step wants samples. -/
theorem attenAndPingAcksAreHandedOn : Obligations.AttenAndPingAcksAreHandedOn := by
  refine ⟨?_, fun o s => ⟨dimmed_entry s, fun x p h hx hp => dimmed_restore h hx hp⟩, ?_⟩
  · intro s x h e g o v l ha hx hc hm hl hk hr hv t u
    have hexec := exec_attenAck_engine ha hx ⟨hc, hm, hl⟩ hk hr hv
    refine ⟨fun hgone => ?_, fun p hheld hgrant hcmd hown hp => ?_⟩
    · exact hexec.trans (congrArg settled (if_neg fun ⟨hheld, hgrant, _⟩ => hgone.elim hheld (· hgrant)))
    have htold : exec (.attenAck h) s = settled (engineAnswered e t) := hexec.trans (congrArg settled (if_pos ⟨hheld, hgrant, hcmd⟩))
    have hpath : t.path? o.pid = some { p with att := v.att } :=
      path?_updatePath (s := { fresh s with act := { s.act with txn := none } }) (f := fun p => { p with att := v.att }) hp fun _ => rfl
    refine ⟨fun hw => ?_, fun hkind => ?_⟩
    · rw [htold, engineAnswered_wanting (s := t) hw hown hpath, ← hgrant]
      rfl
    have hw : (t.engine e).kind.wantsSample = false := by
      rcases hkind with hkind | hkind <;> exact (congrArg RampKind.wantsSample hkind)
    rw [htold, engineAnswered_lowering hw hown hpath]
    exact ⟨fun htop => congrArg settled (if_pos ((atTop_iff _).mpr htop)),
      fun hn hb => congrArg settled (if_neg fun htop => ((atTop_iff _).mp htop).elim hn hb)⟩
  · intro s x h ha hx hc hm hl
    have haccepted := ackArrives_accepted (s := fresh s) hx (h := h) ⟨hc, hm, hl⟩
    refine ⟨fun hk hr => ?_, fun hk hr => ?_, fun hk hf hw => ?_⟩
    · rw [exec, execAttenAck, event_awake ha, ← hk, haccepted, ackAccepted_attenRefresh hk hr]
      rfl
    · rw [exec, execAttenAck, event_awake ha, ← hk, haccepted, ackAccepted_fillChange hk hr]
      rfl
    · have hm : (fresh s).act.mods.get x.cmd.module ≠ .refreshing := fun hr => by cases hf.symm.trans hr
      rw [exec, execPingAck, event_awake ha, ← hk, haccepted, ackAccepted_ping hk hm hw]
      rfl

end

/-! ### Requests, grants and the commands of a ramp's expiries (R98 to R113, R117) -/

namespace Sys2Proof.Machine

/-! #### Requests (R100) -/

theorem presentRequest_waiting {r : RecNo} {x : Bool} {p : Path} {k : RampKind} {s : State} (h : ∃ y ∈ s.ramp.wait, y.owner.pid = p.pid) :
    presentRequest r x p k s = s :=
  if_pos (by simpa using h)

theorem presentRequest_joins {r : RecNo} {x : Bool} {p : Path} {k : RampKind} {s : State} (h : ∀ y ∈ s.ramp.wait, y.owner.pid ≠ p.pid) :
    presentRequest r x p k s = { s with ramp := { s.ramp with wait := s.ramp.wait ++
      [{ owner := { pid := p.pid, no := r, restore := x }, kind := k, fromHeld := decide (p.att ≠ .block), out := p.dst.out,
         prof := requestProfile s p k }] } } :=
  if_neg (by simpa using h)

/-- A RAMP_DOWN, and a path without pending values, takes the path's own profile (R100). -/
theorem requestProfile_own (s : State) {p : Path} {k : RampKind} (h : k = .rampDown ∨ p.pend = none) :
    requestProfile s p k = s.profiles[(p.info.map (·.profile)).getD 0] := by
  rcases h with h | h <;> simp [requestProfile, h]

theorem requestProfile_pending (s : State) {p : Path} {k : RampKind} {q : PendingInfo} (hk : k ≠ .rampDown) (hq : p.pend = some q) :
    requestProfile s p k = s.profiles[q.profile] := by
  simp [requestProfile, hk, hq]

/-! #### One ATTEN (R105, R133) -/

/-- A command for a module that is not FAULTED takes a free place (R133). -/
theorem handOrdinary_placed {s : State} {x : ActCmd} (hm : isFaulted s x.module = false) (hl : s.act.ordinary.length < 24) (hw : s.act.wait = []) :
    handOrdinary x s = some (queueOrdinary x s) := by
  simp [handOrdinary, hm, hl, hw]

/-- The command of an engine still held under its grant is unanswered from its place in the queue on (R105). -/
theorem onQueued_engine {s : State} {c : ActCmd} {e : EngineNo} {g : Nat} {o : EngOwner} (hc : c.req = .engine e g o)
    (hheld : (s.engine e).st ≠ .free) (hgrant : (s.engine e).grant = g) :
    onQueued c s = updateEngine e (fun x => { x with cmd := .unanswered }) s := by
  simp [onQueued, hc, hheld, hgrant]

section
variable {s : State} {e : EngineNo} {x : Engine} {o : EngOwner} {p : Path} {a : Nat}

/-- A changed engine that serves a path sends one ATTEN where the ordinary class has a place for it (R105, R133). -/
theorem setAtten_setEngine (ho : x.owner = some o) (hp : s.path? o.pid = some p) (hheld : x.st ≠ .free) (ha : p.att ≠ .db a)
    (hm : isFaulted s p.dst.out = false) (hl : s.act.ordinary.length < 24) (hw : s.act.wait = []) :
    setAtten e a (setEngine e x s) = { setEngine e { x with cmd := .unanswered } s with
      act := { s.act with ordinary := s.act.ordinary ++ [engineAtten e x o p a] } } := by
  have hown : ((setEngine e x s).engine e).owner = some o := (congrArg Engine.owner (engine_setEngine_same e x s)).trans ho
  have hplaced := handOrdinary_placed (s := setEngine e x s) (x := engineAtten e x o p a) hm hl hw
  have hqueued := onQueued_engine (s := setEngine e x { s with act := { s.act with ordinary := s.act.ordinary ++ [engineAtten e x o p a] } })
    (c := engineAtten e x o p a) (e := e) (g := x.grant) (o := o) rfl (by rw [engine_setEngine_same]; exact hheld) (by rw [engine_setEngine_same])
  rw [updateEngine, engine_setEngine_same, setEngine_setEngine] at hqueued
  have hsent := setAtten_sends (s := setEngine e x s) hown hp ha
  rw [engine_setEngine_same, hplaced, Option.getD_some] at hsent
  exact hsent.trans hqueued

/-- An expiry that sends one ATTEN (R103, R105). -/
theorem exec_intervalExpiry_sends (ha : Awake s) (hs : EngineServes s e o p)
    (hu : expiryDecision e (fresh s) = setAtten e a (setEngine e x (fresh s))) (hatt : p.att ≠ .db a) (hm : s.act.mods.get p.dst.out = .online)
    (hl : s.act.ordinary.length < 24) (hw : s.act.wait = []) (ho : x.owner = (s.engine e).owner) (hheld : x.st ≠ .free)
    (hgrant : x.grant = (s.engine e).grant) (hret : x.st = .returning → (s.engine e).st = .returning) :
    exec (.intervalExpiry e) s = settled { fresh s with
      act := { s.act with ordinary := s.act.ordinary ++ [engineAtten e (s.engine e) o p a] }
      ramp := { s.ramp with engines := s.ramp.engines.set e ({ x with cmd := .unanswered } : Engine).reload } } := by
  obtain ⟨-, -, hown, hpath, -⟩ := id hs
  have honline : isFaulted s p.dst.out = false := by simp [isFaulted, hm]
  have hatten : engineAtten e x o p a = engineAtten e (s.engine e) o p a := by rw [engineAtten, engineAtten, hgrant]
  have hsent := hu.trans (setAtten_setEngine (s := fresh s) (ho.trans hown) hpath hheld hatt honline hl hw)
  rw [exec_intervalExpiry_decided ha hs hsent (engine_setEngine_same ..) hheld hgrant hret, ← hatten]
  simp [setEngine]

/-! #### What the first expiry and a lowering ramp decide (R106, R107, R110, R111) -/

theorem expiryDecision_first (hs : EngineServes s e o p) (hb : (s.engine e).st = .armed) :
    expiryDecision e s = firstExpiry e (s.engine e) o p s := by
  obtain ⟨-, -, hown, hpath, -⟩ := hs
  simp only [expiryDecision, hown, Option.bind_some, hpath, if_pos hb]

/-- A RAMP_UP from the start attenuation sets it, at most 250 (R106; log 52). -/
theorem firstExpiry_fromStart (s : State) (e : EngineNo) (o : EngOwner) (p : Path) (hk : x.kind = .rampUp) (hf : x.fromHeld = false) :
    firstExpiry e x o p s = setAtten e (min 250 x.prof.start) (updateEngine e (fun g => { g with st := .stepping }) s) := by
  simp [firstExpiry, hk, hf]

/-- A RAMP_UP from the attenuation held and a RAMP_RETUNE ask for a sample (R106, R107). -/
theorem firstExpiry_fromHeld (s : State) (e : EngineNo) (o : EngOwner) (p : Path)
    (hk : (x.kind = .rampUp ∧ x.fromHeld = true) ∨ x.kind = .rampRetune) :
    firstExpiry e x o p s = askForPath e (updateEngine e (fun g => { g with st := .stepping }) s) := by
  rcases hk with ⟨hk, hf⟩ | hk
  · simp [firstExpiry, hk, hf]
  · simp [firstExpiry, hk]

/-- A RAMP_DOWN decides at its first expiry as at every other (R110). -/
theorem firstExpiry_rampDown (s : State) (e : EngineNo) (o : EngOwner) (p : Path) (hk : x.kind = .rampDown) :
    firstExpiry e x o p s = decide' e x o p (updateEngine e (fun g => { g with st := .stepping }) s) := by
  simp [firstExpiry, hk]

/-- A RAMP_DOWN or a RETURNING is past its first expiry and its command is answered: it decides at once (R104, R110, R111). -/
theorem expiryDecision_lowering (hs : EngineServes s e o p) (hb : (s.engine e).st ≠ .armed)
    (hk : (s.engine e).kind = .rampDown ∨ (s.engine e).kind = .returning) (hc : (s.engine e).cmd = .none) :
    expiryDecision e s = decide' e (s.engine e) o p (updateEngine e (fun g => { g with miss := 0 }) s) := by
  obtain ⟨-, -, hown, hpath, -⟩ := hs
  have hw : (s.engine e).kind.wantsSample = false := by rcases hk with hk | hk <;> rw [hk] <;> rfl
  simp only [expiryDecision, hown, Option.bind_some, hpath, if_neg hb, hc, hw, Bool.false_eq_true, if_false]

/-- At 250 or BLOCK a RAMP_DOWN or a RETURNING is over (R110, R111). -/
theorem decide'_lowering_top (s : State) (e : EngineNo) (o : EngOwner) (hk : x.kind = .rampDown ∨ x.kind = .returning)
    (ht : p.att = .db 250 ∨ p.att = .block) : decide' e x o p s = dimmed o (freeEngine e s) := by
  have htop := (atTop_iff p.att).mpr ht
  rcases hk with hk | hk <;> simp [decide', hk, htop]

/-- Below the top a RAMP_DOWN or a RETURNING raises the attenuation by one down step to at most 250 (R110, R111). -/
theorem decide'_lowering_step (s : State) (e : EngineNo) (o : EngOwner) (hk : x.kind = .rampDown ∨ x.kind = .returning)
    (hatt : p.att = .db a) (ha : a < 250) : decide' e x o p s = setAtten e (min 250 (a + x.prof.down)) s := by
  have htop : atTop p.att = false := by simp [atTop, hatt, ha.ne]
  rcases hk with hk | hk <;> simp [decide', hk, htop] <;> simp [attNum, hatt]

/-- A down step changes an attenuation below 250. -/
theorem downStep_changes {d : Nat} (hatt : p.att = .db a) (ha : a < 250) (hd : 0 < d) : p.att ≠ .db (min 250 (a + d)) := by
  rw [hatt]
  simp only [ne_eq, Att.db.injEq]
  omega

end

/-! #### Grants (R99, R101, R102) -/

theorem allEngines_eq : allEngines = List.finRange 8 := by decide

/-- The lowest-numbered FREE engine goes to the oldest eligible request (R101). -/
theorem nextGrant?_eq {s : State} {e : EngineNo} {r : EngRequest} {l1 l2 : List EngRequest} (hp : s.start.powerdown = false)
    (he : (s.engine e).st = .free) (hlow : ∀ f : EngineNo, f < e → (s.engine f).st ≠ .free) (hw : s.ramp.wait = l1 ++ r :: l2)
    (hl1 : ∀ x ∈ l1, eligible s x = false) (hr : eligible s r = true) : nextGrant? s = some (e, r) := by
  have hengine : allEngines.find? (fun e => (s.engine e).st = .free) = some e := by
    rw [allEngines_eq, List.find?_eq_some_iff_getElem]
    refine ⟨by simpa using he, e.val, by simp, by simp, fun j hj => ?_⟩
    simpa using hlow ⟨j, _⟩ hj
  have hrequest : s.ramp.wait.find? (eligible s) = some r := by
    rw [hw, List.find?_eq_some_iff_append]
    exact ⟨hr, l1, l2, rfl, fun x hx => by simp [hl1 x hx]⟩
  simp [nextGrant?, hp, hengine, hrequest]

/-- The state of a path whose request has been granted (R38, R102). -/
def RampKind.pathState : RampKind → PathState
  | .rampDown | .returning => .releasing
  | _ => .ramping

theorem RampKind.pathState_eq (k : RampKind) : k.pathState = if k = .rampDown ∨ k = .returning then .releasing else .ramping := by
  cases k <;> rfl

/-- A path whose request an engine has been granted for (R99, R102). -/
def Path.served (p : Path) (k : RampKind) (e : EngineNo) : Path := { p with st := k.pathState, engine := some e }

/-- A grant but for the sample that VERIFY asks for (R101, R102): the request gone, the engine loaded, the path recorded. -/
def engineLoaded (e : EngineNo) (r : EngRequest) (target : Int) (s : State) : State :=
  { s with
    ramp := { s.ramp with
      engines := s.ramp.engines.set e (Engine.granted (s.ramp.nextGrant + 1) r target)
      wait := s.ramp.wait.erase r, nextGrant := s.ramp.nextGrant + 1 }
    table := s.table.update r.owner.pid (fun q => q.served r.kind e) }

/-- The target a grant loads (R99, R100): that of the pending values, where the path has any. -/
def Path.rampTarget (p : Path) : Int := (p.pend.map (·.target)).getD ((p.info.map (·.target)).getD 0)

section
variable {s : State} {e : EngineNo} {r : EngRequest} {p : Path}

theorem engineLoaded_path? (target : Int) (hp : s.path? r.owner.pid = some p) :
    (engineLoaded e r target s).path? r.owner.pid = some (p.served r.kind e) :=
  path?_updatePath (f := fun q => q.served r.kind e) hp fun _ => rfl

theorem makeGrant_eq (hp : s.path? r.owner.pid = some p) :
    makeGrant e r s =
      if r.kind = .verify then askSample e p.dst.out p.slot (engineLoaded e r p.rampTarget s) else engineLoaded e r p.rampTarget s := by
  have hpath := engineLoaded_path? (e := e) p.rampTarget hp
  simp only [makeGrant, hp]
  split
  · next q hk hq =>
    rw [if_pos hk]
    cases hpath.symm.trans hq
    rfl
  · next hno =>
    rw [if_neg fun hk => hno _ hk hpath]
    rfl

theorem grantStep_none {s : State} (h : nextGrant? s = none) : grantStep s = none := by simp [grantStep, h]

/-- A grant for a ramp up or a retune is made, and nothing follows from it (R101, R102). -/
theorem grantStep_up (hn : nextGrant? s = some (e, r)) (hp : s.path? r.owner.pid = some p) (hk : r.kind = .rampUp ∨ r.kind = .rampRetune) :
    grantStep s = some (engineLoaded e r p.rampTarget s) := by
  rcases hk with hk | hk <;> simp [grantStep, hn, makeGrant_eq hp, hk]

/-- A grant for VERIFY asks for its first sample at once (R109). -/
theorem grantStep_verify (hn : nextGrant? s = some (e, r)) (hp : s.path? r.owner.pid = some p) (hk : r.kind = .verify) :
    grantStep s = some (askSample e p.dst.out p.slot (engineLoaded e r p.rampTarget s)) := by
  simp [grantStep, hn, makeGrant_eq hp, hk]

/-- A grant for a RAMP_DOWN or a RETURNING is over at once where its path is at 250 or BLOCK (R110, R111). -/
theorem grantStep_lowering (hn : nextGrant? s = some (e, r)) (hp : s.path? r.owner.pid = some p) (hk : r.kind = .rampDown ∨ r.kind = .returning) :
    grantStep s = some
      (let m := engineLoaded e r p.rampTarget s
       if atTop p.att then dimmed r.owner (freeEngine e m) else m) := by
  have hpath := engineLoaded_path? (e := e) p.rampTarget hp
  rcases hk with hk | hk <;> simp [grantStep, hn, makeGrant_eq hp, hk, hpath, Path.served]

end

/-- No grant is made in POWERDOWN, without a FREE engine, or without an eligible request (R101, R113). -/
theorem nextGrant?_none {s : State}
    (h : s.start.powerdown = true ∨ (∀ e : EngineNo, (s.engine e).st ≠ .free) ∨ (∀ x ∈ s.ramp.wait, eligible s x = false)) :
    nextGrant? s = none := by
  unfold nextGrant?
  split
  · rfl
  · next hp =>
    split
    · next e r he hr =>
      have hfree : (s.engine e).st = .free := by simpa using List.find?_some he
      have hno := h.resolve_left hp
      rcases hno with hno | hno
      · exact absurd hfree (hno e)
      · exact absurd (List.find?_some hr) (by simp [hno r (List.mem_of_find?_eq_some hr)])
    · rfl

theorem effectiveLoad_grant {p : Profile} (hl : 1 ≤ p.load) (hu : p.load ≤ 256) : effectiveLoad p 0 = p.load := by
  have h := effectiveLoad_within (p := p) (adj := 0) (by omega) (by omega)
  omega

/-! #### Freed engines and engines that enter RETURNING (R98, R99, R111, R117) -/

/-- A request given up is withdrawn where it is not sent, and stays without an asker where it is (R117). -/
theorem giveUpSample_eq (e : EngineNo) (s : State) :
    giveUpSample e s = { s with mon := { s.mon with
      send := s.mon.send.filter (fun r => r.asker.engine ≠ e)
      out := s.mon.out.map (fun r => { r with asker := r.asker.filter (fun a => a.engine ≠ e) }) } } := by
  refine congrArg (fun out => { s with mon := { s.mon with send := s.mon.send.filter (fun r => r.asker.engine ≠ e), out := out } })
    (List.map_congr_left fun r _ => ?_)
  obtain ⟨seq, point, slot, asker⟩ := r
  cases asker with
  | none => rfl
  | some a => by_cases ha : a.engine = e <;> simp [Option.filter, ha]

end Sys2Proof.Machine

section
open Sys2Proof Sys2Proof.Machine

/-- Settles O42: one clause for each act of the Ramp Bank, from the request to the freed engine. -/
theorem rampExpiriesSendOneCommand : Obligations.RampExpiriesSendOneCommand := by
  refine ⟨?_, ?_, ?_, ?_, fun s h => grantStep_none (nextGrant?_none h), fun s r => ?_, ?_, ?_⟩
  · intro s r x p k own joined
    have hown : own = (p.info.map (·.profile)).getD 0 := by cases h : p.info <;> simp [own, h]
    refine ⟨presentRequest_waiting, fun h => ⟨fun hk => ?_, fun q hk hq => ?_⟩⟩
    · rw [presentRequest_joins h, requestProfile_own s hk]
      exact congrArg joined hown.symm
    · rw [presentRequest_joins h, requestProfile_pending s hk hq]
  · intro s e o p ha hs hl hw hm g send
    have hfirst (hst : g.st = .armed) : expiryDecision e (fresh s) = firstExpiry e g o p (fresh s) := expiryDecision_first (s := fresh s) hs hst
    have hlater (n : Nat) (hst : g.st ≠ .armed) (hk : g.kind = .rampDown ∨ g.kind = .returning) (hc : g.cmd = .none) (hatt : p.att = .db n)
        (hn : n < 250) (hd : 0 < g.prof.down) :
        exec (.intervalExpiry e) s = send (min 250 (n + g.prof.down)) { g with miss := 0 } :=
      exec_intervalExpiry_sends (x := { g with miss := 0 }) ha hs
        ((expiryDecision_lowering (s := fresh s) hs hst hk hc).trans (decide'_lowering_step _ e o hk hatt hn))
        (downStep_changes hatt hn hd) hm hl hw rfl hs.1 rfl id
    refine ⟨fun hst hk hf hatt => ?_, fun n hst hk hc hatt hn hd => ?_, fun n hst hk hatt hn hd => ?_, fun n hst hk hc hatt hn hd => ?_⟩
    · exact exec_intervalExpiry_sends (x := { g with st := .stepping }) ha hs ((hfirst hst).trans (firstExpiry_fromStart _ e o p hk hf))
        hatt hm hl hw rfl nofun rfl nofun
    · exact hlater n (by simp [hst]) (.inl hk) hc hatt hn hd
    · exact exec_intervalExpiry_sends (x := { g with st := .stepping }) ha hs
        ((hfirst hst).trans ((firstExpiry_rampDown _ e o p hk).trans (decide'_lowering_step _ e o (.inl hk) hatt hn)))
        (downStep_changes hatt hn hd) hm hl hw rfl nofun rfl nofun
    · exact hlater n (by simp [hst]) (.inr hk) hc hatt hn hd
  · intro s e o p ha hs g put
    refine ⟨fun hk hst => ?_, fun ht => ⟨fun hst hk => ?_, fun hst hk hc => ?_⟩⟩
    · have hu := (expiryDecision_first (s := fresh s) hs hst).trans (firstExpiry_fromHeld _ e o p hk)
      exact exec_intervalExpiry_asks (x := { g with st := .stepping }) ha hs hu rfl nofun rfl nofun
    · exact (expiryDecision_first hs hst).trans ((firstExpiry_rampDown s e o p hk).trans (decide'_lowering_top _ e o (.inl hk) ht))
    · exact (expiryDecision_lowering hs hst hk hc).trans (decide'_lowering_top _ e o hk ht)
  · intro s e r l1 l2 hp he hlow hw hl1 hr
    have hn := nextGrant?_eq hp he hlow hw hl1 hr
    refine ⟨hn, ?_⟩
    intro p hpath target m
    have hm : engineLoaded e r p.rampTarget s = m := by simp only [engineLoaded, Path.served, RampKind.pathState_eq, m, target, Path.rampTarget]
    rw [← hm]
    exact ⟨grantStep_up hn hpath, grantStep_verify hn hpath, grantStep_lowering hn hpath⟩
  · cases ho : r.out with
    | grp g => simp only [eligible, ho]
    | deg d => cases hc : s.win.cfg <;> simp only [eligible, ho, budget, hc] <;> rfl
  · intro n r target hl hu g
    have hload := effectiveLoad_grant hl hu
    exact ⟨rfl, rfl, rfl, rfl, rfl, hload, hload, rfl, rfl, rfl, rfl, rfl, fun h => by rcases h with h | h | h <;> simp [g, Engine.granted, h]⟩
  · intro s e mon
    have hmon := giveUpSample_eq e s
    refine ⟨hmon, fun o ho => ?_, fun ho => ?_, ?_⟩
    · simp only [freeEngine, ho, giveUpSample_eq]
      rfl
    · simp only [freeEngine, ho, giveUpSample_eq]
      rfl
    · rw [startReturning, hmon]
      rfl

end

/-! ### What a module fault turns on, and what the requesters told leave of it (R136)

A failed command tells its requester, which may fail steps, finish entries and roll paths back. None of that changes a module's state, the transaction
in progress, the work list, or whether a capture is asked for. -/

namespace Sys2Proof.Machine

/-- What a module fault turns on (R135, R136): the modules' states, the transaction in progress, the work list, and whether captures are asked for. -/
def State.faultView (s : State) : PerPoint ModState × Option Txn × List WorkItem × Bool :=
  (s.act.mods, s.act.txn, s.intr.work, faultCaptures s)

/-! #### Record updates outside it -/

@[simp] theorem faultView_core (s : State) (mem bus win holds prot port batch touched queue profiles table ramp mon power light integ attn start
    clock pending) :
    State.faultView { s with mem := mem, bus := bus, win := win, holds := holds, prot := prot, port := port, batch := batch, touched := touched,
                             queue := queue, profiles := profiles, table := table, ramp := ramp, mon := mon, power := power, light := light,
                             integ := integ, attn := attn, start := start, clock := clock, pending := pending } = s.faultView := rfl
@[simp] theorem faultView_lists (s : State) (ordinary urgent wait refresh) :
    State.faultView { s with act := { s.act with ordinary := ordinary, urgent := urgent, wait := wait, refresh := refresh } } = s.faultView := rfl

@[simp] theorem request_faultView (r) (s : State) : (request r s).faultView = s.faultView := rfl
@[simp] theorem requestStatus_faultView (r) (s : State) : (requestStatus r s).faultView = s.faultView := by
  unfold requestStatus; split <;> rfl
@[simp] theorem requestAttention_faultView (s : State) : (requestAttention s).faultView = s.faultView := by
  unfold requestAttention; split <;> rfl
@[simp] theorem raiseCause_faultView (c) (s : State) : (raiseCause c s).faultView = s.faultView := by
  unfold raiseCause; split
  · rfl
  · exact requestAttention_faultView _
@[simp] theorem foldl_faultView {α : Type} (f : State → α → State) (h : ∀ s a, (f s a).faultView = s.faultView) (l : List α) (s : State) :
    (l.foldl f s).faultView = s.faultView :=
  foldl_keeps_prop (P := fun t => t.faultView = s.faultView) (fun t a ht => (h t a).trans ht) l rfl

/-! #### The Connection Table, the engines and the queue -/

@[simp] theorem updatePath_faultView (pid f) (s : State) : (updatePath pid f s).faultView = s.faultView := rfl
@[simp] theorem setCompleted_faultView (r c) (s : State) : (setCompleted r c s).faultView = s.faultView := rfl
@[simp] theorem activeDue_faultView (r) (s : State) : (activeDue r s).faultView = s.faultView := by simp [State.faultView, faultCaptures]
@[simp] theorem fixRecord_faultView (r v f) (s : State) : (fixRecord r v f s).faultView = s.faultView := by simp [State.faultView, faultCaptures]
@[simp] theorem updateEngine_faultView (e f) (s : State) : (updateEngine e f s).faultView = s.faultView := rfl
@[simp] theorem freeEngine_faultView (e) (s : State) : (freeEngine e s).faultView = s.faultView := by simp [State.faultView, faultCaptures]
@[simp] theorem freePathEngine_faultView (pid) (s : State) : (freePathEngine pid s).faultView = s.faultView := by
  unfold freePathEngine; split
  · exact freeEngine_faultView _ _
  · rfl
@[simp] theorem withdrawEngReq_faultView (pid) (s : State) : (withdrawEngReq pid s).faultView = s.faultView := rfl
@[simp] theorem startReturning_faultView (e) (s : State) : (startReturning e s).faultView = s.faultView := rfl
@[simp] theorem onQueued_faultView (c) (s : State) : (onQueued c s).faultView = s.faultView := by
  unfold onQueued; dsimp only
  repeat' split
  all_goals rfl
@[simp] theorem queueOrdinary_faultView (c) (s : State) : (queueOrdinary c s).faultView = s.faultView := onQueued_faultView _ _
theorem handOrdinary_faultView {c} {s t : State} (h : handOrdinary c s = some t) : t.faultView = s.faultView := by
  unfold handOrdinary at h
  split at h
  · cases h
  split at h
  · cases h
    exact queueOrdinary_faultView c s
  cases h
  dsimp only
  split <;> rfl

/-! #### Running a batch -/

@[simp] theorem updateEntry_faultView (r f) (s : State) : (updateEntry r f s).faultView = s.faultView := rfl
@[simp] theorem giveUpClaims_faultView (e) (s : State) : (giveUpClaims e s).faultView = s.faultView := rfl
@[simp] theorem writeOutcome_faultView (r c) (s : State) : (writeOutcome r c s).faultView = s.faultView := by
  unfold writeOutcome writeCounters; dsimp only
  simp
@[simp] theorem endWaiting_faultView (e st c) (s : State) : (endWaiting e st c s).faultView = s.faultView := by
  simp only [endWaiting]; split <;> simp
@[simp] theorem endAllWaiting_faultView (st) (s : State) : (endAllWaiting st s).faultView = s.faultView :=
  foldl_faultView _ (fun s e => by split <;> simp) _ _
/-- CANCELLING is entered from a run state: captures are asked for in both (R93, R136). -/
theorem enterCancelling_faultView {s : State} (h : faultCaptures s = true) : (enterCancelling s).faultView = s.faultView := by
  have hcaptures : faultCaptures (enterState .cancelling .cancelling s) = true := by simp [faultCaptures]
  refine (endAllWaiting_faultView _ _).trans ?_
  rw [State.faultView, State.faultView, hcaptures, h]
  simp
@[simp] theorem stopTest_faultView (c) (s : State) : (stopTest c s).faultView = s.faultView := by
  have hrun {st : SeqState} (h : s.seqr.st = st) (hu : st ≠ .unconfigured) (hr : st ≠ .rebuilding) :
      (enterCancelling s).faultView = s.faultView := enterCancelling_faultView (by simp [faultCaptures, h, hu, hr])
  unfold stopTest
  split
  · split
    · next h => exact hrun h nofun nofun
    · next h => exact hrun h nofun nofun
    · next h => exact hrun h nofun nofun
    · rfl
    · rfl
    · rfl
  · rfl
@[simp] theorem takeCode_faultView (r c) (s : State) : (takeCode r c s).faultView = s.faultView := by
  unfold takeCode; repeat' split
  all_goals simp
@[simp] theorem markVoid_faultView (c n l) (s : State) : (markVoid c n l s).faultView = s.faultView := by
  induction n generalizing l s with
  | zero => rfl
  | succ n ih =>
    cases l with
    | nil => rfl
    | cons pid l =>
      simp only [markVoid]; repeat' split
      all_goals simp [ih]
@[simp] theorem finishNow_faultView (r st v) (s : State) : (finishNow r st v s).faultView = s.faultView := by
  simp only [finishNow]; repeat' split
  all_goals simp
@[simp] theorem finishEntry_faultView (r st v) (s : State) : (finishEntry r st v s).faultView = s.faultView := by
  unfold finishEntry; split <;> simp
@[simp] theorem leaveInPlace_faultView (pid) (s : State) : (leaveInPlace pid s).faultView = s.faultView := rfl
@[simp] theorem leaveRetuned_faultView (pid) (s : State) : (leaveRetuned pid s).faultView = s.faultView := rfl
@[simp] theorem dropUnrouted_faultView (pid k) (s : State) : (dropUnrouted pid k s).faultView = s.faultView := by
  unfold dropUnrouted; split <;> rfl
@[simp] theorem failInPlace_faultView (e pid c) (s : State) : (failInPlace e pid c s).faultView = s.faultView := by
  simp only [failInPlace]; split <;> simp
@[simp] theorem issueDisconnect_faultView (e p) (s : State) : (issueDisconnect e p s).faultView = s.faultView := by
  simp only [issueDisconnect]; split
  · next h => exact handOrdinary_faultView h
  · simp
@[simp] theorem stepFailed_faultView (r c) (s : State) : (stepFailed r c s).faultView = s.faultView := by
  simp only [stepFailed]; repeat' split
  all_goals simp

/-! #### Restores, and who is told -/

@[simp] theorem setRestoreStep_faultView (r k) (s : State) : (setRestoreStep r k s).faultView = s.faultView := rfl
@[simp] theorem endRestore_faultView (r) (s : State) : (endRestore r s).faultView = s.faultView := by
  unfold endRestore endRestoreNow; split <;> simp
@[simp] theorem restoreDisconnect_faultView (x p) (s : State) : (restoreDisconnect x p s).faultView = s.faultView := by
  simp only [restoreDisconnect]; split
  · next h => exact (handOrdinary_faultView h).trans (setRestoreStep_faultView _ _ s)
  · simp
@[simp] theorem restoreFailed_faultView (r) (s : State) : (restoreFailed r s).faultView = s.faultView := by
  simp only [restoreFailed]; repeat' split
  all_goals simp
@[simp] theorem engineFails_faultView (o c) (s : State) : (engineFails o c s).faultView = s.faultView := by
  unfold engineFails; split <;> simp
@[simp] theorem commandFailed_faultView (c) (s : State) : (commandFailed c s).faultView = s.faultView := by
  unfold commandFailed; repeat' split
  all_goals simp

/-! #### The pass and the readbacks that a fault ends -/

@[simp] theorem nextRefresh_faultView (s : State) : (nextRefresh s).faultView = s.faultView := by
  unfold nextRefresh; split <;> rfl
@[simp] theorem countDiscrepancy_faultView (s : State) : (countDiscrepancy s).faultView = s.faultView := rfl
@[simp] theorem presentClaim_faultView (r p c) (s : State) : (presentClaim r p c s).faultView = s.faultView := by
  simp only [presentClaim]; repeat' split
  all_goals simp
@[simp] theorem adoptActive_faultView (y) (s : State) : (adoptActive s y).faultView = s.faultView := by
  simp only [adoptActive]; repeat' split
  all_goals simp
@[simp] theorem adoptForeign_faultView (o n) (s : State) : (adoptForeign o s n).faultView = s.faultView := by
  simp only [adoptForeign]; repeat' split
  all_goals rfl
@[simp] theorem finishAdoption_faultView (s : State) : (finishAdoption s).faultView = s.faultView := by
  have hforeign (t : State) : (adoptForeigns t).faultView = t.faultView :=
    foldl_faultView _ (fun s o => foldl_faultView _ (fun s n => adoptForeign_faultView o n s) _ _) _ _
  have hactive (t : State) : (rewriteActive t).faultView = t.faultView := foldl_faultView _ (fun s r => activeDue_faultView r s) _ _
  rw [finishAdoption_eq, beginCompare_eq, rewriteStage, reportDiscrepancies]
  split <;> simp [hforeign, hactive]
@[simp] theorem nextNewHalf_faultView (s : State) : (nextNewHalf s).faultView = s.faultView := by
  unfold nextNewHalf; repeat' split
  all_goals simp
@[simp] theorem startAdoption_faultView (s : State) : (startAdoption s).faultView = s.faultView :=
  (nextNewHalf_faultView _).trans ((foldl_faultView _ (fun s (i : InFlight) => setCompleted_faultView i.no _ s) _ _).trans
    (foldl_faultView _ (fun s y => adoptActive_faultView y s) _ _))
@[simp] theorem takeReadback_faultView (o x) (s : State) : (takeReadback o x s).faultView = s.faultView := by
  simp only [takeReadback]; split <;> simp

end Sys2Proof.Machine

/-! ### Missed attempts, and a module that faults (R128, R130, R131, R135, R136) -/

namespace Sys2Proof.Machine

theorem get_set_point {α : Type} (t : PerPoint α) (o : OutPoint) (v : α) : (t.set o v).get o = v := by
  cases o with
  | deg d => exact get_set_degree t.deg d v
  | grp g => cases g <;> rfl

/-! #### A transaction that fails (R136) -/

/-- The ordinary commands that go with a module's failed transaction, those on the place wait list behind the others (R136). -/
def goneCommands (o : OutPoint) (s : State) : List ActCmd :=
  s.act.ordinary.filter (fun y => y.module = o) ++ s.act.wait.filter (fun y => y.module = o)

/-- The port without a failed transaction, its module FAULTED and the module's frames removed (R135, R136). -/
def moduleFaulted (o : OutPoint) (s : State) : State :=
  { s with act := { s.act with
    txn := none, mods := s.act.mods.set o .faulted
    ordinary := s.act.ordinary.filter (fun y => y.module ≠ o)
    wait := s.act.wait.filter (fun y => y.module ≠ o)
    urgent := s.act.urgent.filter (fun y => y.module ≠ o) } }

/-- The requester of the failing frame told, then those of the commands removed (R136). -/
def requestersTold (c : ActCmd) (s : State) : State :=
  (goneCommands c.module s).foldl (fun s y => commandFailed y s) (commandFailed c (moduleFaulted c.module s))

/-- The module word written where the module was not FAULTED before (R135). -/
def faultShown (c : ActCmd) (s : State) : State :=
  if !isFaulted s c.module then requestStatus .modules (requestersTold c s) else requestersTold c s

/-- The capture that a module fault asks for, outside UNCONFIGURED and REBUILDING (R136). -/
def faultCaptured (o : OutPoint) (s : State) : State := if faultCaptures s then requestCapture (.module o) s else s

/-- Whether a module is in work in a refresh pass (R137). -/
def inRefresh (o : OutPoint) (s : State) : Bool :=
  match s.act.refresh with
  | some { mods := m :: _ } => m = o
  | _ => false

/-- The refresh pass goes on where the module was in work (R137). -/
def passContinued (o : OutPoint) (s : State) : State := if inRefresh o s then nextRefresh s else s

/-- The readback that a module does not give, where a READ of rebuild failed or was removed (R138). -/
def readbackMissed (c : ActCmd) (gone : List ActCmd) (s : State) : State :=
  if c.req = .readback || gone.any (fun y => y.req = .readback) then takeReadback c.module .missing s else s

/-- The order of a transaction's failure (R136, R137, R138). -/
theorem transactionFails_eq (x : Txn) (s : State) :
    transactionFails x s = readbackMissed x.cmd (goneCommands x.cmd.module s)
      (passContinued x.cmd.module (faultCaptured x.cmd.module (faultShown x.cmd s))) := rfl

theorem faultShown_faultView (c : ActCmd) (s : State) : (faultShown c s).faultView = (moduleFaulted c.module s).faultView := by
  have htold : (requestersTold c s).faultView = (moduleFaulted c.module s).faultView :=
    (foldl_faultView _ (fun s y => commandFailed_faultView y s) _ _).trans (commandFailed_faultView c _)
  unfold faultShown
  split <;> simp [htold]

theorem passContinued_faultView (o : OutPoint) (s : State) : (passContinued o s).faultView = s.faultView := by
  unfold passContinued
  split <;> simp

theorem readbackMissed_faultView (c : ActCmd) (gone : List ActCmd) (s : State) : (readbackMissed c gone s).faultView = s.faultView := by
  unfold readbackMissed
  split <;> simp

theorem transactionFails_faultView (x : Txn) (s : State) :
    (transactionFails x s).faultView = (faultCaptured x.cmd.module (faultShown x.cmd s)).faultView := by
  rw [transactionFails_eq, readbackMissed_faultView, passContinued_faultView]

theorem requestCapture_mem (c : CaptureSource) (s : State) : .capture c ∈ (requestCapture c s).intr.work := by
  unfold requestCapture
  split
  · next h => exact List.contains_iff_mem.mp h
  · simp

theorem faultCaptured_act (o : OutPoint) (s : State) : (faultCaptured o s).act = s.act := by
  unfold faultCaptured
  split <;> simp

/-- A failed transaction is over, its module is FAULTED, and its capture is asked for outside UNCONFIGURED and REBUILDING (R135, R136). -/
theorem transactionFails_faults (x : Txn) (s : State) :
    (transactionFails x s).act.mods.get x.cmd.module = .faulted ∧ (transactionFails x s).act.txn = none ∧
      (faultCaptures s = true → WorkItem.capture (.module x.cmd.module) ∈ (transactionFails x s).intr.work) := by
  have hview := transactionFails_faultView x s
  have hshown := faultShown_faultView x.cmd s
  simp only [State.faultView, Prod.mk.injEq, faultCaptured_act] at hview hshown
  obtain ⟨hmods, htxn, hwork, -⟩ := hview
  obtain ⟨hmods', htxn', -, hcaptures⟩ := hshown
  refine ⟨?_, htxn.trans htxn', fun hc => ?_⟩
  · rw [hmods, hmods']
    exact get_set_point ..
  · rw [hwork, faultCaptured, if_pos (hcaptures.trans hc)]
    exact requestCapture_mem ..

/-- Outside a refresh pass and a rebuild's readback, the first fault of a module ends with the capture asked for (R136). -/
theorem transactionFails_online {x : Txn} {s : State} (hm : s.act.mods.get x.cmd.module ≠ .faulted)
    (hr : ∀ y ∈ x.cmd :: s.act.ordinary ++ s.act.wait, y.req ≠ .readback) :
    let v := requestStatus .modules (requestersTold x.cmd s)
    v.act.refresh = none → transactionFails x s = faultCaptured x.cmd.module v := by
  intro v hv
  have hshown : faultShown x.cmd s = v := if_pos (by simp [isFaulted, hm])
  have hpass : inRefresh x.cmd.module (faultCaptured x.cmd.module v) = false := by
    rw [inRefresh, faultCaptured_act, hv]
  have hgone : (goneCommands x.cmd.module s).any (fun y => y.req = .readback) = false := by
    simp only [List.any_eq_false, decide_eq_true_iff]
    intro y hy
    refine hr y ?_
    simp only [goneCommands, List.mem_append, List.mem_filter] at hy
    simp only [List.mem_append, List.mem_cons]
    tauto
  have hself : x.cmd.req ≠ .readback := hr x.cmd (by simp)
  rw [transactionFails_eq, hshown, passContinued, if_neg (by simp [hpass]), readbackMissed, if_neg (by simp [hself, hgone])]

/-! #### Attempts that are missed (R130) -/

section
variable {s : State} {x : Txn} {h : ReplyHead}

/-- The first attempt is followed at once by its retry (R130; log 95). -/
theorem attemptMissed_retries (hx : s.act.txn = some x) (ha : x.attempt < 2) :
    attemptMissed s = { s with act := { s.act with
      txn := some { cmd := x.cmd, attempt := 2, sendLeft := Config.actFrameTicks x.cmd.kind x.cmd.count, timer := 200 } } } := by
  simp [attemptMissed, hx, ha, beginAttempt]

theorem attemptMissed_fails (hx : s.act.txn = some x) (ha : 2 ≤ x.attempt) : attemptMissed s = transactionFails x s := by
  simp [attemptMissed, hx, Nat.not_lt.mpr ha]

/-- An ACK's row that is not due answers a READ as a NAK does, and does nothing in another frame (R130; log 7). -/
theorem ackArrives_other {k : FrameKind} (hx : s.act.txn = some x) (hj : Judged x h) (hk : x.cmd.kind ≠ k) :
    ackArrives k h s = if x.cmd.kind = .read then attemptMissed s else s := by
  simp [ackArrives, replyTxn_judged hx hj, hk]

theorem nakArrives_judged (hx : s.act.txn = some x) (hj : Judged x h) : nakArrives h s = attemptMissed s := by
  simp [nakArrives, replyTxn_judged hx hj]

/-- A DATA that cannot stand, or that answers another frame than a READ, counts as a NAK (R130). -/
theorem dataArrives_refused {l : List SlotSetting} (hx : s.act.txn = some x) (hj : Judged x h)
    (hr : x.cmd.kind ≠ .read ∨ l.length ≠ x.cmd.count ∨ l.all (settingOk x.cmd.module) = false) : dataArrives h l s = attemptMissed s := by
  simp only [dataArrives, replyTxn_judged hx hj]
  refine if_neg fun hok => ?_
  simp only [Bool.and_eq_true, decide_eq_true_iff] at hok
  obtain ⟨⟨hk, hl⟩, hall⟩ := hok
  simp [hk, hl, hall] at hr

theorem replyExpires_due (hx : s.act.txn = some x) (hl : x.sendLeft = 0) (ht : x.timer = 0) : replyExpires s = attemptMissed s := by
  simp [replyExpires, hx, hl, ht]

/-- An expiry whose attempt is not sent, or whose timer is not at zero, does nothing (log 8). -/
theorem replyExpires_early (hx : s.act.txn = some x) (h : x.sendLeft ≠ 0 ∨ x.timer ≠ 0) : replyExpires s = s := by
  simp only [replyExpires, hx]
  exact if_neg (by simpa [imp_iff_not_or] using h)

end

/-- The rows of the three kinds of frame that an ACK answers (R130). -/
def ackRows (h : ReplyHead) : List (FrameKind × Instr) := [(.route, .routeAck h), (.atten, .attenAck h), (.ping, .pingAck h)]

theorem exists_ackRow {h : ReplyHead} {c : Instr} (hc : c = .routeAck h ∨ c = .attenAck h ∨ c = .pingAck h) : ∃ k, (k, c) ∈ ackRows h := by
  rcases hc with rfl | rfl | rfl
  · exact ⟨.route, by simp [ackRows]⟩
  · exact ⟨.atten, by simp [ackRows]⟩
  · exact ⟨.ping, by simp [ackRows]⟩

/-- Each of the three rows is the arrival of an ACK for its kind of frame, which is none of a READ (R130). -/
theorem exec_ackRow {s : State} {h : ReplyHead} {k : FrameKind} {c : Instr} (ha : Awake s) (hc : (k, c) ∈ ackRows h) :
    k ≠ .read ∧ exec c s = settled (ackArrives k h (fresh s)) := by
  simp only [ackRows, List.mem_cons, Prod.mk.injEq, List.not_mem_nil, or_false] at hc
  rcases hc with ⟨rfl, rfl⟩ | ⟨rfl, rfl⟩ | ⟨rfl, rfl⟩ <;> exact ⟨by decide, event_awake ha _⟩

/-- The replies that a judged attempt takes as refusals (R130): a NAK, an ACK to a READ, a DATA that cannot stand or that answers another frame. -/
def Refuses (x : Txn) (h : ReplyHead) (c : Instr) : Prop :=
  c = .nak h ∨ ((c = .routeAck h ∨ c = .attenAck h ∨ c = .pingAck h) ∧ x.cmd.kind = .read) ∨
    ∃ l, c = .data h l ∧ (x.cmd.kind ≠ .read ∨ l.length ≠ x.cmd.count ∨ l.all (settingOk x.cmd.module) = false)

theorem exec_refused {s : State} {x : Txn} {h : ReplyHead} {c : Instr} (ha : Awake s) (hx : s.act.txn = some x) (hj : Judged x h)
    (hc : Refuses x h c) : exec c s = settled (attemptMissed (fresh s)) := by
  rcases hc with rfl | ⟨hc, hk⟩ | ⟨l, rfl, hr⟩
  · exact (event_awake ha _).trans (congrArg settled (nakArrives_judged (s := fresh s) hx hj))
  · obtain ⟨k, hc⟩ := exists_ackRow hc
    obtain ⟨hread, hexec⟩ := exec_ackRow ha hc
    rw [hexec, ackArrives_other (s := fresh s) hx hj (hk ▸ hread.symm), if_pos hk]
  · exact (event_awake ha _).trans (congrArg settled (dataArrives_refused (s := fresh s) hx hj hr))

theorem exec_replyTimerExpiry_due {s : State} {x : Txn} (ha : Awake s) (hx : s.act.txn = some x) (hl : x.sendLeft = 0) (ht : x.timer = 0) :
    exec .replyTimerExpiry s = settled (attemptMissed (fresh s)) :=
  (event_awake ha _).trans (congrArg settled (replyExpires_due (s := fresh s) hx hl ht))

/-- A reply with a bad checksum, of another module, or before the attempt's last bit is discarded (R128, R130). -/
theorem exec_discarded {s : State} {x : Txn} {h : ReplyHead} {c : Instr} {l : List SlotSetting} (ha : Awake s) (hx : s.act.txn = some x)
    (hd : h.checksumOk = false ∨ h.module ≠ x.cmd.module ∨ x.sendLeft ≠ 0)
    (hc : (c = .routeAck h ∨ c = .attenAck h ∨ c = .pingAck h) ∨ c = .nak h ∨ c = .data h l) : exec c s = settled (fresh s) := by
  have hnone : replyTxn h (fresh s) = none := replyTxn_discarded (s := fresh s) hx hd
  rcases hc with hc | rfl | rfl
  · obtain ⟨k, hc⟩ := exists_ackRow hc
    rw [(exec_ackRow ha hc).2, ackArrives, hnone]
  · exact (event_awake ha _).trans (congrArg settled (by rw [nakArrives, hnone]))
  · exact (event_awake ha _).trans (congrArg settled (by rw [dataArrives, hnone]))

/-! #### Who is told (R131, R136) -/

section
variable {s : State} {y : ActCmd}

theorem commandFailed_entry {r : RecNo} {pid : Nat} {use : RouteUse} (hy : y.req = .entry r pid use) :
    commandFailed y s = if standsOn s r pid (if use = .connect then .connect else .disconnect) then stepFailed r .module s else s := by
  cases use <;> simp [commandFailed, hy]

theorem commandFailed_restore {r : RecNo} {pid : Nat} {use : RouteUse} {z : Restore} (hy : y.req = .restore r pid use)
    (hz : s.restore? r = some z) (hp : z.pid = pid) : commandFailed y s = restoreFailed r s := by
  simp [commandFailed, hy, hz, hp]

/-- An engine held under the command's grant fails, its command answered; one stopped since is told nothing (R112, R131; log 104). -/
theorem commandFailed_engine {e : EngineNo} {g : Nat} {o : EngOwner} (hy : y.req = .engine e g o) :
    commandFailed y s = if (s.engine e).st ≠ .free ∧ (s.engine e).grant = g then
      engineFails o .module (updateEngine e (fun x => { x with cmd := .none }) s) else s := by
  simp [commandFailed, hy]

theorem commandFailed_silent
    (hy : y.req = .squelch ∨ y.req = .refresh ∨ y.req = .fillChange ∨ y.req = .readback ∨ ∃ pid, y.req = .gone pid) : commandFailed y s = s := by
  rcases hy with hy | hy | hy | hy | ⟨pid, hy⟩ <;> simp [commandFailed, hy]

end

end Sys2Proof.Machine

section
open Sys2Proof Sys2Proof.Machine

/-- Settles O40: every refusal is a missed attempt; what that brings about, who is told, and which replies are none. -/
theorem missedAttemptsRetryThenFault : Obligations.MissedAttemptsRetryThenFault := by
  intro s x h ha hx judged refused
  have hx' : (fresh s).act.txn = some x := hx
  refine ⟨fun c hc => ?_, fun y => ⟨?_, ?_, ?_, ?_, commandFailed_silent⟩, fun k c hc hj hk hread => ?_,
    fun c l hc hd => exec_discarded (l := l) ha hx hd (by simpa only [or_assoc] using hc),
    fun h => (event_awake ha _).trans (congrArg settled (replyExpires_early hx' h))⟩
  · have hmissed : exec c s = settled (attemptMissed (fresh s)) := by
      rcases hc with ⟨⟨hsum, hmod, hsent⟩, hc⟩ | ⟨rfl, hsent, htimer⟩
      · exact exec_refused ha hx ⟨hsum, hmod, hsent⟩ hc
      · exact exec_replyTimerExpiry_due ha hx hsent htimer
    refine ⟨fun h1 => ?_, fun h2 => ?_, fun h2 hm hrefresh hreq => ?_⟩
    · rw [hmissed, attemptMissed_retries hx' h1]
      rfl
    · obtain ⟨hmods, htxn, hwork⟩ := transactionFails_faults x (fresh s)
      refine ⟨_, hmissed.trans (congrArg settled (attemptMissed_fails hx' h2)), hmods, htxn, fun hu hr => hwork ?_⟩
      exact Bool.and_eq_true_iff.mpr ⟨decide_eq_true hu, decide_eq_true hr⟩
    · intro o gone u v
      have hfails : v.act.refresh = none → exec c s = settled (faultCaptured o v) := fun hv =>
        hmissed.trans (congrArg settled ((attemptMissed_fails hx' h2).trans (transactionFails_online (s := fresh s) hm hreq hv)))
      exact ⟨fun hc hv => (hfails hv).trans (congrArg settled (if_pos hc)),
        fun hc hv => (hfails hv).trans (congrArg settled (if_neg (by simp [hc])))⟩
  · exact fun r pid use hy hs => (commandFailed_entry hy).trans (if_pos hs)
  · exact fun r pid use hy hs => (commandFailed_entry hy).trans (if_neg (by simp [hs]))
  · exact fun r pid use z hy hz hp => commandFailed_restore hy hz hp
  · exact fun e g o hy => ⟨fun hheld hgrant => (commandFailed_engine hy).trans (if_pos ⟨hheld, hgrant⟩),
      fun hgone => (commandFailed_engine hy).trans (if_neg fun ⟨hheld, hgrant⟩ => hgone.elim hheld (· hgrant))⟩
  · obtain ⟨hsum, hmod, hsent⟩ := hj
    rw [(exec_ackRow ha hc).2, ackArrives_other hx' ⟨hsum, hmod, hsent⟩ hk, if_neg hread]

end

/-! ### Samples that arrive (R114, R118, R122, R123) -/

namespace Sys2Proof.Machine

/-- A frame that is whole, of the right kind and in range makes an entry of its fields (R114). -/
theorem sampleEntry_valid {f : SampleFrame} {o : OutPoint} {n : Fin 64} (ho : f.point = some o) (hn : f.slot = n.val) (hw : f.whole = true)
    (hc : f.checksumOk = true) (hk : f.kindOk = true) (hl : -600 ≤ f.power) (hu : f.power ≤ 100) :
    sampleEntry f = some { seq := f.seq, point := o, slot := n, power := f.power, below := f.below, overwritten := false } := by
  simp [sampleEntry, ho, hn, hw, hc, hk, hl, hu]

/-- The tests that a frame which makes an entry has passed (R114). -/
theorem sampleEntry_passed {f : SampleFrame} {i : IntakeEntry} (h : sampleEntry f = some i) :
    f.point ≠ none ∧ f.slot < 64 ∧ f.whole = true ∧ f.checksumOk = true ∧ f.kindOk = true ∧ -600 ≤ f.power ∧ f.power ≤ 100 := by
  unfold sampleEntry at h
  split at h
  · next o ho =>
    split at h
    · next hn =>
      split at h
      · next hok =>
        simp only [Bool.and_eq_true, decide_eq_true_iff] at hok
        obtain ⟨⟨⟨hw, hc⟩, hk⟩, hl, hu⟩ := hok
        exact ⟨by simp [ho], hn, hw, hc, hk, hl, hu⟩
      · cases h
    · cases h
  · cases h

theorem sampleEntry_invalid {f : SampleFrame} (h : f.whole = false ∨ f.checksumOk = false ∨ f.kindOk = false ∨ f.point = none ∨ 64 ≤ f.slot ∨
    f.power < -600 ∨ 100 < f.power) : sampleEntry f = none := by
  refine Option.eq_none_iff_forall_ne_some.mpr fun i hi => ?_
  obtain ⟨ho, hn, hw, hc, hk, hl, hu⟩ := sampleEntry_passed hi
  rcases h with h | h | h | h | h | h | h
  · simp [h] at hw
  · simp [h] at hc
  · simp [h] at hk
  · exact ho h
  · exact absurd hn (Nat.not_lt.mpr h)
  · exact absurd hl (Int.not_le.mpr h)
  · exact absurd hu (Int.not_le.mpr h)

/-- A raised cause and the change of the Monitor Port do not meet. -/
theorem raiseCause_mon (c : Cause) (s : State) (m : Monitor) : raiseCause c { s with mon := m } = { raiseCause c s with mon := m } := by
  unfold raiseCause requestAttention request
  simp only; split
  · rfl
  · split <;> rfl

theorem requestStatus_mon (r : PortReq) (s : State) (m : Monitor) : requestStatus r { s with mon := m } = { requestStatus r s with mon := m } := by
  unfold requestStatus request; split <;> rfl

/-- Of the Monitor Port a change of the link's state touches the link state alone (R122, R123). -/
@[simp] theorem setLink_mon (up : Bool) (s : State) : (setLink up s).mon = { s.mon with linkUp := up } := by simp [setLink]

section
variable {f : SampleFrame} {i : IntakeEntry} {s : State}

theorem sampleArrives_discarded (h : sampleEntry f = none) : sampleArrives f s = s := by simp [sampleArrives, h]

theorem sampleArrives_up (h : sampleEntry f = some i) (hl : s.mon.linkUp = true) :
    sampleArrives f s = { s with mon := { s.mon with silence := silenceFull, intake := intakeJoin i s.mon.intake } } := by
  simp [sampleArrives, h, hl]

/-- The sample that finds the link DOWN brings it UP, and then enters as any other does (R123). -/
theorem sampleArrives_down (h : sampleEntry f = some i) (hl : s.mon.linkUp = false) :
    sampleArrives f s = raiseCause .monitorLink (requestStatus (.monitor true)
      { s with mon := { s.mon with linkUp := true, silence := silenceFull, intake := intakeJoin i s.mon.intake } }) := by
  have hup : sampleArrives f s =
      { setLink true s with mon := { (setLink true s).mon with silence := silenceFull, intake := intakeJoin i (setLink true s).mon.intake } } := by
    simp [sampleArrives, h, hl]
  rw [hup, setLink_mon, setLink]
  simp only [requestStatus_mon, raiseCause_mon]

end

end Sys2Proof.Machine

section
open Sys2Proof Sys2Proof.Machine

/-- Settles O30: the frame's tests, and the arrival of a frame that passes them by the state of the link. -/
theorem samplesJoinTheIntake : Obligations.SamplesJoinTheIntake := by
  intro s f ha
  have hexec : exec (.sample f) s = settled (sampleArrives f (fresh s)) := event_awake ha _
  refine ⟨fun h => ?_, fun i hi => ⟨fun hl => ?_, fun hl => ?_⟩, fun o n => sampleEntry_valid, sampleEntry_invalid⟩
  · rw [hexec, sampleArrives_discarded h]
  · rw [hexec, sampleArrives_up (s := fresh s) hi hl]
    rfl
  · rw [hexec, sampleArrives_down (s := fresh s) hi hl]
    rfl

end

/-! ### Requests that are lost (R105, R121, R122) -/

namespace Sys2Proof.Machine

/-- The engine that asked is still held under its grant and waits for its sample (R105). -/
structure Hears (a : Asker) (s : State) : Prop where
  held : (s.engine a.engine).st ≠ .free
  grant : (s.engine a.engine).grant = a.grant
  waits : (s.engine a.engine).samp = .outstanding

theorem tellLost_hears {a : Asker} {s : State} (h : Hears a s) :
    tellLost a s = setEngine a.engine { (s.engine a.engine) with samp := .lost } s := by
  simp [tellLost, h.held, h.grant, h.waits]

theorem handSample_hears {a : Asker} {s : State} (h : Hears a s) (v : Int) :
    handSample a v s = setEngine a.engine { (s.engine a.engine) with samp := .arrived, sample := some v } s := by
  simp [handSample, h.held, h.grant, h.waits]

/-- Telling an engine leaves every engine as it was, or makes it one whose request is lost (R105). -/
theorem tellLost_engine (a : Asker) (s : State) (e : EngineNo) :
    (tellLost a s).engine e = s.engine e ∨ ((tellLost a s).engine e).samp = .lost := by
  unfold tellLost
  simp only
  split
  · rw [engine_setEngine]
    split
    · exact .inr rfl
    · exact .inl rfl
  · exact .inl rfl

/-- The engine that asked for an outstanding request is told that it is lost; an orphan has none (R105, R117). -/
def tellAsker (s : State) (r : OutReq) : State :=
  match r.asker with
  | some a => tellLost a s
  | none => s

/-- The Monitor Port once every request is given up into the stale set (R121, R122). -/
def Monitor.requestsGone (m : Monitor) : Monitor :=
  { m with out := [], stale := m.out.foldl (fun l r => joinStale r.seq l) m.stale }

theorem loseRequests_eq (s : State) : loseRequests s = s.mon.out.foldl tellAsker { s with mon := s.mon.requestsGone } := rfl

theorem tellAsker_engine (s : State) (r : OutReq) (e : EngineNo) :
    (tellAsker s r).engine e = s.engine e ∨ ((tellAsker s r).engine e).samp = .lost := by
  unfold tellAsker
  split
  · exact tellLost_engine ..
  · exact .inl rfl

theorem tellAsker_hears {a : Asker} {s : State} {r : OutReq} (h : Hears a s) (hr : r.asker = some a) :
    ((tellAsker s r).engine a.engine).samp = .lost := by
  simp only [tellAsker, hr, tellLost_hears h, engine_setEngine_same]

theorem tellAsker_leaves (s : State) (r : OutReq) : (tellAsker s r).mon = s.mon ∧ (tellAsker s r).power = s.power ∧
    (tellAsker s r).port = s.port ∧ (tellAsker s r).win = s.win := by
  unfold tellAsker
  split <;> simp

/-- The engines are told, and nothing of the link, the Power Table, the arbiter's list and the window map changes. -/
theorem tellAskers_leaves (l : List OutReq) (s : State) : (l.foldl tellAsker s).mon = s.mon ∧ (l.foldl tellAsker s).power = s.power ∧
    (l.foldl tellAsker s).port = s.port ∧ (l.foldl tellAsker s).win = s.win := by
  induction l generalizing s with
  | nil => exact ⟨rfl, rfl, rfl, rfl⟩
  | cons r l ih =>
    obtain ⟨hmon, hpower, hport, hwin⟩ := ih (tellAsker s r)
    obtain ⟨rmon, rpower, rport, rwin⟩ := tellAsker_leaves s r
    exact ⟨hmon.trans rmon, hpower.trans rpower, hport.trans rport, hwin.trans rwin⟩

/-- A request once lost stays lost while the others are told. -/
theorem tellAskers_lost {e : EngineNo} {s : State} (h : (s.engine e).samp = .lost) (l : List OutReq) :
    ((l.foldl tellAsker s).engine e).samp = .lost := by
  induction l generalizing s with
  | nil => exact h
  | cons r l ih =>
    refine ih ?_
    rcases tellAsker_engine s r e with hr | hr
    · rw [hr, h]
    · exact hr

/-- Each engine that waits for one of the requests is told, whichever of its requests comes first (R105). -/
theorem tellAskers_told {a : Asker} {s : State} {l : List OutReq} {x : OutReq} (h : Hears a s) (hx : x ∈ l) (ha : x.asker = some a) :
    ((l.foldl tellAsker s).engine a.engine).samp = .lost := by
  induction l generalizing s with
  | nil => cases hx
  | cons r l ih =>
    rcases tellAsker_engine s r a.engine with hr | hr
    · rcases List.mem_cons.mp hx with rfl | hx
      · exact tellAskers_lost (tellAsker_hears h ha) l
      · exact ih ⟨by rw [hr]; exact h.held, by rw [hr]; exact h.grant, by rw [hr]; exact h.waits⟩ hx
    · exact tellAskers_lost hr l

theorem mem_joinStale {x q : BitVec 8} {l : List (BitVec 8)} : x ∈ joinStale q l ↔ x ∈ l ∨ q = x := by
  unfold joinStale
  split
  · next h =>
    refine ⟨.inl, fun hx => hx.elim id ?_⟩
    rintro rfl
    exact List.contains_iff_mem.mp h
  · simp [eq_comm]

theorem mem_joinStales {x : BitVec 8} {out : List OutReq} {l : List (BitVec 8)} :
    x ∈ out.foldl (fun l r => joinStale r.seq l) l ↔ x ∈ l ∨ ∃ y ∈ out, y.seq = x := by
  induction out generalizing l with
  | nil => simp
  | cons r out ih => simp [ih, mem_joinStale, or_assoc]

/-- What it is for the requests of a state to be lost in another: none is outstanding, their numbers are stale, each engine that asked is told, and
the send list and the Power Table stand (R121, R122). -/
structure RequestsLost (s t : State) : Prop where
  out : t.mon.out = []
  send : t.mon.send = s.mon.send
  power : t.power = s.power
  stale : ∀ x, x ∈ t.mon.stale ↔ x ∈ s.mon.stale ∨ ∃ y ∈ s.mon.out, y.seq = x
  told : ∀ x ∈ s.mon.out, ∀ a, x.asker = some a → (s.engine a.engine).st ≠ .free → (s.engine a.engine).grant = a.grant →
    (s.engine a.engine).samp = .outstanding → (t.engine a.engine).samp = .lost

theorem loseRequests_leaves (s : State) : (loseRequests s).mon = s.mon.requestsGone ∧ (loseRequests s).power = s.power ∧
    (loseRequests s).port = s.port ∧ (loseRequests s).win = s.win := by
  rw [loseRequests_eq]
  exact tellAskers_leaves ..

theorem loseRequests_lost (s : State) : RequestsLost s (loseRequests s) := by
  obtain ⟨hmon, hpower, -, -⟩ := loseRequests_leaves s
  refine ⟨by rw [hmon]; rfl, by rw [hmon]; rfl, hpower, fun x => ?_, fun x hx a ha hf hg hs => ?_⟩
  · rw [hmon]
    exact mem_joinStales
  · rw [loseRequests_eq]
    exact tellAskers_told (s := { s with mon := s.mon.requestsGone }) ⟨hf, hg, hs⟩ hx ha

/-- A slip loses the requests and empties the intake (R121). -/
theorem slip_lost (s : State) : RequestsLost s (slip s) := by
  obtain ⟨hout, hsend, hpower, hstale, htold⟩ := loseRequests_lost { s with mon := { s.mon with intake := [] } }
  exact ⟨hout, hsend, hpower, hstale, htold⟩

theorem slip_intake (s : State) : (slip s).mon.intake = [] := by
  rw [slip, (loseRequests_leaves _).1]
  rfl

end Sys2Proof.Machine

/-! ### The Intake Queue's head (R119, R120) -/

namespace Sys2Proof.Machine

/-- The head of the Intake Queue taken (R119). -/
def headTaken (rest : List IntakeEntry) (s : State) : State := { s with mon := { s.mon with intake := rest } }

/-- A number out of the stale set (R119). -/
def numberFreed (q : BitVec 8) (s : State) : State := { s with mon := { s.mon with stale := s.mon.stale.filter (fun x => x ≠ q) } }

/-- A sample handed to the engine that asked; an orphan's goes no further (R117, R120). -/
def handOver (i : IntakeEntry) (r : OutReq) (s : State) : State :=
  match r.asker with
  | some a => handSample a i.value s
  | none => s

/-- A sample held against the oldest request (R120): matched, it leaves that request, updates its cell and is handed over; anything else is a slip. -/
def heldAgainstOldest (i : IntakeEntry) (rest : List IntakeEntry) (s : State) : State :=
  match s.mon.out with
  | r :: out =>
    if r.seq = i.seq ∧ r.point = i.point ∧ r.slot = i.slot then
      handOver i r (powerTake i { s with mon := { s.mon with intake := rest, out := out } })
    else slip (headTaken rest s)
  | [] => slip (headTaken rest s)

section
variable {s : State} {i : IntakeEntry} {rest : List IntakeEntry}

/-- The judgements of the head in their order (R119). -/
theorem takeIntake_eq (hq : s.mon.intake = i :: rest) : takeIntake s =
    if i.overwritten = true ∧ s.mon.out ≠ [] then
      if s.mon.stale.contains i.seq = true then slip (numberFreed i.seq (headTaken rest s)) else slip (powerTake i (headTaken rest s))
    else if i.seq = 0 then powerTake i (headTaken rest s)
    else if s.mon.stale.contains i.seq = true then numberFreed i.seq (headTaken rest s)
    else heldAgainstOldest i rest s := by
  simp only [takeIntake, hq, heldAgainstOldest]
  cases ho : s.mon.out with
  | nil => simp [headTaken, numberFreed, ho]
  | cons r out =>
    simp only [Bool.and_eq_true, decide_eq_true_iff, and_assoc]
    cases ha : r.asker <;> simp [headTaken, numberFreed, handOver, ho, ha]

/-- An overwritten entry met with requests outstanding is a slip; the cell takes its sample unless it is stale (R119, R121). -/
theorem takeIntake_overwritten (hq : s.mon.intake = i :: rest) (hw : i.overwritten = true) (ho : s.mon.out ≠ []) :
    takeIntake s = if s.mon.stale.contains i.seq = true then slip (numberFreed i.seq (headTaken rest s)) else slip (powerTake i (headTaken rest s)) := by
  rw [takeIntake_eq hq, if_pos ⟨hw, ho⟩]

/-- An entry that was not overwritten, or that no request waits beside, is judged by its number (R119). -/
theorem takeIntake_byNumber (hq : s.mon.intake = i :: rest) (hw : i.overwritten = false ∨ s.mon.out = []) : takeIntake s =
    if i.seq = 0 then powerTake i (headTaken rest s)
    else if s.mon.stale.contains i.seq = true then numberFreed i.seq (headTaken rest s)
    else heldAgainstOldest i rest s := by
  rw [takeIntake_eq hq, if_neg fun ⟨hover, hout⟩ => hw.elim (by simp [hover]) hout]

theorem takeIntake_judged (hq : s.mon.intake = i :: rest) (hw : i.overwritten = false ∨ s.mon.out = []) (h0 : i.seq ≠ 0)
    (hs : s.mon.stale.contains i.seq = false) : takeIntake s = heldAgainstOldest i rest s := by
  rw [takeIntake_byNumber hq hw, if_neg h0, hs, if_neg Bool.false_ne_true]

theorem heldAgainstOldest_matched {r : OutReq} {out : List OutReq} (ho : s.mon.out = r :: out)
    (hm : r.seq = i.seq ∧ r.point = i.point ∧ r.slot = i.slot) : heldAgainstOldest i rest s =
      handOver i r (powerTake i { s with mon := { s.mon with intake := rest, out := out } }) := by
  rw [heldAgainstOldest, ho]
  exact if_pos hm

/-- A sample that no request waits for, or another than the oldest, is a slip (R119, R121). -/
theorem heldAgainstOldest_unmatched
    (hm : s.mon.out = [] ∨ ∃ r out, s.mon.out = r :: out ∧ (r.seq ≠ i.seq ∨ r.point ≠ i.point ∨ r.slot ≠ i.slot)) :
    heldAgainstOldest i rest s = slip (headTaken rest s) := by
  rcases hm with ho | ⟨r, out, ho, hm⟩
  · rw [heldAgainstOldest, ho]
  · rw [heldAgainstOldest, ho]
    exact if_neg fun ⟨hseq, hpoint, hslot⟩ => hm.elim (· hseq) fun hm => hm.elim (· hpoint) (· hslot)

end

end Sys2Proof.Machine

section
open Sys2Proof Sys2Proof.Machine

/-- Settles O31: the head matched against the oldest request, and the sample handed to an engine that waits for it. -/
theorem matchedSampleReachesItsEngine : Obligations.MatchedSampleReachesItsEngine := by
  intro s i rest r out ha hq hw h0 hs ho hseq hpoint hslot t
  have htake : takeIntake (fresh s) = handOver i r t :=
    (takeIntake_judged (s := fresh s) hq (.inl hw) h0 hs).trans (heldAgainstOldest_matched (s := fresh s) ho ⟨hseq, hpoint, hslot⟩)
  have hexec : exec .intakeQueueTake s = settled (handOver i r t) := (event_awake ha _).trans (congrArg settled htake)
  refine ⟨fun hr => ?_, fun a hr hf hg hsamp => ?_⟩
  · rw [hexec, handOver, hr]
  · have hears : Hears a t := ⟨hf, hg, hsamp⟩
    rw [hexec, handOver, hr]
    exact congrArg settled (handSample_hears hears i.value)

/-- Settles O32: each judgement of the head is a branch of `takeIntake`, and what a slip leaves is `slip_lost`'s. -/
theorem otherSamplesAreJudged : Obligations.OtherSamplesAreJudged := by
  intro s i rest ha hq slipped
  have hexec {t : State} (h : takeIntake (fresh s) = t) : exec .intakeQueueTake s = settled t := h ▸ event_awake ha _
  have hslipped {u : State} (h : takeIntake (fresh s) = slip u) (hout : u.mon.out = s.mon.out) (hsend : u.mon.send = s.mon.send)
      (heng : u.engine = s.engine) : slipped (slip u) :=
    ⟨hexec h, (slip_lost u).out, slip_intake u, (slip_lost u).send.trans hsend,
      fun x hx a hasks hf hg hsamp => (slip_lost u).told x (hout ▸ hx) a hasks (heng ▸ hf) (heng ▸ hg) (heng ▸ hsamp)⟩
  refine ⟨fun hw => ⟨fun h0 => ?_, fun h0 hs => ?_, fun h0 hs hm => ?_⟩, fun hw ho => ?_⟩
  · exact hexec ((takeIntake_byNumber (s := fresh s) hq hw).trans (if_pos h0))
  · exact hexec ((takeIntake_byNumber (s := fresh s) hq hw).trans ((if_neg h0).trans (if_pos hs)))
  · have htake := (takeIntake_judged (s := fresh s) hq hw h0 hs).trans (heldAgainstOldest_unmatched (s := fresh s) hm)
    have hlost := slip_lost (headTaken rest (fresh s))
    exact ⟨_, hslipped htake rfl rfl rfl, hlost.power, hlost.stale⟩
  · have htake := takeIntake_overwritten (s := fresh s) hq hw ho
    by_cases hs : s.mon.stale.contains i.seq = true
    · have hlost := slip_lost (numberFreed i.seq (headTaken rest (fresh s)))
      refine ⟨_, hslipped (htake.trans (if_pos hs)) rfl rfl rfl, hlost.power.trans (if_pos hs).symm, fun x => (hlost.stale x).trans ?_⟩
      simp [numberFreed, headTaken]
    · have hlost := slip_lost (powerTake i (headTaken rest (fresh s)))
      refine ⟨_, hslipped (htake.trans (if_neg hs)) rfl rfl rfl, hlost.power.trans (if_neg hs).symm, fun x => (hlost.stale x).trans ?_⟩
      have hfree (hx : x ∈ s.mon.stale) : x ≠ i.seq := fun h => hs (List.contains_iff_mem.mpr (h ▸ hx))
      exact or_congr ⟨fun hx => ⟨hx, hfree hx⟩, And.left⟩ Iff.rfl

end

/-! ### Silence on the link (R122) -/

namespace Sys2Proof.Machine

theorem silenceExpires_due {s : State} (hl : s.mon.linkUp = true) (h0 : s.mon.silence = 0) :
    silenceExpires s = setLink false (loseRequests s) := by
  simp [silenceExpires, hl, h0]

theorem silenceExpires_early {s : State} (h : s.mon.linkUp = false ∨ s.mon.silence ≠ 0) : silenceExpires s = s := by
  rcases h with h | h <;> simp [silenceExpires, h]

theorem setLink_pending (up : Bool) (s : State) : hasCause (setLink up s).attn.pending .monitorLink = true := raiseCause_pending ..

/-- A change of the link's state asks for the monitor word where a status page is installed (R122, R123). -/
theorem setLink_port {s : State} (h : s.win.map.isSome = true) (up : Bool) : PortReq.monitor up ∈ (setLink up s).port :=
  mem_raiseCause_port (by rw [requestStatus_port, if_pos h]; simp) (by simp)

end Sys2Proof.Machine

section
open Sys2Proof Sys2Proof.Machine

/-- Settles O33: the requests are lost, and then the link's state changes. -/
theorem silenceBringsTheLinkDown : Obligations.SilenceBringsTheLinkDown := by
  intro s ha
  have hexec : exec .silenceTimerExpiry s = settled (silenceExpires (fresh s)) := event_awake ha _
  refine ⟨fun h => ?_, fun hl h0 => ?_⟩
  · rw [hexec, silenceExpires_early (s := fresh s) h]
  · obtain ⟨hout, hsend, -, hstale, htold⟩ := loseRequests_lost (fresh s)
    obtain ⟨hmon, -, -, hwin⟩ := loseRequests_leaves (fresh s)
    have hlink := setLink_mon false (loseRequests (fresh s))
    have hramp (e : EngineNo) : (setLink false (loseRequests (fresh s))).engine e = (loseRequests (fresh s)).engine e := by simp [State.engine]
    refine ⟨_, hexec.trans (congrArg settled (silenceExpires_due (s := fresh s) hl h0)), by rw [hlink], by rw [hlink]; exact hout,
      by rw [hlink]; exact hsend, by rw [hlink, hmon]; rfl, setLink_pending .., fun x => by rw [hlink]; exact hstale x,
      fun x hx a hasks hf hg hs => ?_, fun hm => setLink_port (by rw [hwin]; exact hm) false⟩
    rw [hramp]
    exact htold x hx a hasks hf hg hs

end

/-! ### A MEASURE sent (R115, R116) -/

namespace Sys2Proof.Machine

theorem measureDue_iff (s : State) : measureDue s = true ↔ s.mon.txLeft = 0 ∧ s.mon.send ≠ [] ∧ s.start.powerdown = false := by
  simp [measureDue, and_assoc]

/-- The search for a sequence number ends at the first that no request holds (R116). -/
theorem freeSequence_first {out : List OutReq} {n k : Nat} {q : BitVec 8} (hk : k ≤ n)
    (hheld : ∀ j, j < k → ∃ x ∈ out, x.seq = nextSequence^[j] q) (hfree : ∀ x ∈ out, x.seq ≠ nextSequence^[k] q) :
    freeSequence out n q = nextSequence^[k] q := by
  induction k generalizing n q with
  | zero =>
    cases n with
    | zero => rfl
    | succ n => exact if_neg (by simpa using hfree)
  | succ k ih =>
    obtain ⟨n, rfl⟩ : ∃ m, n = m + 1 := ⟨n - 1, by omega⟩
    obtain ⟨x, hx, hseq⟩ := hheld 0 (by omega)
    have hany : out.any (fun r => r.seq = q) = true := List.any_eq_true.mpr ⟨x, hx, by simpa using hseq⟩
    rw [freeSequence, if_pos hany]
    exact ih (by omega) (fun j hj => hheld (j + 1) (by omega)) hfree

theorem evict_room {m : Monitor} (h : m.out.length < 12) : evict m = m := if_pos h

/-- A full list gives up its oldest orphan into the stale set (R116). -/
theorem evict_full {m : Monitor} {o : OutReq} (h : 12 ≤ m.out.length) (ho : m.out.find? (fun x => x.asker.isNone) = some o) :
    evict m = { m with out := m.out.erase o, stale := joinStale o.seq m.stale } := by
  rw [evict, if_neg (Nat.not_lt.mpr h), ho]

/-- The Monitor Port once a request is sent under a sequence number (R115, R116). -/
def Monitor.sent (m : Monitor) (r : SendReq) (rest : List SendReq) (q : BitVec 8) : Monitor :=
  { m with
    send := rest
    out := m.out ++ [{ seq := q, point := r.point, slot := r.slot, asker := some r.asker }]
    nextSeq := nextSequence q
    stale := m.stale.filter (fun x => x ≠ q)
    txLeft := Config.measureFrameTicks }

/-- The head of the send list is sent from the list that the eviction leaves, under the first number that is free in it (R115, R116). -/
theorem beginMeasure_eq {s : State} {r : SendReq} {rest : List SendReq} {m : Monitor} {k : Nat} (hs : s.mon.send = r :: rest)
    (hm : evict s.mon = m) (hk : k < 256) (hheld : ∀ j, j < k → ∃ x ∈ m.out, x.seq = nextSequence^[j] m.nextSeq)
    (hfree : ∀ x ∈ m.out, x.seq ≠ nextSequence^[k] m.nextSeq) :
    beginMeasure s = { s with mon := m.sent r rest (nextSequence^[k] m.nextSeq) } := by
  rw [← freeSequence_first (Nat.le_of_lt hk) hheld hfree]
  simp only [beginMeasure, hs, hm, Monitor.sent]

end Sys2Proof.Machine

section
open Sys2Proof Sys2Proof.Machine

/-- Settles O34: when a MEASURE is due, and the sending from a list with room and from a full one. -/
theorem measureSendsTheHeadRequest : Obligations.MeasureSendsTheHeadRequest := by
  have hexec {s : State} (ha : Awake s) : exec .measure s = settled (if measureDue s then beginMeasure (fresh s) else fresh s) := event_awake ha _
  refine ⟨fun s => ⟨measureDue_iff s, fun ha hd => ?_⟩, fun q => ⟨rfl, nextSequence_ne_zero q⟩, fun s r rest ha hd hs => ⟨?_, ?_⟩⟩
  · rw [hexec ha, if_neg (by simp [hd])]
  · rintro q hroom ⟨k, hk, rfl, hheld, hfree⟩
    rw [hexec ha, if_pos hd, beginMeasure_eq (s := fresh s) hs (evict_room hroom) hk hheld hfree]
    rfl
  · rintro o q hfull ho ⟨k, hk, rfl, hheld, hfree⟩
    have hbegin := beginMeasure_eq (s := fresh s) hs (evict_full hfull ho) hk hheld hfree
    refine ⟨_, (hexec ha).trans (congrArg settled ((if_pos hd).trans hbegin)), rfl, rfl, rfl, fun hne => ?_⟩
    exact List.mem_filter.mpr ⟨mem_joinStale.mpr (.inr rfl), decide_eq_true hne⟩

end

/-! ### The Power Table's cells (R124, R125) -/

namespace Sys2Proof.Machine

/-- A quotient rounded toward zero goes back to at most the dividend, and falls short of it by less than the divisor (R124). -/
theorem tdiv_towardZero (a : Int) {b : Int} (hb : 0 < b) : |a.tdiv b * b| ≤ |a| ∧ |a - a.tdiv b * b| < b := by
  have hrest : a - a.tdiv b * b = a.tmod b := by rw [Int.tmod_def, Int.mul_comm]
  constructor
  · rw [Int.abs_eq_natAbs, Int.abs_eq_natAbs, Int.natAbs_mul, Int.natAbs_tdiv]
    exact_mod_cast Nat.div_mul_le_self _ _
  · rw [hrest, Int.abs_eq_natAbs, Int.natAbs_tmod]
    have hlt := Nat.mod_lt a.natAbs (Int.natAbs_pos.mpr hb.ne')
    omega

theorem averageOf_cons (v : Int) (l : List Int) : averageOf (v :: l) = some ((v :: l).sum.tdiv ((v :: l).length : Int)) := rfl

/-- A cell keeps its newest four values (R124). -/
theorem pushValue_eq {l : List Int} (h : l.length ≤ 4) (v : Int) : pushValue l v = (l ++ [v]).drop (l.length + 1 - 4) := by
  unfold pushValue
  split
  · next hl => rw [show l.length + 1 - 4 = 0 by omega, List.drop_zero]
  · next hl => rw [show l.length + 1 - 4 = 1 by omega, List.drop_append_of_le_length (by omega)]

theorem cellValues_cons (c : PowerCell) (t : List PowerCell) (o : OutPoint) (n : Slot) :
    cellValues (c :: t) o n = if c.point = o ∧ c.slot = n then c.vals else cellValues t o n := by
  by_cases h : c.point = o ∧ c.slot = n <;> simp [cellValues, h]

/-- A cell that the Power Table does not list holds no value. -/
theorem cellValues_unlisted {t : List PowerCell} {o : OutPoint} {n : Slot} (h : t.any (fun c => c.point = o ∧ c.slot = n) = false) :
    cellValues t o n = [] := by
  induction t with
  | nil => rfl
  | cons c t ih =>
    rw [List.any_cons, Bool.or_eq_false_iff, decide_eq_false_iff_not] at h
    rw [cellValues_cons, if_neg h.1, ih h.2]

/-- A cell added at the end is seen where no earlier one of its place is listed. -/
theorem cellValues_append {t : List PowerCell} {c : PowerCell} (h : t.any (fun d => d.point = c.point ∧ d.slot = c.slot) = false)
    (x : OutPoint) (m : Slot) : cellValues (t ++ [c]) x m = if x = c.point ∧ m = c.slot then c.vals else cellValues t x m := by
  induction t with
  | nil => simp [cellValues_cons, eq_comm]
  | cons d t ih =>
    rw [List.any_cons, Bool.or_eq_false_iff, decide_eq_false_iff_not] at h
    rw [List.cons_append, cellValues_cons, cellValues_cons, ih h.2]
    by_cases hd : d.point = x ∧ d.slot = m
    · obtain ⟨rfl, rfl⟩ := hd
      simp [h.1]
    · simp [hd]

/-- The listed cell of a place with a new value (R124). -/
def takeInto (o : OutPoint) (n : Slot) (v : Int) (c : PowerCell) : PowerCell :=
  if c.point = o ∧ c.slot = n then { c with vals := pushValue c.vals v } else c

theorem takeInto_at {o : OutPoint} {n : Slot} {c : PowerCell} (h : c.point = o ∧ c.slot = n) (v : Int) :
    takeInto o n v c = { c with vals := pushValue c.vals v } := if_pos h

theorem takeInto_other {o : OutPoint} {n : Slot} {c : PowerCell} (h : ¬ (c.point = o ∧ c.slot = n)) (v : Int) : takeInto o n v c = c := if_neg h

theorem cellValues_takeInto_at {t : List PowerCell} {o : OutPoint} {n : Slot} (h : t.any (fun c => c.point = o ∧ c.slot = n) = true) (v : Int) :
    cellValues (t.map (takeInto o n v)) o n = pushValue (cellValues t o n) v := by
  induction t with
  | nil => cases h
  | cons c t ih =>
    rw [List.map_cons, cellValues_cons, cellValues_cons]
    by_cases hc : c.point = o ∧ c.slot = n
    · simp [takeInto_at hc, hc]
    · rw [takeInto_other hc, if_neg hc, if_neg hc]
      exact ih (by simpa [hc] using h)

theorem cellValues_takeInto_other {x o : OutPoint} {m n : Slot} (h : ¬ (x = o ∧ m = n)) (v : Int) (t : List PowerCell) :
    cellValues (t.map (takeInto o n v)) x m = cellValues t x m := by
  induction t with
  | nil => rfl
  | cons c t ih =>
    rw [List.map_cons, cellValues_cons, cellValues_cons, ih]
    by_cases hc : c.point = o ∧ c.slot = n
    · have hx : ¬ (c.point = x ∧ c.slot = m) := fun hx => h ⟨hx.1.symm.trans hc.1, hx.2.symm.trans hc.2⟩
      rw [takeInto_at hc, if_neg hx, if_neg hx]
    · rw [takeInto_other hc]

/-- A value taken is behind those of its own cell, listed before or not, and no other cell shows it (R124). -/
theorem cellValues_takeValue (t : List PowerCell) (o x : OutPoint) (n m : Slot) (v : Int) :
    cellValues (takeValue o n v t) x m = if x = o ∧ m = n then pushValue (cellValues t o n) v else cellValues t x m := by
  cases hl : t.any (fun c => c.point = o ∧ c.slot = n) with
  | true =>
    rw [takeValue, if_pos hl]
    split
    · next h =>
      obtain ⟨rfl, rfl⟩ := h
      exact cellValues_takeInto_at hl v
    · next h => exact cellValues_takeInto_other h v t
  | false =>
    rw [takeValue, if_neg (Bool.eq_false_iff.mp hl), cellValues_append hl, cellValues_unlisted hl]
    rfl

/-- The cells that a range cleared leaves in the Power Table (R125). -/
def outOfRange (o : OutPoint) (a k : Nat) (c : PowerCell) : Bool :=
  !(c.point = o && decide (a ≤ c.slot.val) && decide (c.slot.val < a + k))

theorem clearCells_power (o : OutPoint) (a k : Nat) (s : State) : (clearCells o a k s).power = s.power.filter (outOfRange o a k) := rfl

theorem outOfRange_iff (o : OutPoint) (a k : Nat) (c : PowerCell) :
    outOfRange o a k c = true ↔ ¬ (c.point = o ∧ a ≤ c.slot.val ∧ c.slot.val < a + k) := by
  rw [outOfRange, Bool.not_eq_true', ← Bool.not_eq_true]
  simp only [Bool.and_eq_true, decide_eq_true_iff, and_assoc]

/-- A range cleared takes the values of its own cells and of no other (R125). -/
theorem cellValues_outOfRange (o x : OutPoint) (a k : Nat) (n : Slot) (t : List PowerCell) : cellValues (t.filter (outOfRange o a k)) x n =
    if x = o ∧ a ≤ n.val ∧ n.val < a + k then [] else cellValues t x n := by
  induction t with
  | nil => exact (ite_self _).symm
  | cons c t ih =>
    by_cases hr : c.point = o ∧ a ≤ c.slot.val ∧ c.slot.val < a + k
    · rw [List.filter_cons_of_neg fun h => (outOfRange_iff ..).mp h hr, ih, cellValues_cons]
      by_cases hc : c.point = x ∧ c.slot = n
      · obtain ⟨rfl, rfl⟩ := hc
        rw [if_pos hr, if_pos hr]
      · rw [if_neg hc]
    · rw [List.filter_cons_of_pos ((outOfRange_iff ..).mpr hr), cellValues_cons, cellValues_cons, ih]
      by_cases hc : c.point = x ∧ c.slot = n
      · obtain ⟨rfl, rfl⟩ := hc
        rw [if_neg hr, if_neg hr]
      · rw [if_neg hc, if_neg hc]

end Sys2Proof.Machine

section
open Sys2Proof Sys2Proof.Machine

/-- Settles O35: the rounding of the quotient, and what each change of the Power Table shows at a cell. -/
theorem powerAverageRoundsTowardZero : Obligations.PowerAverageRoundsTowardZero := by
  refine ⟨rfl, fun v l => ⟨_, averageOf_cons v l, tdiv_towardZero _ ?_⟩, fun l v h => pushValue_eq h v, fun s o n => rfl, cellValues_takeValue,
    fun s o x a k n => ⟨rfl, by rw [clearCells_power, cellValues_outOfRange]⟩⟩
  exact Int.natCast_pos.mpr (List.length_pos_of_ne_nil (List.cons_ne_nil v l))

end

/-! ### The Monitor Port at reset (R127) -/

namespace Sys2Proof.Machine

theorem assertReset_monitor (cut : Nat) (s : State) : (assertReset cut s).start.inReset = true ∧ (assertReset cut s).mon.txLeft = 0 := ⟨rfl, rfl⟩

/-- When reset has ended, the Monitor Port holds the values of R127 and no cell of the Power Table a value. -/
theorem afterReset_monitor (mem : Memory) (strap : BitVec 2) (los : PerDegree Bool) (pfw : Bool) (pending : List Instr) :
    (afterReset mem strap los pfw pending).mon = Monitor.reset ∧ (afterReset mem strap los pfw pending).power = [] := ⟨rfl, rfl⟩

/-- The end of a reset leaves the part as it is right after reset (R178). -/
theorem exec_resetEnd_inReset {s : State} (h : s.start.inReset = true) (k : BitVec 2) :
    exec (.resetEnd k) s = .next (afterReset s.mem k (losPins s) s.start.pfw.pin s.pending) := congrArg Host.Outcome.next (if_pos h)

end Sys2Proof.Machine

section
open Sys2Proof Sys2Proof.Machine

/-- Settles O24: the link's rows do nothing in reset, and both ways out of it give the values right after reset. -/
theorem monitorPortAfterReset : Obligations.MonitorPortAfterReset := by
  refine ⟨fun cut s => ⟨_, rfl, assertReset_monitor cut s⟩, fun s f h => ⟨event_inReset h _, event_inReset h _⟩, fun t ht => ?_⟩
  obtain ⟨hmon, hpower⟩ : t.mon = Monitor.reset ∧ t.power = [] := by
    rcases ht with rfl | ⟨k, s, h, ht⟩
    · exact afterReset_monitor ..
    · rw [exec_resetEnd_inReset h] at ht
      cases ht
      exact afterReset_monitor ..
  rw [hmon, hpower]
  exact ⟨rfl, rfl, rfl, rfl, rfl, rfl, rfl, rfl, rfl, fun o n => by rw [powerAverage, hpower]; rfl⟩

end

/-! ### DATA replies (R130, R131, R138) -/

namespace Sys2Proof.Machine

/-- A module's readback as it stands in the Start-up Controller, before it is asked whether adoption begins (R138). -/
def readbackNoted (o : OutPoint) (b : Readback) (s : State) : State :=
  { s with start := { s.start with readback := s.start.readback.set o b } }

/-- Adoption begins when, in the readback, no module's is unread any more: after the sixth (R131, R138). -/
theorem takeReadback_eq (o : OutPoint) (b : Readback) (s : State) :
    takeReadback o b s = if s.start.stage = .readback ∧ ∀ p ∈ OutPoint.all, (readbackNoted o b s).start.readback.get p ≠ .unread then
      startAdoption (readbackNoted o b s) else readbackNoted o b s := by
  refine if_congr ?_ rfl rfl
  simp only [Bool.and_eq_true, decide_eq_true_iff, List.all_eq_true, readbackNoted]

theorem setModule_start (o : OutPoint) (m : ModState) (s : State) : (setModule o m s).start = s.start := by
  simp only [setModule_leaves]

section
variable {s : State} {x : Txn} {h : ReplyHead} {l : List SlotSetting}

/-- A DATA whose settings can stand, one for each slot of its READ, ends the transaction: its module is ONLINE, its readback taken (R130, R138). -/
theorem dataArrives_stands (hx : s.act.txn = some x) (hj : Judged x h) (hk : x.cmd.kind = .read) (hl : l.length = x.cmd.count)
    (hok : l.all (settingOk x.cmd.module) = true) :
    dataArrives h l s =
      takeReadback x.cmd.module (.given l) (setModule x.cmd.module .online { s with act := { s.act with txn := none } }) := by
  simp only [dataArrives, replyTxn_judged hx hj]
  exact if_pos (by simp only [hk, hl, hok, decide_true, Bool.and_self])

/-- An accepted DATA leaves the readback noted, and adoption begun if it was the last that the rebuild waited for (R131, R138). -/
theorem exec_data_stands (ha : Awake s) (hx : s.act.txn = some x) (hj : Judged x h) (hk : x.cmd.kind = .read) (hl : l.length = x.cmd.count)
    (hok : l.all (settingOk x.cmd.module) = true) :
    let t := readbackNoted x.cmd.module (.given l) (setModule x.cmd.module .online { fresh s with act := { s.act with txn := none } })
    exec (.data h l) s = settled
      (if s.start.stage = .readback ∧ ∀ p ∈ OutPoint.all, t.start.readback.get p ≠ .unread then startAdoption t else t) := by
  intro t
  have harrives := dataArrives_stands (s := fresh s) hx hj hk hl hok
  rw [takeReadback_eq, setModule_start] at harrives
  exact (event_awake ha _).trans (congrArg settled harrives)

end

end Sys2Proof.Machine

section
open Sys2Proof Sys2Proof.Machine

/-- Settles O39: a DATA that stands notes its module's readback, which the module's state does not touch; any other is a missed attempt,
followed by its retry. -/
theorem dataHandsTheReadbackOver : Obligations.DataHandsTheReadbackOver := by
  intro s x h l ha hx hsum hmod hsent
  have hj : Judged x h := ⟨hsum, hmod, hsent⟩
  refine ⟨fun hk hl hok => ?_, fun hbad h1 => ?_⟩
  · have hstands := exec_data_stands ha hx hj hk hl hok
    rw [readbackNoted, setModule_start] at hstands
    exact hstands
  · have hretry := attemptMissed_retries (s := fresh s) hx h1
    exact (exec_refused ha hx hj (.inr (.inr ⟨l, rfl, hbad⟩))).trans (congrArg settled hretry)

end

/-! ### The first qualification of a degree (R141, R154) -/

namespace Sys2Proof.Machine

section
variable {s : State} {d : Degree}

/-- A degree that has its level takes none (log 7). -/
theorem exec_firstQualification_again (ha : Awake s) (h : (s.light.qual.get d).level ≠ none) (loss : Bool) :
    exec (.firstQualification d loss) s = settled (fresh s) := by
  rw [exec, execFirstQualification, event_awake ha]
  exact congrArg settled (if_pos (Option.isSome_iff_ne_none.mpr h))

/-- During rebuild the level sets the light state, and the light word is written where that shows a change (R141, R145). -/
theorem exec_firstQualification_rebuilding (ha : Awake s) (h : (s.light.qual.get d).level = none) (hs : s.seqr.st = .rebuilding) (loss : Bool) :
    let t := setLevel d loss (fresh s)
    let u := { t with light := { t.light with state := t.light.state.set d (if loss then .dark else .lit) } }
    exec (.firstQualification d loss) s = settled (if loss then u else requestStatus .light u) := by
  intro t u
  have hnone : ¬ ((fresh s).light.qual.get d).level.isSome = true := by simp [h]
  rw [exec, execFirstQualification, event_awake ha]
  exact congrArg settled ((if_neg hnone).trans (if_pos hs))

/-- After rebuild a clear is a qualified clear, a loss and a clear under the POWERDOWN flag set the level alone (R141; log 24). -/
theorem exec_firstQualification_later (ha : Awake s) (h : (s.light.qual.get d).level = none) (hs : s.seqr.st ≠ .rebuilding) (loss : Bool) :
    let t := setLevel d loss (fresh s)
    exec (.firstQualification d loss) s = settled (if loss || s.start.powerdown then t else clearEvent d t) := by
  intro t
  have hnone : ¬ ((fresh s).light.qual.get d).level.isSome = true := by simp [h]
  rw [exec, execFirstQualification, event_awake ha]
  exact congrArg settled ((if_neg hnone).trans (if_neg hs))

end

end Sys2Proof.Machine

section
open Sys2Proof Sys2Proof.Machine

/-- Settles O25: a first qualification goes by whether rebuild runs, and then by the level and the POWERDOWN flag. -/
theorem firstQualificationSetsTheLightState : Obligations.FirstQualificationSetsTheLightState := by
  intro s d loss ha q
  refine ⟨fun h => exec_firstQualification_again ha h loss, fun h hs hl => ?_, fun h hs hl => ?_, fun h hs hl => ?_, fun h hs hl hp => ?_⟩
  · subst hl
    exact exec_firstQualification_rebuilding ha h hs true
  · subst hl
    exact exec_firstQualification_rebuilding ha h hs false
  · exact (exec_firstQualification_later ha h hs loss).trans (congrArg settled (if_pos (by simpa using hl)))
  · exact (exec_firstQualification_later ha h hs loss).trans (congrArg settled (if_neg (by simp [hl, hp])))

end

/-! ### The pop that ends a suspension (R152, R161, R162, R183) -/

namespace Sys2Proof.Machine

section
variable {s : State} {w : List Word} {a : ResumeAction} {h : Bool}

/-- A rebuilt record of no batch leaves the part in IDLE with NONE shown (R183). -/
theorem leaveSuspension_rebuiltNone (hr : field (w.headD 0) 9 1 = 1) (hq : BitVec.ofNat 16 (field (w.getD 1 0) 16 16) = 0) :
    leaveSuspension w a h s = writeBatchState { st := .none, seq := s.seqr.shown.seq }
      { s with seqr := { s.seqr with st := .idle, kept := none } } :=
  (if_pos hr).trans (if_pos hq)

/-- A rebuilt record of a batch begins its recovery (R183). -/
theorem leaveSuspension_rebuiltBatch (hr : field (w.headD 0) 9 1 = 1) (hq : BitVec.ofNat 16 (field (w.getD 1 0) 16 16) ≠ 0) :
    leaveSuspension w a h s = beginBatch (BitVec.ofNat 16 (field (w.getD 1 0) 16 16))
      (some { abandon := a = .abandon, toHeld := h && a ≠ .abandon }) { s with seqr := { s.seqr with kept := none } } :=
  (if_pos hr).trans (if_neg hq)

/-- With no batch the kept batch state word is written back in IDLE (R162). -/
theorem leaveSuspension_noBatch {m : WindowMap} {b : BatchWord} (hm : s.win.map = some m) (hr : field (w.headD 0) 9 1 ≠ 1)
    (hp : s.batch.present = false) (hk : s.seqr.kept = some b) :
    leaveSuspension w a h s = { s with
      seqr := { s.seqr with st := .idle, kept := none, shown := b }, port := s.port ++ [.batchState b] } := by
  rw [leaveSuspension, if_neg hr, if_pos (by simp [hp])]
  simp [returnIdle, hk, writeBatchState, requestStatus, request, hm]

/-- A batch whose fetch ran on goes on in FETCHING, one whose check did in CHECKING, and one that has run takes the record's action (R162). -/
theorem leaveSuspension_batch (hr : field (w.headD 0) 9 1 ≠ 1) (hp : s.batch.present = true) (he : s.batch.ending = false) :
    (s.batch.work = .fetch → s.seqr.st = .suspended → leaveSuspension w a h s = enterState .fetching .fetching s) ∧
    (s.batch.work = .check → s.seqr.st = .suspended → leaveSuspension w a h s = enterState .checking .checking s) ∧
    (s.batch.work = .run → leaveSuspension w a h s = applyAction w a h s) := by
  refine ⟨fun hw hs => ?_, fun hw hs => ?_, fun hw => ?_⟩ <;>
    rw [leaveSuspension, if_neg hr, if_neg (by simp [hp]), if_neg (by simp [he])]
  · simp only [hw, hs, if_true]
  · simp only [hw, hs, if_true]
  · simp only [hw]

/-- CONTINUE issues the step under each cursor again (R162, R163). -/
theorem applyAction_cont (hb : s.batch.abandon = false) :
    applyAction w .cont h s = eachInProgress (fun e s => issueStep e.no false s) (returnState w h s) := if_neg (by simp [hb])

/-- RETRY restarts the half of each entry in progress (R162, R164). -/
theorem applyAction_retry (hb : s.batch.abandon = false) :
    applyAction w .retry h s = eachInProgress retryEntry (returnState w h s) := if_neg (by simp [hb])

/-- ABANDON ends the waiting entries and reverses those in progress (R165). -/
theorem applyAction_abandon (hb : s.batch.abandon = false) : applyAction w .abandon h s = eachInProgress abandonEntry
    (endAllWaiting .abandoned (enterState .cancelling .cancelling { s with batch := { s.batch with abandon := true } })) := if_neg (by simp [hb])

/-- A batch cancelled, or with a stop waiting, returns to CANCELLING (R162). -/
theorem returnState_cancelling (hc : field (w.getD 2 0) 0 4 = 8 ∨ s.batch.stopPending = true) : returnState w h s = enterCancelling s :=
  if_pos (by simpa using hc)

/-- Otherwise a batch returns to HOLDING where it was held, else to RUNNING (R162). -/
theorem returnState_going (hc : field (w.getD 2 0) 0 4 ≠ 8) (hs : s.batch.stopPending = false) :
    returnState w h s = if h then enterState .holding .holding s else enterRunning s :=
  if_neg (by simpa [hs] using hc)

/-- The header of a pop is written: the level is freed, and at depth 0 the suspension is left with the Restore List freed (R152, R161). -/
theorem popped_popping {d : Nat} (hi : s.intr.item = some (.resume .popping a h)) :
    let t := { s with intr := { s.intr with depth := d, header := d, images := s.intr.images.take d, item := none } }
    popped d s =
      if d = 0 then leaveSuspension (s.intr.images.getD 0 []) a h { t with light := { s.light with restoresHeld := false } } else t := by
  simp only [popped, hi]

/-- A pop's row is its header write, and what follows from it (R161). -/
theorem exec_pop {m : WindowMap} {d : Nat} (ha : Awake s) (hm : s.win.map = some m) (hn : NextIs s (.popHeader d)) :
    exec .pop s = settled (popped d (written s (.popHeader d) (pageAddr m.save offHeader) [BitVec.ofNat 32 d])) := by
  have hw : writeOf s (.popHeader d) = some (pageAddr m.save offHeader, [BitVec.ofNat 32 d]) := by simp [writeOf, hm]
  exact (rowEvent_nextIs ha hn rfl rfl _).trans (congrArg (fun t => settled (popped d t)) (carryOut_granted hw))

end

end Sys2Proof.Machine

/-! ### RETRY and ABANDON of an entry in progress (R164, R165) -/

namespace Sys2Proof.Machine

/-- What goes by a path's route, said of each of the two routes. -/
theorem route_cases {α : Type} {r : PathRoute} {x y z : α} (h : z = if r = .source then x else y) :
    (r = .source → z = x) ∧ (r = .fill → z = y) :=
  ⟨fun hr => h.trans (if_pos hr), fun hr => h.trans (if_neg (by simp [hr]))⟩

section
variable {s : State} {e : Entry} {p : Path}

/-- RETRY lets a rollback go on (R164). -/
theorem retryEntry_rollingBack (he : e.st = .rollingBack) : retryEntry e s = issueStep e.no false s := if_pos he

/-- ABANDON lets a rollback run on (R165). -/
theorem abandonEntry_rollingBack (he : e.st = .rollingBack) : abandonEntry e s = issueStep e.no false s := if_pos he

/-- A BEGUN entry restarts its half by its path's route (R164). -/
theorem retryEntry_begun (he : e.st = .begun) (hp : e.path.bind s.path? = some p) :
    retryEntry e s = issueStep e.no true (updateEntry e.no (fun e => { e with chain := chainFor e p.route }) s) := by
  rw [retryEntry, if_neg (by simp [he]), hp]
  rfl

/-- A release loses its leaving mark and the pledges on its path, which is ramped to its target again or fixed SQUELCHED (R165). -/
theorem abandonEntry_release (he : e.st = .begun) (hp : e.path.bind s.path? = some p) (hr : e.isRelease = true) :
    let t := { s with table := (s.table.voidOn p.pid).update p.pid (fun q => { q with leaving := false }) }
    abandonEntry e s = if p.route = .source then reverse e.no [.rampRetune, .verify] t
      else abandonAtOnce e.no (updatePath p.pid squelchedAsIs t) := by
  simp only [abandonEntry, he, hp, hr, reduceCtorEq, if_false, if_true]

/-- A RETUNE or COMPLETE loses its pending fields, and its path is ramped to its target again or fixed SQUELCHED (R165). -/
theorem abandonEntry_retune (he : e.st = .begun) (hp : e.path.bind s.path? = some p) (hr : e.isRelease = false) (ht : e.isRetune = true) :
    let t := updatePath p.pid (fun q => { q with pend := none }) s
    abandonEntry e s = if p.route = .source then reverse e.no [.rampRetune, .verify] t
      else abandonAtOnce e.no (updatePath p.pid squelchedAsIs t) := by
  simp only [abandonEntry, he, hp, hr, ht, reduceCtorEq, Bool.false_eq_true, if_false, if_true]

/-- A path that an entry puts on its source is taken off it again; at the fill a new one is removed and a RESTORE's is SQUELCHED (R165; log 98). -/
theorem abandonEntry_connect (he : e.st = .begun) (hp : e.path.bind s.path? = some p) (hr : e.isRelease = false) (ht : e.isRetune = false) :
    abandonEntry e s = if p.route = .source then
        reverse e.no [.returning, .disconnect] (updatePath p.pid (fun q => { q with st := .releasing }) s)
      else abandonAtOnce e.no (if e.kind = .restore then updatePath p.pid squelchedAsIs s else { s with table := s.table.remove p.pid }) := by
  simp only [abandonEntry, he, hp, hr, ht, reduceCtorEq, Bool.false_eq_true, if_false, dropUnrouted, decide_eq_true_eq]
  rfl

/-- An entry that ABANDON does not reverse yet stands on a release with its old half, as a REMOVE or a MOVE (R79). -/
theorem isRelease_iff (h : e.reversing = false) : e.isRelease = true ↔ e.half = .old ∧ (e.kind = .remove ∨ e.kind = .move) := by
  simp [Entry.isRelease, h]

/-- An entry that ABANDON does not reverse yet stands on a retune's chain as a RETUNE or COMPLETE (R87). -/
theorem isRetune_iff (h : e.reversing = false) : e.isRetune = true ↔ e.kind = .retune ∨ e.kind = .complete := by
  simp [Entry.isRetune, h]

end

end Sys2Proof.Machine

section
open Sys2Proof Sys2Proof.Machine

/-- Settles O48: by what the pop finds at depth 0, and the actions entry by entry, by the kind of the half and the route of its path. -/
theorem popFreesItsLevel : Obligations.PopFreesItsLevel := by
  refine ⟨fun s w a h => ⟨fun hr => ⟨leaveSuspension_rebuiltNone hr, leaveSuspension_rebuiltBatch hr⟩, fun hr hp he => ?_, returnState_cancelling,
    fun hc hs => ?_⟩, fun s e p => ?_, ?_, ?_⟩
  · obtain ⟨hfetch, hcheck, hrun⟩ := leaveSuspension_batch (a := a) (h := h) hr hp he
    refine ⟨hfetch, hcheck, fun hw hb => ?_⟩
    rw [hrun hw]
    refine ⟨?_, ?_, ?_⟩ <;> rintro rfl
    · exact applyAction_cont hb
    · exact applyAction_retry hb
    · exact applyAction_abandon hb
  · rw [returnState_going hc hs]
    exact ⟨fun hh => if_pos hh, fun hh => if_neg (by simp [hh])⟩
  · refine ⟨fun he => ⟨retryEntry_rollingBack he, abandonEntry_rollingBack he⟩, fun he hp => ⟨retryEntry_begun he hp, fun hk hv => ?_⟩⟩
    have hconnect := abandonEntry_connect he hp (by simp [Entry.isRelease, hk]) (by simp [Entry.isRetune, hk, hv])
    rw [if_neg (show e.kind ≠ .restore by simp [hk])] at hconnect
    exact route_cases hconnect
  · intro s e p he hv hp turn ended dark
    refine ⟨fun hk => route_cases (abandonEntry_connect he hp ?_ ?_), fun hk => route_cases (abandonEntry_retune he hp ?_ ((isRetune_iff hv).mpr hk)),
      fun hk hh => route_cases (abandonEntry_release he hp ((isRelease_iff hv).mpr ⟨hh, hk⟩))⟩
    · rcases hk with ⟨hk, hh⟩ | hk <;> simp [Entry.isRelease, *]
    · rcases hk with ⟨hk, hh⟩ | hk <;> simp [Entry.isRetune, *]
    · rcases hk with hk | hk <;> simp [Entry.isRelease, hk]
  · intro s m d a h ha hm hn hi t
    have hpop := (exec_pop ha hm hn).trans (congrArg settled (popped_popping (s := written s (.popHeader d) _ _) hi))
    refine ⟨fun hd => hpop.trans (congrArg settled (if_neg (Nat.ne_of_gt hd))), fun hd => hpop.trans (congrArg settled (if_pos hd)),
      fun b hd hr hp hk => hpop.trans (congrArg settled ((if_pos hd).trans ?_))⟩
    exact leaveSuspension_noBatch hm hr hp hk

end

/-! ### A capture's last write (R156, R160, R185) -/

namespace Sys2Proof.Machine

/-- What a write of the part leaves alone of all that the end of a capture goes by (R17). -/
theorem written_leaves (s : State) (r : PortReq) (a : Nat) (ws : List Word) :
    (written s r a ws).intr = s.intr ∧ (written s r a ws).seqr = s.seqr ∧ (written s r a ws).start = s.start ∧
      (written s r a ws).light = s.light := by
  simp [written, granted, fresh]

/-- The state in which a last write has been carried out, with the Interruption Unit as given. -/
def lastWritten (s : State) (r : PortReq) (a : Nat) (ws : List Word) (u : Interruption) : State := { written s r a ws with intr := u }

/-- A capture over: its item ended and SUSPEND raised (R156). -/
def captureEnded (s : State) : State := raiseCause .suspend { s with intr := { s.intr with item := none } }

section
variable {s : State} {c : CaptureSource} {noted : SeqState} {g : List (RecNo × EngineNo)} {x : Bool}

/-- The end of a capture goes by its source and by PFW_N as it stands then (R185; log 85). -/
theorem captureWritten_eq (hi : s.intr.item = some (.capture c noted g x)) :
    captureWritten s = if c = .powerFail ∧ s.start.pfw.level = some true then
        setPowerdown { captureEnded s with seqr := { s.seqr with st := .powerdown } }
      else captureEnded s := by
  simp [captureWritten, hi, captureEnded]

/-- A capture other than one of POWER_FAIL with PFW_N asserted ends with SUSPEND alone; that one begins POWERDOWN, with the hold set and the
loss-seen flags cleared (R15, R153, R156, R185). -/
theorem captureWritten_lastWritten {r : PortReq} {a : Nat} {ws : List Word} {u : Interruption} (hi : u.item = some (.capture c noted g x)) :
    let t := lastWritten s r a ws u
    (c ≠ .powerFail ∨ s.start.pfw.level ≠ some true → captureWritten t = captureEnded t) ∧
    (c = .powerFail → s.start.pfw.level = some true → captureWritten t = { captureEnded t with
      seqr := { s.seqr with st := .powerdown }
      start := { s.start with powerdown := true }
      holds := { fetch := none, wb := [] }
      light := { s.light with lossSeen := .const false } }) := by
  intro t
  obtain ⟨hseqr, hstart, hlight⟩ : t.seqr = s.seqr ∧ t.start = s.start ∧ t.light = s.light := (written_leaves s r a ws).2
  rw [captureWritten_eq (s := t) hi, hstart]
  refine ⟨fun h => if_neg fun ⟨hc, hl⟩ => h.elim (· hc) (· hl), fun hc hl => ?_⟩
  rw [if_pos ⟨hc, hl⟩]
  simp [setPowerdown, captureEnded, hseqr, hstart, hlight]

/-- The last burst of a merge is a row of CAPTURE_WRITE_COMPLETE (R160). -/
theorem exec_captureWriteComplete_merge {m : WindowMap} {ws : List Word} (ha : Awake s) (hm : s.win.map = some m) (hn : NextIs s (.mergeEnd ws)) :
    exec .captureWriteComplete s =
      settled (captureWritten (lastWritten s (.mergeEnd ws) (pageAddr m.save (offSlot 4 + 48)) ws s.intr)) := by
  have hw : writeOf s (.mergeEnd ws) = some (pageAddr m.save (offSlot 4 + 48), ws) := by simp [writeOf, hm]
  obtain ⟨hintr, -⟩ := written_leaves s (.mergeEnd ws) (pageAddr m.save (offSlot 4 + 48)) ws
  rw [← hintr]
  exact (rowEvent_nextIs ha hn rfl rfl _).trans (congrArg (fun t => settled (captureWritten t)) (carryOut_granted hw))

/-- The header's write is one too, and the part then holds the depth that it wrote (R156). -/
theorem exec_captureWriteComplete_header {m : WindowMap} {d : Nat} (ha : Awake s) (hm : s.win.map = some m) (hn : NextIs s (.captureHeader d)) :
    exec .captureWriteComplete s = settled (captureWritten
      (lastWritten s (.captureHeader d) (pageAddr m.save offHeader) [BitVec.ofNat 32 d] { s.intr with header := d })) := by
  have hw : writeOf s (.captureHeader d) = some (pageAddr m.save offHeader, [BitVec.ofNat 32 d]) := by simp [writeOf, hm]
  obtain ⟨hintr, -⟩ := written_leaves s (.captureHeader d) (pageAddr m.save offHeader) [BitVec.ofNat 32 d]
  rw [← hintr]
  exact (rowEvent_nextIs ha hn rfl rfl _).trans
    (congrArg (fun t : State => settled (captureWritten { t with intr := { t.intr with header := d } })) (carryOut_granted hw))

end

end Sys2Proof.Machine

section
open Sys2Proof Sys2Proof.Machine

/-- Settles O46: by which of the two writes is the last, and then by whether POWERDOWN follows. -/
theorem captureEndsAtItsLastWrite : Obligations.CaptureEndsAtItsLastWrite := by
  intro s m d c noted g x ha hm hi
  have hmerge (ws : List Word) := captureWritten_lastWritten (s := s) (r := .mergeEnd ws) (a := pageAddr m.save (offSlot 4 + 48)) (ws := ws) hi
  refine ⟨fun ws hn h => ?_, fun ws hn hc hl => ?_, fun hn => ?_⟩
  · obtain ⟨hends, -⟩ := hmerge ws
    exact (exec_captureWriteComplete_merge ha hm hn).trans (congrArg settled (hends h))
  · obtain ⟨-, hpowerdown⟩ := hmerge ws
    exact (exec_captureWriteComplete_merge ha hm hn).trans (congrArg settled (hpowerdown hc hl))
  · have hlast := exec_captureWriteComplete_header ha hm hn
    obtain ⟨hends, hpowerdown⟩ := captureWritten_lastWritten (s := s) (r := .captureHeader d) (a := pageAddr m.save offHeader)
      (ws := [BitVec.ofNat 32 d]) (u := { s.intr with header := d }) hi
    exact ⟨fun h => hlast.trans (congrArg settled (hends h)), fun hc hl => hlast.trans (congrArg settled (hpowerdown hc hl))⟩

end

/-! ### The attention causes and their ranks (R175, R177) -/

namespace Sys2Proof.Machine

/-- The cause that has a given bit of the pending and enable sets (Table 2-6). -/
def Cause.ofBit (i : Fin 8) : Cause :=
  #v[.suspend, .batchEnd, .memoryFault, .discrepancy, .protection, .restore, .lightChange, .monitorLink][i]

theorem Cause.bit_ofBit (i : Fin 8) : (Cause.ofBit i).bit = i := by
  revert i; decide

theorem Cause.bit_lt (c : Cause) : c.bit < 8 := by cases c <;> decide

theorem Cause.ofBit_bit (c : Cause) : Cause.ofBit ⟨c.bit, c.bit_lt⟩ = c := by cases c <;> rfl

theorem Cause.bit_injective : Function.Injective Cause.bit := fun c d h => by
  rw [← c.ofBit_bit, ← d.ofBit_bit]; simp only [h]

theorem hasCause_and (x y : BitVec 8) (c : Cause) : hasCause (x &&& y) c = true ↔ hasCause x c = true ∧ hasCause y c = true := by
  simp [hasCause]

theorem hasCause_ofBit (x : BitVec 8) (i : Fin 8) : hasCause x (Cause.ofBit i) = x.getLsbD i := by
  rw [hasCause, Cause.bit_ofBit]

/-- A set of causes is empty where it has none of the eight. -/
theorem eq_zero_iff_no_cause (x : BitVec 8) : x = 0 ↔ ∀ c, hasCause x c = false := by
  refine ⟨fun h c => by simp [h, hasCause], fun h => BitVec.eq_of_getLsbD_eq fun i hi => ?_⟩
  simpa [hasCause_ofBit] using h (Cause.ofBit ⟨i, hi⟩)

/-- A cause joined leaves every other cause as it was (R175). -/
theorem hasCause_joinCause_other {c d : Cause} (h : d ≠ c) (set : BitVec 8) : hasCause (joinCause set c) d = hasCause set d := by
  have hb : c.bit ≠ d.bit := fun e => h (Cause.bit_injective e.symm)
  have hbit : (BitVec.twoPow 8 c.bit).getLsbD d.bit = false := by simp [BitVec.getLsbD_twoPow, hb]
  exact (BitVec.getLsbD_or ..).trans ((congrArg _ hbit).trans (Bool.or_false _))

/-- The top cause of a set without causes is 0 (R175). -/
theorem topRank_none {x : BitVec 8} (h : ∀ c, hasCause x c = false) : topRank x = 0 := by
  rw [(eq_zero_iff_no_cause x).mpr h]; rfl

/-- The top cause is the set's cause of the lowest bit, shown by its rank (R175). -/
theorem topRank_lowest {x : BitVec 8} {c : Cause} (hc : hasCause x c = true) (h : ∀ d : Cause, d.bit < c.bit → hasCause x d = false) :
    topRank x = c.bit + 1 := by
  have hfind : (List.range 8).find? x.getLsbD = some c.bit := by
    refine List.find?_range_eq_some.mpr ⟨hc, List.mem_range.mpr c.bit_lt, fun j hj => ?_⟩
    have hbit := Cause.bit_ofBit ⟨j, hj.trans c.bit_lt⟩
    simpa [hasCause_ofBit] using h (Cause.ofBit ⟨j, hj.trans c.bit_lt⟩) (hbit.symm ▸ hj)
  rw [topRank, hfind]

/-- The ranks of R175's list are the bits' numbers and one. -/
theorem rank_of_listed {c : Cause} {n : Nat} (h : (c, n) ∈ [(Cause.suspend, 1), (.batchEnd, 2), (.memoryFault, 3), (.discrepancy, 4),
    (.protection, 5), (.restore, 6), (.lightChange, 7), (.monitorLink, 8)]) : c.bit + 1 = n := by
  revert h; cases c <;> simp +contextual [Cause.bit]

/-- ATTN_N is asserted where a cause is both pending and enabled (R175). -/
theorem attnAsserted_iff (s : State) :
    s.attnAsserted = true ↔ ∃ c, hasCause s.attn.pending c = true ∧ hasCause s.attn.enable c = true := by
  simp only [State.attnAsserted, bne_iff_ne, ne_eq, eq_zero_iff_no_cause, not_forall, Bool.not_eq_false, hasCause_and]

theorem raiseCause_of_pending {c : Cause} {s : State} (h : hasCause s.attn.pending c = true) : raiseCause c s = s := if_pos h

/-- A cause that was not pending is joined, and the attention word's one waiting write stands at the tail (R171, R175, R177; log 45). -/
theorem raiseCause_of_not_pending {c : Cause} {s : State} (h : hasCause s.attn.pending c = false) : raiseCause c s =
    { s with
      attn := { s.attn with pending := joinCause s.attn.pending c }
      port := if s.win.map.isSome then s.port.erase .attention ++ [.attention] else s.port } := by
  rw [raiseCause, if_neg (by simp [h]), requestAttention]
  cases hm : s.win.map.isSome <;> simp [request]

end Sys2Proof.Machine

section
open Sys2Proof Sys2Proof.Machine

/-- Settles O13: a set of causes by its bits for ATTN_N and the top cause, and then a cause raised by whether it was pending. -/
theorem raisedCausesArePending : Obligations.RaisedCausesArePending := by
  refine ⟨attnAsserted_iff, fun x y => ⟨fun h => ?_, fun c n hn hx hy h => ?_⟩, fun c s => ?_⟩
  · exact topRank_none fun c => by simpa [← hasCause_and] using h c
  · rw [← rank_of_listed hn]
    exact topRank_lowest ((hasCause_and x y c).mpr ⟨hx, hy⟩) fun d hd => by simpa [← hasCause_and] using h d hd
  · exact ⟨raiseCause_of_pending, raiseCause_of_not_pending, hasCause_joinCause .., fun d hd => hasCause_joinCause_other hd _⟩

end

/-! ### The Memory Fault Record, the rewrites and the scrubber (R170, R171, R173, R174) -/

namespace Sys2Proof.Machine

section
variable {s t : State}

/-- The first fault fills the record, whose write is asked for ahead of the cause (R171). -/
theorem reportFault_empty (h : s.integ.mfr.kind = .none) (k : MemFaultKind) (q : MemFaultReq) (a : Nat) (y : BitVec 7) :
    reportFault k q a y s = raiseCause .memoryFault (requestStatus .memFault
      { s with integ := { s.integ with mfr := { kind := k, req := q, addr := a, syndrome := y, further := false } } }) := by
  rw [reportFault, h]

/-- A fault that finds the record filled sets its flag, with a write and no cause, where it is not set yet (R171). -/
theorem reportFault_filled (h : s.integ.mfr.kind ≠ .none) (k : MemFaultKind) (q : MemFaultReq) (a : Nat) (y : BitVec 7) :
    reportFault k q a y s = if s.integ.mfr.further then s else
      requestStatus .memFault { s with integ := { s.integ with mfr := { s.integ.mfr with further := true } } } := by
  unfold reportFault
  cases hk : s.integ.mfr.kind
  · exact absurd hk h
  all_goals rfl

theorem reportFault_scrub (k : MemFaultKind) (q : MemFaultReq) (a : Nat) (y : BitVec 7) (s : State) :
    (reportFault k q a y s).integ.scrub = s.integ.scrub := by
  by_cases h : s.integ.mfr.kind = .none
  · simp [reportFault_empty h]
  · rw [reportFault_filled h]
    split <;> simp

/-- A correction of a word on the list, or with the list full, asks for no rewrite (R170). -/
theorem addRewrite_refused {a : Nat} (h : (∃ r ∈ s.integ.rewrites, r.addr = a) ∨ 8 ≤ s.integ.rewrites.length) (w : Word) :
    addRewrite a w s = s :=
  if_pos (by simpa using h)

/-- Any other joins the list at its tail (R170). -/
theorem addRewrite_joins {a : Nat} (h : ∀ r ∈ s.integ.rewrites, r.addr ≠ a) (hl : s.integ.rewrites.length < 8) (w : Word) :
    addRewrite a w s =
      { s with integ := { s.integ with rewrites := s.integ.rewrites ++ [{ addr := a, data := w, written := false }] } } :=
  if_neg (by simpa using ⟨h, hl⟩)

theorem addRewrite_scrub (a : Nat) (w : Word) (s : State) : (addRewrite a w s).integ.scrub = s.integ.scrub := by
  unfold addRewrite
  dsimp only
  split <;> rfl

/-- The rewrite that waits longest leaves the list, its word written back unless that was written meanwhile (R170). -/
theorem exec_correctionRewrite {r : Rewrite} {rest : List Rewrite} (ha : Awake s) (hb : portBlocked s = false)
    (hr : s.integ.rewrites = r :: rest) : exec .correctionRewrite s = settled (if r.written
      then { fresh s with integ := { s.integ with rewrites := rest } }
      else { fresh s with mem := s.mem.storeWord r.addr r.data, integ := { s.integ with rewrites := overtaken r.addr rest } }) := by
  have hbf : portBlocked (fresh s) = false := hb
  have hrf : (fresh s).integ.rewrites = r :: rest := hr
  rw [exec, execCorrectionRewrite, event_awake ha, hbf, hrf]
  rfl

/-- Whether a request is a read of the scrubber (R173). -/
def PortReq.isScrub : PortReq → Bool
  | .scrub _ => true
  | _ => false

/-- The pacing timer that has reached zero is loaded anew, and one scrub read waits (R173). -/
theorem pacingExpires_atZero {m : WindowMap} (hm : s.win.map = some m) (hr : scrubRuns s = true) (hs : s.integ.scrub.started = true)
    (ht : s.integ.scrub.timer = 0) : pacingExpires s =
      { s with
        integ := { s.integ with scrub := { s.integ.scrub with timer := 10 } }
        port := if s.port.any PortReq.isScrub then s.port else s.port ++ [.scrub (scrubAddr s m)] } := by
  rw [pacingExpires, hm]
  refine (if_pos (by simp [hr, hs, ht])).trans ?_
  change (if s.port.any PortReq.isScrub then _ else _) = _
  split <;> rfl

/-- Before its first run, or with its count above zero, it does nothing (R173; log 8). -/
theorem pacingExpires_early (h : s.integ.scrub.started = false ∨ s.integ.scrub.timer ≠ 0) : pacingExpires s = s := by
  unfold pacingExpires
  split
  · refine if_neg fun hc => ?_
    simp only [Bool.and_eq_true, decide_eq_true_eq] at hc
    obtain ⟨⟨-, hstarted⟩, htimer⟩ := hc
    rcases h with h | h
    · simp [h] at hstarted
    · exact h htimer
  · rfl

/-- Where the scrub pointer goes from a word: over the page's words, and then to the next of the five pages (R173). -/
def Scrubber.advanced (c : Scrubber) : Scrubber :=
  if c.word = 1023 then { c with word := 0, page := c.page + 1 } else { c with word := c.word + 1 }

/-- The state with the scrub pointer set. -/
def withScrub (c : Scrubber) (s : State) : State := { s with integ := { s.integ with scrub := c } }

/-- A scrub read moves the pointer on, and an uncorrectable word of the active page makes its record's write due (R173, R174; log 72). -/
theorem scrubDone_eq {a : Nat} {w : Word} {bad : Bool} (hr : readWord .scrub a s = (t, w, bad)) (hc : t.integ.scrub = s.integ.scrub)
    (hw : t.win = s.win) : scrubDone a s =
      if bad = true ∧ s.win.role (pageOf a) = .active then activeDue (recordAt (a % 4096)) (withScrub s.integ.scrub.advanced t)
      else withScrub s.integ.scrub.advanced t := by
  rw [← hc, ← hw]
  simp only [scrubDone, hr, Bool.and_eq_true, decide_eq_true_eq]
  rfl

theorem exec_scrubRead {a : Nat} (ha : Awake s) (hn : NextIs s (.scrub a)) :
    exec .scrubRead s = settled (scrubDone a (granted s (.scrub a))) :=
  rowEvent_nextIs ha hn rfl rfl _

end

end Sys2Proof.Machine

section
open Sys2Proof Sys2Proof.Machine

/-- Settles O55: the report and the rewrite asked for by what they find, the rewrite and the pacing timer as events, and the scrub read by its check. -/
theorem rewritesAndScrubReads : Obligations.RewritesAndScrubReads := by
  refine ⟨?_, ?_, ?_, ?_, ?_⟩
  · intro s k q a y put
    refine ⟨fun h => reportFault_empty h k q a y, fun h hf => ?_, fun h hf => ?_⟩
    · exact (reportFault_filled h k q a y).trans (if_neg (by simp [hf]))
    · exact (reportFault_filled h k q a y).trans (if_pos hf)
  · exact fun s a w => ⟨fun h => addRewrite_refused h w, fun h hl => addRewrite_joins h hl w⟩
  · intro s r rest ha hb hr
    have hrun := exec_correctionRewrite ha hb hr
    exact ⟨fun hw => hrun.trans (congrArg settled (if_pos hw)), fun hw => hrun.trans (congrArg settled (if_neg (by simp [hw])))⟩
  · intro s m ha hm hr
    have hrun : exec .pacingTimerExpiry s = settled (pacingExpires (fresh s)) := event_awake ha _
    exact ⟨fun hs ht => hrun.trans (congrArg settled (pacingExpires_atZero (s := fresh s) hm hr hs ht)),
      fun h => hrun.trans (congrArg settled (pacingExpires_early (s := fresh s) h))⟩
  · intro s a ha hn walk g y
    have hrun {t : State} (h : scrubDone a g = t) : exec .scrubRead s = settled t := (exec_scrubRead ha hn).trans (congrArg settled h)
    refine ⟨fun hy => hrun ?_, fun i hy hi => ?_, fun hy hi => hrun ?_⟩
    · exact scrubDone_eq (readWord_clean (s := g) .scrub hy) rfl rfl
    · intro v
      exact hrun (scrubDone_eq (readWord_corrected (s := g) .scrub hy hi) (by rw [addRewrite_scrub, reportFault_scrub]) (by simp))
    · have hdone := scrubDone_eq (readWord_uncorrectable (s := g) .scrub hy hi) (reportFault_scrub ..) (by simp)
      simp only [true_and] at hdone
      exact hdone

end

/-! ### One step, and what every command leaves of the queue (95; 01, sections 1.3 and 1.8) -/

namespace Sys2Proof.Machine

theorem step_cons {s : State} {c : Instr} {rest : List Instr} (h : s.pending = c :: rest) : step s = exec c { s with pending := rest } := by
  rw [step, h]

theorem step_nil {s : State} (h : s.pending = []) : step s = .next (idle s) := by
  rw [step, h]

theorem placedWrite_next (s : State) (a : Option Nat) (b : BeatData) : ∃ t, placedWrite s a b = .next t := by
  cases a with
  | none => exact event_next s id
  | some a => exact beatEvent_next s _

/-- No command stops: each is a beat, an event, the completion of an access, or one of the two of the reset pin (logs 7, 38, 39). -/
theorem exec_next (c : Instr) (s : State) : ∃ t, exec c s = .next t := by
  cases c with
  | reset | resetEnd => exact ⟨_, rfl⟩
  | hostReadBeat | hostWriteBeat | refusedWriteBeat | anchorWrite => exact beatEvent_next s _
  | stagingWrite | resumeWordWrite | acknowledge | commit | cancel | hold | release | resume | unknownCommand =>
    exact placedWrite_next s _ _
  | captureWriteComplete | resumeWordRead | pop | fetchRead | maskRead | profileRead | activeWriteBack | outcomeWordWrite | endStateWrite
  | scrubRead | rebuildAnchorRead | rebuildProfileRead | rebuildActiveRead | rebuildSaveRead | newHalfStagingRead | comparisonRead
  | anchorRead | anchorReReadDone => exact rowEvent_next s _ _
  | firstQualification | qualifiedLoss | qualifiedClear | captureTimeAdvance | capture | resumeTaken | correctionRewrite =>
    simp only [exec, execFirstQualification, execQualifiedLoss, execQualifiedClear, execCaptureTimeAdvance, execCapture, execResumeTaken,
      execCorrectionRewrite]
    exact event_next s _
  | _ => exact event_next s _

/-- A reset ends what waits at the bus and the port; the queue of commands is not the part's (R18). -/
theorem assertReset_queue (cut : Nat) (s : State) : (assertReset cut s).pending = s.pending :=
  (Sound.of_keeps (endBeats_keeps _ _)).pending.trans (cutBurst_sound cut (fresh s)).pending

theorem execResetEnd_queue {k : BitVec 2} {s t : State} (h : execResetEnd k s = .next t) : t.pending = s.pending := by
  cases h
  split <;> rfl

theorem exec_queue {c : Instr} {s t : State} (h : exec c s = .next t) : t.pending = s.pending := by
  cases c with
  | reset cut => cases h; exact assertReset_queue cut s
  | resetEnd k => exact execResetEnd_queue h
  | _ => exact (exec_sound (by simp) (by simp) h).pending

end Sys2Proof.Machine

section
open Sys2Proof Sys2Proof.Machine

/-- Settles O1: the two forms of the queue. -/
theorem stepTakesFrontCommand : Obligations.StepTakesFrontCommand := ⟨fun _ _ _ h => step_cons h, fun _ h => step_nil h⟩

/-- Settles O2: every command answers a next state, and whatever it answers keeps the queue. -/
theorem everyCommandCompletes : Obligations.EveryCommandCompletes := by
  intro c s
  obtain ⟨t, h⟩ := exec_next c s
  exact ⟨t, h, exec_queue h⟩

end

/-! ### The values after reset (R178) -/

namespace Sys2Proof.Machine

@[simp] theorem PerDegree.get_const {α : Type} (v : α) (d : Degree) : (PerDegree.const v).get d = v := by cases d <;> rfl

@[simp] theorem PerPoint.get_const {α : Type} (v : α) (o : OutPoint) : (PerPoint.const v).get o = v := by
  cases o with
  | deg d => exact PerDegree.get_const v d
  | grp g => cases g <;> rfl

section
variable (mem : Memory) (strap : BitVec 2) (los : PerDegree Bool) (pfw : Bool) (pending : List Instr)

theorem afterReset_profiles (i : Fin 8) : ((afterReset mem strap los pfw pending).profiles[i]).valid = false := by
  simp [afterReset, Profile.none]

theorem afterReset_engine (e : EngineNo) : (afterReset mem strap los pfw pending).engine e = Engine.free := by
  simp [State.engine, afterReset, RampBank.reset]

theorem afterReset_modules (o : OutPoint) : (afterReset mem strap los pfw pending).act.mods.get o = .online := PerPoint.get_const _ o

theorem afterReset_readback (o : OutPoint) : (afterReset mem strap los pfw pending).start.readback.get o = .unread := PerPoint.get_const _ o

/-- A degree counts as DARK with no level qualified and nothing noted of it (R154). -/
theorem afterReset_degree (d : Degree) :
    let l := (afterReset mem strap los pfw pending).light
    l.state.get d = .dark ∧ (l.qual.get d).level = none ∧ (l.qual.get d).run = 0 ∧ l.holdOff.get d = none ∧ l.changeSet.get d = false ∧
      l.lossSeen.get d = false := by
  cases d <;> exact ⟨rfl, rfl, rfl, rfl, rfl, rfl⟩

/-- No anchor has been adopted, so no module image exists (R140). -/
theorem afterReset_image (o : OutPoint) (n : Slot) : (afterReset mem strap los pfw pending).image o n = none := rfl

end

end Sys2Proof.Machine

section
open Sys2Proof Sys2Proof.Machine

/-- Settles O23: RESET_END in reset leaves the part right after reset, whose blocks hold their values one by one. -/
theorem resetEndGivesTheStatedValues : Obligations.ResetEndGivesTheStatedValues := by
  refine ⟨fun k s h => congrArg Host.Outcome.next (if_neg (by simp [h])), fun k s h => ⟨_, exec_resetEnd_inReset h k, ?_⟩⟩
  exact ⟨
    -- memory and the Start-up Controller
    rfl, rfl, rfl, rfl, rfl,
    -- the sequencer's state, the arbiter's list and the windows
    rfl, rfl, rfl, rfl, rfl,
    -- the bus, the holds and the protection record
    rfl, rfl, rfl, rfl, rfl,
    -- the batch, the Touched Set, the Transition Queue and the profiles
    rfl, rfl, rfl, afterReset_profiles _ _ _ _ _,
    -- the Connection Table and the Ramp Bank
    rfl, rfl, fun _ => rfl, afterReset_engine _ _ _ _ _, rfl, rfl,
    -- the rest of the sequencer
    rfl, rfl, rfl, rfl, rfl,
    -- the Actuator Port
    rfl, rfl, rfl, rfl, rfl, afterReset_modules _ _ _ _ _,
    -- the Light Supervisor
    afterReset_degree _ _ _ _ _, rfl, rfl,
    -- the Interruption Unit and the Integrity Unit
    rfl, rfl, rfl, rfl, rfl, rfl,
    -- the Attention Unit, the clock and what adoption keeps
    rfl, rfl, rfl, rfl, rfl, afterReset_readback _ _ _ _ _,
    -- the module image and ACT_DIR
    afterReset_image _ _ _ _ _, rfl⟩

end

/-! ### The acts that follow an event lift no write-back hold (R15) -/

namespace Sys2Proof.Machine

/-! The operations that leave the hold set whole. -/

theorem foldl_holds {α : Type} {f : State → α → State} (hf : ∀ s a, (f s a).holds = s.holds) (l : List α) (s : State) :
    (l.foldl f s).holds = s.holds :=
  foldl_keeps_prop (P := fun t => t.holds = s.holds) (fun t a ht => (hf t a).trans ht) l rfl

@[simp] theorem freePathEngine_holds (pid) (s : State) : (freePathEngine pid s).holds = s.holds := by
  unfold freePathEngine; split <;> simp
@[simp] theorem giveUpClaims_holds (e) (s : State) : (giveUpClaims e s).holds = s.holds := by simp [giveUpClaims]
@[simp] theorem leaveInPlace_holds (pid) (s : State) : (leaveInPlace pid s).holds = s.holds := by simp [leaveInPlace]
@[simp] theorem leaveRetuned_holds (pid) (s : State) : (leaveRetuned pid s).holds = s.holds := by simp [leaveRetuned]
@[simp] theorem dropUnrouted_holds (pid k) (s : State) : (dropUnrouted pid k s).holds = s.holds := by
  unfold dropUnrouted; split <;> simp
@[simp] theorem setRestoreStep_holds (r k) (s : State) : (setRestoreStep r k s).holds = s.holds := by simp [setRestoreStep]
@[simp] theorem takeTag_holds (pid f) (s : State) : (takeTag pid f s).holds = s.holds := by simp [takeTag]
@[simp] theorem unmarkLeaving_holds (r) (s : State) : (unmarkLeaving r s).holds = s.holds := by
  unfold unmarkLeaving; split <;> simp
@[simp] theorem judge_holds (b) (s : State) : (judge b s).holds = s.holds := by
  simp only [judge]; repeat' split
  all_goals simp
@[simp] theorem claimRounds_holds (n) (s : State) : (claimRounds n s).holds = s.holds := by
  induction n generalizing s with
  | zero => rfl
  | succ n ih =>
    simp only [claimRounds]
    split
    · exact foldl_holds (by simp) _ _
    · simp [ih]
@[simp] theorem returnTouched_holds (s : State) : (returnTouched s).holds = s.holds := by
  unfold returnTouched; split
  · rfl
  · exact foldl_holds (by simp) _ _
@[simp] theorem refuseBatch_holds (s : State) : (refuseBatch s).holds = s.holds := by
  simp only [refuseBatch, endBatch_leaves]
  rw [foldl_holds (by simp)]
  simp
@[simp] theorem reportAtCheck_holds (s : State) (b) : (reportAtCheck s b).holds = s.holds := by
  unfold reportAtCheck; split <;> simp
@[simp] theorem enterRunning_holds (s : State) : (enterRunning s).holds = s.holds := by simp [enterRunning]
theorem handOrdinary_holds {c} {s t : State} (h : handOrdinary c s = some t) : t.holds = s.holds := by
  simp only [handOrdinary] at h
  repeat' split at h
  all_goals first | (simp at h; done) | (simp only [Option.some.injEq] at h; subst h; simp)
theorem placeWaiting_holds {s t : State} (h : placeWaiting s = some t) : t.holds = s.holds := by
  simp only [placeWaiting] at h
  repeat' split at h
  all_goals first | (simp at h; done) | (simp only [Option.some.injEq] at h; subst h; simp)
theorem buildCapture_holds {s t : State} (h : buildCapture s = some t) : t.holds = s.holds := by
  simp only [buildCapture] at h
  repeat' split at h
  all_goals first | (simp at h; done) | (simp only [Option.some.injEq] at h; subst h; rfl)
theorem refreshEnded_holds {s t : State} (h : refreshEnded s = some t) : t.holds = s.holds := by
  simp only [refreshEnded] at h
  repeat' split at h
  all_goals first | (simp at h; done) | (simp only [Option.some.injEq] at h; subst h; rfl)

/-! The operations that fix completed states, and so may bring holds of their own into force: one in force stays. -/

section
variable {r : RecNo} {s : State} (h : r ∈ s.holds.wb)
include h

@[simp] theorem activeDue_wb (n) : r ∈ (activeDue n s).holds.wb := activeDue_wb_keeps n h
@[simp] theorem fixCompleted_wb (n c) : r ∈ (fixCompleted n c s).holds.wb := activeDue_wb (s := setCompleted n c s) h n
@[simp] theorem fixRecord_wb (n v f) : r ∈ (fixRecord n v f s).holds.wb := by
  simp only [fixRecord]; repeat' split
  all_goals simp [h]
@[simp] theorem endWaiting_wb (e st c) : r ∈ (endWaiting e st c s).holds.wb := by
  simp only [endWaiting]; split <;> simp [h]
@[simp] theorem endAllWaiting_wb (st) : r ∈ (endAllWaiting st s).holds.wb := by
  refine foldl_keeps_prop (P := fun t => r ∈ t.holds.wb) (fun t e ht => ?_) _ h
  split <;> simp [ht]
@[simp] theorem enterCancelling_wb : r ∈ (enterCancelling s).holds.wb := by simp [enterCancelling, h]
@[simp] theorem stopTest_wb (c) : r ∈ (stopTest c s).holds.wb := by
  unfold stopTest; repeat' split
  all_goals simp [h]
@[simp] theorem takeCode_wb (n c) : r ∈ (takeCode n c s).holds.wb := by
  unfold takeCode; repeat' split
  all_goals simp [h]
omit h in
@[simp] theorem markVoid_wb (h : r ∈ s.holds.wb) (c n l) : r ∈ (markVoid c n l s).holds.wb := by
  induction n generalizing l s with
  | zero => exact h
  | succ n ih =>
    cases l with
    | nil => exact h
    | cons a l =>
      simp only [markVoid]; repeat' split
      all_goals exact ih (by simp [h]) _
@[simp] theorem finishNow_wb (n st v) : r ∈ (finishNow n st v s).holds.wb := by
  simp only [finishNow]; repeat' split
  all_goals simp [h]
@[simp] theorem finishEntry_wb (n st v) : r ∈ (finishEntry n st v s).holds.wb := by
  unfold finishEntry; split <;> simp [h]
@[simp] theorem failInPlace_wb (e pid c) : r ∈ (failInPlace e pid c s).holds.wb := by
  simp only [failInPlace]; split <;> simp [h]
@[simp] theorem issueDisconnect_wb (e p) : r ∈ (issueDisconnect e p s).holds.wb := by
  simp only [issueDisconnect]; split
  · next ho => rw [handOrdinary_holds ho]; exact h
  · simp [h]
@[simp] theorem stepFailed_wb (n c) : r ∈ (stepFailed n c s).holds.wb := by
  simp only [stepFailed]; repeat' split
  all_goals simp [h]
@[simp] theorem issueStep_wb (n b) : r ∈ (issueStep n b s).holds.wb := by
  simp only [issueStep]; repeat' split
  all_goals first | simp [h] | (next ho => rw [handOrdinary_holds ho]; split <;> simp [h])
@[simp] theorem stepDone_wb (n) : r ∈ (stepDone n s).holds.wb := by simp only [stepDone]; split <;> simp [h]
@[simp] theorem beginEntry_wb (e) : r ∈ (beginEntry e s).holds.wb := by
  simp only [beginEntry]; repeat' split
  all_goals simp [h]
@[simp] theorem endRestoreNow_wb (n) : r ∈ (endRestoreNow n s).holds.wb := by simp [endRestoreNow, h]
@[simp] theorem endRestore_wb (n) : r ∈ (endRestore n s).holds.wb := by unfold endRestore; split <;> simp [h]
@[simp] theorem restoreDisconnect_wb (x p) : r ∈ (restoreDisconnect x p s).holds.wb := by
  simp only [restoreDisconnect]; split
  · next ho => rw [handOrdinary_holds ho]; exact h
  · simp [h]
@[simp] theorem restoreFailed_wb (n) : r ∈ (restoreFailed n s).holds.wb := by
  simp only [restoreFailed]; repeat' split
  all_goals simp [h]
@[simp] theorem restoreConnect_wb (x p) : r ∈ (restoreConnect x p s).holds.wb := by
  unfold restoreConnect; split
  · next ho => rw [handOrdinary_holds ho]; exact h
  · simp [h]
@[simp] theorem dimmed_wb (o) : r ∈ (dimmed o s).holds.wb := by
  unfold dimmed; repeat' split
  all_goals simp [h]
@[simp] theorem acceptRecord_wb (b) : r ∈ (acceptRecord b s).holds.wb := by
  simp only [acceptRecord]; repeat' split
  all_goals simp [h]
@[simp] theorem acceptBatch_wb : r ∈ (acceptBatch s).holds.wb := by
  have haccepted (l : List BatchRec) : r ∈ (l.foldl (fun s b => acceptRecord b s) s).holds.wb :=
    foldl_keeps_prop (P := fun t => r ∈ t.holds.wb) (fun t b ht => acceptRecord_wb ht b) l h
  have hreported (l : List BatchRec) (t : State) := foldl_holds (f := reportAtCheck) (by simp) l t
  simp only [acceptBatch]; repeat' split
  all_goals simp [hreported, haccepted]

variable {t : State}

theorem grantStep_wb (hs : grantStep s = some t) : r ∈ t.holds.wb := by
  simp only [grantStep] at hs
  repeat' split at hs
  all_goals first | (simp at hs; done) | (simp only [Option.some.injEq] at hs; subst hs; simp [h])
theorem continueCheck_wb (hs : continueCheck s = some t) : r ∈ t.holds.wb := by
  simp only [continueCheck] at hs
  repeat' split at hs
  all_goals first | (simp at hs; done) | (simp only [Option.some.injEq] at hs; subst hs; simp [h])
theorem pumpBatch_wb (hs : pumpBatch s = some t) : r ∈ t.holds.wb := by
  simp only [pumpBatch] at hs
  repeat' split at hs
  all_goals first
    | (simp at hs; done)
    | (simp only [Option.some.injEq] at hs; subst hs; simp [h])
    | (simp only [Option.map_eq_some_iff] at hs; obtain ⟨e, -, rfl⟩ := hs; simp [h])
theorem beginRestore_wb (hs : beginRestore s = some t) : r ∈ t.holds.wb := by
  simp only [beginRestore] at hs
  repeat' split at hs
  all_goals first | (simp at hs; done) | (simp only [Option.some.injEq] at hs; subst hs; simp [h])

end
end Sys2Proof.Machine

/-! ### Events that store nothing (R13, R15) -/

namespace Sys2Proof.Machine

/-- A beat that a write-back hold meets: a read, whose cycle has not the port and has read nothing yet, waits alone (R13, R15). -/
structure ReadHeld (b : Beat) (s : State) : Prop where
  reads : b.write = false
  waits : s.bus.held = [b]
  noPort : s.bus.granted = false
  met : beatHeld s b = true

/-- The hold that meets a read is one of a write-back, so it meets the read as long as no such hold is lifted (R15). -/
theorem beatHeld_read_mono {s t : State} {b : Beat} (hr : b.write = false) (hw : t.win = s.win) (hread : ∀ r ∈ t.bus.reading, r ∈ s.bus.reading)
    (hwb : ∀ r ∈ s.holds.wb, r ∈ t.holds.wb) (h : beatHeld s b = true) : beatHeld t b = true := by
  have hrole : b.role t = b.role s := by rw [Beat.role, hw, Beat.role]
  unfold beatHeld at h ⊢
  rw [hrole]
  cases hb : b.role s with
  | active =>
    simp only [hb, hr, Bool.not_false, Bool.true_and, Bool.and_eq_true, Bool.not_eq_true', List.contains_eq_mem,
      decide_eq_true_eq, decide_eq_false_iff_not] at h ⊢
    obtain ⟨hdue, hunread⟩ := h
    exact ⟨hwb _ hdue, fun hn => hunread (hread _ hn)⟩
  | _ => simp [hb, hr] at h

theorem ReadHeld.of_plan {s t : State} {b : Beat} (h : ReadHeld b s) (hp : t.plan = s.plan) (hwb : ∀ r ∈ s.holds.wb, r ∈ t.holds.wb) :
    ReadHeld b t := by
  have hbus : t.bus = s.bus := congrArg Plan.bus hp
  exact ⟨h.reads, hbus ▸ h.waits, hbus ▸ h.noPort, beatHeld_read_mono h.reads (congrArg Plan.win hp) (by simp [hbus]) hwb h.met⟩

theorem ReadHeld.releaseBeat_none {s : State} {b : Beat} (h : ReadHeld b s) : releaseBeat s = none := by
  simp [releaseBeat, h.waits, beatWaits_of_held h.met, h.noPort]

/-- No act that follows an event by itself lets a held read go: each leaves the plan alone and lifts no hold. -/
theorem settleStep_readHeld {s t : State} {b : Beat} (hb : ReadHeld b s) (h : settleStep s = some t) : t.plan = s.plan ∧ ReadHeld b t := by
  have hkeeps (hp : t.plan = s.plan) (hwb : ∀ r ∈ s.holds.wb, r ∈ t.holds.wb) : t.plan = s.plan ∧ ReadHeld b t := ⟨hp, hb.of_plan hp hwb⟩
  have hsame (hh : t.holds = s.holds) : ∀ r ∈ s.holds.wb, r ∈ t.holds.wb := fun r hr => hh ▸ hr
  simp only [settleStep, hb.releaseBeat_none, Option.orElse_eq_orElse, Option.orElse_eq_or, Option.none_or, Option.or_eq_some_iff] at h
  rcases h with h | ⟨-, h | ⟨-, h | ⟨-, h | ⟨-, h | ⟨-, h | ⟨-, h⟩⟩⟩⟩⟩⟩
  · exact hkeeps (buildCapture_plan h) (hsame (buildCapture_holds h))
  · exact hkeeps (placeWaiting_plan h) (hsame (placeWaiting_holds h))
  · exact hkeeps (grantStep_plan h) (fun _ hr => grantStep_wb hr h)
  · exact hkeeps (continueCheck_plan h) (fun _ hr => continueCheck_wb hr h)
  · exact hkeeps (pumpBatch_plan h) (fun _ hr => pumpBatch_wb hr h)
  · exact hkeeps (refreshEnded_plan h) (hsame (refreshEnded_holds h))
  · exact hkeeps (beginRestore_plan h) (fun _ hr => beginRestore_wb hr h)

theorem settle_readHeld (n : Nat) {s : State} {b : Beat} (hb : ReadHeld b s) : (settle n s).plan = s.plan := by
  induction n generalizing s with
  | zero => rfl
  | succ n ih =>
    unfold settle
    split
    · next t h =>
      obtain ⟨hp, ht⟩ := settleStep_readHeld hb h
      rw [ih ht, hp]
    · rfl

/-- Memory and the beats that wait stand. -/
abbrev StoresNothing (s t : State) : Prop := t.mem = s.mem ∧ t.bus.held = s.bus.held

/-- The acts that follow an event store nothing while no host beat waits. -/
theorem settled_mem {s u t : State} (h : settled u = .next t) (hu : StoresNothing s u) (hb : BusFree s) : t.mem = s.mem := by
  obtain rfl : settle settleBound u = t := by simpa [settled] using h
  obtain ⟨hmem, hheld⟩ := hu
  exact (congrArg Plan.mem (settle_plan settleBound (hheld.trans hb))).trans hmem

/-- Nor do they while a read is held. -/
theorem settled_readHeld_mem {s u t : State} {b : Beat} (h : settled u = .next t) (hu : u.mem = s.mem) (hb : ReadHeld b u) : t.mem = s.mem := by
  obtain rfl : settle settleBound u = t := by simpa [settled] using h
  exact (congrArg Plan.mem (settle_readHeld settleBound hb)).trans hu

theorem StoresNothing.of_keeps {s t : State} (h : Keeps s t) : StoresNothing s t := by
  obtain ⟨-, -, -, hmem, -, -, -, -, hheld⟩ := h
  exact ⟨hmem, hheld⟩

/-- An event that stores nothing leaves memory as it stood, with the acts that follow, while no host beat waits. -/
theorem event_mem {s t : State} {f : State → State} (hb : BusFree s) (hf : ∀ u, StoresNothing u (f u)) (h : event s f = .next t) :
    t.mem = s.mem := by
  cases hr : s.start.inReset with
  | true =>
    rw [event_inReset hr] at h
    cases h
    rfl
  | false =>
    rw [event_awake hr] at h
    exact settled_mem h (hf (fresh s)) hb

/-! The operations that change more than `Keeps` lets them, and memory not. -/

@[simp] theorem beginMeasure_storesNothing (s : State) : StoresNothing s (beginMeasure s) := by
  unfold beginMeasure; split <;> exact ⟨rfl, rfl⟩

theorem sampleArrives_storesNothing (f : SampleFrame) (s : State) : StoresNothing s (sampleArrives f s) := by
  simp only [sampleArrives]; repeat' split
  all_goals simp [StoresNothing]

@[simp] theorem slip_storesNothing (s : State) : StoresNothing s (slip s) := by simp [StoresNothing, slip]

theorem takeIntake_storesNothing (s : State) : StoresNothing s (takeIntake s) := by
  simp only [takeIntake]; repeat' split
  all_goals simp [StoresNothing]

theorem ackAccepted_storesNothing (x : Txn) (s : State) : StoresNothing s (ackAccepted x s) := by
  simp only [ackAccepted]; repeat' split
  all_goals simp [StoresNothing]

theorem ackArrives_storesNothing (k : FrameKind) (x : ReplyHead) (s : State) : StoresNothing s (ackArrives k x s) := by
  unfold ackArrives; repeat' split
  · exact ⟨rfl, rfl⟩
  · exact ackAccepted_storesNothing _ s
  · exact .of_keeps (attemptMissed_keeps s)
  · exact ⟨rfl, rfl⟩

/-! The two rows of O6 that are beats of the host. -/

/-- A read that finds the port free stores nothing: one that a hold meets waits on, and any other is carried out (R13, R169). -/
theorem hostReadBeat_mem {s t : State} {addr : Addr} {be : ByteEn} {last : Bool} (hb : BusFree s) (hp : PortFree s)
    (h : beatEvent s (.ofRead addr be last) = .next t) : t.mem = s.mem := by
  cases hr : s.start.inReset with
  | true =>
    rw [beatEvent_inReset hr] at h
    cases h
    simp [resetBeat]
  | false =>
    cases hh : beatHeld s (.ofRead addr be last) with
    | true =>
      rw [beatEvent_waits hr hb (beatWaits_of_held hh)] at h
      exact settled_readHeld_mem h rfl ⟨rfl, rfl, rfl, beatHeld_read_mono (s := s) rfl rfl (by simp) (fun _ => id) hh⟩
    | false =>
      rw [beatEvent_carried hr hb hp hh (needsPort_read rfl)] at h
      exact settled_mem h (by simp [StoresNothing, carryBeat, carryRead]) hb

/-- A refused write stores nothing (R5). -/
theorem refusedWriteBeat_mem {s t : State} {addr : Addr} {b : BeatData} (hb : BusFree s)
    (hr : writeAction (s.win.role (pageOf (wordAddr addr))) (wordAddr addr % 4096) = .refuse)
    (h : beatEvent s (.ofWrite addr b) = .next t) : t.mem = s.mem := by
  cases ha : s.start.inReset with
  | true =>
    rw [beatEvent_inReset ha] at h
    cases h
    simp [resetBeat]
  | false =>
    by_cases h0 : b.be = 0
    · rw [beatEvent_noLanes ha hb h0] at h
      exact settled_mem h ⟨rfl, rfl⟩ hb
    · rw [beatEvent_refused ha hb h0 hr] at h
      exact settled_mem h ⟨by simp, rfl⟩ hb

end Sys2Proof.Machine

section
open Sys2Proof Sys2Proof.Machine

/-- Settles O6: the two beats of the host, and every other row as an event that stores nothing. -/
theorem nonStoringCommandsKeepMemory : Obligations.NonStoringCommandsKeepMemory := by
  intro c s t hbus hc h
  cases c with
  | hostReadBeat addr be last => exact hostReadBeat_mem hbus hc h
  | refusedWriteBeat addr b => exact refusedWriteBeat_mem hbus hc h
  | firstQualification | qualifiedLoss | qualifiedClear | holdOffExpiry | captureTimeAdvance | measure | capture | resumeTaken | anchorReRead =>
    simp only [exec, execFirstQualification, execQualifiedLoss, execQualifiedClear, execHoldOffExpiry, execCaptureTimeAdvance, execMeasure,
      execCapture, execResumeTaken, execAnchorReRead] at h
    refine event_mem hbus (fun u => ?_) h
    repeat' split
    all_goals simp [StoresNothing]
  | pfwAssertion => exact event_mem hbus (fun u => .of_keeps (pfwAsserted_keeps u)) h
  | pfwDeassertion => exact event_mem hbus (fun u => .of_keeps (pfwDeasserted_keeps u)) h
  | sample f => exact event_mem hbus (sampleArrives_storesNothing f) h
  | intakeQueueTake => exact event_mem hbus takeIntake_storesNothing h
  | silenceTimerExpiry => exact event_mem hbus (fun u => .of_keeps (silenceExpires_keeps u)) h
  | transactionBegin => exact event_mem hbus (fun u => .of_keeps (beginTransaction_keeps u)) h
  | routeAck x => exact event_mem hbus (ackArrives_storesNothing .route x) h
  | attenAck x => exact event_mem hbus (ackArrives_storesNothing .atten x) h
  | pingAck x => exact event_mem hbus (ackArrives_storesNothing .ping x) h
  | data x l => exact event_mem hbus (fun u => .of_keeps (dataArrives_keeps x l u)) h
  | nak x => exact event_mem hbus (fun u => .of_keeps (nakArrives_keeps x u)) h
  | replyTimerExpiry => exact event_mem hbus (fun u => .of_keeps (replyExpires_keeps u)) h
  | intervalExpiry e => exact event_mem hbus (fun u => .of_keeps (intervalExpires_keeps e u)) h
  | pacingTimerExpiry => exact event_mem hbus (fun u => .of_keeps (pacingExpires_keeps u)) h
  | _ => exact absurd hc id

end

/-! ### What every step keeps (R35, R41, R55, R99, R168, R170) -/

namespace Sys2Proof.Machine

/-- Right after reset every block holds nothing that could be out of form, whatever the strap and the pins show. -/
theorem afterReset_wellKept {m : Memory} (h : m.wf = true) (k : BitVec 2) (los : PerDegree Bool) (pfw : Bool) (q : List Instr) :
    WellKept (afterReset m k los pfw q) :=
  ⟨h, by simp [afterReset, Integrity.reset], by simp [afterReset, Monitor.reset], by simp [afterReset], by simp [afterReset, Monitor.reset]⟩

/-- Right after reset the tables and queues are empty, the engines FREE, and the one access waiting is no pop. -/
theorem afterReset_orderly (m : Memory) (k : BitVec 2) (los : PerDegree Bool) (pfw : Bool) (q : List Instr) :
    Orderly (afterReset m k los pfw q) where
  names := .nil
  namesBelow := by simp [afterReset, ConnTable.reset]
  occupancy := .nil
  completed := .nil
  freeEngines e _ := by rw [afterReset_engine]; rfl
  engines := by simp [afterReset, ConnTable.reset]
  records := .nil
  queue := .nil
  touched := .nil
  restores := .nil
  begun := by simp [afterReset, Light.reset]
  places := by simp [afterReset, Actuator.reset]
  phase := by simp [afterReset, Batch.reset]
  depth := by simp [afterReset, Interruption.reset]
  pops := by simp [afterReset]
  slots := by simp [afterReset, Startup.reset]

/-- RESET writes at most the words of one burst, and discards the rest (R18). -/
theorem assertReset_wellKept {s : State} (h : WellKept s) (cut : Nat) : WellKept (assertReset cut s) := by
  have hk : WellKept (cutBurst cut (fresh s)) := (cutBurst_sound cut (fresh s)).kept ((Sound.of_keeps (fresh_keeps s)).kept h)
  have hb := fun l t => (Sound.foldl (fun s b => .of_keeps (endBeat_keeps b none true s)) l t :
    Sound t (l.foldl (fun s b => endBeat b none true s) t)).kept
  have hw := hb (cutBurst cut (fresh s)).bus.held _ ((Sound.bus _ { (cutBurst cut (fresh s)).bus with held := [] }).kept hk)
  exact ⟨hw.memory, by simp [assertReset], hw.intake, hw.cells, hw.sequence⟩

/-- A command of the queue keeps `WellKept`. -/
theorem exec_wellKept {c : Instr} {s t : State} (h : WellKept s) (ht : exec c s = .next t) : WellKept t := by
  by_cases hr : ∃ n, c = .reset n
  · obtain ⟨n, rfl⟩ := hr
    cases ht
    exact assertReset_wellKept h n
  by_cases he : ∃ k, c = .resetEnd k
  · obtain ⟨k, rfl⟩ := he
    cases ht
    split
    · exact afterReset_wellKept h.memory ..
    · exact h
  exact (exec_sound (fun n e => hr ⟨n, e⟩) (fun k e => he ⟨k, e⟩) ht).kept h

/-- What the Memory Port does next without a row is one access carried out. -/
theorem portNext_state {s t : State} (h : portNext s = some (.inr t)) :
    ∃ r ∈ s.port, t = carryOut r { s with port := s.port.erase r } := by
  have hg : ∀ r ∈ grantable s, r ∈ s.port := fun r hr => by
    unfold grantable at hr
    split at hr
    · exact List.mem_of_mem_filter hr
    · exact hr
  unfold portNext at h
  split at h
  · cases h
  split at h
  · simp at h
  split at h
  · next r hn =>
    split at h
    · simp at h
    · simp only [Option.some.injEq, Sum.inr.injEq] at h
      refine ⟨r, hg r ?_, h.symm⟩
      unfold nextReq at hn
      split at hn
      · cases hn
      · exact List.mem_of_find?_eq_some hn
  · cases h

/-- The part's own acts on an empty queue: a command posted, an access carried out, or one base tick (log 6). -/
theorem idle_cases (s : State) :
    idle s = s ∨ (∃ c, idle s = post c s) ∨ (∃ r, idle s = carryOut r { s with port := s.port.erase r }) ∨ idle s = baseTick s := by
  unfold idle
  split
  · exact .inl rfl
  split
  · exact .inr (.inl ⟨_, rfl⟩)
  split
  · exact .inr (.inl ⟨_, rfl⟩)
  · next h =>
    obtain ⟨r, -, hr⟩ := portNext_state h
    exact .inr (.inr (.inl ⟨r, hr⟩))
  · exact .inr (.inr (.inr rfl))

theorem TickKeeps.wellKept {s t : State} (h : TickKeeps s t) (w : WellKept s) : WellKept t := by
  obtain ⟨-, -, hm, hr, hi, hp, hn⟩ := h
  exact ⟨hm ▸ w.memory, hr ▸ w.rewrites, hi ▸ w.intake, hp ▸ w.cells, hn ▸ w.sequence⟩

theorem idle_wellKept {s : State} (h : WellKept s) : WellKept (idle s) := by
  rcases idle_cases s with e | ⟨c, e⟩ | ⟨r, e⟩ | e <;> rw [e]
  · exact h
  · exact (post_tickKeeps c s).wellKept h
  · exact (carryOut_sound r _).kept ⟨h.memory, h.rewrites, h.intake, h.cells, h.sequence⟩
  · exact (baseTick_tickKeeps s).wellKept h

theorem idle_orderly {s : State} (h : Orderly s) : Orderly (idle s) := by
  rcases idle_cases s with e | ⟨c, e⟩ | ⟨r, e⟩ | e <;> rw [e]
  · exact h
  · exact post_orderly h c
  · exact carryOut_orderly (orderly_erase h r) r
  · exact baseTick_orderly h

theorem placedWrite_orderly {a : Option Nat} {b : BeatData} {s t : State} (h : Orderly s) (ht : placedWrite s a b = .next t) : Orderly t := by
  cases a with
  | none => exact event_orderly (fun _ hs => hs) h ht
  | some a => exact beatEvent_orderly h ht

/-- A command of the queue keeps the tables and queues orderly. -/
theorem exec_orderly {c : Instr} {s t : State} (h : Orderly s) (ht : exec c s = .next t) : Orderly t := by
  cases c with
  | reset n => cases ht; exact assertReset_orderly h n
  | resetEnd k =>
    cases ht
    split
    · exact afterReset_orderly ..
    · exact h
  | hostReadBeat | hostWriteBeat | refusedWriteBeat => exact beatEvent_orderly h ht
  | anchorWrite w b => exact beatEvent_orderly h ht
  | stagingWrite | resumeWordWrite | acknowledge | commit | cancel | hold | release | resume | unknownCommand =>
    exact placedWrite_orderly h ht
  | firstQualification d loss =>
    simp only [exec, execFirstQualification] at ht
    refine event_orderly (fun s hs => ?_) h ht
    have hl : ∀ l, Orderly { setLevel d loss s with light := { (setLevel d loss s).light with state := l } } :=
      fun _ => (orderly_light (setLevel d loss s) ..).2 (setLevel_orderly hs d loss)
    repeat' split
    · exact hs
    · exact hl _
    · exact requestStatus_orderly (hl _) (by simp)
    · exact setLevel_orderly hs d loss
    · exact clearEvent_orderly (setLevel_orderly hs d loss) d
  | qualifiedLoss d =>
    simp only [exec, execQualifiedLoss] at ht
    refine event_orderly (fun s hs => ?_) h ht
    split
    · exact (orderly_light (setLevel d true s) ..).2 (setLevel_orderly hs d true)
    · exact lossEvent_orderly (setLevel_orderly hs d true) d
  | qualifiedClear d =>
    exact event_orderly (fun s hs => ite_orderly (setLevel_orderly hs d false) (clearEvent_orderly (setLevel_orderly hs d false) d)) h ht
  | holdOffExpiry | measure | capture | resumeTaken | correctionRewrite | anchorReRead | captureTimeAdvance =>
    simp only [exec, execHoldOffExpiry, execMeasure, execCapture, execResumeTaken, execCorrectionRewrite, execAnchorReRead,
      execCaptureTimeAdvance] at ht
    refine event_orderly (fun s hs => ?_) h ht
    repeat' split
    all_goals simp (maxDischargeDepth := 9) [hs]
  | pfwAssertion => exact event_orderly (fun s hs => pfwAsserted_orderly hs) h ht
  | pfwDeassertion => exact event_orderly (fun s hs => pfwDeasserted_orderly hs) h ht
  | sample f => exact event_orderly (fun s hs => sampleArrives_orderly hs f) h ht
  | intakeQueueTake => exact event_orderly (fun s hs => takeIntake_orderly hs) h ht
  | silenceTimerExpiry => exact event_orderly (fun s hs => silenceExpires_orderly hs) h ht
  | transactionBegin => exact event_orderly (fun s hs => beginTransaction_orderly hs) h ht
  | routeAck x | attenAck x | pingAck x => exact event_orderly (fun s hs => ackArrives_orderly hs _ x) h ht
  | data x l => exact event_orderly (fun s hs => dataArrives_orderly hs x l) h ht
  | nak x => exact event_orderly (fun s hs => nakArrives_orderly hs x) h ht
  | replyTimerExpiry => exact event_orderly (fun s hs => replyExpires_orderly hs) h ht
  | intervalExpiry e => exact event_orderly (fun s hs => intervalExpires_orderly hs e) h ht
  | pacingTimerExpiry => exact event_orderly (fun s hs => pacingExpires_orderly hs) h ht
  | pop =>
    refine rowEvent_orderly (fun r s hs hr => ?_) h ht
    split
    · exact popped_orderly (carryOut_orderly hs _) (hr _ rfl)
    · exact hs
  | outcomeWordWrite =>
    refine rowEvent_orderly (fun r s hs hr => ?_) h ht
    split
    · exact markHeld_orderly (carryOut_orderly hs _) _ _
    · exact hs
  | captureWriteComplete =>
    refine rowEvent_orderly (fun r s hs hr => captureWritten_orderly ?_) h ht
    split
    · exact (orderly_intr (carryOut _ s) ..).2 (carryOut_orderly hs _)
    · exact carryOut_orderly hs r
  | activeWriteBack =>
    refine rowEvent_orderly (fun r s hs _ => ?_) h ht
    split
    · exact (orderly_core (carryOut _ s) ..).2 (carryOut_orderly hs _)
    · exact hs
  | maskRead => exact rowEvent_orderly (fun _ s hs _ => masksFetched_orderly hs) h ht
  | rebuildAnchorRead => exact rowEvent_orderly (fun _ s hs _ => rebuildAnchor_orderly hs) h ht
  | anchorRead => exact rowEvent_orderly (fun _ s hs _ => unconfiguredAnchor_orderly hs) h ht
  | anchorReReadDone => exact rowEvent_orderly (fun _ s hs _ => rereadAnchor_orderly hs) h ht
  | resumeWordRead | fetchRead | profileRead | endStateWrite | scrubRead | rebuildProfileRead | rebuildActiveRead
    | rebuildSaveRead | newHalfStagingRead | comparisonRead =>
    refine rowEvent_orderly (fun r s hs _ => ?_) h ht
    split <;> simp (maxDischargeDepth := 9) [hs]

end Sys2Proof.Machine

section
open Sys2Proof Sys2Proof.Machine

/-- Settles O4: State.reset is `afterReset` over a memory with nothing listed. -/
theorem resetStateIsWellKept : Obligations.ResetStateIsWellKept :=
  ⟨afterReset_wellKept rfl .., afterReset_orderly ..⟩

/-- Settles O5: a step is a command of the queue or, on an empty queue, the part's own act, and each keeps both. -/
theorem stepsKeepWellKept : Obligations.StepsKeepWellKept := by
  refine ⟨fun s t h ht => ?_, fun s t h ht => ?_⟩
  · unfold step at ht
    split at ht
    · cases ht; exact idle_wellKept h
    · next c rest _ => exact exec_wellKept (s := { s with pending := rest }) ⟨h.memory, h.rewrites, h.intake, h.cells, h.sequence⟩ ht
  · unfold step at ht
    split at ht
    · cases ht; exact idle_orderly h
    · exact exec_orderly ((orderly_core s ..).2 h) ht

end

/-! ### CANCEL in a run state, and claims given up (R42, R48, R89, R93, R94) -/

namespace Sys2Proof.Machine

theorem handCommand_cancel {s : State} {w : Word} {q : BitVec 16} (hs : s.seqr.st ≠ .unconfigured) (hk : w.extractLsb' 0 8 = (2 : BitVec 8))
    (hq : w.extractLsb' 16 16 = q) : handCommand w s = takeCancel q s := by
  simp [handCommand, hk, hq, hs]

/-- A CANCEL in a run state is answered, then CANCELLING is entered (R93; log 97). -/
theorem takeCancel_running {s : State} (q : BitVec 16) (hs : s.seqr.st = .running ∨ s.seqr.st = .holding ∨ s.seqr.st = .held)
    (ho : batchOpen s = true) : takeCancel q s = enterCancelling (respond q 2 .accepted s) := by
  have ho' : batchOpen (respond q 2 .accepted s) = true := ho
  rcases hs with hs | hs | hs <;> (simp only [takeCancel, hs]; exact if_pos ho')

/-! #### The write-back of a WAITING entry -/

/-- A WAITING entry as its end leaves it (R89, R94). -/
def Entry.ended (e : Entry) (st : EntryState) (code : Option FailCode) : Entry := { e with st := st, fail := e.fail <|> code, chain := [] }

theorem Entry.ended_none (e : Entry) (st : EntryState) : e.ended st none = { e with st := st, chain := [] } := by
  cases h : e.fail <;> simp [Entry.ended, h]

/-- The write-back by what the entry stands on: a MOVE between its halves, or any other (R94). -/
theorem endWaiting_eq (e : Entry) (st : EntryState) (code : Option FailCode) (s : State) :
    endWaiting e st code s =
      let t := updateEntry e.no (fun _ => e.ended st code) s
      let u := if e.kind = .move ∧ e.half = .new then fixRecord e.no false false t else giveUpClaims (e.ended st code) t
      writeOutcome e.no (outcomeOf (e.ended st code) st u) u := by
  simp [endWaiting, Entry.ended]

@[simp] theorem giveUpClaims_queue (e : Entry) (s : State) : (giveUpClaims e s).queue = s.queue := rfl

@[simp] theorem endWaiting_queue (e : Entry) (st : EntryState) (code : Option FailCode) (s : State) :
    (endWaiting e st code s).queue = s.queue.map (fun x => if x.no = e.no then e.ended st code else x) := by
  rw [endWaiting_eq]
  simp only
  split <;> simp

/-- An entry as the end of every WAITING one leaves it (R93). -/
def Entry.cut (st : EntryState) (e : Entry) : Entry := if e.st = .waiting then { e with st := st, chain := [] } else e

theorem Entry.cut_no (st : EntryState) (e : Entry) : (e.cut st).no = e.no := by
  unfold Entry.cut; split <;> rfl

/-- One entry's turn changes that entry alone. -/
theorem endTurn_queue {s : State} {e : Entry} (st : EntryState) (hq : ∀ x ∈ s.queue, x.no = e.no → x = e) :
    (if e.st = .waiting then endWaiting e st none s else s).queue = s.queue.map (fun x => if x = e then e.cut st else x) := by
  by_cases h : e.st = .waiting
  · rw [if_pos h, endWaiting_queue]
    refine List.map_congr_left fun x hx => ?_
    by_cases hn : x.no = e.no
    · rw [if_pos hn, if_pos (hq x hx hn), Entry.ended_none, Entry.cut, if_pos h]
    · rw [if_neg hn, if_neg (fun he => hn (congrArg Entry.no he))]
  · rw [if_neg h]
    refine (List.map_id'' (fun x => ?_) _).symm
    simp only [Entry.cut, if_neg h]
    split
    · next hx => exact hx.symm
    · rfl

/-- The WAITING entries of a list with one entry a record end, and the others stand. -/
theorem foldl_endWaiting_queue (st : EntryState) {l : List Entry} (hl : (l.map (·.no)).Nodup) {s : State}
    (hs : ∀ x ∈ s.queue, x.no ∈ l.map (·.no) → x ∈ l) :
    (l.foldl (fun s e => if e.st = .waiting then endWaiting e st none s else s) s).queue =
      s.queue.map (fun x => if x ∈ l then x.cut st else x) := by
  induction l generalizing s with
  | nil => simp
  | cons e l ih =>
    obtain ⟨hel, hl⟩ := List.nodup_cons.1 hl
    have hone : ∀ x ∈ s.queue, x.no = e.no → x = e := fun x hx hn => by
      rcases List.mem_cons.1 (hs x hx (by simp [hn])) with h | h
      · exact h
      · exact absurd (List.mem_map.2 ⟨x, h, hn⟩) hel
    have hturn := endTurn_queue st hone
    rw [List.foldl_cons, ih hl, hturn, List.map_map]
    · refine List.map_congr_left fun x hx => ?_
      by_cases hxe : x = e
      · have : (e.cut st) ∉ l := fun h => hel (List.mem_map.2 ⟨_, h, Entry.cut_no st e⟩)
        simp [hxe, this]
      · simp [hxe]
    · intro y hy hyl
      rw [hturn] at hy
      obtain ⟨x, hx, rfl⟩ := List.mem_map.1 hy
      by_cases hxe : x = e
      · rw [if_pos hxe, Entry.cut_no] at hyl
        exact absurd hyl hel
      · rw [if_neg hxe] at hyl ⊢
        exact (List.mem_cons.1 (hs x hx (by simp [hyl]))).resolve_left hxe

/-- Every WAITING entry ends, and the others stand (R93, R165). -/
theorem endAllWaiting_queue (st : EntryState) {s : State} (h : (s.queue.map (·.no)).Nodup) :
    (endAllWaiting st s).queue = s.queue.map (Entry.cut st) := by
  rw [endAllWaiting, foldl_endWaiting_queue st h (fun x hx _ => hx)]
  exact List.map_congr_left fun x hx => if_pos hx

theorem endAllWaiting_seqr (st : EntryState) (s : State) : (endAllWaiting st s).seqr = s.seqr :=
  (KeepsCourse.foldl (fun s e => by
    split
    · exact endWaiting_keepsCourse e st none s
    · exact .refl s) s.queue s).seqr

theorem enterCancelling_seqr (s : State) : (enterCancelling s).seqr =
    { s.seqr with st := .cancelling, shown := { st := .cancelling, seq := s.batch.seq } } := by
  rw [enterCancelling, endAllWaiting_seqr]
  simp [enterState, writeBatchState]

theorem enterCancelling_queue {s : State} (h : (s.queue.map (·.no)).Nodup) :
    (enterCancelling s).queue = s.queue.map (Entry.cut .cancelled) := by
  have hq : (enterState .cancelling .cancelling s).queue = s.queue := by simp
  rw [enterCancelling, endAllWaiting_queue _ (by rwa [hq]), hq]

/-- A CANCEL or ABANDON that ends a WAITING entry: what the entry stands on is fixed or given up, and its outcome stands alone (R94, R165). -/
theorem endWaiting_without_code {e : Entry} {st : EntryState} {o : OutcomeCode}
    (h : (st, o) ∈ [(EntryState.cancelled, OutcomeCode.cancelled), (.abandoned, .abandoned)]) (s : State) :
    endWaiting e st none s = writeOutcome e.no o
      (if e.kind = .move ∧ e.half = .new then fixRecord e.no false false (updateEntry e.no (fun _ => e.ended st none) s)
        else giveUpClaims (e.ended st none) (updateEntry e.no (fun _ => e.ended st none) s)) := by
  have ho : ∀ (x : Entry) (u : State), outcomeOf x st u = o := by
    simp only [List.mem_cons, Prod.mk.injEq, List.not_mem_nil, or_false] at h
    rcases h with ⟨rfl, rfl⟩ | ⟨rfl, rfl⟩ <;> exact fun _ _ => rfl
  rw [endWaiting_eq]
  simp only [ho]

/-! #### The claims given up (R42, R48) -/

/-- What an old path that is not left any more gives up: the pledges on its entries, its leaving mark and its pending fields (R42). -/
def ConnTable.stay (t : ConnTable) (q : Nat) : ConnTable := (t.voidOn q).update q (fun x => { x with leaving := false, pend := none })

theorem giveUpClaims_eq (e : Entry) (s : State) : giveUpClaims e s =
    let t := match e.newP with | some p => if e.kind = Kind.adopt then s.table else s.table.remove p | none => s.table
    { s with table := (match e.oldP with | some p => t.stay p | none => t).unclaim e.no } := by
  unfold giveUpClaims
  cases e.newP <;> cases e.oldP <;> rfl

/-- Whether a map entry is a port's, which an adoption claims (R33, R48). -/
def Res.isPort : Res → Bool
  | .addPort _ | .dropPort _ => true
  | _ => false

theorem Res.isPort_iff (x : Res) : x.isPort = true ↔ ∃ p, x = .addPort p ∨ x = .dropPort p := by
  cases x <;> simp [Res.isPort]

/-- The names of the paths of a table that a test picks. -/
def ConnTable.pidsOf (t : ConnTable) (f : Path → Bool) : List Nat := t.paths.filterMap (fun p => if f p then some p.pid else none)

theorem ConnTable.mem_pidsOf {t : ConnTable} {f : Path → Bool} {n : Nat} : n ∈ t.pidsOf f ↔ ∃ p ∈ t.paths, f p = true ∧ p.pid = n := by
  simp [ConnTable.pidsOf, List.mem_filterMap]

theorem unclaim_occ (t : ConnTable) (r : RecNo) :
    (t.unclaim r).occ = t.occ.filter (fun o => !((t.pidsOf (fun p => p.claimed = some r)).contains o.owner && o.res.isPort)) := by
  simp only [ConnTable.pidsOf, decide_eq_true_eq]
  rfl

theorem mem_unclaim_occ (t : ConnTable) (r : RecNo) (o : Occ) : o ∈ (t.unclaim r).occ ↔ o ∈ t.occ ∧
    ¬ ((∃ p ∈ t.paths, p.claimed = some r ∧ p.pid = o.owner) ∧ ∃ x, o.res = .addPort x ∨ o.res = .dropPort x) := by
  rw [unclaim_occ, List.mem_filter, Bool.not_eq_true', ← Bool.not_eq_true, Bool.and_eq_true, List.contains_iff_mem, ConnTable.mem_pidsOf,
    Res.isPort_iff]
  simp only [decide_eq_true_eq]

end Sys2Proof.Machine

section
open Sys2Proof Sys2Proof.Machine

/-- Settles O18: the queue's entries are taken one by one, each once, and the claims given up are read off the table. -/
theorem cancelStopsARunningBatch : Obligations.CancelStopsARunningBatch := by
  refine ⟨?_, fun _ => rfl, fun _ _ => rfl, ?_, ?_, fun t r q => ⟨rfl, mem_unclaim_occ t r, rfl, rfl⟩⟩
  · intro s a c q h hs hp he hn
    have hst : s.seqr.st ≠ .unconfigured := by rcases hs with hs | hs | hs <;> simp [hs]
    let l := landed s (BitVec.ofNat 24 a) (CommandBeat.write 2 c)
    let g := respond q 2 .accepted (handedOver s a 2 c)
    have hplan : (enterCancelling g).plan = (handedOver s a 2 c).plan := by simp [g]
    have hbus : (enterCancelling g).bus = (underGrant s).bus := congrArg Plan.bus hplan
    refine ⟨{ enterCancelling g with bus := l.bus }, ?_, ?_, ?_, ?_, ?_, ?_⟩
    · refine exec_handed (code := 2) (i := .cancel c) (x := 2) (by simp [batchWrites]) h hst rfl ?_
      rw [handCommand_cancel (s := handedOver s a 2 c) hst h.kind h.sequence,
        takeCancel_running (s := handedOver s a 2 c) q hs ((batchOpen_iff s).2 ⟨hp, he⟩), ← hbus]
    · exact congrArg (fun p : Plan => { p with bus := l.bus }) hplan
    · simp [enterCancelling_seqr]
    · simp only [enterCancelling_seqr]; rfl
    · exact enterCancelling_queue (s := g) hn
    · exact (enterCancelling_keepsResponse g).last
  · intro s e st o ho t
    rw [endWaiting_without_code ho, Entry.ended_none]
    refine ⟨fun hk hh => by rw [if_pos ⟨hk, hh⟩], fun hk => ?_⟩
    rw [if_neg]
    rintro ⟨h1, h2⟩
    rcases hk with hk | hk
    · exact hk h1
    · simp [hk] at h2
  · intro s e p q drop
    rw [giveUpClaims_eq]
    exact ⟨fun hk hn ho => by simp only [hk, hn, ho, if_false], fun hk hn ho => by simp only [hk, hn, ho, if_false]; rfl,
      fun hn ho => by simp only [hn, ho]; rfl, fun hk ho => by cases e.newP <;> simp only [hk, ho, if_true]⟩

end

/-! ### Paths removed, and the claims of the check undone (R37, R42, R44, R45, R48) -/

namespace Sys2Proof.Machine

/-! #### A map entry when paths are removed -/

/-- A map entry when a path is removed (R37, R45): owned, it passes to the path pledged there or becomes free; pledged, the pledge goes. -/
def Occ.without (pid : Nat) (o : Occ) : Option Occ :=
  if o.owner = pid then o.pledge.map (fun q => { o with owner := q, pledge := none })
  else if o.pledge = some pid then some { o with pledge := none } else some o

theorem remove_occ (t : ConnTable) (pid : Nat) : (t.remove pid).occ = t.occ.filterMap (Occ.without pid) := rfl

theorem Occ.without_res {pid : Nat} {o x : Occ} (h : o.without pid = some x) : x.res = o.res := by
  unfold Occ.without at h
  split at h
  · obtain ⟨q, -, rfl⟩ := Option.map_eq_some_iff.1 h; rfl
  · split at h <;> (cases h; rfl)

theorem entry_eq_some_iff {t : ConnTable} (h : (t.occ.map (·.res)).Nodup) {x : Res} {o : Occ} :
    t.entry x = some o ↔ o ∈ t.occ ∧ o.res = x := by
  refine ⟨fun he => ⟨List.mem_of_find?_eq_some he, entry_res he⟩, fun ⟨hm, hr⟩ => ?_⟩
  cases he : t.entry x with
  | none => exact absurd hr (by simpa using List.find?_eq_none.1 he o hm)
  | some y => rw [List.inj_on_of_nodup_map h (List.mem_of_find?_eq_some he) hm ((entry_res he).trans hr.symm)]

/-- A change of the entries one by one, each keeping its resource, is made at the entry of every resource. -/
theorem entry_filterMap {t u : ConnTable} (h : (t.occ.map (·.res)).Nodup) {f : Occ → Option Occ} (hf : ∀ o x, f o = some x → x.res = o.res)
    (hu : u.occ = t.occ.filterMap f) (x : Res) : u.entry x = (t.entry x).bind f := by
  have hn : (u.occ.map (·.res)).Nodup := hu ▸ h.sublist (filterMap_res_sublist hf _)
  refine Option.ext fun y => ?_
  rw [entry_eq_some_iff hn, hu, List.mem_filterMap, Option.bind_eq_some_iff]
  constructor
  · rintro ⟨⟨o, ho, hy⟩, hr⟩
    exact ⟨o, (entry_eq_some_iff h).2 ⟨ho, (hf o y hy).symm.trans hr⟩, hy⟩
  · rintro ⟨o, ho, hy⟩
    obtain ⟨hm, hr⟩ := (entry_eq_some_iff h).1 ho
    exact ⟨⟨o, hm, hy⟩, (hf o y hy).trans hr⟩

theorem remove_nodup {t : ConnTable} (h : (t.occ.map (·.res)).Nodup) (pid : Nat) : ((t.remove pid).occ.map (·.res)).Nodup :=
  h.sublist (filterMap_res_sublist (fun _ _ => Occ.without_res) _)

theorem remove_entry {t : ConnTable} (h : (t.occ.map (·.res)).Nodup) (pid : Nat) (x : Res) :
    (t.remove pid).entry x = (t.entry x).bind (Occ.without pid) :=
  entry_filterMap h (fun _ _ => Occ.without_res) rfl x

theorem mem_remove_paths (t : ConnTable) (pid : Nat) (p : Path) : p ∈ (t.remove pid).paths ↔ p ∈ t.paths ∧ p.pid ≠ pid := by
  simp [ConnTable.remove, List.mem_filter]

/-- The table with several paths removed, one after the other. -/
def ConnTable.removeList (t : ConnTable) (l : List Nat) : ConnTable := l.foldl (fun t pid => t.remove pid) t

theorem removeList_paths (t : ConnTable) (l : List Nat) : (t.removeList l).paths = t.paths.filter (fun p => p.pid ∉ l) := by
  induction l generalizing t with
  | nil => simp [ConnTable.removeList]
  | cons a l ih =>
    have h : (t.removeList (a :: l)).paths = ((t.remove a).removeList l).paths := rfl
    rw [h, ih, ConnTable.remove, List.filter_filter]
    exact List.filter_congr fun p _ => by simp [Bool.and_comm]

theorem removeList_done (t : ConnTable) (l : List Nat) : (t.removeList l).done = t.done := by
  induction l generalizing t with
  | nil => rfl
  | cons a l ih => exact ih (t.remove a)

/-- A map entry when several paths are removed, one after the other. -/
def Occ.withoutList (l : List Nat) (o : Option Occ) : Option Occ := l.foldl (fun o pid => o.bind (Occ.without pid)) o

theorem removeList_entry {t : ConnTable} (h : (t.occ.map (·.res)).Nodup) (l : List Nat) (x : Res) :
    (t.removeList l).entry x = Occ.withoutList l (t.entry x) := by
  induction l generalizing t with
  | nil => rfl
  | cons a l ih =>
    have hl : (t.removeList (a :: l)).entry x = ((t.remove a).removeList l).entry x := rfl
    rw [hl, ih (remove_nodup h a), remove_entry h]
    rfl

theorem removeList_nodup {t : ConnTable} (h : (t.occ.map (·.res)).Nodup) (l : List Nat) : ((t.removeList l).occ.map (·.res)).Nodup := by
  induction l generalizing t with
  | nil => exact h
  | cons a l ih => exact ih (remove_nodup h a)

theorem withoutList_none (l : List Nat) : Occ.withoutList l none = none := by
  induction l with
  | nil => rfl
  | cons a l ih => exact ih

/-- An entry whose owner and pledge both stay. -/
theorem withoutList_stays {l : List Nat} {o : Occ} (ho : o.owner ∉ l) (hq : ∀ q, o.pledge = some q → q ∉ l) : Occ.withoutList l (some o) = some o := by
  induction l with
  | nil => rfl
  | cons a l ih =>
    have ha : o.owner ≠ a := fun h => ho (h ▸ List.mem_cons_self)
    have hp : o.pledge ≠ some a := fun h => hq a h List.mem_cons_self
    have hstep : (some o).bind (Occ.without a) = some o := by simp [Occ.without, ha, hp]
    exact (congrArg (Occ.withoutList l) hstep).trans (ih (fun h => ho (List.mem_cons_of_mem _ h)) fun q hs h => hq q hs (List.mem_cons_of_mem _ h))

/-- An entry whose owner stays and whose pledge goes. -/
theorem withoutList_pledge {l : List Nat} {o : Occ} (ho : o.owner ∉ l) (hq : ∀ q, o.pledge = some q → q ∈ l) :
    Occ.withoutList l (some o) = some { o with pledge := none } := by
  induction l with
  | nil =>
    have hn : o.pledge = none := Option.eq_none_iff_forall_ne_some.2 fun q h => absurd (hq q h) List.not_mem_nil
    cases o; cases hn; rfl
  | cons a l ih =>
    have ha : o.owner ≠ a := fun h => ho (h ▸ List.mem_cons_self)
    have hl : o.owner ∉ l := fun h => ho (List.mem_cons_of_mem _ h)
    by_cases hp : o.pledge = some a
    · have hstep : (some o).bind (Occ.without a) = some { o with pledge := none } := by simp [Occ.without, ha, hp]
      exact (congrArg (Occ.withoutList l) hstep).trans (withoutList_stays (o := { o with pledge := none }) hl (by simp))
    · have hstep : (some o).bind (Occ.without a) = some o := by simp [Occ.without, ha, hp]
      refine (congrArg (Occ.withoutList l) hstep).trans (ih hl fun q h => (List.mem_cons.1 (hq q h)).resolve_left ?_)
      rintro rfl
      exact hp h

/-- An entry whose owner goes and whose pledge stays. -/
theorem withoutList_passes {l : List Nat} {o : Occ} {q : Nat} (ho : o.owner ∈ l) (hq : o.pledge = some q) (hql : q ∉ l) :
    Occ.withoutList l (some o) = some { o with owner := q, pledge := none } := by
  induction l with
  | nil => cases ho
  | cons a l ih =>
    have hqa : q ≠ a := fun h => hql (h ▸ List.mem_cons_self)
    have hl : q ∉ l := fun h => hql (List.mem_cons_of_mem _ h)
    by_cases ha : o.owner = a
    · have hstep : (some o).bind (Occ.without a) = some { o with owner := q, pledge := none } := by simp [Occ.without, ha, hq]
      exact (congrArg (Occ.withoutList l) hstep).trans (withoutList_stays (o := { o with owner := q, pledge := none }) hl (by simp))
    · have hstep : (some o).bind (Occ.without a) = some o := by simp [Occ.without, ha, hq, hqa]
      exact (congrArg (Occ.withoutList l) hstep).trans (ih ((List.mem_cons.1 ho).resolve_left ha) hl)

/-- An entry whose owner goes, unpledged. -/
theorem withoutList_frees {l : List Nat} {o : Occ} (ho : o.owner ∈ l) (hq : o.pledge = none) : Occ.withoutList l (some o) = none := by
  induction l with
  | nil => cases ho
  | cons a l ih =>
    by_cases ha : o.owner = a
    · have hstep : (some o).bind (Occ.without a) = none := by simp [Occ.without, ha, hq]
      exact (congrArg (Occ.withoutList l) hstep).trans (withoutList_none l)
    · have hstep : (some o).bind (Occ.without a) = some o := by simp [Occ.without, ha, hq]
      exact (congrArg (Occ.withoutList l) hstep).trans (ih ((List.mem_cons.1 ho).resolve_left ha))

/-- An entry whose owner goes and whose pledge goes with it, held by another path. -/
theorem withoutList_frees_both {l : List Nat} {o : Occ} {q : Nat} (ho : o.owner ∈ l) (hq : o.pledge = some q) (hql : q ∈ l) (hne : q ≠ o.owner) :
    Occ.withoutList l (some o) = none := by
  induction l with
  | nil => cases ho
  | cons a l ih =>
    by_cases ha : o.owner = a
    · have hstep : (some o).bind (Occ.without a) = some { o with owner := q, pledge := none } := by simp [Occ.without, ha, hq]
      have hl : q ∈ l := (List.mem_cons.1 hql).resolve_left fun h => hne (h.trans ha.symm)
      exact (congrArg (Occ.withoutList l) hstep).trans (withoutList_frees (o := { o with owner := q, pledge := none }) hl rfl)
    · have hl : o.owner ∈ l := (List.mem_cons.1 ho).resolve_left ha
      by_cases hqa : q = a
      · have hstep : (some o).bind (Occ.without a) = some { o with pledge := none } := by simp [Occ.without, ha, hq, hqa]
        exact (congrArg (Occ.withoutList l) hstep).trans (withoutList_frees (o := { o with pledge := none }) hl rfl)
      · have hstep : (some o).bind (Occ.without a) = some o := by simp [Occ.without, ha, hq, hqa]
        exact (congrArg (Occ.withoutList l) hstep).trans (ih hl ((List.mem_cons.1 hql).resolve_left hqa))

/-! #### The claims of the check undone -/

/-- The RESERVED paths, which the undo removes (R42). -/
def ConnTable.reservedPids (t : ConnTable) : List Nat := (t.paths.filter (fun p => p.st = .reserved)).map (·.pid)

theorem mem_reservedPids {t : ConnTable} {n : Nat} : n ∈ t.reservedPids ↔ ∃ p ∈ t.paths, p.pid = n ∧ p.st = .reserved := by
  simp only [ConnTable.reservedPids, List.mem_map, List.mem_filter, decide_eq_true_eq]
  exact ⟨fun ⟨p, ⟨hp, hs⟩, hn⟩ => ⟨p, hp, hn, hs⟩, fun ⟨p, hp, hn, hs⟩ => ⟨p, ⟨hp, hs⟩, hn⟩⟩

theorem removeReserved_paths {t : ConnTable} (h : (t.paths.map (·.pid)).Nodup) :
    (t.removeList t.reservedPids).paths = t.paths.filter (fun p => p.st ≠ .reserved) := by
  rw [removeList_paths]
  refine List.filter_congr fun p hp => decide_eq_decide.2 (not_congr ?_)
  rw [mem_reservedPids]
  refine ⟨fun ⟨q, hq, hn, hs⟩ => ?_, fun hs => ⟨p, hp, rfl, hs⟩⟩
  rwa [← List.inj_on_of_nodup_map h hq hp hn]

/-- The ports of adopted claims are freed among the entries that stand when the RESERVED paths are gone (R48). -/
theorem undo_occ (t : ConnTable) : t.undo.occ = (t.removeList t.reservedPids).occ.filter (fun o =>
    !(((t.removeList t.reservedPids).pidsOf (fun p => p.claimed.isSome)).contains o.owner && o.res.isPort)) := rfl

theorem undo_paths (t : ConnTable) : t.undo.paths =
    (t.removeList t.reservedPids).paths.map (fun p => { p with leaving := false, pend := none, claimed := none }) := rfl

theorem undo_done (t : ConnTable) : t.undo.done = t.done := removeList_done t t.reservedPids

/-- Whether the undo frees an entry as the port of an adoption claimed (R48). -/
def ConnTable.freesPort (t : ConnTable) (q : Nat) (x : Res) : Prop :=
  (∃ p ∈ t.paths, p.pid = q ∧ p.st ≠ .reserved ∧ p.claimed ≠ none) ∧ ∃ y, x = .addPort y ∨ x = .dropPort y

theorem claimedPort_iff {t : ConnTable} (h : (t.paths.map (·.pid)).Nodup) (q : Nat) (x : Res) :
    (((t.removeList t.reservedPids).pidsOf (fun p => p.claimed.isSome)).contains q && x.isPort) = true ↔ t.freesPort q x := by
  have hc : (∃ p ∈ t.paths.filter (fun p => p.st ≠ .reserved), p.claimed.isSome = true ∧ p.pid = q) ↔
      ∃ p ∈ t.paths, p.pid = q ∧ p.st ≠ .reserved ∧ p.claimed ≠ none := by
    simp only [List.mem_filter, decide_eq_true_eq, Option.isSome_iff_ne_none]
    exact ⟨fun ⟨p, ⟨hp, hs⟩, hl, hn⟩ => ⟨p, hp, hn, hs, hl⟩, fun ⟨p, hp, hn, hs, hl⟩ => ⟨p, ⟨hp, hs⟩, hl, hn⟩⟩
  rw [Bool.and_eq_true, List.contains_iff_mem, ConnTable.mem_pidsOf, removeReserved_paths h, hc, Res.isPort_iff, ConnTable.freesPort]

/-- What the undo leaves at a map entry: what the removals leave, unless it is a port freed. -/
theorem undo_entry {t : ConnTable} (ho : (t.occ.map (·.res)).Nodup) (x : Res) :
    t.undo.entry x = (Occ.withoutList t.reservedPids (t.entry x)).bind (fun o => if
      (((t.removeList t.reservedPids).pidsOf (fun p => p.claimed.isSome)).contains o.owner && o.res.isPort) = true then none else some o) := by
  rw [← removeList_entry ho]
  refine entry_filterMap (removeList_nodup ho _) (fun o y h => ?_) ?_ x
  · split at h
    · cases h
    · cases h; rfl
  · rw [undo_occ, ← List.filterMap_eq_filter]
    congr 1
    funext o
    simp only [Option.guard_apply, Bool.not_eq_true', ← Bool.not_eq_true]
    split <;> simp_all

/-- An entry that the removals leave, with its owner, is freed by the undo where it is a claimed port and stands otherwise. -/
theorem undo_entry_of {t : ConnTable} (hp : (t.paths.map (·.pid)).Nodup) (ho : (t.occ.map (·.res)).Nodup) {x : Res} {o : Occ} (hx : o.res = x)
    (h : Occ.withoutList t.reservedPids (t.entry x) = some o) :
    (t.freesPort o.owner x → t.undo.entry x = none) ∧ (¬ t.freesPort o.owner x → t.undo.entry x = some o) := by
  rw [undo_entry ho, h, Option.bind_some, hx]
  exact ⟨fun hf => if_pos ((claimedPort_iff hp _ _).2 hf), fun hf => if_neg (mt (claimedPort_iff hp _ _).1 hf)⟩

/-! #### A CANCEL in FETCHING or CHECKING (R61, R183) -/

theorem takeCancel_early {s : State} (q : BitVec 16) (hs : s.seqr.st = .fetching ∨ s.seqr.st = .checking) (ho : batchOpen s = true) :
    takeCancel q s = cancelEarly (respond q 2 .accepted s) := by
  rcases hs with hs | hs <;> simp [takeCancel, hs, ho]

/-- The outcome written for a record of the batch: ABANDONED for every record of a recovery by ABANDON (R183). -/
def Batch.outcome (b : Batch) (c : OutcomeCode) : OutcomeCode := if b.byAbandon then .abandoned else c

theorem writeOutcome_eq (r : RecNo) (c : OutcomeCode) (s : State) : writeOutcome r c s =
    writeCounters (s.batch.counters.count (s.batch.outcome c)) (requestStatus (.outcome r (s.batch.outcome c) s.batch.seq) s) := by
  have hb : (requestStatus (.outcome r (s.batch.outcome c) s.batch.seq) s).batch = s.batch := by simp
  cases h : s.batch.recovery with
  | none => simp [writeOutcome, Batch.outcome, Batch.byAbandon, h]
  | some x =>
    obtain ⟨a, b⟩ := x
    cases a <;> simp [writeOutcome, Batch.outcome, Batch.byAbandon, h]

theorem writeCounters_asks (c : Counters) (s : State) : AsksOutcomes s (writeCounters c s) :=
  AsksOutcomes.trans (t := { s with batch := { s.batch with counters := c } }) ⟨rfl, List.prefix_refl _⟩ (requestStatus_asks _ _)

theorem writeOutcome_asked {s : State} (r : RecNo) (c : OutcomeCode) (hm : s.win.map.isSome = true) :
    PortReq.outcome r (s.batch.outcome c) s.batch.seq ∈ (writeOutcome r c s).port := by
  rw [writeOutcome_eq]
  exact (writeCounters_asks _ _).2.subset (by simp [hm])

theorem count_total (k : Counters) (c : OutcomeCode) : (k.count c).total = k.total := by cases c <;> rfl

theorem writeOutcome_total (r : RecNo) (c : OutcomeCode) (s : State) : (writeOutcome r c s).batch.counters.total = s.batch.counters.total := by
  rw [writeOutcome_eq, writeCounters_counters, count_total]

/-- What reporting a batch cancelled before its run asks for: an outcome for each listed record, and counters of the whole list (R61). -/
theorem reportCancelled_asks (s : State) : AsksOutcomes s (reportCancelled s) ∧ (reportCancelled s).batch.counters.total = s.batch.list.length ∧
    (s.win.map.isSome = true → ∀ b ∈ s.batch.list, PortReq.outcome b.no (s.batch.outcome .cancelled) s.batch.seq ∈ (reportCancelled s).port) := by
  unfold reportCancelled
  simp only
  split
  · next h => exact ⟨writeCounters_asks _ _, by simp, fun _ b hb => by simp [List.isEmpty_iff.1 h] at hb⟩
  · let s' : State := { s with batch := { s.batch with counters := { Counters.zero with total := s.batch.list.length } } }
    have hz : AsksOutcomes s s' := ⟨rfl, List.prefix_refl _⟩
    have hstep (t : State) (b : BatchRec) : AsksOutcomes t (writeOutcome b.no .cancelled t) := writeOutcome_asks ..
    refine ⟨hz.trans (AsksOutcomes.foldl hstep _ _), ?_, fun hm b hb => ?_⟩
    · exact List.foldlRecOn (motive := fun t : State => t.batch.counters.total = s.batch.list.length) _ _ rfl
        fun t ht b _ => (writeOutcome_total ..).trans ht
    · obtain ⟨t, ht, hsub⟩ := AsksOutcomes.foldl_asks hstep hb s'
      refine hsub ?_
      have hasked := writeOutcome_asked (s := t) b.no .cancelled (by rw [ht.1]; exact hm)
      rw [ht.1] at hasked
      rw [ht.1]
      exact hasked

/-- The batch's records return to the Touched Set, but in a recovery by ABANDON (R57, R183). -/
theorem returnTouched_eq (s : State) : returnTouched s =
    { s with touched := if s.batch.byAbandon then s.touched else s.batch.list.foldl (fun x b => joinSet b.no x) s.touched } := by
  cases h : s.batch.recovery with
  | none => simp [returnTouched, Batch.byAbandon, h, foldl_touch_eq]
  | some x =>
    obtain ⟨a, b⟩ := x
    cases a <;> simp [returnTouched, Batch.byAbandon, h, foldl_touch_eq]

theorem undoBatch_eq (s : State) : ∃ l, undoBatch s = { s with
    port := l, holds := { s.holds with fetch := none }, table := s.table.undo
    touched := if s.batch.byAbandon then s.touched else s.batch.list.foldl (fun x b => joinSet b.no x) s.touched } :=
  ⟨_, returnTouched_eq _⟩

theorem cancelEarly_ends (s : State) : cancelEarly s =
    endBatch (if s.batch.byAbandon then .abandoned else .cancelled) (reportCancelled (undoBatch s)) := by
  have hb : (reportCancelled (undoBatch s)).batch.recovery = s.batch.recovery := by
    obtain ⟨l, hl⟩ := undoBatch_eq s
    rw [(reportCancelled_asks _).1.1, hl]
  unfold cancelEarly
  simp only [hb]
  cases h : s.batch.recovery with
  | none => simp [Batch.byAbandon, h]
  | some x =>
    obtain ⟨a, b⟩ := x
    cases a <;> simp [Batch.byAbandon, h]

/-- What a CANCEL before the run leaves (R61, R183; log 54). -/
theorem cancelEarly_fields (s : State) :
    (cancelEarly s).table = s.table.undo ∧ (cancelEarly s).holds = { s.holds with fetch := none } ∧ (cancelEarly s).batch.ending = true ∧
    (cancelEarly s).batch.counters.total = s.batch.list.length ∧
    (s.win.map.isSome = true → ∀ b ∈ s.batch.list, PortReq.outcome b.no (s.batch.outcome .cancelled) s.batch.seq ∈ (cancelEarly s).port) ∧
    (cancelEarly s).touched = (if s.batch.byAbandon then s.touched else s.batch.list.foldl (fun x b => joinSet b.no x) s.touched) ∧
    (cancelEarly s).port.getLast? = some (.endState { st := if s.batch.byAbandon then .abandoned else .cancelled, seq := s.batch.seq }) := by
  obtain ⟨l, hl⟩ := undoBatch_eq s
  obtain ⟨hasks, htotal, hgave⟩ := reportCancelled_asks (undoBatch s)
  rw [hl] at hgave htotal
  have hv := hasks.1
  rw [cancelEarly_ends]
  refine ⟨?_, ?_, rfl, ?_, fun hm b hb => List.mem_append_left _ ?_, ?_, ?_⟩
  · rw [endBatch, hv, hl]; rfl
  · rw [endBatch, hv, hl]; rfl
  · rw [hl]; exact htotal
  · rw [hl]; exact hgave hm b hb
  · rw [endBatch, hv, hl]; rfl
  · rw [endBatch, hv, hl]; simp [request]

end Sys2Proof.Machine

section
open Sys2Proof Sys2Proof.Machine

/-- Settles O19: the CANCEL's effects in the order of R61, and the undo map entry by map entry. -/
theorem cancelEndsAnUncheckedBatch : Obligations.CancelEndsAnUncheckedBatch := by
  refine ⟨?_, ?_⟩
  · intro s a c q h hs hp he gave
    have hst : s.seqr.st ≠ .unconfigured := by rcases hs with hs | hs <;> simp [hs]
    let l := landed s (BitVec.ofNat 24 a) (CommandBeat.write 2 c)
    let g := respond q 2 .accepted (handedOver s a 2 c)
    have hplan : (cancelEarly g).plan = (handedOver s a 2 c).plan := by simp [g]
    have hbus : (cancelEarly g).bus = (underGrant s).bus := congrArg Plan.bus hplan
    obtain ⟨htable, hholds, hending, htotal, hgave, htouched, hlast⟩ := cancelEarly_fields g
    refine ⟨{ cancelEarly g with bus := l.bus }, ?_, ?_, htable, hholds, hending, htotal, (cancelEarly_keepsResponse g).last, fun hr => ?_,
      fun x hx hab => ?_⟩
    · refine exec_handed (code := 2) (i := .cancel c) (x := 2) (by simp [batchWrites]) h hst rfl ?_
      rw [handCommand_cancel (s := handedOver s a 2 c) hst h.kind h.sequence,
        takeCancel_early (s := handedOver s a 2 c) q hs ((batchOpen_iff s).2 ⟨hp, he⟩), ← hbus]
    · exact congrArg (fun p : Plan => { p with bus := l.bus }) hplan
    · have hb : g.batch.byAbandon = false := byAbandon_eq_false hr
      simp only [Batch.outcome, hb, Bool.false_eq_true, if_false] at hgave htouched hlast
      exact ⟨hgave, fun r => by rw [htouched, mem_foldl_joinSet]; rfl, hlast⟩
    · have hb : g.batch.byAbandon = true := byAbandon_eq_true hx hab
      simp only [Batch.outcome, hb, if_true] at hgave htouched hlast
      exact ⟨hgave, htouched, hlast⟩
  · intro t hp ho gone freed
    refine ⟨by rw [undo_paths, removeReserved_paths hp], undo_done t, fun x hx => ?_, fun x o hx => ⟨fun hg => ?_, fun hg => ?_⟩⟩
    · rw [undo_entry ho, hx, withoutList_none]; rfl
    · have hl : o.owner ∉ t.reservedPids := mt mem_reservedPids.1 hg
      have hres := entry_res hx
      refine ⟨fun hf => ?_, fun hf hq => ?_, fun hf hq => ?_⟩
      · have hn : ∃ o', Occ.withoutList t.reservedPids (some o) = some o' ∧ o'.owner = o.owner ∧ o'.res = x := by
          by_cases hq : ∃ q, o.pledge = some q ∧ q ∉ t.reservedPids
          · obtain ⟨q, hq, hql⟩ := hq
            exact ⟨o, withoutList_stays hl (by simpa [hq] using hql), rfl, hres⟩
          · push Not at hq
            exact ⟨_, withoutList_pledge hl hq, rfl, hres⟩
        obtain ⟨o', hw, how, hr⟩ := hn
        exact (undo_entry_of hp ho hr (hx ▸ hw)).1 (how ▸ hf)
      · exact (undo_entry_of (o := { o with pledge := none }) hp ho hres
          (hx ▸ withoutList_pledge hl fun q h => mem_reservedPids.2 (hq q h))).2 hf
      · exact (undo_entry_of hp ho hres (hx ▸ withoutList_stays hl fun q h => mt mem_reservedPids.1 (hq q h))).2 hf
    · have hl : o.owner ∈ t.reservedPids := mem_reservedPids.2 hg
      refine ⟨fun hq => ?_, fun q hq hnq hf => ?_⟩
      · have hw : Occ.withoutList t.reservedPids (some o) = none := by
          cases hq' : o.pledge with
          | none => exact withoutList_frees hl hq'
          | some q => exact withoutList_frees_both hl hq' (mem_reservedPids.2 (hq q hq').1) (hq q hq').2
        rw [undo_entry ho, hx, hw]; rfl
      · exact (undo_entry_of (o := { o with owner := q, pledge := none }) hp ho (show o.res = x from entry_res hx)
          (hx ▸ withoutList_passes hl hq (mt mem_reservedPids.1 hnq))).2 hf

end

/-! ### A transaction begins in order (R129, R132, R133, R39, R40) -/

namespace Sys2Proof.Machine

theorem urgentMaySend_iff (s : State) (c : ActCmd) :
    urgentMaySend s c = true ↔ s.seqr.st ≠ .rebuilding ∧ (s.start.powerdown = false ∨ c.req = .squelch) := by
  simp [urgentMaySend, and_comm]

theorem ordinaryMaySend_iff (s : State) (c : ActCmd) :
    ordinaryMaySend s c = true ↔ s.start.powerdown = false ∧ s.act.refresh = none ∧
      (c.kind = .read ∨ (s.act.mods.get c.module = .online ∧ s.seqr.st ≠ .rebuilding)) := by
  simp only [ordinaryMaySend, Bool.and_eq_true, Bool.or_eq_true, Bool.not_eq_true', Option.isNone_iff_eq_none, decide_eq_true_eq]
  tauto

theorem refusesOrdinary_iff (s : State) (c : ActCmd) :
    (isFaulted s c.module && decide (c.kind ≠ .read)) = true ↔ s.act.mods.get c.module = .faulted ∧ c.kind ≠ .read := by
  simp [isFaulted]

theorem handOrdinary_refuses {s : State} {c : ActCmd} (hm : s.act.mods.get c.module = .faulted) (hk : c.kind ≠ .read) :
    handOrdinary c s = none :=
  if_pos ((refusesOrdinary_iff s c).2 ⟨hm, hk⟩)

/-- A command that is not refused takes a place where one is free and nothing waits. -/
theorem handOrdinary_taken {s : State} {c : ActCmd} (hm : s.act.mods.get c.module ≠ .faulted ∨ c.kind = .read)
    (hl : s.act.ordinary.length < 24) (hw : s.act.wait = []) : handOrdinary c s = some (queueOrdinary c s) := by
  have hr : ¬ (isFaulted s c.module && decide (c.kind ≠ .read)) = true := by rw [refusesOrdinary_iff]; tauto
  rw [handOrdinary, if_neg hr, if_pos (by simp [hl, hw])]

/-- A command on the place wait list. -/
def joinWait (c : ActCmd) (s : State) : State := { s with act := { s.act with wait := s.act.wait ++ [c] } }

section
variable {s : State} {c : ActCmd} (hm : s.act.mods.get c.module ≠ .faulted ∨ c.kind = .read) (hp : 24 ≤ s.act.ordinary.length ∨ s.act.wait ≠ [])
include hm hp

theorem mustWait : ¬ (isFaulted s c.module && decide (c.kind ≠ .read)) = true ∧ ¬ (s.act.ordinary.length < 24 && s.act.wait.isEmpty) = true := by
  refine ⟨by rw [refusesOrdinary_iff]; tauto, ?_⟩
  simp only [Bool.and_eq_true, decide_eq_true_eq, List.isEmpty_iff]
  rintro ⟨hl, hw⟩
  exact hp.elim (Nat.not_le.2 hl) (fun h => h hw)

/-- An engine's command that finds no place waits. -/
theorem handOrdinary_waits_engine {e : EngineNo} {g : Nat} {o : EngOwner} (hq : c.req = .engine e g o) :
    handOrdinary c s = some (updateEngine e (fun x => { x with cmd := .waiting }) (joinWait c s)) := by
  simp only [handOrdinary, if_neg (mustWait hm hp).1, if_neg (mustWait hm hp).2, hq, joinWait]

theorem handOrdinary_waits (hq : ∀ e g o, c.req ≠ .engine e g o) : handOrdinary c s = some (joinWait c s) := by
  simp only [handOrdinary, if_neg (mustWait hm hp).1, if_neg (mustWait hm hp).2]
  cases hc : c.req with
  | engine e g o => exact absurd hc (hq e g o)
  | _ => rfl

end

theorem buildFrame_unbuilt {s : State} {c : ActCmd} (hc : c.built = false) :
    buildFrame s c = { c with vals := imageRange s c.module c.start c.count, built := true } := by
  simp [buildFrame, hc]

theorem imageRange_length (s : State) (o : OutPoint) (start count : Nat) : (imageRange s o start count).length = count := by
  simp [imageRange]

theorem imageRange_getElem? (s : State) (o : OutPoint) {start count i : Nat} {n : Slot} (hi : i < count) (hn : start + i = n.val) :
    (imageRange s o start count)[i]? = some (s.setting o n) := by
  have hs : (⟨(start + i) % 64, Nat.mod_lt _ (by decide)⟩ : Slot) = n := Fin.ext (by simp only [hn]; exact Nat.mod_eq_of_lt n.isLt)
  simp [imageRange, hi, hs]

theorem buildFrame_built {s : State} {c : ActCmd} (hc : c.built = true) : buildFrame s c = c := if_pos hc

theorem setting_of_owner {s : State} {o : OutPoint} {n : Slot} {x : Occ} {p : Path} (hx : s.table.entry (.out o n) = some x)
    (hp : s.path? x.owner = some p) :
    s.setting o n = if p.route = .source then { input := p.src.input, att := p.att } else fillOf s.win.cfg o := by
  have ho : s.table.ownerOf o n = some p := by simp only [ConnTable.ownerOf, hx]; exact hp
  simp only [State.setting, ho]

theorem setting_of_free {s : State} {o : OutPoint} {n : Slot} (hx : s.table.entry (.out o n) = none) : s.setting o n = fillOf s.win.cfg o := by
  have ho : s.table.ownerOf o n = none := by simp only [ConnTable.ownerOf, hx]
  simp only [State.setting, ho]

theorem hasImage_iff (s : State) :
    s.hasImage = true ↔ s.win.cfg ≠ none ∧ (s.start.stage = .none ∨ s.start.stage = .rewrite ∨ s.start.stage = .compare) := by
  have hstage : ∀ g : Stage, ([.anchor, .profiles, .active, .save, .readback, .adopt] : List Stage).contains g = false ↔
      g = .none ∨ g = .rewrite ∨ g = .compare := by intro g; cases g <;> decide
  simp only [State.hasImage, Bool.and_eq_true, Bool.not_eq_true', hstage, Option.isSome_iff_ne_none]

/-- An urgent frame that may be sent goes first. -/
theorem beginTransaction_urgent {s : State} {c : ActCmd} (ht : s.act.txn = none) (hu : s.act.urgent.find? (urgentMaySend s) = some c) :
    beginTransaction s = { s with act := { s.act with
      urgent := s.act.urgent.erase c, txn := some (beginAttempt (buildFrame s c) 1) } } := by
  simp [beginTransaction, chooseFrame, ht, hu]

theorem beginTransaction_ordinary {s : State} {c : ActCmd} (ht : s.act.txn = none) (hu : s.act.urgent.find? (urgentMaySend s) = none)
    (ho : s.act.ordinary.find? (ordinaryMaySend s) = some c) :
    beginTransaction s = { s with act := { s.act with
      ordinary := s.act.ordinary.erase c, txn := some (beginAttempt (buildFrame s c) 1) } } := by
  simp [beginTransaction, chooseFrame, ht, hu, ho]

theorem beginTransaction_nothing {s : State} (hu : s.act.urgent.find? (urgentMaySend s) = none)
    (ho : s.act.ordinary.find? (ordinaryMaySend s) = none) : beginTransaction s = s := by
  simp [beginTransaction, chooseFrame, hu, ho]

/-- How long a frame is on the line does not change when its values are fixed. -/
theorem beginAttempt_buildFrame (s : State) (c : ActCmd) :
    beginAttempt (buildFrame s c) 1 =
      { cmd := buildFrame s c, attempt := 1, sendLeft := Config.actFrameTicks c.kind c.count, timer := 200 } := by
  cases hb : c.built
  · simp [beginAttempt, buildFrame_unbuilt hb]
  · simp [beginAttempt, buildFrame_built hb]

theorem exec_transactionBegin {s : State} (hs : Awake s) : exec .transactionBegin s = settled (beginTransaction (fresh s)) :=
  event_awake hs _

end Sys2Proof.Machine

section
open Sys2Proof Sys2Proof.Machine

/-- Settles O36: each rule of the queue by the lemma about its function, and a begin by what the port chooses. -/
theorem transactionBeginsInOrder : Obligations.TransactionBeginsInOrder := by
  refine ⟨fun s c => ⟨urgentMaySend_iff s c, ordinaryMaySend_iff s c⟩, fun s c => ⟨handOrdinary_refuses, fun hm => ⟨handOrdinary_taken hm, ?_⟩⟩,
    fun s => ⟨fun hw => by simp [placeWaiting, hw], fun c rest hw => ⟨fun hl => ?_, fun hl => ?_⟩⟩, ?_,
    fun s c => ⟨buildFrame_built, fun hc => ?_⟩, fun s o n => ⟨?_, ?_, setting_of_free, hasImage_iff s, ?_, ?_⟩,
    fun c d g => ⟨rfl, fun hf => by simp [fillOf, hf], fun hf => by simp [fillOf, hf]⟩, fun s hs ht => ⟨?_, ?_, ?_⟩⟩
  · intro hp t
    exact ⟨fun e g o hq => handOrdinary_waits_engine hm hp hq, handOrdinary_waits hm hp⟩
  · simp [placeWaiting, hw, Nat.not_lt.2 hl]
  · simp [placeWaiting, hw, hl]
  · intro s c t
    refine ⟨?_, ?_, ?_, ?_⟩
    · rintro r pid (hq | hq) <;> simp only [queueOrdinary, onQueued, hq] <;> rfl
    · rintro r pid u (hq | hq) hu <;> cases u <;> simp_all [queueOrdinary, onQueued, t]
    · intro e g o hq
      refine ⟨fun hf hg => ?_, fun hf => ?_⟩
      · exact onQueued_engine (s := t) hq hf hg
      · simp only [queueOrdinary, onQueued, hq]
        exact if_neg (by simp only [Bool.and_eq_true, decide_eq_true_eq]; tauto)
    · rintro (hq | hq | hq | hq | ⟨pid, hq⟩) <;> simp only [queueOrdinary, onQueued, hq] <;> rfl
  · rw [buildFrame_unbuilt hc]
    exact ⟨rfl, imageRange_length .., fun i n hi hn => imageRange_getElem? s c.module hi hn⟩
  · intro x p hx hp hr
    rw [setting_of_owner hx hp, if_pos hr]
  · intro x p hx hp hr
    rw [setting_of_owner hx hp, if_neg (by simp [hr])]
  · intro h; simp [State.image, h]
  · intro h; simp [State.image, h]
  · intro c hu
    rw [exec_transactionBegin hs, beginTransaction_urgent (s := fresh s) ht hu, beginAttempt_buildFrame]
    rfl
  · intro c hu ho
    rw [exec_transactionBegin hs, beginTransaction_ordinary (s := fresh s) ht hu ho, beginAttempt_buildFrame]
    rfl
  · intro hu ho
    rw [exec_transactionBegin hs, beginTransaction_nothing (s := fresh s) hu ho]

end

/-! ### An accepted ACK to a ROUTE (R131) -/

namespace Sys2Proof.Machine

theorem path?_updatePath_none {s : State} {pid : Nat} {f : Path → Path} (hf : ∀ q, (f q).pid = q.pid) (hp : s.path? pid = none) :
    (updatePath pid f s).path? pid = none := by
  have hall : ∀ q ∈ s.table.paths, ¬ decide (q.pid = pid) = true := List.find?_eq_none.1 hp
  refine List.find?_eq_none.2 fun q hq => ?_
  obtain ⟨a, ha, rfl⟩ := List.mem_map.1 hq
  have hne := hall a ha
  split
  · rw [hf]; exact hne
  · exact hne

theorem connectApplied_pid (p : Path) : (connectApplied p).pid = p.pid := by
  unfold connectApplied; split <;> rfl

section
variable {c : ActCmd} {s : State} {r : RecNo} {pid : Nat} {p : Path}

/-- A ROUTE of the port itself asks nothing more of its requester. -/
theorem routeApplied_own (h : c.req = .squelch ∨ c.req = .fillChange) : routeApplied c s = s := by
  rcases h with h | h <;> simp only [routeApplied, h]

theorem routeApplied_gone (h : c.req = .gone pid) :
    routeApplied c s = updatePath pid (fun p => { p with att := ((c.vals.head?).map (·.att)).getD .block }) s := by
  cases hv : c.vals <;> simp [routeApplied, h, hv]

theorem routeApplied_removed {k : RouteUse} (h : c.req = .entry r pid k) (hp : s.path? pid = none) : routeApplied c s = s := by
  cases k <;> simp [routeApplied, h, hp]

theorem routeApplied_connect (h : c.req = .entry r pid .connect) (hp : s.path? pid = some p) :
    routeApplied c s = if standsOn (updatePath pid connectApplied s) r pid .connect then stepDone r (updatePath pid connectApplied s)
      else updatePath pid connectApplied s := by
  simp [routeApplied, h, hp]

theorem routeApplied_disconnect (h : c.req = .entry r pid .disconnect) (hp : s.path? pid = some p)
    (hd : standsOn s r pid .disconnect = true) :
    routeApplied c s = disconnected r { s with table := s.table.remove pid } := by
  simp [routeApplied, h, hp, hd, disconnectApplied]

/-- A path that an acknowledged DISCONNECT keeps, SQUELCHED (R46). -/
def keepSquelched (pid : Nat) (a : Att) (s : State) : State :=
  updatePath pid (fun p => { p with st := .squelched, route := .fill, squelched := false, rerouting := false, att := a }) s

theorem routeApplied_disconnectKeep (h : c.req = .entry r pid .disconnectKeep) (hp : s.path? pid = some p)
    (hd : standsOn s r pid .disconnect = true) :
    routeApplied c s = disconnected r (keepSquelched pid (((c.vals.head?).map (·.att)).getD .block) s) := by
  cases hv : c.vals <;> simp [routeApplied, h, hv, hp, hd, disconnectApplied, keepSquelched]

theorem routeApplied_restoreConnect {y : Restore} (h : c.req = .restore r pid .connect) (hp : (updatePath pid connectApplied s).path? pid = some p)
    (hy : s.restore? r = some y) (hpid : y.pid = pid) (hstep : y.step = .connect) :
    routeApplied c s = presentRequest r true p .rampUp (setRestoreStep r .rampUp (updatePath pid connectApplied s)) := by
  have hstays : s.path? pid ≠ none := fun hn => by simp [path?_updatePath_none connectApplied_pid hn] at hp
  have hy' : (updatePath pid connectApplied s).restore? r = some y := hy
  simp [routeApplied, h, Option.isNone_iff_eq_none, hstays, hp, hy', hpid, hstep]

theorem routeApplied_restoreKeep {y : Restore} (h : c.req = .restore r pid .disconnectKeep) (hy : s.restore? r = some y)
    (hpid : y.pid = pid) (hstep : y.step = .disconnect) :
    routeApplied c s = endRestore r (keepSquelched pid (((c.vals.head?).map (·.att)).getD .block) s) := by
  cases hv : c.vals <;> simp [routeApplied, h, hv, hy, hpid, hstep, disconnectApplied, keepSquelched]

end

section
variable {s : State} {x : Txn} {h : ReplyHead}

/-- What an accepted ACK to a ROUTE makes at once: the transaction is over and the cells of its range are cleared (R125, R131). -/
def routeCleared (x : Txn) (s : State) : State :=
  clearCells x.cmd.module x.cmd.start x.cmd.count { s with act := { s.act with txn := none } }

theorem exec_routeAck (ha : Awake s) (hx : s.act.txn = some x) (hj : Judged x h) (hk : x.cmd.kind = .route) :
    exec (.routeAck h) s = settled (if x.cmd.req = .refresh then refreshBurst x.cmd.module .atten (routeCleared x (fresh s))
      else routeApplied x.cmd (routeCleared x (fresh s))) := by
  rw [exec, execRouteAck, event_awake ha, ← hk, ackArrives_accepted (s := fresh s) hx hj]
  simp only [ackAccepted, hk, routeCleared]

theorem exec_routeAck_applied (ha : Awake s) (hx : s.act.txn = some x) (hj : Judged x h) (hk : x.cmd.kind = .route) (hr : x.cmd.req ≠ .refresh) :
    exec (.routeAck h) s = settled (routeApplied x.cmd (routeCleared x (fresh s))) := by
  rw [exec_routeAck ha hx hj hk, if_neg hr]

end

section
variable {s : State} {r : RecNo} {e : Entry}

theorem disconnected_reversing (he : s.entry? r = some e) (hr : e.reversing = true) : disconnected r s = finishEntry r .abandoned false s := by
  simp [disconnected, he, hr, Entry.failedState]

theorem disconnected_rolledBack (he : s.entry? r = some e) (hr : e.reversing = false) (hst : e.st = .rollingBack) :
    disconnected r s = finishEntry r .failed false s := by
  simp [disconnected, he, hr, hst, Entry.failedState]

/-- A REMOVE is DONE where its path is gone. -/
theorem disconnected_done (he : s.entry? r = some e) (hr : e.reversing = false) (hst : e.st ≠ .rollingBack) (hk : e.kind ≠ .move) :
    disconnected r s = finishEntry r .done false s := by
  simp [disconnected, he, hr, hst, hk]

section
variable (he : s.entry? r = some e) (hr : e.reversing = false) (hst : e.st ≠ .rollingBack) (hk : e.kind = .move)
include he hr hst hk

theorem disconnected_void {code : FailCode} (hv : e.void = some code) : disconnected r s = finishEntry r .failed false (takeCode r code s) := by
  simp [disconnected, he, hr, hst, hk, hv]

theorem disconnected_cancelling (hv : e.void = none) (hc : s.seqr.st = .cancelling) : disconnected r s = finishEntry r .cancelled false s := by
  simp [disconnected, he, hr, hst, hk, hv, hc]

/-- A MOVE whose old half is released goes on to its new half. -/
theorem disconnected_onward (hv : e.void = none) (hc : s.seqr.st ≠ .cancelling) :
    disconnected r s = updateEntry r (fun e => { e with st := .waiting, half := .new, chain := [] }) s := by
  simp [disconnected, he, hr, hst, hk, hv, hc]

end
end

end Sys2Proof.Machine

section
open Sys2Proof Sys2Proof.Machine

/-- Settles O37: the accepted ACK by its requester, the table without a path, and the end of an entry's DISCONNECT by its cases. -/
theorem routeAckRoutesThePath : Obligations.RouteAckRoutesThePath := by
  refine ⟨?_, fun t pid => ⟨mem_remove_paths t pid, fun hn x o ho => ?_⟩, fun s r e he => ⟨disconnected_reversing he, disconnected_rolledBack he,
    fun hr hst => ⟨disconnected_done he hr hst, fun c hk => disconnected_void he hr hst hk, disconnected_cancelling he hr hst,
      disconnected_onward he hr hst⟩⟩⟩
  · intro s x h ha hx hc hm hl hk t u kept
    have happlied := exec_routeAck_applied ha hx ⟨hc, hm, hl⟩ hk
    refine ⟨fun hq => ?_, fun hq => ?_, fun pid hq => ?_, fun r pid p hq hp => ?_, fun r pid k hq hp => ?_, fun r pid p hq hp hd => ?_,
      fun r pid p hq hp hd => ?_, fun r pid p y hq hp hy hpid hstep => ?_, fun r pid y hq hy hpid hstep => ?_⟩
    · rw [happlied (by rcases hq with hq | hq <;> simp [hq]), routeApplied_own hq]; rfl
    · rw [exec_routeAck ha hx ⟨hc, hm, hl⟩ hk, if_pos hq]; rfl
    · rw [happlied (by simp [hq]), routeApplied_gone hq]; rfl
    · rw [happlied (by simp [hq]), routeApplied_connect (s := routeCleared x (fresh s)) hq hp]; rfl
    · rw [happlied (by simp [hq]), routeApplied_removed (s := routeCleared x (fresh s)) hq hp]; rfl
    · rw [happlied (by simp [hq]), routeApplied_disconnect (s := routeCleared x (fresh s)) hq hp hd]; rfl
    · rw [happlied (by simp [hq]), routeApplied_disconnectKeep (s := routeCleared x (fresh s)) hq hp hd]; rfl
    · rw [happlied (by simp [hq]), routeApplied_restoreConnect (s := routeCleared x (fresh s)) hq hp hy hpid hstep]; rfl
    · rw [happlied (by simp [hq]), routeApplied_restoreKeep (s := routeCleared x (fresh s)) hq hy hpid hstep]; rfl
  · rw [remove_entry hn, ho]; rfl

end

/-! ### A batch's phases (R79, R80, R81, R95) -/

namespace Sys2Proof.Machine

/-! #### The acts that follow by themselves -/

theorem findSome?_apply_cons {α β : Type} (f : α → Option β) (l : List (α → Option β)) (a : α) :
    (f :: l).findSome? (fun g => g a) = (f a).or (l.findSome? fun g => g a) := by
  cases h : f a <;> simp [h]

theorem settleStep_eq (s : State) : settleStep s =
    [buildCapture, releaseBeat, placeWaiting, grantStep, continueCheck, pumpBatch, refreshEnded, beginRestore].findSome? (fun f => f s) := by
  simp only [findSome?_apply_cons, List.findSome?_nil, Option.or_none, settleStep, Option.orElse_eq_orElse, Option.orElse_eq_or]

/-! #### The sequencer's own act -/

theorem phaseEnded_iff (s : State) : phaseEnded s = true ↔ ∀ e ∈ s.queue, e.st.finished = true ∨ e.phase ≠ s.batch.phase := by
  simp [phaseEnded]

theorem waiting_unfinished {e : Entry} (h : e.st = .waiting) : e.st.finished = false := by rw [h]; rfl

section
variable {s : State} (hp : s.batch.present = true) (he : s.batch.ending = false) (hw : s.batch.work = .run) (hd : s.start.powerdown = false)
include hp he hw hd

theorem pumpBatch_cancelling (hs : s.seqr.st = .cancelling) : pumpBatch s = if inProgress s = 0 then some (endBatch (runEndState s) s) else none := by
  simp [pumpBatch, hp, he, hw, hd, hs, SeqState.isRun]

/-- In the other run states: the end of a batch that never ran, the end of a phase, an entry's begin, HELD. -/
theorem pumpBatch_running (hs : s.seqr.st = .running ∨ s.seqr.st = .holding ∨ s.seqr.st = .held) : pumpBatch s =
    if s.batch.phase = 0 ∧ ∀ e ∈ s.queue, e.st.finished = true then some (endBatch (runEndState s) s)
    else if phaseEnded s = true ∧ s.batch.phase ≠ 0 then
      if s.batch.phase < 3 then some { s with batch := { s.batch with phase := s.batch.phase + 1 } } else some (endBatch (runEndState s) s)
    else if s.seqr.st = .running ∧ inProgress s < 8 then
      if s.batch.lossStop = true then none
      else (s.queue.find? (fun e => e.st = .waiting && e.phase = s.batch.phase)).map (fun e => beginEntry e s)
    else if s.seqr.st = .holding ∧ inProgress s = 0 then some (enterState .held .held s)
    else none := by
  rcases hs with hs | hs | hs <;> simp [pumpBatch, hp, he, hw, hd, hs, SeqState.isRun]

variable (hs : s.seqr.st = .running ∨ s.seqr.st = .holding ∨ s.seqr.st = .held)
include hs

theorem pumpBatch_phaseOver (h1 : 1 ≤ s.batch.phase) (hall : ∀ e ∈ s.queue, e.st.finished = true ∨ e.phase ≠ s.batch.phase) : pumpBatch s =
    if s.batch.phase < 3 then some { s with batch := { s.batch with phase := s.batch.phase + 1 } } else some (endBatch (runEndState s) s) := by
  have h0 : s.batch.phase ≠ 0 := Nat.one_le_iff_ne_zero.1 h1
  rw [pumpBatch_running hp he hw hd hs, if_neg (fun h => h0 h.1), if_pos ⟨(phaseEnded_iff s).2 hall, h0⟩]

/-- A batch that never ran ends when its entries have ended (log 48). -/
theorem pumpBatch_neverRan (h0 : s.batch.phase = 0) (hall : ∀ e ∈ s.queue, e.st.finished = true) :
    pumpBatch s = some (endBatch (runEndState s) s) := by
  rw [pumpBatch_running hp he hw hd hs, if_pos ⟨h0, hall⟩]

/-- An entry not yet finished in the current phase leaves the begin of the next, or HELD. -/
theorem pumpBatch_phaseOpen {e : Entry} (hm : e ∈ s.queue) (hf : e.st.finished = false) (hph : e.phase = s.batch.phase ∨ s.batch.phase = 0) :
    pumpBatch s = if s.seqr.st = .running ∧ inProgress s < 8 then
      if s.batch.lossStop = true then none
      else (s.queue.find? (fun e => e.st = .waiting && e.phase = s.batch.phase)).map (fun e => beginEntry e s)
    else if s.seqr.st = .holding ∧ inProgress s = 0 then some (enterState .held .held s)
    else none := by
  have hopen : ¬ ∀ e ∈ s.queue, e.st.finished = true := fun h => by simp [h e hm] at hf
  have hphase : ¬ (phaseEnded s = true ∧ s.batch.phase ≠ 0) := fun ⟨h, h0⟩ => by
    rcases (phaseEnded_iff s).1 h e hm with h | h
    · simp [h] at hf
    · exact h (hph.resolve_right h0)
  rw [pumpBatch_running hp he hw hd hs, if_neg (fun h => hopen h.2), if_neg hphase]

end

section
variable {s : State}

theorem runEndState_abandoned (h : s.batch.abandon = true ∨ ∃ x, s.batch.recovery = some x ∧ x.abandon = true) : runEndState s = .abandoned := by
  rcases h with h | ⟨x, hx, h⟩
  · simp [runEndState, h]
  · simp [runEndState, hx, h]

theorem runEndState_other (ha : s.batch.abandon = false) (hr : ∀ x, s.batch.recovery = some x → x.abandon = false) :
    runEndState s = if s.seqr.st = .cancelling then .cancelled
      else if s.batch.counters.rejected = 0 ∧ s.batch.counters.failed = 0 then .done else .doneWithFailures := by
  cases h : s.batch.recovery with
  | none => simp [runEndState, ha, h]
  | some x => simp [runEndState, ha, h, hr x h]

end

/-! #### The chain of a half (R79) -/

theorem chainFor_connects {e : Entry} (route : PathRoute) (h : e.kind = .add ∨ e.kind = .restore ∨ (e.kind = .move ∧ e.half = .new)) :
    chainFor e route = [.connect, .rampUp, .verify] ∧ e.phase = 3 := by
  rcases h with h | h | ⟨h, hh⟩
  · simp [chainFor, Entry.phase, h]
  · simp [chainFor, Entry.phase, h]
  · simp [chainFor, Entry.phase, h, hh]

theorem chainFor_retunes {e : Entry} (route : PathRoute) (h : e.kind = .retune ∨ e.kind = .complete) :
    chainFor e route = [.rampRetune, .verify] ∧ e.phase = 2 := by
  rcases h with h | h <;> simp [chainFor, Entry.phase, h]

theorem chainFor_releases {e : Entry} (route : PathRoute) (h : e.kind = .remove ∨ (e.kind = .move ∧ e.half = .old)) :
    e.phase = 1 ∧ chainFor e route = if route = .source then [.rampDown, .disconnect] else [.disconnect] := by
  rcases h with h | ⟨h, hh⟩
  · simp [chainFor, Entry.phase, h]
  · simp [chainFor, Entry.phase, h, hh]

/-! #### An entry's begin (R81) -/

theorem beginEntry_steps {s : State} {e : Entry} {p : Path} (hk : e.kind ≠ .adopt) (hp : e.path.bind s.path? = some p) :
    beginEntry e s = issueStep e.no false (updateEntry e.no (fun x => { x with st := .begun, chain := chainFor x p.route }) s) := by
  simp [beginEntry, hk, hp]

theorem entry?_unique {s : State} {r : RecNo} {e x : Entry} (hn : (s.queue.map (·.no)).Nodup) (he : s.entry? r = some e) (hx : x ∈ s.queue)
    (hr : x.no = r) : x = e := by
  have hmem : e ∈ s.queue := List.mem_of_find?_eq_some he
  have hno : e.no = r := by simpa using List.find?_some he
  exact List.inj_on_of_nodup_map hn hx hmem (hr.trans hno.symm)

theorem BatchRec.conn_eq_some {b : BatchRec} {f : HostFields} (h : b.conn = some f) :
    ∃ ws, b.copy = some ws ∧ Staged.ofWords ws = some (.conn f) := by
  unfold BatchRec.conn at h
  cases hc : b.copy with
  | none => simp [hc] at h
  | some ws =>
    refine ⟨ws, rfl, ?_⟩
    rw [hc, Option.bind_some] at h
    split at h
    · next g hg => rw [hg, Option.some.inj h]
    · cases h

/-- An ADOPT is begun and finished at once: the foreign path becomes the record's (R48, R81). -/
theorem beginEntry_adopts {s : State} {e : Entry} {n : Nat} {b : BatchRec} {f : HostFields} (he : s.entry? e.no = some e)
    (hn : (s.queue.map (·.no)).Nodup) (hk : e.kind = .adopt) (hp : e.newP = some n) (hb : s.batch.list.find? (fun b => b.no = e.no) = some b)
    (hf : b.conn = some f) :
    beginEntry e s = finishEntry e.no .done false (updatePath n (fun p => p.adopted e.no f)
      (updateEntry e.no (fun x => { x with st := .begun, chain := [] }) s)) := by
  obtain ⟨ws, hws, hof⟩ := BatchRec.conn_eq_some hf
  have hbegun : ∀ route, updateEntry e.no (fun x => { x with st := .begun, chain := chainFor x route }) s =
      updateEntry e.no (fun x => { x with st := .begun, chain := [] }) s := by
    intro route
    refine congrArg (fun q => { s with queue := q }) (List.map_congr_left fun x hx => ?_)
    split
    · next hno => rw [entry?_unique hn he hx hno]; simp [chainFor, hk]
    · rfl
  have hlist : (updateEntry e.no (fun x => { x with st := EntryState.begun, chain := [] }) s).batch.list = s.batch.list := rfl
  simp only [beginEntry, hk, if_true, hp, hbegun, hlist, hb, hof, Option.bind_some, hws]

end Sys2Proof.Machine

namespace Sys2Proof.Machine

/-! #### A record's entry -/

theorem entry?_no {s : State} {r : RecNo} {e : Entry} (h : s.entry? r = some e) : e.no = r := by
  simpa using List.find?_some h

theorem entry?_mem {s : State} {r : RecNo} {e : Entry} (h : s.entry? r = some e) : e ∈ s.queue := List.mem_of_find?_eq_some h

/-- An entry is found in a queue changed entry by entry where each keeps its number. -/
theorem find?_entry_map {l : List Entry} {f : Entry → Entry} {r : RecNo} {e : Entry} (hf : ∀ x, (f x).no = x.no)
    (h : l.find? (fun x => x.no = r) = some e) : (l.map f).find? (fun x => x.no = r) = some (f e) := by
  have hsame : ((fun x : Entry => decide (x.no = r)) ∘ f) = fun x : Entry => decide (x.no = r) := funext fun x => by simp [hf]
  rw [List.find?_map, hsame, h]; rfl

theorem entry?_updateEntry {s : State} {r : RecNo} {e : Entry} {f : Entry → Entry} (hf : ∀ x, (f x).no = x.no) (h : s.entry? r = some e) :
    (updateEntry r f s).entry? r = some (f e) := by
  have hmap := find?_entry_map (f := fun x => if x.no = r then f x else x) (fun x => by split <;> simp [hf]) h
  rw [if_pos (entry?_no h)] at hmap
  exact hmap

/-! #### A step issued (R82, R83, R164) -/

theorem sourceLit_step {s : State} {p : Path} {step : ChainStep} (hstep : step ≠ .rampRetune) :
    sourceLit s p false step = true ↔ (∀ d, p.src = .deg d → s.light.state.get d = .lit) ∧ p.squelched = false := by
  cases hp : p.src <;> simp [sourceLit, hp, hstep]

theorem sourceLit_retune {s : State} {p : Path} :
    sourceLit s p false .rampRetune = true ↔ ((∀ d, p.src = .deg d → s.light.state.get d = .lit) ∧ p.squelched = false) ∧ p.st ≠ .squelched := by
  cases hp : p.src <;> simp [sourceLit, hp, and_assoc]

/-- At a CONNECT that RETRY restarts the degree's light state alone is tested (R164). -/
theorem sourceLit_restart {s : State} {p : Path} {step : ChainStep} :
    sourceLit s p true step = true ↔ ∀ d, p.src = .deg d → s.light.state.get d = .lit := by
  cases hp : p.src <;> simp [sourceLit, hp]

/-- How a DISCONNECT of a path leaves it: a RESTORE's keeps it (R46). -/
def Entry.release (e : Entry) : RouteUse := if e.kind = .restore then .disconnectKeep else .disconnect

theorem Entry.isRelease_iff (e : Entry) :
    e.isRelease = true ↔ e.reversing = false ∧ e.half = .old ∧ (e.kind = .remove ∨ e.kind = .move) := by
  simp [Entry.isRelease, and_assoc]

theorem issueDisconnect_handed {e : Entry} {p : Path} {s t : State}
    (h : handOrdinary (disconnectCmd s p (.entry e.no p.pid e.release)) s = some t) : issueDisconnect e p s = t := by
  simp only [issueDisconnect, ← Entry.release.eq_1, h]

/-- A DISCONNECT refused ends the release or rollback where its path stands (R88). -/
theorem issueDisconnect_refused {e : Entry} {p : Path} {s : State}
    (h : handOrdinary (disconnectCmd s p (.entry e.no p.pid e.release)) s = none) : issueDisconnect e p s =
      finishEntry e.no e.failedState false (leaveInPlace p.pid (withdrawEngReq p.pid (freePathEngine p.pid
        (if e.reversing = false ∧ e.half = .old ∧ (e.kind = .remove ∨ e.kind = .move) then takeCode e.no .module s else s)))) := by
  simp only [issueDisconnect, ← Entry.release.eq_1, h, failInPlace, Entry.isRelease_iff]

section
variable {s : State} {r : RecNo} {e : Entry} {p : Path} (he : s.entry? r = some e) (hp : e.path.bind s.path? = some p)
include he hp

/-- A step that needs its source's light fails without it (R83). -/
theorem issueStep_dark {step : ChainStep} (hc : e.chain.head? = some step) {b : Bool}
    (hstep : step = .connect ∨ b = false ∧ step ∈ [ChainStep.rampUp, .rampRetune, .verify]) (hl : ¬ sourceLit s p b step = true) :
    issueStep r b s = stepFailed r .sourceDark s := by
  simp only [List.mem_cons, List.not_mem_nil, or_false] at hstep
  rcases hstep with rfl | ⟨rfl, rfl | rfl | rfl⟩ <;> simp [issueStep, he, hp, hc, hl]

theorem issueStep_retune_dark (hc : e.chain.head? = some .rampRetune) (hl : ¬ sourceLit s p false .rampRetune = true) :
    issueStep r false s = stepFailed r .sourceDark s := by
  simp [issueStep, he, hp, hc, hl]

theorem issueStep_engine {step : ChainStep} {k : RampKind} (hc : e.chain.head? = some step)
    (hk : (step, k) ∈ [(ChainStep.rampUp, RampKind.rampUp), (.rampRetune, .rampRetune), (.verify, .verify)])
    (hl : sourceLit s p false step = true) : issueStep r false s = presentRequest r false p k s := by
  simp only [List.mem_cons, Prod.mk.injEq, List.not_mem_nil, or_false] at hk
  rcases hk with ⟨rfl, rfl⟩ | ⟨rfl, rfl⟩ | ⟨rfl, rfl⟩ <;> simp [issueStep, he, hp, hc, hl]

section
variable {b : Bool} (hc : e.chain.head? = some .connect) (hl : sourceLit s p b .connect = true) (ho : s.table.ownsAll p = true)
include hc hl ho

/-- A CONNECT whose path owns its entries is handed to the port; restarted, its path is being rerouted from then on. -/
theorem issueStep_connect_handed {t : State}
    (ht : handOrdinary (connectCmd p (.entry r p.pid .connect)) (if b then updatePath p.pid (fun q => { q with rerouting := true }) s else s) =
      some t) : issueStep r b s = t := by
  simp only [issueStep, he, hp, hc, hl, ho, Bool.not_true, Bool.false_eq_true, if_false, ht]

theorem issueStep_connect_refused
    (ht : handOrdinary (connectCmd p (.entry r p.pid .connect)) (if b then updatePath p.pid (fun q => { q with rerouting := true }) s else s) =
      none) :
    issueStep r b s = stepFailed r .module (if b then updatePath p.pid (fun q => { q with rerouting := true }) s else s) := by
  simp only [issueStep, he, hp, hc, hl, ho, Bool.not_true, Bool.false_eq_true, if_false, ht]

end

theorem issueStep_disconnect (hc : e.chain.head? = some .disconnect) : issueStep r false s = issueDisconnect e p s := by
  simp [issueStep, he, hp, hc]

/-- A RAMP_DOWN of a path at the fill has nothing to dim: its DISCONNECT is issued at once. -/
theorem issueStep_rampDown (hc : e.chain.head? = some .rampDown) : issueStep r false s =
    if p.route = .source then presentRequest r false p .rampDown s
    else issueDisconnect { e with chain := [.disconnect] } p (updateEntry r (fun e => { e with chain := [.disconnect] }) s) := by
  simp [issueStep, he, hp, hc]

theorem issueStep_returning (hc : e.chain.head? = some .returning) : issueStep r false s =
    if p.route = .source then presentRequest r false p .returning s
    else finishEntry r e.failedState false (dropUnrouted p.pid (e.kind = .restore) s) := by
  simp [issueStep, he, hp, hc]

/-- A restart is another matter than an issue at a CONNECT alone (R164). -/
theorem issueStep_restart (hc : e.chain.head? ≠ some .connect) : issueStep r true s = issueStep r false s := by
  cases hh : e.chain.head? with
  | none => simp [issueStep, he, hp, hh]
  | some step =>
    cases step with
    | connect => exact absurd hh hc
    | _ => simp only [issueStep, he, hp, hh]

end

theorem stepDone_issues {s : State} {r : RecNo} (hc : s.seqr.st.isRun = true) (hl : s.batch.lossStop = false) :
    stepDone r s = issueStep r false (updateEntry r (fun e => { e with chain := e.chain.drop 1 }) s) :=
  if_pos (show (s.seqr.st.isRun && !s.batch.lossStop) = true by simp [hc, hl])

theorem stepDone_waits {s : State} {r : RecNo} (h : s.seqr.st.isRun = false ∨ s.batch.lossStop = true) :
    stepDone r s = updateEntry r (fun e => { e with chain := e.chain.drop 1 }) s :=
  if_neg (show ¬ (s.seqr.st.isRun && !s.batch.lossStop) = true by rcases h with h | h <;> simp [h])

end Sys2Proof.Machine

namespace Sys2Proof.Machine

/-! #### Outcomes, pending fields and paths left (R44, R46, R84, R88) -/

theorem outcomeOf_failed {e : Entry} {code : FailCode} (h : e.fail = some code) (s : State) : outcomeOf e .failed s = .fail code := by
  simp [outcomeOf, h]

theorem outcomeOf_done (e : Entry) (s : State) :
    outcomeOf e .done s = if (∃ p ∈ s.table.recordPaths e.no, p.st = .offTarget) ∧ e.kind ≠ .adopt then .doneOffTarget else .done := by
  simp [outcomeOf]

theorem Path.settlePending_none {p : Path} (h : p.pend = none) (v : Bool) : p.settlePending v = p := by
  cases p; cases h; rfl

theorem Path.settlePending_dropped (p : Path) : p.settlePending false = { p with pend := none } := by
  unfold Path.settlePending
  split
  · next q i hq hi => cases p; cases hi; rfl
  · rfl

theorem Path.settlePending_applied {p : Path} {q : PendingInfo} {i : PathInfo} (hq : p.pend = some q) (hi : p.info = some i) :
    p.settlePending true = { p with
      pend := none
      info := some { target := q.target, profile := q.profile, permit := (q.permitTag.map (·.1)).getD i.permit
                     tag := (q.permitTag.map (·.2)).getD i.tag } } := by
  simp [Path.settlePending, hq, hi]

theorem Path.settlePending_ends (p : Path) (v : Bool) :
    (p.settlePending v).slot = p.slot ∧ (p.settlePending v).src = p.src ∧ (p.settlePending v).dst = p.dst ∧
      ((p.settlePending v).info.isSome = p.info.isSome) := by
  unfold Path.settlePending
  split
  · next q i hq hi => simp [hi]
  · exact ⟨rfl, rfl, rfl, rfl⟩

/-- A table with one path changed gives that path as changed and any other as it was. -/
theorem path?_updatePath_other {s : State} {pid n : Nat} {f : Path → Path} (hf : ∀ q, (f q).pid = q.pid) (hn : n ≠ pid) :
    (updatePath pid f s).path? n = s.path? n := by
  have hmap : ∀ l : List Path, (l.map fun p => if p.pid = pid then f p else p).find? (fun p => p.pid = n) = l.find? (fun p => p.pid = n) := by
    intro l
    induction l with
    | nil => rfl
    | cons p l ih =>
      by_cases hp : p.pid = pid
      · have hne : p.pid ≠ n := fun h => hn (h ▸ hp)
        simp only [List.map_cons, hp, if_true, List.find?_cons, hf, ih, decide_eq_false (hp ▸ hne)]
      · simp only [List.map_cons, hp, if_false, List.find?_cons, ih]
  exact hmap s.table.paths

/-- One path changed: it, no other, and nothing but the list of paths. -/
def LeavesPath (s t : State) (pid : Nat) (q : Path) : Prop :=
  t.path? pid = some q ∧ (∀ n, n ≠ pid → t.path? n = s.path? n) ∧ t = { s with table := { s.table with paths := t.table.paths } }

theorem updatePath_leaves_path {s : State} {pid : Nat} {p q : Path} {f : Path → Path} (hp : s.path? pid = some p) (hf : ∀ q, (f q).pid = q.pid)
    (hq : f p = q) : LeavesPath s (updatePath pid f s) pid q :=
  ⟨hq ▸ path?_updatePath hp hf, fun _ hn => path?_updatePath_other hf hn, rfl⟩

section
variable {s : State} {pid : Nat} {p q : Path} (hp : s.path? pid = some p)
include hp

theorem leaveInPlace_leaves_path
    (hq : (if p.route = .source && !p.squelched then { p with st := .offTarget }
      else { p with st := .squelched, route := .fill, squelched := false, rerouting := false }) = q) :
    LeavesPath s (leaveInPlace pid s) pid q :=
  updatePath_leaves_path hp (fun x => by split <;> rfl) hq

theorem leaveRetuned_leaves_path
    (hq : (if p.squelched then p else if p.route = .source then { p with st := .offTarget }
      else if p.st = .ramping || p.st = .releasing then { p with st := .squelched } else p) = q) : LeavesPath s (leaveRetuned pid s) pid q :=
  updatePath_leaves_path hp (fun x => by split_ifs <;> rfl) hq

end

/-! #### Finishes, void pledges and fixes (R45, R47, R85, R89) -/

theorem fixRecord_noPath {s : State} {r : RecNo} (v x : Bool) (h : s.table.recordPaths r = []) : fixRecord r v x s = fixCompleted r .empty s := by
  simp [fixRecord, h]

theorem fixRecord_onePath {s : State} {r : RecNo} {p : Path} {d : DoneState} {v x : Bool} (h : s.table.recordPaths r = [p])
    (hst : p.st ≠ .reserved) (hd : (p.atFix x).2 = some d) :
    let q := (p.atFix x).1.settlePending (v && !p.squelched)
    fixRecord r v x s = activeDue r (updatePath p.pid (fun _ => { q with owner := some (r, .old), measured := powerAverage s p.dst.out p.slot })
      (setCompleted r (q.completed s.win.cfg d) s)) := by
  have hgone : [p].filter (fun p => p.st = .reserved) = [] := by simp [hst]
  simp only [fixRecord, h, hgone, List.foldl_nil, hd]
  rfl

theorem Path.atFix_ends (p : Path) (x : Bool) :
    (p.atFix x).1.slot = p.slot ∧ (p.atFix x).1.src = p.src ∧ (p.atFix x).1.dst = p.dst ∧ (p.atFix x).1.info = p.info := by
  unfold Path.atFix
  split
  · exact ⟨rfl, rfl, rfl, rfl⟩
  · split
    any_goals exact ⟨rfl, rfl, rfl, rfl⟩
    all_goals (split <;> exact ⟨rfl, rfl, rfl, rfl⟩)

theorem Path.host_isSome (p : Path) : p.host.isSome = (p.src.endpoint.isSome && p.dst.endpoint.isSome && p.info.isSome) := by
  unfold Path.host
  cases p.src.endpoint <;> cases p.dst.endpoint <;> cases p.info <;> rfl

/-- A path with host fields keeps some through the fix. -/
theorem Path.host_atFix {p : Path} {h : HostFields} (hh : p.host = some h) (x v : Bool) :
    ∃ g, ((p.atFix x).1.settlePending v).host = some g := by
  obtain ⟨-, hs, hd, hi⟩ := p.atFix_ends x
  obtain ⟨-, hs', hd', hi'⟩ := (p.atFix x).1.settlePending_ends v
  refine Option.isSome_iff_exists.1 ?_
  rw [Path.host_isSome, hs', hd', hi', hs, hd, hi, ← Path.host_isSome, hh]
  rfl

theorem fixRecord_completed {s : State} {r : RecNo} {p : Path} {h : HostFields} {d : DoneState} {v x : Bool}
    (hp : s.table.recordPaths r = [p]) (hst : p.st ≠ .reserved) (hh : p.host = some h) (hd : (p.atFix x).2 = some d) :
    (fixRecord r v x s).completed r =
      Completed.measure s (((p.atFix x).1.settlePending (v && !p.squelched)).completed s.win.cfg d) := by
  obtain ⟨g, hg⟩ := Path.host_atFix hh x (v && !p.squelched)
  have hpath : ∃ y, ((p.atFix x).1.settlePending (v && !p.squelched)).completed s.win.cfg d = .path y := by simp [Path.completed, hg]
  obtain ⟨y, hy⟩ := hpath
  rw [fixRecord_onePath (v := v) hp hst hd]
  simp only [hy]
  exact completed_fixCompleted_path r y (updatePath p.pid _ s)

theorem activeDue_port {r : RecNo} {s : State} (h : PortReq.active r ∉ s.port) : (activeDue r s).port = s.port ++ [.active r] := by
  rw [activeDue_eq]; exact if_neg h

/-- A fix asks for one write of its active record, whatever it fixes (R47). -/
theorem fixRecord_port {s : State} {r : RecNo} {v x : Bool} (h : PortReq.active r ∉ s.port) : (fixRecord r v x s).port = s.port ++ [.active r] := by
  simp only [fixRecord]
  split
  · exact activeDue_port (s := setCompleted r _ _) h
  · next p l hp => cases (p.atFix x).2 <;> exact activeDue_port h

theorem writeOutcome_port {s : State} {r : RecNo} {c : OutcomeCode} (hw : s.win.map.isSome = true)
    (hr : ∀ y, s.batch.recovery = some y → y.abandon = false) :
    (writeOutcome r c s).port = s.port ++ [.outcome r c s.batch.seq, .counters (s.batch.counters.count c)] := by
  have hcode : s.batch.outcome c = c := by
    have ha : s.batch.byAbandon = false := byAbandon_eq_false hr
    simp [Batch.outcome, ha]
  rw [writeOutcome_eq, hcode]
  simp [writeCounters, hw]

theorem mem_pledgedOn (t : ConnTable) (p n : Nat) : n ∈ t.pledgedOn p ↔ ∃ o ∈ t.occ, o.owner = p ∧ o.pledge = some n := by
  simp [ConnTable.pledgedOn]

theorem markVoid_nil (code : FailCode) (k : Nat) (s : State) : markVoid code k [] s = s := by
  cases k <;> rfl

theorem isLeaving_eq_false {t : ConnTable} {p : Nat} (h : ∀ q, t.path? p = some q → q.leaving = false) : t.isLeaving p = false := by
  unfold ConnTable.isLeaving
  split
  · next q hq => exact h q hq
  · rfl

theorem isLeaving_eq_true {t : ConnTable} {p : Nat} {q : Path} (h : t.path? p = some q) (hl : q.leaving = true) : t.isLeaving p = true := by
  simp [ConnTable.isLeaving, h, hl]

@[simp] theorem writeOutcome_queue (r : RecNo) (c : OutcomeCode) (s : State) : (writeOutcome r c s).queue = s.queue := by
  simp only [writeOutcome]; simp

section
variable {s : State} {e : Entry} (st : EntryState) (v : Bool) (hd : s.start.powerdown = false) (he : s.entry? e.no = some e)
include hd he

theorem finishEntry_noOld (ho : e.oldP = none) : finishEntry e.no st v s = writeOutcome e.no (outcomeOf e st s)
    (fixRecord e.no v (st = .failed ∨ st = .abandoned) (updateEntry e.no (fun x => { x with st := st, chain := [] }) s)) := by
  simp [finishEntry, hd, finishNow, he, ho, markVoid_nil]

/-- What a finish writes back where the entry has an old path, which is not leaving any more (R85). -/
def finishedWith (s : State) (e : Entry) (st : EntryState) (v : Bool) (p : Nat) (t : ConnTable) : State :=
  writeOutcome e.no (outcomeOf e st s) (fixRecord e.no v (st = .failed ∨ st = .abandoned)
    { updateEntry e.no (fun x => { x with st := st, chain := [] }) s with table := t.update p (fun q => { q with leaving := false }) })

omit hd he in
theorem finishedWith_queue_length (p : Nat) (t : ConnTable) : (finishedWith s e st v p t).queue.length = s.queue.length := by
  simp [finishedWith]

theorem finishEntry_stayed {p : Nat} (ho : e.oldP = some p) (hl : s.table.isLeaving p = false) :
    finishEntry e.no st v s = finishedWith s e st v p s.table := by
  simp [finishEntry, hd, finishNow, he, ho, hl, markVoid_nil, finishedWith]

/-- A path still leaving when its entry ends stays, and the pledges on its entries are void (R45, R89). -/
theorem finishEntry_left {p : Nat} (ho : e.oldP = some p) (hl : s.table.isLeaving p = true) :
    finishEntry e.no st v s = markVoid (e.fail.getD .module) ((if e.half = .old then s.table.pledgedOn p else []).length + 4 * s.queue.length + 1)
      (if e.half = .old then s.table.pledgedOn p else []) (finishedWith s e st v p (s.table.voidOn p)) := by
  rw [← finishedWith_queue_length (s := s) (e := e) st v p (s.table.voidOn p)]
  simp [finishEntry, hd, finishNow, he, ho, hl, finishedWith]

end

section
variable {s : State} (code : FailCode) (k n : Nat) (rest : List Nat)

theorem markVoid_stranger (h : ∀ e ∈ s.queue, e.newP ≠ some n) : markVoid code (k + 1) (n :: rest) s = markVoid code k rest s := by
  have hnone : s.queue.find? (fun e => e.newP = some n) = none := by simpa using h
  simp only [markVoid, hnone]

variable {e : Entry} (he : s.queue.find? (fun e => e.newP = some n) = some e)
include he

/-- A WAITING entry whose pledge is void fails, and may void further pledges (R89; log 46). -/
theorem markVoid_waiting (hs : e.st = .waiting) : markVoid code (k + 1) (n :: rest) s =
    markVoid code k (rest ++ (match e.half, e.oldP with | .old, some p => s.table.pledgedOn p | _, _ => []))
      (stopTest code (endWaiting e .failed (some code) s)) := by
  cases ho : e.oldP <;> cases hh : e.half <;> simp [markVoid, he, hs, ho, hh]

theorem markVoid_begun (hs : e.st = .begun) (hh : e.half = .old) : markVoid code (k + 1) (n :: rest) s =
    markVoid code k rest (updateEntry e.no (fun x => { x with void := x.void.or (some code) }) s) := by
  simp [markVoid, he, hs, hh]

theorem markVoid_passed (hs : e.st ≠ .waiting) (hh : e.st ≠ .begun ∨ e.half = .new) :
    markVoid code (k + 1) (n :: rest) s = markVoid code k rest s := by
  cases hst : e.st with
  | waiting => exact absurd hst hs
  | begun => simp [markVoid, he, hst, hh.resolve_left (fun h => h hst)]
  | _ => simp [markVoid, he, hst]

end

section
variable {s : State} {e : Entry} (code : FailCode) (hf : e.fail = none)
include hf

omit s in
theorem Entry.ended_code : e.ended .failed (some code) = { e with st := .failed, fail := some code, chain := [] } := by
  simp [Entry.ended, hf]

/-- A WAITING entry that fails with a code of its own (R89). -/
theorem endWaiting_fails : endWaiting e .failed (some code) s =
    let x : Entry := { e with st := .failed, fail := some code, chain := [] }
    let t := updateEntry e.no (fun _ => x) s
    writeOutcome e.no (.fail code) (if e.kind = .move ∧ e.half = .new then fixRecord e.no false false t else giveUpClaims x t) := by
  rw [endWaiting_eq, Entry.ended_code code hf]
  rfl

end

end Sys2Proof.Machine

namespace Sys2Proof.Machine

/-! #### Codes taken (R90, R166) -/

theorem stopTest_passes {s : State} {code : FailCode} (h : s.batch.stop.getLsbD code.idx = false) : stopTest code s = s := by
  simp [stopTest, h]

theorem stopTest_stops {s : State} {code : FailCode} (h : s.batch.stop.getLsbD code.idx = true) :
    (s.seqr.st = .running ∨ s.seqr.st = .holding ∨ s.seqr.st = .held → stopTest code s = enterCancelling s) ∧
    (s.seqr.st = .suspended ∨ s.seqr.st = .powerdown → stopTest code s = { s with batch := { s.batch with stopPending := true } }) ∧
    (s.seqr.st ∉ [SeqState.running, .holding, .held, .suspended, .powerdown] → stopTest code s = s) := by
  cases hs : s.seqr.st <;> simp [stopTest, h, hs]

/-- A code's test leaves the queue, or ends its WAITING entries. -/
theorem stopTest_queue {s : State} (code : FailCode) (hn : (s.queue.map (·.no)).Nodup) :
    (stopTest code s).queue = s.queue ∨ (stopTest code s).queue = s.queue.map (Entry.cut .cancelled) := by
  cases hb : s.batch.stop.getLsbD code.idx with
  | false => exact .inl (by rw [stopTest_passes hb])
  | true =>
    obtain ⟨hrun, hmark, hother⟩ := stopTest_stops hb
    by_cases hr : s.seqr.st = .running ∨ s.seqr.st = .holding ∨ s.seqr.st = .held
    · exact .inr (by rw [hrun hr, enterCancelling_queue hn])
    · by_cases hm : s.seqr.st = .suspended ∨ s.seqr.st = .powerdown
      · exact .inl (by rw [hmark hm])
      · exact .inl (by rw [hother (by simp only [List.mem_cons, List.not_mem_nil, or_false]; tauto)])

section
variable {s : State} {r : RecNo} {e : Entry} {code : FailCode} (he : s.entry? r = some e)
include he

theorem takeCode_stands (hf : e.fail ≠ none) : takeCode r code s = s := by
  simp [takeCode, he, Option.isSome_iff_ne_none.2 hf]

theorem takeCode_takes (hf : e.fail = none) : takeCode r code s = stopTest code (updateEntry r (fun e => { e with fail := some code }) s) := by
  simp [takeCode, he, hf]

/-- An entry in progress keeps all but its code where a code is taken, whatever the code stops. -/
theorem takeCode_entry? (hn : (s.queue.map (·.no)).Nodup) (hst : e.st ≠ .waiting) :
    ∃ f, (takeCode r code s).entry? r = some { e with fail := f } := by
  by_cases hf : e.fail = none
  · rw [takeCode_takes he hf]
    have hset : (updateEntry r (fun e => { e with fail := some code }) s).entry? r = some { e with fail := some code } :=
      entry?_updateEntry (fun _ => rfl) he
    have hnos : ((updateEntry r (fun e => { e with fail := some code }) s).queue.map (·.no)) = s.queue.map (·.no) := by
      rw [updateEntry_queue, List.map_map]
      refine List.map_congr_left fun x _ => ?_
      simp only [Function.comp_apply]
      split <;> rfl
    refine ⟨some code, ?_⟩
    rcases stopTest_queue code (hnos ▸ hn) with hq | hq
    · rw [State.entry?, hq]; exact hset
    · rw [State.entry?, hq]
      exact (find?_entry_map (Entry.cut_no .cancelled) hset).trans (congrArg some (if_neg hst))
  · exact ⟨e.fail, by rw [takeCode_stands he hf, he]⟩

end

/-! #### Failed steps (R86, R87, R88) -/

section
variable {s : State} {r : RecNo} {e : Entry} {p : Path} {code : FailCode} (he : s.entry? r = some e) (hp : e.path.bind s.path? = some p)
include he hp

/-- A release, a rollback and a reversal's disconnect fail where the path stands. -/
theorem stepFailed_inPlace (h : e.isRelease = true ∨ e.st = .rollingBack ∨
      (e.reversing = true ∧ (e.chain.head? = some .returning ∨ e.chain.head? = some .disconnect))) :
    stepFailed r code s = finishEntry r e.failedState false (leaveInPlace p.pid (withdrawEngReq p.pid (freePathEngine p.pid
      (if e.isRelease then takeCode r code s else s)))) := by
  have hcond : (e.isRelease || decide (e.st = .rollingBack) ||
      (e.reversing && (decide (e.chain.head? = some .returning) || decide (e.chain.head? = some .disconnect)))) = true := by
    simp only [Bool.or_eq_true, Bool.and_eq_true, decide_eq_true_eq]; tauto
  simp only [stepFailed, he, hp, hcond, if_true, failInPlace, entry?_no he]

section
variable (hrel : e.isRelease = false) (hst : e.st ≠ .rollingBack)
  (hrev : e.reversing = true → e.chain.head? ≠ some .returning ∧ e.chain.head? ≠ some .disconnect)
include hrel hst hrev

omit he hp in
theorem not_failsInPlace : (e.isRelease || decide (e.st = .rollingBack) ||
    (e.reversing && (decide (e.chain.head? = some .returning) || decide (e.chain.head? = some .disconnect)))) = false := by
  cases hr : e.reversing with
  | false => simp [hrel, hst]
  | true => simp [hrel, hst, hrev hr]

theorem stepFailed_retune (hret : e.isRetune = true) :
    stepFailed r code s = finishEntry r e.failedState false (leaveRetuned p.pid (withdrawEngReq p.pid (freePathEngine p.pid
      (if e.reversing then s else takeCode r code s)))) := by
  simp only [stepFailed, he, hp, not_failsInPlace hrel hst hrev, hret, if_true, Bool.false_eq_true, if_false]

/-- A new path or a RESTORE's that is not routed yet is dropped at once (R86). -/
theorem stepFailed_unrouted (hret : e.isRetune = false) (hr : p.route = .fill) : stepFailed r code s =
    finishEntry r .failed false (dropUnrouted p.pid (e.kind = .restore) (freePathEngine p.pid (withdrawEngReq p.pid (takeCode r code s)))) := by
  simp only [stepFailed, he, hp, not_failsInPlace hrel hst hrev, hret, hr, if_true, Bool.false_eq_true, if_false]

end
end

/-- A failed entry as it rolls back (R86). -/
def rollBack (r : RecNo) (chain : List ChainStep) (s : State) : State := updateEntry r (fun e => { e with st := .rollingBack, chain := chain }) s

/-- A path that is being released (R38). -/
def releasing (pid : Nat) (s : State) : State := updatePath pid (fun q => { q with st := .releasing }) s

section
variable {s : State} {r : RecNo} {e : Entry} {p : Path} {code : FailCode}

theorem not_isRelease_new (h : (e.half = .new ∧ (e.kind = .add ∨ e.kind = .move)) ∨ e.kind = .restore) : e.isRelease = false := by
  rcases h with ⟨h, -⟩ | h <;> simp [Entry.isRelease, h]

theorem not_isRetune_new (hr : e.reversing = false) (h : (e.half = .new ∧ (e.kind = .add ∨ e.kind = .move)) ∨ e.kind = .restore) :
    e.isRetune = false := by
  rcases h with ⟨-, h | h⟩ | h <;> simp [Entry.isRetune, hr, h]

/-- The start of a rollback by whether steps may be issued, and by the path's engine (R86; logs 65 and 78). -/
theorem stepFailed_routed (he : s.entry? r = some e) (hp : e.path.bind s.path? = some p) (hr : e.reversing = false) (hst : e.st = .begun)
    (hk : (e.half = .new ∧ (e.kind = .add ∨ e.kind = .move)) ∨ e.kind = .restore) (hroute : p.route = .source) :
    let t := withdrawEngReq p.pid (takeCode r code s)
    let u := releasing p.pid t
    (canIssue t = false → stepFailed r code s = rollBack r [.returning, .disconnect] (freePathEngine p.pid u)) ∧
    (∀ g, canIssue t = true → p.engine = some g → atTop p.att = false →
      stepFailed r code s = rollBack r [.returning, .disconnect] (startReturning g u)) ∧
    (∀ g x, canIssue t = true → p.engine = some g → atTop p.att = true → (rollBack r [.disconnect] (freeEngine g u)).entry? r = some x →
      stepFailed r code s = issueDisconnect x p (rollBack r [.disconnect] (freeEngine g u))) ∧
    (∀ x, canIssue t = true → p.engine = none → (rollBack r [.disconnect] u).entry? r = some x →
      stepFailed r code s = issueDisconnect x p (rollBack r [.disconnect] u)) := by
  intro t u
  have hcan : canIssue u = canIssue t := rfl
  have hbranch := not_failsInPlace (e := e) (not_isRelease_new hk) (by simp [hst]) (by simp [hr])
  have hret := not_isRetune_new hr hk
  refine ⟨fun hc => ?_, fun g hc hg ha => ?_, fun g x hc hg ha hx => ?_, fun x hc hg hx => ?_⟩ <;>
    (rw [← hcan] at hc; unfold u t releasing rollBack at *)
  · simp only [stepFailed, he, hp, hbranch, hret, hroute, hc]; simp
  · simp only [stepFailed, he, hp, hbranch, hret, hroute, hc, hg, ha]; simp
  · simp only [stepFailed, he, hp, hbranch, hret, hroute, hc, hg, ha, hx]; simp
  · simp only [stepFailed, he, hp, hbranch, hret, hroute, hc, hg, hx]; simp

end

end Sys2Proof.Machine

namespace Sys2Proof.Machine

section
variable {s : State} {r : RecNo} {e : Entry} {p : Path}

/-- The entry of a failed step as its rollback stands on DISCONNECT. -/
theorem rollBack_entry? {code : FailCode} {w : State} (hn : (s.queue.map (·.no)).Nodup) (he : s.entry? r = some e) (hst : e.st ≠ .waiting)
    (hw : w.queue = (takeCode r code s).queue) :
    ∃ f, (rollBack r [.disconnect] w).entry? r = some { e with fail := f, st := .rollingBack, chain := [.disconnect] } := by
  obtain ⟨f, hf⟩ := takeCode_entry? (code := code) he hn hst
  have hwf : w.entry? r = some { e with fail := f } := by rw [State.entry?, hw]; exact hf
  exact ⟨f, entry?_updateEntry (f := fun e => { e with st := .rollingBack, chain := [.disconnect] }) (fun _ => rfl) hwf⟩

/-- The DISCONNECT of a rollback: handed to the port, or refused, which ends the rollback where its path stands (R86, R88). -/
theorem issueDisconnect_rollingBack {w : State} {f : Option FailCode} {st : EntryState} {chain : List ChainStep} (hno : e.no = r)
    (hr : e.reversing = false) (hk : (e.half = .new ∧ (e.kind = .add ∨ e.kind = .move)) ∨ e.kind = .restore) :
    (∀ x, handOrdinary (disconnectCmd w p (.entry r p.pid e.release)) w = some x →
      issueDisconnect { e with fail := f, st := st, chain := chain } p w = x) ∧
    (handOrdinary (disconnectCmd w p (.entry r p.pid e.release)) w = none →
      issueDisconnect { e with fail := f, st := st, chain := chain } p w =
        finishEntry r .failed false (leaveInPlace p.pid (withdrawEngReq p.pid (freePathEngine p.pid w)))) := by
  subst hno
  refine ⟨fun x h => issueDisconnect_handed h, fun h => ?_⟩
  have hnot : ¬ (e.reversing = false ∧ e.half = .old ∧ (e.kind = .remove ∨ e.kind = .move)) := fun h => by
    simpa [not_isRelease_new hk] using (Entry.isRelease_iff e).2 h
  rw [issueDisconnect_refused (e := { e with fail := f, st := st, chain := chain }) h]
  dsimp only
  rw [if_neg hnot]
  simp only [Entry.failedState, hr, Bool.false_eq_true, if_false]

end

/-- The DISCONNECT of a release: handed to the port, or refused, which ends the entry where its path stands (R82, R88). -/
theorem issueDisconnect_issued {s : State} {r : RecNo} {e : Entry} {p : Path} (hno : e.no = r) :
    (∀ u, handOrdinary (disconnectCmd s p (.entry r p.pid e.release)) s = some u → issueDisconnect e p s = u) ∧
    (handOrdinary (disconnectCmd s p (.entry r p.pid e.release)) s = none → issueDisconnect e p s = finishEntry r e.failedState false
      (leaveInPlace p.pid (withdrawEngReq p.pid (freePathEngine p.pid
        (if e.reversing = false ∧ e.half = .old ∧ (e.kind = .remove ∨ e.kind = .move) then takeCode r .module s else s))))) := by
  subst hno
  exact ⟨fun u h => issueDisconnect_handed h, issueDisconnect_refused⟩

/-- The states in which a remaining path stands at its fix (R47). -/
theorem Path.atFix_squelched {p : Path} (x : Bool) (h : p.squelched = true ∨ p.st = .squelched) :
    p.atFix x = ({ p with st := .squelched, route := .fill, squelched := false, rerouting := false }, some .squelched) :=
  if_pos (by simpa using h)

theorem Path.atFix_other {p : Path} (x : Bool) (h : p.squelched = false) :
    (p.st = .live → p.atFix x = (p, some .live)) ∧ (p.st = .offTarget → p.atFix x = (p, some .offTarget)) ∧
    (p.st = .discrepant → p.atFix x = (p, some .discrepant)) ∧
    (p.st = .ramping ∨ p.st = .inFlight → p.atFix x =
      if x = true ∧ p.route = .source then ({ p with st := .offTarget }, some .offTarget) else (p, none)) := by
  refine ⟨fun hs => ?_, fun hs => ?_, fun hs => ?_, ?_⟩
  · simp [Path.atFix, h, hs]
  · simp [Path.atFix, h, hs]
  · simp [Path.atFix, h, hs]
  · rintro (hs | hs) <;> simp [Path.atFix, h, hs]

end Sys2Proof.Machine

section
open Sys2Proof Sys2Proof.Machine

/-- Settles O60: each phase of a batch by the equations of the function that acts in it. -/
theorem batchRunsByPhases : Obligations.BatchRunsByPhases := by
  refine ⟨fun _ => rfl, fun _ _ => rfl, settleStep_eq, ?_, fun s => ⟨runEndState_abandoned, fun ha hr => ?_⟩, ?_, fun s e p => beginEntry_steps,
    fun s e n b f he hn hk hp hb hf => beginEntry_adopts he hn hk hp hb hf, ?_, ?_,
    fun s e => ⟨fun c hc => outcomeOf_failed hc s, rfl, rfl, fun hk ho => ?_, fun h => ?_⟩,
    fun p => ⟨fun h v => p.settlePending_none h v, fun _ _ => p.settlePending_dropped, ?_⟩, ?_,
    fun s r => ⟨stepDone_issues, stepDone_waits⟩, fun s e st v hd he ho => finishEntry_noOld st v hd he ho, ?_, mem_pledgedOn,
    fun s code k n rest => ⟨markVoid_nil code k s, markVoid_stranger code k n rest, fun e he => ⟨markVoid_waiting code k n rest he,
      markVoid_begun code k n rest he, markVoid_passed code k n rest he⟩⟩, ?_,
    fun s r c v x => ⟨fixRecord_port, fixRecord_noPath v x, fun p h d => fixRecord_completed, writeOutcome_port⟩,
    fun p x => ⟨p.atFix_squelched x, p.atFix_other x⟩, ?_, ?_, fun _ => rfl, fun s r code e he => ⟨takeCode_stands he, takeCode_takes he⟩,
    fun s code => ⟨stopTest_passes, stopTest_stops⟩⟩
  · intro s hp he hw hd
    refine ⟨fun hs => ?_, fun hs => ⟨fun h1 hall => ?_, pumpBatch_neverRan hp he hw hd hs, fun e h1 hfind hrun => ?_,
      fun e hm hf hph h0 hhold => ?_⟩⟩
    · rw [pumpBatch_cancelling hp he hw hd hs]
      exact ⟨fun h => if_pos h, fun h => if_neg h⟩
    · rw [pumpBatch_phaseOver hp he hw hd hs h1 hall]
      exact ⟨fun h => if_pos h, fun h => if_neg (Nat.not_lt.2 h)⟩
    · have hfound : e.st = .waiting ∧ e.phase = s.batch.phase := by simpa using List.find?_some hfind
      rw [pumpBatch_phaseOpen hp he hw hd hs (List.mem_of_find?_eq_some hfind) (waiting_unfinished hfound.1) (.inl hfound.2), hfind]
      refine ⟨fun h8 hl => ?_, fun h => ?_⟩
      · simp [hrun, h8, hl]
      · rcases h with h | h
        · simp [hrun, Nat.not_lt.2 h]
        · simp [hrun, h]
    · rw [pumpBatch_phaseOpen hp he hw hd hs hm hf hph]
      simp [hhold, h0]
  · rw [runEndState_other ha hr]
    exact ⟨fun h => if_pos h, fun h => if_neg h⟩
  · intro e route
    exact ⟨fun h => chainFor_connects route (h.imp_right .inl), chainFor_retunes route, chainFor_releases route,
      fun hk hh => chainFor_connects route (.inr (.inr ⟨hk, hh⟩))⟩
  · intro s r e p he hp lit
    have hlit : ∀ {step : ChainStep}, step ≠ .rampRetune → (sourceLit s p false step = true ↔ lit) := sourceLit_step
    refine ⟨fun hc => ⟨fun hl => ?_, fun hl ho => ⟨fun t ht => ?_, fun ht => ?_⟩⟩, fun hc => ⟨fun hl => ?_, fun hl => ?_⟩,
      fun hc => ⟨fun hl => ?_, fun hl => ?_⟩, fun hc => ⟨fun hl hs => ?_, fun h => ?_⟩, fun hc hr => ?_, fun t hc hk ht hno => ?_⟩
    · exact issueStep_dark he hp hc (.inl rfl) (mt (hlit (by simp)).1 hl)
    · exact issueStep_connect_handed he hp hc ((hlit (by simp)).2 hl) ho ht
    · exact issueStep_connect_refused he hp hc ((hlit (by simp)).2 hl) ho ht
    · exact issueStep_engine he hp hc (by simp) ((hlit (by simp)).2 hl)
    · exact issueStep_dark he hp hc (.inr ⟨rfl, by simp⟩) (mt (hlit (by simp)).1 hl)
    · exact issueStep_engine he hp hc (by simp) ((hlit (by simp)).2 hl)
    · exact issueStep_dark he hp hc (.inr ⟨rfl, by simp⟩) (mt (hlit (by simp)).1 hl)
    · exact issueStep_engine he hp hc (by simp) (sourceLit_retune.2 ⟨hl, hs⟩)
    · exact issueStep_retune_dark he hp hc (fun hs => h.elim (fun hl => hl (sourceLit_retune.1 hs).1) (sourceLit_retune.1 hs).2)
    · rw [issueStep_rampDown he hp hc, if_pos hr]
    · rw [issueStep_disconnect he hp hc]
      exact issueDisconnect_handed (by rw [hno, Entry.release, if_neg hk]; exact ht)
  · intro s r e p he hp light again use ended disconnects
    have hno : e.no = r := entry?_no he
    refine ⟨fun hc => ⟨fun hl => ?_, fun hl ho => ⟨fun t ht => ?_, fun ht => ?_⟩⟩, issueStep_restart he hp, fun hc => ?_, fun hc hr => ?_,
      fun hc => ⟨fun hr => ?_, fun hr => ?_⟩⟩
    · exact issueStep_dark he hp hc (.inl rfl) (mt sourceLit_restart.1 hl)
    · exact issueStep_connect_handed he hp hc (sourceLit_restart.2 hl) ho ht
    · exact issueStep_connect_refused he hp hc (sourceLit_restart.2 hl) ho ht
    · unfold disconnects
      rw [issueStep_disconnect he hp hc]
      exact issueDisconnect_issued hno
    · unfold disconnects
      rw [issueStep_rampDown he hp hc, if_neg (by simp [hr])]
      exact issueDisconnect_issued (e := { e with chain := [.disconnect] }) hno
    · rw [issueStep_returning he hp hc, if_pos hr]
    · rw [issueStep_returning he hp hc, if_neg (by simp [hr])]; rfl
  · rw [outcomeOf_done, if_pos ⟨ho, hk⟩]
  · rw [outcomeOf_done, if_neg]
    rintro ⟨⟨p, hp, ho⟩, hk⟩
    exact h.elim hk (fun h => h p hp ho)
  · intro q i hq hi
    refine ⟨_, Path.settlePending_applied hq hi, rfl, rfl, fun h => ?_, fun a b h => ?_⟩ <;> simp [h]
  · intro s pid p hp left off dark
    refine ⟨fun hr hq => ⟨leaveInPlace_leaves_path hp ?_, leaveRetuned_leaves_path hp ?_⟩, fun h => leaveInPlace_leaves_path hp ?_,
      fun hq => leaveRetuned_leaves_path hp ?_, fun hq hr => ⟨fun hs => leaveRetuned_leaves_path hp ?_,
      fun h1 h2 => leaveRetuned_leaves_path hp ?_⟩, updatePath_leaves_path hp (fun _ => rfl) rfl, rfl⟩
    · simp [hr, hq, off]
    · simp [hr, hq, off]
    · rcases h with h | h <;> simp [h, dark]
    · simp [hq]
    · rcases hs with hs | hs <;> simp [hq, hr, hs]
    · simp [hq, hr, h1, h2]
  · intro s e st v p hd he ho fixed voided
    exact ⟨fun h => finishEntry_stayed st v hd he ho (isLeaving_eq_false h),
      fun q hq hl => finishEntry_left st v hd he ho (isLeaving_eq_true hq hl)⟩
  · intro s e code hf x t
    have hend : endWaiting e .failed (some code) s = writeOutcome e.no (.fail code)
        (if e.kind = .move ∧ e.half = .new then fixRecord e.no false false t else giveUpClaims x t) := endWaiting_fails code hf
    rw [hend]
    refine ⟨fun hk hh => congrArg _ (if_pos ⟨hk, hh⟩), fun h => congrArg _ (if_neg ?_)⟩
    · rintro ⟨hk, hh⟩
      rcases h with h | h
      · exact h hk
      · simp [hh] at h
  · intro s r code e p he hp hr hst
    have hwait : e.st ≠ .waiting := by simp [hst]
    have hnoroll : e.st ≠ .rollingBack := by simp [hst]
    have hnorev : e.reversing = true → e.chain.head? ≠ some .returning ∧ e.chain.head? ≠ some .disconnect := by simp [hr]
    have hfailed : e.failedState = .failed := by simp [Entry.failedState, hr]
    refine ⟨?_, fun hk => ?_, fun hh hk hno => ?_⟩
    · intro hk t u roll use disconnects
      refine ⟨stepFailed_unrouted he hp (not_isRelease_new hk) hnoroll hnorev (not_isRetune_new hr hk), fun hroute => ?_⟩
      obtain ⟨hstay, hengine, htop, hnone⟩ := stepFailed_routed (code := code) he hp hr hst hk hroute
      refine ⟨hstay, hengine, fun g hc hg ha hn => ?_, fun hc hg hn => ?_⟩
      · obtain ⟨f, hx⟩ := rollBack_entry? (code := code) (w := freeEngine g u) hn he hwait (by simp [u, t])
        unfold disconnects
        rw [htop g _ hc hg ha hx]
        exact issueDisconnect_rollingBack (entry?_no he) hr hk
      · obtain ⟨f, hx⟩ := rollBack_entry? (code := code) (w := u) hn he hwait (by simp [u, t])
        unfold disconnects
        rw [hnone _ hc hg hx]
        exact issueDisconnect_rollingBack (entry?_no he) hr hk
    · have hrel : e.isRelease = false := by rcases hk with hk | hk <;> simp [Entry.isRelease, hk]
      have hret : e.isRetune = true := by rcases hk with hk | hk <;> simp [Entry.isRetune, hr, hk]
      rw [stepFailed_retune he hp hrel hnoroll hnorev hret, hfailed, if_neg (by simp [hr])]
    · have hrel : e.isRelease = true := e.isRelease_iff.2 ⟨hr, hh, hk⟩
      rw [stepFailed_inPlace he hp (.inl hrel), hfailed, if_pos hrel]
  · intro s r code e p he hp ended freed
    refine ⟨fun h => ?_, fun hst hr hc => ?_⟩
    · have hrel : e.isRelease = false := by
        rcases h with ⟨-, h | h⟩ | ⟨h, -⟩ <;> simp [Entry.isRelease, h]
      rw [stepFailed_inPlace he hp (.inr (h.imp And.left id)), if_neg (by simp [hrel])]
      rfl
    · have hrel : e.isRelease = false := by simp [Entry.isRelease, hr]
      have hret : e.isRetune = true := by rcases hc with hc | hc <;> simp [Entry.isRetune, hr, hc]
      have hnorev : e.reversing = true → e.chain.head? ≠ some .returning ∧ e.chain.head? ≠ some .disconnect := by
        rcases hc with hc | hc <;> simp [hc]
      rw [stepFailed_retune he hp hrel (by simp [hst]) hnorev hret, if_pos hr, Entry.failedState, if_pos hr]

end

/-! ### The squelch of a degree (R49, R112, R134, R144, R152) -/

namespace Sys2Proof.Machine

/-! #### A path apart from its engine -/

/-- A path but for the engine it holds. -/
def Path.bare (p : Path) : Path := { p with engine := none }

@[simp] theorem Path.squelch_pid (p : Path) : p.squelch.pid = p.pid := by
  unfold Path.squelch; split <;> rfl

theorem Path.squelch_engine (p : Path) : p.squelch.engine = p.engine := by
  unfold Path.squelch; split <;> rfl

theorem Path.squelch_bare (p : Path) : p.squelch.bare = p.bare.squelch := by
  cases h : p.st <;> simp [Path.squelch, Path.bare, h]

theorem Path.squelch_squelch (p : Path) : p.squelch.squelch = p.squelch := by
  cases h : p.st <;> simp [Path.squelch, h]

/-- The paths of the Connection Table but for their engines. -/
def State.bares (s : State) : List Path := s.table.paths.map Path.bare

theorem path?_updatePath_eq {pid : Nat} {f : Path → Path} (hf : ∀ q, (f q).pid = q.pid) (s : State) (n : Nat) :
    (updatePath pid f s).path? n = (s.path? n).map (fun q => if n = pid then f q else q) := by
  by_cases hn : n = pid
  · subst hn
    cases h : s.path? n with
    | none => simpa using path?_updatePath_none hf h
    | some q => simpa using path?_updatePath h hf
  · simp [path?_updatePath_other hf hn, hn]

theorem path?_bare (s : State) (n : Nat) : (s.path? n).map Path.bare = s.bares.find? (fun p => p.pid = n) := by
  rw [State.bares, List.find?_map]; rfl

/-- A change made to every path but for its engine is found by the path's name. -/
theorem path?_of_bares {s u : State} {f : Path → Path} (h : u.bares = s.bares.map f) (hf : ∀ q, (f q).pid = q.pid) (n : Nat) :
    (u.path? n).map Path.bare = (s.path? n).map (fun q => f q.bare) := by
  have hsame : ((fun p : Path => decide (p.pid = n)) ∘ f) = fun p : Path => decide (p.pid = n) := funext fun x => by simp [hf]
  rw [path?_bare, h, List.find?_map, hsame, ← path?_bare, Option.map_map]; rfl

theorem path?_of_mem {s : State} (hn : (s.table.paths.map (·.pid)).Nodup) {p : Path} (hp : p ∈ s.table.paths) : s.path? p.pid = some p := by
  cases h : s.path? p.pid with
  | none => exact absurd (List.find?_eq_none.1 h p hp) (by simp)
  | some q =>
    have hq : q.pid = p.pid := by simpa using List.find?_some h
    rw [List.inj_on_of_nodup_map hn (List.mem_of_find?_eq_some h) hp hq]

theorem bares_updatePath (s : State) {pid : Nat} {f g : Path → Path} (hg : ∀ q, (f q).bare = g q.bare) :
    (updatePath pid f s).bares = s.bares.map (fun b => if b.pid = pid then g b else b) := by
  simp only [State.bares, updatePath, ConnTable.update, List.map_map]
  refine List.map_congr_left fun q _ => ?_
  simp only [Function.comp_apply]
  by_cases hq : q.pid = pid
  · rw [if_pos hq, hg, if_pos (show q.bare.pid = pid from hq)]
  · rw [if_neg hq, if_neg (show ¬ q.bare.pid = pid from hq)]

/-! #### The engine that a path holds -/

/-- The engine held by the path of a name. -/
def State.pathEngine (s : State) (n : Nat) : Option EngineNo := (s.path? n).bind (·.engine)

/-- Each path's engine is held for that path (R99). -/
def EnginesHeld (s : State) : Prop := ∀ n e, s.pathEngine n = some e → ∃ o, (s.engine e).owner = some o ∧ o.pid = n

/-- What stopping a path's engine does to the engines and to what the paths hold (R112). -/
structure EngineTurn (pid : Nat) (s v : State) : Prop where
  frees : ∀ e, (s.engine e).st = .free → (v.engine e).st = .free
  stops : ∀ e, s.pathEngine pid = some e → (v.engine e).st = .free
  keeps : ∀ n e, s.pathEngine n = some e → v.pathEngine n = some e ∨ (v.engine e).st = .free
  drops : ∀ n, s.pathEngine n = none → v.pathEngine n = none
  held : EnginesHeld s → EnginesHeld v ∧ v.pathEngine pid = none

/-- What a path holds is read off the engines and the path engines alone. -/
theorem EngineTurn.of_same {pid : Nat} {s v w : State} (h : EngineTurn pid s v) (he : ∀ e, w.engine e = v.engine e)
    (hp : ∀ n, w.pathEngine n = v.pathEngine n) : EngineTurn pid s w where
  frees e hf := by rw [he]; exact h.frees e hf
  stops e hs := by rw [he]; exact h.stops e hs
  keeps n e hs := by rw [he, hp]; exact h.keeps n e hs
  drops n hn := by rw [hp]; exact h.drops n hn
  held hh := ⟨fun n e hs => by rw [he]; exact (h.held hh).1 n e (hp n ▸ hs), by rw [hp]; exact (h.held hh).2⟩

theorem pathEngine_updatePath {pid : Nat} {f : Path → Path} (hf : ∀ q, (f q).pid = q.pid) (he : ∀ q, (f q).engine = q.engine) (s : State) (n : Nat) :
    (updatePath pid f s).pathEngine n = s.pathEngine n := by
  rw [State.pathEngine, path?_updatePath_eq hf, State.pathEngine]
  cases s.path? n with
  | none => rfl
  | some q => by_cases hn : n = pid <;> simp [hn, he]

/-- A freed engine leaves the path that it served, if that path still holds it. -/
theorem pathEngine_freeEngine (e : EngineNo) (s : State) (n : Nat) : (freeEngine e s).pathEngine n =
    if (∃ o, (s.engine e).owner = some o ∧ o.pid = n) ∧ s.pathEngine n = some e then none else s.pathEngine n := by
  cases ho : (s.engine e).owner with
  | none =>
    have hsame : (freeEngine e s).pathEngine n = s.pathEngine n := by unfold freeEngine; rw [ho]; rfl
    simp [hsame]
  | some o =>
    have htable : (freeEngine e s).pathEngine n =
        (updatePath o.pid (fun p => if p.engine = some e then { p with engine := none } else p) s).pathEngine n := by
      unfold freeEngine; rw [ho]; rfl
    rw [htable, State.pathEngine, path?_updatePath_eq (fun q => by split <;> rfl), State.pathEngine]
    cases s.path? n with
    | none => simp
    | some q =>
      by_cases hn : n = o.pid
      · subst hn
        by_cases hq : q.engine = some e <;> simp [hq]
      · have hn' : ¬ o.pid = n := fun h => hn h.symm
        simp [hn, hn']

theorem freeEngine_turn {pid : Nat} {e : EngineNo} {s : State} (h : s.pathEngine pid = some e) : EngineTurn pid s (freeEngine e s) where
  frees x hx := by rw [engine_freeEngine]; split <;> [rfl; exact hx]
  stops x hx := by rw [engine_freeEngine, if_pos (Option.some.inj (h.symm.trans hx))]; rfl
  keeps n x hx := by
    rw [pathEngine_freeEngine, engine_freeEngine]
    by_cases hex : e = x
    · exact .inr (by rw [if_pos hex]; rfl)
    · exact .inl (by rw [if_neg (fun hc => hex (Option.some.inj (hc.2.symm.trans hx))), hx])
  drops n hn := by rw [pathEngine_freeEngine, hn]; simp
  held hh := by
    obtain ⟨o, ho, hpid⟩ := hh pid e h
    refine ⟨fun n x hx => ?_, by rw [pathEngine_freeEngine, if_pos ⟨⟨o, ho, hpid⟩, h⟩]⟩
    rw [pathEngine_freeEngine] at hx
    split at hx
    · cases hx
    · next hnot =>
      obtain ⟨y, hy, hyn⟩ := hh n x hx
      have hex : e ≠ x := fun hex => hnot ⟨⟨y, hex ▸ hy, hyn⟩, hex ▸ hx⟩
      exact ⟨y, by rw [engine_freeEngine, if_neg hex]; exact hy, hyn⟩

theorem stopEngine_turn {pid : Nat} {e : EngineNo} {s : State} (h : s.pathEngine pid = some e) : EngineTurn pid s (stopEngine e s) := by
  obtain ⟨frees, stops, keeps, drops, held⟩ := freeEngine_turn
    (s := withdrawCmds (fun r => match r with | .engine e' g' _ => e' = e && g' = (s.engine e).grant | _ => false) s) h
  exact ⟨frees, stops, keeps, drops, held⟩

theorem stopPathEngine_turn (pid : Nat) (s : State) : EngineTurn pid s (stopPathEngine pid s) := by
  unfold stopPathEngine
  cases h : (s.path? pid).bind (·.engine) with
  | none =>
    have hnone : s.pathEngine pid = none := h
    exact ⟨fun _ h => h, fun e he => by simp [hnone] at he, fun _ _ h => .inl h, fun _ h => h, fun hh => ⟨hh, hnone⟩⟩
  | some e => exact stopEngine_turn h

/-! #### One path's turn -/

/-- Whether a command is an entry's, a restore's or an engine's for a path (R49). -/
def Requester.serves (pid : Nat) : Requester → Bool
  | .entry _ n _ | .restore _ n _ => n = pid
  | .engine _ _ o => o.pid = pid
  | _ => false

/-- The record that a path's squelch fixes (R49): that of a completed path. -/
def Path.fixedBySquelch (p : Path) : Option RecNo := if p.st = .live ∨ p.st = .offTarget then p.owner.map (·.1) else none

/-- A path's turn but for its record: its engine stopped, what waits for it withdrawn, and the path squelched (R49). -/
def quieted (p : Path) (s : State) : State :=
  updatePath p.pid Path.squelch (withdrawCmds (Requester.serves p.pid) (withdrawEngReq p.pid (stopPathEngine p.pid s)))

/-- The record's part of a path's turn (R49). -/
def squelchFixes (p : Path) (s : State) : State :=
  match p.fixedBySquelch with
  | some r =>
    match s.path? p.pid with
    | some q => fixCompleted r (q.completed s.win.cfg .squelched) s
    | none => s
  | none => s

theorem squelchPath_eq (p : Path) (s : State) : squelchPath p s = squelchFixes p (quieted p s) := by
  cases hst : p.st <;> cases ho : p.owner <;>
    simp only [squelchPath, squelchFixes, Path.fixedBySquelch, hst, ho, Option.map_some, Option.map_none] <;> rfl

end Sys2Proof.Machine

namespace Sys2Proof.Machine

/-! #### What the turns leave -/

/-- What neither a path's squelch nor a fix of its record changes. -/
structure Unmoved (s u : State) : Prop where
  win : u.win = s.win
  power : u.power = s.power
  light : u.light = s.light
  attn : u.attn = s.attn
  intr : u.intr = s.intr
  batch : u.batch = s.batch
  urgent : u.act.urgent = s.act.urgent
  txn : u.act.txn = s.act.txn
  mods : u.act.mods = s.act.mods

theorem Unmoved.refl (s : State) : Unmoved s s := ⟨rfl, rfl, rfl, rfl, rfl, rfl, rfl, rfl, rfl⟩

theorem Unmoved.trans {s t u : State} (h : Unmoved s t) (k : Unmoved t u) : Unmoved s u :=
  ⟨k.win.trans h.win, k.power.trans h.power, k.light.trans h.light, k.attn.trans h.attn, k.intr.trans h.intr, k.batch.trans h.batch,
    k.urgent.trans h.urgent, k.txn.trans h.txn, k.mods.trans h.mods⟩

theorem freeEngine_unmoved (e : EngineNo) (s : State) : Unmoved s (freeEngine e s) :=
  ⟨by simp, by simp, by simp, by simp, by simp, by simp, by simp, by simp, by simp⟩

theorem stopPathEngine_unmoved (pid : Nat) (s : State) : Unmoved s (stopPathEngine pid s) := by
  unfold stopPathEngine
  split
  · next e _ =>
    obtain ⟨win, power, light, attn, intr, batch, urgent, txn, mods⟩ := freeEngine_unmoved e (withdrawCmds
      (fun r => match r with | .engine e' g' _ => e' = e && g' = (s.engine e).grant | _ => false) s)
    exact ⟨win, power, light, attn, intr, batch, urgent, txn, mods⟩
  · exact .refl s

theorem quieted_unmoved (p : Path) (s : State) : Unmoved s (quieted p s) := by
  obtain ⟨win, power, light, attn, intr, batch, urgent, txn, mods⟩ := stopPathEngine_unmoved p.pid s
  exact ⟨win, power, light, attn, intr, batch, urgent, txn, mods⟩

theorem fixCompleted_unmoved (r : RecNo) (c : Completed) (s : State) : Unmoved s (fixCompleted r c s) := by
  rw [(fixCompleted_dues r c s).only]; exact ⟨rfl, rfl, rfl, rfl, rfl, rfl, rfl, rfl, rfl⟩

/-- A record's part of a turn fixes that record or nothing. -/
theorem squelchFixes_cases (p : Path) (s : State) :
    squelchFixes p s = s ∨ ∃ r q, p.fixedBySquelch = some r ∧ s.path? p.pid = some q ∧
      squelchFixes p s = fixCompleted r (q.completed s.win.cfg .squelched) s := by
  unfold squelchFixes
  split
  · next r hr =>
    split
    · next q hq => exact .inr ⟨r, q, hr, hq, rfl⟩
    · exact .inl rfl
  · exact .inl rfl

theorem squelchFixes_dues (p : Path) (s : State) : Dues s (squelchFixes p s) := by
  rcases squelchFixes_cases p s with h | ⟨r, q, -, -, h⟩ <;> rw [h]
  · exact .refl s
  · exact fixCompleted_dues _ _ s

theorem squelchPath_unmoved (p : Path) (s : State) : Unmoved s (squelchPath p s) := by
  rw [squelchPath_eq]
  refine (quieted_unmoved p s).trans ?_
  rw [(squelchFixes_dues p (quieted p s)).only]
  exact ⟨rfl, rfl, rfl, rfl, rfl, rfl, rfl, rfl, rfl⟩

theorem foldl_squelchPath_unmoved (l : List Path) (s : State) : Unmoved s (l.foldl (fun s p => squelchPath p s) s) :=
  List.foldlRecOn l _ (.refl s) fun t ht p _ => ht.trans (squelchPath_unmoved p t)

/-! #### The paths and engines through the turns -/

theorem stopPathEngine_bares (pid : Nat) (s : State) : (stopPathEngine pid s).bares = s.bares := by
  have hfree : ∀ (e : EngineNo) (t : State), (freeEngine e t).bares = t.bares := by
    intro e t
    cases ho : (t.engine e).owner with
    | none => unfold freeEngine; rw [ho]; rfl
    | some o =>
      have hsame : (freeEngine e t).bares =
          (updatePath o.pid (fun p => if p.engine = some e then { p with engine := none } else p) t).bares := by unfold freeEngine; rw [ho]; rfl
      rw [hsame, bares_updatePath (g := id) t (fun q => by split <;> rfl)]
      simp
  unfold stopPathEngine
  split
  · exact hfree _ (withdrawCmds _ s)
  · rfl

theorem squelchFixes_paths (p : Path) (s : State) : (squelchFixes p s).table.paths = s.table.paths := by
  rw [(squelchFixes_dues p s).only]

/-- A path's turn squelches it and no other (R49). -/
theorem squelchPath_bares (p : Path) (s : State) : (squelchPath p s).bares = s.bares.map (fun b => if b.pid = p.pid then b.squelch else b) := by
  have hfix : (squelchPath p s).bares = (quieted p s).bares := by rw [squelchPath_eq, State.bares, squelchFixes_paths]; rfl
  rw [hfix, quieted, bares_updatePath _ Path.squelch_bare]
  exact congrArg _ (stopPathEngine_bares p.pid s)

theorem foldl_squelchPath_bares (l : List Path) (s : State) : (l.foldl (fun s p => squelchPath p s) s).bares =
    s.bares.map (fun b => if b.pid ∈ l.map (·.pid) then b.squelch else b) := by
  induction l generalizing s with
  | nil => simp
  | cons p l ih =>
    rw [List.foldl_cons, ih, squelchPath_bares, List.map_map]
    refine List.map_congr_left fun b _ => ?_
    simp only [Function.comp_apply, List.map_cons, List.mem_cons]
    by_cases hp : b.pid = p.pid
    · rw [if_pos hp, Path.squelch_squelch, if_pos (show b.pid = p.pid ∨ b.pid ∈ l.map (·.pid) from .inl hp)]
      exact ite_self _
    · simp [hp]

theorem squelchPath_turn (p : Path) (s : State) : EngineTurn p.pid s (squelchPath p s) := by
  refine (stopPathEngine_turn p.pid s).of_same (fun e => ?_) fun n => ?_
  · rw [squelchPath_eq, State.engine, (squelchFixes_dues p (quieted p s)).only]; rfl
  · have hfix : (squelchPath p s).pathEngine n = (quieted p s).pathEngine n := by
      rw [squelchPath_eq, State.pathEngine, State.path?, ConnTable.path?, squelchFixes_paths]; rfl
    rw [hfix, quieted, pathEngine_updatePath Path.squelch_pid Path.squelch_engine]
    rfl

/-- The engine of each path in turn is FREE in the end (R112). -/
theorem foldl_squelchPath_frees {l : List Path} {p : Path} {e : EngineNo} (hp : p ∈ l) {s : State} (he : s.pathEngine p.pid = some e) :
    ((l.foldl (fun s p => squelchPath p s) s).engine e).st = .free := by
  have hfree : ∀ (t : State) (q : Path), (t.engine e).st = .free → ((squelchPath q t).engine e).st = .free :=
    fun t q => (squelchPath_turn q t).frees e
  induction l generalizing s with
  | nil => cases hp
  | cons q l ih =>
    rw [List.foldl_cons]
    rcases (squelchPath_turn q s).keeps p.pid e he with hk | hk
    · rcases List.mem_cons.1 hp with rfl | hp
      · exact foldl_keeps_prop (P := fun t => (t.engine e).st = .free) hfree l ((squelchPath_turn p s).stops e he)
      · exact ih hp hk
    · exact foldl_keeps_prop (P := fun t => (t.engine e).st = .free) hfree l hk

theorem foldl_squelchPath_held {s : State} (h : EnginesHeld s) (l : List Path) : EnginesHeld (l.foldl (fun s p => squelchPath p s) s) :=
  foldl_keeps_prop (fun t p ht => ((squelchPath_turn p t).held ht).1) l h

/-- Where engines are held as R99 says, no path that had its turn holds one. -/
theorem foldl_squelchPath_engineless {l : List Path} {p : Path} (hp : p ∈ l) {s : State} (h : EnginesHeld s) :
    (l.foldl (fun s p => squelchPath p s) s).pathEngine p.pid = none := by
  induction l generalizing s with
  | nil => cases hp
  | cons q l ih =>
    obtain ⟨hheld, hnone⟩ := (squelchPath_turn q s).held h
    rcases List.mem_cons.1 hp with rfl | hp
    · exact foldl_keeps_prop (P := fun t => t.pathEngine p.pid = none) (fun t q ht => (squelchPath_turn q t).drops _ ht) l hnone
    · exact ih hp hheld

/-! #### What waits for a path -/

theorem stopPathEngine_stops (pid : Nat) (s : State) : EnginesStopped s (stopPathEngine pid s) := by
  unfold stopPathEngine
  split
  · exact stopEngine_stops _ s
  · exact .refl s

theorem squelchPath_cmds {p : Path} {s : State} {c : ActCmd} (h : c ∈ (squelchPath p s).act.ordinary ++ (squelchPath p s).act.wait) :
    c ∈ s.act.ordinary ++ s.act.wait ∧ c.req.serves p.pid = false := by
  rw [squelchPath_eq, (squelchFixes_dues p (quieted p s)).only] at h
  obtain ⟨hm, hserves⟩ := (mem_withdrawCmds (Requester.serves p.pid) (withdrawEngReq p.pid (stopPathEngine p.pid s)) c).1 h
  exact ⟨(stopPathEngine_stops p.pid s).cmds c hm, hserves⟩

theorem squelchPath_wait (p : Path) (s : State) : (squelchPath p s).ramp.wait = s.ramp.wait.filter (fun r => r.owner.pid ≠ p.pid) := by
  rw [squelchPath_eq, (squelchFixes_dues p (quieted p s)).only, ← (stopPathEngine_stops p.pid s).wait]
  rfl

/-- Nothing in the queues is left for a path that had its turn (R49, R112, R133). -/
theorem foldl_squelchPath_withdrawn {l : List Path} {p : Path} (hp : p ∈ l) (s : State) :
    let u := l.foldl (fun s p => squelchPath p s) s
    (∀ c ∈ u.act.ordinary ++ u.act.wait, c.req.serves p.pid = false) ∧ ∀ r ∈ u.ramp.wait, r.owner.pid ≠ p.pid := by
  intro u
  refine foldl_makes (f := fun s p => squelchPath p s)
    (P := fun u => (∀ c ∈ u.act.ordinary ++ u.act.wait, c.req.serves p.pid = false) ∧ ∀ r ∈ u.ramp.wait, r.owner.pid ≠ p.pid)
    (fun t q ht => ⟨fun c hc => ht.1 c (squelchPath_cmds hc).1, fun r hr => ht.2 r ?_⟩)
    (fun t => ⟨fun c hc => (squelchPath_cmds hc).2, fun r hr => ?_⟩) hp s
  · rw [squelchPath_wait] at hr; exact List.mem_of_mem_filter hr
  · rw [squelchPath_wait] at hr; simpa using (List.mem_filter.1 hr).2

end Sys2Proof.Machine

namespace Sys2Proof.Machine

/-- What one step makes of a state of a kind that every step keeps holds after the pass. -/
theorem foldl_makes_of {α : Type} {f : State → α → State} {I P : State → Prop} (inv : ∀ s b, I s → I (f s b)) (keeps : ∀ s b, P s → P (f s b))
    {a : α} (makes : ∀ s, I s → P (f s a)) {l : List α} (h : a ∈ l) {s : State} (hs : I s) : P (l.foldl f s) := by
  induction l generalizing s with
  | nil => cases h
  | cons b l ih =>
    rcases List.mem_cons.mp h with rfl | h
    · exact foldl_keeps_prop keeps l (makes s hs)
    · exact ih h (inv s b hs)

/-! #### The records fixed (R41, R49) -/

/-- Writes of active records asked for, and no other request added or gone. -/
def AsksActive (s u : State) : Prop := ∃ l : List RecNo, u.port = s.port ++ l.map .active

theorem AsksActive.refl (s : State) : AsksActive s s := ⟨[], by simp⟩

theorem AsksActive.trans {s t u : State} (h : AsksActive s t) (k : AsksActive t u) : AsksActive s u := by
  obtain ⟨l, hl⟩ := h
  obtain ⟨m, hm⟩ := k
  exact ⟨l ++ m, by rw [hm, hl]; simp⟩

theorem AsksActive.mem {s u : State} (h : AsksActive s u) {x : PortReq} (hx : x ∈ s.port) : x ∈ u.port := by
  obtain ⟨l, hl⟩ := h
  exact hl ▸ List.mem_append_left _ hx

theorem AsksActive.count_light {s u : State} (h : AsksActive s u) : u.port.count .light = s.port.count .light := by
  obtain ⟨l, hl⟩ := h
  have hnone : (l.map PortReq.active).count .light = 0 := List.count_eq_zero.2 (by simp)
  rw [hl, List.count_append, hnone, Nat.add_zero]

theorem activeDue_asks (r : RecNo) (s : State) : AsksActive s (activeDue r s) := by
  rw [activeDue_eq]
  by_cases h : PortReq.active r ∈ s.port
  · exact ⟨[], by simp [h]⟩
  · exact ⟨[r], by simp [h]⟩

theorem fixCompleted_asks (r : RecNo) (c : Completed) (s : State) : AsksActive s (fixCompleted r c s) := activeDue_asks r (setCompleted r c s)

theorem stopPathEngine_port (pid : Nat) (s : State) : (stopPathEngine pid s).port = s.port := by
  unfold stopPathEngine; split <;> simp

theorem squelchPath_asks (p : Path) (s : State) : AsksActive s (squelchPath p s) := by
  have hquiet : (quieted p s).port = s.port := stopPathEngine_port p.pid s
  obtain ⟨l, hl⟩ : AsksActive (quieted p s) (squelchPath p s) := by
    rw [squelchPath_eq]
    rcases squelchFixes_cases p (quieted p s) with h | ⟨r, q, -, -, h⟩ <;> rw [h]
    · exact .refl _
    · exact fixCompleted_asks _ _ _
  exact ⟨l, hquiet ▸ hl⟩

theorem foldl_squelchPath_asks (l : List Path) (s : State) : AsksActive s (l.foldl (fun s p => squelchPath p s) s) :=
  List.foldlRecOn l _ (.refl s) fun t ht p _ => ht.trans (squelchPath_asks p t)

theorem Path.fixedBySquelch_eq_some {p : Path} {r : RecNo} :
    p.fixedBySquelch = some r ↔ (p.st = .live ∨ p.st = .offTarget) ∧ ∃ k, p.owner = some (r, k) := by
  unfold Path.fixedBySquelch
  split
  · next h => simp [h]
  · next h => simp [h]

theorem freeEngine_done (e : EngineNo) (s : State) : (freeEngine e s).table.done = s.table.done := by
  unfold freeEngine; split <;> rfl

theorem stopPathEngine_done (pid : Nat) (s : State) : (stopPathEngine pid s).table.done = s.table.done := by
  unfold stopPathEngine
  split
  · rw [stopEngine, freeEngine_done]; rfl
  · rfl

theorem completed_quieted (p : Path) (r : RecNo) (s : State) : (quieted p s).completed r = s.completed r :=
  congrArg (doneGet r) (stopPathEngine_done p.pid s)

theorem completed_squelchPath_other {p : Path} {r : RecNo} (h : p.fixedBySquelch ≠ some r) (s : State) :
    (squelchPath p s).completed r = s.completed r := by
  have hquiet := completed_quieted p r s
  rw [squelchPath_eq]
  rcases squelchFixes_cases p (quieted p s) with hf | ⟨n, q, hn, -, hf⟩ <;> rw [hf]
  · exact hquiet
  · rw [completed_fixCompleted_other (fun he => h (by rw [he]; exact hn))]
    exact hquiet

theorem completed_foldl_squelchPath_other {l : List Path} {r : RecNo} (h : ∀ p ∈ l, p.fixedBySquelch ≠ some r) (s : State) :
    (l.foldl (fun s p => squelchPath p s) s).completed r = s.completed r :=
  List.foldlRecOn (motive := fun t => t.completed r = s.completed r) l _ rfl fun t ht p hp => (completed_squelchPath_other (h p hp) t).trans ht

/-- A path of the table with the host fields and the place of another: what its record's fix goes by. -/
def State.showsPath (s : State) (p : Path) : Prop := ∃ q, s.path? p.pid = some q ∧ q.host = p.host ∧ q.dst = p.dst

theorem Path.squelch_host (p : Path) : p.squelch.host = p.host ∧ p.squelch.dst = p.dst := by
  cases h : p.st <;> simp [Path.squelch, Path.host, h]

theorem showsPath_of_bares {s u : State} {f : Path → Path} (h : u.bares = s.bares.map f) (hf : ∀ q, (f q).pid = q.pid)
    (hh : ∀ q, (f q).host = q.host ∧ (f q).dst = q.dst) {p : Path} (hp : s.showsPath p) : u.showsPath p := by
  obtain ⟨q, hq, hhost, hdst⟩ := hp
  have hu := path?_of_bares h hf p.pid
  rw [hq, Option.map_some] at hu
  obtain ⟨x, hx, hxq⟩ := Option.map_eq_some_iff.1 hu
  obtain ⟨hhost', hdst'⟩ := hh q.bare
  have hb := congrArg Path.host hxq
  have hd := congrArg Path.dst hxq
  exact ⟨x, hx, (show x.host = _ from hb.trans hhost').trans hhost, (show x.dst = _ from hd.trans hdst').trans hdst⟩

theorem squelchPath_showsPath (q : Path) {s : State} {p : Path} (hp : s.showsPath p) : (squelchPath q s).showsPath p :=
  showsPath_of_bares (squelchPath_bares q s) (fun b => by split <;> simp) (fun b => by split <;> [exact b.squelch_host; exact ⟨rfl, rfl⟩]) hp

/-- A completed path's record is fixed SQUELCHED at the fill's attenuation, and its write asked for (R41, R49). -/
theorem squelchPath_fixes {p : Path} {r : RecNo} {s : State} (hr : p.fixedBySquelch = some r) (hp : s.showsPath p) :
    PortReq.active r ∈ (squelchPath p s).port ∧ ∀ f, p.host = some f → (squelchPath p s).completed r =
      .path { st := .squelched, host := f, att := (fillOf s.win.cfg p.dst.out).att, measured := powerAverage s (Res.ofDst f.dst) f.slot } := by
  have hq : (quieted p s).showsPath p := by
    refine showsPath_of_bares (f := fun b => if b.pid = p.pid then b.squelch else b) ?_ (fun b => by split <;> simp)
      (fun b => by split <;> [exact b.squelch_host; exact ⟨rfl, rfl⟩]) hp
    rw [quieted, bares_updatePath _ Path.squelch_bare]
    exact congrArg _ (stopPathEngine_bares p.pid s)
  obtain ⟨q, hq, hhost, hdst⟩ := hq
  have hmoved := quieted_unmoved p s
  have hfix : squelchPath p s = fixCompleted r (q.completed s.win.cfg .squelched) (quieted p s) := by
    rw [squelchPath_eq, squelchFixes, hr, ← hmoved.win]; simp only [hq]
  refine ⟨hfix ▸ activeDue_mem r _, fun f hf => ?_⟩
  have hdone : q.completed s.win.cfg .squelched =
      .path { st := .squelched, host := f, att := (fillOf s.win.cfg p.dst.out).att, measured := none } := by
    simp [Path.completed, hhost, hf, hdst]
  rw [hfix, hdone, completed_fixCompleted_path]
  simp only [powerAverage, hmoved.power]

/-- Through all turns, the record of one completed path alone. -/
theorem foldl_squelchPath_fixes {l : List Path} {p : Path} {r : RecNo} (hl : p ∈ l) (hr : p.fixedBySquelch = some r) {s : State}
    (hp : s.showsPath p) :
    PortReq.active r ∈ (l.foldl (fun s p => squelchPath p s) s).port ∧
    ((∀ q ∈ l, q.fixedBySquelch = some r → q = p) → ∀ f, p.host = some f → (l.foldl (fun s p => squelchPath p s) s).completed r =
      .path { st := .squelched, host := f, att := (fillOf s.win.cfg p.dst.out).att, measured := powerAverage s (Res.ofDst f.dst) f.slot }) := by
  induction l generalizing s with
  | nil => cases hl
  | cons a l ih =>
    rw [List.foldl_cons]
    have hmoved := squelchPath_unmoved a s
    by_cases hpl : p ∈ l
    · obtain ⟨hport, hdone⟩ := ih hpl (squelchPath_showsPath a hp)
      refine ⟨hport, fun hone f hf => ?_⟩
      rw [hdone (fun q hq => hone q (List.mem_cons_of_mem _ hq)) f hf, hmoved.win, powerAverage, hmoved.power]; rfl
    · obtain rfl : p = a := (List.mem_cons.1 hl).resolve_right hpl
      obtain ⟨hport, hdone⟩ := squelchPath_fixes hr hp
      refine ⟨(foldl_squelchPath_asks l _).mem hport, fun hone f hf => ?_⟩
      rw [completed_foldl_squelchPath_other (fun q hq hqr => hpl (hone q (List.mem_cons_of_mem _ hq) hqr ▸ hq)), hdone f hf]

/-! #### The squelch bursts (R134) -/

/-- A squelch burst that covers a slot of a module. -/
def ActCmd.covers (o : OutPoint) (n : Slot) (c : ActCmd) : Prop :=
  c.module = o ∧ c.req = .squelch ∧ c.start ≤ n.val ∧ n.val < c.start + c.count

/-- A waiting squelch burst of a module, widened to a slot (R134). -/
def ActCmd.widened (o : OutPoint) (n : Slot) (c : ActCmd) : ActCmd :=
  if c.module = o ∧ c.req = .squelch then
    { c with start := min c.start n.val, count := max (c.start + c.count) (n.val + 1) - min c.start n.val }
  else c

theorem squelchSlot_faulted {s : State} {o : OutPoint} (h : isFaulted s o = true) (n : Slot) : squelchSlot o n s = s := if_pos h

/-- A slot handed for a squelch changes the urgent class alone: its module's burst is widened, or a new one joins (R134). -/
theorem squelchSlot_handed {s : State} {o : OutPoint} (h : isFaulted s o = false) (n : Slot) :
    squelchSlot o n s = { s with act := { s.act with urgent :=
      if ∃ c ∈ s.act.urgent, c.module = o ∧ c.req = .squelch then s.act.urgent.map (ActCmd.widened o n)
      else s.act.urgent ++ [{ module := o, kind := .route, start := n.val, count := 1, vals := [], built := false, req := .squelch }] } } := by
  have hany : s.act.urgent.any (fun c => c.module = o && c.req = .squelch) = true ↔ ∃ c ∈ s.act.urgent, c.module = o ∧ c.req = .squelch := by
    simp
  by_cases hb : ∃ c ∈ s.act.urgent, c.module = o ∧ c.req = .squelch
  · simp only [squelchSlot, h, hany.2 hb, if_pos hb, if_true, Bool.false_eq_true, if_false]
    refine congrArg (fun l => { s with act := { s.act with urgent := l } }) (List.map_congr_left fun c _ => ?_)
    simp only [ActCmd.widened, Bool.and_eq_true, decide_eq_true_eq]
  · have hnone : s.act.urgent.any (fun c => c.module = o && c.req = .squelch) = false := by rw [← Bool.not_eq_true, hany]; exact hb
    simp only [squelchSlot, h, hnone, if_neg hb, Bool.false_eq_true, if_false, queueUrgent]

theorem squelchSlot_act (o : OutPoint) (n : Slot) (s : State) : ∃ l, squelchSlot o n s = { s with act := { s.act with urgent := l } } := by
  cases h : isFaulted s o
  · exact ⟨_, squelchSlot_handed h n⟩
  · exact ⟨_, squelchSlot_faulted h n⟩

theorem ActCmd.widened_covers {o p : OutPoint} {n m : Slot} {c : ActCmd} (h : c.covers p m) : (c.widened o n).covers p m := by
  obtain ⟨hm, hr, h1, h2⟩ := h
  unfold ActCmd.widened
  split
  · exact ⟨hm, hr, by dsimp only; omega, by dsimp only; omega⟩
  · exact ⟨hm, hr, h1, h2⟩

theorem squelchSlot_keeps_cover {o p : OutPoint} {n m : Slot} {s : State} (h : ∃ c ∈ s.act.urgent, c.covers p m) :
    ∃ c ∈ (squelchSlot o n s).act.urgent, c.covers p m := by
  obtain ⟨c, hc, hcov⟩ := h
  cases hf : isFaulted s o with
  | true => rw [squelchSlot_faulted hf]; exact ⟨c, hc, hcov⟩
  | false =>
    rw [squelchSlot_handed hf]
    dsimp only
    split
    · exact ⟨_, List.mem_map_of_mem hc, ActCmd.widened_covers hcov⟩
    · exact ⟨c, List.mem_append_left _ hc, hcov⟩

/-- A slot handed is covered by an urgent burst. -/
theorem squelchSlot_covers {o : OutPoint} (n : Slot) {s : State} (hf : isFaulted s o = false) :
    ∃ c ∈ (squelchSlot o n s).act.urgent, c.covers o n := by
  rw [squelchSlot_handed hf]
  dsimp only
  split
  · next h =>
    obtain ⟨c, hc, hm, hr⟩ := h
    refine ⟨_, List.mem_map_of_mem hc, ?_⟩
    rw [ActCmd.widened, if_pos ⟨hm, hr⟩]
    exact ⟨hm, hr, by dsimp only; omega, by dsimp only; omega⟩
  · exact ⟨_, List.mem_append_right _ List.mem_cons_self, rfl, rfl, Nat.le_refl _, Nat.lt_succ_self _⟩

/-- The slots that the paths of a list hand over. -/
def handSlots (l : List Path) (s : State) : State := l.foldl (fun s p => squelchSlot p.dst.out p.slot s) s

theorem handSlots_act (l : List Path) (s : State) : ∃ u, handSlots l s = { s with act := { s.act with urgent := u } } :=
  foldl_keeps_prop (P := fun t => ∃ u, t = { s with act := { s.act with urgent := u } }) (fun t p ht => by
    obtain ⟨u, rfl⟩ := ht
    exact squelchSlot_act p.dst.out p.slot _) l ⟨s.act.urgent, rfl⟩

theorem handSlots_covers {l : List Path} {p : Path} (hp : p ∈ l) {s : State} (hf : isFaulted s p.dst.out = false) :
    ∃ c ∈ (handSlots l s).act.urgent, c.covers p.dst.out p.slot := by
  refine foldl_makes_of (f := fun s p => squelchSlot p.dst.out p.slot s) (I := fun t => isFaulted t p.dst.out = false)
    (P := fun t => ∃ c ∈ t.act.urgent, c.covers p.dst.out p.slot)
    (fun t q ht => ?_) (fun t q ht => squelchSlot_keeps_cover ht) (fun t ht => squelchSlot_covers p.slot ht) hp hf
  obtain ⟨u, hu⟩ := squelchSlot_act q.dst.out q.slot t
  rw [hu]; exact ht

end Sys2Proof.Machine

namespace Sys2Proof.Machine

/-! #### A degree's paths squelched -/

/-- The paths that a degree feeds. -/
def fedBy (d : Degree) (s : State) : List Path := s.table.paths.filter (fun p => p.src = .deg d)

/-- The degree's paths after their turns. -/
def fedTurns (d : Degree) (s : State) : State := (fedBy d s).foldl (fun s p => squelchPath p s) s

/-- A degree squelched, but for the begun restores that it stops. -/
def squelchedFed (d : Degree) (s : State) : State :=
  let v := handSlots ((fedBy d s).filter Path.handsSlot) (fedTurns d s)
  { v with light := { v.light with restoreList := v.light.restoreList.filter (fun x => x.2 ≠ d) } }

/-- The restores of a list stopped, one after the other (R152). -/
def stopRestores (l : List Restore) (s : State) : State := l.foldl (fun s x => stopRestore x s) s

theorem squelchDegree_eq (d : Degree) (s : State) : squelchDegree d s = stopRestores
    ((squelchedFed d s).light.begun.filter (fun x => (fedBy d s).any (fun p => p.pid = x.pid))) (squelchedFed d s) := rfl

/-- Beside the turns, the squelch changes the urgent class and the Restore List alone. -/
theorem squelchedFed_eq (d : Degree) (s : State) : ∃ u, squelchedFed d s = { fedTurns d s with
    act := { (fedTurns d s).act with urgent := u }
    light := { s.light with restoreList := s.light.restoreList.filter (fun x => x.2 ≠ d) } } := by
  obtain ⟨u, hu⟩ := handSlots_act ((fedBy d s).filter Path.handsSlot) (fedTurns d s)
  have hlight : (fedTurns d s).light = s.light := (foldl_squelchPath_unmoved _ s).light
  refine ⟨u, ?_⟩
  simp only [squelchedFed, hu, hlight]

theorem mem_fedBy {d : Degree} {s : State} {p : Path} : p ∈ fedBy d s ↔ p ∈ s.table.paths ∧ p.src = .deg d := by
  simp [fedBy]

section
variable {d : Degree} {s : State}

theorem squelchedFed_asks : AsksActive s (squelchedFed d s) := by
  obtain ⟨u, hu⟩ := squelchedFed_eq d s
  rw [hu]; exact foldl_squelchPath_asks _ s

theorem squelchedFed_light : (squelchedFed d s).light = { s.light with restoreList := s.light.restoreList.filter (fun x => x.2 ≠ d) } := by
  obtain ⟨u, hu⟩ := squelchedFed_eq d s
  rw [hu]

/-- What a squelch leaves but for the urgent class and the Restore List. -/
theorem squelchedFed_unmoved : (squelchedFed d s).attn = s.attn ∧ (squelchedFed d s).batch = s.batch ∧ (squelchedFed d s).win = s.win ∧
    (squelchedFed d s).power = s.power ∧ (squelchedFed d s).act.txn = s.act.txn := by
  obtain ⟨u, hu⟩ := squelchedFed_eq d s
  have hmoved := foldl_squelchPath_unmoved (fedBy d s) s
  rw [hu]
  exact ⟨hmoved.attn, hmoved.batch, hmoved.win, hmoved.power, hmoved.txn⟩

section
variable (hn : (s.table.paths.map (·.pid)).Nodup) {p : Path} (hp : p ∈ s.table.paths)
include hn hp

theorem fedBy_names : p.pid ∈ (fedBy d s).map (·.pid) ↔ p.src = .deg d := by
  refine ⟨fun h => ?_, fun h => List.mem_map.2 ⟨p, mem_fedBy.2 ⟨hp, h⟩, rfl⟩⟩
  obtain ⟨q, hq, hqp⟩ := List.mem_map.1 h
  obtain ⟨hqm, hqd⟩ := mem_fedBy.1 hq
  rwa [← List.inj_on_of_nodup_map hn hqm hp hqp]

/-- Each path is found squelched by its state if the degree feeds it, and else as it was, but for its engine (R49). -/
theorem squelchedFed_path? : ∃ q, (squelchedFed d s).path? p.pid = some q ∧ q.bare = if p.src = .deg d then p.squelch.bare else p.bare := by
  obtain ⟨u, hu⟩ := squelchedFed_eq d s
  have hpath : ((squelchedFed d s).path? p.pid).map Path.bare =
      (s.path? p.pid).map (fun q => if q.pid ∈ (fedBy d s).map (·.pid) then q.bare.squelch else q.bare) := by
    rw [hu]
    exact path?_of_bares (foldl_squelchPath_bares (fedBy d s) s) (fun q => by split <;> simp) p.pid
  rw [path?_of_mem hn hp, Option.map_some] at hpath
  obtain ⟨q, hq, hqb⟩ := Option.map_eq_some_iff.1 hpath
  refine ⟨q, hq, hqb.trans ?_⟩
  rw [Path.squelch_bare]
  exact if_congr (fedBy_names hn hp) rfl rfl

end

section
variable (hn : (s.table.paths.map (·.pid)).Nodup) {p : Path} (hp : p ∈ s.table.paths) (hd : p.src = .deg d)
include hp hd

include hn in
theorem squelchedFed_frees {e : EngineNo} (he : p.engine = some e) : ((squelchedFed d s).engine e).st = .free := by
  obtain ⟨u, hu⟩ := squelchedFed_eq d s
  have hpe : s.pathEngine p.pid = some e := by rw [State.pathEngine, path?_of_mem hn hp]; exact he
  rw [hu]
  exact foldl_squelchPath_frees (mem_fedBy.2 ⟨hp, hd⟩) hpe

theorem squelchedFed_engineless (hh : EnginesHeld s) : (squelchedFed d s).pathEngine p.pid = none := by
  obtain ⟨u, hu⟩ := squelchedFed_eq d s
  rw [hu]
  exact foldl_squelchPath_engineless (mem_fedBy.2 ⟨hp, hd⟩) hh

theorem squelchedFed_withdrawn :
    (∀ c ∈ (squelchedFed d s).act.ordinary ++ (squelchedFed d s).act.wait, c.req.serves p.pid = false) ∧
    ∀ r ∈ (squelchedFed d s).ramp.wait, r.owner.pid ≠ p.pid := by
  obtain ⟨u, hu⟩ := squelchedFed_eq d s
  rw [hu]
  exact foldl_squelchPath_withdrawn (mem_fedBy.2 ⟨hp, hd⟩) s

theorem squelchedFed_covers (hs : p.handsSlot = true) (hf : isFaulted s p.dst.out = false) :
    ∃ c ∈ (squelchedFed d s).act.urgent, c.covers p.dst.out p.slot := by
  refine handSlots_covers (List.mem_filter.2 ⟨mem_fedBy.2 ⟨hp, hd⟩, hs⟩) ?_
  rw [isFaulted, fedTurns, (foldl_squelchPath_unmoved (fedBy d s) s).mods]; exact hf

include hn in
theorem squelchedFed_fixes {r : RecNo} (hr : p.fixedBySquelch = some r) : PortReq.active r ∈ (squelchedFed d s).port ∧
    ((∀ q ∈ s.table.paths, q.src = .deg d → q.fixedBySquelch = some r → q = p) → ∀ f, p.host = some f → (squelchedFed d s).completed r =
      .path { st := .squelched, host := f, att := (fillOf s.win.cfg p.dst.out).att, measured := powerAverage s (Res.ofDst f.dst) f.slot }) := by
  obtain ⟨u, hu⟩ := squelchedFed_eq d s
  obtain ⟨hport, hdone⟩ := foldl_squelchPath_fixes (mem_fedBy.2 ⟨hp, hd⟩) hr (s := s) ⟨p, path?_of_mem hn hp, rfl, rfl⟩
  rw [hu]
  exact ⟨hport, fun hone => hdone fun q hq hqr => hone q (mem_fedBy.1 hq).1 (mem_fedBy.1 hq).2 hqr⟩

end

theorem completed_squelchedFed_other {r : RecNo} (h : ∀ p ∈ s.table.paths, p.src = .deg d → p.fixedBySquelch ≠ some r) :
    (squelchedFed d s).completed r = s.completed r := by
  obtain ⟨u, hu⟩ := squelchedFed_eq d s
  rw [hu]
  exact completed_foldl_squelchPath_other (fun p hp => h p (mem_fedBy.1 hp).1 (mem_fedBy.1 hp).2) s

end

/-! #### What a whole squelch leaves -/

theorem fixRecord_asks (r : RecNo) (v x : Bool) (s : State) : AsksActive s (fixRecord r v x s) := by
  simp only [fixRecord]
  split
  · exact fixCompleted_asks r _ _
  · next p l hp => cases (p.atFix x).2 <;> exact activeDue_asks r _

theorem stopRestore_frame (x : Restore) (s : State) : (stopRestore x s).attn = s.attn ∧ (stopRestore x s).batch = s.batch ∧
    (stopRestore x s).win = s.win ∧ (stopRestore x s).light = { s.light with begun := s.light.begun.filter (fun y => y.no ≠ x.no) } := by
  simp [stopRestore, dropRequester]

theorem stopRestore_asks (x : Restore) (s : State) : AsksActive s (stopRestore x s) := by
  obtain ⟨l, hl⟩ := fixRecord_asks x.no false true (updatePath x.pid
    (fun p => { p with st := .squelched, route := .fill, squelched := false, rerouting := false }) (dropRequester x.no s))
  exact ⟨l, hl⟩

/-- Restores stopped leave the Restore List and everything but their paths, records and command. -/
theorem stopRestores_frame (l : List Restore) (s : State) : (stopRestores l s).attn = s.attn ∧ (stopRestores l s).batch = s.batch ∧
    (stopRestores l s).win = s.win ∧ AsksActive s (stopRestores l s) ∧
    (stopRestores l s).light = { s.light with begun := (stopRestores l s).light.begun } := by
  refine foldl_keeps_prop (f := fun s x => stopRestore x s) (P := fun t => t.attn = s.attn ∧ t.batch = s.batch ∧ t.win = s.win ∧ AsksActive s t ∧
    t.light = { s.light with begun := t.light.begun }) (fun t x ht => ?_) l ⟨rfl, rfl, rfl, .refl s, rfl⟩
  obtain ⟨hattn, hbatch, hwin, hasks, hlight⟩ := ht
  obtain ⟨hattn', hbatch', hwin', hlight'⟩ := stopRestore_frame x t
  refine ⟨hattn'.trans hattn, hbatch'.trans hbatch, hwin'.trans hwin, hasks.trans (stopRestore_asks x t), ?_⟩
  rw [hlight', hlight]

theorem squelchDegree_frame (d : Degree) (s : State) : (squelchDegree d s).attn = s.attn ∧ (squelchDegree d s).batch = s.batch ∧
    (squelchDegree d s).win = s.win ∧ AsksActive s (squelchDegree d s) ∧ (squelchDegree d s).light =
      { s.light with restoreList := s.light.restoreList.filter (fun x => x.2 ≠ d), begun := (squelchDegree d s).light.begun } := by
  obtain ⟨hattn, hbatch, hwin, -, -⟩ := squelchedFed_unmoved (d := d) (s := s)
  rw [squelchDegree_eq]
  obtain ⟨hattn', hbatch', hwin', hasks', hlight'⟩ := stopRestores_frame
    ((squelchedFed d s).light.begun.filter (fun x => (fedBy d s).any (fun p => p.pid = x.pid))) (squelchedFed d s)
  refine ⟨hattn'.trans hattn, hbatch'.trans hbatch, hwin'.trans hwin, squelchedFed_asks.trans hasks', hlight'.trans ?_⟩
  simp only [squelchedFed_light]

/-- Where no restore is begun, none is stopped. -/
theorem squelchDegree_unbegun {d : Degree} {s : State} (h : s.light.begun = []) : squelchDegree d s = squelchedFed d s := by
  have hb : (squelchedFed d s).light.begun = [] := by rw [squelchedFed_light]; exact h
  rw [squelchDegree_eq, hb]; rfl

end Sys2Proof.Machine

namespace Sys2Proof.Machine

/-! #### The light events (R142, R144, R145) -/

theorem lightChange_light (d : Degree) (l : LightState) (s : State) : (lightChange d l s).light =
    { s.light with state := s.light.state.set d l, changeSet := s.light.changeSet.set d true } := by
  simp [lightChange]

theorem lightChange_pending (d : Degree) (l : LightState) (s : State) : hasCause (lightChange d l s).attn.pending .lightChange = true :=
  raiseCause_pending _ _

theorem mem_lightChange_port {d : Degree} {l : LightState} {s : State} {r : RecNo} (h : PortReq.active r ∈ s.port) :
    PortReq.active r ∈ (lightChange d l s).port := by
  refine mem_raiseCause_port ?_ (by simp)
  rw [requestStatus_port]
  split
  · exact List.mem_append_left _ h
  · exact h

/-- The light word is asked for once, and behind it the attention word where LIGHT_CHANGE was not pending (R145, R177; log 87). -/
theorem lightChange_port {d : Degree} {l : LightState} {s : State} :
    (s.win.map.isSome = true → ∃ p, p.count .light = s.port.count .light ∧
      (hasCause s.attn.pending .lightChange = true → (lightChange d l s).port = p ++ [.light]) ∧
      (hasCause s.attn.pending .lightChange = false → (lightChange d l s).port = p ++ [.light, .attention])) ∧
    (s.win.map = none → (lightChange d l s).port.count .light = s.port.count .light) := by
  have hcount : (s.port.erase .attention).count .light = s.port.count .light := List.count_erase_of_ne (by simp)
  cases hc : hasCause s.attn.pending .lightChange with
  | true =>
    have hport : (lightChange d l s).port = if s.win.map.isSome then s.port ++ [.light] else s.port := by
      rw [lightChange, raiseCause_of_pending (by simpa using hc)]; simp
    exact ⟨fun hw => ⟨s.port, rfl, fun _ => by rw [hport, if_pos hw], fun h => by simp at h⟩, fun hw => by rw [hport, hw]; rfl⟩
  | false =>
    have hport : (lightChange d l s).port = if s.win.map.isSome then (s.port ++ [PortReq.light]).erase .attention ++ [.attention] else s.port := by
      rw [lightChange, raiseCause_of_not_pending (by simpa using hc)]
      cases hw : s.win.map.isSome <;> simp [hw]
    refine ⟨fun hw => ⟨s.port.erase .attention, hcount, fun h => by simp at h, fun _ => ?_⟩, fun hw => by rw [hport, hw]; rfl⟩
    rw [hport, if_pos hw]
    by_cases hm : PortReq.attention ∈ s.port
    · rw [List.erase_append_left _ hm]; simp
    · rw [List.erase_append_right _ hm, List.erase_of_not_mem hm]; simp

/-- A degree DARK, before what follows from it. -/
def darkened (d : Degree) (s : State) : State := { s with light := { s.light with state := s.light.state.set d .dark } }

/-- A degree DARK and, where the part acts on paths, squelched (R144). -/
def darkSquelched (d : Degree) (s : State) : State :=
  if lightActs s || s.seqr.st = .unconfigured then squelchDegree d (darkened d s) else darkened d s

/-- The capture of a loss asked for, which holds restores back (R152, R155; log 101). -/
def lossCaptured (d : Degree) (s : State) : State := requestCapture (.los d) { s with light := { s.light with restoresHeld := true } }

/-- A running batch marked with a loss of light (R83; log 58). -/
def lossMarked (s : State) : State := { s with batch := { s.batch with lossStop := true } }

theorem darkSquelched_seqr (d : Degree) (s : State) : (darkSquelched d s).seqr = s.seqr := by
  unfold darkSquelched
  split
  · exact (squelchDegree_keepsCourse d _).seqr
  · rfl

theorem lossFromLit_eq (d : Degree) (s : State) : lossFromLit d s =
    let c := if lightActs s then lossCaptured d (darkSquelched d s) else darkSquelched d s
    lightChange d .dark (if s.seqr.st.isRun then lossMarked c else c) := by
  have hseqr := darkSquelched_seqr d s
  have hacts : lightActs (darkSquelched d s) = lightActs s := by simp only [lightActs, hseqr]
  have hc : (if lightActs s then lossCaptured d (darkSquelched d s) else darkSquelched d s).seqr = s.seqr := by
    split
    · simpa [lossCaptured] using hseqr
    · exact hseqr
  have hloss : lossFromLit d s =
      let c := if lightActs (darkSquelched d s) then lossCaptured d (darkSquelched d s) else darkSquelched d s
      lightChange d .dark (if c.seqr.st.isRun then lossMarked c else c) := rfl
  rw [hloss, hacts]
  simp only [hc]

theorem mem_requestCapture (c : CaptureSource) (s : State) : WorkItem.capture c ∈ (requestCapture c s).intr.work := by
  unfold requestCapture
  split
  · next h => simpa using h
  · simp

/-- What follows a squelch at a loss from LIT: the capture, the batch's mark and the change of the light state. -/
theorem lossFromLit_fields (d : Degree) (s : State) :
    let b := darkSquelched d s
    let t := lossFromLit d s
    (t.table = b.table ∧ t.ramp = b.ramp ∧ t.act = b.act) ∧ t.batch = (if s.seqr.st.isRun then { b.batch with lossStop := true } else b.batch) ∧
    t.light = { b.light with state := b.light.state.set d .dark, changeSet := b.light.changeSet.set d true
                             restoresHeld := lightActs s || b.light.restoresHeld } ∧
    (lightActs s = true → WorkItem.capture (.los d) ∈ t.intr.work) ∧ hasCause t.attn.pending .lightChange = true ∧
    ∃ c : State, t = lightChange d .dark c ∧ c.port = b.port ∧ c.attn = b.attn ∧ c.win = b.win := by
  intro b t
  let c := if lightActs s then lossCaptured d b else b
  let m := if s.seqr.st.isRun then lossMarked c else c
  have ht : t = lightChange d .dark m := lossFromLit_eq d s
  have hc : c.table = b.table ∧ c.ramp = b.ramp ∧ c.act = b.act ∧ c.batch = b.batch ∧ c.port = b.port ∧ c.attn = b.attn ∧ c.win = b.win ∧
      c.light = { b.light with restoresHeld := lightActs s || b.light.restoresHeld } := by
    simp only [c]
    split
    · next h => simp [lossCaptured, h]
    · next h => simp [h]
  obtain ⟨htable, hramp, hact, hbatch, hport, hattn, hwin, hlight⟩ := hc
  have hm : m.table = c.table ∧ m.ramp = c.ramp ∧ m.act = c.act ∧ m.port = c.port ∧ m.attn = c.attn ∧ m.win = c.win ∧ m.light = c.light ∧
      m.intr = c.intr ∧ m.batch = (if s.seqr.st.isRun then { c.batch with lossStop := true } else c.batch) := by
    simp only [m]
    split
    · exact ⟨rfl, rfl, rfl, rfl, rfl, rfl, rfl, rfl, rfl⟩
    · exact ⟨rfl, rfl, rfl, rfl, rfl, rfl, rfl, rfl, rfl⟩
  obtain ⟨htable', hramp', hact', hport', hattn', hwin', hlight', hintr', hbatch'⟩ := hm
  rw [ht]
  refine ⟨⟨?_, ?_, ?_⟩, ?_, ?_, fun ha => ?_, lightChange_pending .., m, rfl, hport'.trans hport, hattn'.trans hattn, hwin'.trans hwin⟩
  · simp [htable', htable]
  · simp [hramp', hramp]
  · simp [hact', hact]
  · simp [hbatch', hbatch]
  · rw [lightChange_light, hlight', hlight]
  · have hwork : WorkItem.capture (.los d) ∈ c.intr.work := by
      simp only [c, if_pos ha]; exact mem_requestCapture ..
    simpa [hintr'] using hwork

/-- What a squelch at a loss from LIT leaves, whatever it acts on. -/
theorem darkSquelched_frame (d : Degree) (s : State) : (darkSquelched d s).attn = s.attn ∧ (darkSquelched d s).batch = s.batch ∧
    (darkSquelched d s).win = s.win ∧ AsksActive s (darkSquelched d s) ∧ ∃ l b,
      (darkSquelched d s).light = { s.light with state := s.light.state.set d .dark, restoreList := l, begun := b } ∧
      (lightActs s = true → l = s.light.restoreList.filter (fun x => x.2 ≠ d)) := by
  unfold darkSquelched
  split
  · obtain ⟨hattn, hbatch, hwin, hasks, hlight⟩ := squelchDegree_frame d (darkened d s)
    exact ⟨hattn, hbatch, hwin, hasks, _, _, hlight, fun _ => rfl⟩
  · next h => exact ⟨rfl, rfl, rfl, .refl _, _, _, rfl, fun ha => by simp [ha] at h⟩

/-! #### The loss by the light state (R142, R153) -/

section
variable {s : State} {d : Degree}

theorem exec_qualifiedLoss (h : Awake s) : exec (.qualifiedLoss d) s = settled
    (if s.start.powerdown then { setLevel d true (fresh s) with light := { (setLevel d true (fresh s)).light with
        lossSeen := (setLevel d true (fresh s)).light.lossSeen.set d true } }
      else lossEvent d (setLevel d true (fresh s))) := by
  rw [exec, execQualifiedLoss, event_awake h]; rfl

theorem lossEvent_lit (h : s.light.state.get d = .lit) : lossEvent d s = lossFromLit d s := by simp [lossEvent, h]

theorem lossEvent_dark (h : s.light.state.get d = .dark) : lossEvent d s = s := by simp [lossEvent, h]

theorem lossEvent_holdoff (h : s.light.state.get d = .holdoff) : lossEvent d s = lightChange d .dark (setHoldOff d none s) := by
  simp [lossEvent, h]

end

theorem Path.squelch_keeps (p : Path) : p.squelch.owner = p.owner ∧ p.squelch.needs = p.needs ∧ p.squelch.att = p.att := by
  cases h : p.st <;> simp [Path.squelch, Path.needs, h]

/-- A path but for its engine shows all that a squelch changes. -/
theorem Path.fields_of_bare {p q : Path} (h : q.bare = p.bare) : q.owner = p.owner ∧ q.needs = p.needs ∧ q.att = p.att ∧ q.st = p.st ∧
    q.route = p.route ∧ q.squelched = p.squelched :=
  ⟨congrArg (·.owner) h, (congrArg Path.needs h :), congrArg (·.att) h, congrArg (·.st) h, congrArg (·.route) h, congrArg (·.squelched) h⟩

theorem Requester.serves_eq_false (pid : Nat) (q : Requester) : q.serves pid = false → match q with
    | .entry _ n _ | .restore _ n _ => n ≠ pid
    | .engine _ _ o => o.pid ≠ pid
    | _ => True := by
  intro h
  cases q with
  | entry r n u => simpa [Requester.serves] using h
  | restore r n u => simpa [Requester.serves] using h
  | engine e g o => simpa [Requester.serves] using h
  | _ => trivial

end Sys2Proof.Machine

section
open Sys2Proof Sys2Proof.Machine

/-- Settles O26: the event by the degree's light state and, from LIT, the squelch taken path by path. -/
theorem qualifiedLossByLightState : Obligations.QualifiedLossByLightState := by
  refine ⟨?_, fun p => ⟨?_, fun h => by simp [Path.squelch, h], fun h => by simp [Path.squelch, h], ?_⟩⟩
  · intro s d ha q
    refine ⟨fun hp => ?_, fun hp hs => ?_, fun hp hs => ?_, fun hp hs => ?_⟩
    · rw [exec_qualifiedLoss ha, if_pos hp]; rfl
    · rw [exec_qualifiedLoss ha, if_neg (by simp [hp]), lossEvent_dark (s := setLevel d true (fresh s)) hs]; rfl
    · rw [exec_qualifiedLoss ha, if_neg (by simp [hp]), lossEvent_holdoff (s := setLevel d true (fresh s)) hs]; rfl
    let v := setLevel d true (fresh s)
    refine ⟨lossFromLit d v, by rw [exec_qualifiedLoss ha, if_neg (by simp [hp]), lossEvent_lit (s := setLevel d true (fresh s)) hs], ?_⟩
    obtain ⟨⟨htable, hramp, hact⟩, hbatch, hlight, hcapture, hpending, c, hc, hport, hattn, hwin⟩ := lossFromLit_fields d v
    obtain ⟨hattn', hbatch', hwin', hasks, l, b, hlight', hlist⟩ := darkSquelched_frame d v
    have hstate : (lossFromLit d v).light = { v.light with
        state := v.light.state.set d .dark, changeSet := v.light.changeSet.set d true, restoreList := l, begun := b
        restoresHeld := lightActs s || s.light.restoresHeld } := by
      rw [hlight, hlight']; simp only [set_set_degree]; rfl
    have hcattn : c.attn = s.attn := hattn.trans hattn'
    have hcwin : c.win = s.win := hwin.trans hwin'
    have hccount : c.port.count .light = s.port.count .light := by rw [hport]; exact hasks.count_light
    obtain ⟨hshown, hhidden⟩ := lightChange_port (d := d) (l := .dark) (s := c)
    rw [hcattn, hcwin, hccount] at hshown
    rw [hcwin, hccount] at hhidden
    rw [← hc] at hshown hhidden
    refine ⟨by rw [hstate]; rfl, by rw [hstate]; rfl, by rw [hstate]; rfl, hpending, hshown, hhidden, by rw [hbatch, hbatch']; rfl,
      fun hl => ⟨hcapture hl, ?_⟩, fun hl => ⟨?_, ?_⟩, fun hl => ?_, fun hl hb hn => ?_⟩
    · rw [hstate, hlist hl]; intro x hx; simpa using (List.mem_filter.1 hx).2
    · rw [hstate, hl]; rfl
    · rw [hstate, hlist hl]; exact fun x hx hxd => List.mem_filter.2 ⟨hx, by simpa using hxd⟩
    · rw [hstate, hl]; rfl
    have hsquelched : darkSquelched d v = squelchedFed d (darkened d v) := by
      rw [darkSquelched, if_pos (by rw [Bool.or_eq_true, decide_eq_true_iff]; exact hl), squelchDegree_unbegun (s := darkened d v) hb]
    rw [hsquelched] at htable hramp hact hport
    have hn' : ((darkened d v).table.paths.map (·.pid)).Nodup := hn
    have hpaths : (lossFromLit d v).path? = (squelchedFed d (darkened d v)).path? := by funext n; simp only [State.path?, htable]
    have hdone : (lossFromLit d v).completed = (squelchedFed d (darkened d v)).completed := by funext n; simp only [State.completed, htable]
    have hengine : (lossFromLit d v).engine = (squelchedFed d (darkened d v)).engine := by funext n; simp only [State.engine, hramp]
    rw [hpaths, hdone, hengine, hramp, hact]
    refine ⟨fun p hpm => ?_, fun p hpm hd => ⟨fun e he => squelchedFed_frees hn' hpm hd he, (squelchedFed_withdrawn (s := darkened d v) hpm hd).2,
      fun c hc => Requester.serves_eq_false _ _ ((squelchedFed_withdrawn (s := darkened d v) hpm hd).1 c hc), squelchedFed_covers (s := darkened d v) hpm hd⟩,
      fun p hpm r h f hd hst ho hf => ?_, fun r hr => ?_⟩
    · obtain ⟨q, hq, hqb⟩ := squelchedFed_path? (d := d) hn' hpm
      obtain ⟨hso, hsn, hsa⟩ := p.squelch_keeps
      by_cases hd : p.src = .deg d
      · rw [if_pos hd] at hqb
        obtain ⟨howner, hneeds, hatt, hst, hroute, hsq⟩ := Path.fields_of_bare hqb
        exact ⟨q, hq, howner.trans hso, hneeds.trans hsn, hatt.trans hsa, fun _ => ⟨hst, hroute, hsq⟩, fun hnd => absurd hd hnd⟩
      · rw [if_neg hd] at hqb
        obtain ⟨howner, hneeds, hatt, hst, hroute, hsq⟩ := Path.fields_of_bare hqb
        exact ⟨q, hq, howner, hneeds, hatt, fun hd' => absurd hd' hd, fun _ => ⟨hst, hroute, hsq⟩⟩
    · obtain ⟨hasked, hfixed⟩ := squelchedFed_fixes hn' hpm hd (Path.fixedBySquelch_eq_some.2 ⟨hst, h, ho⟩)
      refine ⟨?_, fun hone => ?_⟩
      · rw [hc]
        exact mem_lightChange_port (hport ▸ hasked)
      · refine hfixed (fun q hq hqd hqr => ?_) f hf
        obtain ⟨hqst, hqo⟩ := Path.fixedBySquelch_eq_some.1 hqr
        exact hone q hq hqd hqst hqo
    · refine completed_squelchedFed_other (s := darkened d v) fun p hpm hd hpr => ?_
      obtain ⟨hst, k, ho⟩ := Path.fixedBySquelch_eq_some.1 hpr
      rcases hr p hpm k ho with hd' | ⟨hlive, hoff⟩
      · exact hd' hd
      · exact hst.elim hlive hoff
  · rintro (h | h) <;> simp [Path.squelch, h]
  · rintro (h | h | h | h | h | h) <;> simp [Path.squelch, h]

end

/-! ### The hold-off and restores (R142, R143, R147 to R152) -/

namespace Sys2Proof.Machine

/-! #### Restorable records, clears and expiries (R142, R143, R147) -/

theorem restorable_iff (s : State) (d : Degree) (r : RecNo) : restorable d s r = true ↔
    (∃ x, s.completed r = .path x ∧ x.st = .squelched) ∧
    (∃ p ∈ s.table.recordPaths r, p.st = .squelched ∧ p.src = .deg d ∧ ∃ i, p.info = some i ∧ i.permit = true) ∧
    (∀ b ∈ s.batch.list, b.no = r → b.held = false) ∧ (∀ x ∈ s.light.restoreList, x.1 ≠ r) ∧ (∀ x ∈ s.light.begun, x.no ≠ r) := by
  have hdone : (match s.completed r with | .path p => decide (p.st = .squelched) | _ => false) = true ↔
      ∃ x, s.completed r = .path x ∧ x.st = .squelched := by
    cases s.completed r <;> simp
  simp only [restorable, Bool.and_eq_true, List.any_eq_true, Bool.not_eq_true', List.any_eq_false, decide_eq_true_eq, and_assoc]
  refine and_congr hdone (and_congr (exists_congr fun p => and_congr_right fun _ => and_congr_right fun _ => and_congr_right fun _ => ?_) ?_)
  · cases p.info <;> simp
  · simp

section
variable {s : State} {d : Degree}

theorem exec_qualifiedClear (h : Awake s) : exec (.qualifiedClear d) s = settled
    (if s.start.powerdown then setLevel d false (fresh s) else clearEvent d (setLevel d false (fresh s))) := by
  rw [exec, execQualifiedClear, event_awake h]; rfl

theorem clearEvent_dark (h : s.light.state.get d = .dark) : clearEvent d s = lightChange d .holdoff (setHoldOff d (some (holdOffLoad s)) s) := by
  simp [clearEvent, clearFromDark, h]

theorem clearEvent_other (h : s.light.state.get d ≠ .dark) : clearEvent d s = s := by
  unfold clearEvent
  split
  · next hd => exact absurd hd h
  · rfl

theorem exec_holdOffExpiry (h : Awake s) : exec (.holdOffExpiry d) s = settled
    (if s.light.state.get d = .holdoff && s.light.holdOff.get d = some 0 && !s.start.powerdown then litEvent d (fresh s) else fresh s) := by
  rw [exec, execHoldOffExpiry, event_awake h]; rfl

/-- A degree that becomes LIT takes its restorable records to the Restore List (R142, R147). -/
theorem litEvent_fields (d : Degree) (s : State) :
    (litEvent d s).light = { s.light with
      state := s.light.state.set d .lit, holdOff := s.light.holdOff.set d none, changeSet := s.light.changeSet.set d true
      restoreList := s.light.restoreList ++
        (if lightActs s && (match s.win.cfg with | some c => c.autoRestore | none => false) then
          (allRecords.filter (restorable d s)).map (fun r => (r, d)) else []) } ∧
    hasCause (litEvent d s).attn.pending .lightChange = true := by
  let u := lightChange d .lit (setHoldOff d none s)
  have hlight : u.light = { s.light with
      state := s.light.state.set d .lit, holdOff := s.light.holdOff.set d none, changeSet := s.light.changeSet.set d true } :=
    lightChange_light d .lit (setHoldOff d none s)
  have hseqr : u.seqr = s.seqr := by simp [u]
  have hwin : u.win = s.win := by simp [u]
  have htable : u.table = s.table := by simp [u]
  have hbatch : u.batch = s.batch := by simp [u]
  have hacts : lightActs u = lightActs s := by simp only [lightActs, hseqr]
  have hrest : restorable d u = restorable d s := by
    funext r
    simp only [restorable, State.completed, htable, hbatch, hlight]
  have hlit : litEvent d s = if lightActs u && (match u.win.cfg with | some c => c.autoRestore | none => false) then
      { u with light := { u.light with restoreList := u.light.restoreList ++ (allRecords.filter (restorable d u)).map (fun r => (r, d)) } }
      else u := rfl
  rw [hacts, hwin, hrest] at hlit
  rw [hlit]
  by_cases hc : (lightActs s && (match s.win.cfg with | some c => c.autoRestore | none => false)) = true
  · rw [if_pos hc, if_pos hc]
    exact ⟨by simp only [hlight], lightChange_pending ..⟩
  · rw [if_neg hc, if_neg hc, List.append_nil]
    exact ⟨hlight, lightChange_pending ..⟩

end

/-! #### A restore begins (R148, R149) -/

theorem restoreDue_iff (s : State) : restoreDue s = true ↔ s.intr.depth = 0 ∧ s.light.begun.length < 4 ∧ lightActs s = true ∧
    s.seqr.rereadDue = false ∧ s.seqr.reread = .none ∧ s.start.powerdown = false ∧ s.light.restoresHeld = false ∧ s.light.restoreList ≠ [] := by
  simp [restoreDue, and_assoc]

/-- The head entry taken off the Restore List. -/
def restoreHeadTaken (rest : List (RecNo × Degree)) (s : State) : State := { s with light := { s.light with restoreList := rest } }

/-- The head entry taken, and its restore begun at CONNECT (R148). -/
def restoreBegun (rest : List (RecNo × Degree)) (r : RecNo) (p : Path) (s : State) : State :=
  { s with light := { s.light with restoreList := rest, begun := s.light.begun ++ [{ no := r, pid := p.pid, step := .connect }] } }

/-- Whether the head entry of the Restore List is still to be restored (R148). -/
def HeadStands (s : State) (r : RecNo) (d : Degree) (p : Path) : Prop :=
  s.table.halfPath r .old = some p ∧ (∃ x, s.completed r = .path x ∧ x.st = .squelched) ∧ p.st = .squelched ∧ p.src = .deg d ∧
    s.light.state.get d = .lit

section
variable {s : State} {r : RecNo} {d : Degree} {rest : List (RecNo × Degree)} (hdue : restoreDue s = true)
  (hl : s.light.restoreList = (r, d) :: rest)
include hdue hl

theorem beginRestore_begins {p : Path} (hr : HeadStands s r d p) : beginRestore s =
    some (if (s.profiles[(p.info.map (·.profile)).getD 0]).valid then restoreConnect { no := r, pid := p.pid, step := .connect } p (restoreBegun rest r p s)
      else restoreFailed r (restoreBegun rest r p s)) := by
  obtain ⟨hp, ⟨x, hx, hxst⟩, hst, hsrc, hlit⟩ := hr
  have hx' : (restoreHeadTaken rest s).completed r = .path x := hx
  simp only [beginRestore, hdue, hl, ← restoreHeadTaken.eq_1, hx', hp, hlit, hst, hsrc, hxst]
  simp only [Bool.not_true, Bool.false_eq_true, if_false, decide_true, Bool.and_self, if_true]
  exact (apply_ite some _ _ _).symm

/-- A stale entry only leaves the list (R148). -/
theorem beginRestore_stale (hr : ∀ p, ¬ HeadStands s r d p) : beginRestore s = some (restoreHeadTaken rest s) := by
  simp only [beginRestore, hdue, hl, ← restoreHeadTaken.eq_1, Bool.not_true, Bool.false_eq_true, if_false]
  split
  · next p hp =>
    refine if_neg fun h => hr p ?_
    simp only [Bool.and_eq_true, decide_eq_true_eq] at h
    obtain ⟨⟨⟨hdone, hst⟩, hsrc⟩, hlit⟩ := h
    refine ⟨hp, ?_, hst, hsrc, hlit⟩
    split at hdone
    · next x hx => exact ⟨x, hx, by simpa using hdone⟩
    · cases hdone
  · rfl

end

theorem restoreConnect_placed {s : State} {x : Restore} {p : Path} (hf : isFaulted s p.dst.out = false) (hl : s.act.ordinary.length < 24)
    (hw : s.act.wait = []) : restoreConnect x p s = queueOrdinary (connectCmd p (.restore x.no p.pid .connect)) s := by
  simp only [restoreConnect, handOrdinary_placed (x := connectCmd p (.restore x.no p.pid .connect)) hf hl hw]

/-! #### A restore ends (R149, R150) -/

section
variable {s : State} {r : RecNo} {x : Restore} {p : Path}

theorem endRestore_now (h : s.start.powerdown = false) : endRestore r s = raiseCause .restore { fixRecord r true true s with
    light := { s.light with begun := s.light.begun.filter (fun y => y.no ≠ r) } } := by
  simp [endRestore, h, endRestoreNow]

theorem restoreDisconnect_handed {t : State} (h : handOrdinary (disconnectCmd (setRestoreStep x.no .disconnect s) p
    (.restore x.no p.pid .disconnectKeep)) (setRestoreStep x.no .disconnect s) = some t) : restoreDisconnect x p s = t := by
  simp only [restoreDisconnect, h]

theorem restoreDisconnect_refused (h : handOrdinary (disconnectCmd (setRestoreStep x.no .disconnect s) p
    (.restore x.no p.pid .disconnectKeep)) (setRestoreStep x.no .disconnect s) = none) :
    restoreDisconnect x p s = endRestore x.no (leaveInPlace p.pid (setRestoreStep x.no .disconnect s)) := by
  simp only [restoreDisconnect, h]

section
variable (hx : s.restore? r = some x) (hp : s.path? x.pid = some p)
include hx hp

/-- A rollback that fails ends with its path in place. -/
theorem restoreFailed_rollback (hs : x.step = .returning ∨ x.step = .disconnect) :
    restoreFailed r s = endRestore r (leaveInPlace p.pid (freePathEngine p.pid s)) := by
  rcases hs with hs | hs <;> simp [restoreFailed, hx, hp, hs]

variable (hs : x.step ≠ .returning ∧ x.step ≠ .disconnect)
include hs

theorem restoreFailed_unrouted (hr : p.route = .fill) :
    restoreFailed r s = endRestore r (dropUnrouted p.pid true (withdrawEngReq p.pid (freePathEngine p.pid s))) := by
  simp [restoreFailed, hx, hp, hs, hr]

/-- A restore that fails at its source is rolled back, by its engine or by its DISCONNECT at once. -/
theorem restoreFailed_routed (hr : p.route = .source) :
    let u := releasing p.pid (withdrawEngReq p.pid s)
    (∀ g, p.engine = some g → atTop p.att = false → restoreFailed r s = setRestoreStep r .returning (startReturning g u)) ∧
    (∀ g, p.engine = some g → atTop p.att = true → restoreFailed r s = restoreDisconnect x p (freeEngine g u)) ∧
    (p.engine = none → restoreFailed r s = restoreDisconnect x p u) := by
  refine ⟨fun g hg ha => ?_, fun g hg ha => ?_, fun hg => ?_⟩
  · simp [restoreFailed, hx, hp, hs, hr, hg, ha, releasing]
  · simp [restoreFailed, hx, hp, hs, hr, hg, ha, releasing]
  · simp [restoreFailed, hx, hp, hs, hr, hg, releasing]

end
end

end Sys2Proof.Machine

namespace Sys2Proof.Machine

/-! #### A begun restore stopped (R51, R131, R152) -/

/-- A path at the fill that shows nothing of its source any more (R46, R51). -/
def Path.darkened (p : Path) : Path := { p with st := .squelched, route := .fill, squelched := false, rerouting := false }

/-- A path as the stop of its restore leaves it, but for its record's fix (R47, R51). -/
def Path.stopped (p : Path) : Path := { p.darkened with pend := none }

/-- What such a path's record is fixed as. -/
theorem Path.completed_stopped {p : Path} {h : HostFields} (hh : p.host = some h) (cfg : Option AnchorCfg) :
    p.stopped.completed cfg .squelched = .path { st := .squelched, host := h, att := (fillOf cfg p.dst.out).att, measured := none } := by
  have hs : p.stopped.host = some h := hh
  simp only [Path.completed, hs, if_true]
  rfl

theorem updatePath_congr {s : State} {pid : Nat} {f g : Path → Path} (h : ∀ q, q.pid = pid → f q = g q) : updatePath pid f s = updatePath pid g s := by
  have hmap : s.table.paths.map (fun p => if p.pid = pid then f p else p) = s.table.paths.map (fun p => if p.pid = pid then g p else p) := by
    refine List.map_congr_left fun q _ => ?_
    split
    · next hq => exact h q hq
    · rfl
  exact congrArg (fun l => { s with table := { s.table with paths := l } }) hmap

/-- A change of one path that neither renames paths nor hands them to another record. -/
structure PathTurn (r : RecNo) (pid : Nat) (s u : State) : Prop where
  names : u.table.paths.map (·.pid) = s.table.paths.map (·.pid)
  others : ∀ n, n ≠ pid → u.path? n = s.path? n
  records : ∀ n, n ≠ r → u.table.recordPaths n = s.table.recordPaths n

theorem PathTurn.trans {r : RecNo} {pid : Nat} {s t u : State} (h : PathTurn r pid s t) (k : PathTurn r pid t u) : PathTurn r pid s u :=
  ⟨k.names.trans h.names, fun n hn => (k.others n hn).trans (h.others n hn), fun n hn => (k.records n hn).trans (h.records n hn)⟩

/-- A record has one path, of a given name, with host fields. -/
def State.hasPath (s : State) (r : RecNo) (pid : Nat) : Prop := ∃ p, s.table.recordPaths r = [p] ∧ p.pid = pid ∧ p.host ≠ none

theorem mem_recordPaths {t : ConnTable} {r : RecNo} {p : Path} : p ∈ t.recordPaths r ↔ p ∈ t.paths ∧ ∃ k, p.owner = some (r, k) := by
  simp only [ConnTable.recordPaths, List.mem_filter]
  refine and_congr_right fun _ => ?_
  cases h : p.owner with
  | none => simp
  | some o => obtain ⟨q, k⟩ := o; simp

/-- The path of a name belongs to one record at most. -/
theorem hasPath_unique {s : State} (hn : (s.table.paths.map (·.pid)).Nodup) {r n : RecNo} {pid : Nat} (hr : s.hasPath r pid) (hm : s.hasPath n pid) :
    r = n := by
  obtain ⟨p, hp, hpid, -⟩ := hr
  obtain ⟨q, hq, hqid, -⟩ := hm
  obtain ⟨hpm, k, hpo⟩ := mem_recordPaths.1 (hp ▸ List.mem_cons_self : p ∈ s.table.recordPaths r)
  obtain ⟨hqm, j, hqo⟩ := mem_recordPaths.1 (hq ▸ List.mem_cons_self : q ∈ s.table.recordPaths n)
  obtain rfl : p = q := List.inj_on_of_nodup_map hn hpm hqm (hpid.trans hqid.symm)
  have := hpo.symm.trans hqo
  simp only [Option.some.injEq, Prod.mk.injEq] at this
  exact this.1

theorem recordPaths_eq (t : ConnTable) (r : RecNo) : t.recordPaths r = t.paths.filter (fun p => p.owner.map (·.1) = some r) := by
  refine List.filter_congr fun p _ => ?_
  cases h : p.owner <;> simp

theorem recordPaths_updatePath {s : State} {pid : Nat} {f : Path → Path}
    (h : ∀ q ∈ s.table.paths, q.pid = pid → (f q).owner.map (·.1) = q.owner.map (·.1)) (n : RecNo) :
    (updatePath pid f s).table.recordPaths n = (s.table.recordPaths n).map (fun q => if q.pid = pid then f q else q) := by
  simp only [recordPaths_eq, updatePath, ConnTable.update, List.filter_map]
  refine congrArg _ (List.filter_congr fun q hq => ?_)
  simp only [Function.comp_apply]
  by_cases hp : q.pid = pid
  · rw [if_pos hp, h q hq hp]
  · rw [if_neg hp]

section
variable {s : State} {r : RecNo} {pid : Nat} (hn : (s.table.paths.map (·.pid)).Nodup) (hr : s.hasPath r pid)
include hn hr

/-- A record's path is the one of its name. -/
theorem hasPath_owner : ∃ p, s.table.recordPaths r = [p] ∧ s.path? pid = some p ∧ p.pid = pid ∧ p.host ≠ none ∧
    ∀ q ∈ s.table.paths, q.pid = pid → q = p ∧ q.owner.map (·.1) = some r := by
  obtain ⟨p, hp, hpid, hhost⟩ := hr
  obtain ⟨hpm, k, hpo⟩ := mem_recordPaths.1 (hp ▸ List.mem_cons_self : p ∈ s.table.recordPaths r)
  refine ⟨p, hp, hpid ▸ path?_of_mem hn hpm, hpid, hhost, fun q hq hqp => ?_⟩
  obtain rfl : q = p := List.inj_on_of_nodup_map hn hq hpm (hqp.trans hpid.symm)
  exact ⟨rfl, by rw [hpo]; rfl⟩

/-- The path of a record changed so that it stays that record's, under its name. -/
theorem updatePath_turn {f : Path → Path} (hf : ∀ q, (f q).pid = q.pid)
    (ho : ∀ q, (f q).owner = q.owner ∨ (f q).owner.map (·.1) = some r) : PathTurn r pid s (updatePath pid f s) := by
  obtain ⟨p, hp, -, -, -, hown⟩ := hasPath_owner hn hr
  have hkeep : ∀ q ∈ s.table.paths, q.pid = pid → (f q).owner.map (·.1) = q.owner.map (·.1) := fun q hq hqp => by
    rcases ho q with h | h
    · rw [h]
    · rw [h, (hown q hq hqp).2]
  refine ⟨?_, fun n hne => path?_updatePath_other hf hne, fun n hne => ?_⟩
  · rw [updatePath, ConnTable.update, List.map_map]
    refine List.map_congr_left fun q _ => ?_
    simp only [Function.comp_apply]
    split <;> simp [hf]
  · rw [recordPaths_updatePath hkeep]
    refine (List.map_congr_left fun q hq => if_neg fun hqp => ?_).trans (List.map_id _)
    obtain ⟨hqm, k, hqo⟩ := mem_recordPaths.1 hq
    have howner := (hown q hqm hqp).2
    rw [hqo] at howner
    exact hne (Option.some.inj howner)

/-- What stopping a restore makes of its path, its record and its command (R51, R131, R152). -/
theorem stopRestore_eq {x : Restore} (hno : x.no = r) (hpid : x.pid = pid) : ∃ p, s.path? pid = some p ∧ p.host ≠ none ∧
    let q := p.stopped
    let t := setCompleted r (q.completed s.win.cfg .squelched) (updatePath pid Path.darkened (dropRequester r s))
    let f : Path → Path := fun z => { q with pid := z.pid, owner := some (r, .old), measured := powerAverage s p.dst.out p.slot }
    stopRestore x s = { activeDue r (updatePath pid f t) with light := { s.light with begun := s.light.begun.filter (fun y => y.no ≠ r) } } := by
  subst hno hpid
  obtain ⟨p, hp, hpath, hpp, hhost, -⟩ := hasPath_owner hn hr
  refine ⟨p, hpath, hhost, ?_⟩
  intro q t f
  have hrec : (updatePath x.pid Path.darkened (dropRequester x.no s)).table.recordPaths x.no = [p.darkened] := by
    have hmap := recordPaths_updatePath (s := dropRequester x.no s) (pid := x.pid) (f := Path.darkened) (fun _ _ _ => rfl) x.no
    rw [hmap, show (dropRequester x.no s).table.recordPaths x.no = [p] from hp]
    simp [hpp]
  have hfix : p.darkened.atFix true = (p.darkened, some .squelched) := Path.atFix_squelched true (.inr rfl)
  have hsettled : p.darkened.settlePending (false && !p.darkened.squelched) = q := Path.settlePending_dropped _
  have hone := fixRecord_onePath (v := false) (x := true) hrec (by simp [Path.darkened]) (congrArg Prod.snd hfix)
  simp only [hfix, hsettled] at hone
  have hlight : (fixRecord x.no false true (updatePath x.pid Path.darkened (dropRequester x.no s))).light = s.light := by simp [dropRequester]
  have hstop : stopRestore x s = { fixRecord x.no false true (updatePath x.pid Path.darkened (dropRequester x.no s)) with
      light := { s.light with begun := s.light.begun.filter (fun y => y.no ≠ x.no) } } := by
    rw [← hlight]; rfl
  rw [hstop, hone]
  have hname : p.darkened.pid = x.pid := hpp
  rw [hname, updatePath_congr (g := f) (fun z hz => by simp only [f, q, hz, ← hpp]; rfl)]
  rfl

end

/-- What a stopped restore shows in the end (R51, R152). -/
def StoppedAt (x : Restore) (u : State) : Prop :=
  (∃ q, u.path? x.pid = some q ∧ q.st = .squelched ∧ q.route = .fill ∧ q.squelched = false ∧ q.engine = none) ∧
  (∃ y, u.completed x.no = .path y ∧ y.st = .squelched) ∧ PortReq.active x.no ∈ u.port

theorem PathTurn.of_paths {r : RecNo} {pid : Nat} {s t u : State} (h : PathTurn r pid s t) (hp : u.table.paths = t.table.paths) :
    PathTurn r pid s u := by
  refine ⟨hp ▸ h.names, fun n hn => ?_, fun n hn => ?_⟩
  · rw [← h.others n hn, State.path?, ConnTable.path?, hp]; rfl
  · rw [← h.records n hn, ConnTable.recordPaths, hp]; rfl

section
variable {s : State} {x : Restore} (hn : (s.table.paths.map (·.pid)).Nodup) (hr : s.hasPath x.no x.pid)
include hn hr

theorem stopRestore_turn : PathTurn x.no x.pid s (stopRestore x s) := by
  obtain ⟨p, hp, hhost, heq⟩ := stopRestore_eq hn hr rfl rfl
  let w := updatePath x.pid Path.darkened (dropRequester x.no s)
  have hw : PathTurn x.no x.pid s w := by
    obtain ⟨names, others, records⟩ := updatePath_turn (s := dropRequester x.no s) hn hr (f := Path.darkened) (fun _ => rfl) (fun _ => .inl rfl)
    exact ⟨names, others, records⟩
  have hwpath : w.hasPath x.no x.pid := by
    obtain ⟨q, hq, -, hqp, hqh, -⟩ := hasPath_owner hn hr
    refine ⟨q.darkened, ?_, hqp, hqh⟩
    have hmap := recordPaths_updatePath (s := dropRequester x.no s) (pid := x.pid) (f := Path.darkened) (fun _ _ _ => rfl) x.no
    rw [show w.table.recordPaths x.no = _ from hmap, show (dropRequester x.no s).table.recordPaths x.no = [q] from hq]
    simp [hqp]
  have hwn : (w.table.paths.map (·.pid)).Nodup := by rw [hw.names]; exact hn
  refine (hw.trans (updatePath_turn hwn hwpath (f := fun z => { p.stopped with
    pid := z.pid, owner := some (x.no, .old), measured := powerAverage s p.dst.out p.slot }) (fun _ => rfl) (fun _ => .inr rfl))).of_paths ?_
  rw [heq]
  dsimp only
  rw [activeDue_eq]
  rfl

/-- A stopped restore's path is SQUELCHED at the fill, and its record fixed so (R51, R152). -/
theorem stopRestore_stops (he : s.pathEngine x.pid = none) : StoppedAt x (stopRestore x s) := by
  obtain ⟨p, hp, hhost, heq⟩ := stopRestore_eq hn hr rfl rfl
  obtain ⟨h, hh⟩ := Option.ne_none_iff_exists'.1 hhost
  have hengine : p.engine = none := by rw [State.pathEngine, hp] at he; exact he
  have hpath : (stopRestore x s).path? x.pid = some { p.stopped with
      pid := p.pid, owner := some (x.no, .old), measured := powerAverage s p.dst.out p.slot } := by
    have hw : (updatePath x.pid Path.darkened (dropRequester x.no s)).path? x.pid = some p.darkened :=
      path?_updatePath (s := dropRequester x.no s) hp (fun _ => rfl)
    rw [heq]
    dsimp only
    rw [activeDue_eq]
    exact path?_updatePath (p := p.darkened) (f := fun z => { p.stopped with
      pid := z.pid, owner := some (x.no, .old), measured := powerAverage s p.dst.out p.slot }) hw (fun _ => rfl)
  refine ⟨⟨_, hpath, rfl, rfl, rfl, hengine⟩, ?_, ?_⟩
  · have hdone := Path.completed_stopped hh s.win.cfg
    rw [heq]
    dsimp only
    rw [hdone]
    exact ⟨_, completed_fixCompleted_path x.no _ (updatePath x.pid _ (updatePath x.pid Path.darkened (dropRequester x.no s))), rfl⟩
  · rw [heq]; exact activeDue_mem x.no _

end

/-- A restore's own stop fixes no other record. -/
theorem completed_stopRestore_other {s : State} {x : Restore} {n : RecNo} (hn : (s.table.paths.map (·.pid)).Nodup) (hr : s.hasPath x.no x.pid)
    (h : n ≠ x.no) : (stopRestore x s).completed n = s.completed n := by
  obtain ⟨p, hp, hhost, heq⟩ := stopRestore_eq hn hr rfl rfl
  rw [heq]
  exact (completed_activeDue_other h _).trans (doneGet_doneSet_other h _ _)

end Sys2Proof.Machine

namespace Sys2Proof.Machine

/-! #### Several restores stopped -/

/-- Restores of different records, each with its record's one path. -/
structure CanStop (l : List Restore) (s : State) : Prop where
  names : (s.table.paths.map (·.pid)).Nodup
  nos : (l.map (·.no)).Nodup
  paths : ∀ x ∈ l, s.hasPath x.no x.pid

theorem CanStop.pids {l : List Restore} {s : State} (h : CanStop l s) {x y : Restore} (hx : x ∈ l) (hy : y ∈ l) (hne : x.no ≠ y.no) :
    x.pid ≠ y.pid := fun hp => hne (hasPath_unique h.names (h.paths x hx) (hp ▸ h.paths y hy))

theorem CanStop.rest {l : List Restore} {a : Restore} {s : State} (h : CanStop (a :: l) s) : CanStop l (stopRestore a s) := by
  obtain ⟨names, nos, paths⟩ := h
  obtain ⟨hal, hl⟩ := List.nodup_cons.1 nos
  have hturn := stopRestore_turn names (paths a List.mem_cons_self)
  refine ⟨by rw [hturn.names]; exact names, hl, fun x hx => ?_⟩
  have hne : x.no ≠ a.no := fun h => hal (List.mem_map.2 ⟨x, hx, h⟩)
  obtain ⟨p, hp, hpid, hhost⟩ := paths x (List.mem_cons_of_mem _ hx)
  exact ⟨p, (hturn.records x.no hne).trans hp, hpid, hhost⟩

/-- Another restore's stop leaves a stopped one as it is. -/
theorem StoppedAt.stays {x y : Restore} {s : State} (hn : (s.table.paths.map (·.pid)).Nodup) (hy : s.hasPath y.no y.pid) (hno : x.no ≠ y.no)
    (hpid : x.pid ≠ y.pid) (h : StoppedAt x s) : StoppedAt x (stopRestore y s) := by
  obtain ⟨⟨q, hq, hqs⟩, hdone, hport⟩ := h
  refine ⟨⟨q, ?_, hqs⟩, ?_, (stopRestore_asks y s).mem hport⟩
  · rw [(stopRestore_turn hn hy).others _ hpid]; exact hq
  · rw [completed_stopRestore_other hn hy hno]; exact hdone

theorem stopRestores_keeps {l : List Restore} {x : Restore} {s : State} (h : CanStop l s) (hno : ∀ y ∈ l, x.no ≠ y.no)
    (hpid : ∀ y ∈ l, x.pid ≠ y.pid) (hx : StoppedAt x s) : StoppedAt x (stopRestores l s) := by
  induction l generalizing s with
  | nil => exact hx
  | cons a l ih =>
    exact ih h.rest (fun y hy => hno y (List.mem_cons_of_mem _ hy)) (fun y hy => hpid y (List.mem_cons_of_mem _ hy))
      (hx.stays h.names (h.paths a List.mem_cons_self) (hno a List.mem_cons_self) (hpid a List.mem_cons_self))

/-- Each restore of the list shows what its stop makes, whose path holds no engine. -/
theorem stopRestores_stops {l : List Restore} {x : Restore} {s : State} (h : CanStop l s) (hx : x ∈ l) (he : s.pathEngine x.pid = none) :
    StoppedAt x (stopRestores l s) := by
  induction l generalizing s with
  | nil => cases hx
  | cons a l ih =>
    have ha := h.paths a List.mem_cons_self
    obtain ⟨hal, -⟩ := List.nodup_cons.1 h.nos
    have hne : ∀ y ∈ l, a.no ≠ y.no := fun y hy heq => hal (List.mem_map.2 ⟨y, hy, heq.symm⟩)
    rcases List.mem_cons.1 hx with rfl | hxl
    · exact stopRestores_keeps (l := l) (s := stopRestore x s) h.rest hne (fun y hy => h.pids List.mem_cons_self (List.mem_cons_of_mem _ hy) (hne y hy))
        (stopRestore_stops h.names ha he)
    · have hpid : x.pid ≠ a.pid := h.pids hx List.mem_cons_self (hne x hxl).symm
      refine ih h.rest hxl ?_
      rw [State.pathEngine, (stopRestore_turn h.names ha).others _ hpid]
      exact he

theorem mem_stopRestores_begun {l : List Restore} {s : State} {y : Restore} :
    y ∈ (stopRestores l s).light.begun ↔ y ∈ s.light.begun ∧ ∀ x ∈ l, y.no ≠ x.no := by
  induction l generalizing s with
  | nil => simp [stopRestores]
  | cons a l ih =>
    have hstep : stopRestores (a :: l) s = stopRestores l (stopRestore a s) := rfl
    obtain ⟨-, -, -, hlight⟩ := stopRestore_frame a s
    rw [hstep, ih, hlight]
    simp [and_assoc]

/-- What stopped restores leave of the engines and the queues but for the command in transmission. -/
theorem stopRestores_queues (l : List Restore) (s : State) : (stopRestores l s).ramp = s.ramp ∧
    (stopRestores l s).act.ordinary = s.act.ordinary ∧ (stopRestores l s).act.wait = s.act.wait :=
  foldl_keeps_prop (f := fun s x => stopRestore x s) (P := fun t => t.ramp = s.ramp ∧ t.act.ordinary = s.act.ordinary ∧ t.act.wait = s.act.wait)
    (fun t x ht => by
      obtain ⟨hramp, hord, hwait⟩ := ht
      exact ⟨by simpa [stopRestore, dropRequester] using hramp, by simpa [stopRestore, dropRequester] using hord,
        by simpa [stopRestore, dropRequester] using hwait⟩) l ⟨rfl, rfl, rfl⟩

/-- A requester after the restores of a list are gone (R131). -/
def Requester.without (l : List Restore) (q : Requester) : Requester := l.foldl (fun q x => q.dropRestore x.no) q

theorem stopRestores_txn (l : List Restore) (s : State) : (stopRestores l s).act.txn =
    s.act.txn.map (fun t => { t with cmd := { t.cmd with req := t.cmd.req.without l } }) := by
  induction l generalizing s with
  | nil => simp [stopRestores, Requester.without]
  | cons a l ih =>
    have hstep : stopRestores (a :: l) s = stopRestores l (stopRestore a s) := rfl
    have hone : (stopRestore a s).act.txn = s.act.txn.map (fun t => { t with cmd := { t.cmd with req := t.cmd.req.dropRestore a.no } }) := by
      simp [stopRestore, dropRequester]
    rw [hstep, ih, hone, Option.map_map]
    rfl

theorem Requester.without_other {l : List Restore} {q : Requester} (h : ∀ x ∈ l, ∀ pid u, q ≠ .restore x.no pid u) : q.without l = q := by
  induction l with
  | nil => rfl
  | cons a l ih =>
    have hdrop : q.dropRestore a.no = q := by
      cases q with
      | restore r pid u =>
        have hr : r ≠ a.no := fun hr => h a List.mem_cons_self pid u (hr ▸ rfl)
        simp [Requester.dropRestore, hr]
      | _ => rfl
    have hstep : q.without (a :: l) = (q.dropRestore a.no).without l := rfl
    rw [hstep, hdrop]
    exact ih fun x hx => h x (List.mem_cons_of_mem _ hx)

/-- A command whose restore is stopped goes on for its path alone (R131). -/
theorem Requester.without_restore {l : List Restore} {x : Restore} (hx : x ∈ l) (pid : Nat) (u : RouteUse) :
    (Requester.restore x.no pid u).without l = .gone pid := by
  induction l with
  | nil => cases hx
  | cons a l ih =>
    have hstep : (Requester.restore x.no pid u).without (a :: l) = ((Requester.restore x.no pid u).dropRestore a.no).without l := rfl
    rw [hstep]
    by_cases ha : x.no = a.no
    · have hdrop : (Requester.restore x.no pid u).dropRestore a.no = .gone pid := if_pos ha
      rw [hdrop]
      exact Requester.without_other fun y _ p v => by simp
    · have hdrop : (Requester.restore x.no pid u).dropRestore a.no = .restore x.no pid u := if_neg ha
      rw [hdrop]
      exact ih ((List.mem_cons.1 hx).resolve_left fun h => ha (h ▸ rfl))

/-! #### The begun restores of a squelched degree -/

theorem hasPath_of_bares {s u : State} {f : Path → Path} (h : u.bares = s.bares.map f)
    (hf : ∀ q, (f q).owner = q.owner ∧ (f q).pid = q.pid ∧ (f q).host = q.host) {r : RecNo} {pid : Nat} (hr : s.hasPath r pid) : u.hasPath r pid := by
  obtain ⟨p, hp, hpid, hhost⟩ := hr
  have hbare : ∀ t : State, (t.table.recordPaths r).map Path.bare = t.bares.filter (fun b => b.owner.map (·.1) = some r) := by
    intro t; rw [recordPaths_eq, State.bares, List.filter_map]; rfl
  have hrec : (u.table.recordPaths r).map Path.bare = [f p.bare] := by
    have hsame : (fun b : Path => decide (b.owner.map (·.1) = some r)) ∘ f = fun b => decide (b.owner.map (·.1) = some r) := by
      funext b; simp [(hf b).1]
    rw [hbare, h, List.filter_map, hsame, ← hbare, hp]; rfl
  obtain ⟨q, hq, hqb⟩ := List.map_eq_singleton_iff.1 hrec
  obtain ⟨-, hfpid, hfhost⟩ := hf p.bare
  refine ⟨q, hq, (congrArg Path.pid hqb).trans (hfpid.trans hpid), fun hn => hhost ?_⟩
  exact hfhost.symm.trans ((congrArg Path.host hqb).symm.trans hn)

theorem squelchedFed_bares (d : Degree) (s : State) : (squelchedFed d s).bares =
    s.bares.map (fun b => if b.pid ∈ (fedBy d s).map (·.pid) then b.squelch else b) := by
  obtain ⟨u, hu⟩ := squelchedFed_eq d s
  rw [hu]
  exact foldl_squelchPath_bares (fedBy d s) s

theorem squelchedFed_names (d : Degree) (s : State) : (squelchedFed d s).table.paths.map (·.pid) = s.table.paths.map (·.pid) := by
  have hname : ∀ t : State, t.table.paths.map (·.pid) = t.bares.map (·.pid) := fun t => by rw [State.bares, List.map_map]; rfl
  rw [hname, squelchedFed_bares, hname, List.map_map]
  refine List.map_congr_left fun b _ => ?_
  simp only [Function.comp_apply]
  split <;> simp

/-- The begun restores that the squelch of a degree stops. -/
def stoppedBy (d : Degree) (s : State) : List Restore := s.light.begun.filter (fun x => (fedBy d s).any (fun p => p.pid = x.pid))

theorem squelchDegree_stops (d : Degree) (s : State) : squelchDegree d s = stopRestores (stoppedBy d s) (squelchedFed d s) := by
  rw [squelchDegree_eq, squelchedFed_light]; rfl

section
variable {s : State} {d : Degree}

theorem canStop_squelchedFed (hb : (s.light.begun.map (·.no)).Nodup) (hp : ∀ y ∈ s.light.begun, s.hasPath y.no y.pid)
    (hn : (s.table.paths.map (·.pid)).Nodup) : CanStop (stoppedBy d s) (squelchedFed d s) where
  names := by rw [squelchedFed_names]; exact hn
  nos := hb.sublist (List.filter_sublist.map _)
  paths x hx := hasPath_of_bares (squelchedFed_bares d s) (fun q => by
    obtain ⟨ho, -, -⟩ := q.squelch_keeps
    split
    · exact ⟨ho, q.squelch_pid, q.squelch_host.1⟩
    · exact ⟨rfl, rfl, rfl⟩) (hp x (List.mem_of_mem_filter hx))

/-- A begun restore is stopped where the degree feeds its path. -/
theorem mem_stoppedBy {x : Restore} {p : Path} (hp : s.path? x.pid = some p) (hn : (s.table.paths.map (·.pid)).Nodup) :
    x ∈ stoppedBy d s ↔ x ∈ s.light.begun ∧ p.src = .deg d := by
  have hpm : p ∈ s.table.paths := List.mem_of_find?_eq_some hp
  have hpid : p.pid = x.pid := by simpa using List.find?_some hp
  rw [stoppedBy, List.mem_filter, List.any_eq_true]
  refine and_congr_right fun _ => ?_
  rw [← fedBy_names hn hpm, List.mem_map, hpid]
  simp

end

/-- Engines held for their paths, path by path (R99). -/
theorem enginesHeld_of {s : State} (h : ∀ p ∈ s.table.paths, ∀ e, p.engine = some e → ∃ o, (s.engine e).owner = some o ∧ o.pid = p.pid) :
    EnginesHeld s := by
  intro n e he
  obtain ⟨p, hp, hpe⟩ := Option.bind_eq_some_iff.1 he
  have hpid : p.pid = n := by simpa using List.find?_some hp
  exact hpid ▸ h p (List.mem_of_find?_eq_some hp) e hpe

end Sys2Proof.Machine

section
open Sys2Proof Sys2Proof.Machine

/-- Settles O27: the events by the degree's light state, a restore's begin and failures by their cases, and the restores that a squelch stops, one
after the other. -/
theorem clearAndExpiryRunTheHoldOff : Obligations.ClearAndExpiryRunTheHoldOff := by
  refine ⟨fun s d r => restorable_iff s d r, ?_, ?_, ?_, ?_, ?_⟩
  · intro s d ha q n
    have hload : holdOffLoad (setLevel d false (fresh s)) = n := by
      have hcfg : holdOffLoad (setLevel d false (fresh s)) = (s.win.cfg.map (·.holdOff)).getD 255 := rfl
      rw [hcfg]; simp only [n]; cases s.win.cfg <;> rfl
    refine ⟨fun hp hs => ?_, fun h => ?_⟩
    · rw [exec_qualifiedClear ha, if_neg (by simp [hp]), clearEvent_dark (s := setLevel d false (fresh s)) hs, hload]; rfl
    · rw [exec_qualifiedClear ha]
      split
      · rfl
      · next hp => rw [clearEvent_other (s := setLevel d false (fresh s)) (h.resolve_left hp)]; rfl
  · intro s d ha
    refine ⟨fun hs ho hp => ?_, fun h => ?_⟩
    · obtain ⟨hlight, hpending⟩ := litEvent_fields d (fresh s)
      refine ⟨litEvent d (fresh s), by rw [exec_holdOffExpiry ha, if_pos (by simp [hs, ho, hp])], ?_, ?_, ?_, hpending, ?_⟩
      · rw [hlight]; rfl
      · rw [hlight]; rfl
      · rw [hlight]; rfl
      · rw [hlight]; rfl
    · rw [exec_holdOffExpiry ha, if_neg]
      simp only [Bool.and_eq_true, decide_eq_true_eq, Bool.not_eq_true']
      rintro ⟨⟨h1, h2⟩, h3⟩
      rcases h with h | h | h
      · exact h h1
      · exact h h2
      · simp [h] at h3
  · intro s r d rest hl
    have hne : s.light.restoreList ≠ [] := by simp [hl]
    refine ⟨fun h => ?_, fun h1 h2 h3 h4 h5 h6 h7 => ?_⟩
    · have hdue : restoreDue s = false := by
        rw [← Bool.not_eq_true, restoreDue_iff]
        rintro ⟨h1, h2, h3, h4, h5, h6, h7, -⟩
        rcases h with h | h | h | h | h | h | h
        · omega
        · omega
        · simp [h] at h3
        · simp [h] at h4
        · exact h h5
        · simp [h] at h6
        · simp [h] at h7
      simp [beginRestore, hdue]
    have hdue : restoreDue s = true := (restoreDue_iff s).2 ⟨h1, h2, h3, h4, h5, h6, h7, hne⟩
    refine ⟨fun p x hp hx hxs hps hsrc hlit hv hf ho hw => ?_, fun p x hp hpath hx hxs hps hroute hsrc hlit hno hv => ?_, fun h => ?_⟩
    · rw [beginRestore_begins hdue hl ⟨hp, ⟨x, hx, hxs⟩, hps, hsrc, hlit⟩, if_pos hv,
        restoreConnect_placed (s := restoreBegun rest r p s) hf ho hw]
      rfl
    · rw [beginRestore_begins hdue hl ⟨hp, ⟨x, hx, hxs⟩, hps, hsrc, hlit⟩, if_neg (fun h => Bool.false_ne_true (hv.symm.trans h))]
      have hbegun : (restoreBegun rest r p s).restore? r = some { no := r, pid := p.pid, step := .connect } := by
        have hnone : s.light.begun.find? (fun y => y.no = r) = none := List.find?_eq_none.2 fun y hy => by simpa using hno y hy
        simp [State.restore?, restoreBegun, List.find?_append, hnone]
      rw [restoreFailed_unrouted hbegun hpath (by simp) hroute]
      rfl
    · refine beginRestore_stale hdue hl ?_
      rintro p ⟨hp, ⟨x, hx, hxs⟩, hps, hsrc, hlit⟩
      rcases h with h | h | h | ⟨q, hq, h⟩
      · exact h x hx hxs
      · simp [hp] at h
      · exact h hlit
      · obtain rfl : p = q := Option.some.inj (hp.symm.trans hq)
        exact h.elim (fun h => h hps) (fun h => h hsrc)
  · intro s x p r
    refine ⟨endRestore_now, fun _ => rfl, ⟨fun t => restoreDisconnect_handed, restoreDisconnect_refused⟩, fun hx hp hs => ?_,
      restoreFailed_rollback, ?_⟩
    · have hs' : x.step ≠ .returning ∧ x.step ≠ .disconnect := by rcases hs with hs | hs | hs <;> simp [hs]
      exact ⟨restoreFailed_unrouted hx hp hs', restoreFailed_routed hx hp hs'⟩
    · obtain ⟨hattn, -, -, hlight⟩ := stopRestore_frame x s
      exact ⟨hattn, by rw [hlight]⟩
  · intro s d hn hb hpaths hengines t
    have ht : t = stopRestores (stoppedBy d s) (squelchedFed d s) := squelchDegree_stops d s
    have hcan : CanStop (stoppedBy d s) (squelchedFed d s) := canStop_squelchedFed hb hpaths hn
    obtain ⟨hramp, hord, hwait⟩ := stopRestores_queues (stoppedBy d s) (squelchedFed d s)
    have hengine : t.engine = (squelchedFed d s).engine := by funext e; rw [ht, State.engine, hramp]; rfl
    have htxn : t.act.txn = s.act.txn.map (fun y => { y with cmd := { y.cmd with req := y.cmd.req.without (stoppedBy d s) } }) := by
      obtain ⟨-, -, -, -, hsame⟩ := squelchedFed_unmoved (d := d) (s := s)
      rw [ht, stopRestores_txn, hsame]
    have hbegun : ∀ y, y ∈ t.light.begun ↔ y ∈ s.light.begun ∧ ∀ x ∈ stoppedBy d s, y.no ≠ x.no := by
      intro y; rw [ht, mem_stopRestores_begun, squelchedFed_light]
    refine ⟨(squelchDegree_frame d s).1, fun x hx p hp hsrc => (hbegun x).2 ⟨hx, fun y hy hxy => ?_⟩, fun x hx p hp hsrc => ?_, fun y hy hnone => ?_⟩
    · obtain rfl : x = y := List.inj_on_of_nodup_map hb hx (List.mem_of_mem_filter hy) hxy
      exact hsrc ((mem_stoppedBy hp hn).1 hy).2
    · have hpm : p ∈ s.table.paths := List.mem_of_find?_eq_some hp
      have hpid : p.pid = x.pid := by simpa using List.find?_some hp
      have hstop : x ∈ stoppedBy d s := (mem_stoppedBy hp hn).2 ⟨hx, hsrc⟩
      have hfree : (squelchedFed d s).pathEngine x.pid = none := hpid ▸ squelchedFed_engineless hpm hsrc (enginesHeld_of hengines)
      obtain ⟨hpath, hdone, hport⟩ := stopRestores_stops hcan hstop hfree
      obtain ⟨hcmds, hreqs⟩ := squelchedFed_withdrawn hpm hsrc
      rw [hpid] at hcmds hreqs
      refine ⟨ht ▸ hpath, ht ▸ hdone, ht ▸ hport, fun y hy => ((hbegun y).1 hy).2 x hstop, fun e he => ?_, ?_, fun c hc => ?_,
        fun y pid use hy hreq => ?_⟩
      · rw [hengine]; exact squelchedFed_frees hn hpm hsrc he
      · rw [ht, hramp]; exact hreqs
      · rw [ht, hord, hwait] at hc
        exact Requester.serves_eq_false _ _ (hcmds c hc)
      · rw [htxn, hy, Option.map_some, hreq, Requester.without_restore hstop]
    · rw [htxn, hy, Option.map_some, Requester.without_other (l := stoppedBy d s) fun x hx => hnone x (List.mem_of_mem_filter hx)]

end
